-- ==== Sys2Proof/Word.lean ====
section
/-! DEFINITION. Words, bytes and the small closed types that instructions and events carry. -/

namespace Sys2Proof

abbrev Byte := BitVec 8
abbrev Word32 := BitVec 32
/-- A scalar register, an address while it is computed, a control register (09 R201). -/
abbrev Word := BitVec 64

/-- The kinds of access a translation is checked for (02 R44; codes of 19 R393). -/
inductive Access where
  | read | write | atomic | fetch
  deriving DecidableEq, Repr

/-- The AtomicOps and the scalar atomics' operations (09 R208; 20 R407). -/
inductive AtomicOp where
  | add | and | or | xor | swap | min | max | minu | maxu
  deriving DecidableEq, Repr

/-- The path a request packet arrives by (18 R368). -/
inductive Path where
  | ethernet (port : BitVec 3)
  | host (port : BitVec 1)
  | peer (dev : BitVec 7)
  deriving DecidableEq, Repr

/-- An inbound request's kind and data (01 R31, R32). `cas` carries compare then swap value;
`reduce` carries the target format code of R97, the rounding controls the packet was issued with and the
elements, exact: FP64 bits, or integers modulo 2^64 (15 R324). -/
inductive InReq where
  | read (len : Nat)
  | write (data : List Byte) (relaxed : Bool)
  | atomic (op : AtomicOp) (wide : Bool) (v : Word)
  | cas (wide : Bool) (cmp new : Word)
  | reduce (fmt : BitVec 4) (fcs : Word) (elems : List (Nat × Word))
  deriving DecidableEq, Repr

/-- What another member of a collective brings to it (15 R326): its rank, whether its command agrees with
the local one, the FCS it captured, its input bytes, and how it failed (0 not, 1 local failure,
2 link lost, 3 halted; `late` when the failure came after the exchange began). -/
structure CollMember where
  rank : Nat
  agrees : Bool
  fcs : Word
  input : List Byte
  fail : Nat
  late : Bool
  deriving DecidableEq, Repr

/-- The peer side of a sketch exchange (17 R359). -/
inductive SkPeer where
  | sketch (bytes : List Byte)   -- a matched peer and its sketch
  | failed                       -- the matched peer failed locally
  | linkLost
  | halted
  deriving DecidableEq, Repr

/-- Where a soft error strikes (20 R419): an 8-byte memory word (corrected or not), a register byte of a
physical pair by storage offset, an 8-byte weight-buffer word, or the k-th entry of a first-level TLB, of the second-level TLB or of the
walk cache. -/
inductive Site where
  | mem (addr : Nat) (corrected : Bool)
  | reg (physPair : Nat) (off : Nat)
  | weight (physPair : Nat) (off : Nat) (corrected : Bool)
  | l1 (k : Nat)
  | l2 (k : Nat)
  | walkCache (k : Nat)
  deriving DecidableEq, Repr

/-- The sub-causes of an illegal instruction (08 R194). -/
inductive IllegalSub where
  | permanent | reserved | reservedField | absentRegister | mode
  deriving DecidableEq, Repr

/-- The sub-cause codes of R194. -/
def IllegalSub.code : IllegalSub → BitVec 3
  | .permanent => 1
  | .reserved => 2
  | .reservedField => 3
  | .absentRegister => 4
  | .mode => 5

end Sys2Proof
end

