-- ==== Sys2Proof/Syntax.lean ====
section
/-! DEFINITION. The instructions and events of the Pritex PX9: one constructor per row of the opcode table.
Encoded rows carry their fields at their encoded widths (08 R183, R184); event rows carry what the outside or the
schedule decides (95_what_each_step_holds.md). -/

namespace Sys2Proof

inductive Instr where
  /-- R203: Adds two scalar registers modulo 2^64 into sd. -/
  | add (d : BitVec 5) (n : BitVec 5) (m : BitVec 5)
  /-- R203: Subtracts sm from sn modulo 2^64 into sd. -/
  | sub (d : BitVec 5) (n : BitVec 5) (m : BitVec 5)
  /-- R203: Bitwise AND of two scalar registers. -/
  | and (d : BitVec 5) (n : BitVec 5) (m : BitVec 5)
  /-- R203: Bitwise OR of two scalar registers. -/
  | or (d : BitVec 5) (n : BitVec 5) (m : BitVec 5)
  /-- R203: Bitwise XOR of two scalar registers. -/
  | xor (d : BitVec 5) (n : BitVec 5) (m : BitVec 5)
  /-- R203: Shifts sn left by sm[5:0]. -/
  | shl (d : BitVec 5) (n : BitVec 5) (m : BitVec 5)
  /-- R203: Shifts sn logically right by sm[5:0]. -/
  | shr (d : BitVec 5) (n : BitVec 5) (m : BitVec 5)
  /-- R203: Shifts sn arithmetically right by sm[5:0]. -/
  | sra (d : BitVec 5) (n : BitVec 5) (m : BitVec 5)
  /-- R203: Sets sd to 1 if sn is less than sm, signed. -/
  | slt (d : BitVec 5) (n : BitVec 5) (m : BitVec 5)
  /-- R203: Sets sd to 1 if sn is less than sm, unsigned. -/
  | sltu (d : BitVec 5) (n : BitVec 5) (m : BitVec 5)
  /-- R203: Low 64 bits of the product of sn and sm. -/
  | mul (d : BitVec 5) (n : BitVec 5) (m : BitVec 5)
  /-- R203: High 64 bits of the signed 128-bit product. -/
  | mulh (d : BitVec 5) (n : BitVec 5) (m : BitVec 5)
  /-- R203: High 64 bits of the unsigned 128-bit product. -/
  | mulhu (d : BitVec 5) (n : BitVec 5) (m : BitVec 5)
  /-- R204: Signed division truncated toward zero, never trapping. -/
  | div (d : BitVec 5) (n : BitVec 5) (m : BitVec 5)
  /-- R204: Unsigned division, never trapping. -/
  | divu (d : BitVec 5) (n : BitVec 5) (m : BitVec 5)
  /-- R204: Signed remainder with the sign of sn, never trapping. -/
  | rem (d : BitVec 5) (n : BitVec 5) (m : BitVec 5)
  /-- R204: Unsigned remainder, never trapping. -/
  | remu (d : BitVec 5) (n : BitVec 5) (m : BitVec 5)
  /-- R203: Signed minimum of two scalar registers. -/
  | min (d : BitVec 5) (n : BitVec 5) (m : BitVec 5)
  /-- R203: Signed maximum of two scalar registers. -/
  | max (d : BitVec 5) (n : BitVec 5) (m : BitVec 5)
  /-- R203: Unsigned minimum of two scalar registers. -/
  | minu (d : BitVec 5) (n : BitVec 5) (m : BitVec 5)
  /-- R203: Unsigned maximum of two scalar registers. -/
  | maxu (d : BitVec 5) (n : BitVec 5) (m : BitVec 5)
  /-- R203: Counts leading zero bits of sn. -/
  | clz (d : BitVec 5) (n : BitVec 5)
  /-- R203: Counts trailing zero bits of sn. -/
  | ctz (d : BitVec 5) (n : BitVec 5)
  /-- R203: Counts set bits of sn. -/
  | popc (d : BitVec 5) (n : BitVec 5)
  /-- R203: Selects sn if the condition register sx is non-zero, else sm. -/
  | sel (d : BitVec 5) (n : BitVec 5) (m : BitVec 5) (x : BitVec 5)
  /-- R203: Adds sn and sm shifted left by the amount in sx. -/
  | addsh (d : BitVec 5) (n : BitVec 5) (m : BitVec 5) (x : BitVec 5)
  /-- R205: Adds a sign-extended 13-bit immediate to sn. -/
  | addi (d : BitVec 5) (n : BitVec 5) (i : BitVec 13)
  /-- R205: Bitwise AND with a sign-extended immediate. -/
  | andi (d : BitVec 5) (n : BitVec 5) (i : BitVec 13)
  /-- R205: Bitwise OR with a sign-extended immediate. -/
  | ori (d : BitVec 5) (n : BitVec 5) (i : BitVec 13)
  /-- R205: Bitwise XOR with a sign-extended immediate. -/
  | xori (d : BitVec 5) (n : BitVec 5) (i : BitVec 13)
  /-- R205: Signed compare of sn with an immediate. -/
  | slti (d : BitVec 5) (n : BitVec 5) (i : BitVec 13)
  /-- R205: Shifts sn left by an immediate amount. -/
  | shli (d : BitVec 5) (n : BitVec 5) (i : BitVec 6)
  /-- R205: Shifts sn logically right by an immediate amount. -/
  | shri (d : BitVec 5) (n : BitVec 5) (i : BitVec 6)
  /-- R205: Shifts sn arithmetically right by an immediate amount. -/
  | srai (d : BitVec 5) (n : BitVec 5) (i : BitVec 6)
  /-- R206: Relaxed sign-extending byte load through the scalar slice. -/
  | ldB (d : BitVec 5) (n : BitVec 5) (i : BitVec 13)
  /-- R206: Relaxed zero-extending byte load. -/
  | ldBu (d : BitVec 5) (n : BitVec 5) (i : BitVec 13)
  /-- R206: Relaxed sign-extending 2-byte load. -/
  | ldH (d : BitVec 5) (n : BitVec 5) (i : BitVec 13)
  /-- R206: Relaxed zero-extending 2-byte load. -/
  | ldHu (d : BitVec 5) (n : BitVec 5) (i : BitVec 13)
  /-- R206: Relaxed sign-extending 4-byte load. -/
  | ldW (d : BitVec 5) (n : BitVec 5) (i : BitVec 13)
  /-- R206: Relaxed zero-extending 4-byte load. -/
  | ldWu (d : BitVec 5) (n : BitVec 5) (i : BitVec 13)
  /-- R206: Relaxed 8-byte load. -/
  | ldD (d : BitVec 5) (n : BitVec 5) (i : BitVec 13)
  /-- R206: Relaxed byte store through the scalar slice. -/
  | stB (d : BitVec 5) (n : BitVec 5) (i : BitVec 13)
  /-- R206: Relaxed 2-byte store. -/
  | stH (d : BitVec 5) (n : BitVec 5) (i : BitVec 13)
  /-- R206: Relaxed 4-byte store. -/
  | stW (d : BitVec 5) (n : BitVec 5) (i : BitVec 13)
  /-- R206: Relaxed 8-byte store. -/
  | stD (d : BitVec 5) (n : BitVec 5) (i : BitVec 13)
  /-- R210: Branches when sn equals sm. -/
  | beq (n : BitVec 5) (m : BitVec 5) (o : BitVec 13)
  /-- R210: Branches when sn differs from sm. -/
  | bne (n : BitVec 5) (m : BitVec 5) (o : BitVec 13)
  /-- R210: Branches when sn is less than sm, signed. -/
  | blt (n : BitVec 5) (m : BitVec 5) (o : BitVec 13)
  /-- R210: Branches when sn is at least sm, signed. -/
  | bge (n : BitVec 5) (m : BitVec 5) (o : BitVec 13)
  /-- R210: Branches when sn is less than sm, unsigned. -/
  | bltu (n : BitVec 5) (m : BitVec 5) (o : BitVec 13)
  /-- R210: Branches when sn is at least sm, unsigned. -/
  | bgeu (n : BitVec 5) (m : BitVec 5) (o : BitVec 13)
  /-- R211: Subtracts the achieved VL from sn and branches while it is non-zero. -/
  | vloop (n : BitVec 5) (o : BitVec 13)
  /-- R210: Writes the return address to sd and jumps PC-relative. -/
  | jal (d : BitVec 5) (i : BitVec 21)
  /-- R210: Writes the return address and jumps to sn plus an offset. -/
  | jalr (d : BitVec 5) (n : BitVec 5) (i : BitVec 13)
  /-- R205: Loads a sign-extended 21-bit immediate times 4,096 into sd. -/
  | ldhi (d : BitVec 5) (i : BitVec 21)
  /-- R212: Scalar floating-point add in FP32 or FP64. -/
  | fadd (d : BitVec 5) (n : BitVec 5) (m : BitVec 5) (p : BitVec 1)
  /-- R212: Scalar floating-point subtract. -/
  | fsub (d : BitVec 5) (n : BitVec 5) (m : BitVec 5) (p : BitVec 1)
  /-- R212: Scalar floating-point multiply. -/
  | fmul (d : BitVec 5) (n : BitVec 5) (m : BitVec 5) (p : BitVec 1)
  /-- R212: Scalar floating-point divide. -/
  | fdiv (d : BitVec 5) (n : BitVec 5) (m : BitVec 5) (p : BitVec 1)
  /-- R212: Scalar floating-point square root. -/
  | fsqrt (d : BitVec 5) (n : BitVec 5) (p : BitVec 1)
  /-- R212: Fused multiply-add sn times sm plus sx with one rounding. -/
  | fma (d : BitVec 5) (n : BitVec 5) (m : BitVec 5) (x : BitVec 5) (p : BitVec 1)
  /-- R166: Scalar floating-point minimum. -/
  | fmin (d : BitVec 5) (n : BitVec 5) (m : BitVec 5) (p : BitVec 1)
  /-- R166: Scalar floating-point maximum. -/
  | fmax (d : BitVec 5) (n : BitVec 5) (m : BitVec 5) (p : BitVec 1)
  /-- R213: Compares two floating-point values under the condition in sx. -/
  | fcmp (d : BitVec 5) (n : BitVec 5) (m : BitVec 5) (x : BitVec 5) (p : BitVec 1)
  /-- R214: Converts between scalar formats under the conversion code in sx. -/
  | fcvt (d : BitVec 5) (n : BitVec 5) (x : BitVec 5)
  /-- R207: Scalar load with an order and a scope. -/
  | ldOrdered (d : BitVec 5) (n : BitVec 5) (w : BitVec 5) (o : BitVec 2) (s : BitVec 2)
  /-- R207: Scalar store with an order and a scope. -/
  | stOrdered (n : BitVec 5) (m : BitVec 5) (w : BitVec 5) (o : BitVec 2) (s : BitVec 2)
  /-- R208: Atomic add returning the old value. -/
  | amoadd (d : BitVec 5) (n : BitVec 5) (m : BitVec 5) (w : BitVec 1) (o : BitVec 2) (s : BitVec 2)
  /-- R208: Atomic AND returning the old value. -/
  | amoand (d : BitVec 5) (n : BitVec 5) (m : BitVec 5) (w : BitVec 1) (o : BitVec 2) (s : BitVec 2)
  /-- R208: Atomic OR returning the old value. -/
  | amoor (d : BitVec 5) (n : BitVec 5) (m : BitVec 5) (w : BitVec 1) (o : BitVec 2) (s : BitVec 2)
  /-- R208: Atomic XOR returning the old value. -/
  | amoxor (d : BitVec 5) (n : BitVec 5) (m : BitVec 5) (w : BitVec 1) (o : BitVec 2) (s : BitVec 2)
  /-- R208: Atomic swap returning the old value. -/
  | amoswap (d : BitVec 5) (n : BitVec 5) (m : BitVec 5) (w : BitVec 1) (o : BitVec 2) (s : BitVec 2)
  /-- R208: Atomic signed minimum. -/
  | amomin (d : BitVec 5) (n : BitVec 5) (m : BitVec 5) (w : BitVec 1) (o : BitVec 2) (s : BitVec 2)
  /-- R208: Atomic signed maximum. -/
  | amomax (d : BitVec 5) (n : BitVec 5) (m : BitVec 5) (w : BitVec 1) (o : BitVec 2) (s : BitVec 2)
  /-- R208: Atomic unsigned minimum. -/
  | amominu (d : BitVec 5) (n : BitVec 5) (m : BitVec 5) (w : BitVec 1) (o : BitVec 2) (s : BitVec 2)
  /-- R208: Atomic unsigned maximum. -/
  | amomaxu (d : BitVec 5) (n : BitVec 5) (m : BitVec 5) (w : BitVec 1) (o : BitVec 2) (s : BitVec 2)
  /-- R125: Compares an 8-byte location with sn and writes sm on success, returning the old value. -/
  | cas (d : BitVec 5) (n : BitVec 5) (m : BitVec 5) (x : BitVec 5) (o : BitVec 2) (s : BitVec 2) (f : BitVec 2)
  /-- R217: Reads a control register into sd. -/
  | csrr (d : BitVec 5) (r : BitVec 12)
  /-- R217: Writes sn into the RW fields of a control register. -/
  | csrw (n : BitVec 5) (r : BitVec 12)
  /-- R217: Sets the bits of sn in a control register. -/
  | csrs (n : BitVec 5) (r : BitVec 12)
  /-- R217: Clears the bits of sn in a control register. -/
  | csrc (n : BitVec 5) (r : BitVec 12)
  /-- R216: Appends sn to q0, q2 or q3, blocking while full. -/
  | qpush (n : BitVec 5) (q : BitVec 2)
  /-- R216: Removes the oldest entry of q1, q2 or q3 into sd, blocking while empty. -/
  | qpop (d : BitVec 5) (q : BitVec 2)
  /-- R224: Traps with cause trap instruction and the given code. -/
  | trap (x : BitVec 5)
  /-- R226: Returns from a trap to TPC at the saved level. -/
  | tret
  /-- R220: Fences at system scope, posts a halt record and stops the thread. -/
  | halt
  /-- R219: Issues nothing from the thread for n times 256 cycles. -/
  | wait (x : BitVec 5)
  /-- R222: Traps with cause breakpoint and the given code. -/
  | brk (x : BitVec 5)
  /-- R221: Ends the iteration, releasing lanes, and takes the next iteration. -/
  | kend
  /-- R63: Removes every first-stage-dependent translation of the issuer's partition. -/
  | tlbiAll
  /-- R63: Removes the partition's translations of one ASN. -/
  | tlbiAsn (n : BitVec 5)
  /-- R63: Removes the translation of one virtual address and the ASN's table pointers. -/
  | tlbiVa (n : BitVec 5) (m : BitVec 5)
  /-- R63: Owner removal of translations covering one guest-physical page of a partition. -/
  | tlbiGpa (n : BitVec 5) (m : BitVec 5)
  /-- R63: Owner removal of every translation of a partition, optionally clearing dirty filters and rereading DIRTY. -/
  | tlbiPart (m : BitVec 5)
  /-- R121: Orders the thread's accesses at a scope under an order. -/
  | fence (o : BitVec 2) (s : BitVec 2)
  /-- R120: Joins the thread's slices, draining them before later accesses. -/
  | lsync
  /-- R129: Waits for earlier writes and refetches later instructions. -/
  | ifence
  /-- R376: Reads a launch record and appends it to the partition's launch queue. -/
  | launch (n : BitVec 5)
  /-- R196: Any word of the hint major executes as a no-op. -/
  | nop (h : BitVec 26)
  /-- R194: An executed word that encodes no instruction traps with its sub-cause. -/
  | illegalInstruction (w : BitVec 32) (sub : IllegalSub)
  /-- R158: Applies the lane partition, grants VL and clears TRC, TRA and ES. -/
  | setvl (d : BitVec 5) (n : BitVec 5)
  /-- R77: Sets the register count, resets the windows, zeroes registers and ends bindings. -/
  | vcfg (c : BitVec 2)
  /-- R230: Writes VTY from sn after the reserved-value checks. -/
  | vtype (n : BitVec 5)
  /-- R231: Replaces one window descriptor without zeroing. -/
  | vwin (d : BitVec 6) (n : BitVec 5)
  /-- R232: Writes LPR.REQ, the requested division of lane groups. -/
  | lpart (n : BitVec 5)
  /-- R238: Element-wise integer add of two vectors. -/
  | vadd (d : BitVec 6) (a : BitVec 6) (b : BitVec 6) (k : BitVec 3)
  /-- R238: Element-wise integer subtract. -/
  | vsub (d : BitVec 6) (a : BitVec 6) (b : BitVec 6) (k : BitVec 3)
  /-- R238: Element-wise low product. -/
  | vmul (d : BitVec 6) (a : BitVec 6) (b : BitVec 6) (k : BitVec 3)
  /-- R238: Element-wise high product. -/
  | vmulh (d : BitVec 6) (a : BitVec 6) (b : BitVec 6) (k : BitVec 3)
  /-- R238: Element-wise multiply-add into vd. -/
  | vmadd (d : BitVec 6) (a : BitVec 6) (b : BitVec 6) (k : BitVec 3)
  /-- R238: Element-wise multiply-subtract from vd. -/
  | vmsub (d : BitVec 6) (a : BitVec 6) (b : BitVec 6) (k : BitVec 3)
  /-- R238: Element-wise integer division. -/
  | vdiv (d : BitVec 6) (a : BitVec 6) (b : BitVec 6) (k : BitVec 3)
  /-- R238: Element-wise integer remainder. -/
  | vrem (d : BitVec 6) (a : BitVec 6) (b : BitVec 6) (k : BitVec 3)
  /-- R238: Element-wise integer minimum. -/
  | vmin (d : BitVec 6) (a : BitVec 6) (b : BitVec 6) (k : BitVec 3)
  /-- R238: Element-wise integer maximum. -/
  | vmax (d : BitVec 6) (a : BitVec 6) (b : BitVec 6) (k : BitVec 3)
  /-- R238: Element-wise bitwise AND. -/
  | vand (d : BitVec 6) (a : BitVec 6) (b : BitVec 6) (k : BitVec 3)
  /-- R238: Element-wise bitwise OR. -/
  | vor (d : BitVec 6) (a : BitVec 6) (b : BitVec 6) (k : BitVec 3)
  /-- R238: Element-wise bitwise XOR. -/
  | vxor (d : BitVec 6) (a : BitVec 6) (b : BitVec 6) (k : BitVec 3)
  /-- R238: Element-wise shift left. -/
  | vshl (d : BitVec 6) (a : BitVec 6) (b : BitVec 6) (k : BitVec 3)
  /-- R238: Element-wise logical shift right. -/
  | vshr (d : BitVec 6) (a : BitVec 6) (b : BitVec 6) (k : BitVec 3)
  /-- R238: Element-wise arithmetic shift right. -/
  | vsra (d : BitVec 6) (a : BitVec 6) (b : BitVec 6) (k : BitVec 3)
  /-- R238: Element-wise integer absolute value. -/
  | vabs (d : BitVec 6) (a : BitVec 6) (k : BitVec 3)
  /-- R238: Integer add of a vector and a scalar. -/
  | vaddVx (d : BitVec 6) (a : BitVec 6) (n : BitVec 5) (q : BitVec 1) (k : BitVec 3)
  /-- R238: Integer subtract of a scalar from a vector. -/
  | vsubVx (d : BitVec 6) (a : BitVec 6) (n : BitVec 5) (q : BitVec 1) (k : BitVec 3)
  /-- R238: Low product with a scalar. -/
  | vmulVx (d : BitVec 6) (a : BitVec 6) (n : BitVec 5) (q : BitVec 1) (k : BitVec 3)
  /-- R238: High product with a scalar. -/
  | vmulhVx (d : BitVec 6) (a : BitVec 6) (n : BitVec 5) (q : BitVec 1) (k : BitVec 3)
  /-- R238: Multiply-add with a scalar into vd. -/
  | vmaddVx (d : BitVec 6) (a : BitVec 6) (n : BitVec 5) (q : BitVec 1) (k : BitVec 3)
  /-- R238: Multiply-subtract with a scalar from vd. -/
  | vmsubVx (d : BitVec 6) (a : BitVec 6) (n : BitVec 5) (q : BitVec 1) (k : BitVec 3)
  /-- R238: Integer division by a scalar. -/
  | vdivVx (d : BitVec 6) (a : BitVec 6) (n : BitVec 5) (q : BitVec 1) (k : BitVec 3)
  /-- R238: Integer remainder by a scalar. -/
  | vremVx (d : BitVec 6) (a : BitVec 6) (n : BitVec 5) (q : BitVec 1) (k : BitVec 3)
  /-- R238: Integer minimum with a scalar. -/
  | vminVx (d : BitVec 6) (a : BitVec 6) (n : BitVec 5) (q : BitVec 1) (k : BitVec 3)
  /-- R238: Integer maximum with a scalar. -/
  | vmaxVx (d : BitVec 6) (a : BitVec 6) (n : BitVec 5) (q : BitVec 1) (k : BitVec 3)
  /-- R238: Bitwise AND with a scalar. -/
  | vandVx (d : BitVec 6) (a : BitVec 6) (n : BitVec 5) (q : BitVec 1) (k : BitVec 3)
  /-- R238: Bitwise OR with a scalar. -/
  | vorVx (d : BitVec 6) (a : BitVec 6) (n : BitVec 5) (q : BitVec 1) (k : BitVec 3)
  /-- R238: Bitwise XOR with a scalar. -/
  | vxorVx (d : BitVec 6) (a : BitVec 6) (n : BitVec 5) (q : BitVec 1) (k : BitVec 3)
  /-- R238: Shift left by a scalar amount. -/
  | vshlVx (d : BitVec 6) (a : BitVec 6) (n : BitVec 5) (q : BitVec 1) (k : BitVec 3)
  /-- R238: Logical shift right by a scalar amount. -/
  | vshrVx (d : BitVec 6) (a : BitVec 6) (n : BitVec 5) (q : BitVec 1) (k : BitVec 3)
  /-- R238: Arithmetic shift right by a scalar amount. -/
  | vsraVx (d : BitVec 6) (a : BitVec 6) (n : BitVec 5) (q : BitVec 1) (k : BitVec 3)
  /-- R239: Element-wise floating-point add. -/
  | vfadd (d : BitVec 6) (a : BitVec 6) (b : BitVec 6) (k : BitVec 3)
  /-- R239: Element-wise floating-point subtract. -/
  | vfsub (d : BitVec 6) (a : BitVec 6) (b : BitVec 6) (k : BitVec 3)
  /-- R239: Element-wise floating-point multiply. -/
  | vfmul (d : BitVec 6) (a : BitVec 6) (b : BitVec 6) (k : BitVec 3)
  /-- R239: Element-wise floating-point divide. -/
  | vfdiv (d : BitVec 6) (a : BitVec 6) (b : BitVec 6) (k : BitVec 3)
  /-- R239: Element-wise square root. -/
  | vfsqrt (d : BitVec 6) (a : BitVec 6) (k : BitVec 3)
  /-- R239: Element-wise reciprocal square-root estimate. -/
  | vfrsqe (d : BitVec 6) (a : BitVec 6) (k : BitVec 3)
  /-- R239: Element-wise fused multiply-add into vd. -/
  | vfma (d : BitVec 6) (a : BitVec 6) (b : BitVec 6) (k : BitVec 3)
  /-- R239: Element-wise fused multiply minus vd. -/
  | vfms (d : BitVec 6) (a : BitVec 6) (b : BitVec 6) (k : BitVec 3)
  /-- R239: Element-wise negated fused multiply plus vd. -/
  | vfnma (d : BitVec 6) (a : BitVec 6) (b : BitVec 6) (k : BitVec 3)
  /-- R239: Element-wise floating-point minimum. -/
  | vfmin (d : BitVec 6) (a : BitVec 6) (b : BitVec 6) (k : BitVec 3)
  /-- R239: Element-wise floating-point maximum. -/
  | vfmax (d : BitVec 6) (a : BitVec 6) (b : BitVec 6) (k : BitVec 3)
  /-- R239: Element-wise sign clear. -/
  | vfabs (d : BitVec 6) (a : BitVec 6) (k : BitVec 3)
  /-- R239: Element-wise sign inversion. -/
  | vfneg (d : BitVec 6) (a : BitVec 6) (k : BitVec 3)
  /-- R240: Converts each element from ET to a target format with one rounding. -/
  | vcvt (d : BitVec 6) (a : BitVec 6) (t : BitVec 4) (k : BitVec 3)
  /-- R239: Floating-point add of a scalar. -/
  | vfaddVx (d : BitVec 6) (a : BitVec 6) (n : BitVec 5) (q : BitVec 1) (k : BitVec 3)
  /-- R239: Floating-point subtract of a scalar. -/
  | vfsubVx (d : BitVec 6) (a : BitVec 6) (n : BitVec 5) (q : BitVec 1) (k : BitVec 3)
  /-- R239: Floating-point multiply by a scalar. -/
  | vfmulVx (d : BitVec 6) (a : BitVec 6) (n : BitVec 5) (q : BitVec 1) (k : BitVec 3)
  /-- R239: Floating-point divide by a scalar. -/
  | vfdivVx (d : BitVec 6) (a : BitVec 6) (n : BitVec 5) (q : BitVec 1) (k : BitVec 3)
  /-- R239: Fused multiply-add with a scalar into vd. -/
  | vfmaVx (d : BitVec 6) (a : BitVec 6) (n : BitVec 5) (q : BitVec 1) (k : BitVec 3)
  /-- R239: Fused multiply with a scalar minus vd. -/
  | vfmsVx (d : BitVec 6) (a : BitVec 6) (n : BitVec 5) (q : BitVec 1) (k : BitVec 3)
  /-- R239: Negated fused multiply with a scalar plus vd. -/
  | vfnmaVx (d : BitVec 6) (a : BitVec 6) (n : BitVec 5) (q : BitVec 1) (k : BitVec 3)
  /-- R239: Floating-point minimum with a scalar. -/
  | vfminVx (d : BitVec 6) (a : BitVec 6) (n : BitVec 5) (q : BitVec 1) (k : BitVec 3)
  /-- R239: Floating-point maximum with a scalar. -/
  | vfmaxVx (d : BitVec 6) (a : BitVec 6) (n : BitVec 5) (q : BitVec 1) (k : BitVec 3)
  /-- R241: Sets mask bits where elements are equal. -/
  | vcmpEq (d : BitVec 3) (a : BitVec 6) (b : BitVec 6) (k : BitVec 3)
  /-- R241: Sets mask bits where elements differ. -/
  | vcmpNe (d : BitVec 3) (a : BitVec 6) (b : BitVec 6) (k : BitVec 3)
  /-- R241: Sets mask bits where a is less than b, signed. -/
  | vcmpLt (d : BitVec 3) (a : BitVec 6) (b : BitVec 6) (k : BitVec 3)
  /-- R241: Sets mask bits where a is at most b, signed. -/
  | vcmpLe (d : BitVec 3) (a : BitVec 6) (b : BitVec 6) (k : BitVec 3)
  /-- R241: Sets mask bits where a is less than b, unsigned. -/
  | vcmpLtu (d : BitVec 3) (a : BitVec 6) (b : BitVec 6) (k : BitVec 3)
  /-- R241: Sets mask bits where a is at most b, unsigned. -/
  | vcmpLeu (d : BitVec 3) (a : BitVec 6) (b : BitVec 6) (k : BitVec 3)
  /-- R241: Floating-point ordered-equal compare into a mask. -/
  | vfcmpEq (d : BitVec 3) (a : BitVec 6) (b : BitVec 6) (k : BitVec 3)
  /-- R241: Floating-point not-equal compare into a mask. -/
  | vfcmpNe (d : BitVec 3) (a : BitVec 6) (b : BitVec 6) (k : BitVec 3)
  /-- R241: Floating-point less-than compare into a mask. -/
  | vfcmpLt (d : BitVec 3) (a : BitVec 6) (b : BitVec 6) (k : BitVec 3)
  /-- R241: Floating-point less-or-equal compare into a mask. -/
  | vfcmpLe (d : BitVec 3) (a : BitVec 6) (b : BitVec 6) (k : BitVec 3)
  /-- R241: Sets mask bits where either element is a NaN. -/
  | vfcmpUnord (d : BitVec 3) (a : BitVec 6) (b : BitVec 6) (k : BitVec 3)
  /-- R241: Sets mask bits where neither element is a NaN. -/
  | vfcmpOrd (d : BitVec 3) (a : BitVec 6) (b : BitVec 6) (k : BitVec 3)
  /-- R242: Mask AND over active elements. -/
  | mand (d : BitVec 3) (a : BitVec 3) (b : BitVec 3) (k : BitVec 3)
  /-- R242: Mask OR over active elements. -/
  | mor (d : BitVec 3) (a : BitVec 3) (b : BitVec 3) (k : BitVec 3)
  /-- R242: Mask XOR over active elements. -/
  | mxor (d : BitVec 3) (a : BitVec 3) (b : BitVec 3) (k : BitVec 3)
  /-- R242: Mask NOT over active elements. -/
  | mnot (d : BitVec 3) (a : BitVec 3) (k : BitVec 3)
  /-- R242: Counts active set mask bits into sd. -/
  | mpopc (d : BitVec 5) (a : BitVec 3) (k : BitVec 3)
  /-- R242: Writes the lowest active set mask bit index, or -1, to sd. -/
  | mfirst (d : BitVec 5) (a : BitVec 3) (k : BitVec 3)
  /-- R242: Sets every active bit of a mask. -/
  | mset (d : BitVec 3) (k : BitVec 3)
  /-- R241: Equal compare against a scalar into a mask. -/
  | vcmpEqVx (d : BitVec 3) (a : BitVec 6) (n : BitVec 5) (q : BitVec 1) (k : BitVec 3)
  /-- R241: Not-equal compare against a scalar. -/
  | vcmpNeVx (d : BitVec 3) (a : BitVec 6) (n : BitVec 5) (q : BitVec 1) (k : BitVec 3)
  /-- R241: Signed less-than compare against a scalar. -/
  | vcmpLtVx (d : BitVec 3) (a : BitVec 6) (n : BitVec 5) (q : BitVec 1) (k : BitVec 3)
  /-- R241: Signed less-or-equal compare against a scalar. -/
  | vcmpLeVx (d : BitVec 3) (a : BitVec 6) (n : BitVec 5) (q : BitVec 1) (k : BitVec 3)
  /-- R241: Unsigned less-than compare against a scalar. -/
  | vcmpLtuVx (d : BitVec 3) (a : BitVec 6) (n : BitVec 5) (q : BitVec 1) (k : BitVec 3)
  /-- R241: Unsigned less-or-equal compare against a scalar. -/
  | vcmpLeuVx (d : BitVec 3) (a : BitVec 6) (n : BitVec 5) (q : BitVec 1) (k : BitVec 3)
  /-- R241: Floating-point equal compare against a scalar. -/
  | vfcmpEqVx (d : BitVec 3) (a : BitVec 6) (n : BitVec 5) (q : BitVec 1) (k : BitVec 3)
  /-- R241: Floating-point not-equal compare against a scalar. -/
  | vfcmpNeVx (d : BitVec 3) (a : BitVec 6) (n : BitVec 5) (q : BitVec 1) (k : BitVec 3)
  /-- R241: Floating-point less-than compare against a scalar. -/
  | vfcmpLtVx (d : BitVec 3) (a : BitVec 6) (n : BitVec 5) (q : BitVec 1) (k : BitVec 3)
  /-- R241: Floating-point less-or-equal compare against a scalar. -/
  | vfcmpLeVx (d : BitVec 3) (a : BitVec 6) (n : BitVec 5) (q : BitVec 1) (k : BitVec 3)
  /-- R241: Unordered compare against a scalar. -/
  | vfcmpUnordVx (d : BitVec 3) (a : BitVec 6) (n : BitVec 5) (q : BitVec 1) (k : BitVec 3)
  /-- R241: Ordered compare against a scalar. -/
  | vfcmpOrdVx (d : BitVec 3) (a : BitVec 6) (n : BitVec 5) (q : BitVec 1) (k : BitVec 3)
  /-- R243: Integer sum of the carry and active elements into sd. -/
  | vredsum (d : BitVec 5) (a : BitVec 6) (n : BitVec 5) (q : BitVec 1) (k : BitVec 3)
  /-- R243: Integer maximum reduction. -/
  | vredmax (d : BitVec 5) (a : BitVec 6) (n : BitVec 5) (q : BitVec 1) (k : BitVec 3)
  /-- R243: Integer minimum reduction. -/
  | vredmin (d : BitVec 5) (a : BitVec 6) (n : BitVec 5) (q : BitVec 1) (k : BitVec 3)
  /-- R243: Bitwise AND reduction. -/
  | vredand (d : BitVec 5) (a : BitVec 6) (n : BitVec 5) (q : BitVec 1) (k : BitVec 3)
  /-- R243: Bitwise OR reduction. -/
  | vredor (d : BitVec 5) (a : BitVec 6) (n : BitVec 5) (q : BitVec 1) (k : BitVec 3)
  /-- R179: Ordered floating-point sum of the carry and active elements. -/
  | vfredsumO (d : BitVec 5) (a : BitVec 6) (n : BitVec 5) (q : BitVec 1) (k : BitVec 3)
  /-- R180: Tree floating-point sum of the carry and active elements. -/
  | vfredsumT (d : BitVec 5) (a : BitVec 6) (n : BitVec 5) (q : BitVec 1) (k : BitVec 3)
  /-- R243: Floating-point maximum reduction. -/
  | vfredmax (d : BitVec 5) (a : BitVec 6) (n : BitVec 5) (q : BitVec 1) (k : BitVec 3)
  /-- R243: Floating-point minimum reduction. -/
  | vfredmin (d : BitVec 5) (a : BitVec 6) (n : BitVec 5) (q : BitVec 1) (k : BitVec 3)
  /-- R244: Slides elements up by a scalar amount. -/
  | vslideup (d : BitVec 6) (a : BitVec 6) (n : BitVec 5) (q : BitVec 1) (k : BitVec 3)
  /-- R244: Slides elements down by a scalar amount. -/
  | vslidedown (d : BitVec 6) (a : BitVec 6) (n : BitVec 5) (q : BitVec 1) (k : BitVec 3)
  /-- R244: Reverses elements below VL. -/
  | vrev (d : BitVec 6) (a : BitVec 6) (k : BitVec 3)
  /-- R244: Permutes elements by an index vector. -/
  | vperm (d : BitVec 6) (a : BitVec 6) (b : BitVec 6) (k : BitVec 3)
  /-- R245: Packs the mask-selected elements to the front. -/
  | vcompress (d : BitVec 6) (a : BitVec 6) (k : BitVec 3)
  /-- R245: Spreads leading elements to the mask-selected positions. -/
  | vexpand (d : BitVec 6) (a : BitVec 6) (k : BitVec 3)
  /-- R244: Writes the prefix count of mask bits for each element. -/
  | viota (d : BitVec 6) (a : BitVec 3) (k : BitVec 3)
  /-- R246: Stably sorts keys and writes the permutation. -/
  | vsort (d : BitVec 6) (a : BitVec 6)
  /-- R247: Merges runs of equal adjacent keys, summing their values. -/
  | vdedup (d : BitVec 6) (a : BitVec 6) (s : BitVec 5)
  /-- R248: Running integer sum of active elements. -/
  | vscanAdd (d : BitVec 6) (a : BitVec 6) (n : BitVec 5) (q : BitVec 1) (k : BitVec 3)
  /-- R248: Running integer maximum. -/
  | vscanMax (d : BitVec 6) (a : BitVec 6) (n : BitVec 5) (q : BitVec 1) (k : BitVec 3)
  /-- R248: Running integer minimum. -/
  | vscanMin (d : BitVec 6) (a : BitVec 6) (n : BitVec 5) (q : BitVec 1) (k : BitVec 3)
  /-- R248: Running floating-point sum. -/
  | vscanFadd (d : BitVec 6) (a : BitVec 6) (n : BitVec 5) (q : BitVec 1) (k : BitVec 3)
  /-- R248: First-order linear recurrence across elements. -/
  | vrecur (d : BitVec 6) (a : BitVec 6) (n : BitVec 5) (q : BitVec 1) (k : BitVec 3)
  /-- R248: Copies a vector register. -/
  | vmv (d : BitVec 6) (a : BitVec 6) (k : BitVec 3)
  /-- R248: Broadcasts a scalar to every active element. -/
  | vbcast (d : BitVec 6) (n : BitVec 5) (q : BitVec 1) (k : BitVec 3)
  /-- R249: Extracts one element into a scalar register. -/
  | vext (d : BitVec 5) (a : BitVec 6) (n : BitVec 5) (q : BitVec 1)
  /-- R249: Inserts a scalar into one element. -/
  | vins (d : BitVec 6) (i : BitVec 5) (n : BitVec 5) (q : BitVec 1)
  /-- R248: Selects elements of two vectors under a mask. -/
  | vmerge (d : BitVec 6) (a : BitVec 6) (b : BitVec 6) (k : BitVec 3)
  /-- R288: Transposes 8 by 8 blocks across eight registers. -/
  | vtrans (d : BitVec 6)
  /-- R278: Writes +0 to every element of an accumulator. -/
  | tzero (d : BitVec 3)
  /-- R281: Multiply-accumulates A by B into an accumulator in ascending chunk order. -/
  | tmmaO (d : BitVec 3) (v : BitVec 6) (w : BitVec 4) (n : BitVec 5)
  /-- R281: Multiply-accumulates with chunks split between two half-arrays. -/
  | tmmaF (d : BitVec 3) (v : BitVec 6) (w : BitVec 4) (n : BitVec 5)
  /-- R284: Moves an accumulator block into a register group with conversion. -/
  | tmova (d : BitVec 3) (v : BitVec 6) (n : BitVec 5)
  /-- R284: Moves a register group into an accumulator block. -/
  | tmovv (d : BitVec 3) (v : BitVec 6) (n : BitVec 5)
  /-- R285: Moves one accumulator column into a register. -/
  | tcolmvOut (d : BitVec 3) (v : BitVec 6) (n : BitVec 5)
  /-- R285: Moves a register into one accumulator column. -/
  | tcolmvIn (d : BitVec 3) (v : BitVec 6) (n : BitVec 5)
  /-- R285: Moves one accumulator row into a register. -/
  | trowmvOut (d : BitVec 3) (v : BitVec 6) (n : BitVec 5)
  /-- R285: Moves a register into one accumulator row. -/
  | trowmvIn (d : BitVec 3) (v : BitVec 6) (n : BitVec 5)
  /-- R278: Multiplies every accumulator element by a scalar factor. -/
  | tscale (d : BitVec 3) (n : BitVec 5)
  /-- R286: Converts accumulator rows to B4 blocks with chosen scales. -/
  | tcvt (d : BitVec 3) (v : BitVec 6) (n : BitVec 5)
  /-- R254: Unit-stride vector load. -/
  | vld (d : BitVec 6) (n : BitVec 5) (c : BitVec 1) (k : BitVec 3)
  /-- R254: Strided vector load. -/
  | vlds (d : BitVec 6) (n : BitVec 5) (s : BitVec 5) (c : BitVec 1) (k : BitVec 3)
  /-- R255: Indexed vector gather. -/
  | vldx (d : BitVec 6) (n : BitVec 5) (i : BitVec 6) (c : BitVec 1) (k : BitVec 3)
  /-- R257: Serves a gather from one gather window and marks outstanding elements in m0. -/
  | wgather (d : BitVec 6) (n : BitVec 5) (i : BitVec 6) (c : BitVec 1) (k : BitVec 3)
  /-- R254: Unit-stride vector store. -/
  | vst (d : BitVec 6) (n : BitVec 5) (c : BitVec 1) (k : BitVec 3)
  /-- R254: Strided vector store. -/
  | vsts (d : BitVec 6) (n : BitVec 5) (s : BitVec 5) (c : BitVec 1) (k : BitVec 3)
  /-- R126: Ordered indexed scatter. -/
  | vstxO (d : BitVec 6) (n : BitVec 5) (i : BitVec 6) (c : BitVec 1) (k : BitVec 3)
  /-- R127: Unordered indexed scatter. -/
  | vstxU (d : BitVec 6) (n : BitVec 5) (i : BitVec 6) (c : BitVec 1) (k : BitVec 3)
  /-- R128: Combining scatter-add with one atomic add per location. -/
  | vsadd (d : BitVec 6) (n : BitVec 5) (i : BitVec 6) (c : BitVec 1) (k : BitVec 3)
  /-- R259: Loads a two-dimensional tile into a register group. -/
  | tload (d : BitVec 6) (n : BitVec 5) (t : BitVec 1) (s : BitVec 5) (c : BitVec 1) (k : BitVec 3)
  /-- R259: Stores a register group as a two-dimensional tile. -/
  | tstore (d : BitVec 6) (n : BitVec 5) (t : BitVec 1) (s : BitVec 5) (c : BitVec 1) (k : BitVec 3)
  /-- R261: Reads a binding record and binds a stream to a register. -/
  | vbind (d : BitVec 6) (n : BitVec 5)
  /-- R262: Writes back POS and frees a binding slot. -/
  | vunbind (d : BitVec 6)
  /-- R262: Reads a binding's stream position into sd. -/
  | vbpos (d : BitVec 6) (s : BitVec 5)
  /-- R264: Appends active elements to an append queue and signals through q1. -/
  | cappend (d : BitVec 6) (n : BitVec 5) (c : BitVec 1) (k : BitVec 3)
  /-- R272: Loads a weight-buffer slot from memory with its descriptor. -/
  | wbload (w : BitVec 4) (n : BitVec 5) (s : BitVec 5)
  /-- R273: Invalidates a weight-buffer slot. -/
  | wbinv (w : BitVec 4)
  /-- R293: Loads coordinates and values into a sparse register. -/
  | csld (d : BitVec 3) (a : BitVec 5) (b : BitVec 5)
  /-- R293: Stores a sparse register's coordinates and values. -/
  | csst (d : BitVec 3) (a : BitVec 5) (b : BitVec 5)
  /-- R294: Merges two sparse registers by sum. -/
  | csadd (d : BitVec 3) (a : BitVec 3) (b : BitVec 3) (r : BitVec 5)
  /-- R294: Merges two sparse registers by product at shared coordinates. -/
  | csmul (d : BitVec 3) (a : BitVec 3) (b : BitVec 3) (r : BitVec 5)
  /-- R294: Sparse dot product accumulated into a scalar. -/
  | csdot (d : BitVec 5) (a : BitVec 3) (b : BitVec 3) (r : BitVec 5)
  /-- R296: Scales the values of a sparse register. -/
  | csscale (d : BitVec 3) (a : BitVec 3) (n : BitVec 5)
  /-- R297: Turns non-zero dense elements into sparse entries. -/
  | cscompact (d : BitVec 3) (v : BitVec 6) (n : BitVec 5)
  /-- R297: Writes a sparse register out as a dense vector. -/
  | csexpand (v : BitVec 6) (a : BitVec 3) (n : BitVec 5)
  /-- R296: Keeps the entries at or above a resume coordinate. -/
  | csseek (d : BitVec 3) (a : BitVec 3) (n : BitVec 5)
  /-- R298: Compacts dense rows into CSR entries and row records. -/
  | cscsr (t : BitVec 6) (v : BitVec 6) (n : BitVec 5) (c : BitVec 3)
  /-- R319: Issues copy commands from a register group, recording acceptance in a mask. -/
  | ebatch (v : BitVec 6) (d : BitVec 5) (m : BitVec 3) (c : BitVec 1) (k : BitVec 3)
  /-- R318: Reads a copy command and hands it to the copy context. -/
  | ecopy (n : BitVec 5) (d : BitVec 5)
  /-- R322: Replays the following body once per point of a nest, setting s20 to s25. -/
  | rep (n : BitVec 5) (c : BitVec 5)
  /-- R138: Takes the next number on the thread timeline as a release. -/
  | tlsig (d : BitVec 5)
  /-- R136: Waits until a timeline holds a number, then acquires. -/
  | tlwait (n : BitVec 5) (m : BitVec 5)
  /-- R315: Waits on a timeline and traps on unreported shortfalls. -/
  | tlwaitChk (n : BitVec 5) (m : BitVec 5)
  /-- R315: Reads a timeline counter as a relaxed read. -/
  | tlread (d : BitVec 5) (n : BitVec 5)
  /-- R324: Sends active elements as atomic adds to consecutive target elements. -/
  | vrred (v : BitVec 6) (n : BitVec 5) (f : BitVec 4) (s : BitVec 1) (c : BitVec 1) (k : BitVec 3)
  /-- R327: Issues a ring all-reduce across member devices. -/
  | creduce (n : BitVec 5) (d : BitVec 5)
  /-- R328: Issues an all-gather across member devices. -/
  | cgather (n : BitVec 5) (d : BitVec 5)
  /-- R328: Issues an XOR parity collective delivered to one rank. -/
  | cxpar (n : BitVec 5) (d : BitVec 5)
  /-- R332: Posts atomic adds performed at the near-memory units. -/
  | nmadd (v : BitVec 6) (n : BitVec 5) (x : BitVec 1) (c : BitVec 1) (k : BitVec 3)
  /-- R332: Atomic near-memory adds that return the old values. -/
  | nmfadd (v : BitVec 6) (n : BitVec 5) (x : BitVec 1) (c : BitVec 1) (k : BitVec 3)
  /-- R140: Waits for the thread's near-memory operations to be performed. -/
  | nmfence
  /-- R140: Waits for near-memory operations, then acts as fence.rel.v. -/
  | nmfenceRel
  /-- R336: Issues an optimiser update of a tensor on the near-memory context. -/
  | nmopt (n : BitVec 5) (d : BitVec 5)
  /-- R342: Reads a PK record into the thread's lookup configuration. -/
  | pkcfg (n : BitVec 5)
  /-- R343: Runs a batch of product-key lookups into the local scratchpad. -/
  | pklook (v : BitVec 6) (n : BitVec 5) (d : BitVec 5) (c : BitVec 1) (k : BitVec 3)
  /-- R355: Writes the sketch-sizing register SKZ. -/
  | skset (n : BitVec 5)
  /-- R355: Grows one sketch class by its step, returning the new size or 0. -/
  | sksetG (n : BitVec 5) (d : BitVec 5)
  /-- R358: Issues a build of the sketch of a set class. -/
  | skbuild (n : BitVec 5) (d : BitVec 5)
  /-- R359: Issues an exchange of sketches with a peer device. -/
  | skxchg (n : BitVec 5) (d : BitVec 5)
  /-- R360: Issues a peel of the difference of two sketches. -/
  | skpeel (n : BitVec 5) (d : BitVec 5)
  /-- R266: Enters or leaves tile mode, optionally discarding tile state. -/
  | tmode (d : BitVec 1) (t : BitVec 1)
  /-- R269: Grants the tile shape TM, TN, TK from requested values. -/
  | tshape (k : BitVec 5) (n : BitVec 5) (m : BitVec 5)
  /-- R60: A walker completes a two-stage walk, setting A and D bits by compare-and-swap. -/
  | pageWalk (tid : BitVec 9) (va : Word) (acc : Access)
  /-- R106: A committed write drains from its slice and is performed at memory. -/
  | writePerformed (seq : Nat)
  /-- R139: A near-memory unit performs an atomic add at memory. -/
  | nearMemoryAdd (seq : Nat)
  /-- R141: Receiving memory applies the atomic adds of a vrred packet. -/
  | remoteReduceAdd (seq : Nat)
  /-- R317: A copy command finishes, writes its completion record and advances its timeline. -/
  | copyCommandPerformed (tid : BitVec 9) (n : Nat)
  /-- R138: The thread timeline reaches a tlsig number once earlier accesses are performed. -/
  | threadTimelineSignal (tid : BitVec 9) (n : Nat)
  /-- R144: A collective command completes on a member device. -/
  | collectivePerformed (tid : BitVec 9) (n : Nat) (members : List CollMember)
  /-- R337: An optimiser command finishes its blocks and writes its record. -/
  | nmoptPerformed (tid : BitVec 9) (n : Nat)
  /-- R346: A lookup batch writes its query records and completion record. -/
  | pklookPerformed (tid : BitVec 9) (n : Nat)
  /-- R358: A sketch build completes. -/
  | skbuildPerformed (tid : BitVec 9) (n : Nat)
  /-- R359: A matched sketch exchange completes. -/
  | skxchgPerformed (tid : BitVec 9) (n : Nat) (peer : SkPeer)
  /-- R361: A peel completes with its queue, residue and cause. -/
  | skpeelPerformed (tid : BitVec 9) (n : Nat)
  /-- R28: PCMD activate reads a descriptor, zeroes and resets the listed pairs and activates the partition. -/
  | partitionActivate (part : BitVec 6)
  /-- R28: PCMD quiesce stops dispatch to an active partition. -/
  | partitionQuiesce (part : BitVec 6)
  /-- R28: Quiesce completes once no thread of the partition holds a context. -/
  | quiesceComplete
  /-- R28: PCMD deactivate ends remaining contexts of a quiesced partition. -/
  | partitionDeactivate (part : BitVec 6)
  /-- R28: Deactivate releases pairs once every accepted command is performed. -/
  | deactivateComplete
  /-- R28: PCMD reload crossbar rereads the crossbar table. -/
  | reloadCrossbar (part : BitVec 6)
  /-- R28: PCMD resume restarts dispatch to a quiesced partition. -/
  | partitionResume (part : BitVec 6)
  /-- R28: A reserved PCMD command code is refused with result 3. -/
  | pcmdReserved (part : BitVec 6) (cmd : BitVec 3)
  /-- R71: A migration slot GO checks the command, marks the page in motion and removes translations. -/
  | pageMigration (slot : BitVec 3) (ctl : Word)
  /-- R72: The copied page's PTE is rewritten by compare-and-swap and the mark cleared. -/
  | pageMigrationComplete (slot : BitVec 3)
  /-- R69: Writing HCTL.CLR starts invalidating the hotness table. -/
  | hotnessClear (die : BitVec 3)
  /-- R69: The hotness table clearing finishes and counting resumes. -/
  | hotnessClearDone (die : BitVec 3)
  /-- R400: Context engine halt stops a context at an instruction boundary. -/
  | contextHalt (slot : BitVec 3) (ctl : Word)
  /-- R401: Context engine save writes a halted context's image. -/
  | contextSave (slot : BitVec 3) (ctl : Word)
  /-- R403: Context engine restore reads an image into a free thread, halted. -/
  | contextRestore (slot : BitVec 3) (ctl : Word)
  /-- R400: Context engine resume lets a halted context run. -/
  | contextResume (slot : BitVec 3) (ctl : Word)
  /-- R400: Repeats a refused save with its own address and options. -/
  | ctxRetry (slot : BitVec 3) (ctl : Word)
  /-- R400: Ends a halted context without a record. -/
  | abandon (slot : BitVec 3) (ctl : Word)
  /-- R404: Writes the walker block of a quiesced partition. -/
  | exportWalker (slot : BitVec 3) (ctl : Word)
  /-- R404: Reads a walker block into the launch queue state. -/
  | importWalker (slot : BitVec 3) (ctl : Word)
  /-- R400: A reserved context-engine operation is refused with STAT 1. -/
  | contextEngineReserved (slot : BitVec 3) (ctl : Word)
  /-- R382: A walker hands the next eligible iteration to a free thread with the dispatch state. -/
  | iterationDispatch (part : BitVec 6) (tid : BitVec 9)
  /-- R386: The end of a time slice sets the context aside when a candidate calls for it. -/
  | timeSliceEnd (tid : BitVec 9) (cut : Nat) (overrun : Nat)
  /-- R402: A set-aside context is restored from its slot onto the thread it left. -/
  | setAsideResume (tid : BitVec 9)
  /-- R399: A non-pre-emptible operation passing eight time slices ends its context. -/
  | watchdogExpire (tid : BitVec 9)
  /-- R395: The fault unit takes a replay record and resumes or holds its thread. -/
  | replayCommand (own : Bool) (part : BitVec 6)
  /-- R395: A held replay applies once its named timeline reaches NUM. -/
  | replayConditionMet (tid : BitVec 9)
  /-- R392: A waiting thread-stopping record is posted once its ring has room. -/
  | deferredFaultPost (tid : BitVec 9)
  /-- R371: A request packet is matched against the flow table and its record appended or dropped. -/
  | requestPacket (path : Path) (off : Nat) (bytes : List Byte) (sumsOk : Bool)
  /-- R31: A host read through a BAR is checked and performed. -/
  | hostInboundRead (port : BitVec 1) (memBar : Bool) (off : Nat) (len : Nat)
  /-- R147: A host posted write is checked and performed in port order. -/
  | hostInboundWrite (port : BitVec 1) (memBar : Bool) (off : Nat) (data : List Byte) (relaxed : Bool)
  /-- R31: A host AtomicOp is checked and performed. -/
  | hostInboundAtomic (port : BitVec 1) (memBar : Bool) (off : Nat) (req : InReq)
  /-- R32: A peer request is checked against the peer window table and performed. -/
  | peerInboundRequest (src : BitVec 7) (dest : BitVec 7) (addr : BitVec 44) (req : InReq)
  /-- R408: A root-port device request is mapped through its partition's second stage. -/
  | rootPortInbound (port : BitVec 2) (gpa : Word) (req : InReq)
  /-- R407: A frame that is not a request packet goes to the owner's firmware. -/
  | ethernetFrame (port : BitVec 3) (bytes : List Byte)
  /-- R414: A management master's MCTP request arrives on its path. -/
  | mctpMessage (net : Bool) (addr : BitVec 52) (req : InReq)
  /-- R409: A scale-up link goes down, failing non-posted and dropping posted traffic in flight. -/
  | linkDown (port : BitVec 4)
  /-- R409: A non-posted link request without completion for 10 ms fails with permission. -/
  | completionTimeout (tid : BitVec 10) (k : Nat)
  /-- R421: A port retrains onto its spare lane, or retires a lane with none left. -/
  | linkLaneFault (port : BitVec 4) (spare : Bool)
  /-- R415: OCLM claim takes vacant ownership for an eligible master. -/
  | claim (m : BitVec 2)
  /-- R415: OCLM offer begins handing ownership to a target master. -/
  | offer (m : BitVec 2) (tgt : BitVec 3)
  /-- R415: OCLM accept by the offered target waits for busy slots to clear. -/
  | accept (m : BitVec 2)
  /-- R415: A pending accept takes ownership once PCMD and engine slots are idle. -/
  | acceptComplete
  /-- R415: A pending accept still blocked after 1 s is refused and the offer withdrawn. -/
  | acceptTimeout
  /-- R415: An offer not accepted within 1 s lapses. -/
  | offerLapse
  /-- R416: The owner's port link or MCTP traffic fails. -/
  | ownerPathFailure
  /-- R416: After a further second without recovery ownership becomes vacant. -/
  | ownerLost
  /-- R413: Writing ATCTL bit 0 starts signing an attestation report. -/
  | attestationRequest
  /-- R413: The signed attestation report becomes readable. -/
  | attestationDone
  /-- R411: Reset starts the boot ROM, which loads and verifies the boot stages. -/
  | moduleReset
  /-- R411: Writing BOOTST.RGO in recovery verifies and runs the written image. -/
  | recoveryVerify
  /-- R418: The governor grants leave to the head request when the budget allows. -/
  | powerLeaveGrant (die : BitVec 3)
  /-- R418: Input power above 2,800 W halves every governor's effective budget. -/
  | powerInputOverlimit
  /-- R418: Input power below 2,600 W restores the full budgets. -/
  | powerInputRecovered
  /-- R419: Periodic scrub reads memory and writes back corrected words. -/
  | patrolScrub
  /-- R420: A spare-map byte write remaps a logical slot when its contexts permit. -/
  | spareMapWrite (die : BitVec 3) (slot : BitVec 5) (v : Byte)
  /-- R420: A lane-map byte write remaps a logical lane under the same condition. -/
  | laneMapWrite (die : BitVec 3) (slot : BitVec 5) (lane : BitVec 6) (v : Byte)
  /-- R421: A memory row or channel is copied and replaced while accesses stall. -/
  | spareRowReplace (unit : Byte) (addr : Word)
  /-- R7: A write to a control-die or die register without its own row updates its RW fields. -/
  | registerWrite (off : BitVec 32) (v : Word)
  /-- R33: A completion, refusal or acknowledgement arrives from a host or peer target for an outbound access. -/
  | outboundCompletion (tid : BitVec 10) (k : Nat) (refused : Bool) (data : List Byte)
  /-- R409: A scale-up link comes up, so device numbers routed to its port reach a peer again. -/
  | linkUp (port : BitVec 4)
  /-- R416: The Data Link Layer of a host port comes back up, recovering the owner's path. -/
  | dataLinkLayerUp (port : BitVec 1)
  /-- R419: A soft error corrupts stored bits, leaving a parity failure or an uncorrectable or correctable ECC word. -/
  | softError (site : Site)
  /-- R28: Activation zeroing ends, BUSY clears and the partition becomes active. -/
  | activateComplete
  /-- R400: A context-engine command finishes, clearing its slot's BUSY and writing STAT and RES. -/
  | contextEngineDone (slot : BitVec 3)
  /-- R219: The n × 256-cycle count of a wait runs out and the thread issues again. -/
  | waitExpire (tid : BitVec 9)
  deriving DecidableEq, Repr

end Sys2Proof
end

