-- ==== Sys2Proof/WellFormed.lean ====
section
/-! DEFINITION. Which instructions are well formed: the operand values that 08 R184, R190, R119, R186, R187 and the
instruction chapters admit. A word whose fields break one of these is no instruction (08 R194). -/

namespace Sys2Proof

/-- The control-register numbers of 08 R190. -/
def csrListed (r : BitVec 12) : Bool :=
  r.toNat ≤ 0x10 || (0x18 ≤ r.toNat && r.toNat ≤ 0x1F) || (0x100 ≤ r.toNat && r.toNat ≤ 0x104)

/-- 08 R184: N = 1 needs a named mask. -/
def maskOk (c : BitVec 1) (k : BitVec 3) : Bool := c == 0 || k != 0

/-- 08 R184: with Q = 1 the scalar source field is 0. -/
def queueOk (q : BitVec 1) (n : BitVec 5) : Bool := q == 0 || n == 0

/-- 08 R184: with Q = 1 a scalar destination field is 0 too. -/
def queueOkD (q : BitVec 1) (n d : BitVec 5) : Bool := q == 0 || (n == 0 && d == 0)

/-- Well-formedness of an instruction. -/
def Instr.wf (i : Instr) : Bool :=
  match i with
  | .add _ _ _ => true
  | .sub _ _ _ => true
  | .and _ _ _ => true
  | .or _ _ _ => true
  | .xor _ _ _ => true
  | .shl _ _ _ => true
  | .shr _ _ _ => true
  | .sra _ _ _ => true
  | .slt _ _ _ => true
  | .sltu _ _ _ => true
  | .mul _ _ _ => true
  | .mulh _ _ _ => true
  | .mulhu _ _ _ => true
  | .div _ _ _ => true
  | .divu _ _ _ => true
  | .rem _ _ _ => true
  | .remu _ _ _ => true
  | .min _ _ _ => true
  | .max _ _ _ => true
  | .minu _ _ _ => true
  | .maxu _ _ _ => true
  | .clz _ _ => true
  | .ctz _ _ => true
  | .popc _ _ => true
  | .sel _ _ _ _ => true
  | .addsh _ _ _ _ => true
  | .addi _ _ _ => true
  | .andi _ _ _ => true
  | .ori _ _ _ => true
  | .xori _ _ _ => true
  | .slti _ _ _ => true
  | .shli _ _ _ => true
  | .shri _ _ _ => true
  | .srai _ _ _ => true
  | .ldB _ _ _ => true
  | .ldBu _ _ _ => true
  | .ldH _ _ _ => true
  | .ldHu _ _ _ => true
  | .ldW _ _ _ => true
  | .ldWu _ _ _ => true
  | .ldD _ _ _ => true
  | .stB _ _ _ => true
  | .stH _ _ _ => true
  | .stW _ _ _ => true
  | .stD _ _ _ => true
  | .beq _ _ _ => true
  | .bne _ _ _ => true
  | .blt _ _ _ => true
  | .bge _ _ _ => true
  | .bltu _ _ _ => true
  | .bgeu _ _ _ => true
  | .vloop n _ => n != 0
  | .jal _ _ => true
  | .jalr _ _ _ => true
  | .ldhi _ _ => true
  | .fadd _ _ _ _ => true
  | .fsub _ _ _ _ => true
  | .fmul _ _ _ _ => true
  | .fdiv _ _ _ _ => true
  | .fsqrt _ _ _ => true
  | .fma _ _ _ _ _ => true
  | .fmin _ _ _ _ => true
  | .fmax _ _ _ _ => true
  | .fcmp _ _ _ x _ => x.toNat ≤ 3
  | .fcvt _ _ x => x.toNat ≤ 13
  | .ldOrdered _ _ w o _ => w.toNat ≤ 6 && o.toNat ≤ 1
  | .stOrdered _ _ w o _ => (w == 0 || w == 2 || w == 4 || w == 6) && (o == 0 || o == 2)
  | .amoadd _ _ _ _ _ _ => true
  | .amoand _ _ _ _ _ _ => true
  | .amoor _ _ _ _ _ _ => true
  | .amoxor _ _ _ _ _ _ => true
  | .amoswap _ _ _ _ _ _ => true
  | .amomin _ _ _ _ _ _ => true
  | .amomax _ _ _ _ _ _ => true
  | .amominu _ _ _ _ _ _ => true
  | .amomaxu _ _ _ _ _ _ => true
  | .cas _ _ _ _ _ _ f => f.toNat ≤ 1
  | .csrr _ r => csrListed r
  | .csrw _ r => csrListed r
  | .csrs _ r => csrListed r
  | .csrc _ r => csrListed r
  | .qpush _ q => q != 1
  | .qpop _ q => q != 0
  | .trap _ => true
  | .tret => true
  | .halt => true
  | .wait _ => true
  | .brk _ => true
  | .kend => true
  | .tlbiAll => true
  | .tlbiAsn _ => true
  | .tlbiVa _ _ => true
  | .tlbiGpa _ _ => true
  | .tlbiPart _ => true
  | .fence o _ => o != 0
  | .lsync => true
  | .ifence => true
  | .launch _ => true
  | .nop _ => true
  | .illegalInstruction _ _ => true
  | .setvl _ _ => true
  | .vcfg _ => true
  | .vtype _ => true
  | .vwin _ _ => true
  | .lpart _ => true
  | .vadd _ _ _ _ => true
  | .vsub _ _ _ _ => true
  | .vmul _ _ _ _ => true
  | .vmulh _ _ _ _ => true
  | .vmadd _ _ _ _ => true
  | .vmsub _ _ _ _ => true
  | .vdiv _ _ _ _ => true
  | .vrem _ _ _ _ => true
  | .vmin _ _ _ _ => true
  | .vmax _ _ _ _ => true
  | .vand _ _ _ _ => true
  | .vor _ _ _ _ => true
  | .vxor _ _ _ _ => true
  | .vshl _ _ _ _ => true
  | .vshr _ _ _ _ => true
  | .vsra _ _ _ _ => true
  | .vabs _ _ _ => true
  | .vaddVx _ _ n q _ => queueOk q n
  | .vsubVx _ _ n q _ => queueOk q n
  | .vmulVx _ _ n q _ => queueOk q n
  | .vmulhVx _ _ n q _ => queueOk q n
  | .vmaddVx _ _ n q _ => queueOk q n
  | .vmsubVx _ _ n q _ => queueOk q n
  | .vdivVx _ _ n q _ => queueOk q n
  | .vremVx _ _ n q _ => queueOk q n
  | .vminVx _ _ n q _ => queueOk q n
  | .vmaxVx _ _ n q _ => queueOk q n
  | .vandVx _ _ n q _ => queueOk q n
  | .vorVx _ _ n q _ => queueOk q n
  | .vxorVx _ _ n q _ => queueOk q n
  | .vshlVx _ _ n q _ => queueOk q n
  | .vshrVx _ _ n q _ => queueOk q n
  | .vsraVx _ _ n q _ => queueOk q n
  | .vfadd _ _ _ _ => true
  | .vfsub _ _ _ _ => true
  | .vfmul _ _ _ _ => true
  | .vfdiv _ _ _ _ => true
  | .vfsqrt _ _ _ => true
  | .vfrsqe _ _ _ => true
  | .vfma _ _ _ _ => true
  | .vfms _ _ _ _ => true
  | .vfnma _ _ _ _ => true
  | .vfmin _ _ _ _ => true
  | .vfmax _ _ _ _ => true
  | .vfabs _ _ _ => true
  | .vfneg _ _ _ => true
  | .vcvt _ _ t _ => t != 6
  | .vfaddVx _ _ n q _ => queueOk q n
  | .vfsubVx _ _ n q _ => queueOk q n
  | .vfmulVx _ _ n q _ => queueOk q n
  | .vfdivVx _ _ n q _ => queueOk q n
  | .vfmaVx _ _ n q _ => queueOk q n
  | .vfmsVx _ _ n q _ => queueOk q n
  | .vfnmaVx _ _ n q _ => queueOk q n
  | .vfminVx _ _ n q _ => queueOk q n
  | .vfmaxVx _ _ n q _ => queueOk q n
  | .vcmpEq _ _ _ _ => true
  | .vcmpNe _ _ _ _ => true
  | .vcmpLt _ _ _ _ => true
  | .vcmpLe _ _ _ _ => true
  | .vcmpLtu _ _ _ _ => true
  | .vcmpLeu _ _ _ _ => true
  | .vfcmpEq _ _ _ _ => true
  | .vfcmpNe _ _ _ _ => true
  | .vfcmpLt _ _ _ _ => true
  | .vfcmpLe _ _ _ _ => true
  | .vfcmpUnord _ _ _ _ => true
  | .vfcmpOrd _ _ _ _ => true
  | .mand _ _ _ _ => true
  | .mor _ _ _ _ => true
  | .mxor _ _ _ _ => true
  | .mnot _ _ _ => true
  | .mpopc _ _ _ => true
  | .mfirst _ _ _ => true
  | .mset _ _ => true
  | .vcmpEqVx _ _ n q _ => queueOk q n
  | .vcmpNeVx _ _ n q _ => queueOk q n
  | .vcmpLtVx _ _ n q _ => queueOk q n
  | .vcmpLeVx _ _ n q _ => queueOk q n
  | .vcmpLtuVx _ _ n q _ => queueOk q n
  | .vcmpLeuVx _ _ n q _ => queueOk q n
  | .vfcmpEqVx _ _ n q _ => queueOk q n
  | .vfcmpNeVx _ _ n q _ => queueOk q n
  | .vfcmpLtVx _ _ n q _ => queueOk q n
  | .vfcmpLeVx _ _ n q _ => queueOk q n
  | .vfcmpUnordVx _ _ n q _ => queueOk q n
  | .vfcmpOrdVx _ _ n q _ => queueOk q n
  | .vredsum d _ n q _ => queueOkD q n d
  | .vredmax d _ n q _ => queueOkD q n d
  | .vredmin d _ n q _ => queueOkD q n d
  | .vredand d _ n q _ => queueOkD q n d
  | .vredor d _ n q _ => queueOkD q n d
  | .vfredsumO d _ n q _ => queueOkD q n d
  | .vfredsumT d _ n q _ => queueOkD q n d
  | .vfredmax d _ n q _ => queueOkD q n d
  | .vfredmin d _ n q _ => queueOkD q n d
  | .vslideup _ _ n q _ => queueOk q n
  | .vslidedown _ _ n q _ => queueOk q n
  | .vrev _ _ _ => true
  | .vperm _ _ _ _ => true
  | .vcompress _ _ k => k != 0
  | .vexpand _ _ k => k != 0
  | .viota _ _ _ => true
  | .vsort _ _ => true
  | .vdedup _ _ _ => true
  | .vscanAdd _ _ n q _ => queueOk q n
  | .vscanMax _ _ n q _ => queueOk q n
  | .vscanMin _ _ n q _ => queueOk q n
  | .vscanFadd _ _ n q _ => queueOk q n
  | .vrecur _ _ n q _ => queueOk q n
  | .vmv _ _ _ => true
  | .vbcast _ n q _ => queueOk q n
  | .vext d _ n q => queueOkD q n d
  | .vins _ _ n q => queueOk q n
  | .vmerge _ _ _ k => k != 0
  | .vtrans _ => true
  | .tzero _ => true
  | .tmmaO _ _ _ _ => true
  | .tmmaF _ _ _ _ => true
  | .tmova _ _ _ => true
  | .tmovv _ _ _ => true
  | .tcolmvOut _ _ _ => true
  | .tcolmvIn _ _ _ => true
  | .trowmvOut _ _ _ => true
  | .trowmvIn _ _ _ => true
  | .tscale _ _ => true
  | .tcvt _ _ _ => true
  | .vld _ _ c k => maskOk c k
  | .vlds _ _ _ c k => maskOk c k
  | .vldx _ _ _ c k => maskOk c k
  | .wgather _ _ _ c k => maskOk c k
  | .vst _ _ c k => maskOk c k
  | .vsts _ _ _ c k => maskOk c k
  | .vstxO _ _ _ c k => maskOk c k
  | .vstxU _ _ _ c k => maskOk c k
  | .vsadd _ _ _ c k => maskOk c k
  | .tload _ _ _ _ c k => maskOk c k
  | .tstore _ _ _ _ c k => maskOk c k
  | .vbind _ _ => true
  | .vunbind _ => true
  | .vbpos _ _ => true
  | .cappend _ _ c k => maskOk c k
  | .wbload _ _ _ => true
  | .wbinv _ => true
  | .csld _ _ _ => true
  | .csst _ _ _ => true
  | .csadd _ _ _ _ => true
  | .csmul _ _ _ _ => true
  | .csdot _ _ _ _ => true
  | .csscale _ _ _ => true
  | .cscompact _ _ _ => true
  | .csexpand _ _ _ => true
  | .csseek _ _ _ => true
  | .cscsr _ _ _ _ => true
  | .ebatch _ _ _ c k => maskOk c k
  | .ecopy _ _ => true
  | .rep _ _ => true
  | .tlsig _ => true
  | .tlwait _ _ => true
  | .tlwaitChk _ _ => true
  | .tlread _ _ => true
  | .vrred _ _ _ _ c k => maskOk c k
  | .creduce _ _ => true
  | .cgather _ _ => true
  | .cxpar _ _ => true
  | .nmadd _ _ _ c k => maskOk c k
  | .nmfadd _ _ _ c k => maskOk c k
  | .nmfence => true
  | .nmfenceRel => true
  | .nmopt _ _ => true
  | .pkcfg _ => true
  | .pklook _ _ _ c k => maskOk c k
  | .skset _ => true
  | .sksetG _ _ => true
  | .skbuild _ _ => true
  | .skxchg _ _ => true
  | .skpeel _ _ => true
  | .tmode _ _ => true
  | .tshape _ _ _ => true
  | .pageWalk _ _ _ => true
  | .writePerformed _ => true
  | .nearMemoryAdd _ => true
  | .remoteReduceAdd _ => true
  | .copyCommandPerformed _ _ => true
  | .threadTimelineSignal _ _ => true
  | .collectivePerformed _ _ _ => true
  | .nmoptPerformed _ _ => true
  | .pklookPerformed _ _ => true
  | .skbuildPerformed _ _ => true
  | .skxchgPerformed _ _ _ => true
  | .skpeelPerformed _ _ => true
  | .partitionActivate _ => true
  | .partitionQuiesce _ => true
  | .quiesceComplete => true
  | .partitionDeactivate _ => true
  | .deactivateComplete => true
  | .reloadCrossbar _ => true
  | .partitionResume _ => true
  | .pcmdReserved _ cmd => 6 ≤ cmd.toNat
  | .pageMigration _ _ => true
  | .pageMigrationComplete _ => true
  | .hotnessClear _ => true
  | .hotnessClearDone _ => true
  | .contextHalt _ _ => true
  | .contextSave _ _ => true
  | .contextRestore _ _ => true
  | .contextResume _ _ => true
  | .ctxRetry _ _ => true
  | .abandon _ _ => true
  | .exportWalker _ _ => true
  | .importWalker _ _ => true
  | .contextEngineReserved _ _ => true
  | .iterationDispatch _ _ => true
  | .timeSliceEnd _ _ _ => true
  | .setAsideResume _ => true
  | .watchdogExpire _ => true
  | .replayCommand _ _ => true
  | .replayConditionMet _ => true
  | .deferredFaultPost _ => true
  | .requestPacket _ _ _ _ => true
  | .hostInboundRead _ _ _ _ => true
  | .hostInboundWrite _ _ _ _ _ => true
  | .hostInboundAtomic _ _ _ _ => true
  | .peerInboundRequest _ _ _ _ => true
  | .rootPortInbound _ _ _ => true
  | .ethernetFrame _ _ => true
  | .mctpMessage _ _ _ => true
  | .linkDown _ => true
  | .completionTimeout _ _ => true
  | .linkLaneFault _ _ => true
  | .claim _ => true
  | .offer _ _ => true
  | .accept _ => true
  | .acceptComplete => true
  | .acceptTimeout => true
  | .offerLapse => true
  | .ownerPathFailure => true
  | .ownerLost => true
  | .attestationRequest => true
  | .attestationDone => true
  | .moduleReset => true
  | .recoveryVerify => true
  | .powerLeaveGrant _ => true
  | .powerInputOverlimit => true
  | .powerInputRecovered => true
  | .patrolScrub => true
  | .spareMapWrite _ _ _ => true
  | .laneMapWrite _ _ _ _ => true
  | .spareRowReplace _ _ => true
  | .registerWrite _ _ => true
  | .outboundCompletion _ _ _ _ => true
  | .linkUp _ => true
  | .dataLinkLayerUp _ => true
  | .softError _ => true
  | .activateComplete => true
  | .contextEngineDone _ => true
  | .waitExpire _ => true

end Sys2Proof
end

