-- ==== Sys2Proof/Decode.lean ====
section
/-! DEFINITION. The decoder, total on every 32-bit word, and the encoder written from the same tables (08 R183 to
R194; 21 R423). A word that encodes no instruction is refused with its sub-cause, the checks in the order of R194;
absent registers (sub-cause 4) depend on NCFG and are found by the meanings. -/

namespace Sys2Proof

/-- One row: its fixed bits and its operand values decide between the instruction and a reserved field. -/
def row (fixedOk : Bool) (i : Instr) : Except IllegalSub Instr :=
  if fixedOk && i.wf then .ok i else .error .reservedField

/-- Major 0x01. -/
def decodeMajor01 (w : BitVec 32) : Except IllegalSub Instr :=
  match (w.extractLsb' 0 6).toNat with
  | 0 => row (w.extractLsb' 26 6 == 1 && w.extractLsb' 0 11 == 0) (.add (w.extractLsb' 21 5) (w.extractLsb' 16 5) (w.extractLsb' 11 5))
  | 1 => row (w.extractLsb' 26 6 == 1 && w.extractLsb' 0 11 == 1) (.sub (w.extractLsb' 21 5) (w.extractLsb' 16 5) (w.extractLsb' 11 5))
  | 2 => row (w.extractLsb' 26 6 == 1 && w.extractLsb' 0 11 == 2) (.and (w.extractLsb' 21 5) (w.extractLsb' 16 5) (w.extractLsb' 11 5))
  | 3 => row (w.extractLsb' 26 6 == 1 && w.extractLsb' 0 11 == 3) (.or (w.extractLsb' 21 5) (w.extractLsb' 16 5) (w.extractLsb' 11 5))
  | 4 => row (w.extractLsb' 26 6 == 1 && w.extractLsb' 0 11 == 4) (.xor (w.extractLsb' 21 5) (w.extractLsb' 16 5) (w.extractLsb' 11 5))
  | 5 => row (w.extractLsb' 26 6 == 1 && w.extractLsb' 0 11 == 5) (.shl (w.extractLsb' 21 5) (w.extractLsb' 16 5) (w.extractLsb' 11 5))
  | 6 => row (w.extractLsb' 26 6 == 1 && w.extractLsb' 0 11 == 6) (.shr (w.extractLsb' 21 5) (w.extractLsb' 16 5) (w.extractLsb' 11 5))
  | 7 => row (w.extractLsb' 26 6 == 1 && w.extractLsb' 0 11 == 7) (.sra (w.extractLsb' 21 5) (w.extractLsb' 16 5) (w.extractLsb' 11 5))
  | 8 => row (w.extractLsb' 26 6 == 1 && w.extractLsb' 0 11 == 8) (.slt (w.extractLsb' 21 5) (w.extractLsb' 16 5) (w.extractLsb' 11 5))
  | 9 => row (w.extractLsb' 26 6 == 1 && w.extractLsb' 0 11 == 9) (.sltu (w.extractLsb' 21 5) (w.extractLsb' 16 5) (w.extractLsb' 11 5))
  | 10 => row (w.extractLsb' 26 6 == 1 && w.extractLsb' 0 11 == 10) (.mul (w.extractLsb' 21 5) (w.extractLsb' 16 5) (w.extractLsb' 11 5))
  | 11 => row (w.extractLsb' 26 6 == 1 && w.extractLsb' 0 11 == 11) (.mulh (w.extractLsb' 21 5) (w.extractLsb' 16 5) (w.extractLsb' 11 5))
  | 12 => row (w.extractLsb' 26 6 == 1 && w.extractLsb' 0 11 == 12) (.mulhu (w.extractLsb' 21 5) (w.extractLsb' 16 5) (w.extractLsb' 11 5))
  | 13 => row (w.extractLsb' 26 6 == 1 && w.extractLsb' 0 11 == 13) (.div (w.extractLsb' 21 5) (w.extractLsb' 16 5) (w.extractLsb' 11 5))
  | 14 => row (w.extractLsb' 26 6 == 1 && w.extractLsb' 0 11 == 14) (.divu (w.extractLsb' 21 5) (w.extractLsb' 16 5) (w.extractLsb' 11 5))
  | 15 => row (w.extractLsb' 26 6 == 1 && w.extractLsb' 0 11 == 15) (.rem (w.extractLsb' 21 5) (w.extractLsb' 16 5) (w.extractLsb' 11 5))
  | 16 => row (w.extractLsb' 26 6 == 1 && w.extractLsb' 0 11 == 16) (.remu (w.extractLsb' 21 5) (w.extractLsb' 16 5) (w.extractLsb' 11 5))
  | 17 => row (w.extractLsb' 26 6 == 1 && w.extractLsb' 0 11 == 17) (.min (w.extractLsb' 21 5) (w.extractLsb' 16 5) (w.extractLsb' 11 5))
  | 18 => row (w.extractLsb' 26 6 == 1 && w.extractLsb' 0 11 == 18) (.max (w.extractLsb' 21 5) (w.extractLsb' 16 5) (w.extractLsb' 11 5))
  | 19 => row (w.extractLsb' 26 6 == 1 && w.extractLsb' 0 11 == 19) (.minu (w.extractLsb' 21 5) (w.extractLsb' 16 5) (w.extractLsb' 11 5))
  | 20 => row (w.extractLsb' 26 6 == 1 && w.extractLsb' 0 11 == 20) (.maxu (w.extractLsb' 21 5) (w.extractLsb' 16 5) (w.extractLsb' 11 5))
  | 21 => row (w.extractLsb' 26 6 == 1 && w.extractLsb' 0 16 == 21) (.clz (w.extractLsb' 21 5) (w.extractLsb' 16 5))
  | 22 => row (w.extractLsb' 26 6 == 1 && w.extractLsb' 0 16 == 22) (.ctz (w.extractLsb' 21 5) (w.extractLsb' 16 5))
  | 23 => row (w.extractLsb' 26 6 == 1 && w.extractLsb' 0 16 == 23) (.popc (w.extractLsb' 21 5) (w.extractLsb' 16 5))
  | 24 => row (w.extractLsb' 26 6 == 1 && w.extractLsb' 0 6 == 24) (.sel (w.extractLsb' 21 5) (w.extractLsb' 16 5) (w.extractLsb' 11 5) (w.extractLsb' 6 5))
  | 25 => row (w.extractLsb' 26 6 == 1 && w.extractLsb' 0 6 == 25) (.addsh (w.extractLsb' 21 5) (w.extractLsb' 16 5) (w.extractLsb' 11 5) (w.extractLsb' 6 5))
  | _ => .error .reserved

/-- Major 0x02. -/
def decodeMajor02 (w : BitVec 32) : Except IllegalSub Instr :=
  match (w.extractLsb' 13 3).toNat with
  | 0 => row (w.extractLsb' 26 6 == 2 && w.extractLsb' 13 3 == 0) (.addi (w.extractLsb' 21 5) (w.extractLsb' 16 5) (w.extractLsb' 0 13))
  | 1 => row (w.extractLsb' 26 6 == 2 && w.extractLsb' 13 3 == 1) (.andi (w.extractLsb' 21 5) (w.extractLsb' 16 5) (w.extractLsb' 0 13))
  | 2 => row (w.extractLsb' 26 6 == 2 && w.extractLsb' 13 3 == 2) (.ori (w.extractLsb' 21 5) (w.extractLsb' 16 5) (w.extractLsb' 0 13))
  | 3 => row (w.extractLsb' 26 6 == 2 && w.extractLsb' 13 3 == 3) (.xori (w.extractLsb' 21 5) (w.extractLsb' 16 5) (w.extractLsb' 0 13))
  | 4 => row (w.extractLsb' 26 6 == 2 && w.extractLsb' 13 3 == 4) (.slti (w.extractLsb' 21 5) (w.extractLsb' 16 5) (w.extractLsb' 0 13))
  | 5 => row (w.extractLsb' 26 6 == 2 && w.extractLsb' 6 10 == 640) (.shli (w.extractLsb' 21 5) (w.extractLsb' 16 5) (w.extractLsb' 0 6))
  | 6 => row (w.extractLsb' 26 6 == 2 && w.extractLsb' 6 10 == 768) (.shri (w.extractLsb' 21 5) (w.extractLsb' 16 5) (w.extractLsb' 0 6))
  | 7 => row (w.extractLsb' 26 6 == 2 && w.extractLsb' 6 10 == 896) (.srai (w.extractLsb' 21 5) (w.extractLsb' 16 5) (w.extractLsb' 0 6))
  | _ => .error .reserved

/-- Major 0x03. -/
def decodeMajor03 (w : BitVec 32) : Except IllegalSub Instr :=
  match (w.extractLsb' 13 3).toNat with
  | 0 => row (w.extractLsb' 26 6 == 3 && w.extractLsb' 13 3 == 0) (.ldB (w.extractLsb' 21 5) (w.extractLsb' 16 5) (w.extractLsb' 0 13))
  | 1 => row (w.extractLsb' 26 6 == 3 && w.extractLsb' 13 3 == 1) (.ldBu (w.extractLsb' 21 5) (w.extractLsb' 16 5) (w.extractLsb' 0 13))
  | 2 => row (w.extractLsb' 26 6 == 3 && w.extractLsb' 13 3 == 2) (.ldH (w.extractLsb' 21 5) (w.extractLsb' 16 5) (w.extractLsb' 0 13))
  | 3 => row (w.extractLsb' 26 6 == 3 && w.extractLsb' 13 3 == 3) (.ldHu (w.extractLsb' 21 5) (w.extractLsb' 16 5) (w.extractLsb' 0 13))
  | 4 => row (w.extractLsb' 26 6 == 3 && w.extractLsb' 13 3 == 4) (.ldW (w.extractLsb' 21 5) (w.extractLsb' 16 5) (w.extractLsb' 0 13))
  | 5 => row (w.extractLsb' 26 6 == 3 && w.extractLsb' 13 3 == 5) (.ldWu (w.extractLsb' 21 5) (w.extractLsb' 16 5) (w.extractLsb' 0 13))
  | 6 => row (w.extractLsb' 26 6 == 3 && w.extractLsb' 13 3 == 6) (.ldD (w.extractLsb' 21 5) (w.extractLsb' 16 5) (w.extractLsb' 0 13))
  | _ => .error .reserved

/-- Major 0x04. -/
def decodeMajor04 (w : BitVec 32) : Except IllegalSub Instr :=
  match (w.extractLsb' 13 3).toNat with
  | 0 => row (w.extractLsb' 26 6 == 4 && w.extractLsb' 13 3 == 0) (.stB (w.extractLsb' 21 5) (w.extractLsb' 16 5) (w.extractLsb' 0 13))
  | 2 => row (w.extractLsb' 26 6 == 4 && w.extractLsb' 13 3 == 2) (.stH (w.extractLsb' 21 5) (w.extractLsb' 16 5) (w.extractLsb' 0 13))
  | 4 => row (w.extractLsb' 26 6 == 4 && w.extractLsb' 13 3 == 4) (.stW (w.extractLsb' 21 5) (w.extractLsb' 16 5) (w.extractLsb' 0 13))
  | 6 => row (w.extractLsb' 26 6 == 4 && w.extractLsb' 13 3 == 6) (.stD (w.extractLsb' 21 5) (w.extractLsb' 16 5) (w.extractLsb' 0 13))
  | _ => .error .reserved

/-- Major 0x05. -/
def decodeMajor05 (w : BitVec 32) : Except IllegalSub Instr :=
  match (w.extractLsb' 13 3).toNat with
  | 0 => row (w.extractLsb' 26 6 == 5 && w.extractLsb' 13 3 == 0) (.beq (w.extractLsb' 21 5) (w.extractLsb' 16 5) (w.extractLsb' 0 13))
  | 1 => row (w.extractLsb' 26 6 == 5 && w.extractLsb' 13 3 == 1) (.bne (w.extractLsb' 21 5) (w.extractLsb' 16 5) (w.extractLsb' 0 13))
  | 2 => row (w.extractLsb' 26 6 == 5 && w.extractLsb' 13 3 == 2) (.blt (w.extractLsb' 21 5) (w.extractLsb' 16 5) (w.extractLsb' 0 13))
  | 3 => row (w.extractLsb' 26 6 == 5 && w.extractLsb' 13 3 == 3) (.bge (w.extractLsb' 21 5) (w.extractLsb' 16 5) (w.extractLsb' 0 13))
  | 4 => row (w.extractLsb' 26 6 == 5 && w.extractLsb' 13 3 == 4) (.bltu (w.extractLsb' 21 5) (w.extractLsb' 16 5) (w.extractLsb' 0 13))
  | 5 => row (w.extractLsb' 26 6 == 5 && w.extractLsb' 13 3 == 5) (.bgeu (w.extractLsb' 21 5) (w.extractLsb' 16 5) (w.extractLsb' 0 13))
  | 6 => row (w.extractLsb' 26 6 == 5 && w.extractLsb' 13 8 == 6) (.vloop (w.extractLsb' 21 5) (w.extractLsb' 0 13))
  | _ => .error .reserved

/-- Major 0x06. -/
def decodeMajor06 (w : BitVec 32) : Except IllegalSub Instr :=
  row (w.extractLsb' 26 6 == 6) (.jal (w.extractLsb' 21 5) (w.extractLsb' 0 21))

/-- Major 0x07. -/
def decodeMajor07 (w : BitVec 32) : Except IllegalSub Instr :=
  match (w.extractLsb' 13 3).toNat with
  | 0 => row (w.extractLsb' 26 6 == 7 && w.extractLsb' 13 3 == 0) (.jalr (w.extractLsb' 21 5) (w.extractLsb' 16 5) (w.extractLsb' 0 13))
  | _ => .error .reserved

/-- Major 0x08. -/
def decodeMajor08 (w : BitVec 32) : Except IllegalSub Instr :=
  row (w.extractLsb' 26 6 == 8) (.ldhi (w.extractLsb' 21 5) (w.extractLsb' 0 21))

/-- Major 0x09. -/
def decodeMajor09 (w : BitVec 32) : Except IllegalSub Instr :=
  match (w.extractLsb' 0 5).toNat with
  | 0 => row (w.extractLsb' 26 6 == 9 && w.extractLsb' 6 5 == 0 && w.extractLsb' 0 5 == 0) (.fadd (w.extractLsb' 21 5) (w.extractLsb' 16 5) (w.extractLsb' 11 5) (w.extractLsb' 5 1))
  | 1 => row (w.extractLsb' 26 6 == 9 && w.extractLsb' 6 5 == 0 && w.extractLsb' 0 5 == 1) (.fsub (w.extractLsb' 21 5) (w.extractLsb' 16 5) (w.extractLsb' 11 5) (w.extractLsb' 5 1))
  | 2 => row (w.extractLsb' 26 6 == 9 && w.extractLsb' 6 5 == 0 && w.extractLsb' 0 5 == 2) (.fmul (w.extractLsb' 21 5) (w.extractLsb' 16 5) (w.extractLsb' 11 5) (w.extractLsb' 5 1))
  | 3 => row (w.extractLsb' 26 6 == 9 && w.extractLsb' 6 5 == 0 && w.extractLsb' 0 5 == 3) (.fdiv (w.extractLsb' 21 5) (w.extractLsb' 16 5) (w.extractLsb' 11 5) (w.extractLsb' 5 1))
  | 4 => row (w.extractLsb' 26 6 == 9 && w.extractLsb' 6 10 == 0 && w.extractLsb' 0 5 == 4) (.fsqrt (w.extractLsb' 21 5) (w.extractLsb' 16 5) (w.extractLsb' 5 1))
  | 5 => row (w.extractLsb' 26 6 == 9 && w.extractLsb' 0 5 == 5) (.fma (w.extractLsb' 21 5) (w.extractLsb' 16 5) (w.extractLsb' 11 5) (w.extractLsb' 6 5) (w.extractLsb' 5 1))
  | 6 => row (w.extractLsb' 26 6 == 9 && w.extractLsb' 6 5 == 0 && w.extractLsb' 0 5 == 6) (.fmin (w.extractLsb' 21 5) (w.extractLsb' 16 5) (w.extractLsb' 11 5) (w.extractLsb' 5 1))
  | 7 => row (w.extractLsb' 26 6 == 9 && w.extractLsb' 6 5 == 0 && w.extractLsb' 0 5 == 7) (.fmax (w.extractLsb' 21 5) (w.extractLsb' 16 5) (w.extractLsb' 11 5) (w.extractLsb' 5 1))
  | 8 => row (w.extractLsb' 26 6 == 9 && w.extractLsb' 0 5 == 8) (.fcmp (w.extractLsb' 21 5) (w.extractLsb' 16 5) (w.extractLsb' 11 5) (w.extractLsb' 6 5) (w.extractLsb' 5 1))
  | 9 => row (w.extractLsb' 26 6 == 9 && w.extractLsb' 11 5 == 0 && w.extractLsb' 0 6 == 9) (.fcvt (w.extractLsb' 21 5) (w.extractLsb' 16 5) (w.extractLsb' 6 5))
  | _ => .error .reserved

/-- Major 0x0A. -/
def decodeMajor0A (w : BitVec 32) : Except IllegalSub Instr :=
  match (w.extractLsb' 0 2).toNat with
  | 0 => row (w.extractLsb' 26 6 == 10 && w.extractLsb' 11 5 == 0 && w.extractLsb' 0 2 == 0) (.ldOrdered (w.extractLsb' 21 5) (w.extractLsb' 16 5) (w.extractLsb' 6 5) (w.extractLsb' 4 2) (w.extractLsb' 2 2))
  | 1 => row (w.extractLsb' 21 11 == 320 && w.extractLsb' 0 2 == 1) (.stOrdered (w.extractLsb' 16 5) (w.extractLsb' 11 5) (w.extractLsb' 6 5) (w.extractLsb' 4 2) (w.extractLsb' 2 2))
  | 2 => match (w.extractLsb' 7 4).toNat with
    | 0 => row (w.extractLsb' 26 6 == 10 && w.extractLsb' 7 4 == 0 && w.extractLsb' 0 2 == 2) (.amoadd (w.extractLsb' 21 5) (w.extractLsb' 16 5) (w.extractLsb' 11 5) (w.extractLsb' 6 1) (w.extractLsb' 4 2) (w.extractLsb' 2 2))
    | 1 => row (w.extractLsb' 26 6 == 10 && w.extractLsb' 7 4 == 1 && w.extractLsb' 0 2 == 2) (.amoand (w.extractLsb' 21 5) (w.extractLsb' 16 5) (w.extractLsb' 11 5) (w.extractLsb' 6 1) (w.extractLsb' 4 2) (w.extractLsb' 2 2))
    | 2 => row (w.extractLsb' 26 6 == 10 && w.extractLsb' 7 4 == 2 && w.extractLsb' 0 2 == 2) (.amoor (w.extractLsb' 21 5) (w.extractLsb' 16 5) (w.extractLsb' 11 5) (w.extractLsb' 6 1) (w.extractLsb' 4 2) (w.extractLsb' 2 2))
    | 3 => row (w.extractLsb' 26 6 == 10 && w.extractLsb' 7 4 == 3 && w.extractLsb' 0 2 == 2) (.amoxor (w.extractLsb' 21 5) (w.extractLsb' 16 5) (w.extractLsb' 11 5) (w.extractLsb' 6 1) (w.extractLsb' 4 2) (w.extractLsb' 2 2))
    | 4 => row (w.extractLsb' 26 6 == 10 && w.extractLsb' 7 4 == 4 && w.extractLsb' 0 2 == 2) (.amoswap (w.extractLsb' 21 5) (w.extractLsb' 16 5) (w.extractLsb' 11 5) (w.extractLsb' 6 1) (w.extractLsb' 4 2) (w.extractLsb' 2 2))
    | 5 => row (w.extractLsb' 26 6 == 10 && w.extractLsb' 7 4 == 5 && w.extractLsb' 0 2 == 2) (.amomin (w.extractLsb' 21 5) (w.extractLsb' 16 5) (w.extractLsb' 11 5) (w.extractLsb' 6 1) (w.extractLsb' 4 2) (w.extractLsb' 2 2))
    | 6 => row (w.extractLsb' 26 6 == 10 && w.extractLsb' 7 4 == 6 && w.extractLsb' 0 2 == 2) (.amomax (w.extractLsb' 21 5) (w.extractLsb' 16 5) (w.extractLsb' 11 5) (w.extractLsb' 6 1) (w.extractLsb' 4 2) (w.extractLsb' 2 2))
    | 7 => row (w.extractLsb' 26 6 == 10 && w.extractLsb' 7 4 == 7 && w.extractLsb' 0 2 == 2) (.amominu (w.extractLsb' 21 5) (w.extractLsb' 16 5) (w.extractLsb' 11 5) (w.extractLsb' 6 1) (w.extractLsb' 4 2) (w.extractLsb' 2 2))
    | 8 => row (w.extractLsb' 26 6 == 10 && w.extractLsb' 7 4 == 8 && w.extractLsb' 0 2 == 2) (.amomaxu (w.extractLsb' 21 5) (w.extractLsb' 16 5) (w.extractLsb' 11 5) (w.extractLsb' 6 1) (w.extractLsb' 4 2) (w.extractLsb' 2 2))
    | _ => .error .reservedField
  | _ => .error .reservedField

/-- Major 0x0B. -/
def decodeMajor0B (w : BitVec 32) : Except IllegalSub Instr :=
  row (w.extractLsb' 26 6 == 11) (.cas (w.extractLsb' 21 5) (w.extractLsb' 16 5) (w.extractLsb' 11 5) (w.extractLsb' 6 5) (w.extractLsb' 4 2) (w.extractLsb' 2 2) (w.extractLsb' 0 2))

/-- Major 0x0C. -/
def decodeMajor0C (w : BitVec 32) : Except IllegalSub Instr :=
  if 4 ≤ (w.extractLsb' 13 3).toNat then .error .reserved
  else if !csrListed (w.extractLsb' 0 12) then .error .reserved else
  match (w.extractLsb' 13 3).toNat with
  | 0 => row (w.extractLsb' 26 6 == 12 && w.extractLsb' 12 9 == 0) (.csrr (w.extractLsb' 21 5) (w.extractLsb' 0 12))
  | 1 => row (w.extractLsb' 21 11 == 384 && w.extractLsb' 12 4 == 2) (.csrw (w.extractLsb' 16 5) (w.extractLsb' 0 12))
  | 2 => row (w.extractLsb' 21 11 == 384 && w.extractLsb' 12 4 == 4) (.csrs (w.extractLsb' 16 5) (w.extractLsb' 0 12))
  | 3 => row (w.extractLsb' 21 11 == 384 && w.extractLsb' 12 4 == 6) (.csrc (w.extractLsb' 16 5) (w.extractLsb' 0 12))
  | _ => .error .reserved

/-- Major 0x0D. -/
def decodeMajor0D (w : BitVec 32) : Except IllegalSub Instr :=
  match (w.extractLsb' 13 3).toNat with
  | 0 => row (w.extractLsb' 21 11 == 416 && w.extractLsb' 2 14 == 0) (.qpush (w.extractLsb' 16 5) (w.extractLsb' 0 2))
  | 1 => row (w.extractLsb' 26 6 == 13 && w.extractLsb' 2 19 == 2048) (.qpop (w.extractLsb' 21 5) (w.extractLsb' 0 2))
  | _ => .error .reserved

/-- Major 0x0E. -/
def decodeMajor0E (w : BitVec 32) : Except IllegalSub Instr :=
  match (w.extractLsb' 0 6).toNat with
  | 0 => row (w.extractLsb' 11 21 == 458752 && w.extractLsb' 0 6 == 0) (.trap (w.extractLsb' 6 5))
  | 1 => row (w.extractLsb' 0 32 == 939524097) (.tret)
  | 2 => row (w.extractLsb' 0 32 == 939524098) (.halt)
  | 3 => row (w.extractLsb' 11 21 == 458752 && w.extractLsb' 0 6 == 3) (.wait (w.extractLsb' 6 5))
  | 4 => row (w.extractLsb' 11 21 == 458752 && w.extractLsb' 0 6 == 4) (.brk (w.extractLsb' 6 5))
  | 5 => row (w.extractLsb' 0 32 == 939524101) (.kend)
  | 6 => match (w.extractLsb' 6 5).toNat with
    | 0 => row (w.extractLsb' 0 32 == 939524102) (.tlbiAll)
    | 1 => row (w.extractLsb' 21 11 == 448 && w.extractLsb' 0 16 == 70) (.tlbiAsn (w.extractLsb' 16 5))
    | 2 => row (w.extractLsb' 21 11 == 448 && w.extractLsb' 0 11 == 134) (.tlbiVa (w.extractLsb' 16 5) (w.extractLsb' 11 5))
    | 3 => row (w.extractLsb' 21 11 == 448 && w.extractLsb' 0 11 == 198) (.tlbiGpa (w.extractLsb' 16 5) (w.extractLsb' 11 5))
    | 4 => row (w.extractLsb' 16 16 == 14336 && w.extractLsb' 0 11 == 262) (.tlbiPart (w.extractLsb' 11 5))
    | _ => .error .reservedField
  | 7 => row (w.extractLsb' 10 22 == 917504 && w.extractLsb' 0 6 == 7) (.fence (w.extractLsb' 8 2) (w.extractLsb' 6 2))
  | 8 => row (w.extractLsb' 0 32 == 939524104) (.lsync)
  | 9 => row (w.extractLsb' 0 32 == 939524105) (.ifence)
  | 10 => row (w.extractLsb' 21 11 == 448 && w.extractLsb' 0 16 == 10) (.launch (w.extractLsb' 16 5))
  | _ => .error .reserved

/-- Major 0x0F. -/
def decodeMajor0F (w : BitVec 32) : Except IllegalSub Instr :=
  row (w.extractLsb' 26 6 == 15) (.nop (w.extractLsb' 0 26))

/-- Major 0x10. -/
def decodeMajor10 (w : BitVec 32) : Except IllegalSub Instr :=
  match (w.extractLsb' 0 5).toNat with
  | 0 => row (w.extractLsb' 25 7 == 32 && w.extractLsb' 14 6 == 0 && w.extractLsb' 0 9 == 0) (.setvl (w.extractLsb' 20 5) (w.extractLsb' 9 5))
  | 1 => row (w.extractLsb' 16 16 == 16384 && w.extractLsb' 0 14 == 1) (.vcfg (w.extractLsb' 14 2))
  | 2 => row (w.extractLsb' 14 18 == 65536 && w.extractLsb' 0 9 == 2) (.vtype (w.extractLsb' 9 5))
  | 3 => row (w.extractLsb' 26 6 == 16 && w.extractLsb' 14 6 == 0 && w.extractLsb' 0 9 == 3) (.vwin (w.extractLsb' 20 6) (w.extractLsb' 9 5))
  | 4 => row (w.extractLsb' 14 18 == 65536 && w.extractLsb' 0 9 == 4) (.lpart (w.extractLsb' 9 5))
  | _ => .error .reserved

/-- Major 0x11. -/
def decodeMajor11 (w : BitVec 32) : Except IllegalSub Instr :=
  match (w.extractLsb' 0 5).toNat with
  | 0 => row (w.extractLsb' 26 6 == 17 && w.extractLsb' 0 5 == 0) (.vadd (w.extractLsb' 20 6) (w.extractLsb' 14 6) (w.extractLsb' 8 6) (w.extractLsb' 5 3))
  | 1 => row (w.extractLsb' 26 6 == 17 && w.extractLsb' 0 5 == 1) (.vsub (w.extractLsb' 20 6) (w.extractLsb' 14 6) (w.extractLsb' 8 6) (w.extractLsb' 5 3))
  | 2 => row (w.extractLsb' 26 6 == 17 && w.extractLsb' 0 5 == 2) (.vmul (w.extractLsb' 20 6) (w.extractLsb' 14 6) (w.extractLsb' 8 6) (w.extractLsb' 5 3))
  | 3 => row (w.extractLsb' 26 6 == 17 && w.extractLsb' 0 5 == 3) (.vmulh (w.extractLsb' 20 6) (w.extractLsb' 14 6) (w.extractLsb' 8 6) (w.extractLsb' 5 3))
  | 4 => row (w.extractLsb' 26 6 == 17 && w.extractLsb' 0 5 == 4) (.vmadd (w.extractLsb' 20 6) (w.extractLsb' 14 6) (w.extractLsb' 8 6) (w.extractLsb' 5 3))
  | 5 => row (w.extractLsb' 26 6 == 17 && w.extractLsb' 0 5 == 5) (.vmsub (w.extractLsb' 20 6) (w.extractLsb' 14 6) (w.extractLsb' 8 6) (w.extractLsb' 5 3))
  | 6 => row (w.extractLsb' 26 6 == 17 && w.extractLsb' 0 5 == 6) (.vdiv (w.extractLsb' 20 6) (w.extractLsb' 14 6) (w.extractLsb' 8 6) (w.extractLsb' 5 3))
  | 7 => row (w.extractLsb' 26 6 == 17 && w.extractLsb' 0 5 == 7) (.vrem (w.extractLsb' 20 6) (w.extractLsb' 14 6) (w.extractLsb' 8 6) (w.extractLsb' 5 3))
  | 8 => row (w.extractLsb' 26 6 == 17 && w.extractLsb' 0 5 == 8) (.vmin (w.extractLsb' 20 6) (w.extractLsb' 14 6) (w.extractLsb' 8 6) (w.extractLsb' 5 3))
  | 9 => row (w.extractLsb' 26 6 == 17 && w.extractLsb' 0 5 == 9) (.vmax (w.extractLsb' 20 6) (w.extractLsb' 14 6) (w.extractLsb' 8 6) (w.extractLsb' 5 3))
  | 10 => row (w.extractLsb' 26 6 == 17 && w.extractLsb' 0 5 == 10) (.vand (w.extractLsb' 20 6) (w.extractLsb' 14 6) (w.extractLsb' 8 6) (w.extractLsb' 5 3))
  | 11 => row (w.extractLsb' 26 6 == 17 && w.extractLsb' 0 5 == 11) (.vor (w.extractLsb' 20 6) (w.extractLsb' 14 6) (w.extractLsb' 8 6) (w.extractLsb' 5 3))
  | 12 => row (w.extractLsb' 26 6 == 17 && w.extractLsb' 0 5 == 12) (.vxor (w.extractLsb' 20 6) (w.extractLsb' 14 6) (w.extractLsb' 8 6) (w.extractLsb' 5 3))
  | 13 => row (w.extractLsb' 26 6 == 17 && w.extractLsb' 0 5 == 13) (.vshl (w.extractLsb' 20 6) (w.extractLsb' 14 6) (w.extractLsb' 8 6) (w.extractLsb' 5 3))
  | 14 => row (w.extractLsb' 26 6 == 17 && w.extractLsb' 0 5 == 14) (.vshr (w.extractLsb' 20 6) (w.extractLsb' 14 6) (w.extractLsb' 8 6) (w.extractLsb' 5 3))
  | 15 => row (w.extractLsb' 26 6 == 17 && w.extractLsb' 0 5 == 15) (.vsra (w.extractLsb' 20 6) (w.extractLsb' 14 6) (w.extractLsb' 8 6) (w.extractLsb' 5 3))
  | 16 => row (w.extractLsb' 26 6 == 17 && w.extractLsb' 8 6 == 0 && w.extractLsb' 0 5 == 16) (.vabs (w.extractLsb' 20 6) (w.extractLsb' 14 6) (w.extractLsb' 5 3))
  | _ => .error .reserved

/-- Major 0x12. -/
def decodeMajor12 (w : BitVec 32) : Except IllegalSub Instr :=
  match (w.extractLsb' 0 5).toNat with
  | 0 => row (w.extractLsb' 26 6 == 18 && w.extractLsb' 0 5 == 0) (.vaddVx (w.extractLsb' 20 6) (w.extractLsb' 14 6) (w.extractLsb' 9 5) (w.extractLsb' 8 1) (w.extractLsb' 5 3))
  | 1 => row (w.extractLsb' 26 6 == 18 && w.extractLsb' 0 5 == 1) (.vsubVx (w.extractLsb' 20 6) (w.extractLsb' 14 6) (w.extractLsb' 9 5) (w.extractLsb' 8 1) (w.extractLsb' 5 3))
  | 2 => row (w.extractLsb' 26 6 == 18 && w.extractLsb' 0 5 == 2) (.vmulVx (w.extractLsb' 20 6) (w.extractLsb' 14 6) (w.extractLsb' 9 5) (w.extractLsb' 8 1) (w.extractLsb' 5 3))
  | 3 => row (w.extractLsb' 26 6 == 18 && w.extractLsb' 0 5 == 3) (.vmulhVx (w.extractLsb' 20 6) (w.extractLsb' 14 6) (w.extractLsb' 9 5) (w.extractLsb' 8 1) (w.extractLsb' 5 3))
  | 4 => row (w.extractLsb' 26 6 == 18 && w.extractLsb' 0 5 == 4) (.vmaddVx (w.extractLsb' 20 6) (w.extractLsb' 14 6) (w.extractLsb' 9 5) (w.extractLsb' 8 1) (w.extractLsb' 5 3))
  | 5 => row (w.extractLsb' 26 6 == 18 && w.extractLsb' 0 5 == 5) (.vmsubVx (w.extractLsb' 20 6) (w.extractLsb' 14 6) (w.extractLsb' 9 5) (w.extractLsb' 8 1) (w.extractLsb' 5 3))
  | 6 => row (w.extractLsb' 26 6 == 18 && w.extractLsb' 0 5 == 6) (.vdivVx (w.extractLsb' 20 6) (w.extractLsb' 14 6) (w.extractLsb' 9 5) (w.extractLsb' 8 1) (w.extractLsb' 5 3))
  | 7 => row (w.extractLsb' 26 6 == 18 && w.extractLsb' 0 5 == 7) (.vremVx (w.extractLsb' 20 6) (w.extractLsb' 14 6) (w.extractLsb' 9 5) (w.extractLsb' 8 1) (w.extractLsb' 5 3))
  | 8 => row (w.extractLsb' 26 6 == 18 && w.extractLsb' 0 5 == 8) (.vminVx (w.extractLsb' 20 6) (w.extractLsb' 14 6) (w.extractLsb' 9 5) (w.extractLsb' 8 1) (w.extractLsb' 5 3))
  | 9 => row (w.extractLsb' 26 6 == 18 && w.extractLsb' 0 5 == 9) (.vmaxVx (w.extractLsb' 20 6) (w.extractLsb' 14 6) (w.extractLsb' 9 5) (w.extractLsb' 8 1) (w.extractLsb' 5 3))
  | 10 => row (w.extractLsb' 26 6 == 18 && w.extractLsb' 0 5 == 10) (.vandVx (w.extractLsb' 20 6) (w.extractLsb' 14 6) (w.extractLsb' 9 5) (w.extractLsb' 8 1) (w.extractLsb' 5 3))
  | 11 => row (w.extractLsb' 26 6 == 18 && w.extractLsb' 0 5 == 11) (.vorVx (w.extractLsb' 20 6) (w.extractLsb' 14 6) (w.extractLsb' 9 5) (w.extractLsb' 8 1) (w.extractLsb' 5 3))
  | 12 => row (w.extractLsb' 26 6 == 18 && w.extractLsb' 0 5 == 12) (.vxorVx (w.extractLsb' 20 6) (w.extractLsb' 14 6) (w.extractLsb' 9 5) (w.extractLsb' 8 1) (w.extractLsb' 5 3))
  | 13 => row (w.extractLsb' 26 6 == 18 && w.extractLsb' 0 5 == 13) (.vshlVx (w.extractLsb' 20 6) (w.extractLsb' 14 6) (w.extractLsb' 9 5) (w.extractLsb' 8 1) (w.extractLsb' 5 3))
  | 14 => row (w.extractLsb' 26 6 == 18 && w.extractLsb' 0 5 == 14) (.vshrVx (w.extractLsb' 20 6) (w.extractLsb' 14 6) (w.extractLsb' 9 5) (w.extractLsb' 8 1) (w.extractLsb' 5 3))
  | 15 => row (w.extractLsb' 26 6 == 18 && w.extractLsb' 0 5 == 15) (.vsraVx (w.extractLsb' 20 6) (w.extractLsb' 14 6) (w.extractLsb' 9 5) (w.extractLsb' 8 1) (w.extractLsb' 5 3))
  | _ => .error .reserved

/-- Major 0x13. -/
def decodeMajor13 (w : BitVec 32) : Except IllegalSub Instr :=
  match (w.extractLsb' 0 5).toNat with
  | 0 => row (w.extractLsb' 26 6 == 19 && w.extractLsb' 0 5 == 0) (.vfadd (w.extractLsb' 20 6) (w.extractLsb' 14 6) (w.extractLsb' 8 6) (w.extractLsb' 5 3))
  | 1 => row (w.extractLsb' 26 6 == 19 && w.extractLsb' 0 5 == 1) (.vfsub (w.extractLsb' 20 6) (w.extractLsb' 14 6) (w.extractLsb' 8 6) (w.extractLsb' 5 3))
  | 2 => row (w.extractLsb' 26 6 == 19 && w.extractLsb' 0 5 == 2) (.vfmul (w.extractLsb' 20 6) (w.extractLsb' 14 6) (w.extractLsb' 8 6) (w.extractLsb' 5 3))
  | 3 => row (w.extractLsb' 26 6 == 19 && w.extractLsb' 0 5 == 3) (.vfdiv (w.extractLsb' 20 6) (w.extractLsb' 14 6) (w.extractLsb' 8 6) (w.extractLsb' 5 3))
  | 4 => row (w.extractLsb' 26 6 == 19 && w.extractLsb' 8 6 == 0 && w.extractLsb' 0 5 == 4) (.vfsqrt (w.extractLsb' 20 6) (w.extractLsb' 14 6) (w.extractLsb' 5 3))
  | 5 => row (w.extractLsb' 26 6 == 19 && w.extractLsb' 8 6 == 0 && w.extractLsb' 0 5 == 5) (.vfrsqe (w.extractLsb' 20 6) (w.extractLsb' 14 6) (w.extractLsb' 5 3))
  | 6 => row (w.extractLsb' 26 6 == 19 && w.extractLsb' 0 5 == 6) (.vfma (w.extractLsb' 20 6) (w.extractLsb' 14 6) (w.extractLsb' 8 6) (w.extractLsb' 5 3))
  | 7 => row (w.extractLsb' 26 6 == 19 && w.extractLsb' 0 5 == 7) (.vfms (w.extractLsb' 20 6) (w.extractLsb' 14 6) (w.extractLsb' 8 6) (w.extractLsb' 5 3))
  | 8 => row (w.extractLsb' 26 6 == 19 && w.extractLsb' 0 5 == 8) (.vfnma (w.extractLsb' 20 6) (w.extractLsb' 14 6) (w.extractLsb' 8 6) (w.extractLsb' 5 3))
  | 9 => row (w.extractLsb' 26 6 == 19 && w.extractLsb' 0 5 == 9) (.vfmin (w.extractLsb' 20 6) (w.extractLsb' 14 6) (w.extractLsb' 8 6) (w.extractLsb' 5 3))
  | 10 => row (w.extractLsb' 26 6 == 19 && w.extractLsb' 0 5 == 10) (.vfmax (w.extractLsb' 20 6) (w.extractLsb' 14 6) (w.extractLsb' 8 6) (w.extractLsb' 5 3))
  | 11 => row (w.extractLsb' 26 6 == 19 && w.extractLsb' 8 6 == 0 && w.extractLsb' 0 5 == 11) (.vfabs (w.extractLsb' 20 6) (w.extractLsb' 14 6) (w.extractLsb' 5 3))
  | 12 => row (w.extractLsb' 26 6 == 19 && w.extractLsb' 8 6 == 0 && w.extractLsb' 0 5 == 12) (.vfneg (w.extractLsb' 20 6) (w.extractLsb' 14 6) (w.extractLsb' 5 3))
  | 13 => row (w.extractLsb' 26 6 == 19 && w.extractLsb' 12 2 == 0 && w.extractLsb' 0 5 == 13) (.vcvt (w.extractLsb' 20 6) (w.extractLsb' 14 6) (w.extractLsb' 8 4) (w.extractLsb' 5 3))
  | _ => .error .reserved

/-- Major 0x14. -/
def decodeMajor14 (w : BitVec 32) : Except IllegalSub Instr :=
  match (w.extractLsb' 0 5).toNat with
  | 0 => row (w.extractLsb' 26 6 == 20 && w.extractLsb' 0 5 == 0) (.vfaddVx (w.extractLsb' 20 6) (w.extractLsb' 14 6) (w.extractLsb' 9 5) (w.extractLsb' 8 1) (w.extractLsb' 5 3))
  | 1 => row (w.extractLsb' 26 6 == 20 && w.extractLsb' 0 5 == 1) (.vfsubVx (w.extractLsb' 20 6) (w.extractLsb' 14 6) (w.extractLsb' 9 5) (w.extractLsb' 8 1) (w.extractLsb' 5 3))
  | 2 => row (w.extractLsb' 26 6 == 20 && w.extractLsb' 0 5 == 2) (.vfmulVx (w.extractLsb' 20 6) (w.extractLsb' 14 6) (w.extractLsb' 9 5) (w.extractLsb' 8 1) (w.extractLsb' 5 3))
  | 3 => row (w.extractLsb' 26 6 == 20 && w.extractLsb' 0 5 == 3) (.vfdivVx (w.extractLsb' 20 6) (w.extractLsb' 14 6) (w.extractLsb' 9 5) (w.extractLsb' 8 1) (w.extractLsb' 5 3))
  | 6 => row (w.extractLsb' 26 6 == 20 && w.extractLsb' 0 5 == 6) (.vfmaVx (w.extractLsb' 20 6) (w.extractLsb' 14 6) (w.extractLsb' 9 5) (w.extractLsb' 8 1) (w.extractLsb' 5 3))
  | 7 => row (w.extractLsb' 26 6 == 20 && w.extractLsb' 0 5 == 7) (.vfmsVx (w.extractLsb' 20 6) (w.extractLsb' 14 6) (w.extractLsb' 9 5) (w.extractLsb' 8 1) (w.extractLsb' 5 3))
  | 8 => row (w.extractLsb' 26 6 == 20 && w.extractLsb' 0 5 == 8) (.vfnmaVx (w.extractLsb' 20 6) (w.extractLsb' 14 6) (w.extractLsb' 9 5) (w.extractLsb' 8 1) (w.extractLsb' 5 3))
  | 9 => row (w.extractLsb' 26 6 == 20 && w.extractLsb' 0 5 == 9) (.vfminVx (w.extractLsb' 20 6) (w.extractLsb' 14 6) (w.extractLsb' 9 5) (w.extractLsb' 8 1) (w.extractLsb' 5 3))
  | 10 => row (w.extractLsb' 26 6 == 20 && w.extractLsb' 0 5 == 10) (.vfmaxVx (w.extractLsb' 20 6) (w.extractLsb' 14 6) (w.extractLsb' 9 5) (w.extractLsb' 8 1) (w.extractLsb' 5 3))
  | _ => .error .reserved

/-- Major 0x15. -/
def decodeMajor15 (w : BitVec 32) : Except IllegalSub Instr :=
  match (w.extractLsb' 0 5).toNat with
  | 0 => row (w.extractLsb' 23 9 == 168 && w.extractLsb' 0 5 == 0) (.vcmpEq (w.extractLsb' 20 3) (w.extractLsb' 14 6) (w.extractLsb' 8 6) (w.extractLsb' 5 3))
  | 1 => row (w.extractLsb' 23 9 == 168 && w.extractLsb' 0 5 == 1) (.vcmpNe (w.extractLsb' 20 3) (w.extractLsb' 14 6) (w.extractLsb' 8 6) (w.extractLsb' 5 3))
  | 2 => row (w.extractLsb' 23 9 == 168 && w.extractLsb' 0 5 == 2) (.vcmpLt (w.extractLsb' 20 3) (w.extractLsb' 14 6) (w.extractLsb' 8 6) (w.extractLsb' 5 3))
  | 3 => row (w.extractLsb' 23 9 == 168 && w.extractLsb' 0 5 == 3) (.vcmpLe (w.extractLsb' 20 3) (w.extractLsb' 14 6) (w.extractLsb' 8 6) (w.extractLsb' 5 3))
  | 4 => row (w.extractLsb' 23 9 == 168 && w.extractLsb' 0 5 == 4) (.vcmpLtu (w.extractLsb' 20 3) (w.extractLsb' 14 6) (w.extractLsb' 8 6) (w.extractLsb' 5 3))
  | 5 => row (w.extractLsb' 23 9 == 168 && w.extractLsb' 0 5 == 5) (.vcmpLeu (w.extractLsb' 20 3) (w.extractLsb' 14 6) (w.extractLsb' 8 6) (w.extractLsb' 5 3))
  | 8 => row (w.extractLsb' 23 9 == 168 && w.extractLsb' 0 5 == 8) (.vfcmpEq (w.extractLsb' 20 3) (w.extractLsb' 14 6) (w.extractLsb' 8 6) (w.extractLsb' 5 3))
  | 9 => row (w.extractLsb' 23 9 == 168 && w.extractLsb' 0 5 == 9) (.vfcmpNe (w.extractLsb' 20 3) (w.extractLsb' 14 6) (w.extractLsb' 8 6) (w.extractLsb' 5 3))
  | 10 => row (w.extractLsb' 23 9 == 168 && w.extractLsb' 0 5 == 10) (.vfcmpLt (w.extractLsb' 20 3) (w.extractLsb' 14 6) (w.extractLsb' 8 6) (w.extractLsb' 5 3))
  | 11 => row (w.extractLsb' 23 9 == 168 && w.extractLsb' 0 5 == 11) (.vfcmpLe (w.extractLsb' 20 3) (w.extractLsb' 14 6) (w.extractLsb' 8 6) (w.extractLsb' 5 3))
  | 12 => row (w.extractLsb' 23 9 == 168 && w.extractLsb' 0 5 == 12) (.vfcmpUnord (w.extractLsb' 20 3) (w.extractLsb' 14 6) (w.extractLsb' 8 6) (w.extractLsb' 5 3))
  | 13 => row (w.extractLsb' 23 9 == 168 && w.extractLsb' 0 5 == 13) (.vfcmpOrd (w.extractLsb' 20 3) (w.extractLsb' 14 6) (w.extractLsb' 8 6) (w.extractLsb' 5 3))
  | 16 => row (w.extractLsb' 23 9 == 168 && w.extractLsb' 17 3 == 0 && w.extractLsb' 11 3 == 0 && w.extractLsb' 0 5 == 16) (.mand (w.extractLsb' 20 3) (w.extractLsb' 14 3) (w.extractLsb' 8 3) (w.extractLsb' 5 3))
  | 17 => row (w.extractLsb' 23 9 == 168 && w.extractLsb' 17 3 == 0 && w.extractLsb' 11 3 == 0 && w.extractLsb' 0 5 == 17) (.mor (w.extractLsb' 20 3) (w.extractLsb' 14 3) (w.extractLsb' 8 3) (w.extractLsb' 5 3))
  | 18 => row (w.extractLsb' 23 9 == 168 && w.extractLsb' 17 3 == 0 && w.extractLsb' 11 3 == 0 && w.extractLsb' 0 5 == 18) (.mxor (w.extractLsb' 20 3) (w.extractLsb' 14 3) (w.extractLsb' 8 3) (w.extractLsb' 5 3))
  | 19 => row (w.extractLsb' 23 9 == 168 && w.extractLsb' 17 3 == 0 && w.extractLsb' 8 6 == 0 && w.extractLsb' 0 5 == 19) (.mnot (w.extractLsb' 20 3) (w.extractLsb' 14 3) (w.extractLsb' 5 3))
  | 20 => row (w.extractLsb' 25 7 == 42 && w.extractLsb' 17 3 == 0 && w.extractLsb' 8 6 == 0 && w.extractLsb' 0 5 == 20) (.mpopc (w.extractLsb' 20 5) (w.extractLsb' 14 3) (w.extractLsb' 5 3))
  | 21 => row (w.extractLsb' 25 7 == 42 && w.extractLsb' 17 3 == 0 && w.extractLsb' 8 6 == 0 && w.extractLsb' 0 5 == 21) (.mfirst (w.extractLsb' 20 5) (w.extractLsb' 14 3) (w.extractLsb' 5 3))
  | 22 => row (w.extractLsb' 23 9 == 168 && w.extractLsb' 8 12 == 0 && w.extractLsb' 0 5 == 22) (.mset (w.extractLsb' 20 3) (w.extractLsb' 5 3))
  | _ => .error .reserved

/-- Major 0x16. -/
def decodeMajor16 (w : BitVec 32) : Except IllegalSub Instr :=
  match (w.extractLsb' 0 5).toNat with
  | 0 => row (w.extractLsb' 23 9 == 176 && w.extractLsb' 0 5 == 0) (.vcmpEqVx (w.extractLsb' 20 3) (w.extractLsb' 14 6) (w.extractLsb' 9 5) (w.extractLsb' 8 1) (w.extractLsb' 5 3))
  | 1 => row (w.extractLsb' 23 9 == 176 && w.extractLsb' 0 5 == 1) (.vcmpNeVx (w.extractLsb' 20 3) (w.extractLsb' 14 6) (w.extractLsb' 9 5) (w.extractLsb' 8 1) (w.extractLsb' 5 3))
  | 2 => row (w.extractLsb' 23 9 == 176 && w.extractLsb' 0 5 == 2) (.vcmpLtVx (w.extractLsb' 20 3) (w.extractLsb' 14 6) (w.extractLsb' 9 5) (w.extractLsb' 8 1) (w.extractLsb' 5 3))
  | 3 => row (w.extractLsb' 23 9 == 176 && w.extractLsb' 0 5 == 3) (.vcmpLeVx (w.extractLsb' 20 3) (w.extractLsb' 14 6) (w.extractLsb' 9 5) (w.extractLsb' 8 1) (w.extractLsb' 5 3))
  | 4 => row (w.extractLsb' 23 9 == 176 && w.extractLsb' 0 5 == 4) (.vcmpLtuVx (w.extractLsb' 20 3) (w.extractLsb' 14 6) (w.extractLsb' 9 5) (w.extractLsb' 8 1) (w.extractLsb' 5 3))
  | 5 => row (w.extractLsb' 23 9 == 176 && w.extractLsb' 0 5 == 5) (.vcmpLeuVx (w.extractLsb' 20 3) (w.extractLsb' 14 6) (w.extractLsb' 9 5) (w.extractLsb' 8 1) (w.extractLsb' 5 3))
  | 8 => row (w.extractLsb' 23 9 == 176 && w.extractLsb' 0 5 == 8) (.vfcmpEqVx (w.extractLsb' 20 3) (w.extractLsb' 14 6) (w.extractLsb' 9 5) (w.extractLsb' 8 1) (w.extractLsb' 5 3))
  | 9 => row (w.extractLsb' 23 9 == 176 && w.extractLsb' 0 5 == 9) (.vfcmpNeVx (w.extractLsb' 20 3) (w.extractLsb' 14 6) (w.extractLsb' 9 5) (w.extractLsb' 8 1) (w.extractLsb' 5 3))
  | 10 => row (w.extractLsb' 23 9 == 176 && w.extractLsb' 0 5 == 10) (.vfcmpLtVx (w.extractLsb' 20 3) (w.extractLsb' 14 6) (w.extractLsb' 9 5) (w.extractLsb' 8 1) (w.extractLsb' 5 3))
  | 11 => row (w.extractLsb' 23 9 == 176 && w.extractLsb' 0 5 == 11) (.vfcmpLeVx (w.extractLsb' 20 3) (w.extractLsb' 14 6) (w.extractLsb' 9 5) (w.extractLsb' 8 1) (w.extractLsb' 5 3))
  | 12 => row (w.extractLsb' 23 9 == 176 && w.extractLsb' 0 5 == 12) (.vfcmpUnordVx (w.extractLsb' 20 3) (w.extractLsb' 14 6) (w.extractLsb' 9 5) (w.extractLsb' 8 1) (w.extractLsb' 5 3))
  | 13 => row (w.extractLsb' 23 9 == 176 && w.extractLsb' 0 5 == 13) (.vfcmpOrdVx (w.extractLsb' 20 3) (w.extractLsb' 14 6) (w.extractLsb' 9 5) (w.extractLsb' 8 1) (w.extractLsb' 5 3))
  | _ => .error .reserved

/-- Major 0x17. -/
def decodeMajor17 (w : BitVec 32) : Except IllegalSub Instr :=
  match (w.extractLsb' 0 5).toNat with
  | 0 => row (w.extractLsb' 25 7 == 46 && w.extractLsb' 0 5 == 0) (.vredsum (w.extractLsb' 20 5) (w.extractLsb' 14 6) (w.extractLsb' 9 5) (w.extractLsb' 8 1) (w.extractLsb' 5 3))
  | 1 => row (w.extractLsb' 25 7 == 46 && w.extractLsb' 0 5 == 1) (.vredmax (w.extractLsb' 20 5) (w.extractLsb' 14 6) (w.extractLsb' 9 5) (w.extractLsb' 8 1) (w.extractLsb' 5 3))
  | 2 => row (w.extractLsb' 25 7 == 46 && w.extractLsb' 0 5 == 2) (.vredmin (w.extractLsb' 20 5) (w.extractLsb' 14 6) (w.extractLsb' 9 5) (w.extractLsb' 8 1) (w.extractLsb' 5 3))
  | 3 => row (w.extractLsb' 25 7 == 46 && w.extractLsb' 0 5 == 3) (.vredand (w.extractLsb' 20 5) (w.extractLsb' 14 6) (w.extractLsb' 9 5) (w.extractLsb' 8 1) (w.extractLsb' 5 3))
  | 4 => row (w.extractLsb' 25 7 == 46 && w.extractLsb' 0 5 == 4) (.vredor (w.extractLsb' 20 5) (w.extractLsb' 14 6) (w.extractLsb' 9 5) (w.extractLsb' 8 1) (w.extractLsb' 5 3))
  | 5 => row (w.extractLsb' 25 7 == 46 && w.extractLsb' 0 5 == 5) (.vfredsumO (w.extractLsb' 20 5) (w.extractLsb' 14 6) (w.extractLsb' 9 5) (w.extractLsb' 8 1) (w.extractLsb' 5 3))
  | 6 => row (w.extractLsb' 25 7 == 46 && w.extractLsb' 0 5 == 6) (.vfredsumT (w.extractLsb' 20 5) (w.extractLsb' 14 6) (w.extractLsb' 9 5) (w.extractLsb' 8 1) (w.extractLsb' 5 3))
  | 7 => row (w.extractLsb' 25 7 == 46 && w.extractLsb' 0 5 == 7) (.vfredmax (w.extractLsb' 20 5) (w.extractLsb' 14 6) (w.extractLsb' 9 5) (w.extractLsb' 8 1) (w.extractLsb' 5 3))
  | 8 => row (w.extractLsb' 25 7 == 46 && w.extractLsb' 0 5 == 8) (.vfredmin (w.extractLsb' 20 5) (w.extractLsb' 14 6) (w.extractLsb' 9 5) (w.extractLsb' 8 1) (w.extractLsb' 5 3))
  | _ => .error .reserved

/-- Major 0x18. -/
def decodeMajor18 (w : BitVec 32) : Except IllegalSub Instr :=
  match (w.extractLsb' 0 5).toNat with
  | 0 => row (w.extractLsb' 26 6 == 24 && w.extractLsb' 0 5 == 0) (.vslideup (w.extractLsb' 20 6) (w.extractLsb' 14 6) (w.extractLsb' 9 5) (w.extractLsb' 8 1) (w.extractLsb' 5 3))
  | 1 => row (w.extractLsb' 26 6 == 24 && w.extractLsb' 0 5 == 1) (.vslidedown (w.extractLsb' 20 6) (w.extractLsb' 14 6) (w.extractLsb' 9 5) (w.extractLsb' 8 1) (w.extractLsb' 5 3))
  | 2 => row (w.extractLsb' 26 6 == 24 && w.extractLsb' 8 6 == 0 && w.extractLsb' 0 5 == 2) (.vrev (w.extractLsb' 20 6) (w.extractLsb' 14 6) (w.extractLsb' 5 3))
  | 3 => row (w.extractLsb' 26 6 == 24 && w.extractLsb' 0 5 == 3) (.vperm (w.extractLsb' 20 6) (w.extractLsb' 14 6) (w.extractLsb' 8 6) (w.extractLsb' 5 3))
  | 4 => row (w.extractLsb' 26 6 == 24 && w.extractLsb' 8 6 == 0 && w.extractLsb' 0 5 == 4) (.vcompress (w.extractLsb' 20 6) (w.extractLsb' 14 6) (w.extractLsb' 5 3))
  | 5 => row (w.extractLsb' 26 6 == 24 && w.extractLsb' 8 6 == 0 && w.extractLsb' 0 5 == 5) (.vexpand (w.extractLsb' 20 6) (w.extractLsb' 14 6) (w.extractLsb' 5 3))
  | 6 => row (w.extractLsb' 26 6 == 24 && w.extractLsb' 17 3 == 0 && w.extractLsb' 8 6 == 0 && w.extractLsb' 0 5 == 6) (.viota (w.extractLsb' 20 6) (w.extractLsb' 14 3) (w.extractLsb' 5 3))
  | 7 => row (w.extractLsb' 26 6 == 24 && w.extractLsb' 0 14 == 7) (.vsort (w.extractLsb' 20 6) (w.extractLsb' 14 6))
  | 8 => row (w.extractLsb' 26 6 == 24 && w.extractLsb' 13 1 == 0 && w.extractLsb' 0 8 == 8) (.vdedup (w.extractLsb' 20 6) (w.extractLsb' 14 6) (w.extractLsb' 8 5))
  | _ => .error .reserved

/-- Major 0x19. -/
def decodeMajor19 (w : BitVec 32) : Except IllegalSub Instr :=
  match (w.extractLsb' 0 5).toNat with
  | 0 => row (w.extractLsb' 26 6 == 25 && w.extractLsb' 0 5 == 0) (.vscanAdd (w.extractLsb' 20 6) (w.extractLsb' 14 6) (w.extractLsb' 9 5) (w.extractLsb' 8 1) (w.extractLsb' 5 3))
  | 1 => row (w.extractLsb' 26 6 == 25 && w.extractLsb' 0 5 == 1) (.vscanMax (w.extractLsb' 20 6) (w.extractLsb' 14 6) (w.extractLsb' 9 5) (w.extractLsb' 8 1) (w.extractLsb' 5 3))
  | 2 => row (w.extractLsb' 26 6 == 25 && w.extractLsb' 0 5 == 2) (.vscanMin (w.extractLsb' 20 6) (w.extractLsb' 14 6) (w.extractLsb' 9 5) (w.extractLsb' 8 1) (w.extractLsb' 5 3))
  | 3 => row (w.extractLsb' 26 6 == 25 && w.extractLsb' 0 5 == 3) (.vscanFadd (w.extractLsb' 20 6) (w.extractLsb' 14 6) (w.extractLsb' 9 5) (w.extractLsb' 8 1) (w.extractLsb' 5 3))
  | 4 => row (w.extractLsb' 26 6 == 25 && w.extractLsb' 0 5 == 4) (.vrecur (w.extractLsb' 20 6) (w.extractLsb' 14 6) (w.extractLsb' 9 5) (w.extractLsb' 8 1) (w.extractLsb' 5 3))
  | 5 => row (w.extractLsb' 26 6 == 25 && w.extractLsb' 8 6 == 0 && w.extractLsb' 0 5 == 5) (.vmv (w.extractLsb' 20 6) (w.extractLsb' 14 6) (w.extractLsb' 5 3))
  | 6 => row (w.extractLsb' 26 6 == 25 && w.extractLsb' 14 6 == 0 && w.extractLsb' 0 5 == 6) (.vbcast (w.extractLsb' 20 6) (w.extractLsb' 9 5) (w.extractLsb' 8 1) (w.extractLsb' 5 3))
  | 7 => row (w.extractLsb' 25 7 == 50 && w.extractLsb' 0 8 == 7) (.vext (w.extractLsb' 20 5) (w.extractLsb' 14 6) (w.extractLsb' 9 5) (w.extractLsb' 8 1))
  | 8 => row (w.extractLsb' 26 6 == 25 && w.extractLsb' 19 1 == 0 && w.extractLsb' 0 8 == 8) (.vins (w.extractLsb' 20 6) (w.extractLsb' 14 5) (w.extractLsb' 9 5) (w.extractLsb' 8 1))
  | 9 => row (w.extractLsb' 26 6 == 25 && w.extractLsb' 0 5 == 9) (.vmerge (w.extractLsb' 20 6) (w.extractLsb' 14 6) (w.extractLsb' 8 6) (w.extractLsb' 5 3))
  | 10 => row (w.extractLsb' 26 6 == 25 && w.extractLsb' 0 20 == 10) (.vtrans (w.extractLsb' 20 6))
  | _ => .error .reserved

/-- Major 0x10 in tile mode. -/
def decodeTile10 (w : BitVec 32) : Except IllegalSub Instr :=
  match (w.extractLsb' 0 5).toNat with
  | 0 => row (w.extractLsb' 26 6 == 16 && w.extractLsb' 0 23 == 0) (.tzero (w.extractLsb' 23 3))
  | 1 => row (w.extractLsb' 26 6 == 16 && w.extractLsb' 20 3 == 0 && w.extractLsb' 0 5 == 1) (.tmmaO (w.extractLsb' 23 3) (w.extractLsb' 14 6) (w.extractLsb' 10 4) (w.extractLsb' 5 5))
  | 2 => row (w.extractLsb' 26 6 == 16 && w.extractLsb' 20 3 == 0 && w.extractLsb' 0 5 == 2) (.tmmaF (w.extractLsb' 23 3) (w.extractLsb' 14 6) (w.extractLsb' 10 4) (w.extractLsb' 5 5))
  | 3 => row (w.extractLsb' 26 6 == 16 && w.extractLsb' 20 3 == 0 && w.extractLsb' 10 4 == 0 && w.extractLsb' 0 5 == 3) (.tmova (w.extractLsb' 23 3) (w.extractLsb' 14 6) (w.extractLsb' 5 5))
  | 4 => row (w.extractLsb' 26 6 == 16 && w.extractLsb' 20 3 == 0 && w.extractLsb' 10 4 == 0 && w.extractLsb' 0 5 == 4) (.tmovv (w.extractLsb' 23 3) (w.extractLsb' 14 6) (w.extractLsb' 5 5))
  | 5 => match (w.extractLsb' 10 1).toNat with
    | 0 => row (w.extractLsb' 26 6 == 16 && w.extractLsb' 20 3 == 0 && w.extractLsb' 10 4 == 0 && w.extractLsb' 0 5 == 5) (.tcolmvOut (w.extractLsb' 23 3) (w.extractLsb' 14 6) (w.extractLsb' 5 5))
    | 1 => row (w.extractLsb' 26 6 == 16 && w.extractLsb' 20 3 == 0 && w.extractLsb' 10 4 == 1 && w.extractLsb' 0 5 == 5) (.tcolmvIn (w.extractLsb' 23 3) (w.extractLsb' 14 6) (w.extractLsb' 5 5))
    | _ => .error .reservedField
  | 6 => match (w.extractLsb' 10 1).toNat with
    | 0 => row (w.extractLsb' 26 6 == 16 && w.extractLsb' 20 3 == 0 && w.extractLsb' 10 4 == 0 && w.extractLsb' 0 5 == 6) (.trowmvOut (w.extractLsb' 23 3) (w.extractLsb' 14 6) (w.extractLsb' 5 5))
    | 1 => row (w.extractLsb' 26 6 == 16 && w.extractLsb' 20 3 == 0 && w.extractLsb' 10 4 == 1 && w.extractLsb' 0 5 == 6) (.trowmvIn (w.extractLsb' 23 3) (w.extractLsb' 14 6) (w.extractLsb' 5 5))
    | _ => .error .reservedField
  | 7 => row (w.extractLsb' 26 6 == 16 && w.extractLsb' 10 13 == 0 && w.extractLsb' 0 5 == 7) (.tscale (w.extractLsb' 23 3) (w.extractLsb' 5 5))
  | 8 => row (w.extractLsb' 26 6 == 16 && w.extractLsb' 20 3 == 0 && w.extractLsb' 10 4 == 0 && w.extractLsb' 0 5 == 8) (.tcvt (w.extractLsb' 23 3) (w.extractLsb' 14 6) (w.extractLsb' 5 5))
  | _ => .error .reserved

/-- Major 0x1C. -/
def decodeMajor1C (w : BitVec 32) : Except IllegalSub Instr :=
  match (w.extractLsb' 0 5).toNat with
  | 0 => row (w.extractLsb' 26 6 == 28 && w.extractLsb' 9 6 == 0 && w.extractLsb' 0 5 == 0) (.vld (w.extractLsb' 20 6) (w.extractLsb' 15 5) (w.extractLsb' 8 1) (w.extractLsb' 5 3))
  | 1 => row (w.extractLsb' 26 6 == 28 && w.extractLsb' 14 1 == 0 && w.extractLsb' 0 5 == 1) (.vlds (w.extractLsb' 20 6) (w.extractLsb' 15 5) (w.extractLsb' 9 5) (w.extractLsb' 8 1) (w.extractLsb' 5 3))
  | 2 => row (w.extractLsb' 26 6 == 28 && w.extractLsb' 0 5 == 2) (.vldx (w.extractLsb' 20 6) (w.extractLsb' 15 5) (w.extractLsb' 9 6) (w.extractLsb' 8 1) (w.extractLsb' 5 3))
  | 3 => row (w.extractLsb' 26 6 == 28 && w.extractLsb' 0 5 == 3) (.wgather (w.extractLsb' 20 6) (w.extractLsb' 15 5) (w.extractLsb' 9 6) (w.extractLsb' 8 1) (w.extractLsb' 5 3))
  | _ => .error .reserved

/-- Major 0x1D. -/
def decodeMajor1D (w : BitVec 32) : Except IllegalSub Instr :=
  match (w.extractLsb' 0 5).toNat with
  | 0 => row (w.extractLsb' 26 6 == 29 && w.extractLsb' 9 6 == 0 && w.extractLsb' 0 5 == 0) (.vst (w.extractLsb' 20 6) (w.extractLsb' 15 5) (w.extractLsb' 8 1) (w.extractLsb' 5 3))
  | 1 => row (w.extractLsb' 26 6 == 29 && w.extractLsb' 14 1 == 0 && w.extractLsb' 0 5 == 1) (.vsts (w.extractLsb' 20 6) (w.extractLsb' 15 5) (w.extractLsb' 9 5) (w.extractLsb' 8 1) (w.extractLsb' 5 3))
  | 2 => row (w.extractLsb' 26 6 == 29 && w.extractLsb' 0 5 == 2) (.vstxO (w.extractLsb' 20 6) (w.extractLsb' 15 5) (w.extractLsb' 9 6) (w.extractLsb' 8 1) (w.extractLsb' 5 3))
  | 3 => row (w.extractLsb' 26 6 == 29 && w.extractLsb' 0 5 == 3) (.vstxU (w.extractLsb' 20 6) (w.extractLsb' 15 5) (w.extractLsb' 9 6) (w.extractLsb' 8 1) (w.extractLsb' 5 3))
  | 4 => row (w.extractLsb' 26 6 == 29 && w.extractLsb' 0 5 == 4) (.vsadd (w.extractLsb' 20 6) (w.extractLsb' 15 5) (w.extractLsb' 9 6) (w.extractLsb' 8 1) (w.extractLsb' 5 3))
  | _ => .error .reserved

/-- Major 0x1E. -/
def decodeMajor1E (w : BitVec 32) : Except IllegalSub Instr :=
  match (w.extractLsb' 0 5).toNat with
  | 0 => row (w.extractLsb' 26 6 == 30 && w.extractLsb' 0 5 == 0) (.tload (w.extractLsb' 20 6) (w.extractLsb' 15 5) (w.extractLsb' 14 1) (w.extractLsb' 9 5) (w.extractLsb' 8 1) (w.extractLsb' 5 3))
  | 1 => row (w.extractLsb' 26 6 == 30 && w.extractLsb' 0 5 == 1) (.tstore (w.extractLsb' 20 6) (w.extractLsb' 15 5) (w.extractLsb' 14 1) (w.extractLsb' 9 5) (w.extractLsb' 8 1) (w.extractLsb' 5 3))
  | _ => .error .reserved

/-- Major 0x1F. -/
noncomputable def decodeMajor1F (w : BitVec 32) : Except IllegalSub Instr :=
  match (w.extractLsb' 0 5).toNat with
  | 0 => row (w.extractLsb' 26 6 == 31 && w.extractLsb' 0 15 == 0) (.vbind (w.extractLsb' 20 6) (w.extractLsb' 15 5))
  | 1 => row (w.extractLsb' 26 6 == 31 && w.extractLsb' 0 20 == 1) (.vunbind (w.extractLsb' 20 6))
  | 2 => row (w.extractLsb' 26 6 == 31 && w.extractLsb' 14 6 == 0 && w.extractLsb' 0 9 == 2) (.vbpos (w.extractLsb' 20 6) (w.extractLsb' 9 5))
  | _ => .error .reserved

/-- Major 0x20. -/
noncomputable def decodeMajor20 (w : BitVec 32) : Except IllegalSub Instr :=
  match (w.extractLsb' 0 5).toNat with
  | 0 => row (w.extractLsb' 26 6 == 32 && w.extractLsb' 9 6 == 0 && w.extractLsb' 0 5 == 0) (.cappend (w.extractLsb' 20 6) (w.extractLsb' 15 5) (w.extractLsb' 8 1) (w.extractLsb' 5 3))
  | _ => .error .reserved

/-- Major 0x21. -/
noncomputable def decodeMajor21 (w : BitVec 32) : Except IllegalSub Instr :=
  match (w.extractLsb' 0 5).toNat with
  | 0 => row (w.extractLsb' 24 8 == 132 && w.extractLsb' 14 1 == 0 && w.extractLsb' 0 9 == 0) (.wbload (w.extractLsb' 20 4) (w.extractLsb' 15 5) (w.extractLsb' 9 5))
  | 1 => row (w.extractLsb' 24 8 == 132 && w.extractLsb' 0 20 == 1) (.wbinv (w.extractLsb' 20 4))
  | _ => .error .reserved

/-- Major 0x24. -/
noncomputable def decodeMajor24 (w : BitVec 32) : Except IllegalSub Instr :=
  match (w.extractLsb' 0 5).toNat with
  | 0 => row (w.extractLsb' 23 9 == 288 && w.extractLsb' 19 1 == 0 && w.extractLsb' 13 1 == 0 && w.extractLsb' 0 8 == 0) (.csld (w.extractLsb' 20 3) (w.extractLsb' 14 5) (w.extractLsb' 8 5))
  | 1 => row (w.extractLsb' 23 9 == 288 && w.extractLsb' 19 1 == 0 && w.extractLsb' 13 1 == 0 && w.extractLsb' 0 8 == 1) (.csst (w.extractLsb' 20 3) (w.extractLsb' 14 5) (w.extractLsb' 8 5))
  | 2 => row (w.extractLsb' 23 9 == 288 && w.extractLsb' 13 1 == 0 && w.extractLsb' 0 8 == 2) (.csadd (w.extractLsb' 20 3) (w.extractLsb' 17 3) (w.extractLsb' 14 3) (w.extractLsb' 8 5))
  | 3 => row (w.extractLsb' 23 9 == 288 && w.extractLsb' 13 1 == 0 && w.extractLsb' 0 8 == 3) (.csmul (w.extractLsb' 20 3) (w.extractLsb' 17 3) (w.extractLsb' 14 3) (w.extractLsb' 8 5))
  | 4 => row (w.extractLsb' 25 7 == 72 && w.extractLsb' 13 1 == 0 && w.extractLsb' 0 8 == 4) (.csdot (w.extractLsb' 20 5) (w.extractLsb' 17 3) (w.extractLsb' 14 3) (w.extractLsb' 8 5))
  | 5 => row (w.extractLsb' 23 9 == 288 && w.extractLsb' 17 3 == 0 && w.extractLsb' 13 1 == 0 && w.extractLsb' 0 8 == 5) (.csscale (w.extractLsb' 20 3) (w.extractLsb' 14 3) (w.extractLsb' 8 5))
  | 6 => row (w.extractLsb' 23 9 == 288 && w.extractLsb' 13 1 == 0 && w.extractLsb' 0 8 == 6) (.cscompact (w.extractLsb' 20 3) (w.extractLsb' 14 6) (w.extractLsb' 8 5))
  | 7 => row (w.extractLsb' 26 6 == 36 && w.extractLsb' 17 3 == 0 && w.extractLsb' 13 1 == 0 && w.extractLsb' 0 8 == 7) (.csexpand (w.extractLsb' 20 6) (w.extractLsb' 14 3) (w.extractLsb' 8 5))
  | 8 => row (w.extractLsb' 23 9 == 288 && w.extractLsb' 17 3 == 0 && w.extractLsb' 13 1 == 0 && w.extractLsb' 0 8 == 8) (.csseek (w.extractLsb' 20 3) (w.extractLsb' 14 3) (w.extractLsb' 8 5))
  | 9 => row (w.extractLsb' 26 6 == 36 && w.extractLsb' 13 1 == 0 && w.extractLsb' 0 5 == 9) (.cscsr (w.extractLsb' 20 6) (w.extractLsb' 14 6) (w.extractLsb' 8 5) (w.extractLsb' 5 3))
  | _ => .error .reserved

/-- Major 0x28. -/
noncomputable def decodeMajor28 (w : BitVec 32) : Except IllegalSub Instr :=
  match (w.extractLsb' 0 5).toNat with
  | 0 => row (w.extractLsb' 26 6 == 40 && w.extractLsb' 13 2 == 0 && w.extractLsb' 9 1 == 0 && w.extractLsb' 0 5 == 0) (.ebatch (w.extractLsb' 20 6) (w.extractLsb' 15 5) (w.extractLsb' 10 3) (w.extractLsb' 8 1) (w.extractLsb' 5 3))
  | 1 => row (w.extractLsb' 20 12 == 2560 && w.extractLsb' 0 10 == 1) (.ecopy (w.extractLsb' 15 5) (w.extractLsb' 10 5))
  | 2 => row (w.extractLsb' 20 12 == 2560 && w.extractLsb' 0 10 == 2) (.rep (w.extractLsb' 15 5) (w.extractLsb' 10 5))
  | 3 => row (w.extractLsb' 15 17 == 81920 && w.extractLsb' 0 10 == 3) (.tlsig (w.extractLsb' 10 5))
  | 4 => row (w.extractLsb' 20 12 == 2560 && w.extractLsb' 0 10 == 4) (.tlwait (w.extractLsb' 15 5) (w.extractLsb' 10 5))
  | 5 => row (w.extractLsb' 20 12 == 2560 && w.extractLsb' 0 10 == 5) (.tlwaitChk (w.extractLsb' 15 5) (w.extractLsb' 10 5))
  | 6 => row (w.extractLsb' 25 7 == 80 && w.extractLsb' 0 15 == 6) (.tlread (w.extractLsb' 20 5) (w.extractLsb' 15 5))
  | _ => .error .reserved

/-- Major 0x29. -/
noncomputable def decodeMajor29 (w : BitVec 32) : Except IllegalSub Instr :=
  match (w.extractLsb' 0 5).toNat with
  | 0 => row (w.extractLsb' 26 6 == 41 && w.extractLsb' 9 1 == 0 && w.extractLsb' 0 5 == 0) (.vrred (w.extractLsb' 20 6) (w.extractLsb' 15 5) (w.extractLsb' 11 4) (w.extractLsb' 10 1) (w.extractLsb' 8 1) (w.extractLsb' 5 3))
  | 1 => row (w.extractLsb' 20 12 == 2624 && w.extractLsb' 0 10 == 1) (.creduce (w.extractLsb' 15 5) (w.extractLsb' 10 5))
  | 2 => row (w.extractLsb' 20 12 == 2624 && w.extractLsb' 0 10 == 2) (.cgather (w.extractLsb' 15 5) (w.extractLsb' 10 5))
  | 3 => row (w.extractLsb' 20 12 == 2624 && w.extractLsb' 0 10 == 3) (.cxpar (w.extractLsb' 15 5) (w.extractLsb' 10 5))
  | _ => .error .reserved

/-- Major 0x2A. -/
noncomputable def decodeMajor2A (w : BitVec 32) : Except IllegalSub Instr :=
  match (w.extractLsb' 0 5).toNat with
  | 0 => row (w.extractLsb' 26 6 == 42 && w.extractLsb' 11 4 == 0 && w.extractLsb' 9 1 == 0 && w.extractLsb' 0 5 == 0) (.nmadd (w.extractLsb' 20 6) (w.extractLsb' 15 5) (w.extractLsb' 10 1) (w.extractLsb' 8 1) (w.extractLsb' 5 3))
  | 1 => row (w.extractLsb' 26 6 == 42 && w.extractLsb' 11 4 == 0 && w.extractLsb' 9 1 == 0 && w.extractLsb' 0 5 == 1) (.nmfadd (w.extractLsb' 20 6) (w.extractLsb' 15 5) (w.extractLsb' 10 1) (w.extractLsb' 8 1) (w.extractLsb' 5 3))
  | 2 => row (w.extractLsb' 0 32 == 2818572290) (.nmfence)
  | 3 => row (w.extractLsb' 0 32 == 2818572291) (.nmfenceRel)
  | 4 => row (w.extractLsb' 20 12 == 2688 && w.extractLsb' 0 10 == 4) (.nmopt (w.extractLsb' 15 5) (w.extractLsb' 10 5))
  | 5 => row (w.extractLsb' 20 12 == 2688 && w.extractLsb' 0 15 == 5) (.pkcfg (w.extractLsb' 15 5))
  | 6 => row (w.extractLsb' 26 6 == 42 && w.extractLsb' 9 1 == 0 && w.extractLsb' 0 5 == 6) (.pklook (w.extractLsb' 20 6) (w.extractLsb' 15 5) (w.extractLsb' 10 5) (w.extractLsb' 8 1) (w.extractLsb' 5 3))
  | _ => .error .reserved

/-- Major 0x2B. -/
noncomputable def decodeMajor2B (w : BitVec 32) : Except IllegalSub Instr :=
  match (w.extractLsb' 0 5).toNat with
  | 0 => match (w.extractLsb' 20 1).toNat with
    | 0 => row (w.extractLsb' 20 12 == 2752 && w.extractLsb' 0 15 == 0) (.skset (w.extractLsb' 15 5))
    | 1 => row (w.extractLsb' 20 12 == 2753 && w.extractLsb' 0 10 == 0) (.sksetG (w.extractLsb' 15 5) (w.extractLsb' 10 5))
    | _ => .error .reservedField
  | 1 => row (w.extractLsb' 20 12 == 2752 && w.extractLsb' 0 10 == 1) (.skbuild (w.extractLsb' 15 5) (w.extractLsb' 10 5))
  | 2 => row (w.extractLsb' 20 12 == 2752 && w.extractLsb' 0 10 == 2) (.skxchg (w.extractLsb' 15 5) (w.extractLsb' 10 5))
  | 3 => row (w.extractLsb' 20 12 == 2752 && w.extractLsb' 0 10 == 3) (.skpeel (w.extractLsb' 15 5) (w.extractLsb' 10 5))
  | _ => .error .reserved

/-- Major 0x3E. -/
noncomputable def decodeMajor3E (w : BitVec 32) : Except IllegalSub Instr :=
  match (w.extractLsb' 0 5).toNat with
  | 0 => row (w.extractLsb' 12 20 == 1015808 && w.extractLsb' 0 10 == 0) (.tmode (w.extractLsb' 11 1) (w.extractLsb' 10 1))
  | 1 => row (w.extractLsb' 25 7 == 124 && w.extractLsb' 0 10 == 1) (.tshape (w.extractLsb' 20 5) (w.extractLsb' 15 5) (w.extractLsb' 10 5))
  | _ => .error .reserved

/-- Decoding in vector mode (08 R185 to R187, R189). -/
noncomputable def decodeVector (w : BitVec 32) : Except IllegalSub Instr :=
  match (w.extractLsb' 26 6).toNat with
  | 0x00 => .error .permanent
  | 0x3F => .error .permanent
  | 0x01 => decodeMajor01 w
  | 0x02 => decodeMajor02 w
  | 0x03 => decodeMajor03 w
  | 0x04 => decodeMajor04 w
  | 0x05 => decodeMajor05 w
  | 0x06 => decodeMajor06 w
  | 0x07 => decodeMajor07 w
  | 0x08 => decodeMajor08 w
  | 0x09 => decodeMajor09 w
  | 0x0A => decodeMajor0A w
  | 0x0B => decodeMajor0B w
  | 0x0C => decodeMajor0C w
  | 0x0D => decodeMajor0D w
  | 0x0E => decodeMajor0E w
  | 0x0F => decodeMajor0F w
  | 0x10 => decodeMajor10 w
  | 0x11 => decodeMajor11 w
  | 0x12 => decodeMajor12 w
  | 0x13 => decodeMajor13 w
  | 0x14 => decodeMajor14 w
  | 0x15 => decodeMajor15 w
  | 0x16 => decodeMajor16 w
  | 0x17 => decodeMajor17 w
  | 0x18 => decodeMajor18 w
  | 0x19 => decodeMajor19 w
  | 0x1C => decodeMajor1C w
  | 0x1D => decodeMajor1D w
  | 0x1E => decodeMajor1E w
  | 0x1F => decodeMajor1F w
  | 0x20 => decodeMajor20 w
  | 0x21 => decodeMajor21 w
  | 0x24 => decodeMajor24 w
  | 0x28 => decodeMajor28 w
  | 0x29 => decodeMajor29 w
  | 0x2A => decodeMajor2A w
  | 0x2B => decodeMajor2B w
  | 0x3E => decodeMajor3E w
  | _ => .error .reserved

/-- Decoding in tile mode (06 R162; 08 R188, R194). -/
noncomputable def decodeTile (w : BitVec 32) : Except IllegalSub Instr :=
  match (w.extractLsb' 26 6).toNat with
  | 0x00 => .error .permanent
  | 0x3F => .error .permanent
  | 0x24 => .error .mode
  | 0x25 => .error .mode
  | 0x26 => .error .mode
  | 0x27 => .error .mode
  | 0x01 => decodeMajor01 w
  | 0x02 => decodeMajor02 w
  | 0x03 => decodeMajor03 w
  | 0x04 => decodeMajor04 w
  | 0x05 => decodeMajor05 w
  | 0x06 => decodeMajor06 w
  | 0x07 => decodeMajor07 w
  | 0x08 => decodeMajor08 w
  | 0x09 => decodeMajor09 w
  | 0x0A => decodeMajor0A w
  | 0x0B => decodeMajor0B w
  | 0x0C => decodeMajor0C w
  | 0x0D => decodeMajor0D w
  | 0x0E => decodeMajor0E w
  | 0x0F => decodeMajor0F w
  | 0x10 => decodeTile10 w
  | 0x1C => decodeMajor1C w
  | 0x1D => decodeMajor1D w
  | 0x1E => decodeMajor1E w
  | 0x1F => decodeMajor1F w
  | 0x20 => decodeMajor20 w
  | 0x21 => decodeMajor21 w
  | 0x28 => decodeMajor28 w
  | 0x29 => decodeMajor29 w
  | 0x2A => decodeMajor2A w
  | 0x2B => decodeMajor2B w
  | 0x3E => decodeMajor3E w
  | _ => .error .reserved

/-- A word is decoded under TCR.TMD (08 R192). -/
noncomputable def decodeWord (tile : Bool) (w : BitVec 32) : Except IllegalSub Instr :=
  if tile then decodeTile w else decodeVector w

/-- The little-endian word of four bytes (00 R5; 08 R182). -/
def wordOfBytes (b0 b1 b2 b3 : Byte) : BitVec 32 := b3 ++ b2 ++ b1 ++ b0

/-- The bytes of a word, lowest address first. -/
def bytesOfWord (w : BitVec 32) : List Byte :=
  [w.extractLsb' 0 8, w.extractLsb' 8 8, w.extractLsb' 16 8, w.extractLsb' 24 8]

/-- Decoding from bytes: an instruction is four bytes; fewer encode nothing. -/
noncomputable def decodeBytes (tile : Bool) (l : List Byte) : Except IllegalSub (Instr × List Byte) :=
  match l with
  | b0 :: b1 :: b2 :: b3 :: rest => (decodeWord tile (wordOfBytes b0 b1 b2 b3)).map fun i => (i, rest)
  | _ => .error .permanent

/-- Whether a word encodes an instruction in vector mode. -/
noncomputable def decodesInVector (w : BitVec 32) : Bool :=
  match decodeVector w with
  | .ok _ => true
  | .error _ => false

/-- The instruction the decoder reads from a table word: in vector mode where the word has a meaning there, else in tile
mode (the two modes give major 0x10 two meanings, 08 R187 and R188). -/
noncomputable def decodeTableWord (nbits w : Nat) : Option Instr :=
  if nbits = 32 then
    let v := BitVec.ofNat 32 w
    match decodeBytes (!decodesInVector v) (bytesOfWord v) with
    | .ok (i, _) => some i
    | .error _ => none
  else none

/-- Two fields side by side, the first the more significant, in k bits. -/
def cat {n m : Nat} (k : Nat) (a : BitVec n) (b : BitVec m) : BitVec k := BitVec.ofNat k (a.toNat <<< m ||| b.toNat)

/-- The word of ADD. -/
def Enc.add (d : BitVec 5) (n : BitVec 5) (m : BitVec 5) : BitVec 32 := cat 32 (cat 21 (cat 16 (cat 11 1#6 d) n) m) 0#11

/-- The word of SUB. -/
def Enc.sub (d : BitVec 5) (n : BitVec 5) (m : BitVec 5) : BitVec 32 := cat 32 (cat 21 (cat 16 (cat 11 1#6 d) n) m) 1#11

/-- The word of AND. -/
def Enc.and (d : BitVec 5) (n : BitVec 5) (m : BitVec 5) : BitVec 32 := cat 32 (cat 21 (cat 16 (cat 11 1#6 d) n) m) 2#11

/-- The word of OR. -/
def Enc.or (d : BitVec 5) (n : BitVec 5) (m : BitVec 5) : BitVec 32 := cat 32 (cat 21 (cat 16 (cat 11 1#6 d) n) m) 3#11

/-- The word of XOR. -/
def Enc.xor (d : BitVec 5) (n : BitVec 5) (m : BitVec 5) : BitVec 32 := cat 32 (cat 21 (cat 16 (cat 11 1#6 d) n) m) 4#11

/-- The word of SHL. -/
def Enc.shl (d : BitVec 5) (n : BitVec 5) (m : BitVec 5) : BitVec 32 := cat 32 (cat 21 (cat 16 (cat 11 1#6 d) n) m) 5#11

/-- The word of SHR. -/
def Enc.shr (d : BitVec 5) (n : BitVec 5) (m : BitVec 5) : BitVec 32 := cat 32 (cat 21 (cat 16 (cat 11 1#6 d) n) m) 6#11

/-- The word of SRA. -/
def Enc.sra (d : BitVec 5) (n : BitVec 5) (m : BitVec 5) : BitVec 32 := cat 32 (cat 21 (cat 16 (cat 11 1#6 d) n) m) 7#11

/-- The word of SLT. -/
def Enc.slt (d : BitVec 5) (n : BitVec 5) (m : BitVec 5) : BitVec 32 := cat 32 (cat 21 (cat 16 (cat 11 1#6 d) n) m) 8#11

/-- The word of SLTU. -/
def Enc.sltu (d : BitVec 5) (n : BitVec 5) (m : BitVec 5) : BitVec 32 := cat 32 (cat 21 (cat 16 (cat 11 1#6 d) n) m) 9#11

/-- The word of MUL. -/
def Enc.mul (d : BitVec 5) (n : BitVec 5) (m : BitVec 5) : BitVec 32 := cat 32 (cat 21 (cat 16 (cat 11 1#6 d) n) m) 10#11

/-- The word of MULH. -/
def Enc.mulh (d : BitVec 5) (n : BitVec 5) (m : BitVec 5) : BitVec 32 := cat 32 (cat 21 (cat 16 (cat 11 1#6 d) n) m) 11#11

/-- The word of MULHU. -/
def Enc.mulhu (d : BitVec 5) (n : BitVec 5) (m : BitVec 5) : BitVec 32 := cat 32 (cat 21 (cat 16 (cat 11 1#6 d) n) m) 12#11

/-- The word of DIV. -/
def Enc.div (d : BitVec 5) (n : BitVec 5) (m : BitVec 5) : BitVec 32 := cat 32 (cat 21 (cat 16 (cat 11 1#6 d) n) m) 13#11

/-- The word of DIVU. -/
def Enc.divu (d : BitVec 5) (n : BitVec 5) (m : BitVec 5) : BitVec 32 := cat 32 (cat 21 (cat 16 (cat 11 1#6 d) n) m) 14#11

/-- The word of REM. -/
def Enc.rem (d : BitVec 5) (n : BitVec 5) (m : BitVec 5) : BitVec 32 := cat 32 (cat 21 (cat 16 (cat 11 1#6 d) n) m) 15#11

/-- The word of REMU. -/
def Enc.remu (d : BitVec 5) (n : BitVec 5) (m : BitVec 5) : BitVec 32 := cat 32 (cat 21 (cat 16 (cat 11 1#6 d) n) m) 16#11

/-- The word of MIN. -/
def Enc.min (d : BitVec 5) (n : BitVec 5) (m : BitVec 5) : BitVec 32 := cat 32 (cat 21 (cat 16 (cat 11 1#6 d) n) m) 17#11

/-- The word of MAX. -/
def Enc.max (d : BitVec 5) (n : BitVec 5) (m : BitVec 5) : BitVec 32 := cat 32 (cat 21 (cat 16 (cat 11 1#6 d) n) m) 18#11

/-- The word of MINU. -/
def Enc.minu (d : BitVec 5) (n : BitVec 5) (m : BitVec 5) : BitVec 32 := cat 32 (cat 21 (cat 16 (cat 11 1#6 d) n) m) 19#11

/-- The word of MAXU. -/
def Enc.maxu (d : BitVec 5) (n : BitVec 5) (m : BitVec 5) : BitVec 32 := cat 32 (cat 21 (cat 16 (cat 11 1#6 d) n) m) 20#11

/-- The word of CLZ. -/
def Enc.clz (d : BitVec 5) (n : BitVec 5) : BitVec 32 := cat 32 (cat 16 (cat 11 1#6 d) n) 21#16

/-- The word of CTZ. -/
def Enc.ctz (d : BitVec 5) (n : BitVec 5) : BitVec 32 := cat 32 (cat 16 (cat 11 1#6 d) n) 22#16

/-- The word of POPC. -/
def Enc.popc (d : BitVec 5) (n : BitVec 5) : BitVec 32 := cat 32 (cat 16 (cat 11 1#6 d) n) 23#16

/-- The word of SEL. -/
def Enc.sel (d : BitVec 5) (n : BitVec 5) (m : BitVec 5) (x : BitVec 5) : BitVec 32 := cat 32 (cat 26 (cat 21 (cat 16 (cat 11 1#6 d) n) m) x) 24#6

/-- The word of ADDSH. -/
def Enc.addsh (d : BitVec 5) (n : BitVec 5) (m : BitVec 5) (x : BitVec 5) : BitVec 32 := cat 32 (cat 26 (cat 21 (cat 16 (cat 11 1#6 d) n) m) x) 25#6

/-- The word of ADDI. -/
def Enc.addi (d : BitVec 5) (n : BitVec 5) (i : BitVec 13) : BitVec 32 := cat 32 (cat 19 (cat 16 (cat 11 2#6 d) n) 0#3) i

/-- The word of ANDI. -/
def Enc.andi (d : BitVec 5) (n : BitVec 5) (i : BitVec 13) : BitVec 32 := cat 32 (cat 19 (cat 16 (cat 11 2#6 d) n) 1#3) i

/-- The word of ORI. -/
def Enc.ori (d : BitVec 5) (n : BitVec 5) (i : BitVec 13) : BitVec 32 := cat 32 (cat 19 (cat 16 (cat 11 2#6 d) n) 2#3) i

/-- The word of XORI. -/
def Enc.xori (d : BitVec 5) (n : BitVec 5) (i : BitVec 13) : BitVec 32 := cat 32 (cat 19 (cat 16 (cat 11 2#6 d) n) 3#3) i

/-- The word of SLTI. -/
def Enc.slti (d : BitVec 5) (n : BitVec 5) (i : BitVec 13) : BitVec 32 := cat 32 (cat 19 (cat 16 (cat 11 2#6 d) n) 4#3) i

/-- The word of SHLI. -/
def Enc.shli (d : BitVec 5) (n : BitVec 5) (i : BitVec 6) : BitVec 32 := cat 32 (cat 26 (cat 16 (cat 11 2#6 d) n) 640#10) i

/-- The word of SHRI. -/
def Enc.shri (d : BitVec 5) (n : BitVec 5) (i : BitVec 6) : BitVec 32 := cat 32 (cat 26 (cat 16 (cat 11 2#6 d) n) 768#10) i

/-- The word of SRAI. -/
def Enc.srai (d : BitVec 5) (n : BitVec 5) (i : BitVec 6) : BitVec 32 := cat 32 (cat 26 (cat 16 (cat 11 2#6 d) n) 896#10) i

/-- The word of LD_B. -/
def Enc.ldB (d : BitVec 5) (n : BitVec 5) (i : BitVec 13) : BitVec 32 := cat 32 (cat 19 (cat 16 (cat 11 3#6 d) n) 0#3) i

/-- The word of LD_BU. -/
def Enc.ldBu (d : BitVec 5) (n : BitVec 5) (i : BitVec 13) : BitVec 32 := cat 32 (cat 19 (cat 16 (cat 11 3#6 d) n) 1#3) i

/-- The word of LD_H. -/
def Enc.ldH (d : BitVec 5) (n : BitVec 5) (i : BitVec 13) : BitVec 32 := cat 32 (cat 19 (cat 16 (cat 11 3#6 d) n) 2#3) i

/-- The word of LD_HU. -/
def Enc.ldHu (d : BitVec 5) (n : BitVec 5) (i : BitVec 13) : BitVec 32 := cat 32 (cat 19 (cat 16 (cat 11 3#6 d) n) 3#3) i

/-- The word of LD_W. -/
def Enc.ldW (d : BitVec 5) (n : BitVec 5) (i : BitVec 13) : BitVec 32 := cat 32 (cat 19 (cat 16 (cat 11 3#6 d) n) 4#3) i

/-- The word of LD_WU. -/
def Enc.ldWu (d : BitVec 5) (n : BitVec 5) (i : BitVec 13) : BitVec 32 := cat 32 (cat 19 (cat 16 (cat 11 3#6 d) n) 5#3) i

/-- The word of LD_D. -/
def Enc.ldD (d : BitVec 5) (n : BitVec 5) (i : BitVec 13) : BitVec 32 := cat 32 (cat 19 (cat 16 (cat 11 3#6 d) n) 6#3) i

/-- The word of ST_B. -/
def Enc.stB (d : BitVec 5) (n : BitVec 5) (i : BitVec 13) : BitVec 32 := cat 32 (cat 19 (cat 16 (cat 11 4#6 d) n) 0#3) i

/-- The word of ST_H. -/
def Enc.stH (d : BitVec 5) (n : BitVec 5) (i : BitVec 13) : BitVec 32 := cat 32 (cat 19 (cat 16 (cat 11 4#6 d) n) 2#3) i

/-- The word of ST_W. -/
def Enc.stW (d : BitVec 5) (n : BitVec 5) (i : BitVec 13) : BitVec 32 := cat 32 (cat 19 (cat 16 (cat 11 4#6 d) n) 4#3) i

/-- The word of ST_D. -/
def Enc.stD (d : BitVec 5) (n : BitVec 5) (i : BitVec 13) : BitVec 32 := cat 32 (cat 19 (cat 16 (cat 11 4#6 d) n) 6#3) i

/-- The word of BEQ. -/
def Enc.beq (n : BitVec 5) (m : BitVec 5) (o : BitVec 13) : BitVec 32 := cat 32 (cat 19 (cat 16 (cat 11 5#6 n) m) 0#3) o

/-- The word of BNE. -/
def Enc.bne (n : BitVec 5) (m : BitVec 5) (o : BitVec 13) : BitVec 32 := cat 32 (cat 19 (cat 16 (cat 11 5#6 n) m) 1#3) o

/-- The word of BLT. -/
def Enc.blt (n : BitVec 5) (m : BitVec 5) (o : BitVec 13) : BitVec 32 := cat 32 (cat 19 (cat 16 (cat 11 5#6 n) m) 2#3) o

/-- The word of BGE. -/
def Enc.bge (n : BitVec 5) (m : BitVec 5) (o : BitVec 13) : BitVec 32 := cat 32 (cat 19 (cat 16 (cat 11 5#6 n) m) 3#3) o

/-- The word of BLTU. -/
def Enc.bltu (n : BitVec 5) (m : BitVec 5) (o : BitVec 13) : BitVec 32 := cat 32 (cat 19 (cat 16 (cat 11 5#6 n) m) 4#3) o

/-- The word of BGEU. -/
def Enc.bgeu (n : BitVec 5) (m : BitVec 5) (o : BitVec 13) : BitVec 32 := cat 32 (cat 19 (cat 16 (cat 11 5#6 n) m) 5#3) o

/-- The word of VLOOP. -/
def Enc.vloop (n : BitVec 5) (o : BitVec 13) : BitVec 32 := cat 32 (cat 19 (cat 11 5#6 n) 6#8) o

/-- The word of JAL. -/
def Enc.jal (d : BitVec 5) (i : BitVec 21) : BitVec 32 := cat 32 (cat 11 6#6 d) i

/-- The word of JALR. -/
def Enc.jalr (d : BitVec 5) (n : BitVec 5) (i : BitVec 13) : BitVec 32 := cat 32 (cat 19 (cat 16 (cat 11 7#6 d) n) 0#3) i

/-- The word of LDHI. -/
def Enc.ldhi (d : BitVec 5) (i : BitVec 21) : BitVec 32 := cat 32 (cat 11 8#6 d) i

/-- The word of FADD. -/
def Enc.fadd (d : BitVec 5) (n : BitVec 5) (m : BitVec 5) (p : BitVec 1) : BitVec 32 := cat 32 (cat 27 (cat 26 (cat 21 (cat 16 (cat 11 9#6 d) n) m) 0#5) p) 0#5

/-- The word of FSUB. -/
def Enc.fsub (d : BitVec 5) (n : BitVec 5) (m : BitVec 5) (p : BitVec 1) : BitVec 32 := cat 32 (cat 27 (cat 26 (cat 21 (cat 16 (cat 11 9#6 d) n) m) 0#5) p) 1#5

/-- The word of FMUL. -/
def Enc.fmul (d : BitVec 5) (n : BitVec 5) (m : BitVec 5) (p : BitVec 1) : BitVec 32 := cat 32 (cat 27 (cat 26 (cat 21 (cat 16 (cat 11 9#6 d) n) m) 0#5) p) 2#5

/-- The word of FDIV. -/
def Enc.fdiv (d : BitVec 5) (n : BitVec 5) (m : BitVec 5) (p : BitVec 1) : BitVec 32 := cat 32 (cat 27 (cat 26 (cat 21 (cat 16 (cat 11 9#6 d) n) m) 0#5) p) 3#5

/-- The word of FSQRT. -/
def Enc.fsqrt (d : BitVec 5) (n : BitVec 5) (p : BitVec 1) : BitVec 32 := cat 32 (cat 27 (cat 26 (cat 16 (cat 11 9#6 d) n) 0#10) p) 4#5

/-- The word of FMA. -/
def Enc.fma (d : BitVec 5) (n : BitVec 5) (m : BitVec 5) (x : BitVec 5) (p : BitVec 1) : BitVec 32 := cat 32 (cat 27 (cat 26 (cat 21 (cat 16 (cat 11 9#6 d) n) m) x) p) 5#5

/-- The word of FMIN. -/
def Enc.fmin (d : BitVec 5) (n : BitVec 5) (m : BitVec 5) (p : BitVec 1) : BitVec 32 := cat 32 (cat 27 (cat 26 (cat 21 (cat 16 (cat 11 9#6 d) n) m) 0#5) p) 6#5

/-- The word of FMAX. -/
def Enc.fmax (d : BitVec 5) (n : BitVec 5) (m : BitVec 5) (p : BitVec 1) : BitVec 32 := cat 32 (cat 27 (cat 26 (cat 21 (cat 16 (cat 11 9#6 d) n) m) 0#5) p) 7#5

/-- The word of FCMP. -/
def Enc.fcmp (d : BitVec 5) (n : BitVec 5) (m : BitVec 5) (x : BitVec 5) (p : BitVec 1) : BitVec 32 := cat 32 (cat 27 (cat 26 (cat 21 (cat 16 (cat 11 9#6 d) n) m) x) p) 8#5

/-- The word of FCVT. -/
def Enc.fcvt (d : BitVec 5) (n : BitVec 5) (x : BitVec 5) : BitVec 32 := cat 32 (cat 26 (cat 21 (cat 16 (cat 11 9#6 d) n) 0#5) x) 9#6

/-- The word of LD_ORDERED. -/
def Enc.ldOrdered (d : BitVec 5) (n : BitVec 5) (w : BitVec 5) (o : BitVec 2) (s : BitVec 2) : BitVec 32 := cat 32 (cat 30 (cat 28 (cat 26 (cat 21 (cat 16 (cat 11 10#6 d) n) 0#5) w) o) s) 0#2

/-- The word of ST_ORDERED. -/
def Enc.stOrdered (n : BitVec 5) (m : BitVec 5) (w : BitVec 5) (o : BitVec 2) (s : BitVec 2) : BitVec 32 := cat 32 (cat 30 (cat 28 (cat 26 (cat 21 (cat 16 320#11 n) m) w) o) s) 1#2

/-- The word of AMOADD. -/
def Enc.amoadd (d : BitVec 5) (n : BitVec 5) (m : BitVec 5) (w : BitVec 1) (o : BitVec 2) (s : BitVec 2) : BitVec 32 := cat 32 (cat 30 (cat 28 (cat 26 (cat 25 (cat 21 (cat 16 (cat 11 10#6 d) n) m) 0#4) w) o) s) 2#2

/-- The word of AMOAND. -/
def Enc.amoand (d : BitVec 5) (n : BitVec 5) (m : BitVec 5) (w : BitVec 1) (o : BitVec 2) (s : BitVec 2) : BitVec 32 := cat 32 (cat 30 (cat 28 (cat 26 (cat 25 (cat 21 (cat 16 (cat 11 10#6 d) n) m) 1#4) w) o) s) 2#2

/-- The word of AMOOR. -/
def Enc.amoor (d : BitVec 5) (n : BitVec 5) (m : BitVec 5) (w : BitVec 1) (o : BitVec 2) (s : BitVec 2) : BitVec 32 := cat 32 (cat 30 (cat 28 (cat 26 (cat 25 (cat 21 (cat 16 (cat 11 10#6 d) n) m) 2#4) w) o) s) 2#2

/-- The word of AMOXOR. -/
def Enc.amoxor (d : BitVec 5) (n : BitVec 5) (m : BitVec 5) (w : BitVec 1) (o : BitVec 2) (s : BitVec 2) : BitVec 32 := cat 32 (cat 30 (cat 28 (cat 26 (cat 25 (cat 21 (cat 16 (cat 11 10#6 d) n) m) 3#4) w) o) s) 2#2

/-- The word of AMOSWAP. -/
def Enc.amoswap (d : BitVec 5) (n : BitVec 5) (m : BitVec 5) (w : BitVec 1) (o : BitVec 2) (s : BitVec 2) : BitVec 32 := cat 32 (cat 30 (cat 28 (cat 26 (cat 25 (cat 21 (cat 16 (cat 11 10#6 d) n) m) 4#4) w) o) s) 2#2

/-- The word of AMOMIN. -/
def Enc.amomin (d : BitVec 5) (n : BitVec 5) (m : BitVec 5) (w : BitVec 1) (o : BitVec 2) (s : BitVec 2) : BitVec 32 := cat 32 (cat 30 (cat 28 (cat 26 (cat 25 (cat 21 (cat 16 (cat 11 10#6 d) n) m) 5#4) w) o) s) 2#2

/-- The word of AMOMAX. -/
def Enc.amomax (d : BitVec 5) (n : BitVec 5) (m : BitVec 5) (w : BitVec 1) (o : BitVec 2) (s : BitVec 2) : BitVec 32 := cat 32 (cat 30 (cat 28 (cat 26 (cat 25 (cat 21 (cat 16 (cat 11 10#6 d) n) m) 6#4) w) o) s) 2#2

/-- The word of AMOMINU. -/
def Enc.amominu (d : BitVec 5) (n : BitVec 5) (m : BitVec 5) (w : BitVec 1) (o : BitVec 2) (s : BitVec 2) : BitVec 32 := cat 32 (cat 30 (cat 28 (cat 26 (cat 25 (cat 21 (cat 16 (cat 11 10#6 d) n) m) 7#4) w) o) s) 2#2

/-- The word of AMOMAXU. -/
def Enc.amomaxu (d : BitVec 5) (n : BitVec 5) (m : BitVec 5) (w : BitVec 1) (o : BitVec 2) (s : BitVec 2) : BitVec 32 := cat 32 (cat 30 (cat 28 (cat 26 (cat 25 (cat 21 (cat 16 (cat 11 10#6 d) n) m) 8#4) w) o) s) 2#2

/-- The word of CAS. -/
def Enc.cas (d : BitVec 5) (n : BitVec 5) (m : BitVec 5) (x : BitVec 5) (o : BitVec 2) (s : BitVec 2) (f : BitVec 2) : BitVec 32 := cat 32 (cat 30 (cat 28 (cat 26 (cat 21 (cat 16 (cat 11 11#6 d) n) m) x) o) s) f

/-- The word of CSRR. -/
def Enc.csrr (d : BitVec 5) (r : BitVec 12) : BitVec 32 := cat 32 (cat 20 (cat 11 12#6 d) 0#9) r

/-- The word of CSRW. -/
def Enc.csrw (n : BitVec 5) (r : BitVec 12) : BitVec 32 := cat 32 (cat 20 (cat 16 384#11 n) 2#4) r

/-- The word of CSRS. -/
def Enc.csrs (n : BitVec 5) (r : BitVec 12) : BitVec 32 := cat 32 (cat 20 (cat 16 384#11 n) 4#4) r

/-- The word of CSRC. -/
def Enc.csrc (n : BitVec 5) (r : BitVec 12) : BitVec 32 := cat 32 (cat 20 (cat 16 384#11 n) 6#4) r

/-- The word of QPUSH. -/
def Enc.qpush (n : BitVec 5) (q : BitVec 2) : BitVec 32 := cat 32 (cat 30 (cat 16 416#11 n) 0#14) q

/-- The word of QPOP. -/
def Enc.qpop (d : BitVec 5) (q : BitVec 2) : BitVec 32 := cat 32 (cat 30 (cat 11 13#6 d) 2048#19) q

/-- The word of TRAP. -/
def Enc.trap (x : BitVec 5) : BitVec 32 := cat 32 (cat 26 458752#21 x) 0#6

/-- The word of TRET. -/
def Enc.tret : BitVec 32 := 939524097#32

/-- The word of HALT. -/
def Enc.halt : BitVec 32 := 939524098#32

/-- The word of WAIT. -/
def Enc.wait (x : BitVec 5) : BitVec 32 := cat 32 (cat 26 458752#21 x) 3#6

/-- The word of BRK. -/
def Enc.brk (x : BitVec 5) : BitVec 32 := cat 32 (cat 26 458752#21 x) 4#6

/-- The word of KEND. -/
def Enc.kend : BitVec 32 := 939524101#32

/-- The word of TLBI_ALL. -/
def Enc.tlbiAll : BitVec 32 := 939524102#32

/-- The word of TLBI_ASN. -/
def Enc.tlbiAsn (n : BitVec 5) : BitVec 32 := cat 32 (cat 16 448#11 n) 70#16

/-- The word of TLBI_VA. -/
def Enc.tlbiVa (n : BitVec 5) (m : BitVec 5) : BitVec 32 := cat 32 (cat 21 (cat 16 448#11 n) m) 134#11

/-- The word of TLBI_GPA. -/
def Enc.tlbiGpa (n : BitVec 5) (m : BitVec 5) : BitVec 32 := cat 32 (cat 21 (cat 16 448#11 n) m) 198#11

/-- The word of TLBI_PART. -/
def Enc.tlbiPart (m : BitVec 5) : BitVec 32 := cat 32 (cat 21 14336#16 m) 262#11

/-- The word of FENCE. -/
def Enc.fence (o : BitVec 2) (s : BitVec 2) : BitVec 32 := cat 32 (cat 26 (cat 24 917504#22 o) s) 7#6

/-- The word of LSYNC. -/
def Enc.lsync : BitVec 32 := 939524104#32

/-- The word of IFENCE. -/
def Enc.ifence : BitVec 32 := 939524105#32

/-- The word of LAUNCH. -/
def Enc.launch (n : BitVec 5) : BitVec 32 := cat 32 (cat 16 448#11 n) 10#16

/-- The word of NOP. -/
def Enc.nop (h : BitVec 26) : BitVec 32 := cat 32 15#6 h

/-- The word of SETVL. -/
def Enc.setvl (d : BitVec 5) (n : BitVec 5) : BitVec 32 := cat 32 (cat 23 (cat 18 (cat 12 32#7 d) 0#6) n) 0#9

/-- The word of VCFG. -/
def Enc.vcfg (c : BitVec 2) : BitVec 32 := cat 32 (cat 18 16384#16 c) 1#14

/-- The word of VTYPE. -/
def Enc.vtype (n : BitVec 5) : BitVec 32 := cat 32 (cat 23 65536#18 n) 2#9

/-- The word of VWIN. -/
def Enc.vwin (d : BitVec 6) (n : BitVec 5) : BitVec 32 := cat 32 (cat 23 (cat 18 (cat 12 16#6 d) 0#6) n) 3#9

/-- The word of LPART. -/
def Enc.lpart (n : BitVec 5) : BitVec 32 := cat 32 (cat 23 65536#18 n) 4#9

/-- The word of VADD. -/
def Enc.vadd (d : BitVec 6) (a : BitVec 6) (b : BitVec 6) (k : BitVec 3) : BitVec 32 := cat 32 (cat 27 (cat 24 (cat 18 (cat 12 17#6 d) a) b) k) 0#5

/-- The word of VSUB. -/
def Enc.vsub (d : BitVec 6) (a : BitVec 6) (b : BitVec 6) (k : BitVec 3) : BitVec 32 := cat 32 (cat 27 (cat 24 (cat 18 (cat 12 17#6 d) a) b) k) 1#5

/-- The word of VMUL. -/
def Enc.vmul (d : BitVec 6) (a : BitVec 6) (b : BitVec 6) (k : BitVec 3) : BitVec 32 := cat 32 (cat 27 (cat 24 (cat 18 (cat 12 17#6 d) a) b) k) 2#5

/-- The word of VMULH. -/
def Enc.vmulh (d : BitVec 6) (a : BitVec 6) (b : BitVec 6) (k : BitVec 3) : BitVec 32 := cat 32 (cat 27 (cat 24 (cat 18 (cat 12 17#6 d) a) b) k) 3#5

/-- The word of VMADD. -/
def Enc.vmadd (d : BitVec 6) (a : BitVec 6) (b : BitVec 6) (k : BitVec 3) : BitVec 32 := cat 32 (cat 27 (cat 24 (cat 18 (cat 12 17#6 d) a) b) k) 4#5

/-- The word of VMSUB. -/
def Enc.vmsub (d : BitVec 6) (a : BitVec 6) (b : BitVec 6) (k : BitVec 3) : BitVec 32 := cat 32 (cat 27 (cat 24 (cat 18 (cat 12 17#6 d) a) b) k) 5#5

/-- The word of VDIV. -/
def Enc.vdiv (d : BitVec 6) (a : BitVec 6) (b : BitVec 6) (k : BitVec 3) : BitVec 32 := cat 32 (cat 27 (cat 24 (cat 18 (cat 12 17#6 d) a) b) k) 6#5

/-- The word of VREM. -/
def Enc.vrem (d : BitVec 6) (a : BitVec 6) (b : BitVec 6) (k : BitVec 3) : BitVec 32 := cat 32 (cat 27 (cat 24 (cat 18 (cat 12 17#6 d) a) b) k) 7#5

/-- The word of VMIN. -/
def Enc.vmin (d : BitVec 6) (a : BitVec 6) (b : BitVec 6) (k : BitVec 3) : BitVec 32 := cat 32 (cat 27 (cat 24 (cat 18 (cat 12 17#6 d) a) b) k) 8#5

/-- The word of VMAX. -/
def Enc.vmax (d : BitVec 6) (a : BitVec 6) (b : BitVec 6) (k : BitVec 3) : BitVec 32 := cat 32 (cat 27 (cat 24 (cat 18 (cat 12 17#6 d) a) b) k) 9#5

/-- The word of VAND. -/
def Enc.vand (d : BitVec 6) (a : BitVec 6) (b : BitVec 6) (k : BitVec 3) : BitVec 32 := cat 32 (cat 27 (cat 24 (cat 18 (cat 12 17#6 d) a) b) k) 10#5

/-- The word of VOR. -/
def Enc.vor (d : BitVec 6) (a : BitVec 6) (b : BitVec 6) (k : BitVec 3) : BitVec 32 := cat 32 (cat 27 (cat 24 (cat 18 (cat 12 17#6 d) a) b) k) 11#5

/-- The word of VXOR. -/
def Enc.vxor (d : BitVec 6) (a : BitVec 6) (b : BitVec 6) (k : BitVec 3) : BitVec 32 := cat 32 (cat 27 (cat 24 (cat 18 (cat 12 17#6 d) a) b) k) 12#5

/-- The word of VSHL. -/
def Enc.vshl (d : BitVec 6) (a : BitVec 6) (b : BitVec 6) (k : BitVec 3) : BitVec 32 := cat 32 (cat 27 (cat 24 (cat 18 (cat 12 17#6 d) a) b) k) 13#5

/-- The word of VSHR. -/
def Enc.vshr (d : BitVec 6) (a : BitVec 6) (b : BitVec 6) (k : BitVec 3) : BitVec 32 := cat 32 (cat 27 (cat 24 (cat 18 (cat 12 17#6 d) a) b) k) 14#5

/-- The word of VSRA. -/
def Enc.vsra (d : BitVec 6) (a : BitVec 6) (b : BitVec 6) (k : BitVec 3) : BitVec 32 := cat 32 (cat 27 (cat 24 (cat 18 (cat 12 17#6 d) a) b) k) 15#5

/-- The word of VABS. -/
def Enc.vabs (d : BitVec 6) (a : BitVec 6) (k : BitVec 3) : BitVec 32 := cat 32 (cat 27 (cat 24 (cat 18 (cat 12 17#6 d) a) 0#6) k) 16#5

/-- The word of VADD_VX. -/
def Enc.vaddVx (d : BitVec 6) (a : BitVec 6) (n : BitVec 5) (q : BitVec 1) (k : BitVec 3) : BitVec 32 := cat 32 (cat 27 (cat 24 (cat 23 (cat 18 (cat 12 18#6 d) a) n) q) k) 0#5

/-- The word of VSUB_VX. -/
def Enc.vsubVx (d : BitVec 6) (a : BitVec 6) (n : BitVec 5) (q : BitVec 1) (k : BitVec 3) : BitVec 32 := cat 32 (cat 27 (cat 24 (cat 23 (cat 18 (cat 12 18#6 d) a) n) q) k) 1#5

/-- The word of VMUL_VX. -/
def Enc.vmulVx (d : BitVec 6) (a : BitVec 6) (n : BitVec 5) (q : BitVec 1) (k : BitVec 3) : BitVec 32 := cat 32 (cat 27 (cat 24 (cat 23 (cat 18 (cat 12 18#6 d) a) n) q) k) 2#5

/-- The word of VMULH_VX. -/
def Enc.vmulhVx (d : BitVec 6) (a : BitVec 6) (n : BitVec 5) (q : BitVec 1) (k : BitVec 3) : BitVec 32 := cat 32 (cat 27 (cat 24 (cat 23 (cat 18 (cat 12 18#6 d) a) n) q) k) 3#5

/-- The word of VMADD_VX. -/
def Enc.vmaddVx (d : BitVec 6) (a : BitVec 6) (n : BitVec 5) (q : BitVec 1) (k : BitVec 3) : BitVec 32 := cat 32 (cat 27 (cat 24 (cat 23 (cat 18 (cat 12 18#6 d) a) n) q) k) 4#5

/-- The word of VMSUB_VX. -/
def Enc.vmsubVx (d : BitVec 6) (a : BitVec 6) (n : BitVec 5) (q : BitVec 1) (k : BitVec 3) : BitVec 32 := cat 32 (cat 27 (cat 24 (cat 23 (cat 18 (cat 12 18#6 d) a) n) q) k) 5#5

/-- The word of VDIV_VX. -/
def Enc.vdivVx (d : BitVec 6) (a : BitVec 6) (n : BitVec 5) (q : BitVec 1) (k : BitVec 3) : BitVec 32 := cat 32 (cat 27 (cat 24 (cat 23 (cat 18 (cat 12 18#6 d) a) n) q) k) 6#5

/-- The word of VREM_VX. -/
def Enc.vremVx (d : BitVec 6) (a : BitVec 6) (n : BitVec 5) (q : BitVec 1) (k : BitVec 3) : BitVec 32 := cat 32 (cat 27 (cat 24 (cat 23 (cat 18 (cat 12 18#6 d) a) n) q) k) 7#5

/-- The word of VMIN_VX. -/
def Enc.vminVx (d : BitVec 6) (a : BitVec 6) (n : BitVec 5) (q : BitVec 1) (k : BitVec 3) : BitVec 32 := cat 32 (cat 27 (cat 24 (cat 23 (cat 18 (cat 12 18#6 d) a) n) q) k) 8#5

/-- The word of VMAX_VX. -/
def Enc.vmaxVx (d : BitVec 6) (a : BitVec 6) (n : BitVec 5) (q : BitVec 1) (k : BitVec 3) : BitVec 32 := cat 32 (cat 27 (cat 24 (cat 23 (cat 18 (cat 12 18#6 d) a) n) q) k) 9#5

/-- The word of VAND_VX. -/
def Enc.vandVx (d : BitVec 6) (a : BitVec 6) (n : BitVec 5) (q : BitVec 1) (k : BitVec 3) : BitVec 32 := cat 32 (cat 27 (cat 24 (cat 23 (cat 18 (cat 12 18#6 d) a) n) q) k) 10#5

/-- The word of VOR_VX. -/
def Enc.vorVx (d : BitVec 6) (a : BitVec 6) (n : BitVec 5) (q : BitVec 1) (k : BitVec 3) : BitVec 32 := cat 32 (cat 27 (cat 24 (cat 23 (cat 18 (cat 12 18#6 d) a) n) q) k) 11#5

/-- The word of VXOR_VX. -/
def Enc.vxorVx (d : BitVec 6) (a : BitVec 6) (n : BitVec 5) (q : BitVec 1) (k : BitVec 3) : BitVec 32 := cat 32 (cat 27 (cat 24 (cat 23 (cat 18 (cat 12 18#6 d) a) n) q) k) 12#5

/-- The word of VSHL_VX. -/
def Enc.vshlVx (d : BitVec 6) (a : BitVec 6) (n : BitVec 5) (q : BitVec 1) (k : BitVec 3) : BitVec 32 := cat 32 (cat 27 (cat 24 (cat 23 (cat 18 (cat 12 18#6 d) a) n) q) k) 13#5

/-- The word of VSHR_VX. -/
def Enc.vshrVx (d : BitVec 6) (a : BitVec 6) (n : BitVec 5) (q : BitVec 1) (k : BitVec 3) : BitVec 32 := cat 32 (cat 27 (cat 24 (cat 23 (cat 18 (cat 12 18#6 d) a) n) q) k) 14#5

/-- The word of VSRA_VX. -/
def Enc.vsraVx (d : BitVec 6) (a : BitVec 6) (n : BitVec 5) (q : BitVec 1) (k : BitVec 3) : BitVec 32 := cat 32 (cat 27 (cat 24 (cat 23 (cat 18 (cat 12 18#6 d) a) n) q) k) 15#5

/-- The word of VFADD. -/
def Enc.vfadd (d : BitVec 6) (a : BitVec 6) (b : BitVec 6) (k : BitVec 3) : BitVec 32 := cat 32 (cat 27 (cat 24 (cat 18 (cat 12 19#6 d) a) b) k) 0#5

/-- The word of VFSUB. -/
def Enc.vfsub (d : BitVec 6) (a : BitVec 6) (b : BitVec 6) (k : BitVec 3) : BitVec 32 := cat 32 (cat 27 (cat 24 (cat 18 (cat 12 19#6 d) a) b) k) 1#5

/-- The word of VFMUL. -/
def Enc.vfmul (d : BitVec 6) (a : BitVec 6) (b : BitVec 6) (k : BitVec 3) : BitVec 32 := cat 32 (cat 27 (cat 24 (cat 18 (cat 12 19#6 d) a) b) k) 2#5

/-- The word of VFDIV. -/
def Enc.vfdiv (d : BitVec 6) (a : BitVec 6) (b : BitVec 6) (k : BitVec 3) : BitVec 32 := cat 32 (cat 27 (cat 24 (cat 18 (cat 12 19#6 d) a) b) k) 3#5

/-- The word of VFSQRT. -/
def Enc.vfsqrt (d : BitVec 6) (a : BitVec 6) (k : BitVec 3) : BitVec 32 := cat 32 (cat 27 (cat 24 (cat 18 (cat 12 19#6 d) a) 0#6) k) 4#5

/-- The word of VFRSQE. -/
def Enc.vfrsqe (d : BitVec 6) (a : BitVec 6) (k : BitVec 3) : BitVec 32 := cat 32 (cat 27 (cat 24 (cat 18 (cat 12 19#6 d) a) 0#6) k) 5#5

/-- The word of VFMA. -/
def Enc.vfma (d : BitVec 6) (a : BitVec 6) (b : BitVec 6) (k : BitVec 3) : BitVec 32 := cat 32 (cat 27 (cat 24 (cat 18 (cat 12 19#6 d) a) b) k) 6#5

/-- The word of VFMS. -/
def Enc.vfms (d : BitVec 6) (a : BitVec 6) (b : BitVec 6) (k : BitVec 3) : BitVec 32 := cat 32 (cat 27 (cat 24 (cat 18 (cat 12 19#6 d) a) b) k) 7#5

/-- The word of VFNMA. -/
def Enc.vfnma (d : BitVec 6) (a : BitVec 6) (b : BitVec 6) (k : BitVec 3) : BitVec 32 := cat 32 (cat 27 (cat 24 (cat 18 (cat 12 19#6 d) a) b) k) 8#5

/-- The word of VFMIN. -/
def Enc.vfmin (d : BitVec 6) (a : BitVec 6) (b : BitVec 6) (k : BitVec 3) : BitVec 32 := cat 32 (cat 27 (cat 24 (cat 18 (cat 12 19#6 d) a) b) k) 9#5

/-- The word of VFMAX. -/
def Enc.vfmax (d : BitVec 6) (a : BitVec 6) (b : BitVec 6) (k : BitVec 3) : BitVec 32 := cat 32 (cat 27 (cat 24 (cat 18 (cat 12 19#6 d) a) b) k) 10#5

/-- The word of VFABS. -/
def Enc.vfabs (d : BitVec 6) (a : BitVec 6) (k : BitVec 3) : BitVec 32 := cat 32 (cat 27 (cat 24 (cat 18 (cat 12 19#6 d) a) 0#6) k) 11#5

/-- The word of VFNEG. -/
def Enc.vfneg (d : BitVec 6) (a : BitVec 6) (k : BitVec 3) : BitVec 32 := cat 32 (cat 27 (cat 24 (cat 18 (cat 12 19#6 d) a) 0#6) k) 12#5

/-- The word of VCVT. -/
def Enc.vcvt (d : BitVec 6) (a : BitVec 6) (t : BitVec 4) (k : BitVec 3) : BitVec 32 := cat 32 (cat 27 (cat 24 (cat 20 (cat 18 (cat 12 19#6 d) a) 0#2) t) k) 13#5

/-- The word of VFADD_VX. -/
def Enc.vfaddVx (d : BitVec 6) (a : BitVec 6) (n : BitVec 5) (q : BitVec 1) (k : BitVec 3) : BitVec 32 := cat 32 (cat 27 (cat 24 (cat 23 (cat 18 (cat 12 20#6 d) a) n) q) k) 0#5

/-- The word of VFSUB_VX. -/
def Enc.vfsubVx (d : BitVec 6) (a : BitVec 6) (n : BitVec 5) (q : BitVec 1) (k : BitVec 3) : BitVec 32 := cat 32 (cat 27 (cat 24 (cat 23 (cat 18 (cat 12 20#6 d) a) n) q) k) 1#5

/-- The word of VFMUL_VX. -/
def Enc.vfmulVx (d : BitVec 6) (a : BitVec 6) (n : BitVec 5) (q : BitVec 1) (k : BitVec 3) : BitVec 32 := cat 32 (cat 27 (cat 24 (cat 23 (cat 18 (cat 12 20#6 d) a) n) q) k) 2#5

/-- The word of VFDIV_VX. -/
def Enc.vfdivVx (d : BitVec 6) (a : BitVec 6) (n : BitVec 5) (q : BitVec 1) (k : BitVec 3) : BitVec 32 := cat 32 (cat 27 (cat 24 (cat 23 (cat 18 (cat 12 20#6 d) a) n) q) k) 3#5

/-- The word of VFMA_VX. -/
def Enc.vfmaVx (d : BitVec 6) (a : BitVec 6) (n : BitVec 5) (q : BitVec 1) (k : BitVec 3) : BitVec 32 := cat 32 (cat 27 (cat 24 (cat 23 (cat 18 (cat 12 20#6 d) a) n) q) k) 6#5

/-- The word of VFMS_VX. -/
def Enc.vfmsVx (d : BitVec 6) (a : BitVec 6) (n : BitVec 5) (q : BitVec 1) (k : BitVec 3) : BitVec 32 := cat 32 (cat 27 (cat 24 (cat 23 (cat 18 (cat 12 20#6 d) a) n) q) k) 7#5

/-- The word of VFNMA_VX. -/
def Enc.vfnmaVx (d : BitVec 6) (a : BitVec 6) (n : BitVec 5) (q : BitVec 1) (k : BitVec 3) : BitVec 32 := cat 32 (cat 27 (cat 24 (cat 23 (cat 18 (cat 12 20#6 d) a) n) q) k) 8#5

/-- The word of VFMIN_VX. -/
def Enc.vfminVx (d : BitVec 6) (a : BitVec 6) (n : BitVec 5) (q : BitVec 1) (k : BitVec 3) : BitVec 32 := cat 32 (cat 27 (cat 24 (cat 23 (cat 18 (cat 12 20#6 d) a) n) q) k) 9#5

/-- The word of VFMAX_VX. -/
def Enc.vfmaxVx (d : BitVec 6) (a : BitVec 6) (n : BitVec 5) (q : BitVec 1) (k : BitVec 3) : BitVec 32 := cat 32 (cat 27 (cat 24 (cat 23 (cat 18 (cat 12 20#6 d) a) n) q) k) 10#5

/-- The word of VCMP_EQ. -/
def Enc.vcmpEq (d : BitVec 3) (a : BitVec 6) (b : BitVec 6) (k : BitVec 3) : BitVec 32 := cat 32 (cat 27 (cat 24 (cat 18 (cat 12 168#9 d) a) b) k) 0#5

/-- The word of VCMP_NE. -/
def Enc.vcmpNe (d : BitVec 3) (a : BitVec 6) (b : BitVec 6) (k : BitVec 3) : BitVec 32 := cat 32 (cat 27 (cat 24 (cat 18 (cat 12 168#9 d) a) b) k) 1#5

/-- The word of VCMP_LT. -/
def Enc.vcmpLt (d : BitVec 3) (a : BitVec 6) (b : BitVec 6) (k : BitVec 3) : BitVec 32 := cat 32 (cat 27 (cat 24 (cat 18 (cat 12 168#9 d) a) b) k) 2#5

/-- The word of VCMP_LE. -/
def Enc.vcmpLe (d : BitVec 3) (a : BitVec 6) (b : BitVec 6) (k : BitVec 3) : BitVec 32 := cat 32 (cat 27 (cat 24 (cat 18 (cat 12 168#9 d) a) b) k) 3#5

/-- The word of VCMP_LTU. -/
def Enc.vcmpLtu (d : BitVec 3) (a : BitVec 6) (b : BitVec 6) (k : BitVec 3) : BitVec 32 := cat 32 (cat 27 (cat 24 (cat 18 (cat 12 168#9 d) a) b) k) 4#5

/-- The word of VCMP_LEU. -/
def Enc.vcmpLeu (d : BitVec 3) (a : BitVec 6) (b : BitVec 6) (k : BitVec 3) : BitVec 32 := cat 32 (cat 27 (cat 24 (cat 18 (cat 12 168#9 d) a) b) k) 5#5

/-- The word of VFCMP_EQ. -/
def Enc.vfcmpEq (d : BitVec 3) (a : BitVec 6) (b : BitVec 6) (k : BitVec 3) : BitVec 32 := cat 32 (cat 27 (cat 24 (cat 18 (cat 12 168#9 d) a) b) k) 8#5

/-- The word of VFCMP_NE. -/
def Enc.vfcmpNe (d : BitVec 3) (a : BitVec 6) (b : BitVec 6) (k : BitVec 3) : BitVec 32 := cat 32 (cat 27 (cat 24 (cat 18 (cat 12 168#9 d) a) b) k) 9#5

/-- The word of VFCMP_LT. -/
def Enc.vfcmpLt (d : BitVec 3) (a : BitVec 6) (b : BitVec 6) (k : BitVec 3) : BitVec 32 := cat 32 (cat 27 (cat 24 (cat 18 (cat 12 168#9 d) a) b) k) 10#5

/-- The word of VFCMP_LE. -/
def Enc.vfcmpLe (d : BitVec 3) (a : BitVec 6) (b : BitVec 6) (k : BitVec 3) : BitVec 32 := cat 32 (cat 27 (cat 24 (cat 18 (cat 12 168#9 d) a) b) k) 11#5

/-- The word of VFCMP_UNORD. -/
def Enc.vfcmpUnord (d : BitVec 3) (a : BitVec 6) (b : BitVec 6) (k : BitVec 3) : BitVec 32 := cat 32 (cat 27 (cat 24 (cat 18 (cat 12 168#9 d) a) b) k) 12#5

/-- The word of VFCMP_ORD. -/
def Enc.vfcmpOrd (d : BitVec 3) (a : BitVec 6) (b : BitVec 6) (k : BitVec 3) : BitVec 32 := cat 32 (cat 27 (cat 24 (cat 18 (cat 12 168#9 d) a) b) k) 13#5

/-- The word of MAND. -/
def Enc.mand (d : BitVec 3) (a : BitVec 3) (b : BitVec 3) (k : BitVec 3) : BitVec 32 := cat 32 (cat 27 (cat 24 (cat 21 (cat 18 (cat 15 (cat 12 168#9 d) 0#3) a) 0#3) b) k) 16#5

/-- The word of MOR. -/
def Enc.mor (d : BitVec 3) (a : BitVec 3) (b : BitVec 3) (k : BitVec 3) : BitVec 32 := cat 32 (cat 27 (cat 24 (cat 21 (cat 18 (cat 15 (cat 12 168#9 d) 0#3) a) 0#3) b) k) 17#5

/-- The word of MXOR. -/
def Enc.mxor (d : BitVec 3) (a : BitVec 3) (b : BitVec 3) (k : BitVec 3) : BitVec 32 := cat 32 (cat 27 (cat 24 (cat 21 (cat 18 (cat 15 (cat 12 168#9 d) 0#3) a) 0#3) b) k) 18#5

/-- The word of MNOT. -/
def Enc.mnot (d : BitVec 3) (a : BitVec 3) (k : BitVec 3) : BitVec 32 := cat 32 (cat 27 (cat 24 (cat 18 (cat 15 (cat 12 168#9 d) 0#3) a) 0#6) k) 19#5

/-- The word of MPOPC. -/
def Enc.mpopc (d : BitVec 5) (a : BitVec 3) (k : BitVec 3) : BitVec 32 := cat 32 (cat 27 (cat 24 (cat 18 (cat 15 (cat 12 42#7 d) 0#3) a) 0#6) k) 20#5

/-- The word of MFIRST. -/
def Enc.mfirst (d : BitVec 5) (a : BitVec 3) (k : BitVec 3) : BitVec 32 := cat 32 (cat 27 (cat 24 (cat 18 (cat 15 (cat 12 42#7 d) 0#3) a) 0#6) k) 21#5

/-- The word of MSET. -/
def Enc.mset (d : BitVec 3) (k : BitVec 3) : BitVec 32 := cat 32 (cat 27 (cat 24 (cat 12 168#9 d) 0#12) k) 22#5

/-- The word of VCMP_EQ_VX. -/
def Enc.vcmpEqVx (d : BitVec 3) (a : BitVec 6) (n : BitVec 5) (q : BitVec 1) (k : BitVec 3) : BitVec 32 := cat 32 (cat 27 (cat 24 (cat 23 (cat 18 (cat 12 176#9 d) a) n) q) k) 0#5

/-- The word of VCMP_NE_VX. -/
def Enc.vcmpNeVx (d : BitVec 3) (a : BitVec 6) (n : BitVec 5) (q : BitVec 1) (k : BitVec 3) : BitVec 32 := cat 32 (cat 27 (cat 24 (cat 23 (cat 18 (cat 12 176#9 d) a) n) q) k) 1#5

/-- The word of VCMP_LT_VX. -/
def Enc.vcmpLtVx (d : BitVec 3) (a : BitVec 6) (n : BitVec 5) (q : BitVec 1) (k : BitVec 3) : BitVec 32 := cat 32 (cat 27 (cat 24 (cat 23 (cat 18 (cat 12 176#9 d) a) n) q) k) 2#5

/-- The word of VCMP_LE_VX. -/
def Enc.vcmpLeVx (d : BitVec 3) (a : BitVec 6) (n : BitVec 5) (q : BitVec 1) (k : BitVec 3) : BitVec 32 := cat 32 (cat 27 (cat 24 (cat 23 (cat 18 (cat 12 176#9 d) a) n) q) k) 3#5

/-- The word of VCMP_LTU_VX. -/
def Enc.vcmpLtuVx (d : BitVec 3) (a : BitVec 6) (n : BitVec 5) (q : BitVec 1) (k : BitVec 3) : BitVec 32 := cat 32 (cat 27 (cat 24 (cat 23 (cat 18 (cat 12 176#9 d) a) n) q) k) 4#5

/-- The word of VCMP_LEU_VX. -/
def Enc.vcmpLeuVx (d : BitVec 3) (a : BitVec 6) (n : BitVec 5) (q : BitVec 1) (k : BitVec 3) : BitVec 32 := cat 32 (cat 27 (cat 24 (cat 23 (cat 18 (cat 12 176#9 d) a) n) q) k) 5#5

/-- The word of VFCMP_EQ_VX. -/
def Enc.vfcmpEqVx (d : BitVec 3) (a : BitVec 6) (n : BitVec 5) (q : BitVec 1) (k : BitVec 3) : BitVec 32 := cat 32 (cat 27 (cat 24 (cat 23 (cat 18 (cat 12 176#9 d) a) n) q) k) 8#5

/-- The word of VFCMP_NE_VX. -/
def Enc.vfcmpNeVx (d : BitVec 3) (a : BitVec 6) (n : BitVec 5) (q : BitVec 1) (k : BitVec 3) : BitVec 32 := cat 32 (cat 27 (cat 24 (cat 23 (cat 18 (cat 12 176#9 d) a) n) q) k) 9#5

/-- The word of VFCMP_LT_VX. -/
def Enc.vfcmpLtVx (d : BitVec 3) (a : BitVec 6) (n : BitVec 5) (q : BitVec 1) (k : BitVec 3) : BitVec 32 := cat 32 (cat 27 (cat 24 (cat 23 (cat 18 (cat 12 176#9 d) a) n) q) k) 10#5

/-- The word of VFCMP_LE_VX. -/
def Enc.vfcmpLeVx (d : BitVec 3) (a : BitVec 6) (n : BitVec 5) (q : BitVec 1) (k : BitVec 3) : BitVec 32 := cat 32 (cat 27 (cat 24 (cat 23 (cat 18 (cat 12 176#9 d) a) n) q) k) 11#5

/-- The word of VFCMP_UNORD_VX. -/
def Enc.vfcmpUnordVx (d : BitVec 3) (a : BitVec 6) (n : BitVec 5) (q : BitVec 1) (k : BitVec 3) : BitVec 32 := cat 32 (cat 27 (cat 24 (cat 23 (cat 18 (cat 12 176#9 d) a) n) q) k) 12#5

/-- The word of VFCMP_ORD_VX. -/
def Enc.vfcmpOrdVx (d : BitVec 3) (a : BitVec 6) (n : BitVec 5) (q : BitVec 1) (k : BitVec 3) : BitVec 32 := cat 32 (cat 27 (cat 24 (cat 23 (cat 18 (cat 12 176#9 d) a) n) q) k) 13#5

/-- The word of VREDSUM. -/
def Enc.vredsum (d : BitVec 5) (a : BitVec 6) (n : BitVec 5) (q : BitVec 1) (k : BitVec 3) : BitVec 32 := cat 32 (cat 27 (cat 24 (cat 23 (cat 18 (cat 12 46#7 d) a) n) q) k) 0#5

/-- The word of VREDMAX. -/
def Enc.vredmax (d : BitVec 5) (a : BitVec 6) (n : BitVec 5) (q : BitVec 1) (k : BitVec 3) : BitVec 32 := cat 32 (cat 27 (cat 24 (cat 23 (cat 18 (cat 12 46#7 d) a) n) q) k) 1#5

/-- The word of VREDMIN. -/
def Enc.vredmin (d : BitVec 5) (a : BitVec 6) (n : BitVec 5) (q : BitVec 1) (k : BitVec 3) : BitVec 32 := cat 32 (cat 27 (cat 24 (cat 23 (cat 18 (cat 12 46#7 d) a) n) q) k) 2#5

/-- The word of VREDAND. -/
def Enc.vredand (d : BitVec 5) (a : BitVec 6) (n : BitVec 5) (q : BitVec 1) (k : BitVec 3) : BitVec 32 := cat 32 (cat 27 (cat 24 (cat 23 (cat 18 (cat 12 46#7 d) a) n) q) k) 3#5

/-- The word of VREDOR. -/
def Enc.vredor (d : BitVec 5) (a : BitVec 6) (n : BitVec 5) (q : BitVec 1) (k : BitVec 3) : BitVec 32 := cat 32 (cat 27 (cat 24 (cat 23 (cat 18 (cat 12 46#7 d) a) n) q) k) 4#5

/-- The word of VFREDSUM_O. -/
def Enc.vfredsumO (d : BitVec 5) (a : BitVec 6) (n : BitVec 5) (q : BitVec 1) (k : BitVec 3) : BitVec 32 := cat 32 (cat 27 (cat 24 (cat 23 (cat 18 (cat 12 46#7 d) a) n) q) k) 5#5

/-- The word of VFREDSUM_T. -/
def Enc.vfredsumT (d : BitVec 5) (a : BitVec 6) (n : BitVec 5) (q : BitVec 1) (k : BitVec 3) : BitVec 32 := cat 32 (cat 27 (cat 24 (cat 23 (cat 18 (cat 12 46#7 d) a) n) q) k) 6#5

/-- The word of VFREDMAX. -/
def Enc.vfredmax (d : BitVec 5) (a : BitVec 6) (n : BitVec 5) (q : BitVec 1) (k : BitVec 3) : BitVec 32 := cat 32 (cat 27 (cat 24 (cat 23 (cat 18 (cat 12 46#7 d) a) n) q) k) 7#5

/-- The word of VFREDMIN. -/
def Enc.vfredmin (d : BitVec 5) (a : BitVec 6) (n : BitVec 5) (q : BitVec 1) (k : BitVec 3) : BitVec 32 := cat 32 (cat 27 (cat 24 (cat 23 (cat 18 (cat 12 46#7 d) a) n) q) k) 8#5

/-- The word of VSLIDEUP. -/
def Enc.vslideup (d : BitVec 6) (a : BitVec 6) (n : BitVec 5) (q : BitVec 1) (k : BitVec 3) : BitVec 32 := cat 32 (cat 27 (cat 24 (cat 23 (cat 18 (cat 12 24#6 d) a) n) q) k) 0#5

/-- The word of VSLIDEDOWN. -/
def Enc.vslidedown (d : BitVec 6) (a : BitVec 6) (n : BitVec 5) (q : BitVec 1) (k : BitVec 3) : BitVec 32 := cat 32 (cat 27 (cat 24 (cat 23 (cat 18 (cat 12 24#6 d) a) n) q) k) 1#5

/-- The word of VREV. -/
def Enc.vrev (d : BitVec 6) (a : BitVec 6) (k : BitVec 3) : BitVec 32 := cat 32 (cat 27 (cat 24 (cat 18 (cat 12 24#6 d) a) 0#6) k) 2#5

/-- The word of VPERM. -/
def Enc.vperm (d : BitVec 6) (a : BitVec 6) (b : BitVec 6) (k : BitVec 3) : BitVec 32 := cat 32 (cat 27 (cat 24 (cat 18 (cat 12 24#6 d) a) b) k) 3#5

/-- The word of VCOMPRESS. -/
def Enc.vcompress (d : BitVec 6) (a : BitVec 6) (k : BitVec 3) : BitVec 32 := cat 32 (cat 27 (cat 24 (cat 18 (cat 12 24#6 d) a) 0#6) k) 4#5

/-- The word of VEXPAND. -/
def Enc.vexpand (d : BitVec 6) (a : BitVec 6) (k : BitVec 3) : BitVec 32 := cat 32 (cat 27 (cat 24 (cat 18 (cat 12 24#6 d) a) 0#6) k) 5#5

/-- The word of VIOTA. -/
def Enc.viota (d : BitVec 6) (a : BitVec 3) (k : BitVec 3) : BitVec 32 := cat 32 (cat 27 (cat 24 (cat 18 (cat 15 (cat 12 24#6 d) 0#3) a) 0#6) k) 6#5

/-- The word of VSORT. -/
def Enc.vsort (d : BitVec 6) (a : BitVec 6) : BitVec 32 := cat 32 (cat 18 (cat 12 24#6 d) a) 7#14

/-- The word of VDEDUP. -/
def Enc.vdedup (d : BitVec 6) (a : BitVec 6) (s : BitVec 5) : BitVec 32 := cat 32 (cat 24 (cat 19 (cat 18 (cat 12 24#6 d) a) 0#1) s) 8#8

/-- The word of VSCAN_ADD. -/
def Enc.vscanAdd (d : BitVec 6) (a : BitVec 6) (n : BitVec 5) (q : BitVec 1) (k : BitVec 3) : BitVec 32 := cat 32 (cat 27 (cat 24 (cat 23 (cat 18 (cat 12 25#6 d) a) n) q) k) 0#5

/-- The word of VSCAN_MAX. -/
def Enc.vscanMax (d : BitVec 6) (a : BitVec 6) (n : BitVec 5) (q : BitVec 1) (k : BitVec 3) : BitVec 32 := cat 32 (cat 27 (cat 24 (cat 23 (cat 18 (cat 12 25#6 d) a) n) q) k) 1#5

/-- The word of VSCAN_MIN. -/
def Enc.vscanMin (d : BitVec 6) (a : BitVec 6) (n : BitVec 5) (q : BitVec 1) (k : BitVec 3) : BitVec 32 := cat 32 (cat 27 (cat 24 (cat 23 (cat 18 (cat 12 25#6 d) a) n) q) k) 2#5

/-- The word of VSCAN_FADD. -/
def Enc.vscanFadd (d : BitVec 6) (a : BitVec 6) (n : BitVec 5) (q : BitVec 1) (k : BitVec 3) : BitVec 32 := cat 32 (cat 27 (cat 24 (cat 23 (cat 18 (cat 12 25#6 d) a) n) q) k) 3#5

/-- The word of VRECUR. -/
def Enc.vrecur (d : BitVec 6) (a : BitVec 6) (n : BitVec 5) (q : BitVec 1) (k : BitVec 3) : BitVec 32 := cat 32 (cat 27 (cat 24 (cat 23 (cat 18 (cat 12 25#6 d) a) n) q) k) 4#5

/-- The word of VMV. -/
def Enc.vmv (d : BitVec 6) (a : BitVec 6) (k : BitVec 3) : BitVec 32 := cat 32 (cat 27 (cat 24 (cat 18 (cat 12 25#6 d) a) 0#6) k) 5#5

/-- The word of VBCAST. -/
def Enc.vbcast (d : BitVec 6) (n : BitVec 5) (q : BitVec 1) (k : BitVec 3) : BitVec 32 := cat 32 (cat 27 (cat 24 (cat 23 (cat 18 (cat 12 25#6 d) 0#6) n) q) k) 6#5

/-- The word of VEXT. -/
def Enc.vext (d : BitVec 5) (a : BitVec 6) (n : BitVec 5) (q : BitVec 1) : BitVec 32 := cat 32 (cat 24 (cat 23 (cat 18 (cat 12 50#7 d) a) n) q) 7#8

/-- The word of VINS. -/
def Enc.vins (d : BitVec 6) (i : BitVec 5) (n : BitVec 5) (q : BitVec 1) : BitVec 32 := cat 32 (cat 24 (cat 23 (cat 18 (cat 13 (cat 12 25#6 d) 0#1) i) n) q) 8#8

/-- The word of VMERGE. -/
def Enc.vmerge (d : BitVec 6) (a : BitVec 6) (b : BitVec 6) (k : BitVec 3) : BitVec 32 := cat 32 (cat 27 (cat 24 (cat 18 (cat 12 25#6 d) a) b) k) 9#5

/-- The word of VTRANS. -/
def Enc.vtrans (d : BitVec 6) : BitVec 32 := cat 32 (cat 12 25#6 d) 10#20

/-- The word of TZERO. -/
def Enc.tzero (d : BitVec 3) : BitVec 32 := cat 32 (cat 9 16#6 d) 0#23

/-- The word of TMMA_O. -/
def Enc.tmmaO (d : BitVec 3) (v : BitVec 6) (w : BitVec 4) (n : BitVec 5) : BitVec 32 := cat 32 (cat 27 (cat 22 (cat 18 (cat 12 (cat 9 16#6 d) 0#3) v) w) n) 1#5

/-- The word of TMMA_F. -/
def Enc.tmmaF (d : BitVec 3) (v : BitVec 6) (w : BitVec 4) (n : BitVec 5) : BitVec 32 := cat 32 (cat 27 (cat 22 (cat 18 (cat 12 (cat 9 16#6 d) 0#3) v) w) n) 2#5

/-- The word of TMOVA. -/
def Enc.tmova (d : BitVec 3) (v : BitVec 6) (n : BitVec 5) : BitVec 32 := cat 32 (cat 27 (cat 22 (cat 18 (cat 12 (cat 9 16#6 d) 0#3) v) 0#4) n) 3#5

/-- The word of TMOVV. -/
def Enc.tmovv (d : BitVec 3) (v : BitVec 6) (n : BitVec 5) : BitVec 32 := cat 32 (cat 27 (cat 22 (cat 18 (cat 12 (cat 9 16#6 d) 0#3) v) 0#4) n) 4#5

/-- The word of TCOLMV_OUT. -/
def Enc.tcolmvOut (d : BitVec 3) (v : BitVec 6) (n : BitVec 5) : BitVec 32 := cat 32 (cat 27 (cat 22 (cat 18 (cat 12 (cat 9 16#6 d) 0#3) v) 0#4) n) 5#5

/-- The word of TCOLMV_IN. -/
def Enc.tcolmvIn (d : BitVec 3) (v : BitVec 6) (n : BitVec 5) : BitVec 32 := cat 32 (cat 27 (cat 22 (cat 18 (cat 12 (cat 9 16#6 d) 0#3) v) 1#4) n) 5#5

/-- The word of TROWMV_OUT. -/
def Enc.trowmvOut (d : BitVec 3) (v : BitVec 6) (n : BitVec 5) : BitVec 32 := cat 32 (cat 27 (cat 22 (cat 18 (cat 12 (cat 9 16#6 d) 0#3) v) 0#4) n) 6#5

/-- The word of TROWMV_IN. -/
def Enc.trowmvIn (d : BitVec 3) (v : BitVec 6) (n : BitVec 5) : BitVec 32 := cat 32 (cat 27 (cat 22 (cat 18 (cat 12 (cat 9 16#6 d) 0#3) v) 1#4) n) 6#5

/-- The word of TSCALE. -/
def Enc.tscale (d : BitVec 3) (n : BitVec 5) : BitVec 32 := cat 32 (cat 27 (cat 22 (cat 9 16#6 d) 0#13) n) 7#5

/-- The word of TCVT. -/
def Enc.tcvt (d : BitVec 3) (v : BitVec 6) (n : BitVec 5) : BitVec 32 := cat 32 (cat 27 (cat 22 (cat 18 (cat 12 (cat 9 16#6 d) 0#3) v) 0#4) n) 8#5

/-- The word of VLD. -/
def Enc.vld (d : BitVec 6) (n : BitVec 5) (c : BitVec 1) (k : BitVec 3) : BitVec 32 := cat 32 (cat 27 (cat 24 (cat 23 (cat 17 (cat 12 28#6 d) n) 0#6) c) k) 0#5

/-- The word of VLDS. -/
def Enc.vlds (d : BitVec 6) (n : BitVec 5) (s : BitVec 5) (c : BitVec 1) (k : BitVec 3) : BitVec 32 := cat 32 (cat 27 (cat 24 (cat 23 (cat 18 (cat 17 (cat 12 28#6 d) n) 0#1) s) c) k) 1#5

/-- The word of VLDX. -/
def Enc.vldx (d : BitVec 6) (n : BitVec 5) (i : BitVec 6) (c : BitVec 1) (k : BitVec 3) : BitVec 32 := cat 32 (cat 27 (cat 24 (cat 23 (cat 17 (cat 12 28#6 d) n) i) c) k) 2#5

/-- The word of WGATHER. -/
def Enc.wgather (d : BitVec 6) (n : BitVec 5) (i : BitVec 6) (c : BitVec 1) (k : BitVec 3) : BitVec 32 := cat 32 (cat 27 (cat 24 (cat 23 (cat 17 (cat 12 28#6 d) n) i) c) k) 3#5

/-- The word of VST. -/
def Enc.vst (d : BitVec 6) (n : BitVec 5) (c : BitVec 1) (k : BitVec 3) : BitVec 32 := cat 32 (cat 27 (cat 24 (cat 23 (cat 17 (cat 12 29#6 d) n) 0#6) c) k) 0#5

/-- The word of VSTS. -/
def Enc.vsts (d : BitVec 6) (n : BitVec 5) (s : BitVec 5) (c : BitVec 1) (k : BitVec 3) : BitVec 32 := cat 32 (cat 27 (cat 24 (cat 23 (cat 18 (cat 17 (cat 12 29#6 d) n) 0#1) s) c) k) 1#5

/-- The word of VSTX_O. -/
def Enc.vstxO (d : BitVec 6) (n : BitVec 5) (i : BitVec 6) (c : BitVec 1) (k : BitVec 3) : BitVec 32 := cat 32 (cat 27 (cat 24 (cat 23 (cat 17 (cat 12 29#6 d) n) i) c) k) 2#5

/-- The word of VSTX_U. -/
def Enc.vstxU (d : BitVec 6) (n : BitVec 5) (i : BitVec 6) (c : BitVec 1) (k : BitVec 3) : BitVec 32 := cat 32 (cat 27 (cat 24 (cat 23 (cat 17 (cat 12 29#6 d) n) i) c) k) 3#5

/-- The word of VSADD. -/
def Enc.vsadd (d : BitVec 6) (n : BitVec 5) (i : BitVec 6) (c : BitVec 1) (k : BitVec 3) : BitVec 32 := cat 32 (cat 27 (cat 24 (cat 23 (cat 17 (cat 12 29#6 d) n) i) c) k) 4#5

/-- The word of TLOAD. -/
def Enc.tload (d : BitVec 6) (n : BitVec 5) (t : BitVec 1) (s : BitVec 5) (c : BitVec 1) (k : BitVec 3) : BitVec 32 := cat 32 (cat 27 (cat 24 (cat 23 (cat 18 (cat 17 (cat 12 30#6 d) n) t) s) c) k) 0#5

/-- The word of TSTORE. -/
def Enc.tstore (d : BitVec 6) (n : BitVec 5) (t : BitVec 1) (s : BitVec 5) (c : BitVec 1) (k : BitVec 3) : BitVec 32 := cat 32 (cat 27 (cat 24 (cat 23 (cat 18 (cat 17 (cat 12 30#6 d) n) t) s) c) k) 1#5

/-- The word of VBIND. -/
def Enc.vbind (d : BitVec 6) (n : BitVec 5) : BitVec 32 := cat 32 (cat 17 (cat 12 31#6 d) n) 0#15

/-- The word of VUNBIND. -/
def Enc.vunbind (d : BitVec 6) : BitVec 32 := cat 32 (cat 12 31#6 d) 1#20

/-- The word of VBPOS. -/
def Enc.vbpos (d : BitVec 6) (s : BitVec 5) : BitVec 32 := cat 32 (cat 23 (cat 18 (cat 12 31#6 d) 0#6) s) 2#9

/-- The word of CAPPEND. -/
def Enc.cappend (d : BitVec 6) (n : BitVec 5) (c : BitVec 1) (k : BitVec 3) : BitVec 32 := cat 32 (cat 27 (cat 24 (cat 23 (cat 17 (cat 12 32#6 d) n) 0#6) c) k) 0#5

/-- The word of WBLOAD. -/
def Enc.wbload (w : BitVec 4) (n : BitVec 5) (s : BitVec 5) : BitVec 32 := cat 32 (cat 23 (cat 18 (cat 17 (cat 12 132#8 w) n) 0#1) s) 0#9

/-- The word of WBINV. -/
def Enc.wbinv (w : BitVec 4) : BitVec 32 := cat 32 (cat 12 132#8 w) 1#20

/-- The word of CSLD. -/
def Enc.csld (d : BitVec 3) (a : BitVec 5) (b : BitVec 5) : BitVec 32 := cat 32 (cat 24 (cat 19 (cat 18 (cat 13 (cat 12 288#9 d) 0#1) a) 0#1) b) 0#8

/-- The word of CSST. -/
def Enc.csst (d : BitVec 3) (a : BitVec 5) (b : BitVec 5) : BitVec 32 := cat 32 (cat 24 (cat 19 (cat 18 (cat 13 (cat 12 288#9 d) 0#1) a) 0#1) b) 1#8

/-- The word of CSADD. -/
def Enc.csadd (d : BitVec 3) (a : BitVec 3) (b : BitVec 3) (r : BitVec 5) : BitVec 32 := cat 32 (cat 24 (cat 19 (cat 18 (cat 15 (cat 12 288#9 d) a) b) 0#1) r) 2#8

/-- The word of CSMUL. -/
def Enc.csmul (d : BitVec 3) (a : BitVec 3) (b : BitVec 3) (r : BitVec 5) : BitVec 32 := cat 32 (cat 24 (cat 19 (cat 18 (cat 15 (cat 12 288#9 d) a) b) 0#1) r) 3#8

/-- The word of CSDOT. -/
def Enc.csdot (d : BitVec 5) (a : BitVec 3) (b : BitVec 3) (r : BitVec 5) : BitVec 32 := cat 32 (cat 24 (cat 19 (cat 18 (cat 15 (cat 12 72#7 d) a) b) 0#1) r) 4#8

/-- The word of CSSCALE. -/
def Enc.csscale (d : BitVec 3) (a : BitVec 3) (n : BitVec 5) : BitVec 32 := cat 32 (cat 24 (cat 19 (cat 18 (cat 15 (cat 12 288#9 d) 0#3) a) 0#1) n) 5#8

/-- The word of CSCOMPACT. -/
def Enc.cscompact (d : BitVec 3) (v : BitVec 6) (n : BitVec 5) : BitVec 32 := cat 32 (cat 24 (cat 19 (cat 18 (cat 12 288#9 d) v) 0#1) n) 6#8

/-- The word of CSEXPAND. -/
def Enc.csexpand (v : BitVec 6) (a : BitVec 3) (n : BitVec 5) : BitVec 32 := cat 32 (cat 24 (cat 19 (cat 18 (cat 15 (cat 12 36#6 v) 0#3) a) 0#1) n) 7#8

/-- The word of CSSEEK. -/
def Enc.csseek (d : BitVec 3) (a : BitVec 3) (n : BitVec 5) : BitVec 32 := cat 32 (cat 24 (cat 19 (cat 18 (cat 15 (cat 12 288#9 d) 0#3) a) 0#1) n) 8#8

/-- The word of CSCSR. -/
def Enc.cscsr (t : BitVec 6) (v : BitVec 6) (n : BitVec 5) (c : BitVec 3) : BitVec 32 := cat 32 (cat 27 (cat 24 (cat 19 (cat 18 (cat 12 36#6 t) v) 0#1) n) c) 9#5

/-- The word of EBATCH. -/
def Enc.ebatch (v : BitVec 6) (d : BitVec 5) (m : BitVec 3) (c : BitVec 1) (k : BitVec 3) : BitVec 32 := cat 32 (cat 27 (cat 24 (cat 23 (cat 22 (cat 19 (cat 17 (cat 12 40#6 v) d) 0#2) m) 0#1) c) k) 0#5

/-- The word of ECOPY. -/
def Enc.ecopy (n : BitVec 5) (d : BitVec 5) : BitVec 32 := cat 32 (cat 22 (cat 17 2560#12 n) d) 1#10

/-- The word of REP. -/
def Enc.rep (n : BitVec 5) (c : BitVec 5) : BitVec 32 := cat 32 (cat 22 (cat 17 2560#12 n) c) 2#10

/-- The word of TLSIG. -/
def Enc.tlsig (d : BitVec 5) : BitVec 32 := cat 32 (cat 22 81920#17 d) 3#10

/-- The word of TLWAIT. -/
def Enc.tlwait (n : BitVec 5) (m : BitVec 5) : BitVec 32 := cat 32 (cat 22 (cat 17 2560#12 n) m) 4#10

/-- The word of TLWAIT_CHK. -/
def Enc.tlwaitChk (n : BitVec 5) (m : BitVec 5) : BitVec 32 := cat 32 (cat 22 (cat 17 2560#12 n) m) 5#10

/-- The word of TLREAD. -/
def Enc.tlread (d : BitVec 5) (n : BitVec 5) : BitVec 32 := cat 32 (cat 17 (cat 12 80#7 d) n) 6#15

/-- The word of VRRED. -/
def Enc.vrred (v : BitVec 6) (n : BitVec 5) (f : BitVec 4) (s : BitVec 1) (c : BitVec 1) (k : BitVec 3) : BitVec 32 := cat 32 (cat 27 (cat 24 (cat 23 (cat 22 (cat 21 (cat 17 (cat 12 41#6 v) n) f) s) 0#1) c) k) 0#5

/-- The word of CREDUCE. -/
def Enc.creduce (n : BitVec 5) (d : BitVec 5) : BitVec 32 := cat 32 (cat 22 (cat 17 2624#12 n) d) 1#10

/-- The word of CGATHER. -/
def Enc.cgather (n : BitVec 5) (d : BitVec 5) : BitVec 32 := cat 32 (cat 22 (cat 17 2624#12 n) d) 2#10

/-- The word of CXPAR. -/
def Enc.cxpar (n : BitVec 5) (d : BitVec 5) : BitVec 32 := cat 32 (cat 22 (cat 17 2624#12 n) d) 3#10

/-- The word of NMADD. -/
def Enc.nmadd (v : BitVec 6) (n : BitVec 5) (x : BitVec 1) (c : BitVec 1) (k : BitVec 3) : BitVec 32 := cat 32 (cat 27 (cat 24 (cat 23 (cat 22 (cat 21 (cat 17 (cat 12 42#6 v) n) 0#4) x) 0#1) c) k) 0#5

/-- The word of NMFADD. -/
def Enc.nmfadd (v : BitVec 6) (n : BitVec 5) (x : BitVec 1) (c : BitVec 1) (k : BitVec 3) : BitVec 32 := cat 32 (cat 27 (cat 24 (cat 23 (cat 22 (cat 21 (cat 17 (cat 12 42#6 v) n) 0#4) x) 0#1) c) k) 1#5

/-- The word of NMFENCE. -/
def Enc.nmfence : BitVec 32 := 2818572290#32

/-- The word of NMFENCE_REL. -/
def Enc.nmfenceRel : BitVec 32 := 2818572291#32

/-- The word of NMOPT. -/
def Enc.nmopt (n : BitVec 5) (d : BitVec 5) : BitVec 32 := cat 32 (cat 22 (cat 17 2688#12 n) d) 4#10

/-- The word of PKCFG. -/
def Enc.pkcfg (n : BitVec 5) : BitVec 32 := cat 32 (cat 17 2688#12 n) 5#15

/-- The word of PKLOOK. -/
def Enc.pklook (v : BitVec 6) (n : BitVec 5) (d : BitVec 5) (c : BitVec 1) (k : BitVec 3) : BitVec 32 := cat 32 (cat 27 (cat 24 (cat 23 (cat 22 (cat 17 (cat 12 42#6 v) n) d) 0#1) c) k) 6#5

/-- The word of SKSET. -/
def Enc.skset (n : BitVec 5) : BitVec 32 := cat 32 (cat 17 2752#12 n) 0#15

/-- The word of SKSET_G. -/
def Enc.sksetG (n : BitVec 5) (d : BitVec 5) : BitVec 32 := cat 32 (cat 22 (cat 17 2753#12 n) d) 0#10

/-- The word of SKBUILD. -/
def Enc.skbuild (n : BitVec 5) (d : BitVec 5) : BitVec 32 := cat 32 (cat 22 (cat 17 2752#12 n) d) 1#10

/-- The word of SKXCHG. -/
def Enc.skxchg (n : BitVec 5) (d : BitVec 5) : BitVec 32 := cat 32 (cat 22 (cat 17 2752#12 n) d) 2#10

/-- The word of SKPEEL. -/
def Enc.skpeel (n : BitVec 5) (d : BitVec 5) : BitVec 32 := cat 32 (cat 22 (cat 17 2752#12 n) d) 3#10

/-- The word of TMODE. -/
def Enc.tmode (d : BitVec 1) (t : BitVec 1) : BitVec 32 := cat 32 (cat 22 (cat 21 1015808#20 d) t) 0#10

/-- The word of TSHAPE. -/
def Enc.tshape (k : BitVec 5) (n : BitVec 5) (m : BitVec 5) : BitVec 32 := cat 32 (cat 22 (cat 17 (cat 12 124#7 k) n) m) 1#10

/-- The word of an encoded instruction, field by field from the most significant bit (08 R183); events have none. -/
def encode (i : Instr) : Option (BitVec 32) :=
  match i with
  | .add d n m => some (Enc.add d n m)
  | .sub d n m => some (Enc.sub d n m)
  | .and d n m => some (Enc.and d n m)
  | .or d n m => some (Enc.or d n m)
  | .xor d n m => some (Enc.xor d n m)
  | .shl d n m => some (Enc.shl d n m)
  | .shr d n m => some (Enc.shr d n m)
  | .sra d n m => some (Enc.sra d n m)
  | .slt d n m => some (Enc.slt d n m)
  | .sltu d n m => some (Enc.sltu d n m)
  | .mul d n m => some (Enc.mul d n m)
  | .mulh d n m => some (Enc.mulh d n m)
  | .mulhu d n m => some (Enc.mulhu d n m)
  | .div d n m => some (Enc.div d n m)
  | .divu d n m => some (Enc.divu d n m)
  | .rem d n m => some (Enc.rem d n m)
  | .remu d n m => some (Enc.remu d n m)
  | .min d n m => some (Enc.min d n m)
  | .max d n m => some (Enc.max d n m)
  | .minu d n m => some (Enc.minu d n m)
  | .maxu d n m => some (Enc.maxu d n m)
  | .clz d n => some (Enc.clz d n)
  | .ctz d n => some (Enc.ctz d n)
  | .popc d n => some (Enc.popc d n)
  | .sel d n m x => some (Enc.sel d n m x)
  | .addsh d n m x => some (Enc.addsh d n m x)
  | .addi d n i => some (Enc.addi d n i)
  | .andi d n i => some (Enc.andi d n i)
  | .ori d n i => some (Enc.ori d n i)
  | .xori d n i => some (Enc.xori d n i)
  | .slti d n i => some (Enc.slti d n i)
  | .shli d n i => some (Enc.shli d n i)
  | .shri d n i => some (Enc.shri d n i)
  | .srai d n i => some (Enc.srai d n i)
  | .ldB d n i => some (Enc.ldB d n i)
  | .ldBu d n i => some (Enc.ldBu d n i)
  | .ldH d n i => some (Enc.ldH d n i)
  | .ldHu d n i => some (Enc.ldHu d n i)
  | .ldW d n i => some (Enc.ldW d n i)
  | .ldWu d n i => some (Enc.ldWu d n i)
  | .ldD d n i => some (Enc.ldD d n i)
  | .stB d n i => some (Enc.stB d n i)
  | .stH d n i => some (Enc.stH d n i)
  | .stW d n i => some (Enc.stW d n i)
  | .stD d n i => some (Enc.stD d n i)
  | .beq n m o => some (Enc.beq n m o)
  | .bne n m o => some (Enc.bne n m o)
  | .blt n m o => some (Enc.blt n m o)
  | .bge n m o => some (Enc.bge n m o)
  | .bltu n m o => some (Enc.bltu n m o)
  | .bgeu n m o => some (Enc.bgeu n m o)
  | .vloop n o => some (Enc.vloop n o)
  | .jal d i => some (Enc.jal d i)
  | .jalr d n i => some (Enc.jalr d n i)
  | .ldhi d i => some (Enc.ldhi d i)
  | .fadd d n m p => some (Enc.fadd d n m p)
  | .fsub d n m p => some (Enc.fsub d n m p)
  | .fmul d n m p => some (Enc.fmul d n m p)
  | .fdiv d n m p => some (Enc.fdiv d n m p)
  | .fsqrt d n p => some (Enc.fsqrt d n p)
  | .fma d n m x p => some (Enc.fma d n m x p)
  | .fmin d n m p => some (Enc.fmin d n m p)
  | .fmax d n m p => some (Enc.fmax d n m p)
  | .fcmp d n m x p => some (Enc.fcmp d n m x p)
  | .fcvt d n x => some (Enc.fcvt d n x)
  | .ldOrdered d n w o s => some (Enc.ldOrdered d n w o s)
  | .stOrdered n m w o s => some (Enc.stOrdered n m w o s)
  | .amoadd d n m w o s => some (Enc.amoadd d n m w o s)
  | .amoand d n m w o s => some (Enc.amoand d n m w o s)
  | .amoor d n m w o s => some (Enc.amoor d n m w o s)
  | .amoxor d n m w o s => some (Enc.amoxor d n m w o s)
  | .amoswap d n m w o s => some (Enc.amoswap d n m w o s)
  | .amomin d n m w o s => some (Enc.amomin d n m w o s)
  | .amomax d n m w o s => some (Enc.amomax d n m w o s)
  | .amominu d n m w o s => some (Enc.amominu d n m w o s)
  | .amomaxu d n m w o s => some (Enc.amomaxu d n m w o s)
  | .cas d n m x o s f => some (Enc.cas d n m x o s f)
  | .csrr d r => some (Enc.csrr d r)
  | .csrw n r => some (Enc.csrw n r)
  | .csrs n r => some (Enc.csrs n r)
  | .csrc n r => some (Enc.csrc n r)
  | .qpush n q => some (Enc.qpush n q)
  | .qpop d q => some (Enc.qpop d q)
  | .trap x => some (Enc.trap x)
  | .tret => some Enc.tret
  | .halt => some Enc.halt
  | .wait x => some (Enc.wait x)
  | .brk x => some (Enc.brk x)
  | .kend => some Enc.kend
  | .tlbiAll => some Enc.tlbiAll
  | .tlbiAsn n => some (Enc.tlbiAsn n)
  | .tlbiVa n m => some (Enc.tlbiVa n m)
  | .tlbiGpa n m => some (Enc.tlbiGpa n m)
  | .tlbiPart m => some (Enc.tlbiPart m)
  | .fence o s => some (Enc.fence o s)
  | .lsync => some Enc.lsync
  | .ifence => some Enc.ifence
  | .launch n => some (Enc.launch n)
  | .nop h => some (Enc.nop h)
  | .setvl d n => some (Enc.setvl d n)
  | .vcfg c => some (Enc.vcfg c)
  | .vtype n => some (Enc.vtype n)
  | .vwin d n => some (Enc.vwin d n)
  | .lpart n => some (Enc.lpart n)
  | .vadd d a b k => some (Enc.vadd d a b k)
  | .vsub d a b k => some (Enc.vsub d a b k)
  | .vmul d a b k => some (Enc.vmul d a b k)
  | .vmulh d a b k => some (Enc.vmulh d a b k)
  | .vmadd d a b k => some (Enc.vmadd d a b k)
  | .vmsub d a b k => some (Enc.vmsub d a b k)
  | .vdiv d a b k => some (Enc.vdiv d a b k)
  | .vrem d a b k => some (Enc.vrem d a b k)
  | .vmin d a b k => some (Enc.vmin d a b k)
  | .vmax d a b k => some (Enc.vmax d a b k)
  | .vand d a b k => some (Enc.vand d a b k)
  | .vor d a b k => some (Enc.vor d a b k)
  | .vxor d a b k => some (Enc.vxor d a b k)
  | .vshl d a b k => some (Enc.vshl d a b k)
  | .vshr d a b k => some (Enc.vshr d a b k)
  | .vsra d a b k => some (Enc.vsra d a b k)
  | .vabs d a k => some (Enc.vabs d a k)
  | .vaddVx d a n q k => some (Enc.vaddVx d a n q k)
  | .vsubVx d a n q k => some (Enc.vsubVx d a n q k)
  | .vmulVx d a n q k => some (Enc.vmulVx d a n q k)
  | .vmulhVx d a n q k => some (Enc.vmulhVx d a n q k)
  | .vmaddVx d a n q k => some (Enc.vmaddVx d a n q k)
  | .vmsubVx d a n q k => some (Enc.vmsubVx d a n q k)
  | .vdivVx d a n q k => some (Enc.vdivVx d a n q k)
  | .vremVx d a n q k => some (Enc.vremVx d a n q k)
  | .vminVx d a n q k => some (Enc.vminVx d a n q k)
  | .vmaxVx d a n q k => some (Enc.vmaxVx d a n q k)
  | .vandVx d a n q k => some (Enc.vandVx d a n q k)
  | .vorVx d a n q k => some (Enc.vorVx d a n q k)
  | .vxorVx d a n q k => some (Enc.vxorVx d a n q k)
  | .vshlVx d a n q k => some (Enc.vshlVx d a n q k)
  | .vshrVx d a n q k => some (Enc.vshrVx d a n q k)
  | .vsraVx d a n q k => some (Enc.vsraVx d a n q k)
  | .vfadd d a b k => some (Enc.vfadd d a b k)
  | .vfsub d a b k => some (Enc.vfsub d a b k)
  | .vfmul d a b k => some (Enc.vfmul d a b k)
  | .vfdiv d a b k => some (Enc.vfdiv d a b k)
  | .vfsqrt d a k => some (Enc.vfsqrt d a k)
  | .vfrsqe d a k => some (Enc.vfrsqe d a k)
  | .vfma d a b k => some (Enc.vfma d a b k)
  | .vfms d a b k => some (Enc.vfms d a b k)
  | .vfnma d a b k => some (Enc.vfnma d a b k)
  | .vfmin d a b k => some (Enc.vfmin d a b k)
  | .vfmax d a b k => some (Enc.vfmax d a b k)
  | .vfabs d a k => some (Enc.vfabs d a k)
  | .vfneg d a k => some (Enc.vfneg d a k)
  | .vcvt d a t k => some (Enc.vcvt d a t k)
  | .vfaddVx d a n q k => some (Enc.vfaddVx d a n q k)
  | .vfsubVx d a n q k => some (Enc.vfsubVx d a n q k)
  | .vfmulVx d a n q k => some (Enc.vfmulVx d a n q k)
  | .vfdivVx d a n q k => some (Enc.vfdivVx d a n q k)
  | .vfmaVx d a n q k => some (Enc.vfmaVx d a n q k)
  | .vfmsVx d a n q k => some (Enc.vfmsVx d a n q k)
  | .vfnmaVx d a n q k => some (Enc.vfnmaVx d a n q k)
  | .vfminVx d a n q k => some (Enc.vfminVx d a n q k)
  | .vfmaxVx d a n q k => some (Enc.vfmaxVx d a n q k)
  | .vcmpEq d a b k => some (Enc.vcmpEq d a b k)
  | .vcmpNe d a b k => some (Enc.vcmpNe d a b k)
  | .vcmpLt d a b k => some (Enc.vcmpLt d a b k)
  | .vcmpLe d a b k => some (Enc.vcmpLe d a b k)
  | .vcmpLtu d a b k => some (Enc.vcmpLtu d a b k)
  | .vcmpLeu d a b k => some (Enc.vcmpLeu d a b k)
  | .vfcmpEq d a b k => some (Enc.vfcmpEq d a b k)
  | .vfcmpNe d a b k => some (Enc.vfcmpNe d a b k)
  | .vfcmpLt d a b k => some (Enc.vfcmpLt d a b k)
  | .vfcmpLe d a b k => some (Enc.vfcmpLe d a b k)
  | .vfcmpUnord d a b k => some (Enc.vfcmpUnord d a b k)
  | .vfcmpOrd d a b k => some (Enc.vfcmpOrd d a b k)
  | .mand d a b k => some (Enc.mand d a b k)
  | .mor d a b k => some (Enc.mor d a b k)
  | .mxor d a b k => some (Enc.mxor d a b k)
  | .mnot d a k => some (Enc.mnot d a k)
  | .mpopc d a k => some (Enc.mpopc d a k)
  | .mfirst d a k => some (Enc.mfirst d a k)
  | .mset d k => some (Enc.mset d k)
  | .vcmpEqVx d a n q k => some (Enc.vcmpEqVx d a n q k)
  | .vcmpNeVx d a n q k => some (Enc.vcmpNeVx d a n q k)
  | .vcmpLtVx d a n q k => some (Enc.vcmpLtVx d a n q k)
  | .vcmpLeVx d a n q k => some (Enc.vcmpLeVx d a n q k)
  | .vcmpLtuVx d a n q k => some (Enc.vcmpLtuVx d a n q k)
  | .vcmpLeuVx d a n q k => some (Enc.vcmpLeuVx d a n q k)
  | .vfcmpEqVx d a n q k => some (Enc.vfcmpEqVx d a n q k)
  | .vfcmpNeVx d a n q k => some (Enc.vfcmpNeVx d a n q k)
  | .vfcmpLtVx d a n q k => some (Enc.vfcmpLtVx d a n q k)
  | .vfcmpLeVx d a n q k => some (Enc.vfcmpLeVx d a n q k)
  | .vfcmpUnordVx d a n q k => some (Enc.vfcmpUnordVx d a n q k)
  | .vfcmpOrdVx d a n q k => some (Enc.vfcmpOrdVx d a n q k)
  | .vredsum d a n q k => some (Enc.vredsum d a n q k)
  | .vredmax d a n q k => some (Enc.vredmax d a n q k)
  | .vredmin d a n q k => some (Enc.vredmin d a n q k)
  | .vredand d a n q k => some (Enc.vredand d a n q k)
  | .vredor d a n q k => some (Enc.vredor d a n q k)
  | .vfredsumO d a n q k => some (Enc.vfredsumO d a n q k)
  | .vfredsumT d a n q k => some (Enc.vfredsumT d a n q k)
  | .vfredmax d a n q k => some (Enc.vfredmax d a n q k)
  | .vfredmin d a n q k => some (Enc.vfredmin d a n q k)
  | .vslideup d a n q k => some (Enc.vslideup d a n q k)
  | .vslidedown d a n q k => some (Enc.vslidedown d a n q k)
  | .vrev d a k => some (Enc.vrev d a k)
  | .vperm d a b k => some (Enc.vperm d a b k)
  | .vcompress d a k => some (Enc.vcompress d a k)
  | .vexpand d a k => some (Enc.vexpand d a k)
  | .viota d a k => some (Enc.viota d a k)
  | .vsort d a => some (Enc.vsort d a)
  | .vdedup d a s => some (Enc.vdedup d a s)
  | .vscanAdd d a n q k => some (Enc.vscanAdd d a n q k)
  | .vscanMax d a n q k => some (Enc.vscanMax d a n q k)
  | .vscanMin d a n q k => some (Enc.vscanMin d a n q k)
  | .vscanFadd d a n q k => some (Enc.vscanFadd d a n q k)
  | .vrecur d a n q k => some (Enc.vrecur d a n q k)
  | .vmv d a k => some (Enc.vmv d a k)
  | .vbcast d n q k => some (Enc.vbcast d n q k)
  | .vext d a n q => some (Enc.vext d a n q)
  | .vins d i n q => some (Enc.vins d i n q)
  | .vmerge d a b k => some (Enc.vmerge d a b k)
  | .vtrans d => some (Enc.vtrans d)
  | .tzero d => some (Enc.tzero d)
  | .tmmaO d v w n => some (Enc.tmmaO d v w n)
  | .tmmaF d v w n => some (Enc.tmmaF d v w n)
  | .tmova d v n => some (Enc.tmova d v n)
  | .tmovv d v n => some (Enc.tmovv d v n)
  | .tcolmvOut d v n => some (Enc.tcolmvOut d v n)
  | .tcolmvIn d v n => some (Enc.tcolmvIn d v n)
  | .trowmvOut d v n => some (Enc.trowmvOut d v n)
  | .trowmvIn d v n => some (Enc.trowmvIn d v n)
  | .tscale d n => some (Enc.tscale d n)
  | .tcvt d v n => some (Enc.tcvt d v n)
  | .vld d n c k => some (Enc.vld d n c k)
  | .vlds d n s c k => some (Enc.vlds d n s c k)
  | .vldx d n i c k => some (Enc.vldx d n i c k)
  | .wgather d n i c k => some (Enc.wgather d n i c k)
  | .vst d n c k => some (Enc.vst d n c k)
  | .vsts d n s c k => some (Enc.vsts d n s c k)
  | .vstxO d n i c k => some (Enc.vstxO d n i c k)
  | .vstxU d n i c k => some (Enc.vstxU d n i c k)
  | .vsadd d n i c k => some (Enc.vsadd d n i c k)
  | .tload d n t s c k => some (Enc.tload d n t s c k)
  | .tstore d n t s c k => some (Enc.tstore d n t s c k)
  | .vbind d n => some (Enc.vbind d n)
  | .vunbind d => some (Enc.vunbind d)
  | .vbpos d s => some (Enc.vbpos d s)
  | .cappend d n c k => some (Enc.cappend d n c k)
  | .wbload w n s => some (Enc.wbload w n s)
  | .wbinv w => some (Enc.wbinv w)
  | .csld d a b => some (Enc.csld d a b)
  | .csst d a b => some (Enc.csst d a b)
  | .csadd d a b r => some (Enc.csadd d a b r)
  | .csmul d a b r => some (Enc.csmul d a b r)
  | .csdot d a b r => some (Enc.csdot d a b r)
  | .csscale d a n => some (Enc.csscale d a n)
  | .cscompact d v n => some (Enc.cscompact d v n)
  | .csexpand v a n => some (Enc.csexpand v a n)
  | .csseek d a n => some (Enc.csseek d a n)
  | .cscsr t v n c => some (Enc.cscsr t v n c)
  | .ebatch v d m c k => some (Enc.ebatch v d m c k)
  | .ecopy n d => some (Enc.ecopy n d)
  | .rep n c => some (Enc.rep n c)
  | .tlsig d => some (Enc.tlsig d)
  | .tlwait n m => some (Enc.tlwait n m)
  | .tlwaitChk n m => some (Enc.tlwaitChk n m)
  | .tlread d n => some (Enc.tlread d n)
  | .vrred v n f s c k => some (Enc.vrred v n f s c k)
  | .creduce n d => some (Enc.creduce n d)
  | .cgather n d => some (Enc.cgather n d)
  | .cxpar n d => some (Enc.cxpar n d)
  | .nmadd v n x c k => some (Enc.nmadd v n x c k)
  | .nmfadd v n x c k => some (Enc.nmfadd v n x c k)
  | .nmfence => some Enc.nmfence
  | .nmfenceRel => some Enc.nmfenceRel
  | .nmopt n d => some (Enc.nmopt n d)
  | .pkcfg n => some (Enc.pkcfg n)
  | .pklook v n d c k => some (Enc.pklook v n d c k)
  | .skset n => some (Enc.skset n)
  | .sksetG n d => some (Enc.sksetG n d)
  | .skbuild n d => some (Enc.skbuild n d)
  | .skxchg n d => some (Enc.skxchg n d)
  | .skpeel n d => some (Enc.skpeel n d)
  | .tmode d t => some (Enc.tmode d t)
  | .tshape k n m => some (Enc.tshape k n m)
  | .illegalInstruction _ _ => none
  | .pageWalk _ _ _ => none
  | .writePerformed _ => none
  | .nearMemoryAdd _ => none
  | .remoteReduceAdd _ => none
  | .copyCommandPerformed _ _ => none
  | .threadTimelineSignal _ _ => none
  | .collectivePerformed _ _ _ => none
  | .nmoptPerformed _ _ => none
  | .pklookPerformed _ _ => none
  | .skbuildPerformed _ _ => none
  | .skxchgPerformed _ _ _ => none
  | .skpeelPerformed _ _ => none
  | .partitionActivate _ => none
  | .partitionQuiesce _ => none
  | .quiesceComplete => none
  | .partitionDeactivate _ => none
  | .deactivateComplete => none
  | .reloadCrossbar _ => none
  | .partitionResume _ => none
  | .pcmdReserved _ _ => none
  | .pageMigration _ _ => none
  | .pageMigrationComplete _ => none
  | .hotnessClear _ => none
  | .hotnessClearDone _ => none
  | .contextHalt _ _ => none
  | .contextSave _ _ => none
  | .contextRestore _ _ => none
  | .contextResume _ _ => none
  | .ctxRetry _ _ => none
  | .abandon _ _ => none
  | .exportWalker _ _ => none
  | .importWalker _ _ => none
  | .contextEngineReserved _ _ => none
  | .iterationDispatch _ _ => none
  | .timeSliceEnd _ _ _ => none
  | .setAsideResume _ => none
  | .watchdogExpire _ => none
  | .replayCommand _ _ => none
  | .replayConditionMet _ => none
  | .deferredFaultPost _ => none
  | .requestPacket _ _ _ _ => none
  | .hostInboundRead _ _ _ _ => none
  | .hostInboundWrite _ _ _ _ _ => none
  | .hostInboundAtomic _ _ _ _ => none
  | .peerInboundRequest _ _ _ _ => none
  | .rootPortInbound _ _ _ => none
  | .ethernetFrame _ _ => none
  | .mctpMessage _ _ _ => none
  | .linkDown _ => none
  | .completionTimeout _ _ => none
  | .linkLaneFault _ _ => none
  | .claim _ => none
  | .offer _ _ => none
  | .accept _ => none
  | .acceptComplete => none
  | .acceptTimeout => none
  | .offerLapse => none
  | .ownerPathFailure => none
  | .ownerLost => none
  | .attestationRequest => none
  | .attestationDone => none
  | .moduleReset => none
  | .recoveryVerify => none
  | .powerLeaveGrant _ => none
  | .powerInputOverlimit => none
  | .powerInputRecovered => none
  | .patrolScrub => none
  | .spareMapWrite _ _ _ => none
  | .laneMapWrite _ _ _ _ => none
  | .spareRowReplace _ _ => none
  | .registerWrite _ _ => none
  | .outboundCompletion _ _ _ _ => none
  | .linkUp _ => none
  | .dataLinkLayerUp _ => none
  | .softError _ => none
  | .activateComplete => none
  | .contextEngineDone _ => none
  | .waitExpire _ => none

end Sys2Proof
end

