-- ==== Sys2Proof/Config.lean ====
section
/-! DEFINITION. What is fixed for a module and what the spec leaves free. A free value is an opaque constant with no
body: nothing can be proved about its value, and a claim holds whatever it is (log entries 5 and 11). -/

namespace Sys2Proof.Config

/-- A free choice of one bit, numbered by State.freeCtr: which way an unordered thing falls (log entry 5). -/
opaque freeBit : Nat → Bool

/-- A free byte: the content of storage the spec calls undefined (log entry 5). -/
opaque freeByte : Nat → Byte

/-- A free 64-bit value (log entry 5). -/
opaque freeWord : Nat → Word

/-- The set of an L2 TLB a page belongs to, by partition, base and size class (02 R59; log entry 7). -/
opaque tlbSet : (part vbase size : Nat) → Nat

/-- What the control die derives the identity key pair from a fused seed to be: the secret seed, the key of the message randomness and the
public seed, 16 bytes each (20 R413; log entry 11). -/
opaque identitySeed : List Byte

/-- The module serial number (20 R413; log entry 11). -/
opaque serial : List Byte

end Sys2Proof.Config
end

