-- ==== Sys2Proof/Machine/State.lean ====
section
/-! DEFINITION. The whole state of the module as plain data, and the state after reset. Sparse stores are lists of
(key, value) pairs; what an unlisted key reads as stands beside each store's accessor in Machine/Ops.lean. -/

namespace Sys2Proof.Machine

/-- The spec never stops the module: where it names a trap, a suspension, a refusal or a result code, that is the next
state. No step of this model raises a fault, so the type has no constructor. -/
inductive Fault
  deriving DecidableEq, Repr

/-- Why a step has no next state. -/
inductive Refusal where
  /-- Raised by an arm of exec whose instruction has no meaning yet. Safe: nothing is claimed of it. -/
  | notModelled (mnemonic : String)
  deriving DecidableEq, Repr

/-- What a control thread is doing (06 R157; 09 R219, R220, R225; 02 R56). -/
inductive Run where
  /-- holds no context -/
  | free
  | running
  /-- waits for a replay command after a record of kind 1 -/
  | suspended
  /-- stopped by `halt` -/
  | stopped
  /-- stopped by a double trap -/
  | doubleTrap
  deriving DecidableEq, Repr

/-- One window descriptor, in units of 8 bytes (03 R75). -/
structure Win where
  base : BitVec 10
  len : BitVec 11
  deriving DecidableEq, Repr

/-- One binding slot: the record with POS current, and the bound register code (03 R97). -/
structure Bind where
  base : Word
  stride : Word
  scale : Word
  pos : Word
  fin : Word
  fmt : BitVec 4
  ctl : Byte
  recAddr : Word
  reg : BitVec 6
  deriving DecidableEq, Repr

/-- A timeline: its counter, the last number assigned, and the numbers performed above the counter (05 R131, R134). -/
structure Timeline where
  ctr : Nat
  last : Nat
  ahead : List Nat
  deriving DecidableEq, Repr

/-- Unreported shortfalls of one engine context, ascending, at most 64, with LOSS (15 R315; 19 R403). -/
structure Short where
  nums : List Nat
  loss : Bool
  deriving DecidableEq, Repr

/-- The thread's previous posted fault: instruction address, virtual page, stage, repeat count (02 R58). -/
structure LastFault where
  pc : Word
  page : Nat
  second : Bool
  count : Nat
  deriving DecidableEq, Repr

/-- A fault record not yet posted: the queue it goes to and its fields of 19 R393 but SEQ. -/
structure FaultRec where
  ownerQ : Bool
  kind : Nat
  flg : Byte
  lvl : Nat
  acc : Nat
  rpt : Nat
  part : Nat
  pair : Nat
  thr : Nat
  cause : Nat
  sub : Nat
  va : Word
  gpa : Word
  pc : Word
  value : Word
  deriving DecidableEq, Repr

/-- A replay held for a thread: its timeline condition, its TOKEN and the ring it came from (19 R395, R396). -/
structure Replay where
  cond : Option (Word × Word)
  token : Nat
  ownerQ : Bool
  deriving DecidableEq, Repr

/-- A set-aside context (18 R386): its thread, level, held groups; whether it is suspended and not replayed, with the SEQ and queue
of its record; whether it was set aside in tile mode; and the addresses of its eight binding records, for which the image has no
place. -/
structure Aside where
  tid : Nat
  level : Nat
  held : Byte
  waiting : Bool
  fseq : Nat
  fOwner : Bool
  tile : Bool
  recs : List Word
  deriving DecidableEq, Repr

/-- What the front end of a thread may change ahead of the vector instruction queue, and a rollback returns to (06 R152; 15 R323): its program
counter, level, scalar registers, flags, replay state, last fault, and the registers of level S. -/
structure Front where
  pc : Word
  sup : Bool
  s : Vector Word 32
  fcs : Word
  rps : Word
  repIx : Vector (BitVec 32) 6
  lastFault : Option LastFault
  tvb : Word
  tca : Word
  tpc : Word
  tva : Word
  atb : Word
  deriving DecidableEq, Repr

/-- An instruction in the vector instruction queue (06 R151): its word and the mode that decodes it, and the front end as it stood when it
entered. -/
structure Queued where
  word : BitVec 32
  tile : Bool
  front : Front
  /-- scalar registers that earlier queued instructions were then still to write -/
  owes : List (BitVec 5)
  /-- scalar registers of its own that the front end has since overwritten -/
  past : List (BitVec 5) := []
  /-- entries the front end has since pushed to q0, and popped from q1 and from the neighbours: a rollback undoes them (R152) -/
  pushed : Nat := 0
  popped : List Word := []
  poppedE : List Word := []
  poppedW : List Word := []
  deriving DecidableEq, Repr

/-- A control thread (06 R150 and the chapters of its registers). -/
structure Thread where
  run : Run
  /-- halted by the context engine (19 R400) -/
  ceHalted : Bool
  /-- the last save of this context was refused: its ADDR and CTL, for ctx.retry (19 R400, R401) -/
  refused : Option (Word × Word)
  /-- that save was to set the context aside (19 R402) -/
  refAside : Bool
  /-- the last context-engine command was a completed save with the pair part and the scratchpad (20 R420) -/
  fullSave : Bool
  /-- in a `wait` (09 R219) -/
  waiting : Bool
  /-- the front end has stopped fetching for the end of a time slice or a halt (19 R398) -/
  noFetch : Bool
  /-- pre-emption trims the next instruction at this element; 0 for none (19 R398 step 3) -/
  cut : Nat
  pc : Word
  /-- level S -/
  sup : Bool
  s : Vector Word 32
  vl : Word
  es : Word
  trc : Word
  tra : Word
  vty : Word
  tal : Word
  tm : Word
  tn : Word
  tk : Word
  fcs : Word
  tcr : Word
  rps : Word
  skz : Word
  wsel : BitVec 6
  ncfg : BitVec 2
  win : Vector Win 64
  cl : Vector Word 8
  tvb : Word
  tca : Word
  tpc : Word
  tva : Word
  atb : Word
  q0 : List Word
  q1 : List Word
  fromE : List Word
  fromW : List Word
  binds : Vector (Option Bind) 8
  /-- bounds captured by `rep` and the held indices IX (15 R321, R322) -/
  repBound : Vector (BitVec 32) 6
  repIx : Vector (BitVec 32) 6
  /-- the lookup configuration, 64 bytes, or empty (16 R342) -/
  lookup : List Byte
  tl : Vector Timeline 6
  short : Vector Short 5
  /-- priority, record number and iteration of the launch (19 R403) -/
  lq : Nat
  lrec : Nat
  iter : Nat
  debt : Nat
  /-- SEQ of the stopping record and whether it went to the owner's queue (19 R396) -/
  fseq : Nat
  fOwner : Bool
  lastFault : Option LastFault
  /-- the stopping record that waits for room (19 R392) -/
  toPost : List FaultRec
  replay : Option Replay
  /-- power leave held or asked for by tile mode (12 R266; 20 R418) -/
  leave : Bool
  leaveAsked : Bool
  /-- every committed write numbered below this goes before this thread's later writes (04 R121) -/
  barrier : Nat
  /-- sibling writes read by forwarding, and those the last fence.rel puts before later writes (04 R114, R121) -/
  fwd : List Nat
  fwdBar : List Nat
  /-- the number the next outbound request of the thread takes -/
  obNext : Nat
  /-- the vector instruction queue, oldest first: the instructions the front end has run ahead of (06 R151) -/
  vq : List Queued
  deriving DecidableEq, Repr

/-- One range-scoreboard entry (03 R92, R96). -/
structure Range where
  lo : Nat
  hi : Nat
  src : Bool
  thr : Nat
  ctx : Nat
  num : Nat
  /-- thread that issued the command (a neighbour's when the range came through a neighbour window) -/
  tid : Nat
  /-- committed writes numbered below this were issued before the entry and pass it (03 R95; 05 R135) -/
  seq : Nat
  deriving DecidableEq, Repr

/-- What belongs to a logical pair (06 R155; 01 R27; 12 R270; 18 R389). -/
structure Pair where
  req : BitVec 16
  held0 : Byte
  held1 : Byte
  xbar : BitVec 256
  /-- partition and partition-relative index (01 R25) -/
  part : Option Nat
  idx : Nat
  /-- thread that holds the matrix-tile unit (06 R162) -/
  tmu : Option Nat
  /-- weight-buffer slot descriptors with bit 63 valid (12 R270, R273; 19 R403) -/
  wb : Vector Word 16
  board : List Range
  paw : Word
  pac : Word
  deriving DecidableEq, Repr

inductive PartMode where
  | inactive | active | quiesced
  deriving DecidableEq, Repr

/-- One launch queue (18 R372). -/
structure LaunchQ where
  base : Word
  cap : Nat
  head : Nat
  tail : Nat
  deriving DecidableEq, Repr

/-- A record started and not retired: its next iteration, the dispatched iterations that have not executed kend, and whether every
iteration is dispatched (18 R373, R378 to R380; 19 R404). -/
structure Walk where
  prio : Nat
  j : Nat
  next : Nat
  live : List Nat
  whole : Bool
  deriving DecidableEq, Repr

/-- Captured capacities of a fault queue (19 R392). -/
structure FqCap where
  cap : Option Nat
  rcap : Option Nat
  deriving DecidableEq, Repr

/-- A partition (01 R25, R26, R28; 18 R372, R385, R386). -/
structure Part where
  mode : PartMode
  pairs : BitVec 256
  s2root : Word
  gplim : Word
  dirty : Word
  faultq : Word
  xbarAddr : Word
  prio : Nat
  atb0 : Word
  fq : FqCap
  lq : Vector LaunchQ 4
  walk : List Walk
  aging : Vector Nat 4
  /-- set-aside contexts, oldest first -/
  aside : List Aside
  tsl : Word
  cesav : Word
  deriving DecidableEq, Repr

/-- A power request waiting or granted: the asking thread, whether for tile mode, the command's context and number, its weight in W, and
whether it could not be granted at once (20 R418; 18 R389). -/
structure PowerReq where
  tid : Nat
  tile : Bool
  ctx : Nat
  num : Nat
  weight : Nat
  waited : Bool
  deriving DecidableEq, Repr

/-- A compute die (02 R67 to R69; 20 R418, R420). -/
structure Die where
  hctlEn : Bool
  hctlClr : Bool
  hmiss : Word
  budget : Nat
  granted : List PowerReq
  waiting : List PowerReq
  spare : Vector Byte 32
  /-- lane maps, keyed by slot * 64 + lane; an unlisted lane maps to itself -/
  lanes : List (Nat × Nat)
  /-- hotness entries, keyed by index; an unlisted entry is invalid: TAG, USC, STC, IXC -/
  hot : List (Nat × (Word × BitVec 32 × BitVec 32 × BitVec 32))
  deriving DecidableEq, Repr

/-- A cached combined translation (02 R45, R59): tags, page size class, bases, rights. -/
structure Tlb where
  die : Nat
  part : Nat
  asn : Nat
  vbase : Nat
  /-- 0 4 KiB, 1 64 KiB, 2 2 MiB, 3 1 GiB -/
  size : Nat
  pbase : Nat
  gbase : Nat
  /-- base and size class of the second-stage page (02 R68) -/
  s2base : Nat
  s2size : Nat
  r : Bool
  w : Bool
  x : Bool
  u : Bool
  d : Bool
  kind : BitVec 2
  nm : Bool
  hs : Bool
  deriving DecidableEq, Repr

/-- A cached table pointer (02 R59): where the walk that read it stood (its die, partition, address space, stage, level and the
address bits above the entry's reach), the table it names, and the guest-physical address it was read for or at. -/
structure WalkPtr where
  die : Nat
  part : Nat
  asn : Nat
  second : Bool
  level : Nat
  tag : Nat
  next : Nat
  gpa : Nat
  deriving DecidableEq, Repr

/-- What a committed write still has to do at memory. -/
inductive PendOp where
  | store (bytes : List Byte)
  /-- one nibble of a byte, which is read and rewritten (03 R99; 11 R251) -/
  | nib (hi : Bool) (v : BitVec 4)
  /-- one atomic add of a scatter-add, at a format of R97 under a captured FCS (04 R128) -/
  | add (fmt : BitVec 4) (fcs : Word) (elem : Nat) (v : Word)
  /-- one near-memory add (16 R332) -/
  | near (fmt : BitVec 4) (fcs : Word) (elem : Nat) (v : Word)
  /-- a remote-reduce packet: address, element index and operand of each add (15 R324) -/
  | packet (fmt : BitVec 4) (fcs : Word) (elems : List (Nat × Nat × Word)) (kind : BitVec 4)
  /-- a thread-timeline number (05 R138) -/
  | signal (n : Nat)
  deriving DecidableEq, Repr

/-- A committed write, near-memory add, packet or signal not yet performed at memory (04 R106 to R112). -/
structure Pend where
  seq : Nat
  tid : Nat
  /-- slice 0 to 7 of a lane group, 8 scalar, 9 none -/
  slice : Nat
  addr : Nat
  /-- virtual address and instruction, for a fault record about the write (19 R393) -/
  va : Word
  pc : Word
  op : PendOp
  /-- a release at scope .d or wider: never forwarded (04 R114) -/
  rel : Bool
  /-- own earlier writes below this number go first -/
  after : Nat
  /-- sibling writes that go first (04 R121) -/
  deps : List Nat
  /-- the number of its instruction's first write: elements of one instruction are in no order (04 R111) -/
  ins : Nat
  /-- performed at scope .p: it has reached the pair's memory port group (04 R108) -/
  port : Bool
  deriving DecidableEq, Repr

/-- What an engine command does. `finish`: every access but the completion record is made; `final`: the record too; both wait for
the acknowledgements of peer writes (05 R133). -/
inductive CmdOp where
  | copy | creduce | cgather | cxpar | nmopt | pklook | skbuild | skxchg | skpeel | finish | final
  deriving DecidableEq, Repr

/-- An accepted engine command, with what it captured at issue (05 R131, R135; 08 R193). -/
structure Cmd where
  tid : Nat
  ctx : Nat
  num : Nat
  op : CmdOp
  /-- the command record's bytes -/
  record : List Byte
  /-- other bytes captured: the lookup configuration and queries -/
  extra : List Byte
  words : List Word
  vty : Word
  fcs : Word
  skz : Word
  atb : Word
  sup : Bool
  /-- the address of the instruction that issued it (19 R393) -/
  pc : Word
  /-- the issuer's writes numbered below this go first (05 R135) -/
  after : Nat
  deps : List Nat
  /-- waits for, or holds, power leave: die and weight -/
  power : Option (Nat × Nat)
  /-- the other members see a failure already decided: DET of 15 R314 -/
  det : Nat
  deriving DecidableEq, Repr

/-- An outbound request's reply (01 R33; 20 R409). -/
inductive Reply where
  | none
  | data (bytes : List Byte)
  | refused
  deriving DecidableEq, Repr

/-- An outbound request handed to a host port or a link. `tid` is the agent that asks: a thread, or one of the agents numbered above them
(Machine/Ops.lean). -/
structure OutReq where
  tid : Nat
  k : Nat
  /-- the context and number of the command that asks, or none for an instruction -/
  cmd : Option (Nat × Nat)
  /-- a posted write, which awaits a peer's acknowledgement (04 R108) or may be refused -/
  posted : Bool
  addr : Nat
  len : Nat
  /-- virtual address and instruction, for a fault record about a refused write (19 R393) -/
  va : Word
  pc : Word
  reply : Reply
  /-- the scale-up port it was handed to; none for one to a host (20 R409) -/
  link : Option Nat := none
  /-- a command's share of a collective or a sketch exchange (05 R143, R144) -/
  share : Bool := false
  /-- it has acted at its target, or its operation runs to completion: the instruction is not discarded (04 R104; 18 R387) -/
  keep : Bool := false
  /-- access kind, for a fault record about a refused write (19 R393) -/
  acc : Nat := 1
  /-- base and size class of the sampled page an atomic counts on when it has acted (02 R67) -/
  hot : Option (Nat × Nat) := none
  deriving DecidableEq, Repr

/-- Where an outbound request leaves the module: a host port, a root port, or the links to a peer device (01 R16, R17). -/
inductive Link where
  | host (p : Nat)
  | root (p : Nat)
  | peer (dev : Nat)
  deriving DecidableEq, Repr

/-- The header of an outbound request: its way out, the address there (the 64-bit PCIe address has its upper 16 bits zero; a peer's is its
own system-physical address), and the Relaxed Ordering and ID-Based Ordering attributes (01 R16, R17; 05 R148). -/
structure Wire where
  link : Link
  addr : Nat
  relaxed : Bool
  idBased : Bool
  deriving DecidableEq, Repr

/-- What the module has sent: the model's record of posted writes, requests, sketches, collective inputs, interrupts and completions,
newest first. -/
inductive OutMsg where
  | posted (dest : Wire) (bytes : List Byte)
  | adds (dest : Wire) (fmt : BitVec 4) (elems : List (Nat × Nat × Word))
  | request (tid k : Nat) (dest : Wire) (len : Nat)
  | atomic (tid k : Nat) (dest : Wire) (op : AtomicOp) (wide : Bool) (v : Word)
  | cas (tid k : Nat) (dest : Wire) (cmp new : Word)
  /-- a command's own contribution to a collective or a sketch exchange: the device it goes to, the command's tag and its bytes (05
  R143, R144) -/
  | share (dev tag : Nat) (bytes : List Byte)
  /-- an MSI-X vector of a host port (20 R407) -/
  | msix (port vector : Nat)
  /-- a root-port device's request that its partition maps to a host or a peer, handed on there (20 R408) -/
  | relay (port k : Nat) (dest : Wire) (req : InReq)
  | completion (ok : Bool) (bytes : List Byte)
  /-- a bus-error exception on an application core: the core and the address (01 R36) -/
  | busError (core addr : Nat)
  deriving DecidableEq, Repr

/-- A page-migration slot (02 R70). `moving` holds the PTE entries read when the move began. -/
structure MigSlot where
  src : Word
  dst : Word
  ptea : Word
  ctl : Word
  busy : Bool
  stat : Nat
  moving : List Word
  deriving DecidableEq, Repr

/-- A context-engine slot (19 R400). -/
structure CeSlot where
  ctl : Word
  addr : Word
  res : Word
  busy : Bool
  stat : Nat
  deriving DecidableEq, Repr

/-- One master's copy of OCLM (20 R414). -/
structure Oclm where
  cmd : BitVec 2
  tgt : BitVec 3
  res : BitVec 3
  deriving DecidableEq, Repr

/-- What the schedule does next (log entry 2). -/
inductive Move where
  | event (i : Instr)
  | issue (tid : BitVec 9)
  /-- an application core executes an instruction of owner code (02 R63; 20 R410) -/
  | core (c : BitVec 4) (i : Instr)
  /-- the boot ROM, or the stage that runs, takes its next step (20 R411, R412) -/
  | boot
  /-- owner code raises an MSI-X vector of a host port (20 R407) -/
  | msix (port : BitVec 1) (vector : BitVec 6)
  /-- the inbound requests that wait are tried again, in order (05 R146, R147, R149) -/
  | inbound
  deriving DecidableEq, Repr

/-- An application core: its scalar registers, program counter and floating-point control (20 R410). -/
structure Core where
  s : Vector Word 32
  pc : Word
  fcs : Word
  deriving DecidableEq, Repr

def Core.reset : Core := ⟨Vector.replicate 32 0, 0, 0⟩

/-- What an inbound posted request that passed its checks does: at memory, at a register, or at an intake window; whether the links
acknowledge it, and the guest pages whose dirty bits it sets (01 R32). -/
inductive InAct where
  | mem (a : Nat) (req : InReq) (ack : Bool) (dirty : List (Nat × Nat))
  | reg (m off : Nat) (bytes : List Byte)
  | window (path : Path) (off : Nat) (bytes : List Byte) (ack : Bool) (dirty : List (Nat × Nat))
  deriving DecidableEq, Repr

/-- An inbound posted request that waits: its source (host ports 0 and 1, else the device number of a peer), and whether it carries Relaxed
Ordering (05 R147, R149). -/
structure InWait where
  src : Nat
  relaxed : Bool
  act : InAct
  deriving DecidableEq, Repr

/-- The partition command in progress (01 R28). -/
inductive PcmdJob where
  | idle
  | activate (p : Part)
  | quiesce
  | deactivate
  deriving DecidableEq, Repr

/-- The boot flash and fuses: the module's inputs to boot (20 R411; log entry 11). -/
structure Flash where
  /-- stage 1 copies A and B, stage 2 copies A and B -/
  images : List (List Byte)
  keyHash : List Byte
  rollback1 : Nat
  rollback2 : Nat
  /-- eligibility set by stage 2's signed configuration -/
  elig : BitVec 4
  deriving DecidableEq, Repr

structure State where
  /-- the model's own: the moves still to come, and the thread that moves when there are none -/
  agenda : List Move
  cur : BitVec 9
  /-- scalar registers of the application core that makes this move, if one does -/
  app : Option (Vector Word 32)
  /-- the model's own: numbers free values and committed writes -/
  freeCtr : Nat
  wseq : Nat
  /-- system-physical memory: HBM, die pools, scratchpads -/
  mem : List Host.Cell
  /-- 8-byte words with an uncorrectable error, by address (20 R419) -/
  memLost : List Nat
  /-- register storage of the physical pairs -/
  regs : List Host.Cell
  /-- register bytes whose parity fails, lost weight-buffer bytes among them -/
  regBad : List Nat
  /-- control-die tables by offset: peer windows, host filter, flow table, route table, attestation -/
  ctl : List Host.Cell
  threads : List (Nat × Thread)
  pairs : List (Nat × Pair)
  parts : List (Nat × Part)
  dies : List (Nat × Die)
  /-- the dies' L2 TLBs (02 R59) -/
  tlb : List Tlb
  /-- the pairs' L1 TLBs, most recently used first -/
  tlb1 : List (Nat × Tlb)
  /-- the dies' walk caches -/
  wcache : List WalkPtr
  pend : List Pend
  cmds : List Cmd
  obs : List OutReq
  out : List OutMsg
  /-- dirty-log filters: agent, partition, guest page (02 R52) -/
  filt : List (Nat × Nat × Nat)
  ptb : Word
  pcmdCmd : BitVec 3
  pcmdPart : BitVec 6
  pcmdRes : BitVec 3
  pcmdJob : PcmdJob
  devn : BitVec 7
  ofq : Word
  ownerFq : FqCap
  rqport : BitVec 16
  rqdrop : Word
  elig : BitVec 4
  owState : BitVec 2
  owner : BitVec 3
  offerTgt : BitVec 3
  acceptWait : Bool
  /-- the owner's path is failing: the first 1 s has passed, or its link is down (20 R416) -/
  pathFail : Bool
  dllUp : Vector Bool 2
  oclm : Vector Oclm 4
  bootErr : BitVec 8
  bootCopy : BitVec 1
  bootPhase : BitVec 3
  /-- in recovery: the stage that failed (20 R411) -/
  failedStage : Nat
  rgo : Bool
  svn1 : BitVec 32
  svn2 : BitVec 32
  meas : List Byte
  flash : Flash
  elog : Word
  elogt : Word
  mgport : BitVec 16
  rpa : Vector Word 4
  linkUp : Vector Bool 16
  atctl : BitVec 2
  report : List Byte
  mig : Vector MigSlot 8
  ce : Vector CeSlot 8
  /-- 54 V input power over its limit (20 R418) -/
  overPower : Bool
  /-- spares brought in (20 R421): a port with 0 for its spare lane or 1 for a lane retired, 16 + unit with the address of a row -/
  spares : List (Nat × Nat)
  /-- Ethernet frames handed to the owner's firmware, oldest first (20 R407) -/
  frames : List (Nat × List Byte)
  /-- Ethernet frames that carry fragments of datagrams not yet whole (18 R368) -/
  frags : List (Nat × List Byte)
  /-- inbound posted requests that wait, oldest first (05 R146, R147, R149) -/
  inq : List InWait
  /-- records of no thread bound for the owner's fault queue while the module has no owner (20 R416) -/
  ownerWait : List FaultRec
  /-- the sixteen application cores; an unlisted core is as at reset (20 R410) -/
  cores : List (Nat × Core)
  deriving DecidableEq, Repr

/-- Descriptor k of the equal layout for 32 registers (03 R76, R77). -/
def resetWin (k : Nat) : Win := if k < 32 then ⟨BitVec.ofNat 10 (k * 32), 32⟩ else ⟨0, 0⟩

def Thread.reset : Thread where
  run := .free
  ceHalted := false
  refused := none
  refAside := false
  fullSave := false
  waiting := false
  noFetch := false
  cut := 0
  pc := 0
  sup := false
  s := Vector.replicate 32 0
  vl := 0
  es := 0
  trc := 0
  tra := 0
  vty := 0x1001
  tal := 0
  tm := 0
  tn := 0
  tk := 0
  fcs := 0
  tcr := 0
  rps := 0
  skz := 0
  wsel := 0
  ncfg := 2
  win := Vector.ofFn fun k => resetWin k.val
  cl := Vector.replicate 8 0
  tvb := 0
  tca := 0
  tpc := 0
  tva := 0
  atb := 0
  q0 := []
  q1 := []
  fromE := []
  fromW := []
  binds := Vector.replicate 8 none
  repBound := Vector.replicate 6 0
  repIx := Vector.replicate 6 0
  lookup := []
  tl := Vector.replicate 6 ⟨0, 0, []⟩
  short := Vector.replicate 5 ⟨[], false⟩
  lq := 0
  lrec := 0
  iter := 0
  debt := 0
  fseq := 0
  fOwner := false
  lastFault := none
  toPost := []
  replay := none
  leave := false
  leaveAsked := false
  barrier := 0
  fwd := []
  fwdBar := []
  obNext := 0
  vq := []

def Pair.reset : Pair where
  req := 0xAA55
  held0 := 0x0F
  held1 := 0xF0
  xbar := 0
  part := none
  idx := 0
  tmu := none
  wb := Vector.replicate 16 0
  board := []
  paw := 0
  pac := 0

def Part.reset : Part where
  mode := .inactive
  pairs := 0
  s2root := 0
  gplim := 0
  dirty := 0
  faultq := 0
  xbarAddr := 0
  prio := 0
  atb0 := 0
  fq := ⟨none, none⟩
  lq := Vector.replicate 4 ⟨0, 0, 0, 0⟩
  walk := []
  aging := Vector.replicate 4 0
  aside := []
  tsl := 1000
  cesav := 0

def Die.reset : Die where
  hctlEn := false
  hctlClr := false
  hmiss := 0
  budget := 640
  granted := []
  waiting := []
  spare := Vector.ofFn fun k => BitVec.ofNat 8 k.val
  lanes := []
  hot := []

/-- The module right after reset: the boot ROM has not yet run (20 R411, R412). What the spec gives no value, PTB among it (01 R26), is 0 (DESIGN CHOICE,
log entry 3). -/
def State.reset : State where
  agenda := []
  cur := 0
  app := none
  freeCtr := 0
  wseq := 0
  mem := []
  memLost := []
  regs := []
  regBad := []
  ctl := []
  threads := []
  pairs := []
  parts := []
  dies := []
  tlb := []
  tlb1 := []
  wcache := []
  pend := []
  cmds := []
  obs := []
  out := []
  filt := []
  ptb := 0
  pcmdCmd := 0
  pcmdPart := 0
  pcmdRes := 0
  pcmdJob := .idle
  devn := 0
  ofq := 0
  ownerFq := ⟨none, none⟩
  rqport := 0
  rqdrop := 0
  elig := 0
  owState := 0
  owner := 7
  offerTgt := 0
  acceptWait := false
  pathFail := false
  dllUp := Vector.replicate 2 true
  oclm := Vector.replicate 4 ⟨0, 0, 0⟩
  bootErr := 0
  bootCopy := 0
  bootPhase := 0
  failedStage := 0
  rgo := false
  svn1 := 0
  svn2 := 0
  meas := []
  flash := ⟨[], [], 0, 0, 0⟩
  elog := 0
  elogt := 0
  mgport := 0
  rpa := Vector.replicate 4 0
  linkUp := Vector.replicate 16 false
  atctl := 0
  report := []
  mig := Vector.replicate 8 ⟨0, 0, 0, 0, false, 0, []⟩
  ce := Vector.replicate 8 ⟨0, 0, 0, false, 0⟩
  overPower := false
  spares := []
  frames := []
  frags := []
  inq := []
  ownerWait := []
  cores := []

end Sys2Proof.Machine
end

