-- ==== Sys2Proof/Machine/Ops.lean ====
section
/-! DEFINITION. Named operations over the stores, registers and queues, and taking an exception and returning from
one (09 R224 to R226). Every family of instructions is written over these. -/

namespace Sys2Proof.Machine

/-! ## Sparse stores -/

/-- The value under a key, or the store's default. -/
def mapGet {α : Type} (d : α) : List (Nat × α) → Nat → α
  | [], _ => d
  | (k', v) :: t, k => if k = k' then v else mapGet d t k

/-- Writes one key, keeping ascending keys. -/
def mapPut {α : Type} (k : Nat) (v : α) : List (Nat × α) → List (Nat × α)
  | [] => [(k, v)]
  | (k', v') :: t =>
    if k < k' then (k, v) :: (k', v') :: t else if k = k' then (k, v) :: t else (k', v') :: mapPut k v t

/-- Removes one key. -/
def mapDel {α : Type} (k : Nat) (l : List (Nat × α)) : List (Nat × α) := l.filter fun e => e.1 != k

/-- A byte of a byte store; an unlisted byte reads 0 (log entry 4). -/
def cellGet (m : List Host.Cell) (a : Nat) : Byte := mapGet 0 m a

/-- Writes a byte of a byte store; writing 0 unlists it, so equal contents are equal lists. -/
def cellPut (m : List Host.Cell) (a : Nat) (b : Byte) : List Host.Cell :=
  if b = 0 then mapDel a m else mapPut a b m

/-- The canonical form of a byte store: keys strictly rise and no listed byte is 0. -/
def cellsWf : List Host.Cell → Bool
  | [] => true
  | [(_, b)] => b != 0
  | (a, b) :: (a', b') :: t => b != 0 && decide (a < a') && cellsWf ((a', b') :: t)

/-- Memory's canonical form. -/
def Memory.wf (m : List Host.Cell) : Bool := cellsWf m

/-- Consecutive bytes. -/
def cellsGet (m : List Host.Cell) (a n : Nat) : List Byte := (List.range n).map fun i => cellGet m (a + i)

/-- Writes consecutive bytes. -/
def cellsPut (m : List Host.Cell) (a : Nat) : List Byte → List Host.Cell
  | [] => m
  | b :: t => cellsPut (cellPut m a b) (a + 1) t

/-- Zeroes a range. -/
def cellsZero (m : List Host.Cell) (a n : Nat) : List Host.Cell := m.filter fun c => c.1 < a || a + n ≤ c.1

/-- The listed bytes of a store in a range, moved to another offset. -/
def sparse (m : List Host.Cell) (src n off : Nat) : List Host.Cell :=
  (m.filter fun c => decide (src ≤ c.1) && decide (c.1 < src + n)).map fun c => (off + (c.1 - src), c.2)

/-- Little-endian value of bytes (00 R5). -/
def leNat : List Byte → Nat
  | [] => 0
  | b :: t => b.toNat + 256 * leNat t

/-- The n little-endian bytes of a value. -/
def leBytes : Nat → Nat → List Byte
  | 0, _ => []
  | n + 1, v => BitVec.ofNat 8 v :: leBytes n (v / 256)

/-- Field of n bytes at offset o of a record. -/
def recField (r : List Byte) (o n : Nat) : Nat := leNat ((r.drop o).take n)

/-- Whether bytes o to o + n - 1 of a record are all 0. -/
def recZero (r : List Byte) (o n : Nat) : Bool := ((r.drop o).take n).all (· == 0)

/-- Bits [hi:lo] of a word as a number. -/
def bits (w : Word) (hi lo : Nat) : Nat := w.toNat / 2 ^ lo % 2 ^ (hi + 1 - lo)

/-- A word with bits [hi:lo] replaced. -/
def setBits (w : Word) (hi lo v : Nat) : Word :=
  let m : Word := (BitVec.ofNat 64 (2 ^ (hi + 1 - lo) - 1)) <<< lo
  (w &&& ~~~m) ||| ((BitVec.ofNat 64 v <<< lo) &&& m)

def w64 (n : Nat) : Word := BitVec.ofNat 64 n

/-! ## Records by key -/

def State.th (s : State) (tid : Nat) : Thread := mapGet Thread.reset s.threads tid
def State.setTh (s : State) (tid : Nat) (t : Thread) : State := { s with threads := mapPut tid t s.threads }
def State.pair (s : State) (l : Nat) : Pair := mapGet Pair.reset s.pairs l
def State.setPair (s : State) (l : Nat) (p : Pair) : State := { s with pairs := mapPut l p s.pairs }
def State.part (s : State) (n : Nat) : Part := mapGet Part.reset s.parts n
def State.setPart (s : State) (n : Nat) (p : Part) : State := { s with parts := mapPut n p s.parts }
def State.die (s : State) (d : Nat) : Die := mapGet Die.reset s.dies d
def State.setDie (s : State) (d : Nat) (x : Die) : State := { s with dies := mapPut d x s.dies }

/-- The moving thread's number, 2 L + t. -/
def State.tid (s : State) : Nat := s.cur.toNat
/-- The moving thread. -/
def State.me (s : State) : Thread := s.th s.tid
def State.setMe (s : State) (t : Thread) : State := s.setTh s.tid t
/-- Logical pair of a thread. -/
def pairOf (tid : Nat) : Nat := tid / 2
/-- The moving thread's pair number and pair. -/
def State.myL (s : State) : Nat := pairOf s.tid
def State.myPair (s : State) : Pair := s.pair s.myL
/-- The moving thread's partition number; 0 when its pair has none. -/
def State.myPart (s : State) : Nat := s.myPair.part.getD 0
/-- Pairs of a partition (01 R25). -/
def State.pairCount (s : State) (n : Nat) : Nat :=
  let m := (s.part n).pairs
  ((List.range 256).filter fun l => m.getLsbD l).length
/-- The logical pair with partition-relative index j. -/
def State.pairAt (s : State) (n j : Nat) : Option Nat :=
  let m := (s.part n).pairs
  ((List.range 256).filter fun l => m.getLsbD l)[j]?
/-- Physical pair of a logical pair (01 R14). -/
def State.physPair (s : State) (l : Nat) : Nat :=
  let d := l / 32
  d * 36 + ((s.die d).spare[l % 32]'(Nat.mod_lt _ (by decide))).toNat
/-- Physical lane of a logical lane (20 R420). -/
def State.physLane (s : State) (l lane : Nat) : Nat :=
  let d := s.die (l / 32)
  mapGet lane d.lanes ((l % 32) * 64 + lane)

/-- A free number, fresh each time (log entry 5). -/
def State.fresh (s : State) : Nat × State := (s.freeCtr, { s with freeCtr := s.freeCtr + 1 })

/-! ## Scalar registers (09 R201) -/

def Thread.sreg (t : Thread) (n : BitVec 5) : Word := if n = 0 then 0 else t.s[n.toNat]'n.isLt
def Thread.setS (t : Thread) (n : BitVec 5) (v : Word) : Thread :=
  if n = 0 then t else { t with s := t.s.set n.toNat v n.isLt }
/-- A scalar register of the moving thread. -/
def State.sr (s : State) (n : BitVec 5) : Word := s.me.sreg n
/-- Writes a scalar register of the moving thread; a write to s0 is discarded. -/
def State.setS (s : State) (n : BitVec 5) (v : Word) : State := s.setMe (s.me.setS n v)

/-! ## The system-physical map (01 R12 to R17) -/

inductive Region where
  | hbm | pool (d : Nat) | scratch (p : Nat) | ctl (off : Nat)
  | peer (dev off : Nat) | hostPort (p : Nat) | rootPort (p : Nat) | hole
  deriving DecidableEq, Repr

/-- Whether an aperture offset lies in one of the blocks of R15. -/
def apertureBlock (o : Nat) : Bool :=
  o < 0x10000000 || (0x10000000 ≤ o && o < 0x18000000) || (0x20000000 ≤ o && o < 0x2C000000) ||
  (0x30000000 ≤ o && o < 0x34000000) || (0x40000000 ≤ o && o < 0x44000000)

/-- What an address of the system-physical space names. -/
def State.region (s : State) (a : Nat) : Region :=
  if a < 0x009000000000 then .hbm
  else if 0x010000000000 ≤ a && a < 0x010100000000 then
    let o := a - 0x010000000000
    if o % 0x20000000 < 0x14000000 then .pool (o / 0x20000000) else .hole
  else if 0x020000000000 ≤ a && a < 0x020480000000 then
    let o := a - 0x020000000000
    if o % 0x4000000 < 0x3000000 then .scratch (o / 0x4000000) else .hole
  else if 0x030000000000 ≤ a && a < 0x030100000000 then
    let o := a - 0x030000000000
    if apertureBlock o then .ctl o else .hole
  else if 0x1000000000000 ≤ a && a < 0x8000000000000 then
    let d := a / 2 ^ 44 % 128
    if s.devn ≠ 0 && 16 ≤ d && d ≠ s.devn.toNat then .peer d (a % 2 ^ 44) else .hole
  else if 0x8000000000000 ≤ a && a < 0x10000000000000 then
    let c := a / 2 ^ 48 % 8
    if c = 0 then .hostPort 0 else if c = 1 then .hostPort 1 else if 4 ≤ c then .rootPort (c - 4) else .hole
  else .hole

/-- First system-physical address of a scratchpad and of a die pool. -/
def scratchBase (p : Nat) : Nat := 0x020000000000 + p * 0x4000000
def poolBase (d : Nat) : Nat := 0x010000000000 + d * 0x20000000

/-- HBM and the used die pools. -/
def Region.isMain : Region → Bool
  | .hbm => true
  | .pool _ => true
  | _ => false

/-- The memories of the module that hold bytes. -/
def Region.isLocal : Region → Bool
  | .hbm => true
  | .pool _ => true
  | .scratch _ => true
  | _ => false

/-- Whether a range lies wholly in HBM or one used die pool. -/
def State.mainRange (s : State) (a n : Nat) : Bool :=
  (s.region a).isMain && (n = 0 || s.region (a + n - 1) == s.region a)

/-! ## Memory of the module -/

def State.byte (s : State) (a : Nat) : Byte := cellGet s.mem a
def State.bytes (s : State) (a n : Nat) : List Byte := cellsGet s.mem a n
def State.word (s : State) (a : Nat) : Word := w64 (leNat (s.bytes a 8))

/-- Writes bytes at memory. A word the write covers whole loses its uncorrectable error (20 R419). -/
def State.putBytes (s : State) (a : Nat) (bs : List Byte) : State :=
  { s with
    mem := cellsPut s.mem a bs
    memLost := s.memLost.filter fun w => !(decide (a ≤ w) && decide (w + 8 ≤ a + bs.length)) }
def State.putWord (s : State) (a : Nat) (v : Word) : State := s.putBytes a (leBytes 8 v.toNat)

/-- Whether any byte of a range lies in an uncorrectable word. -/
def State.lostIn (s : State) (a n : Nat) : Bool := s.memLost.any fun w => decide (w < a + n) && decide (a < w + 8)

/-- The header of an outbound request to a system-physical address outside the module; its attributes are always clear (01 R16, R17; 05
R148). -/
def State.wire (s : State) (a : Nat) : Wire :=
  match s.region a with
  | .hostPort p => ⟨.host p, a % 2 ^ 48, false, false⟩
  | .rootPort p => ⟨.root p, a % 2 ^ 48, false, false⟩
  | .peer d off => ⟨.peer d, off, false, false⟩
  | _ => ⟨.host 0, a, false, false⟩

/-- Whether a device number reaches a peer: its route entry valid and the port's link up (20 R409). -/
def State.reaches (s : State) (dev : Nat) : Bool :=
  let e := cellGet s.ctl (0x70000 + dev)
  e.getLsbD 7 && (s.linkUp[e.toNat % 16]?).getD false

/-- Port of a peer device by the route table. -/
def State.routePort (s : State) (dev : Nat) : Nat := (cellGet s.ctl (0x70000 + dev)).toNat % 16

/-- Whether an address is that of a peer the links do not reach. -/
def State.cutOff (s : State) (a : Nat) : Bool :=
  match s.region a with
  | .peer d _ => !s.reaches d
  | _ => false

/-- The agents whose outbound requests are numbered above the threads': the application cores, the root ports, and the module's own
machinery. -/
def coreAgent (c : Nat) : Nat := 512 + c
def rootAgent (port : Nat) : Nat := 528 + port
def moduleAgent : Nat := 532

/-- Hands a request of such an agent to its port or link: `msg` is given the request's number. A posted write to a peer awaits its
acknowledgement (04 R108), one to a host only a refusal; a non-posted request that the links cannot send is refused at once (20 R409). -/
def State.sendAs (s : State) (agent a n : Nat) (posted : Bool) (msg : Nat → OutMsg) : State :=
  let link : Option Nat := match s.region a with
    | .peer d _ => some (s.routePort d)
    | _ => none
  let ok := posted || !s.cutOff a
  { s with
    out := if ok then msg s.wseq :: s.out else s.out, wseq := s.wseq + 1
    obs := s.obs ++ [{ tid := agent, k := s.wseq, cmd := none, posted := posted, addr := a, len := n, va := 0, pc := 0
                       reply := if ok then .none else .refused, link := link }] }

/-- The writing of bytes at a system-physical address by an agent above the threads: local memory is written, a host or peer address is
handed to its port, anything else is dropped. -/
def State.putFor (s : State) (agent a : Nat) (bs : List Byte) : State :=
  match s.region a with
  | .hbm | .pool _ | .scratch _ => s.putBytes a bs
  | .peer _ _ | .hostPort _ | .rootPort _ =>
    if s.cutOff a then s else s.sendAs agent a bs.length true fun _ => .posted (s.wire a) bs
  | _ => s

/-- The same by the module's own machinery. -/
def State.sysPut (s : State) (a : Nat) (bs : List Byte) : State := s.putFor moduleAgent a bs

/-! ## Register storage (03 R73, R74, R85, R102; the layout of the store is the model's own) -/

def mainOff (lane : Nat) : Nat := lane * 8192
def nearOff (lane : Nat) : Nat := 0x88000 + lane * 2048
def maskOff (lane : Nat) : Nat := 0xAA000 + lane * 2048
def accOff (a : Nat) : Nat := 0xCC000 + a * 40960
def weightOff (slot : Nat) : Nat := 0x200000 + slot * 65536
def regKey (pp off : Nat) : Nat := pp * 0x400000 + off

def State.regBytes (s : State) (key n : Nat) : List Byte := cellsGet s.regs key n
/-- Whether any register byte of a range fails its parity (03 R103). -/
def State.regFails (s : State) (key n : Nat) : Bool := s.regBad.any fun k => decide (key ≤ k) && decide (k < key + n)
/-- Writes register bytes; a write with correct parity clears the failure (03 R103). -/
def State.putReg (s : State) (key : Nat) (bs : List Byte) : State :=
  { s with
    regs := cellsPut s.regs key bs
    regBad := s.regBad.filter fun k => !(decide (key ≤ k) && decide (k < key + bs.length)) }
def State.zeroReg (s : State) (key n : Nat) : State :=
  { s with
    regs := cellsZero s.regs key n
    regBad := s.regBad.filter fun k => !(decide (key ≤ k) && decide (k < key + n)) }

/-! ## Lanes (03 R80; 06 R155) -/

/-- Lane groups held by a thread. -/
def State.held (s : State) (tid : Nat) : Byte :=
  let p := s.pair (pairOf tid)
  if tid % 2 = 0 then p.held0 else p.held1
def groupsOf (h : Byte) : List Nat := (List.range 8).filter fun g => h.getLsbD g
/-- L, the lanes the thread holds. -/
def State.lanes (s : State) (tid : Nat) : Nat := 8 * (groupsOf (s.held tid)).length
/-- Logical lane of the pair that is the thread's lane l. -/
def State.laneOf (s : State) (tid l : Nat) : Nat := ((groupsOf (s.held tid))[l / 8]?).getD 0 * 8 + l % 8

/-- Zeroes the main-bank slices, near-bank registers and, where asked, masks of the thread's lanes (03 R77, R88). -/
def State.zeroLanes (s : State) (tid : Nat) (masks : Bool) : State :=
  let l := pairOf tid
  let pp := s.physPair l
  (List.range (s.lanes tid)).foldl (fun (s : State) i =>
    let pl := s.physLane l (s.laneOf tid i)
    let s := s.zeroReg (regKey pp (mainOff pl)) 8192
    let s := s.zeroReg (regKey pp (nearOff pl)) 2048
    if masks then s.zeroReg (regKey pp (maskOff pl)) 2048 else s) s

/-! ## The owner's error log (20 R417) -/

def State.logError (s : State) (kind unit addr count : Nat) : State :=
  let base := bits s.elog 51 12 * 4096
  if base = 0 then s
  else
    let n := s.elogt.toNat
    let size := 2 ^ (bits s.elog 3 0 + 7)
    let entry := leBytes 1 kind ++ leBytes 1 unit ++ leBytes 6 0 ++ leBytes 8 addr ++ leBytes 8 count ++ leBytes 8 (n + 1)
    { s.sysPut (base + n % size * 32) entry with elogt := s.elogt + 1 }

/-- A write by an agent above the threads; one to a peer that the links do not reach is dropped and logged (20 R409). -/
def State.writeFor (s : State) (agent a : Nat) (bs : List Byte) : State :=
  if s.cutOff a then
    match s.region a with
    | .peer d _ => s.logError 7 (s.routePort d) a 1
    | _ => s
  else s.putFor agent a bs
/-- A write by the module's own machinery. -/
def State.sysWrite (s : State) (a : Nat) (bs : List Byte) : State := s.writeFor moduleAgent a bs

/-! ## Fault queues (19 R391 to R393) -/

/-- The 64 bytes of a fault record. -/
def FaultRec.bytes (r : FaultRec) (seq : Nat) : List Byte :=
  leBytes 1 r.kind ++ [r.flg] ++ leBytes 1 r.lvl ++ leBytes 1 r.acc ++ leBytes 1 r.rpt ++ leBytes 1 r.part ++
  leBytes 1 r.pair ++ leBytes 1 r.thr ++ leBytes 1 r.cause ++ leBytes 1 r.sub ++ leBytes 6 0 ++ leBytes 8 r.va.toNat ++
  leBytes 8 r.gpa.toNat ++ leBytes 8 r.pc.toNat ++ leBytes 8 r.value.toNat ++ leBytes 8 seq ++ leBytes 8 0

/-- Base of a fault queue; 0 for the owner's when there is none (02 R57). -/
def State.fqBase (s : State) (ownerQ : Bool) (part : Nat) : Nat :=
  if ownerQ then bits s.ofq 51 12 * 4096 else (s.part part).faultq.toNat / 64 * 64

/-- The captured capacities of a queue, after reading them where none or an out-of-range one is held (R392). -/
def State.fqCaps (s : State) (ownerQ : Bool) (part : Nat) : Option Nat × Option Nat × State :=
  let base := s.fqBase ownerQ part
  let old := if ownerQ then s.ownerFq else (s.part part).fq
  let rd (o : Option Nat) (a : Nat) : Nat :=
    match o with
    | some c => c
    | none => leNat (s.bytes a 4)
  let ok (n : Nat) : Option Nat := if 1 ≤ n && n ≤ 2 ^ 20 then some n else none
  let cap := ok (rd old.cap base)
  let rcap := ok (rd old.rcap (base + 4))
  let s' := if ownerQ then { s with ownerFq := ⟨cap, rcap⟩ }
    else s.setPart part { s.part part with fq := ⟨cap, rcap⟩ }
  (cap, rcap, s')

/-- Adds one to a saturating 64-bit counter in memory. -/
def State.bump (s : State) (a : Nat) : State :=
  let v := leNat (s.bytes a 8)
  if v + 1 < 2 ^ 64 then s.sysWrite a (leBytes 8 (v + 1)) else s

/-- Posts a record: the SEQ it took, or none where it must wait or was dropped (R392). While the module has no owner every record bound
for the owner's queue waits (20 R416); one that stops a thread waits with its thread. -/
def State.post (s : State) (r : FaultRec) : Option Nat × State :=
  let base := s.fqBase r.ownerQ r.part
  if r.ownerQ && s.owState == 0 then (none, if r.kind = 2 then { s with ownerWait := s.ownerWait ++ [r] } else s)
  else if r.ownerQ && base = 0 then (none, s)
  else
    let c := s.fqCaps r.ownerQ r.part
    let s := c.2.2
    let tail := leNat (s.bytes (base + 0x10) 8)
    let head := leNat (s.bytes (base + 8) 8)
    match c.1 with
    | some cap =>
      if (tail + 2 ^ 64 - head) % 2 ^ 64 = cap then
        (none, if r.kind = 2 ∨ r.kind = 3 ∨ r.kind = 6 then s.bump (base + 0x18) else s)
      else
        let s := s.sysWrite (base + 0x40 + tail % cap * 64) (r.bytes (tail + 1))
        (some (tail + 1), s.sysWrite (base + 0x10) (leBytes 8 (tail + 1)))
    | none => (none, if r.kind = 2 ∨ r.kind = 3 ∨ r.kind = 6 then s.bump (base + 0x18) else s)

/-- Posts a record that stops a thread, which waits with the thread while there is no room. -/
def State.postStop (s : State) (tid : Nat) (r : FaultRec) : State :=
  match s.post r with
  | (some seq, s) => s.setTh tid { s.th tid with fseq := seq, fOwner := r.ownerQ }
  | (none, s) => s.setTh tid { s.th tid with fseq := 0, fOwner := r.ownerQ, toPost := (s.th tid).toPost ++ [r] }

/-- A record about a thread, the fields of R393 it does not name being 0. -/
def State.recFor (s : State) (tid : Nat) (ownerQ : Bool) (kind : Nat) : FaultRec :=
  let p := s.pair (pairOf tid)
  { ownerQ := ownerQ, kind := kind, flg := 0, lvl := 0, acc := 0, rpt := 0, part := p.part.getD 0, pair := p.idx,
    thr := tid % 2, cause := 0, sub := 0, va := 0, gpa := 0, pc := (s.th tid).pc, value := 0 }

/-! ## Completing an instruction, and traps -/

/-- Whether replay applies to the thread: a replay in progress, at its level, outside a handler (15 R322). -/
def Thread.replaying (t : Thread) : Bool :=
  t.rps.getLsbD 16 && (t.rps.getLsbD 17 == t.sup) && !t.tca.getLsbD 17

/-- Writes s20 to s(19 + d) from indices (15 R322). -/
def Thread.loadIx (t : Thread) (ix : Vector (BitVec 32) 6) (d : Nat) : Thread :=
  (List.range (Nat.min d 6)).foldl (fun (t : Thread) l => t.setS (BitVec.ofNat 5 (20 + l)) ((ix[l]?.getD 0).zeroExtend 64)) t

/-- Advances the held indices, level 0 fastest; true when every level wrapped (15 R322). -/
def advanceIx (bound ix : Vector (BitVec 32) 6) (dims : Nat) : Vector (BitVec 32) 6 × Bool :=
  (List.range (Nat.min dims 6)).foldl (fun (acc : Vector (BitVec 32) 6 × Bool) l =>
    if acc.2 then
      let v := (acc.1[l]?.getD 0) + 1
      if v = bound[l]?.getD 0 then (acc.1.setIfInBounds l 0, true) else (acc.1.setIfInBounds l v, false)
    else acc) (ix, true)

/-- The body word POS of a replay has executed (15 R322). -/
def Thread.advanceReplay (t : Thread) : Thread :=
  let pos := bits t.rps 12 8
  let len := bits t.rps 4 0
  if pos < len then { t with rps := setBits t.rps 12 8 (pos + 1), pc := t.pc + 4 }
  else
    let dims := bits t.rps 15 13
    match advanceIx t.repBound t.repIx dims with
    | (ix, true) =>
      let t := { t.loadIx t.repIx dims with repIx := ix }
      { t with rps := setBits (setBits t.rps 16 16 0) 12 8 (pos + 1), pc := t.pc + 4 }
    | (ix, false) =>
      let t := { t with repIx := ix }.loadIx ix dims
      { t with rps := setBits t.rps 12 8 0, pc := t.pc - w64 (4 * len) }

/-- The instruction completes: the pc moves to the next word, and a repeated fault starts its count anew (02 R58). -/
def Thread.retire (t : Thread) : Thread :=
  let t := { t with lastFault := none }
  if t.replaying then t.advanceReplay else { t with pc := t.pc + 4 }

def State.retire (s : State) : State := s.setMe s.me.retire

/-- The instruction completes by a jump. -/
def State.jump (s : State) (target : Word) : State := s.setMe { s.me with lastFault := none, pc := target }

/-- The front end of a thread (06 R152). -/
def Thread.front (t : Thread) : Front :=
  ⟨t.pc, t.sup, t.s, t.fcs, t.rps, t.repIx, t.lastFault, t.tvb, t.tca, t.tpc, t.tva, t.atb⟩
def Thread.withFront (t : Thread) (f : Front) : Thread :=
  { t with
    pc := f.pc, sup := f.sup, s := f.s, fcs := f.fcs, rps := f.rps, repIx := f.repIx, lastFault := f.lastFault
    tvb := f.tvb, tca := f.tca, tpc := f.tpc, tva := f.tva, atb := f.atb }

/-- Causes of 09 R222. -/
def cTranslation : Nat := 1
def cPermission : Nat := 2
def cMisaligned : Nat := 3
def cArithmetic : Nat := 4
def cCapacity : Nat := 5
def cPageBudget : Nat := 6
def cFieldOverflow : Nat := 7
def cDataLost : Nat := 8
def cPreempted : Nat := 9
def cPeel : Nat := 10
def cShortfall : Nat := 11
def cIllegal : Nat := 12
def cBreak : Nat := 13
def cTrap : Nat := 14

/-- Trap entry on the registers (09 R224). -/
def Thread.enterTrap (t : Thread) (cause sub : Nat) (value : Word) : Thread :=
  let ret := if cause = cBreak ∨ cause = cTrap then t.pc + 4 else t.pc
  { t with
    tca := w64 (2 ^ 17 + (if t.sup then 2 ^ 16 else 0) + sub % 8 * 256 + cause % 256)
    tva := value
    tpc := ret &&& ~~~3
    sup := true
    pc := t.tvb &&& ~~~3 }

/-- The helper trap(cause, sub, value) of R198 and R224: entry into the handler, or a double trap (R225), which stops the
thread and posts a record of kind 5 to the owner's queue. -/
def State.trap (s : State) (cause sub : Nat) (value : Word) : State :=
  let t := s.me
  if t.sup && t.tca.getLsbD 17 then
    let s := s.setMe { t with run := .doubleTrap }
    s.postStop s.tid { s.recFor s.tid true 5 with cause := cause, sub := sub, value := value }
  else s.setMe (t.enterTrap cause sub value)

/-- An illegal instruction: TVA holds the sub-cause above the word (08 R195). -/
def State.illegal (s : State) (word : BitVec 32) (sub : IllegalSub) : State :=
  s.trap cIllegal sub.code.toNat (w64 (sub.code.toNat * 2 ^ 32 + word.toNat))

/-- Return from a trap (09 R226). -/
def Thread.tret (t : Thread) : Thread :=
  { t with lastFault := none, pc := t.tpc &&& ~~~3, sup := t.tca.getLsbD 16, tca := t.tca &&& ~~~(w64 (2 ^ 17)) }

def State.tret (s : State) : State := s.setMe s.me.tret

end Sys2Proof.Machine
end

