-- ==== Sys2Proof/Machine/Float.lean ====
section
/-! DEFINITION. Number formats, exact values, the one rounding, conversions and B4 (07 R164 to R181). -/

namespace Sys2Proof.Machine

/-- A floating-point format (R164, R165): field widths; `e4` for FP8E4, which has no infinity. -/
structure Fmt where
  eb : Nat
  fb : Nat
  e4 : Bool
  deriving DecidableEq, Repr

def fmt64 : Fmt := ⟨11, 52, false⟩
def fmt40 : Fmt := ⟨8, 31, false⟩
def fmt32 : Fmt := ⟨8, 23, false⟩
def fmt16 : Fmt := ⟨5, 10, false⟩
def fmtBf : Fmt := ⟨8, 7, false⟩
def fmtE4 : Fmt := ⟨4, 3, true⟩
def fmtE5 : Fmt := ⟨5, 2, false⟩

def Fmt.bias (f : Fmt) : Nat := 2 ^ (f.eb - 1) - 1
def Fmt.width (f : Fmt) : Nat := 1 + f.eb + f.fb
/-- FP8E4 or FP8E5, the formats SATN governs. -/
def Fmt.is8 (f : Fmt) : Bool := f.width == 8
/-- Canonical quiet NaN (R166). -/
def Fmt.nan (f : Fmt) : Nat :=
  if f.e4 then 0x7F else (2 ^ f.eb - 1) * 2 ^ f.fb + 2 ^ (f.fb - 1)
def Fmt.inf (f : Fmt) : Nat := if f.e4 then 0x7F else (2 ^ f.eb - 1) * 2 ^ f.fb
/-- Largest finite code. -/
def Fmt.maxFin (f : Fmt) : Nat := if f.e4 then 0x7E else (2 ^ f.eb - 1) * 2 ^ f.fb - 1
def Fmt.signBit (f : Fmt) : Nat := 2 ^ (f.eb + f.fb)
def Fmt.withSign (f : Fmt) (neg : Bool) (c : Nat) : Nat := if neg then c + f.signBit else c

/-- An exact value: a NaN, an infinity, or (-1)^neg (m + part) 2^e where 0 < part < 1 exactly when `rest` (the tail of a quotient
or a root, always far below the rounded bits). -/
inductive Val where
  | nan (signalling : Bool)
  | inf (neg : Bool)
  | num (neg : Bool) (m : Nat) (e : Int) (rest : Bool)
  deriving DecidableEq, Repr

def Val.zero (neg : Bool) : Val := .num neg 0 0 false
def Val.isNan : Val → Bool
  | .nan _ => true
  | _ => false
def Val.isSnan : Val → Bool
  | .nan s => s
  | _ => false
def Val.isZero : Val → Bool
  | .num _ 0 _ false => true
  | _ => false
def Val.isInf : Val → Bool
  | .inf _ => true
  | _ => false
def Val.neg : Val → Bool
  | .nan _ => false
  | .inf n => n
  | .num n _ _ _ => n
def Val.negate : Val → Val
  | .nan s => .nan s
  | .inf n => .inf !n
  | .num n m e r => .num (!n) m e r
def Val.ofInt (i : Int) : Val := .num (decide (i < 0)) i.natAbs 0 false

/-- Exceptions in FLG order (R170). -/
abbrev Exc := BitVec 5
def excNV : Exc := 1
def excDZ : Exc := 2
def excOF : Exc := 4
def excUF : Exc := 8
def excNX : Exc := 16

/-- The rounding controls of an FCS value (R170). -/
structure Ctl where
  rm : Nat
  fz : Bool
  satn : Bool
  rank : Nat
  step : Nat
  deriving DecidableEq, Repr
def Ctl.of (fcs : Word) : Ctl :=
  ⟨bits fcs 2 0, fcs.getLsbD 3, fcs.getLsbD 4, bits fcs 39 24, bits fcs 63 40⟩
/-- Round to nearest even with the FZ of a control (R181). -/
def Ctl.nearest (c : Ctl) : Ctl := { c with rm := 0 }
def ctlRne : Ctl := ⟨0, false, false, 0, 0⟩

/-- The value of a code (R165), subnormals as they stand. -/
def Fmt.decode (f : Fmt) (x : Nat) : Val :=
  let neg := x / f.signBit % 2 == 1
  let ex := x / 2 ^ f.fb % 2 ^ f.eb
  let fr := x % 2 ^ f.fb
  let top := 2 ^ f.eb - 1
  if ex = 0 then .num neg fr (1 - (f.bias : Int) - f.fb) false
  else if ex = top && f.e4 && fr = 2 ^ f.fb - 1 then .nan false
  else if ex = top && !f.e4 then
    if fr = 0 then .inf neg else .nan (fr / 2 ^ (f.fb - 1) % 2 == 0)
  else .num neg (fr + 2 ^ f.fb) ((ex : Int) - f.bias - f.fb) false

/-- An operand: under FZ a subnormal reads as a zero of its sign (R173). -/
def Fmt.operand (f : Fmt) (fz : Bool) (x : Nat) : Val :=
  if fz && x / 2 ^ f.fb % 2 ^ f.eb == 0 then .zero (x / f.signBit % 2 == 1) else f.decode x

/-- `sr_bits` (R178). -/
def srBits (rank step elem hop : Nat) : Nat :=
  let m (a b : Nat) : BitVec 32 := BitVec.ofNat 32 (a * b)
  let h := m rank 0x9E3779B1 ^^^ m step 0x85EBCA77 ^^^ m elem 0xC2B2AE3D ^^^ m hop 0x27D4EB2F
  let h := h ^^^ (h >>> 15)
  let h := h * 0x2C1B3C6D#32
  (h ^^^ (h >>> 12)).toNat

/-- Whether a magnitude lo + (part of one unit) rounds up: the part is rem / 2^k, and a little more when `rest`. -/
def roundsUp (rm : Nat) (neg : Bool) (lo rem k : Nat) (rest : Bool) (sr : Nat) : Bool :=
  let inexact := rem != 0 || rest
  let half := 2 ^ k
  match rm with
  | 0 => half < 2 * rem || (2 * rem == half && (rest || lo % 2 == 1))
  | 1 => false
  | 2 => inexact && !neg
  | 3 => inexact && neg
  | 4 => half ≤ 2 * rem
  | _ => 2 ^ 32 ≤ rem * 2 ^ 32 / half + sr

/-- A magnitude m 2^e rounded to a multiple of 2^q: the multiple and whether it is inexact. -/
def roundAt (rm : Nat) (neg : Bool) (m : Nat) (e q : Int) (rest : Bool) (sr : Nat) : Nat × Bool :=
  if q ≤ e then (m * 2 ^ (e - q).toNat, rest)
  else
    let k := (q - e).toNat
    let lo := m / 2 ^ k
    let rem := m % 2 ^ k
    ((if roundsUp rm neg lo rem k rest sr then lo + 1 else lo), rem != 0 || rest)

/-- Overflow (R174). -/
def overflow (f : Fmt) (c : Ctl) (neg : Bool) : Nat × Exc :=
  let toInf := match c.rm with
    | 1 => false
    | 2 => !neg
    | 3 => neg
    | _ => true
  let mag :=
    if !toInf then f.maxFin
    else if f.is8 && c.satn then f.maxFin
    else f.inf
  let code := if f.e4 && mag = 0x7F then 0x7F else f.withSign neg mag
  (code, excOF ||| excNX)

/-- round_to of R179: one rounding of an exact value into a format, with the exceptions of R170 to R177. SATN governs every rounding
into FP8, of an infinite result too (R174; log entry 19). -/
def roundTo (f : Fmt) (c : Ctl) (elem hop : Nat) (x : Val) : Nat × Exc :=
  match x with
  | .nan s => (f.nan, if s then excNV else 0)
  | .inf neg =>
    if f.is8 && c.satn then (f.withSign neg f.maxFin, excNX) else (if f.e4 then 0x7F else f.withSign neg f.inf, 0)
  | .num neg m e rest =>
    if m = 0 && !rest then (f.withSign neg 0, 0)
    else
      let top : Int := e + Nat.log2 m
      let emin : Int := 1 - (f.bias : Int)
      let sr := srBits c.rank c.step elem hop
      let tiny :=
        if c.rm = 5 then decide (top < emin)
        else decide (top < emin) &&
          decide ((roundAt c.rm neg m e (top - f.fb) rest sr).1 < 2 ^ (emin - (top - f.fb)).toNat)
      if tiny && c.fz then (f.withSign neg 0, excUF ||| excNX)
      else
        let q : Int := (if top < emin then emin else top) - f.fb
        let r := roundAt c.rm neg m e q rest sr
        let carry := r.1 == 2 ^ (f.fb + 1)
        let mant := if carry then 2 ^ f.fb else r.1
        let q := if carry then q + 1 else q
        let exField : Int := if mant < 2 ^ f.fb then 0 else q + f.fb + f.bias
        let code := if mant < 2 ^ f.fb then mant else exField.toNat * 2 ^ f.fb + (mant - 2 ^ f.fb)
        if f.maxFin < code then overflow f c neg
        else
          (f.withSign neg code,
            (if r.2 then excNX else 0) ||| (if tiny && r.2 then excUF else 0))

/-! ## Exact arithmetic -/

/-- Sum of exact finite numbers with the sign of a zero result (R177). -/
def Val.add (rm : Nat) (x y : Val) : Val :=
  match x, y with
  | .num n1 m1 e1 _, .num n2 m2 e2 _ =>
    let e := if e1 ≤ e2 then e1 else e2
    let a : Int := (m1 : Int) * 2 ^ (e1 - e).toNat
    let b : Int := (m2 : Int) * 2 ^ (e2 - e).toNat
    let s : Int := (if n1 then -a else a) + (if n2 then -b else b)
    if s = 0 then .zero (if n1 == n2 then n1 else rm == 3)
    else .num (decide (s < 0)) s.natAbs e false
  | .nan a, .nan b => .nan (a || b)
  | .nan a, _ => .nan a
  | _, .nan b => .nan b
  | .inf a, .inf b => if a == b then .inf a else .nan true
  | .inf a, _ => .inf a
  | _, .inf b => .inf b

/-- Product; 0 × ∞ is invalid, which a signalling NaN result stands for. -/
def Val.mul (x y : Val) : Val :=
  match x, y with
  | .nan a, .nan b => .nan (a || b)
  | .nan a, _ => .nan a
  | _, .nan b => .nan b
  | .inf a, .inf b => .inf (a != b)
  | .inf a, .num n m _ _ => if m = 0 then .nan true else .inf (a != n)
  | .num n m _ _, .inf a => if m = 0 then .nan true else .inf (a != n)
  | .num n1 m1 e1 _, .num n2 m2 e2 _ => .num (n1 != n2) (m1 * m2) (e1 + e2) false

/-- Extra quotient and root bits, enough for every format and for the 32 bits of stochastic rounding. -/
def quotBits : Nat := 160

/-- Quotient with the exceptions it raises before rounding (R170). -/
def Val.div (x y : Val) : Val × Exc :=
  match x, y with
  | .nan a, .nan b => (.nan (a || b), 0)
  | .nan a, _ => (.nan a, 0)
  | _, .nan b => (.nan b, 0)
  | .inf _, .inf _ => (.nan true, 0)
  | .inf a, .num n _ _ _ => (.inf (a != n), 0)
  | .num n _ _ _, .inf a => (.zero (a != n), 0)
  | .num n1 m1 e1 _, .num n2 m2 e2 _ =>
    let neg := n1 != n2
    if m2 = 0 then (if m1 = 0 then (.nan true, 0) else (.inf neg, excDZ))
    else if m1 = 0 then (.zero neg, 0)
    else
      let k := quotBits + Nat.log2 m2
      let n := m1 * 2 ^ k
      (.num neg (n / m2) (e1 - e2 - k) (n % m2 != 0), 0)

/-- Integer square root, bit by bit from bit i - 1. -/
def isqrtFrom (n : Nat) : (i r : Nat) → Nat
  | 0, r => r
  | i + 1, r => let r' := r + 2 ^ i; isqrtFrom n i (if r' * r' ≤ n then r' else r)

/-- Square root; of a negative number invalid. -/
def Val.sqrt (x : Val) : Val :=
  match x with
  | .nan a => .nan a
  | .inf neg => if neg then .nan true else .inf false
  | .num neg m e _ =>
    if m = 0 then .zero neg
    else if neg then .nan true
    else
      -- an even exponent with at least 2 * quotBits bits of radicand
      let k := 2 * quotBits + (if (e - 2 * quotBits) % 2 = 0 then 0 else 1)
      let n := m * 2 ^ k
      let r := isqrtFrom n (Nat.log2 n / 2 + 1) 0
      .num false r ((e - k) / 2) (r * r != n)

/-- Order of two numbers, -0 equal to +0: less, equal or greater as an integer sign. -/
def Val.cmp (x y : Val) : Int :=
  let key (v : Val) : Int := match v with
    | .inf n => if n then -2 else 2
    | .num n m _ _ => if m = 0 then 0 else if n then -1 else 1
    | .nan _ => 0
  match x, y with
  | .num n1 m1 e1 _, .num n2 m2 e2 _ =>
    let e := if e1 ≤ e2 then e1 else e2
    let a : Int := (m1 : Int) * 2 ^ (e1 - e).toNat
    let b : Int := (m2 : Int) * 2 ^ (e2 - e).toNat
    let a := if n1 then -a else a
    let b := if n2 then -b else b
    if a < b then -1 else if a = b then 0 else 1
  | _, _ => if key x < key y then -1 else if key x = key y then 0 else 1

/-- Minimum or maximum (R166): -0 below +0; a number beats a NaN. -/
def Val.minMax (isMax : Bool) (x y : Val) : Val :=
  if x.isNan && y.isNan then .nan (x.isSnan || y.isSnan)
  else if x.isNan then y
  else if y.isNan then x
  else
    let c := x.cmp y
    let xLess := decide (c < 0) || (c == 0 && x.neg && !y.neg)
    if isMax then (if xLess then y else x) else (if xLess then x else y)

def nvIf (b : Bool) : Exc := if b then excNV else 0

/-! ## Format codes of 03 R97 -/

/-- The floating-point format of a code, if it is one. -/
def codeFmt (c : Nat) : Option Fmt :=
  match c with
  | 0 => some fmt64
  | 1 => some fmt32
  | 2 => some fmt16
  | 3 => some fmtBf
  | 4 => some fmtE4
  | 5 => some fmtE5
  | _ => none
/-- Width in half bytes. -/
def codeNibbles (c : Nat) : Nat :=
  match c with
  | 0 | 14 | 15 => 16
  | 1 | 12 | 13 => 8
  | 2 | 3 | 10 | 11 => 4
  | 4 | 5 | 8 | 9 => 2
  | _ => 1
def codeBits (c : Nat) : Nat := 4 * codeNibbles c
/-- Bytes of an element in memory (at least 1). -/
def codeBytes (c : Nat) : Nat := (codeNibbles c + 1) / 2
def codeIsFloat (c : Nat) : Bool := c < 6
def codeIsInt (c : Nat) : Bool := 7 ≤ c
def codeSigned (c : Nat) : Bool := c == 7 || c == 8 || c == 10 || c == 12 || c == 14

/-- A two's complement or unsigned integer of n bits. -/
def intOf (signed : Bool) (n x : Nat) : Int :=
  let x := x % 2 ^ n
  if signed && 2 ^ (n - 1) ≤ x then (x : Int) - 2 ^ n else x
/-- The n-bit code of an integer. -/
def codeOfInt (n : Nat) (i : Int) : Nat := (i % 2 ^ n).toNat
/-- Integer value of an element of an integer code. -/
def codeInt (c x : Nat) : Int := intOf (codeSigned c) (codeBits c) x

/-- B4 values (R168, R169). -/
def b4Val (ty code : Nat) : Val :=
  let c := code % 16
  match ty with
  | 0 => Val.ofInt (if c < 8 then c else (c : Int) - 16)
  | 1 =>
    let t := c % 8
    let m := if t < 2 then t else (2 + t % 2) * 2 ^ (t / 2 - 1)
    .num (8 ≤ c) m (-1) false
  | 2 => if c = 8 then .zero false else .num (8 ≤ c) 1 ((c % 8 : Int) - 4) false
  | _ =>
    let m := if c < 8 then c
      else match c with
        | 8 => 8 | 9 => 12 | 10 => 16 | 11 => 24 | 12 => 32 | 13 => 48 | 14 => 64 | _ => 96
    .num false m 0 false
/-- A value times a power of two, exactly. -/
def Val.scale (x : Val) (k : Int) : Val :=
  match x with
  | .num n m e r => .num n m (e + k) r
  | v => v

/-- An element's exact value under a format code (FZ for floating point); B4 is decoded by its own functions. -/
def codeVal (c : Nat) (fz : Bool) (x : Nat) : Val :=
  match codeFmt c with
  | some f => f.operand fz x
  | none => Val.ofInt (codeInt c x)

/-! ## Conversions (R174 to R176) -/

/-- Float to float: a NaN into FP8E4 is invalid, an infinity into FP8 follows SATN. `same` when source and target formats agree. -/
def convFloat (f : Fmt) (c : Ctl) (elem hop : Nat) (same : Bool) (x : Val) : Nat × Exc :=
  match x with
  | .nan s => (f.nan, nvIf (s || (f.e4 && !same)))
  | .inf neg =>
    if f.is8 && c.satn then (f.withSign neg f.maxFin, excNX)
    else if f.e4 then (0x7F, excNV)
    else (f.withSign neg f.inf, 0)
  | v => roundTo f c elem hop v

/-- To an integer of n bits (R175). -/
def convInt (signed : Bool) (n : Nat) (c : Ctl) (elem hop : Nat) (x : Val) : Nat × Exc :=
  let lo : Int := if signed then -(2 ^ (n - 1)) else 0
  let hi : Int := if signed then 2 ^ (n - 1) - 1 else 2 ^ n - 1
  match x with
  | .nan _ => (0, excNV)
  | .inf neg => (codeOfInt n (if neg then lo else hi), excNV)
  | .num neg m e rest =>
    let r := roundAt c.rm neg m e 0 rest (srBits c.rank c.step elem hop)
    let i : Int := if neg then -(r.1 : Int) else r.1
    if i < lo then (codeOfInt n lo, excNV)
    else if hi < i then (codeOfInt n hi, excNV)
    else (codeOfInt n i, if r.2 then excNX else 0)

/-- A conversion into a format code other than B4, from a source of code `from_` (R175). Integer to integer keeps low bits (R167). -/
def convCode (from_ to_ : Nat) (c : Ctl) (elem hop : Nat) (x : Nat) : Nat × Exc :=
  if codeIsInt from_ && codeIsInt to_ then (codeOfInt (codeBits to_) (codeInt from_ x), 0)
  else
    let v := codeVal from_ c.fz x
    match codeFmt to_ with
    | some f => convFloat f c elem hop (from_ == to_) v
    | none => convInt (codeSigned to_) (codeBits to_) c elem hop v

/-- A conversion of an exact value into a format code other than B4. -/
def convVal (to_ : Nat) (c : Ctl) (elem hop : Nat) (v : Val) : Nat × Exc :=
  match codeFmt to_ with
  | some f => convFloat f c elem hop false v
  | none => convInt (codeSigned to_) (codeBits to_) c elem hop v

/-- The codes of a B4 type in ascending order of value, one code for each value. -/
def b4Order (ty : Nat) : List Nat :=
  match ty with
  | 0 => [8, 9, 10, 11, 12, 13, 14, 15, 0, 1, 2, 3, 4, 5, 6, 7]
  | 1 => [15, 14, 13, 12, 11, 10, 9, 0, 1, 2, 3, 4, 5, 6, 7]
  | 2 => [15, 14, 13, 12, 11, 10, 9, 8, 0, 1, 2, 3, 4, 5, 6, 7]
  | _ => [0, 1, 2, 3, 4, 5, 6, 7, 8, 9, 10, 11, 12, 13, 14, 15]

/-- Largest code not above and smallest code not below a value, over an ascending list. -/
def b4Below (ty : Nat) (v : Val) (l : List Nat) : Option Nat :=
  l.foldl (fun acc c => if (b4Val ty c).cmp v ≤ 0 then some c else acc) none
def b4Above (ty : Nat) (v : Val) (l : List Nat) : Option Nat :=
  l.foldr (fun c acc => if v.cmp (b4Val ty c) ≤ 0 then some c else acc) none

/-- 2 (v - a) against (b - a), and floor ((v - a) / (b - a) 2^32), for a < v < b. -/
def gap (a v b : Val) : Int × Nat :=
  let d1 := v.add 0 a.negate
  let d2 := b.add 0 a.negate
  match d1, d2 with
  | .num _ m1 e1 _, .num _ m2 e2 _ =>
    let e := if e1 ≤ e2 then e1 else e2
    let x := m1 * 2 ^ (e1 - e).toNat
    let y := m2 * 2 ^ (e2 - e).toNat
    ((2 * x : Int) - y, if y = 0 then 0 else x * 2 ^ 32 / y)
  | _, _ => (0, 0)

/-- Rounding into B4 with a block type and exponent E (R176). -/
def convB4 (ty ex : Nat) (c : Ctl) (elem hop : Nat) (x : Val) : Nat × Exc :=
  let order := b4Order ty
  let smallest := order.headD 0
  let largest := order.getLastD 0
  match x with
  | .nan _ => (if ty = 2 then 8 else 0, excNV)
  | .inf neg => (if neg then smallest else largest, excNV)
  | .num neg m e _ =>
    if m = 0 then (if ty = 1 && neg then 8 else if ty = 2 then 8 else 0, 0)
    else
      let v : Val := .num neg m (e - ((ex : Int) - 32)) false
      match b4Below ty v order, b4Above ty v order with
      | none, _ => (smallest, excNX ||| (if ty = 3 then 0 else excOF))
      | _, none => (largest, excNX ||| excOF)
      | some a, some b =>
        if a = b then (a, 0)
        else
          let g := gap (b4Val ty a) v (b4Val ty b)
          let near := if neg then b else a
          let far := if neg then a else b
          let pick :=
            match c.rm with
            | 0 =>
              if g.1 < 0 then a else if 0 < g.1 then b
              else if a % 2 = 0 && b % 2 = 0 then near
              else if a % 2 = 0 then a else b
            | 1 => near
            | 2 => b
            | 3 => a
            | 4 => if g.1 < 0 then a else if 0 < g.1 then b else far
            | _ =>
              let f := if neg then (gap (b4Val ty b).negate v.negate (b4Val ty a).negate).2 else g.2
              if 2 ^ 32 ≤ f + srBits c.rank c.step elem hop then far else near
          let pick := if ty = 1 && pick = 0 && neg then 8 else pick
          (pick, excNX)

/-! ## Operations of one format -/

/-- The operations a floating-point instruction rounds once (09 R212; 10 R239). -/
inductive FOp where
  | add | sub | mul | div | min | max
  deriving DecidableEq, Repr

/-- A two-operand operation: result code and exceptions. -/
def FOp.run (o : FOp) (f : Fmt) (c : Ctl) (elem hop : Nat) (a b : Nat) : Nat × Exc :=
  let x := f.operand c.fz a
  let y := f.operand c.fz b
  match o with
  | .add => roundTo f c elem hop (x.add c.rm y)
  | .sub => roundTo f c elem hop (x.add c.rm y.negate)
  | .mul => roundTo f c elem hop (x.mul y)
  | .div =>
    let q := x.div y
    let r := roundTo f c elem hop q.1
    (r.1, r.2 ||| q.2)
  | .min =>
    let r := roundTo f ctlRne 0 0 (Val.minMax false x y)
    (r.1, nvIf (x.isSnan || y.isSnan))
  | .max =>
    let r := roundTo f ctlRne 0 0 (Val.minMax true x y)
    (r.1, nvIf (x.isSnan || y.isSnan))

/-- x y + z with one rounding; 0 × ∞ is invalid whatever z is (R170). -/
def fmaRun (f : Fmt) (c : Ctl) (elem hop : Nat) (negProd negAdd : Bool) (a b z : Nat) : Nat × Exc :=
  let p := (f.operand c.fz a).mul (f.operand c.fz b)
  let p := if negProd then p.negate else p
  let z := f.operand c.fz z
  let z := if negAdd then z.negate else z
  roundTo f c elem hop (p.add c.rm z)

def sqrtRun (f : Fmt) (c : Ctl) (elem : Nat) (a : Nat) : Nat × Exc :=
  roundTo f c elem 0 (f.operand c.fz a).sqrt

/-- A sum at a format code: floating point rounds once, integers wrap (04 R128; 16 R332). -/
def addCode (code : Nat) (c : Ctl) (elem hop : Nat) (a b : Nat) : Nat × Exc :=
  match codeFmt code with
  | some f => FOp.add.run f c elem hop a b
  | none => ((a + b) % 2 ^ codeBits code, 0)

end Sys2Proof.Machine
end

