-- ==== Sys2Proof/Machine/Ordering.lean ====
section
/-! DEFINITION. Committed writes on their way to memory: what must go first, performing one, draining, forwarding, fences
(04 R106 to R121; 05 R138 to R141), timelines (05 R131 to R134), and outbound requests (01 R33; 20 R409).
Log entry 6 says how far this model's schedules go. -/

namespace Sys2Proof.Machine

/-! ## Timelines -/

/-- Advances a counter over the unbroken run of performed numbers above it (05 R134). -/
def runUp : (fuel ctr : Nat) → (ahead : List Nat) → Nat × List Nat
  | 0, ctr, ahead => (ctr, ahead)
  | f + 1, ctr, ahead => if ahead.contains (ctr + 1) then runUp f (ctr + 1) (ahead.filter (· != ctr + 1)) else (ctr, ahead)

/-- Number n of the timeline is performed. -/
def Timeline.perform (t : Timeline) (n : Nat) : Timeline :=
  let ahead := n :: t.ahead
  let r := runUp ahead.length t.ctr ahead
  { t with ctr := r.1, ahead := r.2 }

def Thread.timeline (t : Thread) (c : Nat) : Timeline := t.tl[c]?.getD ⟨0, 0, []⟩
def Thread.setTimeline (t : Thread) (c : Nat) (x : Timeline) : Thread := { t with tl := t.tl.setIfInBounds c x }
def State.performNumber (s : State) (tid c n : Nat) : State :=
  let t := s.th tid
  s.setTh tid (t.setTimeline c ((t.timeline c).perform n))

/-! ## Granules and blocking -/

/-- Granules a range touches. -/
def granules (a n : Nat) : List Nat := if n = 0 then [] else (List.range ((a + n - 1) / 64 + 1 - a / 64)).map (· + a / 64)
def overlaps (a n b m : Nat) : Bool := decide (a < b + m) && decide (b < a + n)

def Pend.isNear (p : Pend) : Bool := match p.op with
  | .near .. => true
  | _ => false
def Pend.isSignal (p : Pend) : Bool := match p.op with
  | .signal _ => true
  | _ => false
/-- The byte ranges a committed write touches. -/
def Pend.ranges (p : Pend) : List (Nat × Nat) :=
  match p.op with
  | .store bs => [(p.addr, bs.length)]
  | .nib _ _ => [(p.addr, 1)]
  | .add f _ _ _ => [(p.addr, codeBytes f.toNat)]
  | .near f _ _ _ => [(p.addr, codeBytes f.toNat)]
  | .packet f _ es _ => es.map fun e => (e.1, codeBytes f.toNat)
  | .signal _ => []
def Pend.touches (p : Pend) (a n : Nat) : Bool := p.ranges.any fun r => overlaps r.1 r.2 a n
/-- Whether a committed write and a range share a granule (R112). -/
def Pend.sharesGranule (p : Pend) (a n : Nat) : Bool :=
  p.ranges.any fun r => decide (0 < r.2) && decide (0 < n) && decide (r.1 / 64 ≤ (a + n - 1) / 64) && decide (a / 64 ≤ (r.1 + r.2 - 1) / 64)

/-- q goes to memory before p: in one slice, in one granule, below p's barrier, or named among p's dependencies (R110 to R112,
R119, R121). Elements of one instruction are in no order but where they write one byte (R111). Near-memory operations are ordered by
nothing (R139) but the element order of one instruction (16 R332). -/
def Pend.before (q p : Pend) : Bool :=
  decide (q.seq < p.seq) &&
  (p.deps.contains q.seq ||
   (!q.isNear && !q.isSignal && q.tid == p.tid && !p.isNear &&
    (decide (q.seq < p.after) ||
      (q.ins != p.ins && ((q.slice == p.slice && decide (p.slice < 9)) || p.ranges.any fun r => q.sharesGranule r.1 r.2)) ||
      (q.ins == p.ins && p.ranges.any fun r => q.touches r.1 r.2))))

/-- The scoreboard entries of the pair whose scratchpad holds an address (03 R94). -/
def State.boardAt (s : State) (a : Nat) : List Range :=
  match s.region a with
  | .scratch pp =>
    (s.pairs.filter fun e => !e.2.board.isEmpty && s.physPair e.1 == pp).flatMap fun e => e.2.board
  | _ => []
def Range.ofCmd (r : Range) (c : Cmd) : Bool := r.tid == c.tid && r.ctx == c.ctx && r.num == c.num
/-- Whether a committed write to a range waits at the scratchpad (R94, R95): an entry frees only what its command's issue released, the
issuer's earlier writes and those it had read by forwarding (05 R135). -/
def State.boardHolds (s : State) (tid a n seq : Nat) : Bool :=
  (s.boardAt a).any fun r => overlaps (a % 0x4000000) n r.lo (r.hi - r.lo) && !(r.tid == tid && decide (seq < r.seq)) &&
    !(s.cmds.any fun c => r.ofCmd c && c.deps.contains seq)
/-- The same for an access that comes after every entry: a load, an atomic, or an access of another agent. -/
def State.boardWaits (s : State) (a n seq : Nat) : Bool :=
  (s.boardAt a).any fun r => decide (r.seq ≤ seq) && overlaps (a % 0x4000000) n r.lo (r.hi - r.lo)
def State.pendWaits (s : State) (p : Pend) : Bool := p.ranges.any fun r => s.boardHolds p.tid r.1 r.2 p.seq

/-! ## Outbound requests -/

/-- Hands a posted write to its port or link (04 R108), where it may be refused (01 R33); a peer write that cannot be sent is dropped and
logged, one that is sent awaits its acknowledgement. A committed write whose device number has since become a hole, by a write of DEVN,
goes nowhere (01 R16; log entry 77). -/
def State.sendPosted (s : State) (tid : Nat) (cmd : Option (Nat × Nat)) (a n : Nat) (va pc : Word) (acc : Nat) (msg : Wire → OutMsg) : State :=
  let t := s.th tid
  let sent (link : Option Nat) : State :=
    { s.setTh tid { t with obNext := t.obNext + 1 } with
      out := msg (s.wire a) :: s.out
      obs := s.obs ++ [{ tid := tid, k := t.obNext, cmd := cmd, posted := true, addr := a, len := n, va := va, pc := pc, reply := .none,
                         link := link, acc := acc }] }
  match s.region a with
  | .peer dev _ => if s.reaches dev then sent (some (s.routePort dev)) else s.logError 7 (s.routePort dev) a 1
  | .hostPort _ => sent none
  | .rootPort _ => sent none
  | _ => s

/-! ## Performing a committed write -/

/-- A record of kind 6 for a write over a lost word: the access kind, the virtual address written and the instruction (11 R252; 16 R333;
19 R393). -/
def State.lostAtMemory (s : State) (tid : Nat) (va pc : Word) (acc : Nat) : State :=
  (s.post { s.recFor tid false 6 with cause := cDataLost, acc := acc, va := va, pc := pc }).2

/-- Whether a committed write replaces a half byte, the halves numbered from address 0. -/
def Pend.covers (p : Pend) (h : Nat) : Bool :=
  match p.op with
  | .store bs => decide (2 * p.addr ≤ h) && decide (h < 2 * (p.addr + bs.length))
  | .nib hi _ => h == 2 * p.addr + hi.toNat
  | _ => false

/-- Writes a store, or a nibble of the byte at memory (03 R99). -/
def State.putPend (s : State) (p : Pend) : State :=
  match p.op with
  | .store bs => s.putBytes p.addr bs
  | .nib hi v =>
    let b := (s.byte p.addr).toNat
    s.putBytes p.addr [BitVec.ofNat 8 (if hi then v.toNat * 16 + b % 16 else b / 16 * 16 + v.toNat)]
  | _ => s

/-- The writes of one instruction that lie in a granule a write lies in: one request (02 R66). -/
def State.merged (s : State) (p : Pend) (n : Nat) : List Pend :=
  p :: s.pend.filter fun q => q.tid == p.tid && q.ins == p.ins && q.seq != p.seq && q.sharesGranule p.addr n

/-- The lost ECC words a range touches. -/
def State.lostWords (s : State) (a n : Nat) : List Nat := s.memLost.filter fun w => overlaps a n w 8

/-- A posted write of n bytes at a local memory: over part of a lost ECC word it is dropped, unless its request covers the word whole; then
the request replaces the word at once (11 R252; 02 R66). -/
def State.memWrite (s : State) (p : Pend) (n : Nat) : State :=
  let ws := (s.lostWords p.addr n).filter fun w => !((List.range 16).all fun i => p.covers (2 * w + i))
  if ws.isEmpty then s.putPend p
  else
    let req := s.merged p n
    if ws.all fun w => (List.range 16).all fun i => req.any fun q => q.covers (2 * w + i) then
      let now := req.filter fun q => q.seq == p.seq || ws.any fun w => q.touches w 8
      let s := now.foldl State.putPend { s with memLost := s.memLost.filter fun w => !ws.contains w }
      { s with pend := s.pend.filter fun q => !(now.any fun o => o.seq == q.seq) }
    else s.lostAtMemory p.tid p.va p.pc 1

/-- One atomic add at a local memory, under a captured FCS; nothing is flagged (04 R128; 15 R324; 16 R332). -/
def State.memAdd (s : State) (tid a : Nat) (fmt : Nat) (fcs : Word) (elem : Nat) (v : Nat) (va pc : Word) : State :=
  let n := codeBytes fmt
  if s.lostIn a n then s.lostAtMemory tid va pc 2
  else
    let r := addCode fmt (Ctl.of fcs) elem 0 (leNat (s.bytes a n)) v
    s.putBytes a (leBytes n r.1)

/-- One add of a remote-reduce packet: the exact element, an integer or FP64 bits, added with one rounding under a captured FCS (15 R324). -/
def reduceCode (fmt kind : Nat) (fcs : Word) (elem old : Nat) (v : Word) : Nat :=
  let n := codeBytes fmt
  let c := Ctl.of fcs
  match codeFmt fmt with
  | some f => (roundTo f c elem 0 ((f.operand c.fz old).add c.rm (fmt64.decode v.toNat))).1
  | none => (old + codeOfInt (8 * n) (intOf (codeSigned kind) 64 v.toNat)) % 2 ^ (8 * n)

/-- The same at a local memory. -/
def State.reduceAdd (s : State) (tid a : Nat) (fmt kind : Nat) (fcs : Word) (elem : Nat) (v : Word) (va pc : Word) : State :=
  let n := codeBytes fmt
  if s.lostIn a n then s.lostAtMemory tid va pc 2
  else s.putBytes a (leBytes n (reduceCode fmt kind fcs elem (leNat (s.bytes a n)) v))

/-- Performs a committed write at memory, or hands it to its port (R106, R108). -/
def State.performOp (s : State) (p : Pend) : State :=
  match p.op with
  | .store bs =>
    if (s.region p.addr).isLocal then s.memWrite p bs.length
    else s.sendPosted p.tid none p.addr bs.length p.va p.pc 1 (.posted · bs)
  | .nib _ _ => if (s.region p.addr).isLocal then s.memWrite p 1 else s
  | .add f fcs i v =>
    if (s.region p.addr).isLocal then s.memAdd p.tid p.addr f.toNat fcs i v.toNat p.va p.pc
    else s.sendPosted p.tid none p.addr (codeBytes f.toNat) p.va p.pc 2 (.adds · f [(p.addr, i, v)])
  | .near f fcs i v => s.memAdd p.tid p.addr f.toNat fcs i v.toNat p.va p.pc
  | .packet f fcs es kind =>
    if (s.region p.addr).isLocal then
      es.foldl (fun (s : State) e =>
        s.reduceAdd p.tid e.1 f.toNat kind.toNat fcs e.2.1 e.2.2 (p.va + w64 (e.1 - p.addr)) p.pc) s
    else s.sendPosted p.tid none p.addr (codeBytes f.toNat * es.length) p.va p.pc 2 (.adds · f es)
  | .signal n => s.performNumber p.tid 5 n

def State.dropPend (s : State) (seq : Nat) : State := { s with pend := s.pend.filter fun p => p.seq != seq }

def State.perform (s : State) (p : Pend) : State := (s.performOp p).dropPend p.seq

/-- Whether nothing that must go first is still pending, and no scoreboard entry holds the write (R110 to R112, R94). -/
def State.ready (s : State) (p : Pend) : Bool := !(s.pend.any fun q => q.before p) && !s.pendWaits p

/-- Performs a pending write by number when it may be performed; otherwise nothing happens (log entry 9). -/
def State.performSeq (s : State) (seq : Nat) : State :=
  match s.pend.find? fun p => p.seq == seq with
  | some p => if s.ready p then s.perform p else s
  | none => s

/-! ## Draining -/

/-- The writes that must be performed for those `need` names: them and all that go before one of them. -/
def drainSet (need : Pend → Bool) (pend : List Pend) : List Pend :=
  pend.foldr (fun q acc => if need q || acc.any (fun p => q.before p) then q :: acc else acc) []

/-- Performs the named writes and everything before them, in order; none while the scoreboard holds one back. -/
def State.drain (s : State) (need : Pend → Bool) : Option State :=
  let d := drainSet need s.pend
  if d.any fun p => s.pendWaits p then none
  else some (d.foldl (fun (s : State) p => s.perform p) s)

/-- Whether a committed write leaves the module. -/
def State.outbound (s : State) (p : Pend) : Bool := !(s.region p.addr).isLocal

/-- A thread's own accesses that fences order: all but near-memory operations and signals. -/
def Pend.ownOrdered (tid : Nat) (p : Pend) : Bool := p.tid == tid && !p.isNear && !p.isSignal

/-- Drains a thread's slices (R120). -/
def State.drainAll (s : State) (tid : Nat) : Option State := s.drain (Pend.ownOrdered tid)

/-- Drains a thread's slices and the writes it read by forwarding (R121). -/
def State.drainCumulative (s : State) (tid : Nat) : Option State :=
  let f := (s.th tid).fwd
  s.drain fun p => p.ownOrdered tid || f.contains p.seq

/-- Whether every peer write of the thread has been acknowledged (R108, scope .y). -/
def State.acked (s : State) (tid : Nat) : Bool := !(s.obs.any fun o => o.tid == tid && o.posted && o.cmd.isNone && o.link.isSome)

/-! ## Committing a write -/

/-- Appends a committed write of a thread: behind its barrier and, for a release, behind everything earlier (R119, R121); behind
a forwarded write of the same granule (R116). `ins` numbers its instruction, by the number its first write took. -/
def State.commit (s : State) (tid slice : Nat) (va : Word) (addr : Nat) (op : PendOp) (release wide : Bool) (ins : Nat := s.wseq) : State :=
  let t := s.th tid
  let p : Pend := {
    seq := s.wseq, tid := tid, slice := slice, addr := addr, va := va, pc := t.pc, op := op, rel := release && wide,
    after := if release then s.wseq else t.barrier, deps := [], ins := ins, port := false }
  let same := t.fwd.filter fun q => s.pend.any fun e => e.seq == q && p.ranges.any fun r => e.sharesGranule r.1 r.2
  let p := { p with deps := t.fwdBar ++ same ++ (if release && wide then t.fwd else []) }
  { s with pend := s.pend ++ [p], wseq := s.wseq + 1 }

/-- Appends a near-memory add, behind the adds numbered from `first` on that name its location (16 R332). -/
def State.commitNear (s : State) (tid : Nat) (va : Word) (addr : Nat) (fmt : BitVec 4) (fcs : Word) (elem : Nat) (v : Word) (first : Nat) : State :=
  let before := (s.pend.filter fun p => p.isNear && decide (first ≤ p.seq) && p.addr == addr).map (·.seq)
  { s with
    pend := s.pend ++ [{ seq := s.wseq, tid := tid, slice := 9, addr := addr, va := va, pc := (s.th tid).pc, op := .near fmt fcs elem v, rel := false, after := 0,
                         deps := before, ins := first, port := false }]
    wseq := s.wseq + 1 }

/-- fence.rel: later writes go behind everything earlier, cumulatively at scope .d or wider (R121). -/
def State.fenceRel (s : State) (tid : Nat) (wide : Bool) : State :=
  let t := s.th tid
  s.setTh tid { t with barrier := s.wseq, fwdBar := if wide then t.fwd else t.fwdBar }

/-! ## Loading -/

/-- The other thread of the pair. -/
def sibling (tid : Nat) : Nat := if tid % 2 = 0 then tid + 1 else tid - 1

/-- Overlays the bytes of a pending store on a range. -/
def overlay (a : Nat) (bs : List Byte) (p : Pend) : List Byte :=
  match p.op with
  | .store ws => (List.range bs.length).map fun i =>
      if p.addr ≤ a + i ∧ a + i < p.addr + ws.length then (ws[a + i - p.addr]?).getD 0 else (bs[i]?).getD 0
  | _ => bs

/-- Whether a store of the sibling may be read before it is performed (R114). -/
def Pend.forwards (p : Pend) : Bool :=
  !p.rel && (match p.op with
    | .store _ => true
    | _ => false)

/-- A thread's writes to a range that its sibling may meet before they are performed, in order. -/
def State.siblings (s : State) (tid a n : Nat) : List Pend := s.pend.filter fun p => p.tid == sibling tid && p.touches a n

/-- Whether a write of the sibling has to be seen by every later load of the thread: it is performed at scope .p (R108), or the thread has
read it, or a write it goes before, by forwarding (R116, R122). -/
def Thread.mustSee (t : Thread) (p : Pend) : Bool := p.port || t.fwd.contains p.seq

/-- The sibling's stores a load of a range may read before they are performed: in order, up to the first that may not be
forwarded (R114). -/
def State.forwardable (s : State) (tid a n : Nat) : List Pend := (s.siblings tid a n).takeWhile Pend.forwards

/-- The sibling's writes that a load has to see but cannot read by forwarding: with them, all up to the last such. -/
def State.unforwarded (s : State) (tid a n : Nat) (noForward : Bool) : List Nat :=
  let cand := if noForward then [] else s.forwardable tid a n
  ((s.siblings tid a n).filter fun p => (s.th tid).mustSee p && !(cand.any fun c => c.seq == p.seq)).map (·.seq)

/-- What goes to memory, or to its port, before a load of a range: the thread's own writes of the granule (R112), and what it has to see but
may not forward (R116, R122). None while the scoreboard holds one back. -/
def State.beforeLoad (s : State) (tid a n : Nat) (noForward : Bool) : Option State :=
  let must := s.unforwarded tid a n noForward
  s.drain fun p => (p.sharesGranule a n && p.ownOrdered tid) || must.contains p.seq

/-- A load of local memory past the scoreboard: what goes first is performed, then memory is read, perhaps with some of the sibling's
stores forwarded (R114; which, is a free choice beyond those it has to see); none while it must wait. -/
def State.loadBytes (s : State) (tid a n : Nat) (noForward : Bool) : Option (List Byte × State) :=
  match s.beforeLoad tid a n noForward with
  | none => none
  | some s =>
    let base := s.bytes a n
    let cand := if noForward then [] else s.forwardable tid a n
    if cand.isEmpty then some (base, s)
    else
      let t := s.th tid
      let seen := (cand.filter t.mustSee).length
      let c := s.fresh
      let s := c.2
      let pick := Nat.max seen ((Config.freeWord c.1).toNat % (cand.length + 1))
      let used := cand.take pick
      let also := drainSet (fun q => used.any fun p => p.seq == q.seq) s.pend
      let t := s.th tid
      let fwd := (t.fwd.filter fun q => s.pend.any fun p => p.seq == q) ++ (also.map (·.seq)).filter fun q => !t.fwd.contains q
      some (used.foldl (overlay a) base, s.setTh tid { t with fwd := fwd })

/-- A load of local memory; none while it must wait, at the scoreboard too (03 R94). -/
def State.loadLocal (s : State) (tid a n : Nat) (noForward : Bool) : Option (List Byte × State) :=
  if s.boardWaits a n s.wseq then none else s.loadBytes tid a n noForward

/-- Performs a thread's earlier accesses at scope .p: those to hosts and peers are handed over, the others reach the pair's memory port
group (R108). None while one waits. -/
def State.toPort (s : State) (tid : Nat) : Option State :=
  match s.drain fun p => p.ownOrdered tid && s.outbound p with
  | none => none
  | some s => some { s with pend := s.pend.map fun p => if p.ownOrdered tid then { p with port := true } else p }

end Sys2Proof.Machine
end

