-- ==== Sys2Proof/Machine/Translate.lean ====
section
/-! DEFINITION. Two-stage translation, its caches, accessed and dirty bits, the dirty bitmap and the checks of one element
(01 R9, R10, R18 to R24, R34, R35; 02 R37 to R65). -/

namespace Sys2Proof.Machine

/-- Why a translation failed: the cause of R222 and what a fault record says of the walk (02 R57). Cause 0 is no failure: the
walk met a page in motion and waits (02 R71). -/
structure TFail where
  cause : Nat
  second : Bool
  lvl : Nat
  malformed : Bool
  gpa : Nat
  /-- address of a second-stage table outside HBM and the die pools (R43) -/
  ownerTable : Option Nat
  deriving DecidableEq, Repr

def TFail.permission : TFail := ⟨cPermission, false, 0, false, 0, none⟩
def TFail.misaligned : TFail := ⟨cMisaligned, false, 0, false, 0, none⟩
def TFail.stall : TFail := ⟨0, false, 0, false, 0, none⟩

/-- Where an element's bytes are: its system-physical address, the operation kind of R20 (0 HBM, 1 die pool, 2 host, 3 peer,
4 scratchpad through a window), the near-memory and hotness attributes, the page for the budget of R55. -/
structure Phys where
  pa : Nat
  kind : Nat
  nm : Bool
  hs : Bool
  s2base : Nat
  s2size : Nat
  /-- the translation used; none through a window -/
  page : Option Tlb
  deriving DecidableEq, Repr

inductive TRes where
  | ok (p : Phys)
  | fail (f : TFail)
  /-- the frame is in motion: the access stalls (02 R71) -/
  | wait
  deriving DecidableEq, Repr

/-- What an access does, for the operation table of R20. -/
inductive Use where
  /-- `rewrite` is the store of a nibble, which reads and rewrites its byte (03 R99) -/
  | load | store | rewrite | fetch
  /-- the read of a value row (16 R347) -/
  | lookup
  | amo (hostOk : Bool)
  | cas | scatterAdd | near | reduce
  deriving DecidableEq, Repr

def Use.reads : Use → Bool
  | .load => true
  | .store => false
  | .rewrite => false
  | .fetch => false
  | _ => true
def Use.writes : Use → Bool
  | .load => false
  | .fetch => false
  | .lookup => false
  | _ => true
/-- Access kind codes of 19 R393. -/
def Use.code : Use → Nat
  | .load => 0
  | .lookup => 0
  | .store => 1
  | .rewrite => 1
  | .fetch => 3
  | _ => 2

/-! ## Page-table entries (02 R37, R38) -/

structure Pte where
  w : Word
  deriving DecidableEq, Repr
def Pte.v (p : Pte) : Bool := p.w.getLsbD 0
def Pte.r (p : Pte) : Bool := p.w.getLsbD 1
def Pte.wr (p : Pte) : Bool := p.w.getLsbD 2
def Pte.x (p : Pte) : Bool := p.w.getLsbD 3
def Pte.u (p : Pte) : Bool := p.w.getLsbD 4
def Pte.a (p : Pte) : Bool := p.w.getLsbD 5
def Pte.d (p : Pte) : Bool := p.w.getLsbD 6
def Pte.c (p : Pte) : Bool := p.w.getLsbD 7
def Pte.kind (p : Pte) : BitVec 2 := p.w.extractLsb' 8 2
def Pte.nm (p : Pte) : Bool := p.w.getLsbD 10
def Pte.hs (p : Pte) : Bool := p.w.getLsbD 11
def Pte.frame (p : Pte) : Nat := bits p.w 51 12 * 4096
def Pte.leaf (p : Pte) : Bool := p.r || p.wr || p.x

/-- R38, for an entry found at a level while translating an address. -/
def Pte.malformed (p : Pte) (level addr : Nat) : Bool :=
  (bits p.w 58 52 != 0) || (p.wr && !p.r) ||
  (p.leaf && 3 ≤ level) || (!p.leaf && level == 0) ||
  (!p.leaf && (p.a || p.d || p.c || p.hs || p.nm || p.kind != 0)) ||
  (p.c && !(p.leaf && level == 0)) ||
  (p.leaf && level == 1 && bits p.w 20 12 != 0) ||
  (p.leaf && level == 2 && bits p.w 29 12 != 0) ||
  (p.leaf && level == 0 && p.c && bits p.w 15 12 != addr / 4096 % 16)

/-- Size class of a leaf at a level (R39): 0 4 KiB, 1 64 KiB, 2 2 MiB, 3 1 GiB. -/
def Pte.sizeClass (p : Pte) (level : Nat) : Nat :=
  if level = 0 then (if p.c then 1 else 0) else level + 1

/-- Bytes of a page of a size class. -/
def classBytes (c : Nat) : Nat := if c = 0 then 2 ^ 12 else if c = 1 then 2 ^ 16 else if c = 2 then 2 ^ 21 else 2 ^ 30

/-- A leaf found by a walk: where its entry lies, the entry, its size class, the translated address, and the table pointers the
walk read in memory. -/
structure Leaf where
  at_ : Nat
  pte : Pte
  size : Nat
  addr : Nat
  ptrs : List WalkPtr := []
  deriving DecidableEq, Repr

/-- The translated address under a leaf: the page base and the offset below the page size. -/
def leafAddr (p : Pte) (size addr : Nat) : Nat :=
  let b := classBytes size
  p.frame / b * b + addr % b

/-- Index of a level (R39). -/
def levelIndex (addr level : Nat) : Nat := addr / 2 ^ (12 + 9 * level) % 512

/-- Whether a cached table pointer answers for an address at a level of a walk (R59). -/
def WalkPtr.serves (p : WalkPtr) (die part asn : Nat) (second : Bool) (level addr : Nat) : Bool :=
  p.die == die && p.part == part && p.second == second && p.asn == asn && p.level == level &&
  p.tag == addr / 2 ^ (12 + 9 * level)

/-- The table a cached pointer names, if the die's walk cache holds it. -/
def State.walkPtr (s : State) (die part asn : Nat) (second : Bool) (level addr : Nat) : Option Nat :=
  (s.wcache.find? fun p => p.serves die part asn second level addr).map (·.next)

/-- Whether a frame lies in a page in motion (R71, R146). -/
def State.inMotion (s : State) (a : Nat) : Bool :=
  s.mig.toList.any fun m => m.busy &&
    (let b := classBytes (bits m.ctl 1 0)
     m.src.toNat / b * b == a / b * b)

/-- The kind check of R19: the frame lies in its kind's range. -/
def kindOk (kind : BitVec 2) (r : Region) : Bool :=
  match kind.toNat, r with
  | 0, .hbm => true
  | 1, .pool _ => true
  | 2, .hostPort _ => true
  | 2, .rootPort _ => true
  | 3, .peer _ _ => true
  | _, _ => false

/-- Reads an entry of a second-stage table (R38, R43). An uncorrectable error in a table changes nothing: the stored bits are used
(log entry 75). -/
def readStage2 (s : State) (gpa level table : Nat) : Except TFail Pte :=
  if !(s.region table).isMain then .error ⟨cPermission, true, level, false, gpa, some table⟩
  else
    let p : Pte := ⟨s.word (table + levelIndex gpa level * 8)⟩
    if !p.v then .error ⟨cTranslation, true, level, false, gpa, none⟩
    else if p.malformed level gpa then .error ⟨cTranslation, true, level, true, gpa, none⟩
    else .ok p

/-- A leaf found in a table at a level. -/
def leafAt (entry : Nat) (p : Pte) (level addr : Nat) (ptrs : List WalkPtr) : Leaf :=
  ⟨entry, p, p.sizeClass level, leafAddr p (p.sizeClass level) addr, ptrs⟩

/-- The second-stage walk of a guest-physical address from a table at a level (R41), through a die's walk cache (R59). An entry at
level 0 that passed R38 is a leaf. -/
def walkStage2 (s : State) (die part gpa : Nat) : (level table : Nat) → List WalkPtr → Except TFail Leaf
  | 0, table, ptrs => (readStage2 s gpa 0 table).map fun p => leafAt (table + levelIndex gpa 0 * 8) p 0 gpa ptrs
  | n + 1, table, ptrs =>
    match s.walkPtr die part 0 true (n + 1) gpa with
    | some next => walkStage2 s die part gpa n next ptrs
    | none =>
      match readStage2 s gpa (n + 1) table with
      | .error f => .error f
      | .ok p =>
        if p.leaf then .ok (leafAt (table + levelIndex gpa (n + 1) * 8) p (n + 1) gpa ptrs)
        else walkStage2 s die part gpa n p.frame (⟨die, part, 0, true, n + 1, gpa / 2 ^ (12 + 9 * (n + 1)), p.frame, gpa⟩ :: ptrs)

/-- The die number of a walk that no die's cache serves: the context engine's, a root port's. -/
def noDie : Nat := 8

/-- Second stage of a partition, after the guest-physical limit (R10, R46). -/
def stage2 (s : State) (die part gpa : Nat) : Except TFail Leaf :=
  let p := s.part part
  if p.gplim.toNat ≤ gpa then .error TFail.permission
  else walkStage2 s die part gpa 4 (p.s2root.toNat) []

/-- Reads the entry of a first-stage table at a guest-physical address: where it lies and what it holds (R38, R43). A table in a page in
motion stalls the walk (R71). Placing a table asks no right of its second-stage leaf (log entry 76). -/
def readStage1 (s : State) (die part va level gat : Nat) : Except TFail (Leaf × Pte) :=
  match stage2 s die part gat with
  | .error f => .error f
  | .ok l2 =>
    if !(s.region l2.addr).isMain || !kindOk l2.pte.kind (s.region l2.addr) then .error TFail.permission
    else if s.inMotion l2.addr then .error TFail.stall
    else
      let p : Pte := ⟨s.word l2.addr⟩
      if !p.v then .error ⟨cTranslation, false, level, false, 0, none⟩
      else if p.malformed level va then .error ⟨cTranslation, false, level, true, 0, none⟩
      else .ok (l2, p)

/-- A first-stage walk: its leaf, the guest-physical address of its entry, and the second-stage leaves that placed the tables read, newest
first (R41, R47), through the die's walk cache (R59). -/
def walkStage1 (s : State) (die part asn va : Nat) : (level table : Nat) → List Leaf → List WalkPtr → Except TFail (Leaf × Nat × List Leaf)
  | 0, table, trail, ptrs =>
    let gat := table + levelIndex va 0 * 8
    (readStage1 s die part va 0 gat).map fun r => (leafAt r.1.addr r.2 0 va ptrs, gat, r.1 :: trail)
  | n + 1, table, trail, ptrs =>
    match s.walkPtr die part asn false (n + 1) va with
    | some next => walkStage1 s die part asn va n next trail ptrs
    | none =>
      let gat := table + levelIndex va (n + 1) * 8
      match readStage1 s die part va (n + 1) gat with
      | .error f => .error f
      | .ok (l2, p) =>
        if p.leaf then .ok (leafAt l2.addr p (n + 1) va ptrs, gat, l2 :: trail)
        else walkStage1 s die part asn va n p.frame (l2 :: trail)
          (⟨die, part, asn, false, n + 1, va / 2 ^ (12 + 9 * (n + 1)), p.frame, gat⟩ :: ptrs)

/-- Sets bits of an entry in memory (A is bit 5, D is bit 6). -/
def State.setPte (s : State) (at_ : Nat) (a d : Bool) : State :=
  let w := s.word at_
  let w' := w ||| (if a then 0x20 else 0) ||| (if d then 0x40 else 0)
  if w' = w then s else s.putWord at_ w'

/-- Most entries a dirty-log filter holds (R52). -/
def filterSize : Nat := 256

/-- The agent numbers of the filters: a pair's is its logical number, an engine context's stands above them; other agents (the context
engine, inbound writers) keep no filter. -/
def pairAgent (tid : Nat) : Nat := pairOf tid
def engineAgent (tid ctx : Nat) : Nat := 1000 + tid * 8 + ctx
def noFilter : Nat := 100000

/-- Sets the dirty-bitmap bit of a guest page for an agent's write, unless its filter holds the page (R50 to R52). -/
def State.setDirty (s : State) (agent part gpage : Nat) : State :=
  let base := (s.part part).dirty.toNat
  if base = 0 then s
  else if s.filt.contains (agent, part, gpage) then s
  else
    let a := base + gpage / 8
    let s := s.putBytes a [s.byte a ||| BitVec.ofNat 8 (2 ^ (gpage % 8))]
    if agent = noFilter then s
    else
      let mine := s.filt.filter fun e => e.1 == agent
      let rest := s.filt.filter fun e => e.1 != agent
      { s with filt := (agent, part, gpage) :: (mine.take (filterSize - 1) ++ rest) }

/-- Applies the marks of a successful walk: A on every leaf used, D for a write, the dirty bits of first-stage table pages
it writes (R47, R49, R51). -/
def State.markWalk (s : State) (agent part : Nat) (l1 : Leaf) (gat : Nat) (trail : List Leaf) (l2 : Leaf) (write : Bool) :
    State :=
  let writes1 := !l1.pte.a || (write && !l1.pte.d)
  let s := trail.foldr (fun (l : Leaf) (s : State) => s.setPte l.at_ true false) s
  let s := match trail with
    | l :: _ => if writes1 then (s.setPte l.at_ true true).setDirty agent part (gat / 4096) else s
    | [] => s
  let s := s.setPte l1.at_ true write
  s.setPte l2.at_ true write

/-- Who translates: its die's caches, partition, address space, level and filter. -/
structure Who where
  tid : Nat
  part : Nat
  atb : Word
  sup : Bool
  agent : Nat
  deriving DecidableEq, Repr

def State.who (s : State) (tid : Nat) : Who :=
  let t := s.th tid
  ⟨tid, (s.pair (pairOf tid)).part.getD 0, t.atb, t.sup, pairAgent tid⟩

/-- Whether a translation covers a virtual address of an address space. -/
def Tlb.covers (e : Tlb) (die part asn va : Nat) : Bool :=
  e.die == die && e.part == part && e.asn == asn && va / classBytes e.size * classBytes e.size == e.vbase

def Who.die (w : Who) : Nat := pairOf w.tid / 32
def Who.asn (w : Who) : Nat := bits w.atb 11 0
/-- The pair whose L1 serves an agent: a thread's own; an engine context uses its die's L2 alone (R59). -/
def Who.l1Pair (w : Who) : Option Nat := if w.agent < 256 then some w.agent else none

/-- The cached translation that covers a virtual address, if any: the pair's L1, then the die's L2. -/
def State.tlbFind (s : State) (w : Who) (va : Nat) : Option Tlb :=
  match (match w.l1Pair with
    | some l => (s.tlb1.find? fun e => e.1 == l && e.2.covers w.die w.part w.asn va).map (·.2)
    | none => none) with
  | some e => some e
  | none => s.tlb.find? fun e => e.covers w.die w.part w.asn va

/-- Entries of an L1 in one size class (R59). -/
def l1Size : Nat := 96

/-- Drops a pair's least recently used entries of a class beyond `room`; the list is most recent first. -/
def lruKeep (pair size : Nat) : (room : Nat) → List (Nat × Tlb) → List (Nat × Tlb)
  | _, [] => []
  | room, e :: t =>
    if e.1 == pair && e.2.size == size then
      match room with
      | 0 => lruKeep pair size 0 t
      | n + 1 => e :: lruKeep pair size n t
    else e :: lruKeep pair size room t

/-- Whether two translations of one address space overlap. -/
def Tlb.clashes (o e : Tlb) : Bool :=
  o.die == e.die && o.part == e.part && o.asn == e.asn &&
  (o.vbase / classBytes e.size * classBytes e.size == e.vbase || e.vbase / classBytes o.size * classBytes o.size == o.vbase)

/-- Makes a translation the most recently used of the pair's L1, the least recently used leaving where its class is full. -/
def State.tlbTouch (s : State) (w : Who) (e : Tlb) : State :=
  match w.l1Pair with
  | none => s
  | some l => { s with tlb1 := lruKeep l e.size l1Size ((l, e) :: s.tlb1.filter fun o => !(o.1 == l && o.2.clashes e)) }

/-- Entries and ways of an L2, and entries of a walk cache (R59). -/
def l2Size : Nat := 8192
def l2Ways : Nat := 8
def wcSize : Nat := 1024

/-- The other translations of an entry's L2 set. Which set a page belongs to is free (log entry 7). -/
def State.l2Set (s : State) (e : Tlb) : List Tlb :=
  let same := s.tlb.filter fun o => o.die == e.die
  if same.length < l2Ways then []
  else same.filter fun o => Config.tlbSet o.part o.vbase o.size % (l2Size / l2Ways) == Config.tlbSet e.part e.vbase e.size % (l2Size / l2Ways)

/-- Installs a translation in the die's L2 and the pair's L1; in a full set a free choice leaves (R59; log entry 7). -/
def State.tlbInstall (s : State) (w : Who) (e : Tlb) : State :=
  let s := { s with tlb := s.tlb.filter fun o => !o.clashes e }
  let set := s.l2Set e
  let s := if set.length < l2Ways then { s with tlb := e :: s.tlb }
    else
      let c := s.fresh
      match set[(Config.freeWord c.1).toNat % l2Ways]? with
      | some v => { c.2 with tlb := e :: s.tlb.filter fun o => o != v }
      | none => { c.2 with tlb := e :: s.tlb }
  s.tlbTouch w e

/-- Keeps a table pointer in its die's walk cache; in a full cache a free choice leaves. -/
def State.ptrInstall (s : State) (p : WalkPtr) : State :=
  if s.wcache.contains p then s
  else
    let same := s.wcache.filter fun o => o.die == p.die
    if same.length < wcSize then { s with wcache := p :: s.wcache }
    else
      let c := s.fresh
      match same[(Config.freeWord c.1).toNat % wcSize]? with
      | some v => { c.2 with wcache := p :: s.wcache.filter fun o => o != v }
      | none => { c.2 with wcache := p :: s.wcache }

/-- Walks both stages for a virtual address: the combined translation (R45) and the state with its marks; the table pointers it
read are cached. -/
def State.walk (s : State) (w : Who) (va : Nat) (write : Bool) : Except TFail (Tlb × (State → State)) :=
  match walkStage1 s w.die w.part w.asn va 4 (bits w.atb 51 12 * 4096) [] [] with
  | .error f => .error f
  | .ok (l1, gat, trail) =>
    match stage2 s w.die w.part l1.addr with
    | .error f => .error f
    | .ok l2 =>
      let size := Nat.min l1.size l2.size
      let b := classBytes size
      let b2 := classBytes l2.size
      let e : Tlb := {
        die := w.die, part := w.part, asn := w.asn,
        vbase := va / b * b, size := size, pbase := l2.addr / b * b, gbase := l1.addr / b * b,
        s2base := l2.addr / b2 * b2, s2size := l2.size,
        r := l1.pte.r && l2.pte.r, w := l1.pte.wr && l2.pte.wr, x := l1.pte.x && l2.pte.x, u := l1.pte.u,
        d := (l1.pte.d && l2.pte.d) || write, kind := l2.pte.kind, nm := l1.pte.nm && l2.pte.nm, hs := l2.pte.hs }
      let ptrs := l2.ptrs ++ l1.ptrs ++ trail.flatMap fun l => l.ptrs
      .ok (e, fun s => ptrs.foldl State.ptrInstall (s.markWalk w.agent w.part l1 gat trail l2 write))

/-- Removes translations from every TLB and table pointers from every walk cache (R64). -/
def State.tlbDrop (s : State) (gone : Tlb → Bool) (ptr : WalkPtr → Bool) : State :=
  { s with
    tlb := s.tlb.filter fun e => !gone e
    tlb1 := s.tlb1.filter fun e => !gone e.2
    wcache := s.wcache.filter fun p => !ptr p }

/-- Whether a request of a thread or of its commands for an address has gone to a peer: a later write of DEVN does not reach it (01 R16). -/
def State.sentTo (s : State) (tid a : Nat) : Bool :=
  s.obs.any fun o => o.tid == tid && !o.posted && o.link.isSome && decide (o.addr ≤ a) && decide (a < o.addr + o.len)

/-- Steps 3 to 5 of R35 for one combined translation: the rights of R44, the kind check of R19, the operations of R20. -/
def State.checkUse (s : State) (w : Who) (e : Tlb) (pa : Nat) (use : Use) : Bool :=
  let right := (!use.reads || e.r) && (!use.writes || e.w) && (use != .fetch || e.x) && (w.sup || e.u)
  let opOk := match use, e.kind.toNat with
    | .fetch, 0 => true
    | .fetch, 1 => true
    | .fetch, _ => false
    | .load, _ => true
    | .store, _ => true
    | .rewrite, _ => true
    | .amo hostOk, 2 => hostOk
    | .amo _, _ => true
    | .cas, _ => true
    | .scatterAdd, k => k != 2
    | .reduce, k => k != 2
    | .near, 0 => e.nm
    | .near, _ => false
    | .lookup, 0 => e.nm
    | .lookup, _ => false
  right && (kindOk e.kind (s.region pa) || (e.kind == 3 && s.sentTo w.tid pa)) && opOk

/-- Canonical form (01 R9). -/
def canonical (va : Nat) : Bool := va < 2 ^ 56 || 2 ^ 64 - 2 ^ 56 ≤ va

/-- The pair-window region and its two windows (01 R21 to R23): none outside it. -/
def State.window (s : State) (w : Who) (va : Nat) : Option (Option Nat) :=
  if 0x00FE000000000000 ≤ va && va < 0x0100000000000000 then
    let l := pairOf w.tid
    if 0x00FF000000000000 ≤ va then
      let o := va - 0x00FF000000000000
      if o < 0x3000000 then some (some (scratchBase (s.physPair l) + o)) else some none
    else
      let o := va - 0x00FE000000000000
      let j := o / 0x4000000
      let off := o % 0x4000000
      let p := s.pair l
      if j < s.pairCount w.part && off < 0x3000000 && (p.xbar.getLsbD j || j == p.idx) then
        match s.pairAt w.part j with
        | some t => some (some (scratchBase (s.physPair t) + off))
        | none => some none
      else some none
  else none

/-- Whether an operation may act on the scratchpad through a window: all but near-memory adds, fetches and reduce targets,
which R20 and R141 admit only on memory kinds (08 R197 for fetch). -/
def Use.windowOk : Use → Bool
  | .fetch => false
  | .near => false
  | .lookup => false
  | .reduce => false
  | _ => true

/-- The record of kind 2 about a second-stage table outside HBM and the die pools (R43; 19 R393). -/
def State.ownerTable (s : State) (r : FaultRec) (f : TFail) : State :=
  match f.ownerTable with
  | some a => (s.post { r with ownerQ := true, kind := 2, flg := 1, cause := cPermission, gpa := w64 f.gpa, value := w64 a }).2
  | none => s

/-- The checks of R35 for one element, in their order, with the marks of a successful walk (R198 translate). The translations in
`used` are those the instruction's other elements use: one page has one translation within an instruction (R65). -/
def State.translateIn (s : State) (used : List Tlb) (w : Who) (va0 : Nat) (align : Nat) (use : Use) : TRes × State :=
  if va0 % align ≠ 0 then (.fail TFail.misaligned, s)
  else if !canonical va0 then (.fail TFail.permission, s)
  else match s.window w va0 with
    | some (some pa) =>
      if use.windowOk then (.ok ⟨pa, 4, false, false, 0, 0, none⟩, s) else (.fail TFail.permission, s)
    | some none => (.fail TFail.permission, s)
    | none =>
      let va := va0 % 2 ^ 57
      let found := match used.find? fun e => e.covers w.die w.part w.asn va with
        | some e => some e
        | none => s.tlbFind w va
      let hit := match found with
        | some e => if use.writes && !e.d then none else some e
        | none => none
      let res : Except TFail (Tlb × (State → State)) := match hit with
        | some e => .ok (e, fun s => s)
        | none => s.walk w va use.writes
      match res with
      | .error f =>
        if f.cause = 0 then (.wait, s)
        else (.fail f, s.ownerTable { s.recFor w.tid true 2 with va := w64 va0, acc := use.code } f)
      | .ok (e, mark) =>
        let off := va - e.vbase
        let pa := e.pbase + off
        if (s.part w.part).gplim.toNat ≤ e.gbase + off then (.fail TFail.permission, s)
        else if s.inMotion pa then (.wait, s)
        else if !s.checkUse w e pa use then (.fail TFail.permission, s)
        else
          let s := if hit.isSome then s.tlbTouch w e else (mark s).tlbInstall w e
          let s := if use.writes then s.setDirty w.agent w.part ((e.gbase + off) / 4096) else s
          (.ok ⟨pa, e.kind.toNat, e.nm, e.hs, e.s2base, e.s2size, some e⟩, s)

/-- The checks of one element that is its instruction's only one. -/
def State.translate (s : State) (w : Who) (va : Nat) (align : Nat) (use : Use) : TRes × State := s.translateIn [] w va align use

end Sys2Proof.Machine
end

