-- ==== Sys2Proof/Machine/Operands.lean ====
section
/-! DEFINITION. Operand forms: register codes and groups (03 R78, R79), where an element lies (R80, R81), capacities (R82), masks
(R85), activity (08 R198), scalar-or-queue operands (08 R184; 10 R233), and the last-result file (03 R84). -/

namespace Sys2Proof.Machine

/-! ## The thread's element context (08 R191) -/

def Thread.et (t : Thread) : Nat := bits t.vty 3 0
def Thread.group (t : Thread) : Nat := 2 ^ bits t.vty 5 4
def Thread.tp (t : Thread) : Bool := t.vty.getLsbD 6
def Thread.mp (t : Thread) : Bool := t.vty.getLsbD 7
def Thread.slc (t : Thread) : Nat := bits t.vty 11 8
def Thread.bt (t : Thread) : Nat := bits t.vty 13 12
/-- N of NCFG (03 R76). -/
def Thread.nregs (t : Thread) : Nat := 8 * 2 ^ t.ncfg.toNat
def Thread.vlen (t : Thread) : Nat := bits t.vl 20 0
def Thread.start (t : Thread) : Nat := bits t.es 20 0
def Thread.resume (t : Thread) : Bool := t.tcr.getLsbD 0
def Thread.tile (t : Thread) : Bool := t.tcr.getLsbD 1
def Thread.ctl (t : Thread) : Ctl := Ctl.of t.fcs
def Thread.ten (t : Thread) : Exc := t.fcs.extractLsb' 16 5

/-! ## Registers -/

/-- A single register: its first byte in a lane slice and its window bytes; `near` for the near bank. -/
structure RegRef where
  near : Bool
  base : Nat
  len : Nat
  deriving DecidableEq, Repr

/-- A register operand: the registers of its group, and its element width in half bytes. -/
structure Operand where
  regs : List RegRef
  nib : Nat
  deriving DecidableEq, Repr

/-- A main register's window (03 R75). -/
def Thread.mainReg (t : Thread) (k : Nat) : RegRef :=
  let w := (t.win[k]?).getD ⟨0, 0⟩
  ⟨false, w.base.toNat * 8, w.len.toNat * 8⟩

/-- The registers a 6-bit code names at a group size; none when absent (R78, R79). Code 63 is absent as a destination under N ≤ 32. -/
def Thread.codeRegs (t : Thread) (code : BitVec 6) (g : Nat) (dest : Bool) : Option (List RegRef) :=
  let c := code.toNat
  let n := t.nregs
  if c < n then
    if c % g = 0 && c + g ≤ n then some ((List.range g).map fun j => t.mainReg (c + j)) else none
  else if c < 56 then none
  else if c = 63 && dest then none
  else some [⟨true, (c - 56) * 256, 256⟩]

def Thread.operand (t : Thread) (code : BitVec 6) (g nib : Nat) (dest : Bool) : Option Operand :=
  (t.codeRegs code g dest).map fun r => ⟨r, nib⟩

/-- y0 and y1 (R74). -/
def y0Ref : RegRef := ⟨true, 0x600, 256⟩
def y1Ref : RegRef := ⟨true, 0x700, 256⟩

/-- Where a thread's lanes lie: its number, physical pair and the physical lanes in thread order. -/
structure Lanes where
  tid : Nat
  pp : Nat
  phys : List Nat
  /-- lane group of each thread lane, its slice (04 R109) -/
  grp : List Nat
  deriving DecidableEq, Repr

def State.lanesOf (s : State) (tid : Nat) : Lanes :=
  let l := pairOf tid
  let gs := groupsOf (s.held tid)
  let ls := gs.flatMap fun g => (List.range 8).map fun i => g * 8 + i
  ⟨tid, s.physPair l, ls.map fun i => s.physLane l i, ls.map fun i => i / 8⟩

def Lanes.count (x : Lanes) : Nat := x.phys.length
/-- Slice of the thread's lane that holds element i of a register. -/
def Lanes.slice (x : Lanes) (i : Nat) : Nat := if x.count = 0 then 8 else (x.grp[i % x.count]?).getD 8

/-- Capacity of a register and of an operand (R81). -/
def RegRef.cap (r : RegRef) (lanes nib : Nat) : Nat := lanes * (r.len * 2 / nib)
def Operand.cap (o : Operand) (lanes : Nat) : Nat := (o.regs.map fun r => r.cap lanes o.nib).foldl (· + ·) 0
/-- Mask capacity (R85). -/
def maskCap (lanes : Nat) : Nat := lanes * 2048

/-- The register of a group that holds element i, and the index in it. -/
def placeIn (lanes nib : Nat) : List RegRef → Nat → Option (RegRef × Nat)
  | [], _ => none
  | r :: t, i => if i < r.cap lanes nib then some (r, i) else placeIn lanes nib t (i - r.cap lanes nib)

/-- Slice of an element of an operand: by its place within the register in which it falls (04 R109). -/
def Lanes.sliceOf (x : Lanes) (o : Operand) (i : Nat) : Nat :=
  match placeIn x.count o.nib o.regs i with
  | some (_, j) => x.slice j
  | none => x.slice i

/-- Storage key of an element's first byte, and whether it is a high nibble (R80). -/
def Lanes.key (x : Lanes) (r : RegRef) (nib i : Nat) : Nat × Bool :=
  let pl := (x.phys[i % x.count]?).getD 0
  let h := i / x.count * nib
  (regKey x.pp ((if r.near then nearOff pl else mainOff pl) + r.base + h / 2), h % 2 == 1)

/-- Reads an element's bits. -/
def State.elem (s : State) (x : Lanes) (o : Operand) (i : Nat) : Nat :=
  match placeIn x.count o.nib o.regs i with
  | none => 0
  | some (r, j) =>
    let k := x.key r o.nib j
    if o.nib = 1 then
      let b := (cellGet s.regs k.1).toNat
      if k.2 then b / 16 else b % 16
    else leNat (s.regBytes k.1 (o.nib / 2))

/-- Whether an element's storage fails its parity (R103). -/
def State.elemFails (s : State) (x : Lanes) (o : Operand) (i : Nat) : Bool :=
  if s.regBad.isEmpty then false
  else match placeIn x.count o.nib o.regs i with
  | none => false
  | some (r, j) => s.regFails (x.key r o.nib j).1 ((o.nib + 1) / 2)

/-- Writes an element's bits; a 4-bit element changes its own nibble. -/
def State.setElem (s : State) (x : Lanes) (o : Operand) (i v : Nat) : State :=
  match placeIn x.count o.nib o.regs i with
  | none => s
  | some (r, j) =>
    let k := x.key r o.nib j
    if o.nib = 1 then
      let b := (cellGet s.regs k.1).toNat
      s.putReg k.1 [BitVec.ofNat 8 (if k.2 then v % 16 * 16 + b % 16 else b / 16 * 16 + v % 16)]
    else s.putReg k.1 (leBytes (o.nib / 2) v)

/-! ## Masks (R85) -/

def Lanes.maskKey (x : Lanes) (m i : Nat) : Nat :=
  let pl := (x.phys[i % x.count]?).getD 0
  regKey x.pp (maskOff pl + m * 256 + i / x.count / 8)
def State.maskBit (s : State) (x : Lanes) (m i : Nat) : Bool :=
  if x.count = 0 then false else (cellGet s.regs (x.maskKey m i)).getLsbD (i / x.count % 8)
def State.maskFails (s : State) (x : Lanes) (m i : Nat) : Bool :=
  if s.regBad.isEmpty || x.count = 0 then false else s.regFails (x.maskKey m i) 1
def State.setMaskBit (s : State) (x : Lanes) (m i : Nat) (v : Bool) : State :=
  if x.count = 0 then s
  else
    let k := x.maskKey m i
    let b := cellGet s.regs k
    let bit : Byte := BitVec.ofNat 8 (2 ^ (i / x.count % 8))
    s.putReg k [if v then b ||| bit else b &&& ~~~bit]

/-- The activity a mask field gives element i within [ES, VL) (08 R198). -/
def State.active (s : State) (x : Lanes) (mask : BitVec 3) (neg : Bool) (i : Nat) : Bool :=
  mask == 0 || (s.maskBit x mask.toNat i != neg)

/-! ## Scalar or queue operands (08 R184) -/

/-- A VX word's scalar: the register, or the oldest entry of q0 when Q is 1; none while q0 is empty (06 R153). -/
def State.scalarOrQueue (s : State) (n : BitVec 5) (q : BitVec 1) : Option Word :=
  if q = 1 then s.me.q0.head? else some (s.sr n)
/-- Pops q0 when Q is 1. -/
def State.popQ0 (s : State) (q : BitVec 1) : State :=
  if q = 1 then s.setMe { s.me with q0 := s.me.q0.drop 1 } else s
/-- Whether q1 has room for a result (32 entries). -/
def Thread.q1Room (t : Thread) : Bool := t.q1.length < 32
/-- A scalar result: to the register, or to q1 when Q is 1. -/
def State.scalarResult (s : State) (d : BitVec 5) (q : BitVec 1) (v : Word) : State :=
  if q = 1 then s.setMe { s.me with q1 := s.me.q1 ++ [v] } else s.setS d v

/-- A scalar result of an element type: integers extended by R233, floating point with zeros above. -/
def scalarOfElem (et v : Nat) : Word :=
  if codeSigned et then BitVec.ofInt 64 (codeInt et v) else w64 (v % 2 ^ codeBits et)
/-- R233: signed for INT types and floating-point types. -/
def etSigned (et : Nat) : Bool := codeIsFloat et || codeSigned et
/-- An element as R233's integer view. -/
def etInt (et v : Nat) : Int := intOf (etSigned et) (codeBits et) v

/-! ## The last-result file (R84) -/

/-- Moves stored bytes with their parity. -/
def State.moveReg (s : State) (src dst n : Nat) : State :=
  let s' := { s with regs := (sparse s.regs src n dst).foldl (fun (m : List Host.Cell) (c : Host.Cell) => cellPut m c.1 c.2) (cellsZero s.regs dst n) }
  let keep := s.regBad.filter fun k => !(decide (dst ≤ k) && decide (k < dst + n))
  let moved := (s.regBad.filter fun k => decide (src ≤ k) && decide (k < src + n)).map fun k => dst + (k - src)
  { s' with regBad := keep ++ moved }

/-- y1 ← y0 over the thread's lanes. -/
def State.rotateY (s : State) (x : Lanes) : State :=
  x.phys.foldl (fun (s : State) pl =>
    s.moveReg (regKey x.pp (nearOff pl + 0x600)) (regKey x.pp (nearOff pl + 0x700)) 256) s

/-- Copies an element's stored bits to another operand; a byte whose parity fails fails there too. -/
def State.keepElem (s : State) (x : Lanes) (src dst : Operand) (i : Nat) : State :=
  let t := s.setElem x dst i (s.elem x src i)
  if s.regBad.isEmpty then t
  else match placeIn x.count src.nib src.regs i, placeIn x.count dst.nib dst.regs i with
    | some (r, j), some (q, k) =>
      let a := (x.key r src.nib j).1
      let b := (x.key q dst.nib k).1
      let bad := ((List.range ((src.nib + 1) / 2)).filter fun m => s.regFails (a + m) 1).map (b + ·)
      { t with regBad := bad ++ t.regBad }
    | _, _ => t

/-- y0 receives a destination's elements 0 to E_y - 1: those the instruction wrote, as `res` gives them, and the others as they
stand, with their parity. Elements y0 cannot hold are dropped; bytes of y0 beyond a shorter destination stay (log entry 79). -/
def State.resultToY0 (s : State) (x : Lanes) (dst : Operand) (res : Nat → Option Nat) : State :=
  let o : Operand := ⟨[y0Ref], dst.nib⟩
  let n := Nat.min (o.cap x.count) (dst.cap x.count)
  (List.range n).foldl (fun (s : State) i =>
    match res i with
    | some v => s.setElem x o i v
    | none => s.keepElem x dst o i) s

end Sys2Proof.Machine
end

