-- ==== Sys2Proof/Machine/Frame.lean ====
section
/-! DEFINITION. The run-ahead pipeline and the frame of vector instructions: failures, suspension (02 R53 to R58), loads and
refusals (01 R33), the page budget (R55), hotness (R67), streams (03 R97 to R101), and the frame of 08 R199. -/

namespace Sys2Proof.Machine

/-! ## Failures -/

/-- A failure at an element: its cause, TRA, the TVA of a trap, and what a fault record says of it. -/
structure Fail where
  cause : Nat
  addr : Word
  value : Word
  tf : TFail
  acc : Nat
  deriving DecidableEq, Repr

def noT : TFail := ⟨0, false, 0, false, 0, none⟩
def Fail.ofT (f : TFail) (va : Word) (use : Use) : Fail := ⟨f.cause, va, va, f, use.code⟩
def Fail.lost (va : Word) : Fail := ⟨cDataLost, va, va, noT, 0⟩
def Fail.refused (va : Word) : Fail := ⟨cPermission, va, va, noT, 0⟩
def Fail.arith (e : Exc) : Fail := ⟨cArithmetic, 0, w64 e.toNat, noT, 0⟩
def Fail.budget (va : Word) : Fail := ⟨cPageBudget, va, 0, noT, 0⟩
def Fail.capacity : Fail := ⟨cCapacity, 0, 0, noT, 0⟩
def Fail.preempted : Fail := ⟨cPreempted, 0, 0, noT, 0⟩
def Fail.overflow : Fail := ⟨cFieldOverflow, 0, 0, noT, 0⟩

/-- Forgets the replies an instruction of the thread was waiting for. -/
def State.dropRequests (s : State) (tid : Nat) : State :=
  { s with obs := s.obs.filter fun o => !(o.tid == tid && o.cmd.isNone && !o.posted) }

/-- Suspends the moving thread on a translation failure and posts its record, counting repeats (R56 to R58). -/
def State.suspend (s : State) (f : Fail) : State :=
  let s := s.dropRequests s.tid
  let t := s.me
  let page := f.addr.toNat / 4096
  let n := match t.lastFault with
    | some o => if o.pc = t.pc && o.page = page && o.second == f.tf.second then Nat.min 16 (o.count + 1) else 0
    | none => 0
  let esc := n == 16
  let r := { s.recFor s.tid (f.tf.second || esc) 1 with
    flg := BitVec.ofNat 8 ((if f.tf.second then 1 else 0) + (if f.tf.malformed then 2 else 0) + (if 0 < n then 4 else 0) +
      (if esc then 8 else 0))
    lvl := f.tf.lvl, acc := f.acc, rpt := n, cause := cTranslation, va := f.addr
    gpa := if f.tf.second then w64 f.tf.gpa else 0 }
  let s := s.setMe { t with run := .suspended, lastFault := some ⟨t.pc, page, f.tf.second, n⟩ }
  s.postStop s.tid r

/-- A failure at the leading element: a translation suspends, any other cause traps (R56; 06 R161). -/
def State.faultAt (s : State) (f : Fail) : State :=
  if f.cause = cTranslation then s.suspend f else (s.dropRequests s.tid).trap f.cause 0 f.value

/-! ## Accesses -/

/-- One access of an element: address, bytes, alignment and use. -/
structure Acc where
  va : Word
  n : Nat
  align : Nat
  use : Use
  deriving DecidableEq, Repr

/-- An access with its translation. -/
structure Placed where
  acc : Acc
  at_ : Phys
  deriving DecidableEq, Repr

/-- What a scan of elements found: each element's values in ascending order, the lowest failure, or that it must wait. -/
structure Scan (α : Type) where
  got : List (Nat × α)
  fail : Option (Nat × Fail)
  wait : Bool
  deriving DecidableEq, Repr

/-- The most distinct pages of one instruction (R55). -/
def pageBudget : Nat := 1024

/-- Whether two translations are of one combined page. -/
def Tlb.samePage (e o : Tlb) : Bool := e.vbase == o.vbase && e.size == o.size

/-- The translations an instruction uses, with that of one more access: each page once, in its newest form. -/
def addPage (used : List Tlb) (p : Phys) : List Tlb :=
  match p.page with
  | none => used
  | some e => if used.any e.samePage then used.map fun o => if e.samePage o then e else o else e :: used

/-- Translates the accesses of one element in turn (R53), then counts its pages (R55; 14 R301). An element that fails leaves the marks
of its failing walk alone: its other pages are reached only at the element where translation stopped (R49). `s0` and `used0` are what it
began with; `past` is the access that met the page budget. -/
def translateAccs (w : Who) (s0 : State) (used0 : List Tlb) : List Acc → (State × List Tlb × List Placed) → Option Word →
    Except (Option Fail) (State × List Tlb × List Placed) × State
  | [], r, past =>
    match past with
    | none => (.ok r, r.1)
    | some va => (.error (some (Fail.budget va)), s0)
  | a :: rest, (s, used, done), past =>
    match s.translateIn used w a.va.toNat a.align a.use with
    | (.fail f, s) =>
      (.error (some (Fail.ofT f a.va a.use)), if done.isEmpty then s else (s0.translateIn used0 w a.va.toNat a.align a.use).2)
    | (.wait, s) => (.error none, s)
    | (.ok p, s) =>
      let used' := addPage used p
      let past' := if past.isNone && decide (pageBudget < used'.length) then some a.va else past
      translateAccs w s0 used0 rest (s, used', done ++ [⟨a, p⟩]) past'

/-- Translates elements in ascending order up to the first that fails (R53). -/
def translateFrom (w : Who) (accs : Nat → List Acc) : List Nat → State → List Tlb → List (Nat × List Placed) →
    Scan (List Placed) × State
  | [], s, _, got => (⟨got, none, false⟩, s)
  | i :: rest, s, used, got =>
    match translateAccs w s used (accs i) (s, used, []) none with
    | (.error (some f), s) => (⟨got, some (i, f), false⟩, s)
    | (.error none, s) => (⟨got, none, true⟩, s)
    | (.ok (_, used, ps), s) => translateFrom w accs rest s used (got ++ [(i, ps)])

/-- Drops the cached translations without D of the pages an instruction writes: each is walked afresh before its first use, so that
all elements on the page use one translation (R48, R65). -/
def State.freshen (s : State) (w : Who) (accs : List Acc) : State :=
  let stale (e : Tlb) : Bool := !e.d && accs.any fun a => a.use.writes && e.covers w.die w.part w.asn (a.va.toNat % 2 ^ 57)
  if s.tlb.any stale || s.tlb1.any (fun e => stale e.2) then s.tlbDrop stale fun _ => false else s

/-- Translates the elements of an instruction, beside translations it already uses. -/
def translateElems (w : Who) (accs : Nat → List Acc) (is : List Nat) (s : State) (used : List Tlb) (got : List (Nat × List Placed)) :
    Scan (List Placed) × State :=
  translateFrom w accs is (s.freshen w (is.flatMap accs)) used got

/-- Translations an instruction uses, with those of translated elements. -/
def usedWith (used : List Tlb) (placed : List (Nat × List Placed)) : List Tlb :=
  placed.foldl (fun used e => e.2.foldl (fun used p => addPage used p.at_) used) used
def usedOf (placed : List (Nat × List Placed)) : List Tlb := usedWith [] placed

/-- Whether an access leaves the module (kinds 2 and 3). -/
def Phys.isOutbound (p : Phys) : Bool := p.kind == 2 || p.kind == 3

/-- Sends a non-posted request of a thread or a command; one that cannot reach its peer is refused at once (20 R409). `keep` marks one
that its instruction may not leave. -/
def State.request (s : State) (tid : Nat) (cmd : Option (Nat × Nat)) (a n : Nat) (keep : Bool) (msg : Nat → Wire → OutMsg)
    (hot : Option (Nat × Nat) := none) : State :=
  let t := s.th tid
  let link : Option Nat := match s.region a with
    | .peer dev _ => some (s.routePort dev)
    | _ => none
  let ok := match s.region a with
    | .peer dev _ => s.reaches dev
    | _ => true
  { s.setTh tid { t with obNext := t.obNext + 1 } with
    out := if ok then msg t.obNext (s.wire a) :: s.out else s.out
    obs := s.obs ++ [{ tid := tid, k := t.obNext, cmd := cmd, posted := false, addr := a, len := n, va := 0, pc := 0,
                       reply := if ok then .none else .refused, link := link, keep := keep, hot := hot }] }

/-- The thread's non-posted requests for an instruction or a command. -/
def State.asked (s : State) (tid : Nat) (cmd : Option (Nat × Nat)) : List OutReq :=
  s.obs.filter fun o => o.tid == tid && o.cmd == cmd && !o.posted

/-- Asks for reads outside the module, each behind the thread's own writes of its granule and what it has to see of its sibling's (04
R110, R112, R116). None while one waits. -/
def State.askReads (s : State) (tid : Nat) (keep : Bool) : List (Nat × Nat) → Option State
  | [] => some s
  | r :: rest =>
    match s.beforeLoad tid (r.1 / 64 * 64) 64 true with
    | none => none
    | some s => (s.request tid none r.1 r.2 keep fun k w => .request tid k w r.2).askReads tid keep rest

/-- Sends the reads of an instruction that it has not sent, then waits for every reply: the replies with what they answer, or none
while some is still missing. `last` says that nothing more will be asked. -/
def State.replies (s : State) (tid : Nat) (reqs : List (Nat × Nat)) (keep : Bool := false) (last : Bool := true) :
    Option (List ((Nat × Nat) × Reply)) × State :=
  if reqs.isEmpty then (some [], s)
  else
    let have_ := s.asked tid none
    let missing := reqs.filter fun r => !(have_.any fun o => decide (o.addr ≤ r.1) && decide (r.1 + r.2 ≤ o.addr + o.len))
    if !missing.isEmpty then (none, (s.askReads tid keep missing).getD s)
    else if have_.any fun o => o.reply == .none then (none, s)
    else (some (have_.map fun o => ((o.addr, o.len), o.reply)), if last then s.dropRequests tid else s)

/-- The requests of accesses outside the module: those in one granule are one request, of the bytes they span (02 R66). -/
def granuleReqs (as_ : List (Nat × Nat)) : List (Nat × Nat) :=
  as_.foldl (fun (acc : List (Nat × Nat)) a =>
    if acc.any fun r => r.1 / 64 == a.1 / 64 then
      acc.map fun r => if r.1 / 64 == a.1 / 64 then
          let lo := Nat.min r.1 a.1
          (lo, Nat.max (r.1 + r.2) (a.1 + a.2) - lo)
        else r
    else acc ++ [a]) []

/-- What an instruction has read so far: the replies to its requests, and the granules of local memory, each read once so that all its
elements see one value of a byte (04 R111). -/
structure Seen where
  reps : List ((Nat × Nat) × Reply)
  grans : List (Nat × List Byte)
  deriving DecidableEq, Repr

/-- The bytes of an access among the replies; none where its request was refused. -/
def Seen.reply (v : Seen) (a n : Nat) : Option (List Byte) :=
  match v.reps.find? fun r => decide (r.1.1 ≤ a) && decide (a + n ≤ r.1.1 + r.1.2) with
  | some (r, .data bs) => some ((List.range n).map fun i => (bs[a - r.1 + i]?).getD 0)
  | _ => none

/-- Loads bytes of local memory for an instruction, through what it has read; none while they wait. -/
def State.loadSeen (s : State) (tid a n : Nat) (noForward : Bool) (v : Seen) : Option (List Byte × Seen × State) :=
  if s.boardWaits a n s.wseq then none
  else match v.grans.find? fun g => g.1 == a / 64 with
    | some g => some ((g.2.drop (a % 64)).take n, v, s)
    | none =>
      match s.loadBytes tid (a / 64 * 64) 64 noForward with
      | none => none
      | some (bs, s) => some ((bs.drop (a % 64)).take n, { v with grans := (a / 64, bs) :: v.grans }, s)

/-- Whether an access reads before it acts: a load, or the byte outside the module that a 4-bit write rewrites. -/
def Placed.loads (p : Placed) : Bool := p.acc.use == .load || (p.acc.use == .rewrite && p.at_.isOutbound)

/-- Reads one placed access: from a reply when it left the module, else from local memory (R90, R252). -/
def readPlaced (tid : Nat) (noForward : Bool) (p : Placed) (v : Seen) (s : State) : Except (Option Fail) (List Byte × Seen) × State :=
  if p.at_.isOutbound then
    match v.reply p.at_.pa p.acc.n with
    | some bs => (.ok (bs, v), s)
    | none => (.error (some (Fail.refused p.acc.va)), s)
  else
    match s.loadSeen tid p.at_.pa p.acc.n noForward v with
    | none => (.error none, s)
    | some (bs, v, s') => if s'.lostIn p.at_.pa p.acc.n then (.error (some (Fail.lost p.acc.va)), s) else (.ok (bs, v), s')

/-- Reads the loads among an element's accesses. -/
def readAccs (tid : Nat) : List Placed → Seen → List (List Byte) → State → Except (Option Fail) (List (List Byte) × Seen) × State
  | [], v, got, s => (.ok (got, v), s)
  | p :: rest, v, got, s =>
    if !p.loads then readAccs tid rest v got s
    else match readPlaced tid false p v s with
      | (.error e, s) => (.error e, s)
      | (.ok (bs, v), s) => readAccs tid rest v (got ++ [bs]) s

/-- Reads the loads of elements in ascending order: what they gave, what has been read, and the state. -/
def readElems (tid : Nat) : List (Nat × List Placed) → Seen → List (Nat × List (List Byte)) → State →
    Scan (List (List Byte)) × Seen × State
  | [], v, got, s => (⟨got, none, false⟩, v, s)
  | (i, ps) :: rest, v, got, s =>
    match readAccs tid ps v [] s with
    | (.error (some f), s) => (⟨got, some (i, f), false⟩, v, s)
    | (.error none, s) => (⟨got, none, true⟩, v, s)
    | (.ok (bs, v), s) => readElems tid rest v (got ++ [(i, bs)]) s

/-- The requests translated elements make outside the module. -/
def outboundReqs (els : List (Nat × List Placed)) : List (Nat × Nat) :=
  granuleReqs (els.flatMap fun e => (e.2.filter fun p => p.loads && p.at_.isOutbound).map fun p => (p.at_.pa, p.acc.n))

/-- Loads translated elements beside what the instruction has read: the non-posted requests together, then each element in turn (R252).
`keep` marks the requests of an operation that runs to completion. -/
def State.loadBeside (s : State) (tid : Nat) (v : Seen) (els : List (Nat × List Placed)) (keep last : Bool) :
    Scan (List (List Byte)) × Seen × State :=
  match s.replies tid (outboundReqs els) keep last with
  | (none, s) => (⟨[], none, true⟩, v, s)
  | (some reps, s') =>
    match readElems tid els { v with reps := reps } [] s' with
    | (⟨_, _, true⟩, _) => (⟨[], none, true⟩, v, s)
    | r => r

/-- Loads the translated elements of an instruction that has read nothing yet. -/
def State.loadElems (s : State) (tid : Nat) (els : List (Nat × List Placed)) (keep : Bool := false) : Scan (List (List Byte)) × State :=
  let r := s.loadBeside tid ⟨[], []⟩ els keep true
  (r.1, r.2.2)

/-! ## Hotness (R67, R68) -/

def sat32 (n : Nat) : BitVec 32 := BitVec.ofNat 32 (Nat.min n 0xFFFFFFFF)

/-- Adds n elements of a class (0 unit-stride, 1 strided, 2 indexed) to a page's entry in a die's table. -/
def State.hotAdd (s : State) (die part cls : Nat) (s2base s2size n : Nat) : State :=
  let d := s.die die
  if !d.hctlEn || d.hctlClr then s
  else
    let f := s2base / 4096
    let idx := (f ^^^ (f / 65536)) % 65536
    let tag := w64 (1 + s2size * 2 + part * 8 + s2base)
    let e := mapGet ((0 : Word), (0 : BitVec 32), (0 : BitVec 32), (0 : BitVec 32)) d.hot idx
    let bump (e : Word × BitVec 32 × BitVec 32 × BitVec 32) : Word × BitVec 32 × BitVec 32 × BitVec 32 :=
      match cls with
      | 0 => (e.1, sat32 (e.2.1.toNat + n), e.2.2.1, e.2.2.2)
      | 1 => (e.1, e.2.1, sat32 (e.2.2.1.toNat + n), e.2.2.2)
      | _ => (e.1, e.2.1, e.2.2.1, sat32 (e.2.2.2.toNat + n))
    if !e.1.getLsbD 0 then s.setDie die { d with hot := mapPut idx (bump (tag, 0, 0, 0)) d.hot }
    else if e.1 = tag then s.setDie die { d with hot := mapPut idx (bump e) d.hot }
    else s.setDie die { d with hmiss := w64 (Nat.min (d.hmiss.toNat + n) 0xFFFFFFFF) }

/-- The sampled pages of one element's accesses by hotness class, in order, each page once (R67). Class 3 is not counted. -/
def hotPages (parts : List (Nat × List Placed)) : List (Nat × Phys) :=
  parts.foldl (fun (l : List (Nat × Phys)) part =>
    if 3 ≤ part.1 then l
    else part.2.foldl (fun (l : List (Nat × Phys)) p =>
      if p.at_.hs && !(l.any fun q => q.2.s2base == p.at_.s2base) then l ++ [(part.1, p.at_)] else l) l) []

/-- Counts one element of an instruction on the sampled pages it touches. -/
def State.countElem (s : State) (w : Who) (parts : List (Nat × List Placed)) : State :=
  (hotPages parts).foldl (fun (s : State) p => s.hotAdd (pairOf w.tid / 32) w.part p.1 p.2.s2base p.2.s2size 1) s

/-- Counts elements whose accesses are all of one class. -/
def State.countHot (s : State) (w : Who) (cls : Nat) (els : List (Nat × List Placed)) : State :=
  els.foldl (fun (s : State) e => s.countElem w [(cls, e.2)]) s

/-! ## Streams (03 R97 to R101) -/

/-- The slot bound to a register code, if any. -/
def Thread.boundSlot (t : Thread) (code : BitVec 6) : Option Nat :=
  if t.nregs ≤ code.toNat then none
  else (List.range 8).find? fun j => match (t.binds[j]?).getD none with
    | some b => b.reg == code
    | none => false
def Thread.bound (t : Thread) (code : BitVec 6) (write : Bool) : Option Bind :=
  match t.boundSlot code with
  | none => none
  | some j => match (t.binds[j]?).getD none with
    | some b => if b.ctl.getLsbD 0 == write then some b else none
    | none => none
def Bind.sc (b : Bind) : Bool := b.ctl.getLsbD 1
/-- Formats with scale bytes: B4 and scaled FP8. -/
def Bind.scaled (b : Bind) : Bool := b.fmt == 6 || b.sc
/-- Address and scale address of stream element j (R98). -/
def Bind.addrOf (b : Bind) (j : Nat) : Word :=
  if b.fmt == 6 || b.fmt == 7 then b.base + w64 (j / 2) else b.base + w64 j * b.stride
def Bind.scaleAddr (b : Bind) (j : Nat) : Word := b.scale + w64 (j / 32)
/-- Elements left before END: the capacity a stream gives a strip. -/
def Bind.left (b : Bind) : Nat := b.fin.toNat - b.pos.toNat

/-- The accesses that read stream element P0 + i. -/
def Bind.readAccs (b : Bind) (i : Nat) : List Acc :=
  let j := b.pos.toNat + i
  let n := codeBytes b.fmt.toNat
  ⟨b.addrOf j, n, n, .load⟩ :: (if b.scaled then [⟨b.scaleAddr j, 1, 1, .load⟩] else [])
/-- Exact value of a stream element from its data and scale bytes (R98, R168). -/
def Bind.value (b : Bind) (fz : Bool) (j : Nat) (bs : List (List Byte)) : Val :=
  let d := leNat (bs.headD [])
  let sc := leNat ((bs.drop 1).headD [])
  let nibv := if j % 2 = 0 then d % 16 else d / 16 % 16
  if b.fmt == 6 then (b4Val (sc / 64) nibv).scale ((sc % 64 : Int) - 32)
  else if b.fmt == 7 then Val.ofInt (codeInt 7 nibv)
  else
    let v := codeVal b.fmt.toNat fz d
    if b.sc then v.scale ((sc % 64 : Int) - 32) else v
/-- Stream element P0 + i decoded to an element type, with its exceptions: as `vcvt` does it, so that the element index of its stochastic
bits is the instruction's own (R99, R175; 07 R178). -/
def Bind.decode (b : Bind) (et : Nat) (c : Ctl) (i : Nat) (bs : List (List Byte)) : Nat × Exc :=
  let f := b.fmt.toNat
  let j := b.pos.toNat + i
  if !b.scaled && f ≠ 7 then convCode f et c (i % 2 ^ 32) 0 (leNat (bs.headD []))
  else if f = 7 && codeIsInt et then
    let d := leNat (bs.headD [])
    (codeOfInt (codeBits et) (codeInt 7 (if j % 2 = 0 then d % 16 else d / 16 % 16)), 0)
  else convVal et c (i % 2 ^ 32) 0 (b.value c.fz j bs)

/-- Largest magnitude a block scale is chosen for: B4 by its type, FP8 by its format (12 R287). -/
def scaleMax (b4 : Bool) (ty : Nat) (e4 : Bool) : Nat :=
  if b4 then (match ty with
    | 0 => 7 | 1 => 6 | 2 => 8 | _ => 96)
  else if e4 then 448 else 57344

/-- The exponent E of a block: the smallest that holds its largest finite magnitude; 63 when none does or an element is infinite; 32
when nothing but zeros and NaNs stands in it (12 R287; log entry 19). -/
def blockExp (vmax : Nat) (vals : List Val) : Nat :=
  if vals.any Val.isInf then 63
  else
    let fin := vals.filter fun v => match v with
      | .num _ m _ _ => m != 0
      | _ => false
    if fin.isEmpty then 32
    else
      let mag (v : Val) : Val := if v.neg then v.negate else v
      ((List.range 64).find? fun (e : Nat) =>
        fin.all fun v => decide ((mag v).cmp (.num false vmax ((e : Int) - 32) false) ≤ 0)).getD 63

end Sys2Proof.Machine
end

