-- ==== Sys2Proof/Machine/Flags.lean ====
section
/-! DEFINITION. The floating-point flags and trap enables of FCS, and the completion of a scalar floating-point instruction
(07 R170 to R172; 09 R215). -/

namespace Sys2Proof.Machine

/-- Raises sticky flags in FCS.FLG (bits 12:8). -/
def Thread.addFlags (t : Thread) (e : Exc) : Thread := { t with fcs := t.fcs ||| (e.zeroExtend 64 <<< 8) }

/-- The exceptions of an operation that its enables turn into a cause (R172). -/
def Thread.enabled (t : Thread) (e : Exc) : Bool := (t.ten &&& e) != 0

/-- A scalar floating-point result: an enabled exception traps with no flag set and no register written; else the flags are set and
the register written (R215). -/
def State.fpResult (s : State) (d : BitVec 5) (r : Nat × Exc) : State :=
  if s.me.enabled r.2 then s.trap cArithmetic 0 (w64 r.2.toNat)
  else ((s.setMe (s.me.addFlags r.2)).setS d (w64 r.1)).retire

end Sys2Proof.Machine
end

