-- ==== Sys2Proof/Machine/ScalarInt.lean ====
section
/-! DEFINITION. Integer scalar instructions (09 R203 to R205). -/

namespace Sys2Proof.Machine

/-- A meaning's answer. -/
abbrev Out := Host.Outcome State Fault Refusal

/-- A scalar result: the register is written and the instruction completes. -/
def State.result (s : State) (d : BitVec 5) (v : Word) : State := (s.setS d v).retire

/-- The value 1 or 0 of a comparison. -/
def flag (b : Bool) : Word := if b then 1 else 0

/-- Signed division truncated toward zero, never trapping (R204). -/
def sdiv (a b : Word) : Word := if b = 0 then BitVec.allOnes 64 else a.sdiv b
def udiv (a b : Word) : Word := if b = 0 then BitVec.allOnes 64 else a.udiv b
/-- Remainder with the sign of the dividend (R204). -/
def srem (a b : Word) : Word := if b = 0 then a else a.srem b
def urem (a b : Word) : Word := if b = 0 then a else a.umod b

def mulHighS (a b : Word) : Word := BitVec.ofInt 64 (a.toInt * b.toInt / 2 ^ 64)
def mulHighU (a b : Word) : Word := BitVec.ofNat 64 (a.toNat * b.toNat / 2 ^ 64)

/-- Leading and trailing zero bits, 64 for zero; set bits. -/
def clz64 (a : Word) : Word := if a = 0 then 64 else w64 (63 - Nat.log2 a.toNat)
def ctz64 (a : Word) : Word := w64 (((List.range 64).find? fun i => a.getLsbD i).getD 64)
def popc64 (a : Word) : Word := w64 ((List.range 64).filter fun i => a.getLsbD i).length

/-- A sign-extended immediate. -/
def imm {n : Nat} (i : BitVec n) : Word := i.signExtend 64

def execAdd (d n m : BitVec 5) (s : State) : Out := .next (s.result d (s.sr n + s.sr m))
def execSub (d n m : BitVec 5) (s : State) : Out := .next (s.result d (s.sr n - s.sr m))
def execAnd (d n m : BitVec 5) (s : State) : Out := .next (s.result d (s.sr n &&& s.sr m))
def execOr (d n m : BitVec 5) (s : State) : Out := .next (s.result d (s.sr n ||| s.sr m))
def execXor (d n m : BitVec 5) (s : State) : Out := .next (s.result d (s.sr n ^^^ s.sr m))
def execShl (d n m : BitVec 5) (s : State) : Out := .next (s.result d (s.sr n <<< ((s.sr m).toNat % 64)))
def execShr (d n m : BitVec 5) (s : State) : Out := .next (s.result d (s.sr n >>> ((s.sr m).toNat % 64)))
def execSra (d n m : BitVec 5) (s : State) : Out := .next (s.result d ((s.sr n).sshiftRight ((s.sr m).toNat % 64)))
def execSlt (d n m : BitVec 5) (s : State) : Out := .next (s.result d (flag ((s.sr n).slt (s.sr m))))
def execSltu (d n m : BitVec 5) (s : State) : Out := .next (s.result d (flag ((s.sr n).ult (s.sr m))))
def execMul (d n m : BitVec 5) (s : State) : Out := .next (s.result d (s.sr n * s.sr m))
def execMulh (d n m : BitVec 5) (s : State) : Out := .next (s.result d (mulHighS (s.sr n) (s.sr m)))
def execMulhu (d n m : BitVec 5) (s : State) : Out := .next (s.result d (mulHighU (s.sr n) (s.sr m)))
def execDiv (d n m : BitVec 5) (s : State) : Out := .next (s.result d (sdiv (s.sr n) (s.sr m)))
def execDivu (d n m : BitVec 5) (s : State) : Out := .next (s.result d (udiv (s.sr n) (s.sr m)))
def execRem (d n m : BitVec 5) (s : State) : Out := .next (s.result d (srem (s.sr n) (s.sr m)))
def execRemu (d n m : BitVec 5) (s : State) : Out := .next (s.result d (urem (s.sr n) (s.sr m)))
def execMin (d n m : BitVec 5) (s : State) : Out :=
  .next (s.result d (if (s.sr n).slt (s.sr m) then s.sr n else s.sr m))
def execMax (d n m : BitVec 5) (s : State) : Out :=
  .next (s.result d (if (s.sr n).slt (s.sr m) then s.sr m else s.sr n))
def execMinu (d n m : BitVec 5) (s : State) : Out :=
  .next (s.result d (if (s.sr n).ult (s.sr m) then s.sr n else s.sr m))
def execMaxu (d n m : BitVec 5) (s : State) : Out :=
  .next (s.result d (if (s.sr n).ult (s.sr m) then s.sr m else s.sr n))
def execClz (d n : BitVec 5) (s : State) : Out := .next (s.result d (clz64 (s.sr n)))
def execCtz (d n : BitVec 5) (s : State) : Out := .next (s.result d (ctz64 (s.sr n)))
def execPopc (d n : BitVec 5) (s : State) : Out := .next (s.result d (popc64 (s.sr n)))
def execSel (d n m x : BitVec 5) (s : State) : Out := .next (s.result d (if s.sr x = 0 then s.sr m else s.sr n))
def execAddsh (d n m x : BitVec 5) (s : State) : Out := .next (s.result d (s.sr n + (s.sr m <<< x.toNat)))

def execAddi (d n : BitVec 5) (i : BitVec 13) (s : State) : Out := .next (s.result d (s.sr n + imm i))
def execAndi (d n : BitVec 5) (i : BitVec 13) (s : State) : Out := .next (s.result d (s.sr n &&& imm i))
def execOri (d n : BitVec 5) (i : BitVec 13) (s : State) : Out := .next (s.result d (s.sr n ||| imm i))
def execXori (d n : BitVec 5) (i : BitVec 13) (s : State) : Out := .next (s.result d (s.sr n ^^^ imm i))
def execSlti (d n : BitVec 5) (i : BitVec 13) (s : State) : Out := .next (s.result d (flag ((s.sr n).slt (imm i))))
def execShli (d n : BitVec 5) (i : BitVec 6) (s : State) : Out := .next (s.result d (s.sr n <<< i.toNat))
def execShri (d n : BitVec 5) (i : BitVec 6) (s : State) : Out := .next (s.result d (s.sr n >>> i.toNat))
def execSrai (d n : BitVec 5) (i : BitVec 6) (s : State) : Out := .next (s.result d ((s.sr n).sshiftRight i.toNat))
def execLdhi (d : BitVec 5) (i : BitVec 21) (s : State) : Out := .next (s.result d (imm i * 4096))

end Sys2Proof.Machine
end

