-- ==== Sys2Proof/Machine/ScalarFp.lean ====
section
/-! DEFINITION. Scalar floating point (09 R212 to R215). -/

namespace Sys2Proof.Machine

/-- FP32 or FP64 by the P bit. -/
def scalarFmt (p : BitVec 1) : Fmt := if p = 1 then fmt64 else fmt32
/-- An operand: its low bits (R212). -/
def State.fpArg (s : State) (n : BitVec 5) (p : BitVec 1) : Nat :=
  if p = 1 then (s.sr n).toNat else (s.sr n).toNat % 2 ^ 32

/-- A two-operand instruction, rounded once with elem 0. -/
def State.fop (s : State) (o : FOp) (d n m : BitVec 5) (p : BitVec 1) : State :=
  s.fpResult d (o.run (scalarFmt p) s.me.ctl 0 0 (s.fpArg n p) (s.fpArg m p))

def execFadd (d n m : BitVec 5) (p : BitVec 1) (s : State) : Out := .next (s.fop .add d n m p)
def execFsub (d n m : BitVec 5) (p : BitVec 1) (s : State) : Out := .next (s.fop .sub d n m p)
def execFmul (d n m : BitVec 5) (p : BitVec 1) (s : State) : Out := .next (s.fop .mul d n m p)
def execFdiv (d n m : BitVec 5) (p : BitVec 1) (s : State) : Out := .next (s.fop .div d n m p)
def execFmin (d n m : BitVec 5) (p : BitVec 1) (s : State) : Out := .next (s.fop .min d n m p)
def execFmax (d n m : BitVec 5) (p : BitVec 1) (s : State) : Out := .next (s.fop .max d n m p)
def execFsqrt (d n : BitVec 5) (p : BitVec 1) (s : State) : Out :=
  .next (s.fpResult d (sqrtRun (scalarFmt p) s.me.ctl 0 (s.fpArg n p)))
def execFma (d n m x : BitVec 5) (p : BitVec 1) (s : State) : Out :=
  .next (s.fpResult d (fmaRun (scalarFmt p) s.me.ctl 0 0 false false (s.fpArg n p) (s.fpArg m p) (s.fpArg x p)))

/-- Conditions of scalar and vector compares (09 R213; 10 R241). -/
inductive FCond where
  | eq | ne | lt | le | unord | ord
  deriving DecidableEq, Repr

/-- A floating-point comparison and its exceptions. -/
def FCond.run (c : FCond) (x y : Val) : Bool × Exc :=
  let un := x.isNan || y.isNan
  let sn := nvIf (x.isSnan || y.isSnan)
  match c with
  | .eq => (!un && x.cmp y == 0, sn)
  | .ne => (un || x.cmp y != 0, sn)
  | .lt => (!un && decide (x.cmp y < 0), nvIf un)
  | .le => (!un && decide (x.cmp y ≤ 0), nvIf un)
  | .unord => (un, sn)
  | .ord => (!un, sn)

/-- Condition codes of fcmp. -/
def scalarCond (x : BitVec 5) : FCond :=
  if x = 0 then .eq else if x = 1 then .lt else if x = 2 then .le else .unord

def execFcmp (d n m x : BitVec 5) (p : BitVec 1) (s : State) : Out :=
  let f := scalarFmt p
  let fz := s.me.ctl.fz
  let r := (scalarCond x).run (f.operand fz (s.fpArg n p)) (f.operand fz (s.fpArg m p))
  .next (s.fpResult d (if r.1 then 1 else 0, r.2))

/-- Source and target format codes of an fcvt conversion (R214). -/
def fcvtCodes (x : Nat) : Nat × Nat :=
  match x with
  | 0 => (0, 1)
  | 1 => (1, 0)
  | 2 => (1, 14)
  | 3 => (0, 14)
  | 4 => (14, 1)
  | 5 => (14, 0)
  | 6 => (1, 15)
  | 7 => (0, 15)
  | 8 => (15, 1)
  | 9 => (15, 0)
  | 10 => (1, 2)
  | 11 => (2, 1)
  | 12 => (1, 3)
  | _ => (3, 1)

def execFcvt (d n x : BitVec 5) (s : State) : Out :=
  let c := fcvtCodes x.toNat
  .next (s.fpResult d (convCode c.1 c.2 s.me.ctl 0 0 ((s.sr n).toNat % 2 ^ codeBits c.1)))

end Sys2Proof.Machine
end

