-- ==== Sys2Proof/Machine/Contexts.lean ====
section
/-! DEFINITION. Shared operations on contexts: power leave (20 R418; 18 R389), the matrix-tile unit (06 R162; 12 R266, R267), and the
end of a context (06 R157; 09 R221; 19 R399). -/

namespace Sys2Proof.Machine

/-! ## Power leave -/

def Die.used (d : Die) : Nat := d.granted.foldl (fun a r => a + r.weight) 0
/-- The budget in force: halved while the input power is over its limit. -/
def State.budget (s : State) (d : Nat) : Nat := if s.overPower then (s.die d).budget / 2 else (s.die d).budget

/-- Whether the governor grants the request at the head. -/
def State.grantable (s : State) (d : Nat) : Bool :=
  match (s.die d).waiting with
  | r :: _ => (s.die d).used == 0 || decide ((s.die d).used + r.weight ≤ s.budget d)
  | [] => false

/-- Asks for leave: the request joins the die's queue; one that cannot be granted at once counts as waiting (R389). -/
def State.askLeaveAt (s : State) (d : Nat) (r : PowerReq) : State :=
  let x := s.die d
  let now := x.waiting.isEmpty && (s.setDie d { x with waiting := [r] }).grantable d
  let s := s.setDie d { x with waiting := x.waiting ++ [{ r with waited := !now }] }
  let s := if now then s
    else
      let p := s.pair (pairOf r.tid)
      s.setPair (pairOf r.tid) { p with paw := w64 (Nat.min (p.paw.toNat + 1) (2 ^ 64 - 1)) }
  if r.tile then s.setTh r.tid { s.th r.tid with leaveAsked := true } else s
/-- Asks the thread's own die. -/
def State.askLeave (s : State) (r : PowerReq) : State := s.askLeaveAt (pairOf r.tid / 32) r

/-- Grants the head request of a die when the budget allows (R418). The cycles a request that waited has spent waiting are free (log
entry 12); one granted at once has spent none. -/
def State.grantHead (s : State) (d : Nat) : State :=
  let x := s.die d
  match x.waiting with
  | r :: rest =>
    if s.grantable d then
      let s := s.setDie d { x with waiting := rest, granted := x.granted ++ [r] }
      let s := if r.waited then
          let p := s.pair (pairOf r.tid)
          let c := s.fresh
          c.2.setPair (pairOf r.tid) { p with pac := w64 (Nat.min (p.pac.toNat + (Config.freeWord c.1).toNat) (2 ^ 64 - 1)) }
        else s
      if r.tile then s.setTh r.tid { s.th r.tid with leave := true, leaveAsked := false } else s
    else s
  | [] => s

/-- Withdraws or returns leave at a die. -/
def State.dropLeaveAt (s : State) (d tid : Nat) (gone : PowerReq → Bool) : State :=
  let x := s.die d
  s.setDie d { x with
    waiting := x.waiting.filter fun r => !(r.tid == tid && gone r)
    granted := x.granted.filter fun r => !(r.tid == tid && gone r) }

/-- A thread gives up its leave for tile mode, asked or held. -/
def State.dropTileLeave (s : State) (tid : Nat) : State :=
  let s := s.dropLeaveAt (pairOf tid / 32) tid fun r => r.tile
  s.setTh tid { s.th tid with leave := false, leaveAsked := false }

/-- Whether a request is the one a command made. -/
def PowerReq.ofCmd (ctx num : Nat) (r : PowerReq) : Bool := !r.tile && r.ctx == ctx && r.num == num

/-- A command's leave is returned when the command is performed. -/
def State.dropCmdLeave (s : State) (tid ctx num : Nat) : State :=
  (List.range 8).foldl (fun (s : State) d =>
    if ((s.die d).granted ++ (s.die d).waiting).any (fun r => r.tid == tid && r.ofCmd ctx num) then
      s.dropLeaveAt d tid (PowerReq.ofCmd ctx num)
    else s) s

/-- Whether a command holds leave. -/
def State.cmdLeave (s : State) (tid ctx num : Nat) : Bool :=
  (List.range 8).any fun d => (s.die d).granted.any fun r => r.tid == tid && r.ofCmd ctx num
/-- Whether a command's request waits. -/
def State.cmdAsked (s : State) (tid ctx num : Nat) : Bool :=
  (List.range 8).any fun d => (s.die d).waiting.any fun r => r.tid == tid && r.ofCmd ctx num

/-! ## The matrix-tile unit -/

/-- Zeroes a0 to a7 and invalidates every weight-buffer slot. -/
def State.zeroTile (s : State) (l : Nat) : State :=
  let s := s.zeroReg (regKey (s.physPair l) (accOff 0)) (8 * 40960)
  s.setPair l { s.pair l with wb := Vector.replicate 16 0 }

/-- TCR.TMD of a thread. -/
def Thread.setTmd (t : Thread) (b : Bool) : Thread := { t with tcr := setBits t.tcr 1 1 (if b then 1 else 0) }

/-- Leaves tile mode: the shape is cleared, the unit and the leave are released (R266). -/
def State.leaveTile (s : State) (tid : Nat) : State :=
  let s := s.dropTileLeave tid
  let s := s.setTh tid { (s.th tid).setTmd false with tm := 0, tn := 0, tk := 0 }
  let l := pairOf tid
  let p := s.pair l
  s.setPair l { p with tmu := if p.tmu = some tid then none else p.tmu }

/-! ## The end of a context -/

/-- Releases a thread's lane groups; their contents stay (R157). -/
def State.setHeld (s : State) (tid : Nat) (h : Byte) : State :=
  let l := pairOf tid
  let p := s.pair l
  s.setPair l (if tid % 2 = 0 then { p with held0 := h } else { p with held1 := h })

/-- An iteration has executed kend: it no longer gates (18 R380). -/
def State.iterationDone (s : State) (part prio rec iter : Nat) : State :=
  let p := s.part part
  s.setPart part { p with walk := p.walk.map fun w =>
    if w.prio = prio && w.j = rec then { w with live := w.live.filter (· != iter) } else w }

/-- Counts a replay that does not apply in its queue's RBAD (19 R397). -/
def State.replayLost (s : State) (part : Nat) (r : Replay) : State :=
  let base := s.fqBase r.ownerQ part
  if r.ownerQ && base = 0 then s else s.bump (base + 0x30)

/-- Ends a thread's context as kend does (R221, R399): tile mode is left, the lanes are released, and the iteration counts as having
executed kend. A pending replay stays where it is for a context set aside from the thread; any other no longer applies (19 R397). -/
def State.endContext (s : State) (tid : Nat) : State :=
  let s := if (s.th tid).tile then s.leaveTile tid else s.dropTileLeave tid
  let s := s.dropRequests tid
  let s := s.setHeld tid 0
  let t := s.th tid
  let kept := match t.replay, (s.pair (pairOf tid)).part with
    | some r, some n =>
      if (s.part n).aside.any fun a => a.tid == tid && a.waiting && a.fseq == r.token && a.fOwner == r.ownerQ then t.replay else none
    | _, _ => none
  let s := match t.replay, kept, (s.pair (pairOf tid)).part with
    | some r, none, some n => s.replayLost n r
    | _, _, _ => s
  let s := s.setTh tid { t with
    run := .free, ceHalted := false, refused := none, refAside := false, fullSave := false, waiting := false, noFetch := false, cut := 0, sup := false,
    tca := t.tca &&& ~~~(w64 (2 ^ 17)), rps := 0, toPost := [], replay := kept, debt := 0, vq := [] }
  match (s.pair (pairOf tid)).part with
  | some n => s.iterationDone n t.lq t.lrec t.iter
  | none => s

end Sys2Proof.Machine
end

