-- ==== Sys2Proof/Machine/ScalarMem.lean ====
section
/-! DEFINITION. Scalar loads, stores, atomics and compare-and-swap (09 R206 to R209; 04 R107 to R125). -/

namespace Sys2Proof.Machine

/-- What a scalar access gave. -/
inductive Got where
  | ok (bytes : List Byte)
  | fail (f : Fail)
  | wait
  deriving DecidableEq, Repr

/-- One load of the moving thread (R206): its bytes, its failure, or that it waits. `counted` says whether it counts as hot (02 R67: an
engine's command record does not). -/
def State.scalarLoad (s : State) (va : Word) (n : Nat) (noForward : Bool) (counted : Bool := true) : Got × State :=
  match s.translate (s.who s.tid) va.toNat n .load with
  | (.fail f, s) => (.fail (Fail.ofT f va .load), s)
  | (.wait, s) => (.wait, s)
  | (.ok p, s) =>
    let reqs := if p.isOutbound then [(p.pa, n)] else []
    match s.replies s.tid reqs with
    | (none, s) => (.wait, s)
    | (some reps, s) =>
      match readPlaced s.tid noForward ⟨⟨va, n, n, .load⟩, p⟩ ⟨reps, []⟩ s with
      | (.error none, s) => (.wait, s)
      | (.error (some f), s) => (.fail f, s)
      | (.ok (bs, _), s) => (.ok bs, if counted then s.countHot (s.who s.tid) 0 [(0, [⟨⟨va, n, n, .load⟩, p⟩])] else s)

/-- Completes a scalar access: the register is written, a failure suspends or traps, a wait leaves the instruction to be tried
again. -/
def State.finish (r : Got × State) (k : List Byte → State → State) : State :=
  match r with
  | (.ok bs, s) => k bs s
  | (.fail f, s) => s.faultAt f
  | (.wait, s) => s

/-- A loaded value of n bytes, extended. -/
def extend (signed : Bool) (n : Nat) (bs : List Byte) : Word :=
  if signed then BitVec.ofInt 64 (intOf true (8 * n) (leNat bs)) else w64 (leNat bs)

/-- A scalar load into a register. -/
def State.load (s : State) (d : BitVec 5) (va : Word) (n : Nat) (signed noForward : Bool) : State :=
  State.finish (s.scalarLoad va n noForward) fun bs s => s.result d (extend signed n bs)

/-- One committed store of the moving thread through the scalar slice (04 R109). -/
def State.store (s : State) (va : Word) (n : Nat) (v : Word) (release wide : Bool) : State :=
  match s.translate (s.who s.tid) va.toNat n .store with
  | (.fail f, s) => s.faultAt (Fail.ofT f va .store)
  | (.wait, s) => s
  | (.ok p, s) =>
    ((s.commit s.tid 8 va p.pa (.store (leBytes n v.toNat)) release wide).countHot (s.who s.tid) 0
      [(0, [⟨⟨va, n, n, .store⟩, p⟩])]).retire

def execLdB (d n : BitVec 5) (i : BitVec 13) (s : State) : Out := .next (s.load d (s.sr n + imm i) 1 true false)
def execLdBu (d n : BitVec 5) (i : BitVec 13) (s : State) : Out := .next (s.load d (s.sr n + imm i) 1 false false)
def execLdH (d n : BitVec 5) (i : BitVec 13) (s : State) : Out := .next (s.load d (s.sr n + imm i) 2 true false)
def execLdHu (d n : BitVec 5) (i : BitVec 13) (s : State) : Out := .next (s.load d (s.sr n + imm i) 2 false false)
def execLdW (d n : BitVec 5) (i : BitVec 13) (s : State) : Out := .next (s.load d (s.sr n + imm i) 4 true false)
def execLdWu (d n : BitVec 5) (i : BitVec 13) (s : State) : Out := .next (s.load d (s.sr n + imm i) 4 false false)
def execLdD (d n : BitVec 5) (i : BitVec 13) (s : State) : Out := .next (s.load d (s.sr n + imm i) 8 false false)
def execStB (d n : BitVec 5) (i : BitVec 13) (s : State) : Out := .next (s.store (s.sr n + imm i) 1 (s.sr d) false false)
def execStH (d n : BitVec 5) (i : BitVec 13) (s : State) : Out := .next (s.store (s.sr n + imm i) 2 (s.sr d) false false)
def execStW (d n : BitVec 5) (i : BitVec 13) (s : State) : Out := .next (s.store (s.sr n + imm i) 4 (s.sr d) false false)
def execStD (d n : BitVec 5) (i : BitVec 13) (s : State) : Out := .next (s.store (s.sr n + imm i) 8 (s.sr d) false false)

/-! ## Ordered accesses (R207) -/

/-- Bytes and signedness of a width code (R206). -/
def widthBytes (w : BitVec 5) : Nat := 2 ^ (w.toNat / 2)
def widthSigned (w : BitVec 5) : Bool := w.toNat % 2 == 0

def isAcq (o : BitVec 2) : Bool := o.getLsbD 0
def isRel (o : BitVec 2) : Bool := o.getLsbD 1
/-- Scope .d or wider (04 R107), and scope .y. -/
def isWide (sc : BitVec 2) : Bool := sc != 0
def isSystem (sc : BitVec 2) : Bool := sc == 3

/-- A release at scope .y waits until every earlier access is performed there (R108, R119); any other is ordered at memory by the
write's own place. None: it waits. -/
def State.releaseReady (s : State) (o sc : BitVec 2) : Option State :=
  if isRel o && isSystem sc then
    match s.drainCumulative s.tid with
    | none => none
    | some s => if s.acked s.tid then some s else none
  else some s

def execLdOrdered (d n w : BitVec 5) (o sc : BitVec 2) (s : State) : Out :=
  .next (s.load d (s.sr n) (widthBytes w) (widthSigned w) (isAcq o && isWide sc))

def execStOrdered (n m w : BitVec 5) (o sc : BitVec 2) (s : State) : Out :=
  .next (match s.translate (s.who s.tid) (s.sr n).toNat (widthBytes w) .store with
    | (.ok _, _) =>
      (match s.releaseReady o sc with
      | none => s
      | some s => s.store (s.sr n) (widthBytes w) (s.sr m) (isRel o) (isWide sc))
    | _ => s.store (s.sr n) (widthBytes w) (s.sr m) (isRel o) (isWide sc))

/-! ## Atomics (R208, R209) -/

/-- The new value of an atomic at a width in bits (R208). -/
def atomicApply (op : AtomicOp) (n : Nat) (old v : Nat) : Nat :=
  let a := old % 2 ^ n
  let b := v % 2 ^ n
  match op with
  | .add => (a + b) % 2 ^ n
  | .and => a &&& b
  | .or => a ||| b
  | .xor => a ^^^ b
  | .swap => b
  | .min => if intOf true n a < intOf true n b then a else b
  | .max => if intOf true n a < intOf true n b then b else a
  | .minu => Nat.min a b
  | .maxu => Nat.max a b

/-- The writes an atomic waits for: the scalar slice, its granule, its thread's barrier, what it read by forwarding, and for a
release everything earlier (R110, R112, R114, R116, R119, R121). -/
def State.beforeAtomic (s : State) (a n : Nat) (o sc : BitVec 2) (p : Pend) : Bool :=
  let t := s.th s.tid
  (p.ownOrdered s.tid && (p.slice == 8 || p.sharesGranule a n || decide (p.seq < t.barrier) || isRel o)) ||
  t.fwdBar.contains p.seq ||
  (p.tid == sibling s.tid && t.mustSee p && p.sharesGranule a n) ||
  (t.fwd.contains p.seq && isRel o && isWide sc)

/-- Whether an operation of a thread may not be left before it ends: a request it made has acted at its target, or belongs to an operation
that runs to completion (04 R104; 18 R387). -/
def State.kept (s : State) (tid : Nat) : Bool := s.obs.any fun o => o.tid == tid && o.cmd.isNone && !o.posted && o.keep

/-- The reply to an atomic that has gone out: the instruction takes it as it is, whatever has become of its translation. It counts on its
sampled page when it has acted (02 R67). -/
def State.atomicReply (s : State) (va : Word) (n : Nat) (q : OutReq) : Got × State :=
  match q.reply with
  | .none => (.wait, s)
  | .data bs =>
    let s := s.dropRequests s.tid
    (.ok (bs.take n), match q.hot with
      | some (base, size) => s.hotAdd (s.myL / 32) s.myPart 0 base size 1
      | none => s)
  | .refused => (.fail (Fail.refused va), s)

/-- The scope an atomic is performed with: .y on host kind, whatever is written (01 R20; R123). -/
def Phys.scope (p : Phys) (sc : BitVec 2) : BitVec 2 := if p.kind = 2 then 3 else sc

/-- Performs an atomic of the moving thread: `f` gives the value written, if any. The read is at memory (R123); on host or peer kind
the request goes out and its reply is the old value. -/
def State.atomic (s : State) (va : Word) (n : Nat) (use : Use) (o sc : BitVec 2) (msg : Nat → Wire → OutMsg)
    (f : Nat → Option Nat) : Got × State :=
  match (s.asked s.tid none).find? fun q => q.keep with
  | some q => s.atomicReply va n q
  | none =>
    match s.translate (s.who s.tid) va.toNat n use with
    | (.fail g, s) => (.fail (Fail.ofT g va use), s)
    | (.wait, s) => (.wait, s)
    | (.ok p, s) =>
      let sc := p.scope sc
      match s.drain (s.beforeAtomic p.pa n o sc) with
      | none => (.wait, s)
      | some s =>
        let counted (s : State) : State := s.countHot (s.who s.tid) 0 [(0, [⟨⟨va, n, n, use⟩, p⟩])]
        if isRel o && isSystem sc && !s.acked s.tid then (.wait, s)
        else if p.isOutbound then (.wait, s.request s.tid none p.pa n true msg (if p.hs then some (p.s2base, p.s2size) else none))
        else if s.boardWaits p.pa n s.wseq then (.wait, s)
        else if s.lostIn p.pa n then (.fail (Fail.lost va), s)
        else
          let old := s.bytes p.pa n
          match f (leNat old) with
          | none => (.ok old, counted s)
          | some v => (.ok old, (counted s).putBytes p.pa (leBytes n v))

/-- An amo (R208): 8 or 4 bytes; the old value, sign-extended, to the register. -/
def State.amo (s : State) (op : AtomicOp) (d n m : BitVec 5) (w : BitVec 1) (o sc : BitVec 2) : State :=
  let bytes := if w = 1 then 4 else 8
  let v := s.sr m
  State.finish
    (s.atomic (s.sr n) bytes (.amo (op == .add || op == .swap)) o sc
      (fun k dest => .atomic s.tid k dest op (w != 1) v) (fun old => some (atomicApply op (8 * bytes) old v.toNat)))
    fun bs s => s.result d (extend true bytes bs)

def execAmoadd (d n m : BitVec 5) (w : BitVec 1) (o sc : BitVec 2) (s : State) : Out := .next (s.amo .add d n m w o sc)
def execAmoand (d n m : BitVec 5) (w : BitVec 1) (o sc : BitVec 2) (s : State) : Out := .next (s.amo .and d n m w o sc)
def execAmoor (d n m : BitVec 5) (w : BitVec 1) (o sc : BitVec 2) (s : State) : Out := .next (s.amo .or d n m w o sc)
def execAmoxor (d n m : BitVec 5) (w : BitVec 1) (o sc : BitVec 2) (s : State) : Out := .next (s.amo .xor d n m w o sc)
def execAmoswap (d n m : BitVec 5) (w : BitVec 1) (o sc : BitVec 2) (s : State) : Out := .next (s.amo .swap d n m w o sc)
def execAmomin (d n m : BitVec 5) (w : BitVec 1) (o sc : BitVec 2) (s : State) : Out := .next (s.amo .min d n m w o sc)
def execAmomax (d n m : BitVec 5) (w : BitVec 1) (o sc : BitVec 2) (s : State) : Out := .next (s.amo .max d n m w o sc)
def execAmominu (d n m : BitVec 5) (w : BitVec 1) (o sc : BitVec 2) (s : State) : Out := .next (s.amo .minu d n m w o sc)
def execAmomaxu (d n m : BitVec 5) (w : BitVec 1) (o sc : BitVec 2) (s : State) : Out := .next (s.amo .maxu d n m w o sc)

/-- cas (R125, R209): compares with sn, writes sm on success; a releasing success order waits before the read whatever the compare
gives. The failure order asks nothing more, since this model's loads are performed in program order (log entry 6). -/
def execCas (d n m x : BitVec 5) (o sc _f : BitVec 2) (s : State) : Out :=
  let cmp := s.sr n
  let new := s.sr m
  .next (State.finish
    (s.atomic (s.sr x) 8 .cas o sc (fun k dest => .cas s.tid k dest cmp new)
      (fun old => if old = cmp.toNat then some new.toNat else none))
    fun bs s => s.result d (extend true 8 bs))

end Sys2Proof.Machine
end

