-- ==== Sys2Proof/Machine/Control.lean ====
section
/-! DEFINITION. Branches and jumps (09 R210, R211), system instructions (09 R218 to R226), fences (04 R120, R121, R129), tlbi
(02 R63, R64), and the words a replay refuses (15 R322). -/

namespace Sys2Proof.Machine

/-- Within a replay the word traps with sub-cause "mode" (R322). -/
def State.unlessReplay (s : State) (word : BitVec 32) (k : State → State) : State :=
  if s.me.replaying then s.illegal word .mode else k s

/-! ## Branches and jumps -/

/-- A branch to PC + 4 × offset when the condition holds. -/
def State.branch (s : State) {n : Nat} (c : Bool) (o : BitVec n) : State :=
  if c then s.jump (s.me.pc + 4 * imm o) else s.retire

def execBeq (n m : BitVec 5) (o : BitVec 13) (s : State) : Out :=
  .next (s.unlessReplay (Enc.beq n m o) fun s => s.branch (s.sr n == s.sr m) o)
def execBne (n m : BitVec 5) (o : BitVec 13) (s : State) : Out :=
  .next (s.unlessReplay (Enc.bne n m o) fun s => s.branch (s.sr n != s.sr m) o)
def execBlt (n m : BitVec 5) (o : BitVec 13) (s : State) : Out :=
  .next (s.unlessReplay (Enc.blt n m o) fun s => s.branch ((s.sr n).slt (s.sr m)) o)
def execBge (n m : BitVec 5) (o : BitVec 13) (s : State) : Out :=
  .next (s.unlessReplay (Enc.bge n m o) fun s => s.branch (!(s.sr n).slt (s.sr m)) o)
def execBltu (n m : BitVec 5) (o : BitVec 13) (s : State) : Out :=
  .next (s.unlessReplay (Enc.bltu n m o) fun s => s.branch ((s.sr n).ult (s.sr m)) o)
def execBgeu (n m : BitVec 5) (o : BitVec 13) (s : State) : Out :=
  .next (s.unlessReplay (Enc.bgeu n m o) fun s => s.branch (!(s.sr n).ult (s.sr m)) o)

/-- vloop (R211). -/
def execVloop (n : BitVec 5) (o : BitVec 13) (s : State) : Out :=
  .next (s.unlessReplay (Enc.vloop n o) fun s =>
    if n = 0 then s.illegal (Enc.vloop n o) .reservedField
    else
      let v := if s.me.vl.ult (s.sr n) then s.sr n - s.me.vl else 0
      (s.setS n v).branch (v != 0) o)

def execJal (d : BitVec 5) (i : BitVec 21) (s : State) : Out :=
  .next (s.unlessReplay (Enc.jal d i) fun s => (s.setS d (s.me.pc + 4)).jump (s.me.pc + 4 * imm i))

/-- jalr (R210, R197): a misaligned target traps and leaves sd unwritten. -/
def execJalr (d n : BitVec 5) (i : BitVec 13) (s : State) : Out :=
  .next (s.unlessReplay (Enc.jalr d n i) fun s =>
    let target := s.sr n + imm i
    if target.toNat % 4 ≠ 0 then s.trap cMisaligned 0 target
    else (s.setS d (s.me.pc + 4)).jump target)

/-! ## Traps and returns -/

/-- An instruction of level S only, at level U: cause "permission", TVA = 0 (R218). -/
def State.needS (s : State) (k : State → State) : State := if s.me.sup then k s else s.trap cPermission 0 0

def execTrap (x : BitVec 5) (s : State) : Out :=
  .next (s.unlessReplay (Enc.trap x) fun s => s.trap cTrap 0 (x.zeroExtend 64))
def execBrk (x : BitVec 5) (s : State) : Out :=
  .next (s.unlessReplay (Enc.brk x) fun s => s.trap cBreak 0 (x.zeroExtend 64))
def execTret (s : State) : Out := .next (s.unlessReplay Enc.tret fun s => s.needS State.tret)

/-- An executed word that encodes no instruction (08 R194, R195); a replay refuses every word of major 0x05 first (15 R322). -/
def execIllegalInstruction (w : BitVec 32) (sub : IllegalSub) (s : State) : Out :=
  .next (s.illegal w (if s.me.replaying && w.extractLsb' 26 6 == 5 then .mode else sub))

def execNop (_h : BitVec 26) (s : State) : Out := .next s.retire

/-! ## Fences -/

/-- A full fence at a scope (R121): at scope .p everything earlier has reached the pair's memory port group and goes to memory before later
writes, so that whoever reads one of those by forwarding carries it (R122); at the wider ones it is
performed at memory; at system scope every peer write is acknowledged too. None: it waits. -/
def State.fullFence (s : State) (tid : Nat) (sc : BitVec 2) : Option State × State :=
  if !isWide sc then ((s.toPort tid).map fun s => s.fenceRel tid false, s)
  else match s.drainCumulative tid with
    | none => (none, s)
    | some s => if isSystem sc && !s.acked tid then (none, s) else (some s, s)

/-- Continues past something that may wait. -/
def State.andThen (r : Option State × State) (k : State → State) : State :=
  match r with
  | (some s, _) => k s
  | (none, s) => s

/-- fence (R121). Acquire order is that of this model's loads (log entry 6); a release at system scope waits. -/
def execFence (o sc : BitVec 2) (s : State) : Out :=
  .next (if o = 1 then s.retire
    else if o = 2 && !isSystem sc then (s.fenceRel s.tid (isWide sc)).retire
    else State.andThen (s.fullFence s.tid sc) State.retire)

/-- lsync (R120): waits until the thread's slices have drained. -/
def execLsync (s : State) : Out :=
  .next (match s.drainAll s.tid with
    | none => s
    | some s => s.retire)

/-- ifence (R129): waits for every earlier write, then later words are fetched afresh. -/
def execIfence (s : State) : Out := .next (State.andThen (s.fullFence s.tid 2) State.retire)

/-! ## tlbi (R63, R64) -/

/-- A scalar register of an application core. -/
def coreReg (r : Vector Word 32) (n : BitVec 5) : Word := if n = 0 then 0 else r[n.toNat]'n.isLt


/-- Whether a request of a partition's threads or commands, already translated, still awaits its reply: a load or an atomic is not yet
performed (R64). -/
def State.asking (s : State) (part : Nat) : Bool :=
  s.obs.any fun o => !o.posted && o.reply == .none && (s.pair (pairOf o.tid)).part == some part

/-- Removes cached translations, and table pointers, once the accesses of the partition that may have used them are performed; a full
fence at device scope. -/
def State.tlbi (s : State) (gone : Tlb → Bool) (ptr : WalkPtr → Bool) : State :=
  let part := s.myPart
  match s.drain fun p => p.ownOrdered s.tid || (!p.isSignal && (s.pair (pairOf p.tid)).part == some part) ||
      s.me.fwd.contains p.seq with
  | none => s
  | some s =>
    if s.asking part then s
    else (s.tlbDrop (fun e => e.part == part && gone e) fun p => p.part == part && ptr p).retire

/-- Every first-stage-dependent translation and table pointer of the partition, those of one ASN, or the one that covers an address with
every first-stage pointer of its ASN (R63). -/
def execTlbiAll (s : State) : Out := .next (s.needS fun s => s.tlbi (fun _ => true) fun p => !p.second)
def execTlbiAsn (n : BitVec 5) (s : State) : Out :=
  .next (s.needS fun s =>
    let asn := bits (s.sr n) 11 0
    s.tlbi (fun e => e.asn == asn) fun p => !p.second && p.asn == asn)
def execTlbiVa (n m : BitVec 5) (s : State) : Out :=
  .next (s.needS fun s =>
    let asn := bits (s.sr m) 11 0
    s.tlbi (fun e => e.asn == asn && bits (s.sr n) 56 0 / classBytes e.size * classBytes e.size == e.vbase)
      fun p => !p.second && p.asn == asn)

/-- Whether a cached table pointer depends on the second-stage translation of a guest-physical page: a second-stage pointer on the way
to it, or a first-stage entry that lies in it. -/
def WalkPtr.underGpa (p : WalkPtr) (gpa : Nat) : Bool :=
  if p.second then p.tag == gpa / 2 ^ (12 + 9 * p.level) else p.gpa / 2 ^ 30 == gpa / 2 ^ 30

/-- An owner scope of a partition, from an application core: waits until the partition's accesses are performed. -/
def State.ownerTlbi (s : State) (part : Nat) (gone : Tlb → Bool) (ptr : WalkPtr → Bool) (filt : Nat → Bool) (k : State → State) : State :=
  match s.drain fun p => !p.isSignal && (s.pair (pairOf p.tid)).part == some part with
  | none => s
  | some s =>
    if s.asking part then s
    else
      let s := s.tlbDrop (fun e => e.part == part && gone e) fun p => p.part == part && ptr p
      k { s with filt := s.filt.filter fun f => !(f.2.1 == part && filt f.2.2) }

/-- tlbi.gpa: an owner scope, which always traps on a pair (R63, R218); on an application core it removes the translations whose
second stage covers the address, and the filter entries of its page. -/
def execTlbiGpa (n m : BitVec 5) (s : State) : Out :=
  .next (match s.app with
    | none => s.trap cPermission 0 0
    | some r =>
      let gpa := (coreReg r n).toNat
      s.ownerTlbi (bits (coreReg r m) 5 0)
        (fun e => e.gbase / classBytes e.s2size == gpa / classBytes e.s2size) (fun p => p.underGpa gpa) (fun g => g == gpa / 4096) id)

/-- tlbi.part: the same for a whole partition; with sm[8] = 1 every filter of it is cleared and DIRTY read again as it stands, misaligned or not (R52; log entry 78). The fault
queue's capacities are read again at its next record (19 R392). -/
def execTlbiPart (m : BitVec 5) (s : State) : Out :=
  .next (match s.app with
    | none => s.trap cPermission 0 0
    | some r =>
      let v := coreReg r m
      let part := bits v 5 0
      let again := v.getLsbD 8
      s.ownerTlbi part (fun _ => true) (fun _ => true) (fun _ => again) fun s =>
        let p := s.part part
        { s with ownerFq := ⟨none, none⟩ }.setPart part { p with
          fq := ⟨none, none⟩
          dirty := if again then s.word (s.ptb.toNat + 128 * part + 0x30) else p.dirty })

/-! ## wait, halt, kend -/

/-- wait (R219): the thread issues nothing until the count runs out (WAIT_EXPIRE). -/
def execWait (_x : BitVec 5) (s : State) : Out := .next (s.retire.setMe { s.retire.me with waiting := true })

/-- halt (R220): a full fence at system scope, a record of kind 4, and the thread stops; it would go on at the next word. -/
def execHalt (s : State) : Out :=
  .next (s.unlessReplay Enc.halt fun s => s.needS fun s =>
    State.andThen (s.fullFence s.tid 3) fun s =>
      let r := s.recFor s.tid false 4
      let s := s.retire
      (s.setMe { s.me with run := .stopped }).postStop s.tid r)

/-- kend (R221): a release fence at device scope, then the context ends. -/
def execKend (s : State) : Out :=
  .next (s.unlessReplay Enc.kend fun s => ((s.setMe { s.me with lastFault := none }).fenceRel s.tid true).endContext s.tid)

end Sys2Proof.Machine
end

