-- ==== Sys2Proof/Machine/QueueCsr.lean ====
section
/-! DEFINITION. Queue instructions (09 R216; 06 R153) and control-register access (09 R217; 08 R190). -/

namespace Sys2Proof.Machine

/-! ## Queues -/

/-- The thread with the same index on the pair `step` places east of the moving thread's pair (R153). -/
def State.neighbour (s : State) (east : Bool) : Nat :=
  let n := s.myPart
  let p := s.pairCount n
  let j := s.myPair.idx
  let k := if east then (j + 1) % p else (j + p - 1) % p
  match s.pairAt n k with
  | some l => 2 * l + s.tid % 2
  | none => s.tid

/-- A push to a neighbour's queue is ordered as a write is: behind what the thread's last release fence puts before its later writes (04
R121, R130). It waits while that may not be performed. -/
def State.pushAfter (s : State) (k : State → State) : State :=
  let t := s.me
  match s.drain fun p => (p.ownOrdered s.tid && decide (p.seq < t.barrier)) || t.fwdBar.contains p.seq with
  | none => s
  | some s => k s

/-- qpush: blocks while its queue is full. -/
def execQpush (n : BitVec 5) (q : BitVec 2) (s : State) : Out :=
  .next (
    if q = 0 then
      if s.me.q0.length < 32 then (s.setMe { s.me with q0 := s.me.q0 ++ [s.sr n] }).retire else s
    else if q = 2 then
      let e := s.neighbour true
      if (s.th e).fromW.length < 16 then s.pushAfter fun s => (s.setTh e { s.th e with fromW := (s.th e).fromW ++ [s.sr n] }).retire else s
    else
      let w := s.neighbour false
      if (s.th w).fromE.length < 16 then s.pushAfter fun s => (s.setTh w { s.th w with fromE := (s.th w).fromE ++ [s.sr n] }).retire else s)

/-- qpop: blocks while its queue is empty. -/
def execQpop (d : BitVec 5) (q : BitVec 2) (s : State) : Out :=
  .next (
    if q = 1 then
      match s.me.q1 with
      | v :: r => (s.setMe { s.me with q1 := r }).result d v
      | [] => s
    else if q = 2 then
      match s.me.fromE with
      | v :: r => (s.setMe { s.me with fromE := r }).result d v
      | [] => s
    else
      match s.me.fromW with
      | v :: r => (s.setMe { s.me with fromW := r }).result d v
      | [] => s)

/-! ## Control registers -/

/-- VWD shows descriptor WSEL; 0 when WSEL ≥ N (03 R76). -/
def Thread.vwd (t : Thread) : Word :=
  if t.nregs ≤ t.wsel.toNat then 0
  else
    let w := (t.win[t.wsel.toNat]?).getD ⟨0, 0⟩
    w64 (w.len.toNat * 2 ^ 16 + w.base.toNat)

/-- VCF (03 R76). -/
def Thread.vcf (t : Thread) : Word := w64 (t.wsel.toNat * 2 ^ 8 + t.ncfg.toNat)

/-- LPR (06 R155). -/
def Pair.lpr (p : Pair) : Word := w64 (p.held1.toNat * 2 ^ 24 + p.held0.toNat * 2 ^ 16 + p.req.toNat)

/-- QST (06 R154). -/
def Thread.qst (t : Thread) : Word :=
  w64 (t.fromW.length * 2 ^ 24 + t.fromE.length * 2 ^ 16 + t.q1.length * 2 ^ 8 + t.q0.length)

/-- The value of a control register of a thread of a pair. -/
def Thread.csr (t : Thread) (p : Pair) (r : Nat) : Word :=
  match r with
  | 0x000 => t.vl
  | 0x001 => t.vty
  | 0x002 => t.vcf
  | 0x003 => t.vwd
  | 0x004 => p.lpr
  | 0x005 => t.trc
  | 0x006 => t.tra
  | 0x007 => t.es
  | 0x008 => t.tal
  | 0x009 => t.tm
  | 0x00A => t.tn
  | 0x00B => t.tk
  | 0x00C => t.fcs
  | 0x00D => t.tcr
  | 0x00E => t.rps
  | 0x00F => t.skz
  | 0x010 => t.qst
  | 0x100 => t.tvb
  | 0x101 => t.tca
  | 0x102 => t.tpc
  | 0x103 => t.tva
  | 0x104 => t.atb
  | n => if 0x018 ≤ n ∧ n < 0x020 then (t.cl[n - 0x018]?).getD 0 else 0

/-- Registers of level S only, and those writable at level S only (R190). -/
def csrNeedsS (r : Nat) : Bool := decide (0x100 ≤ r)
def csrWriteNeedsS (r : Nat) : Bool :=
  csrNeedsS r || [0x000, 0x005, 0x006, 0x007, 0x008, 0x009, 0x00A, 0x00B, 0x00E, 0x00F].contains r ||
  (decide (0x018 ≤ r) && decide (r < 0x020))

/-- Values VTY refuses: a non-zero reserved bit, ET = 6, or a reserved slice count (08 R191). -/
def vtyBad (v : Word) : Bool :=
  bits v 63 14 != 0 || bits v 3 0 == 6 || [1, 2, 9, 10, 11, 12, 13, 14, 15].contains (bits v 11 8)

/-- Whether every non-zero class slot of an SKZ value is valid (17 R354). -/
def skzOk (v : Word) : Bool :=
  (List.range 4).all fun c =>
    let x := bits v (16 * c + 15) (16 * c)
    let k := x % 32
    let m := x / 256 % 32
    x == 0 || (x / 8192 == 0 && decide (2 ≤ k) && decide (k ≤ 20) && decide (2 ≤ m) && decide (m ≤ 20) && decide (k ≤ m))

/-- A control register's value after a write that its own rules let through: RO fields and refused values stay (R7, R160, R170, R258,
R268, R291, R321, R354, R223). -/
def Thread.setCsr (t : Thread) (r : Nat) (v : Word) : Thread :=
  match r with
  | 0x000 => if bits v 20 0 ≤ 1048576 then { t with vl := w64 (bits v 20 0) } else t
  | 0x001 => { t with vty := v }
  | 0x002 => { t with wsel := BitVec.ofNat 6 (bits v 13 8) }
  | 0x005 => { t with trc := w64 (bits v 7 0) }
  | 0x006 => { t with tra := v }
  | 0x007 => { t with es := w64 (bits v 20 0) }
  | 0x008 => if bits v 6 0 ≤ 64 ∧ bits v 23 16 ≤ 127 then { t with tal := v &&& 0xFF007F } else t
  | 0x009 => if bits v 6 0 ≤ 64 then { t with tm := w64 (bits v 6 0) } else t
  | 0x00A => if bits v 7 0 ≤ 128 then { t with tn := w64 (bits v 7 0) } else t
  | 0x00B => if bits v 7 0 ≤ 128 then { t with tk := w64 (bits v 7 0) } else t
  | 0x00C =>
    let keep := v &&& 0xFFFFFFFFFF1F1F18
    { t with fcs := keep ||| w64 (if 6 ≤ bits v 2 0 then bits t.fcs 2 0 else bits v 2 0) }
  | 0x00D => { t with tcr := setBits t.tcr 0 0 (bits v 0 0) }
  | 0x00E => { t with rps := v &&& 0x3FF1F }
  | 0x00F => if skzOk v then { t with skz := v } else t
  | 0x100 => { t with tvb := v &&& ~~~3 }
  | 0x101 => { t with tca := v &&& 0x307FF }
  | 0x102 => { t with tpc := v &&& ~~~3 }
  | 0x103 => { t with tva := v }
  | 0x104 => { t with atb := v &&& 0x000FFFFFFFFFFFFF }
  | n => if 0x018 ≤ n ∧ n < 0x020 then
      (if bits v 17 0 ≤ 131072 then { t with cl := t.cl.setIfInBounds (n - 0x018) (w64 (bits v 17 0)) } else t)
    else t

def execCsrr (d : BitVec 5) (r : BitVec 12) (s : State) : Out :=
  .next (if csrNeedsS r.toNat && !s.me.sup then s.trap cPermission 0 0
    else s.result d (s.me.csr s.myPair r.toNat))

/-- A write of a control register from its old value (R217). A refused VTY value traps (R191). -/
def State.csrWrite (s : State) (word : BitVec 32) (r : BitVec 12) (f : Word → Word) : State :=
  if csrWriteNeedsS r.toNat && !s.me.sup then s.trap cPermission 0 0
  else
    let v := f (s.me.csr s.myPair r.toNat)
    if r = 1 && vtyBad v then s.illegal word .reservedField
    else (s.setMe (s.me.setCsr r.toNat v)).retire

def execCsrw (n : BitVec 5) (r : BitVec 12) (s : State) : Out :=
  .next (s.csrWrite (Enc.csrw n r) r fun _ => s.sr n)
def execCsrs (n : BitVec 5) (r : BitVec 12) (s : State) : Out :=
  .next (s.csrWrite (Enc.csrs n r) r fun old => old ||| s.sr n)
def execCsrc (n : BitVec 5) (r : BitVec 12) (s : State) : Out :=
  .next (s.csrWrite (Enc.csrc n r) r fun old => old &&& ~~~(s.sr n))

end Sys2Proof.Machine
end

