-- ==== Sys2Proof/Machine/Vector.lean ====
section
/-! DEFINITION. The frame of trimmable vector instructions (08 R199; 06 R161; 14 R299 to R307), with bound registers (03 R99 to
R101), and the frame of whole-strip instructions (10 R237). -/

namespace Sys2Proof.Machine

/-- The destination of a vector instruction. -/
inductive Dst where
  | none
  | reg (code : BitVec 6) (o : Operand)
  | mask (m : Nat)
  deriving DecidableEq, Repr

/-- A computed element. -/
structure Elem where
  i : Nat
  v : Option Nat
  exc : Exc
  placed : List Placed
  /-- the bytes its accesses read -/
  read : List (List Byte) := []
  deriving DecidableEq, Repr

/-- What a chapter supplies to the frame. -/
structure VSpec where
  /-- register sources by code; a read binding on one supplies its stream -/
  srcs : List (BitVec 6 × Operand)
  /-- mask registers read as sources -/
  maskSrcs : List Nat
  dst : Dst
  mask : BitVec 3
  neg : Bool
  /-- the accesses of an element, its address computed from the sources -/
  accs : State → Lanes → Nat → List Acc
  /-- an element's value from the sources and the bytes it loaded; none leaves the element as an inactive one -/
  comp : State → Lanes → Nat → List (List Byte) → Option Nat × Exc
  /-- in its place, a value that depends on the locations the elements' own accesses name (11 R256) -/
  compAt : Option ((Nat → Option Nat) → State → Lanes → Nat → Option Nat × Exc) := none
  /-- hotness class of the accesses -/
  hot : Nat
  /-- the mask chooses sources and marks nothing inactive, so that MP does not apply (10 R248) -/
  noMp : Bool
  /-- the destination register is read too, from its window (R87; R99) -/
  accum : Bool
  /-- a mask register is written besides the destination (11 R257) -/
  maskOut : Bool := false
  /-- a bound of the instruction's own on its elements -/
  limit : Nat := 2 ^ 64
  /-- registers read element by element that are named by no vector code, so that no binding applies (13 R290) -/
  raw : List Operand := []
  /-- whether storage an element reads besides its operands fails its parity -/
  bad : State → Lanes → Nat → Bool := fun _ _ _ => false
  /-- register codes whose elements form addresses -/
  idx : List (BitVec 6) := []
  /-- ES is ignored (13 R297) -/
  fromZero : Bool := false
  /-- the last-result file does not rotate (13 R292) -/
  noRot : Bool := false
  /-- the format the destination's elements are in; the element type where none is given (10 R240) -/
  form : Option Nat := none
  /-- an active element whose destination is left as an inactive one's (11 R257) -/
  skips : State → Lanes → Nat → Bool := fun _ _ _ => false
  /-- the lowest of the computed elements that meets a cause beyond the operands' own (13 R297; 16 R333) -/
  late : State → List Elem → Option (Nat × Fail) := fun _ _ => none
  /-- what completing does besides: the q0 entry leaves its queue (R184, R235, R305) -/
  fin : State → State

/-- Smallest of a list of capacities. -/
def minCap (l : List Nat) (d : Nat) : Nat := l.foldl Nat.min d

def Dst.operand : Dst → Option (BitVec 6 × Operand)
  | .reg c o => some (c, o)
  | _ => Option.none

/-- The read bindings among the sources, each once, and the write binding on the destination (R99). -/
def VSpec.readBinds (sp : VSpec) (t : Thread) : List (BitVec 6 × Operand × Bind) :=
  sp.srcs.foldl (fun acc e =>
    if acc.any fun o => o.1 == e.1 then acc
    else match t.bound e.1 false with
      | some b => acc ++ [(e.1, e.2, b)]
      | none => acc) []
def VSpec.writeBind (sp : VSpec) (t : Thread) : Option Bind :=
  match sp.dst.operand with
  | some (c, _) => t.bound c true
  | none => none

/-- The capacity of R82 and R85 with the ends of bound streams (R99). -/
def VSpec.capacity (sp : VSpec) (t : Thread) (x : Lanes) : Nat :=
  let regs := (sp.srcs.map fun e => e.2.cap x.count) ++ sp.raw.map fun o => o.cap x.count
  let dst := match sp.dst with
    | .reg _ o => [o.cap x.count]
    | .mask _ => [maskCap x.count]
    | .none => []
  let masks := if sp.mask != 0 || !sp.maskSrcs.isEmpty || sp.maskOut then [maskCap x.count] else []
  let streams := (sp.readBinds t).map fun e => e.2.2.left
  let out := match sp.writeBind t with
    | some b => [b.left]
    | none => []
  minCap (regs ++ dst ++ masks ++ streams ++ out) sp.limit

/-- The element an instruction begins at. -/
def VSpec.startOf (sp : VSpec) (t : Thread) : Nat := if sp.fromZero then 0 else t.start
/-- The format of the destination's elements. -/
def VSpec.etOf (sp : VSpec) (t : Thread) : Nat := sp.form.getD t.et

/-- The accesses that write stream element P0 + i (R98, R101). -/
def Bind.writeAccs (b : Bind) (i : Nat) : List Acc :=
  let j := b.pos.toNat + i
  let n := codeBytes b.fmt.toNat
  ⟨b.addrOf j, n, n, if codeNibbles b.fmt.toNat = 1 then .rewrite else .store⟩ ::
    (if b.scaled then [⟨b.scaleAddr j, 1, 1, .store⟩] else [])

/-- Decodes the streams of one element into their windows (R99): the state, the exceptions and the bytes left over. -/
def stageStreams (t : Thread) (x : Lanes) (i : Nat) : List (BitVec 6 × Operand × Bind) → List (List Byte) → State → Exc →
    State × Exc × List (List Byte)
  | [], bs, s, e => (s, e, bs)
  | (_, o, b) :: rest, bs, s, e =>
    let n := if b.scaled then 2 else 1
    let r := b.decode t.et t.ctl i (bs.take n)
    stageStreams t x i rest (bs.drop n) (s.setElem x o i r.1) (e ||| r.2)

/-- Decodes the streams of all elements, in ascending order up to the first whose conversion raises an enabled exception, before anything
computes (R99): the state, each element's exceptions and other bytes, and that failure. -/
def stageAll (t : Thread) (x : Lanes) (binds : List (BitVec 6 × Operand × Bind)) :
    List (Nat × List (List Byte)) → State → List (Nat × Exc × List (List Byte)) →
    State × List (Nat × Exc × List (List Byte)) × Option (Nat × Fail)
  | [], s, got => (s, got, none)
  | (i, bs) :: rest, s, got =>
    let st := stageStreams t x i binds bs s 0
    if t.enabled st.2.1 then (s, got, some (i, Fail.arith st.2.1))
    else stageAll t x binds rest st.1 (got ++ [(i, st.2.1, st.2.2)])

/-- What a first look at the streams gave: what has been read, the elements it reached, and the registers their values are in. -/
structure Look where
  seen : Seen
  upto : Nat
  view : State

/-- Reads the streams whose elements form addresses, ahead of the translation that needs them (04 R113); the marks of their pages are
left to it. None while it waits. -/
def State.lookStreams (s : State) (w : Who) (x : Lanes) (binds : List (BitVec 6 × Operand × Bind)) (is : List Nat) :
    Option Look × State :=
  if binds.isEmpty then (some ⟨⟨[], []⟩, 2 ^ 64, s⟩, s)
  else match (translateElems w (fun i => binds.flatMap fun b => b.2.2.readAccs i) is s [] []).1 with
    | ⟨_, _, true⟩ => (none, s)
    | ⟨placed, tf, false⟩ =>
      match s.loadBeside s.tid ⟨[], []⟩ placed false false with
      | (⟨_, _, true⟩, _, s) => (none, s)
      | (⟨data, df, false⟩, v, s) =>
        let upto := match df with
          | some (k, _) => k
          | none => (tf.map (·.1)).getD (2 ^ 64)
        let view := data.foldl (fun (u : State) e => (stageStreams s.me x e.1 binds e.2 u 0).1) s
        (some ⟨v, upto, view⟩, s)

/-- Encodes an element's value into a stream that is not scaled; the exceptions count with the element (R99). -/
def Bind.encode (b : Bind) (et : Nat) (c : Ctl) (j v : Nat) : Nat × Exc :=
  let f := b.fmt.toNat
  if f = 7 && codeIsInt et then (codeOfInt 4 (codeInt et v), 0) else convCode et f c (j % 2 ^ 32) 0 v

/-- Encodes an element of a scaled block under the block's exponent (R101; 12 R287). -/
def Bind.encodeScaled (b : Bind) (ty ex et : Nat) (c : Ctl) (j v : Nat) : Nat × Exc :=
  let x := codeVal et c.fz v
  if b.fmt == 6 then convB4 ty ex c (j % 2 ^ 32) 0 x
  else match codeFmt b.fmt.toNat with
    | some f => convFloat f c (j % 2 ^ 32) 0 false (x.scale (32 - (ex : Int)))
    | none => (0, 0)

/-- Exponent of the block of stream element j, over the block's elements among the computed ones; a block with inactive elements
is written with the exponent of its active ones (log entry 80). -/
def Bind.blockOf (b : Bind) (ty et : Nat) (c : Ctl) (els : List Elem) (j : Nat) : Nat :=
  blockExp (scaleMax (b.fmt == 6) ty (b.fmt == 4)) <|
    (els.filter fun e => (b.pos.toNat + e.i) / 32 == j / 32).filterMap fun e => e.v.map fun v => codeVal et c.fz v

/-- What an element's write to its stream gives: code, scale byte, exceptions. One that leaves its destination writes nothing. -/
def Bind.out (b : Bind) (ty et : Nat) (c : Ctl) (els : List Elem) (e : Elem) : Nat × Nat × Exc :=
  if e.v.isNone then (0, 0, 0) else
  let j := b.pos.toNat + e.i
  if b.scaled then
    let ex := b.blockOf ty et c els j
    let r := b.encodeScaled ty ex et c j (e.v.getD 0)
    (r.1, (if b.fmt == 6 then ty * 64 + ex else ex), r.2)
  else
    let r := b.encode et c j (e.v.getD 0)
    (r.1, 0, r.2)

/-- The byte a 4-bit write outside the module rewrites: as this instruction has already written it, else as it was read. -/
def State.rewritten (s : State) (tid a ins : Nat) (read : List Byte) : Nat :=
  ((s.pend.filter fun p => p.tid == tid && p.ins == ins && p.addr == a).foldl (fun (b : List Byte) p => match p.op with
    | .store [v] => [v]
    | _ => b) read) |> leNat

/-- Commits one store of an instruction of the moving thread through a slice (04 R109). A 4-bit element changes its own nibble of the byte
(R99): at memory where it is the module's, in the byte the instruction has read where it is not. -/
def State.storeElem (s : State) (tid slice ins : Nat) (p : Placed) (nib hi : Bool) (read : List Byte) (v : Nat) : State :=
  if nib then
    if p.at_.isOutbound then
      let old := s.rewritten tid p.at_.pa ins read
      let b := if hi then v % 16 * 16 + old % 16 else old / 16 * 16 + v % 16
      s.commit tid slice p.acc.va p.at_.pa (.store [BitVec.ofNat 8 b]) false false ins
    else s.commit tid slice p.acc.va p.at_.pa (.nib hi (BitVec.ofNat 4 v)) false false ins
  else s.commit tid slice p.acc.va p.at_.pa (.store (leBytes p.acc.n v)) false false ins

/-- Keeps, of the elements that write one location, the one the choice names (R126, R127, R253); ascending order is kept. -/
def mergeWrites (pick : List Elem → Option Elem) (els : List Elem) : List Elem :=
  els.filter fun e => match e.placed.getLast? with
    | none => true
    | some p =>
      let same := els.filter fun o => match o.placed.getLast? with
        | some q => q.at_.pa == p.at_.pa
        | none => false
      match pick same with
      | some c => c.i == e.i
      | none => true

/-- Moves the positions of the streams an instruction used by its achieved length (R100). -/
def State.advanceBinds (s : State) (codes : List (BitVec 6)) (n : Nat) : State :=
  codes.foldl (fun (s : State) c =>
    let t := s.me
    match t.boundSlot c with
    | none => s
    | some j => match (t.binds[j]?).getD none with
      | some b => s.setMe { t with binds := t.binds.setIfInBounds j (some { b with pos := b.pos + w64 n }) }
      | none => s) s

/-- What an instruction writes to element i of its destination: its value where it is active in [es, stop), 0 where it is inactive and MP
zeroes, 0 from the tail on under TP; none where it leaves the element (R191, R234). -/
def Thread.written (t : Thread) (noMp : Bool) (es stop tail : Nat) (els : List Elem) (i : Nat) : Option Nat :=
  if es ≤ i ∧ i < stop then
    match (els.find? fun e => e.i == i).bind fun e => e.v with
    | some v => some v
    | none => if t.mp && !noMp then some 0 else none
  else if tail ≤ i ∧ t.tp then some 0
  else none

/-- Writes of a destination over [es, stop): active elements their values, inactive ones by MP (R234). -/
def State.writeDst (s : State) (x : Lanes) (dst : Dst) (noMp : Bool) (es stop : Nat) (els : List Elem) : State :=
  let mp := s.me.mp && !noMp
  (List.range (stop - es)).foldl (fun (acc : State) d =>
    let i := es + d
    let v : Option Nat := match els.find? fun e => e.i == i with
      | some e => match e.v with
        | some v => some v
        | none => if mp then some 0 else none
      | none => if mp then some 0 else none
    match v, dst with
    | some v, .reg _ o => acc.setElem x o i v
    | some v, .mask m => acc.setMaskBit x m i (v % 2 == 1)
    | _, _ => acc) s

/-- The tail of a destination from an element on: zero under TP (R191, R234). -/
def State.writeTail (s : State) (x : Lanes) (dst : Dst) (start : Nat) : State :=
  if !s.me.tp then s
  else match dst with
    | .reg _ o => (List.range (o.cap x.count - start)).foldl (fun (s : State) d => s.setElem x o (start + d) 0) s
    | .mask m => (List.range (maskCap x.count - start)).foldl (fun (s : State) d => s.setMaskBit x m (start + d) false) s
    | .none => s

/-- Whether a code names y0. -/
def Thread.isY0 (t : Thread) (code : BitVec 6) : Bool := code == 62 && t.nregs ≤ 32

/-- Rotation for a destination register written by `write`, whose elements written are `res` (R84). -/
def State.rotating (s : State) (x : Lanes) (dst : Dst) (res : Nat → Option Nat) (write : State → State) : State :=
  match dst with
  | .reg c o =>
    if s.me.isY0 c then write (s.rotateY x)
    else ((write s).rotateY x).resultToY0 x o res
  | _ => write s

/-- Writes a destination over [es, stop) and its tail, and rotates (R84, R191, R234). -/
def State.putResult (s : State) (x : Lanes) (dst : Dst) (noMp : Bool) (es stop tail : Nat) (els : List Elem) : State :=
  s.rotating x dst (s.me.written noMp es stop tail els) fun s => (s.writeDst x dst noMp es stop els).writeTail x dst tail

def orExc (els : List Elem) : Exc := els.foldl (fun a e => a ||| e.exc) 0

/-- Records a trim: VL, TRC and TRA (14 R300). -/
def Thread.noteTrim (t : Thread) (stop : Nat) (f : Fail) : Thread :=
  { t with vl := w64 stop, trc := w64 f.cause, tra := f.addr }
/-- Records a resume-mode stop: ES, TRC and TRA; elements committed, so a fault here is no repeat (02 R58). -/
def Thread.noteStop (t : Thread) (stop : Nat) (f : Fail) : Thread :=
  { t with es := w64 stop, trc := w64 f.cause, tra := f.addr, lastFault := none }

/-- Causes that trim alike in both fault modes (06 R161). -/
def trimsAlways (c : Nat) : Bool := c == cCapacity || c == cPageBudget || c == cFieldOverflow

/-- The pre-emption mark is used up; the thread then waits for the end of its slice (19 R398). -/
def Thread.usedCut (t : Thread) : Thread := if t.cut = 0 then t else { t with cut := 0, noFetch := true }

/-- Ends a vector instruction that completes: ES is cleared (R160, R300) and the pc moves on. -/
def State.vdone (s : State) : State := (s.setMe { s.me with es := 0 }.usedCut).retire

/-- Ends in a resume-mode stop at an element (R161, R199). -/
def State.vstop (s : State) (stop : Nat) (f : Fail) : State :=
  let s := s.setMe (s.me.noteStop stop f).usedCut
  if f.cause = cPreempted then s else s.faultAt f

/-- The outcome of an element scan: the elements computed below `stop`, and the cause that ended it. -/
structure Outcome where
  stop : Nat
  fail : Option Fail
  els : List Elem
  /-- the element whose late cause decides, and the elements computed from `stop` on -/
  late : Option (Nat × List Elem) := none
  /-- the byte outside the module that the first padding code of a write stream rewrites (03 R101), where no element has read it -/
  pad : List Byte := []
  deriving DecidableEq, Repr

/-- The location of an element's own access, the last of its accesses where it has no write stream. -/
def locOf (placed : List (Nat × List Placed)) (i : Nat) : Option Nat :=
  match placed.find? fun p => p.1 == i with
  | some p => p.2.getLast?.map fun q => q.at_.pa
  | none => none

/-- An element's value and exceptions. -/
def VSpec.value (sp : VSpec) (placed : List (Nat × List Placed)) (s : State) (x : Lanes) (i : Nat) (bs : List (List Byte)) : Option Nat × Exc :=
  match sp.compAt with
  | some f => f (locOf placed) s x i
  | none => sp.comp s x i bs

/-- Computes elements in ascending order from the staged sources: register parity, then enabled exceptions (14 R301). Each comes with the
exceptions and the other bytes its streams left, and all the bytes it read. -/
def computeElems (t : Thread) (x : Lanes) (sp : VSpec) (binds : List (BitVec 6 × Operand × Bind)) (s : State)
    (placed : List (Nat × List Placed)) : List ((Nat × Exc × List (List Byte)) × List (List Byte)) → List Elem → List Elem × Option (Nat × Fail)
  | [], acc => (acc, none)
  | ((i, exc0, bs), read) :: rest, acc =>
    let bad := (sp.srcs.any fun e => !(binds.any fun b => b.1 == e.1) && s.elemFails x e.2 i) ||
      (sp.raw.any fun o => s.elemFails x o i) || sp.bad s x i ||
      (sp.maskSrcs.any fun m => s.maskFails x m i) ||
      (match sp.dst with
        | .reg _ o => sp.accum && s.elemFails x o i
        | _ => false)
    if bad then (acc, some (i, Fail.lost 0))
    else
      let r := sp.value placed s x i bs
      let exc := exc0 ||| r.2
      if t.enabled exc then (acc, some (i, Fail.arith exc))
      else
        let pl := match placed.find? fun p => p.1 == i with
          | some p => p.2
          | none => []
        computeElems t x sp binds s placed rest (acc ++ [⟨i, r.1, exc, pl, read⟩])

/-- The lowest element whose write-stream encoding raises an enabled exception; TVA has all that the element raised (R99; 07 R172). -/
def encodeFails (t : Thread) (wb : Option Bind) (els : List Elem) (et : Nat := t.et) : Option (Nat × Fail) :=
  match wb with
  | none => none
  | some b =>
    let exc (e : Elem) : Exc := (b.out t.bt et t.ctl els e).2.2
    (els.find? fun e => t.enabled (exc e)).map fun e => (e.i, Fail.arith (e.exc ||| exc e))

/-- Where a strip that ends before END inside a block of a scaled write stream is cut (R101); `dead` when nothing below commits. -/
def blockEnd (wb : Option Bind) (stop : Nat) (dead : Bool) : Option Nat :=
  match wb with
  | some b =>
    let e := b.pos.toNat + stop
    if b.scaled && decide (e < b.fin.toNat) && e % 32 != 0 && !dead then some (stop - e % 32) else none
  | none => none

/-- Inactive elements of the windows of bound sources follow the mask policy (R99). -/
def State.idleWindows (s : State) (x : Lanes) (binds : List (BitVec 6 × Operand × Bind)) (idle : List Nat) : State :=
  if s.me.mp then idle.foldl (fun (s : State) i => binds.foldl (fun (s : State) b => s.setElem x b.2.1 i 0) s) s else s

/-- The byte outside the module that the first padding code of a 4-bit write stream shares with an inactive last element (R99, R101), where
the strip may reach END. -/
def State.padPlace (s : State) (w : Who) (wb : Option Bind) (stop : Nat) (written : Nat → Bool) (placed : List (Nat × List Placed)) :
    Option Placed :=
  match wb with
  | some b =>
    if b.fmt == 6 && b.pos.toNat + stop == b.fin.toNat && b.fin.toNat % 2 == 1 && !written (stop - 1) then
      let va := b.addrOf b.fin.toNat
      match (s.translateIn (usedOf placed) w va.toNat 1 .rewrite).1 with
      | .ok p => if p.isOutbound then some ⟨⟨va, 1, 1, .rewrite⟩, p⟩ else none
      | _ => none
    else none
  | none => none

/-- The later of two causes of an ordered scan: a stage met one at an element below those before it. -/
def lower (old : Nat × Option Fail) (new : Option (Nat × Fail)) : Nat × Option Fail :=
  match new with
  | some (k, f) => (k, some f)
  | none => old

/-- The scan of R199 with the stages of R53, R252 and R301: capacity, translation, data, arithmetic, pre-emption. None: it waits. -/
def State.vscan (s : State) (sp : VSpec) : Option Outcome × State :=
  let t := s.me
  let w := s.who s.tid
  let x := s.lanesOf s.tid
  let es := sp.startOf t
  let cap := sp.capacity t x
  let stop := Nat.min t.vlen cap
  let fail : Option Fail := if cap < t.vlen then some Fail.capacity else none
  let all := (List.range (stop - es)).map (es + ·)
  -- a mask bit that fails its parity ends the enumeration
  let badMask := if sp.mask = 0 then none else all.find? fun i => s.maskFails x sp.mask.toNat i
  let stop := badMask.getD stop
  let fail := if badMask.isSome then some (Fail.lost 0) else fail
  let act := (all.filter fun i => decide (i < stop)).filter fun i => s.active x sp.mask sp.neg i
  let binds := sp.readBinds t
  let wb := sp.writeBind t
  match s.lookStreams w x (binds.filter fun b => sp.idx.contains b.1) act with
  | (none, s) => (none, s)
  | (some look, s) =>
  let accs (i : Nat) : List Acc :=
    (binds.flatMap fun b => b.2.2.readAccs i) ++ (if i < look.upto then sp.accs look.view x i else []) ++ (match wb with
      | some b => if sp.skips look.view x i then [] else b.writeAccs i
      | none => [])
  match translateElems w accs act s [] [] with
  | (⟨_, _, true⟩, s) => (none, s)
  | (⟨placed, tf, false⟩, s) =>
    let pad := if tf.isSome then none else s.padPlace w wb stop (fun i => act.contains i && !sp.skips look.view x i) placed
    match s.loadBeside s.tid look.seen (placed ++ (pad.map fun p => (stop, [p])).toList) false true with
    | (⟨_, _, true⟩, _, s) => (none, s)
    | (⟨all_, df, false⟩, _, s) =>
      -- the padding byte is no element: where it is refused, it is not written
      let data := all_.filter fun e => decide (e.1 < stop)
      let padRead := ((all_.find? fun e => e.1 == stop).bind fun e => e.2.head?).getD []
      let df := df.filter fun f => decide (f.1 < stop)
      let staged := stageAll t x binds data s []
      let comp := computeElems t x sp binds staged.1 placed (staged.2.1.zip (data.map (·.2))) []
      let els := comp.1
      let c := lower (lower (lower (lower (stop, fail) tf) df) staged.2.2) comp.2
      -- the windows of bound sources are staging: they keep the decoded elements
      let s := if binds.isEmpty then s else staged.1.idleWindows x binds (all.filter fun i => decide (i < c.1) && !act.contains i)
      -- an encoder's enabled exception is the element's (R99)
      let c := lower c (encodeFails t wb els (sp.etOf t))
      let below := els.filter fun e => decide (e.i < c.1)
      let last := sp.late s below
      let (stop, fail) := lower c last
      -- pre-emption (R161, R301)
      let lead := (act.head?).getD stop
      let pre := t.cut != 0 && decide (lead < t.cut) && decide (t.cut < stop)
      let stop := if pre then t.cut else stop
      let fail := if pre then some Fail.preempted else fail
      -- blocks of a scaled stream end whole (R101); a resume-mode stop moves down to its block and keeps its cause
      let end_ := blockEnd wb stop (fail.isSome && (els.filter fun e => decide (e.i < stop)).isEmpty)
      let stop := end_.getD stop
      let resumes := t.resume && (match fail with
        | some f => !trimsAlways f.cause
        | none => false)
      let fail := if end_.isSome && !resumes then some Fail.capacity else fail
      let late := if pre then none else last.map fun l => (l.1, below.filter fun e => decide (stop ≤ e.i))
      (some ⟨stop, fail, els.filter fun e => decide (e.i < stop), late, padRead⟩, s)

/-- Whether the instruction starts on a misplaced block of a scaled write stream (R101). -/
def VSpec.misplacedBlock (sp : VSpec) (t : Thread) : Bool :=
  match sp.writeBind t with
  | some b => b.scaled && b.pos.toNat % 32 != 0
  | none => false

/-- Zero codes for the rest of the final block of a scaled stream whose END a strip of `stop` elements reaches (R101); `used` are the strip's
translations, `read` the byte its first code shares with an element that is not written. A code whose bytes do not translate is skipped (log
entry 81). -/
def State.padBlock (s : State) (slice ins : Nat) (b : Bind) (ty stop : Nat) (used : List Tlb) (read : List Byte) : State :=
  let w := s.who s.tid
  let n := codeBytes b.fmt.toNat
  let nib := codeNibbles b.fmt.toNat == 1
  let fin := b.fin.toNat
  if b.scaled && b.pos.toNat + stop == fin then
    (List.range ((fin + 31) / 32 * 32 - fin)).foldl (fun (s : State) d =>
      let j := fin + d
      let va := b.addrOf j
      match s.translateIn used w va.toNat n .store with
      | (.ok p, s) =>
        s.storeElem s.tid slice ins ⟨⟨va, n, n, .store⟩, p⟩ nib (j % 2 == 1) (if d = 0 then read else []) (if b.fmt == 6 && ty = 2 then 8 else 0)
      | (_, s) => s) s
  else s

/-- Stores the elements of a write stream over a strip of `stop` elements: data and, for a scaled one, scale bytes; a strip that reaches
END pads its last block (R99, R101). -/
def State.writeStream (s : State) (x : Lanes) (sp : VSpec) (b : Bind) (stop : Nat) (els : List Elem) (pad : List Byte := []) : State :=
  let t := s.me
  let et := sp.etOf t
  let els := els.filter fun e => e.v.isSome
  let ins := s.wseq
  let nib := codeNibbles b.fmt.toNat == 1
  let slice (i : Nat) : Nat := match sp.dst.operand with
    | some (_, o) => x.sliceOf o i
    | none => x.slice i
  let s := els.foldl (fun (s : State) e =>
    let r := b.out t.bt et t.ctl els e
    let n := if b.scaled then 2 else 1
    let data (s : State) (p : Placed) : State :=
      s.storeElem s.tid (slice e.i) ins p nib ((b.pos.toNat + e.i) % 2 == 1) ((e.read.getLast?).getD []) r.1
    match e.placed.drop (e.placed.length - n) with
    | [p] => data s p
    | [p, q] => (data s p).storeElem s.tid (slice e.i) ins q false false [] r.2.1
    | _ => s) s
  s.padBlock (slice (stop - 1)) ins b t.bt stop (usedOf (els.map fun e => (e.i, e.placed))) pad

/-- Flags of the committed elements, a write stream's encodings among them (07 R171). -/
def VSpec.flags (sp : VSpec) (t : Thread) (els : List Elem) : Exc :=
  orExc els ||| (match sp.writeBind t with
    | some b => els.foldl (fun a e => a ||| (b.out t.bt (sp.etOf t) t.ctl els e).2.2) 0
    | none => 0)

/-- The codes of the streams an instruction uses. -/
def VSpec.streamCodes (sp : VSpec) (t : Thread) : List (BitVec 6) :=
  (sp.readBinds t).map (·.1) ++ (match sp.dst, sp.writeBind t with
    | .reg c _, some _ => [c]
    | _, _ => [])

/-- Hotness class of a stream: unit-stride or strided (02 R67). -/
def Bind.hotClass (b : Bind) : Nat :=
  if b.fmt == 6 || b.fmt == 7 || b.stride == w64 (codeBytes b.fmt.toNat) then 0 else 1

/-- The accesses of streams at the front of an element's, by hotness class, and the rest. -/
def takeParts (bs : List Bind) (p : List Placed) : List (Nat × List Placed) × List Placed :=
  bs.foldl (fun acc b =>
    let n := if b.scaled then 2 else 1
    (acc.1 ++ [(b.hotClass, acc.2.take n)], acc.2.drop n)) ([], p)

/-- An element's accesses by hotness class: its read streams, its own, its write stream. -/
def VSpec.hotParts (sp : VSpec) (t : Thread) (p : List Placed) : List (Nat × List Placed) :=
  let r := takeParts ((sp.readBinds t).map (·.2.2)) p
  match sp.writeBind t with
  | some b =>
    let n := r.2.length - if b.scaled then 2 else 1
    r.1 ++ [(sp.hot, r.2.take n), (b.hotClass, r.2.drop n)]
  | none => r.1 ++ [(sp.hot, r.2)]

/-- Counts the accesses of committed elements on sampled pages (02 R67). -/
def State.countParts (s : State) (sp : VSpec) (t : Thread) (els : List Elem) : State :=
  els.foldl (fun (s : State) e => s.countElem (s.who s.tid) (sp.hotParts t e.placed)) s

/-- What the committed elements do besides their destination: flags, stores, a write stream, hotness. -/
def State.vapply (s : State) (sp : VSpec) (extra : State → Lanes → Nat → List Elem → State) (x : Lanes) (stop : Nat) (els : List Elem)
    (pad : List Byte := []) : State :=
  let t := s.me
  let s := s.setMe (s.me.addFlags (sp.flags t els))
  let s := extra s x stop els
  let s := match sp.writeBind t with
    | some b => s.writeStream x sp b stop els pad
    | none => s
  s.countParts sp t els

/-- Completes: destination, tail and rotation, stream positions, and what else completing does. -/
def State.vcomplete (s : State) (sp : VSpec) (x : Lanes) (es stop : Nat) (els : List Elem) (codes : List (BitVec 6)) : State :=
  let s := if sp.noRot then (s.writeDst x sp.dst sp.noMp es stop els).writeTail x sp.dst stop
    else s.putResult x sp.dst sp.noMp es stop stop els
  (sp.fin (s.advanceBinds codes stop)).vdone

/-- Commits an outcome of the scan: completion, a trim, or a resume-mode stop. -/
def State.vcommit (s : State) (sp : VSpec) (extra : State → Lanes → Nat → List Elem → State) (x : Lanes) (es : Nat) (o : Outcome) :
    State :=
  let t := s.me
  let codes := sp.streamCodes t
  let s := s.vapply sp extra x o.stop o.els o.pad
  match o.fail with
  | none => s.vcomplete sp x es o.stop o.els codes
  | some f =>
    if !t.resume || trimsAlways f.cause then (s.setMe (s.me.noteTrim o.stop f)).vcomplete sp x es o.stop o.els codes
    else (s.writeDst x sp.dst sp.noMp es o.stop o.els).vstop o.stop f

/-- Whether an outcome's cause falls on the leading element, so that nothing commits. -/
def Outcome.atLead (o : Outcome) (es : Nat) : Option Fail :=
  match o.fail with
  | some f => if (f.cause != cCapacity || decide (o.stop ≤ es)) && o.els.isEmpty then some f else none
  | none => none

/-- The frame of R199. `extra` commits what the elements do besides their destination (stores). -/
def State.vframe (s : State) (sp : VSpec) (extra : State → Lanes → Nat → List Elem → State) : State :=
  let t := s.me
  if t.vlen = 0 then (sp.fin s).vdone
  else
    let x := s.lanesOf s.tid
    if sp.capacity t x ≤ sp.startOf t then s.trap cCapacity 0 0
    else if sp.misplacedBlock t then s.trap cCapacity 0 0
    else match s.vscan sp with
      | (none, s) => s
      | (some o, s) =>
        match o.atLead (sp.startOf t) with
        | some f => s.faultAt f
        | none => s.vcommit sp extra x (sp.startOf t) o

/-- A frame without memory accesses of its own. -/
def noAccs : State → Lanes → Nat → List Acc := fun _ _ _ => []
def noExtra : State → Lanes → Nat → List Elem → State := fun s _ _ _ => s

end Sys2Proof.Machine
end

