-- ==== Sys2Proof/Machine/Whole.lean ====
section
/-! DEFINITION. The frame of whole-strip instructions: a cause above the leading element trims in both fault modes, and the
result is that of the same instruction issued with the shorter length (10 R237; 14 R302, R303). -/

namespace Sys2Proof.Machine

/-- What a whole-strip instruction computes at a length: destination values by index, values of a second register, where the tail
starts, exceptions, a scalar, and the lowest element whose own computation fails. -/
structure WRes where
  vals : List (Nat × Nat)
  vals2 : List (Nat × Nat)
  tail : Nat
  exc : Exc
  scalar : Option Word
  fail : Option (Nat × Fail)
  /-- exceptions by destination element -/
  each : List (Nat × Exc) := []
  deriving DecidableEq, Repr

/-- What a chapter supplies for a whole-strip instruction. -/
structure WSpec where
  srcs : List (BitVec 6 × Operand)
  maskSrcs : List Nat
  dst : Dst
  /-- a second register written, without rotation (R246, R247) -/
  second : Option (BitVec 6 × Operand)
  /-- further registers whose capacity bounds the strip (03 R82) -/
  also : List Operand := []
  mask : BitVec 3
  /-- ES is ignored and the mask, if any, selects (R245 to R247) -/
  whole : Bool
  /-- most elements before "field overflow" (R246) -/
  limit : Nat
  /-- result at a length, over its active elements -/
  run : State → Lanes → Nat → List Nat → WRes
  /-- the destination elements written over the active elements, before any stream is read; none for the active elements themselves -/
  outs : Option (State → Lanes → List Nat → List Nat) := none
  /-- completing writes the destination itself: it has no tail and does not rotate (12 R288) -/
  own : Bool := false
  /-- the unit pre-emption trims at (14 R303) -/
  unit : Nat := 1
  /-- what completing does with the scalar: a register, q1, the q0 entry -/
  fin : State → Option Word → State

/-- The element-wise view of the operands, for capacities and bindings. -/
def WSpec.view (sp : WSpec) : VSpec :=
  { srcs := sp.srcs, maskSrcs := sp.maskSrcs, dst := sp.dst, mask := sp.mask, neg := false, accs := fun _ _ _ => [],
    comp := fun _ _ _ _ => (none, 0), hot := 0, noMp := sp.whole, accum := false, fin := fun s => s }

/-- A register of an instruction that is bound for writing: whether it is the second one (R99; log entry 98). -/
structure Outlet where
  second : Bool
  code : BitVec 6
  o : Operand
  b : Bind

/-- The write streams of an instruction: of its destination and of its second register, where that is another one. -/
def WSpec.outlets (sp : WSpec) (t : Thread) : List Outlet :=
  (match sp.dst.operand, sp.view.writeBind t with
    | some (c, o), some b => [⟨false, c, o, b⟩]
    | _, _ => []) ++
  (match sp.second with
    | some (c, o) => if sp.dst.operand.any fun d => d.1 == c then [] else (t.bound c true).toList.map fun b => ⟨true, c, o, b⟩
    | none => [])
/-- The element-wise view of a register bound for writing. -/
def Outlet.view (u : Outlet) (sp : WSpec) : VSpec := { sp.view with dst := .reg u.code u.o }
/-- Accesses that write one element to a stream. -/
def Bind.accesses (b : Bind) : Nat := if b.scaled then 2 else 1

def WSpec.capacity (sp : WSpec) (t : Thread) (x : Lanes) : Nat :=
  minCap ((sp.second.toList.map fun o => o.2.cap x.count) ++ (sp.also.map fun o => o.cap x.count) ++
    ((sp.outlets t).map fun u => u.b.left)) (sp.view.capacity t x)
/-- Whether the instruction starts on a misplaced block of a scaled write stream (03 R101). -/
def WSpec.misplaced (sp : WSpec) (t : Thread) : Bool := (sp.outlets t).any fun u => u.b.scaled && u.b.pos.toNat % 32 != 0

/-- The values an instruction gives an outlet's register. -/
def WRes.to (r : WRes) (u : Outlet) : List (Nat × Nat) := if u.second then r.vals2 else r.vals

/-- A destination value as an element, with the exceptions its sources and its own computation left. -/
def elemOf (left : List (Nat × Exc × List (List Byte))) (each : List (Nat × Exc)) (e : Nat × Nat) : Elem :=
  { i := e.1, v := some e.2, exc := mapGet 0 each e.1 ||| (mapGet ((0 : Exc), []) left e.1).1, placed := [] }

/-- The elements an outlet writes, with their accesses and the bytes those read; `before` are the outlets whose accesses stand ahead. -/
def Outlet.elems (u : Outlet) (before : List Outlet) (own : Nat → List Placed) (left : List (Nat × Exc × List (List Byte)))
    (r : WRes) : List Elem :=
  let skip := (before.map fun u => u.b.accesses).foldl (· + ·) 0
  (r.to u).map fun e =>
    let ps := own e.1
    { elemOf left (if u.second then [] else r.each) e with
      placed := (ps.drop skip).take u.b.accesses
      read := ((mapGet ((0 : Exc), []) left e.1).2.drop ((ps.take skip).filter Placed.loads).length).take 1 }

/-- Where a whole-strip instruction ends: its elements, and those of each of its write streams. -/
structure WOut where
  vl : Nat
  fail : Option Fail
  res : WRes
  els : List Elem
  outs : List (Outlet × List Elem)

/-- The lower of two causes; the first where they fall at one element. -/
def lowest (a b : Option (Nat × Fail)) : Option (Nat × Fail) :=
  match a, b with
  | some x, some y => if y.1 < x.1 then some y else some x
  | some x, none => some x
  | none, y => y

/-- An element's arithmetic cause with the exceptions its stream left (07 R172). -/
def withLeft (left : List (Nat × Exc × List (List Byte))) (f : Nat × Fail) : Nat × Fail :=
  if f.2.cause = cArithmetic then (f.1, { f.2 with value := f.2.value ||| w64 (mapGet ((0 : Exc), []) left f.1).1.toNat }) else f

/-- What an instruction is staged with: its write streams, where each element's accesses to them lie, and what its read streams left. -/
structure WStage where
  outlets : List Outlet
  own : Nat → List Placed
  left : List (Nat × Exc × List (List Byte))

/-- The elements of every write stream. -/
def WStage.outs (g : WStage) (r : WRes) : List (Outlet × List Elem) :=
  g.outlets.zipIdx.map fun u => (u.1, u.1.elems (g.outlets.take u.2) g.own g.left r)

/-- Recomputes at ever shorter lengths until nothing fails below the length (R237, R243). `s` holds the staged sources. -/
def wloop (sp : WSpec) (t : Thread) (x : Lanes) (acts : List Nat) (g : WStage) (s : State) : (fuel vl : Nat) → Option Fail → WOut
  | 0, vl, fail => ⟨vl, fail, sp.run s x vl [], [], []⟩
  | n + 1, vl, fail =>
    let r := sp.run s x vl (acts.filter fun i => decide (i < vl))
    let outs := g.outs r
    let f := match r.fail with
      | some k => some (withLeft g.left k)
      | none => match outs.foldl (fun a u => lowest a (encodeFails t (some u.1.b) u.2)) none with
        | some k => some k
        | none => (outs.foldl (fun (a : Option Nat) u => match a, blockEnd (some u.1.b) vl u.2.isEmpty with
            | some k, some j => some (Nat.min k j)
            | some k, none => some k
            | none, j => j) none).map fun k => (k, Fail.capacity)
    match f with
    | some (k, f) => wloop sp t x acts g s n (Nat.min k (vl - 1)) (some f)
    | none => ⟨vl, fail, r, r.vals.map (elemOf g.left r.each), outs⟩

/-- What the scan of a whole-strip instruction found: where it ends, its active elements, every element's accesses, and the exceptions its
read streams left. -/
structure WScan where
  out : WOut
  acts : List Nat
  placed : List (Nat × List Placed)
  excs : List (Nat × Exc)

/-- The scan of a whole-strip instruction: every access is translated (02 R53) before anything is read, and all sources are staged before
anything computes. None: it waits. -/
def State.wscan (s : State) (sp : WSpec) : Option WScan × State :=
  let t := s.me
  let w := s.who s.tid
  let x := s.lanesOf s.tid
  let es := if sp.whole then 0 else t.start
  let cap := sp.capacity t x
  let stop := Nat.min t.vlen cap
  let fail : Option Fail := if cap < t.vlen then some Fail.capacity else none
  let fail := if sp.limit < stop then some Fail.overflow else fail
  let stop := Nat.min stop sp.limit
  let all := (List.range (stop - es)).map (es + ·)
  let badMask := if sp.mask = 0 then none else all.find? fun i => s.maskFails x sp.mask.toNat i
  let stop := badMask.getD stop
  let fail := if badMask.isSome then some (Fail.lost 0) else fail
  let acts := (all.filter fun i => decide (i < stop)).filter fun i => sp.whole || s.active x sp.mask false i
  let binds := sp.view.readBinds t
  let us := sp.outlets t
  let outs := if us.isEmpty then [] else match sp.outs with
    | none => acts
    | some f => f s x acts
  let reads (i : Nat) : Bool := acts.contains i
  let accs (i : Nat) : List Acc :=
    (if reads i then binds.flatMap fun b => b.2.2.readAccs i else []) ++
    (if outs.contains i then us.flatMap fun u => u.b.writeAccs i else [])
  let touched := if binds.isEmpty && us.isEmpty then [] else all.filter fun i => reads i || outs.contains i
  match translateElems w accs touched s [] [] with
  | (⟨_, _, true⟩, s) => (none, s)
  | (⟨placed, tf, false⟩, s) =>
    match s.loadElems s.tid placed with
    | (⟨_, _, true⟩, s) => (none, s)
    | (⟨data, df, false⟩, s) =>
      let (srcs, only) := data.partition fun e => reads e.1
      let staged := stageAll t x binds srcs s []
      let left := staged.2.1 ++ only.map fun e => (e.1, (0 : Exc), e.2)
      let (stop, fail) := lower (lower (lower (stop, fail) tf) df) staged.2.2
      let s := if binds.isEmpty then s else staged.1.idleWindows x binds (all.filter fun i => decide (i < stop) && !reads i)
      let own (i : Nat) : List Placed := (takeParts (if reads i then binds.map (·.2.2) else []) (mapGet [] placed i)).2
      let g : WStage := ⟨us, own, left⟩
      let o := wloop sp t x acts g s (stop + 1) stop fail
      let lead := (acts.head?).getD o.vl
      let cut := (t.cut + sp.unit - 1) / sp.unit * sp.unit
      let o := if t.cut != 0 && decide (lead < cut) && decide (cut < o.vl) then
          wloop sp t x acts g s (cut + 1) cut (some Fail.preempted)
        else o
      (some ⟨o, acts, placed, left.map fun e => (e.1, e.2.1)⟩, s)

/-- Counts the accesses of what a whole-strip instruction commits: its streams read below VL and its streams written (02 R67). -/
def State.countWhole (s : State) (binds : List (BitVec 6 × Operand × Bind)) (r : WScan) : State :=
  r.placed.foldl (fun (s : State) p =>
    let rd := r.acts.contains p.1
    s.countElem (s.who s.tid)
      ((if decide (p.1 < r.out.vl) then (takeParts (if rd then binds.map (·.2.2) else []) p.2).1 else []) ++
       r.out.outs.flatMap fun u => (u.2.filter fun e => e.i == p.1).map fun e => (u.1.b.hotClass, e.placed))) s

/-- Commits a whole-strip result: flags, streams, registers, tail and rotation, positions, then the scalar (R234, R237). Of two registers that
share storage the destination is written last (log entry 98). -/
def State.wcommit (s : State) (sp : WSpec) (x : Lanes) (es : Nat) (r : WScan) : State :=
  let t := s.me
  let o := r.out
  let left := (r.excs.filter fun (e : Nat × Exc) => decide (e.1 < o.vl)).foldl (fun (a : Exc) (e : Nat × Exc) => a ||| e.2) 0
  let flags := o.outs.foldl (fun (a : Exc) u => a ||| (u.1.view sp).flags t u.2) (o.res.exc ||| left ||| orExc o.els)
  let codes := (sp.view.readBinds t).map (·.1) ++ o.outs.map fun u => u.1.code
  let s := s.setMe (s.me.addFlags flags)
  let s := o.outs.foldl (fun (s : State) u => s.writeStream x (u.1.view sp) u.1.b o.vl u.2) s
  let s := s.countWhole (sp.view.readBinds t) r
  let s := match o.fail with
    | some f => s.setMe (s.me.noteTrim o.vl f)
    | none => s
  let s := match sp.second with
    | some (_, r) =>
      let s := o.res.vals2.foldl (fun (s : State) (e : Nat × Nat) => s.setElem x r e.1 e.2) s
      if s.me.tp then (List.range (r.cap x.count - o.res.tail)).foldl (fun (s : State) d => s.setElem x r (o.res.tail + d) 0) s
      else s
    | none => s
  let s := if sp.own then s else s.putResult x sp.dst sp.whole es o.vl o.res.tail o.els
  (sp.fin (s.advanceBinds codes o.vl) o.res.scalar).vdone

/-- The frame of R237; `empty` is the scalar of an instruction issued with VL = 0 (R235). -/
def State.wframe (s : State) (sp : WSpec) (empty : Option Word) : State :=
  let t := s.me
  if t.vlen = 0 then (sp.fin s empty).vdone
  else
    let x := s.lanesOf s.tid
    let es := if sp.whole then 0 else t.start
    if sp.capacity t x ≤ es then s.trap cCapacity 0 0
    else if sp.misplaced t then s.trap cCapacity 0 0
    else match s.wscan sp with
      | (none, s) => s
      | (some r, s) =>
        let dead := (r.acts.filter fun i => decide (i < r.out.vl)).isEmpty
        match r.out.fail with
        | some f => if dead && (f.cause != cCapacity || decide (r.out.vl ≤ es)) then s.faultAt f else s.wcommit sp x es r
        | none => s.wcommit sp x es r

end Sys2Proof.Machine
end

