-- ==== Sys2Proof/Machine/VConfig.lean ====
section
/-! DEFINITION. Vector configuration (10 R229 to R232; 06 R156 to R158; 03 R77) and the binding slots (11 R261, R262). -/

namespace Sys2Proof.Machine

/-! ## setvl -/

/-- The groups REQ gives a thread (06 R155). -/
def reqGroups (req : BitVec 16) (idx : Nat) : Byte :=
  BitVec.ofNat 8 ((List.range 8).foldl (fun a g => if req.toNat / 4 ^ g % 4 = idx + 1 then a + 2 ^ g else a) 0)

/-- The held set after a setvl: what REQ still gives, and what it gives that the other thread does not hold (R156). -/
def State.newHeld (s : State) (tid : Nat) : Byte :=
  reqGroups (s.pair (pairOf tid)).req (tid % 2) &&& (s.held tid ||| ~~~(s.held (sibling tid)))

/-- VLMAX at a lane count (03 R82). -/
def Thread.vlmax (t : Thread) (lanes : Nat) : Nat := lanes * (8192 / t.nregs * 2 / codeNibbles t.et) * t.group

/-- A repartition: the giver's accesses in the slices that pass are performed (04 R115), then the thread's storage is zeroed over the
lanes it now holds (R156). None: it waits. -/
def State.repartition (s : State) (tid : Nat) : Option State :=
  let old := s.held tid
  let new := s.newHeld tid
  if new = old then some s
  else match s.drain fun p => p.tid == sibling tid && decide (p.slice < 8) && (new &&& ~~~old).getLsbD p.slice with
    | none => none
    | some s =>
      let s := (s.setHeld tid new).zeroLanes tid true
      some (s.setTh tid { s.th tid with cl := Vector.replicate 8 0 })

/-- setvl (R158): waits without lanes for a non-zero request. -/
def execSetvl (d n : BitVec 5) (s : State) : Out :=
  .next (match s.repartition s.tid with
    | none => s
    | some s =>
      let lanes := s.lanes s.tid
      if s.sr n ≠ 0 ∧ lanes = 0 then s
      else
        let v := w64 (Nat.min (s.sr n).toNat (s.me.vlmax lanes))
        (s.setMe { s.me with vl := v, trc := 0, tra := 0, es := 0 }).result d v)

/-! ## Binding slots -/

/-- Writes POS back to the record and frees a slot (R262); the failure of the write-back otherwise, or that it waits (none). -/
def State.endBinding (s : State) (j : Nat) : Except (Option Fail) Unit × State :=
  match (s.me.binds[j]?).getD none with
  | none => (.ok (), s)
  | some b =>
    let va := b.recAddr + 0x18
    match s.translate (s.who s.tid) va.toNat 8 .store with
    | (.fail f, s) => (.error (some (Fail.ofT f va .store)), s)
    | (.wait, s) => (.error none, s)
    | (.ok p, s) =>
      let s := s.commit s.tid 8 va p.pa (.store (leBytes 8 b.pos.toNat)) false false
      (.ok (), s.setMe { s.me with binds := s.me.binds.setIfInBounds j none })

/-- Ends slots in order; stops at the first whose write-back fails. -/
def State.endBindings : List Nat → State → Except (Option Fail) Unit × State
  | [], s => (.ok (), s)
  | j :: rest, s =>
    match s.endBinding j with
    | (.ok _, s) => State.endBindings rest s
    | r => r

/-- Goes on after a write-back. -/
def State.afterBinding (r : Except (Option Fail) Unit × State) (k : State → State) : State :=
  match r with
  | (.ok _, s) => k s
  | (.error (some f), s) => s.faultAt f
  | (.error none, s) => s

/-! ## vcfg, vtype, vwin, lpart -/

/-- The equal layout for N registers (R77): descriptors at or above N stay. -/
def equalLayout (n : Nat) (win : Vector Win 64) : Vector Win 64 :=
  Vector.ofFn fun k => if k.val < n then ⟨BitVec.ofNat 10 (k.val * (1024 / n)), BitVec.ofNat 11 (1024 / n)⟩ else win[k.val]

/-- vcfg (R77): the write-backs come first, then the configuration. -/
def execVcfg (c : BitVec 2) (s : State) : Out :=
  .next (State.afterBinding (State.endBindings (List.range 8) s) fun s =>
    let s := s.zeroLanes s.tid false
    let n := 8 * 2 ^ c.toNat
    (s.setMe { s.me with ncfg := c, win := equalLayout n s.me.win, cl := Vector.replicate 8 0 }).retire)

/-- vtype (R229). As vcfg, vwin, lpart, vbind, vunbind, vbpos and tshape it leaves ES as it is (DESIGN CHOICE, log entry 87: 06 R160 clears ES
when "any vector instruction" completes and does not say whether these are meant). -/
def execVtype (n : BitVec 5) (s : State) : Out :=
  .next (if vtyBad (s.sr n) then s.illegal (Enc.vtype n) .reservedField
    else (s.setMe { s.me with vty := s.sr n }).retire)

/-- vwin (R231): the value's check comes before the register's (08 R194). -/
def execVwin (d : BitVec 6) (n : BitVec 5) (s : State) : Out :=
  let v := s.sr n
  let base := bits v 9 0
  let len := bits v 26 16
  .next (
    if bits v 63 27 ≠ 0 ∨ bits v 15 10 ≠ 0 ∨ len = 0 ∨ 1024 < len ∨ 1024 < base + len then
      s.illegal (Enc.vwin d n) .reservedField
    else if s.me.nregs ≤ d.toNat then s.illegal (Enc.vwin d n) .absentRegister
    else (s.setMe { s.me with win := s.me.win.setIfInBounds d.toNat ⟨BitVec.ofNat 10 base, BitVec.ofNat 11 len⟩ }).retire)

/-- lpart (R232): writes REQ only. -/
def execLpart (n : BitVec 5) (s : State) : Out :=
  let v := s.sr n
  .next (
    if bits v 63 16 ≠ 0 ∨ (List.range 8).any (fun g => v.toNat / 4 ^ g % 4 == 3) then s.illegal (Enc.lpart n) .reservedField
    else (s.setPair s.myL { s.myPair with req := BitVec.ofNat 16 v.toNat }).retire)

end Sys2Proof.Machine
end

