-- ==== Sys2Proof/Machine/VInt.lean ====
section
/-! DEFINITION. Element-wise integer instructions (10 R233, R238). -/

namespace Sys2Proof.Machine

/-- The second operand of an element instruction: a vector register, or a scalar with its Q bit. -/
inductive Snd where
  | none
  | reg (b : BitVec 6)
  | sca (n : BitVec 5) (q : BitVec 1)
  deriving DecidableEq, Repr

/-- What one element computes: its index, first and second operand, the destination's old value. -/
abbrev ElemFn := Nat → Nat → Nat → Nat → Nat × Exc

/-- The first operand, the second, and the old destination as an element function takes them. -/
def applyElem (f : ElemFn) (oa : Operand) (ob : Option Operand) (sca : Nat) (od : Option Operand) (s : State) (x : Lanes) (i : Nat) :
    Option Nat × Exc :=
  let b := match ob with
    | some o => s.elem x o i
    | none => sca
  let z := match od with
    | some o => s.elem x o i
    | none => 0
  let r := f i (s.elem x oa i) b z
  (some r.1, r.2)

/-- An element instruction with a vector destination of a width, group and perhaps format of its own, absent registers trapping. -/
def State.velem (s : State) (word : BitVec 32) (d a : BitVec 6) (snd : Snd) (k : BitVec 3) (accum : Bool) (dnib dgroup : Nat)
    (f : ElemFn) (form : Option Nat := none) : State :=
  let t := s.me
  let nib := codeNibbles t.et
  match t.operand d dgroup dnib true, t.operand a t.group nib false with
  | some od, some oa =>
    let spec (srcs : List (BitVec 6 × Operand)) (ob : Option Operand) (sca : Nat) (fin : State → State) : VSpec :=
      { srcs := (a, oa) :: srcs, maskSrcs := [], dst := .reg d od, mask := k, neg := false, accs := noAccs,
        comp := fun s x i _ => applyElem f oa ob sca (if accum then some od else none) s x i
        hot := 0, noMp := false, accum := accum, form := form, fin := fin }
    (match snd with
    | .none => s.vframe (spec [] none 0 fun s => s) noExtra
    | .reg b =>
      (match t.operand b t.group nib false with
      | some ob => s.vframe (spec [(b, ob)] (some ob) 0 fun s => s) noExtra
      | none => s.illegal word .absentRegister)
    | .sca n q =>
      (match s.scalarOrQueue n q with
      | some v => s.vframe (spec [] none (v.toNat % 2 ^ codeBits t.et) fun s => s.popQ0 q) noExtra
      | none => s))
  | _, _ => s.illegal word .absentRegister

/-- An element instruction at the element type of VTY. -/
def State.vop (s : State) (word : BitVec 32) (d a : BitVec 6) (snd : Snd) (k : BitVec 3) (accum : Bool) (f : ElemFn) : State :=
  s.velem word d a snd k accum (codeNibbles s.me.et) s.me.group f

/-- The integer operations of R238. -/
inductive IOp where
  | add | sub | mul | mulh | madd | msub | div | rem | min | max | and | or | xor | shl | shr | sra | abs
  deriving DecidableEq, Repr

/-- An integer operation at an element type (R204, R233, R238). -/
def IOp.run (o : IOp) (et : Nat) (x y z : Nat) : Nat :=
  let w := codeBits et
  let a := etInt et x
  let b := etInt et y
  let c := etInt et z
  let r : Int := match o with
    | .add => a + b
    | .sub => a - b
    | .mul => a * b
    | .mulh => a * b / 2 ^ w
    | .madd => c + a * b
    | .msub => c - a * b
    | .div => if b = 0 then -1 else a.tdiv b
    | .rem => if b = 0 then a else a.tmod b
    | .min => if a < b then a else b
    | .max => if a < b then b else a
    | .and => ((x &&& y : Nat) : Int)
    | .or => ((x ||| y : Nat) : Int)
    | .xor => ((x ^^^ y : Nat) : Int)
    | .shl => ((x * 2 ^ (y % w) : Nat) : Int)
    | .shr => ((x % 2 ^ w / 2 ^ (y % w) : Nat) : Int)
    | .sra => intOf true w x / ((2 ^ (y % w) : Nat) : Int)
    | .abs => if a < 0 then -a else a
  codeOfInt w r

/-- An integer element instruction. -/
def State.viop (s : State) (o : IOp) (word : BitVec 32) (d a : BitVec 6) (snd : Snd) (k : BitVec 3) : State :=
  let et := s.me.et
  s.vop word d a snd k (o == .madd || o == .msub) fun _ x y z => (o.run et x y z, 0)

def execVadd (d a b : BitVec 6) (k : BitVec 3) (s : State) : Out :=
  .next (s.viop .add (Enc.vadd d a b k) d a (.reg b) k)
def execVaddVx (d a : BitVec 6) (n : BitVec 5) (q : BitVec 1) (k : BitVec 3) (s : State) : Out :=
  .next (s.viop .add (Enc.vaddVx d a n q k) d a (.sca n q) k)
def execVsub (d a b : BitVec 6) (k : BitVec 3) (s : State) : Out :=
  .next (s.viop .sub (Enc.vsub d a b k) d a (.reg b) k)
def execVsubVx (d a : BitVec 6) (n : BitVec 5) (q : BitVec 1) (k : BitVec 3) (s : State) : Out :=
  .next (s.viop .sub (Enc.vsubVx d a n q k) d a (.sca n q) k)
def execVmul (d a b : BitVec 6) (k : BitVec 3) (s : State) : Out :=
  .next (s.viop .mul (Enc.vmul d a b k) d a (.reg b) k)
def execVmulVx (d a : BitVec 6) (n : BitVec 5) (q : BitVec 1) (k : BitVec 3) (s : State) : Out :=
  .next (s.viop .mul (Enc.vmulVx d a n q k) d a (.sca n q) k)
def execVmulh (d a b : BitVec 6) (k : BitVec 3) (s : State) : Out :=
  .next (s.viop .mulh (Enc.vmulh d a b k) d a (.reg b) k)
def execVmulhVx (d a : BitVec 6) (n : BitVec 5) (q : BitVec 1) (k : BitVec 3) (s : State) : Out :=
  .next (s.viop .mulh (Enc.vmulhVx d a n q k) d a (.sca n q) k)
def execVmadd (d a b : BitVec 6) (k : BitVec 3) (s : State) : Out :=
  .next (s.viop .madd (Enc.vmadd d a b k) d a (.reg b) k)
def execVmaddVx (d a : BitVec 6) (n : BitVec 5) (q : BitVec 1) (k : BitVec 3) (s : State) : Out :=
  .next (s.viop .madd (Enc.vmaddVx d a n q k) d a (.sca n q) k)
def execVmsub (d a b : BitVec 6) (k : BitVec 3) (s : State) : Out :=
  .next (s.viop .msub (Enc.vmsub d a b k) d a (.reg b) k)
def execVmsubVx (d a : BitVec 6) (n : BitVec 5) (q : BitVec 1) (k : BitVec 3) (s : State) : Out :=
  .next (s.viop .msub (Enc.vmsubVx d a n q k) d a (.sca n q) k)
def execVdiv (d a b : BitVec 6) (k : BitVec 3) (s : State) : Out :=
  .next (s.viop .div (Enc.vdiv d a b k) d a (.reg b) k)
def execVdivVx (d a : BitVec 6) (n : BitVec 5) (q : BitVec 1) (k : BitVec 3) (s : State) : Out :=
  .next (s.viop .div (Enc.vdivVx d a n q k) d a (.sca n q) k)
def execVrem (d a b : BitVec 6) (k : BitVec 3) (s : State) : Out :=
  .next (s.viop .rem (Enc.vrem d a b k) d a (.reg b) k)
def execVremVx (d a : BitVec 6) (n : BitVec 5) (q : BitVec 1) (k : BitVec 3) (s : State) : Out :=
  .next (s.viop .rem (Enc.vremVx d a n q k) d a (.sca n q) k)
def execVmin (d a b : BitVec 6) (k : BitVec 3) (s : State) : Out :=
  .next (s.viop .min (Enc.vmin d a b k) d a (.reg b) k)
def execVminVx (d a : BitVec 6) (n : BitVec 5) (q : BitVec 1) (k : BitVec 3) (s : State) : Out :=
  .next (s.viop .min (Enc.vminVx d a n q k) d a (.sca n q) k)
def execVmax (d a b : BitVec 6) (k : BitVec 3) (s : State) : Out :=
  .next (s.viop .max (Enc.vmax d a b k) d a (.reg b) k)
def execVmaxVx (d a : BitVec 6) (n : BitVec 5) (q : BitVec 1) (k : BitVec 3) (s : State) : Out :=
  .next (s.viop .max (Enc.vmaxVx d a n q k) d a (.sca n q) k)
def execVand (d a b : BitVec 6) (k : BitVec 3) (s : State) : Out :=
  .next (s.viop .and (Enc.vand d a b k) d a (.reg b) k)
def execVandVx (d a : BitVec 6) (n : BitVec 5) (q : BitVec 1) (k : BitVec 3) (s : State) : Out :=
  .next (s.viop .and (Enc.vandVx d a n q k) d a (.sca n q) k)
def execVor (d a b : BitVec 6) (k : BitVec 3) (s : State) : Out :=
  .next (s.viop .or (Enc.vor d a b k) d a (.reg b) k)
def execVorVx (d a : BitVec 6) (n : BitVec 5) (q : BitVec 1) (k : BitVec 3) (s : State) : Out :=
  .next (s.viop .or (Enc.vorVx d a n q k) d a (.sca n q) k)
def execVxor (d a b : BitVec 6) (k : BitVec 3) (s : State) : Out :=
  .next (s.viop .xor (Enc.vxor d a b k) d a (.reg b) k)
def execVxorVx (d a : BitVec 6) (n : BitVec 5) (q : BitVec 1) (k : BitVec 3) (s : State) : Out :=
  .next (s.viop .xor (Enc.vxorVx d a n q k) d a (.sca n q) k)
def execVshl (d a b : BitVec 6) (k : BitVec 3) (s : State) : Out :=
  .next (s.viop .shl (Enc.vshl d a b k) d a (.reg b) k)
def execVshlVx (d a : BitVec 6) (n : BitVec 5) (q : BitVec 1) (k : BitVec 3) (s : State) : Out :=
  .next (s.viop .shl (Enc.vshlVx d a n q k) d a (.sca n q) k)
def execVshr (d a b : BitVec 6) (k : BitVec 3) (s : State) : Out :=
  .next (s.viop .shr (Enc.vshr d a b k) d a (.reg b) k)
def execVshrVx (d a : BitVec 6) (n : BitVec 5) (q : BitVec 1) (k : BitVec 3) (s : State) : Out :=
  .next (s.viop .shr (Enc.vshrVx d a n q k) d a (.sca n q) k)
def execVsra (d a b : BitVec 6) (k : BitVec 3) (s : State) : Out :=
  .next (s.viop .sra (Enc.vsra d a b k) d a (.reg b) k)
def execVsraVx (d a : BitVec 6) (n : BitVec 5) (q : BitVec 1) (k : BitVec 3) (s : State) : Out :=
  .next (s.viop .sra (Enc.vsraVx d a n q k) d a (.sca n q) k)
def execVabs (d a : BitVec 6) (k : BitVec 3) (s : State) : Out := .next (s.viop .abs (Enc.vabs d a k) d a .none k)

end Sys2Proof.Machine
end

