-- ==== Sys2Proof/Machine/VFp.lean ====
section
/-! DEFINITION. Element-wise floating point, conversion (10 R239, R240), compares and mask operations (R241, R242). -/

namespace Sys2Proof.Machine

/-! ## Floating point -/

/-- A floating-point instruction needs a floating-point element type (R233). -/
def State.needFloat (s : State) (word : BitVec 32) (k : Fmt → State) : State :=
  match codeFmt s.me.et with
  | some f => k f
  | none => s.illegal word .reservedField

/-- A two-operand operation over elements, elem i. -/
def State.vfop (s : State) (o : FOp) (word : BitVec 32) (d a : BitVec 6) (snd : Snd) (k : BitVec 3) : State :=
  let c := s.me.ctl
  s.needFloat word fun f => s.vop word d a snd k false fun i x y _ => o.run f c i 0 x y

/-- A fused multiply-add into vd. -/
def State.vfmaop (s : State) (negProd negAdd : Bool) (word : BitVec 32) (d a : BitVec 6) (snd : Snd) (k : BitVec 3) : State :=
  let c := s.me.ctl
  s.needFloat word fun f => s.vop word d a snd k true fun i x y z => fmaRun f c i 0 negProd negAdd x y z

/-- A sign operation: a NaN gives the canonical NaN (R239). -/
def signOp (f : Fmt) (fz : Bool) (x : Nat) (g : Bool → Bool) : Nat × Exc :=
  match f.operand fz x with
  | .nan sn => (f.nan, nvIf sn)
  | .inf n => (f.withSign (g n) f.inf, 0)
  | .num n m e r => roundTo f ctlRne 0 0 (.num (g n) m e r)

/-- The estimate of vfrsqe: 1 / √a truncated to 8 significant bits, then toward zero to the format (R239). Of ±0 it is the format's infinity,
or what stands for it, whatever SATN is (DESIGN CHOICE, log entry 88: the spec does not say whether SATN reaches this result). -/
def rsqe (f : Fmt) (c : Ctl) (x : Nat) : Nat × Exc :=
  match f.operand c.fz x with
  | .nan sn => (f.nan, nvIf sn)
  | .inf neg => if neg then (f.nan, excNV) else (0, 0)
  | .num neg m e _ =>
    if m = 0 then (if f.e4 then f.nan else f.withSign neg f.inf, excDZ)
    else if neg then (f.nan, excNV)
    else
      -- m' 2^(2j) with 2j = e or e - 1
      let odd := e % 2 != 0
      let m' := if odd then 2 * m else m
      let j : Int := if odd then (e - 1) / 2 else e / 2
      let k := quotBits + Nat.log2 m'
      let n := 2 ^ (2 * k) / m'
      let q := isqrtFrom n (Nat.log2 n / 2 + 1) 0
      let drop := Nat.log2 q - 7
      ((roundTo f { ctlRne with rm := 1 } 0 0 (.num false (q / 2 ^ drop) (drop - k - j) false)).1, 0)

def execVfadd (d a b : BitVec 6) (k : BitVec 3) (s : State) : Out :=
  .next (s.vfop .add (Enc.vfadd d a b k) d a (.reg b) k)
def execVfaddVx (d a : BitVec 6) (n : BitVec 5) (q : BitVec 1) (k : BitVec 3) (s : State) : Out :=
  .next (s.vfop .add (Enc.vfaddVx d a n q k) d a (.sca n q) k)
def execVfsub (d a b : BitVec 6) (k : BitVec 3) (s : State) : Out :=
  .next (s.vfop .sub (Enc.vfsub d a b k) d a (.reg b) k)
def execVfsubVx (d a : BitVec 6) (n : BitVec 5) (q : BitVec 1) (k : BitVec 3) (s : State) : Out :=
  .next (s.vfop .sub (Enc.vfsubVx d a n q k) d a (.sca n q) k)
def execVfmul (d a b : BitVec 6) (k : BitVec 3) (s : State) : Out :=
  .next (s.vfop .mul (Enc.vfmul d a b k) d a (.reg b) k)
def execVfmulVx (d a : BitVec 6) (n : BitVec 5) (q : BitVec 1) (k : BitVec 3) (s : State) : Out :=
  .next (s.vfop .mul (Enc.vfmulVx d a n q k) d a (.sca n q) k)
def execVfdiv (d a b : BitVec 6) (k : BitVec 3) (s : State) : Out :=
  .next (s.vfop .div (Enc.vfdiv d a b k) d a (.reg b) k)
def execVfdivVx (d a : BitVec 6) (n : BitVec 5) (q : BitVec 1) (k : BitVec 3) (s : State) : Out :=
  .next (s.vfop .div (Enc.vfdivVx d a n q k) d a (.sca n q) k)
def execVfmin (d a b : BitVec 6) (k : BitVec 3) (s : State) : Out :=
  .next (s.vfop .min (Enc.vfmin d a b k) d a (.reg b) k)
def execVfminVx (d a : BitVec 6) (n : BitVec 5) (q : BitVec 1) (k : BitVec 3) (s : State) : Out :=
  .next (s.vfop .min (Enc.vfminVx d a n q k) d a (.sca n q) k)
def execVfmax (d a b : BitVec 6) (k : BitVec 3) (s : State) : Out :=
  .next (s.vfop .max (Enc.vfmax d a b k) d a (.reg b) k)
def execVfmaxVx (d a : BitVec 6) (n : BitVec 5) (q : BitVec 1) (k : BitVec 3) (s : State) : Out :=
  .next (s.vfop .max (Enc.vfmaxVx d a n q k) d a (.sca n q) k)
def execVfma (d a b : BitVec 6) (k : BitVec 3) (s : State) : Out :=
  .next (s.vfmaop false false (Enc.vfma d a b k) d a (.reg b) k)
def execVfmaVx (d a : BitVec 6) (n : BitVec 5) (q : BitVec 1) (k : BitVec 3) (s : State) : Out :=
  .next (s.vfmaop false false (Enc.vfmaVx d a n q k) d a (.sca n q) k)
def execVfms (d a b : BitVec 6) (k : BitVec 3) (s : State) : Out :=
  .next (s.vfmaop false true (Enc.vfms d a b k) d a (.reg b) k)
def execVfmsVx (d a : BitVec 6) (n : BitVec 5) (q : BitVec 1) (k : BitVec 3) (s : State) : Out :=
  .next (s.vfmaop false true (Enc.vfmsVx d a n q k) d a (.sca n q) k)
def execVfnma (d a b : BitVec 6) (k : BitVec 3) (s : State) : Out :=
  .next (s.vfmaop true false (Enc.vfnma d a b k) d a (.reg b) k)
def execVfnmaVx (d a : BitVec 6) (n : BitVec 5) (q : BitVec 1) (k : BitVec 3) (s : State) : Out :=
  .next (s.vfmaop true false (Enc.vfnmaVx d a n q k) d a (.sca n q) k)
def execVfsqrt (d a : BitVec 6) (k : BitVec 3) (s : State) : Out :=
  .next (s.needFloat (Enc.vfsqrt d a k) fun f =>
    let c := s.me.ctl
    s.vop (Enc.vfsqrt d a k) d a .none k false fun i x _ _ => sqrtRun f c i x)
def execVfrsqe (d a : BitVec 6) (k : BitVec 3) (s : State) : Out :=
  .next (s.needFloat (Enc.vfrsqe d a k) fun f =>
    let c := s.me.ctl
    s.vop (Enc.vfrsqe d a k) d a .none k false fun _ x _ _ => rsqe f c x)
def execVfabs (d a : BitVec 6) (k : BitVec 3) (s : State) : Out :=
  .next (s.needFloat (Enc.vfabs d a k) fun f =>
    let c := s.me.ctl
    s.vop (Enc.vfabs d a k) d a .none k false fun _ x _ _ => signOp f c.fz x fun _ => false)
def execVfneg (d a : BitVec 6) (k : BitVec 3) (s : State) : Out :=
  .next (s.needFloat (Enc.vfneg d a k) fun f =>
    let c := s.me.ctl
    s.vop (Enc.vfneg d a k) d a .none k false fun _ x _ _ => signOp f c.fz x fun n => !n)

/-- vcvt (R240): the destination group is min(8, g × max(1, w_d / w)). -/
def execVcvt (d a : BitVec 6) (t : BitVec 4) (k : BitVec 3) (s : State) : Out :=
  let et := s.me.et
  let c := s.me.ctl
  let wd := codeNibbles t.toNat
  let g := Nat.min 8 (s.me.group * Nat.max 1 (wd / codeNibbles et))
  .next (s.velem (Enc.vcvt d a t k) d a .none k false wd g (fun i x _ _ => convCode et t.toNat c i 0 x) (some t.toNat))

/-! ## Compares -/

/-- An element comparison into a mask register (R241). -/
def State.vcompare (s : State) (word : BitVec 32) (d : BitVec 3) (a : BitVec 6) (snd : Snd) (k : BitVec 3)
    (f : Nat → Nat → Bool × Exc) : State :=
  let t := s.me
  let nib := codeNibbles t.et
  match t.operand a t.group nib false with
  | none => s.illegal word .absentRegister
  | some oa =>
    let spec (srcs : List (BitVec 6 × Operand)) (b : State → Lanes → Nat → Nat) (fin : State → State) : VSpec :=
      { srcs := (a, oa) :: srcs, maskSrcs := [], dst := .mask d.toNat, mask := k, neg := false, accs := noAccs,
        comp := fun s x i _ => let r := f (s.elem x oa i) (b s x i); (some (if r.1 then 1 else 0), r.2)
        hot := 0, noMp := false, accum := false, fin := fin }
    match snd with
    | .none => s
    | .reg b =>
      (match t.operand b t.group nib false with
      | some ob => s.vframe (spec [(b, ob)] (fun s x i => s.elem x ob i) fun s => s) noExtra
      | none => s.illegal word .absentRegister)
    | .sca n q =>
      (match s.scalarOrQueue n q with
      | some v => s.vframe (spec [] (fun _ _ _ => v.toNat % 2 ^ codeBits t.et) fun s => s.popQ0 q) noExtra
      | none => s)

/-- Integer conditions; lt and le are signed whatever the element type. -/
inductive ICond where
  | eq | ne | lt | le | ltu | leu
  deriving DecidableEq, Repr
def ICond.run (c : ICond) (w x y : Nat) : Bool :=
  match c with
  | .eq => x == y
  | .ne => x != y
  | .lt => decide (intOf true w x < intOf true w y)
  | .le => decide (intOf true w x ≤ intOf true w y)
  | .ltu => decide (x < y)
  | .leu => decide (x ≤ y)

def State.vicmp (s : State) (o : ICond) (word : BitVec 32) (d : BitVec 3) (a : BitVec 6) (snd : Snd) (k : BitVec 3) : State :=
  let w := codeBits s.me.et
  s.vcompare word d a snd k fun x y => (o.run w x y, 0)
def State.vfcmp (s : State) (o : FCond) (word : BitVec 32) (d : BitVec 3) (a : BitVec 6) (snd : Snd) (k : BitVec 3) : State :=
  let fz := s.me.ctl.fz
  s.needFloat word fun f => s.vcompare word d a snd k fun x y => o.run (f.operand fz x) (f.operand fz y)

def execVcmpEq (d : BitVec 3) (a b : BitVec 6) (k : BitVec 3) (s : State) : Out :=
  .next (s.vicmp .eq (Enc.vcmpEq d a b k) d a (.reg b) k)
def execVcmpEqVx (d : BitVec 3) (a : BitVec 6) (n : BitVec 5) (q : BitVec 1) (k : BitVec 3) (s : State) : Out :=
  .next (s.vicmp .eq (Enc.vcmpEqVx d a n q k) d a (.sca n q) k)
def execVcmpNe (d : BitVec 3) (a b : BitVec 6) (k : BitVec 3) (s : State) : Out :=
  .next (s.vicmp .ne (Enc.vcmpNe d a b k) d a (.reg b) k)
def execVcmpNeVx (d : BitVec 3) (a : BitVec 6) (n : BitVec 5) (q : BitVec 1) (k : BitVec 3) (s : State) : Out :=
  .next (s.vicmp .ne (Enc.vcmpNeVx d a n q k) d a (.sca n q) k)
def execVcmpLt (d : BitVec 3) (a b : BitVec 6) (k : BitVec 3) (s : State) : Out :=
  .next (s.vicmp .lt (Enc.vcmpLt d a b k) d a (.reg b) k)
def execVcmpLtVx (d : BitVec 3) (a : BitVec 6) (n : BitVec 5) (q : BitVec 1) (k : BitVec 3) (s : State) : Out :=
  .next (s.vicmp .lt (Enc.vcmpLtVx d a n q k) d a (.sca n q) k)
def execVcmpLe (d : BitVec 3) (a b : BitVec 6) (k : BitVec 3) (s : State) : Out :=
  .next (s.vicmp .le (Enc.vcmpLe d a b k) d a (.reg b) k)
def execVcmpLeVx (d : BitVec 3) (a : BitVec 6) (n : BitVec 5) (q : BitVec 1) (k : BitVec 3) (s : State) : Out :=
  .next (s.vicmp .le (Enc.vcmpLeVx d a n q k) d a (.sca n q) k)
def execVcmpLtu (d : BitVec 3) (a b : BitVec 6) (k : BitVec 3) (s : State) : Out :=
  .next (s.vicmp .ltu (Enc.vcmpLtu d a b k) d a (.reg b) k)
def execVcmpLtuVx (d : BitVec 3) (a : BitVec 6) (n : BitVec 5) (q : BitVec 1) (k : BitVec 3) (s : State) : Out :=
  .next (s.vicmp .ltu (Enc.vcmpLtuVx d a n q k) d a (.sca n q) k)
def execVcmpLeu (d : BitVec 3) (a b : BitVec 6) (k : BitVec 3) (s : State) : Out :=
  .next (s.vicmp .leu (Enc.vcmpLeu d a b k) d a (.reg b) k)
def execVcmpLeuVx (d : BitVec 3) (a : BitVec 6) (n : BitVec 5) (q : BitVec 1) (k : BitVec 3) (s : State) : Out :=
  .next (s.vicmp .leu (Enc.vcmpLeuVx d a n q k) d a (.sca n q) k)
def execVfcmpEq (d : BitVec 3) (a b : BitVec 6) (k : BitVec 3) (s : State) : Out :=
  .next (s.vfcmp .eq (Enc.vfcmpEq d a b k) d a (.reg b) k)
def execVfcmpEqVx (d : BitVec 3) (a : BitVec 6) (n : BitVec 5) (q : BitVec 1) (k : BitVec 3) (s : State) : Out :=
  .next (s.vfcmp .eq (Enc.vfcmpEqVx d a n q k) d a (.sca n q) k)
def execVfcmpNe (d : BitVec 3) (a b : BitVec 6) (k : BitVec 3) (s : State) : Out :=
  .next (s.vfcmp .ne (Enc.vfcmpNe d a b k) d a (.reg b) k)
def execVfcmpNeVx (d : BitVec 3) (a : BitVec 6) (n : BitVec 5) (q : BitVec 1) (k : BitVec 3) (s : State) : Out :=
  .next (s.vfcmp .ne (Enc.vfcmpNeVx d a n q k) d a (.sca n q) k)
def execVfcmpLt (d : BitVec 3) (a b : BitVec 6) (k : BitVec 3) (s : State) : Out :=
  .next (s.vfcmp .lt (Enc.vfcmpLt d a b k) d a (.reg b) k)
def execVfcmpLtVx (d : BitVec 3) (a : BitVec 6) (n : BitVec 5) (q : BitVec 1) (k : BitVec 3) (s : State) : Out :=
  .next (s.vfcmp .lt (Enc.vfcmpLtVx d a n q k) d a (.sca n q) k)
def execVfcmpLe (d : BitVec 3) (a b : BitVec 6) (k : BitVec 3) (s : State) : Out :=
  .next (s.vfcmp .le (Enc.vfcmpLe d a b k) d a (.reg b) k)
def execVfcmpLeVx (d : BitVec 3) (a : BitVec 6) (n : BitVec 5) (q : BitVec 1) (k : BitVec 3) (s : State) : Out :=
  .next (s.vfcmp .le (Enc.vfcmpLeVx d a n q k) d a (.sca n q) k)
def execVfcmpUnord (d : BitVec 3) (a b : BitVec 6) (k : BitVec 3) (s : State) : Out :=
  .next (s.vfcmp .unord (Enc.vfcmpUnord d a b k) d a (.reg b) k)
def execVfcmpUnordVx (d : BitVec 3) (a : BitVec 6) (n : BitVec 5) (q : BitVec 1) (k : BitVec 3) (s : State) : Out :=
  .next (s.vfcmp .unord (Enc.vfcmpUnordVx d a n q k) d a (.sca n q) k)
def execVfcmpOrd (d : BitVec 3) (a b : BitVec 6) (k : BitVec 3) (s : State) : Out :=
  .next (s.vfcmp .ord (Enc.vfcmpOrd d a b k) d a (.reg b) k)
def execVfcmpOrdVx (d : BitVec 3) (a : BitVec 6) (n : BitVec 5) (q : BitVec 1) (k : BitVec 3) (s : State) : Out :=
  .next (s.vfcmp .ord (Enc.vfcmpOrdVx d a n q k) d a (.sca n q) k)

/-! ## Mask operations (R242) -/

/-- An operation over mask registers into one. -/
def State.vmaskop (s : State) (d : BitVec 3) (srcs : List (BitVec 3)) (k : BitVec 3) (f : List Bool → Bool) : State :=
  s.vframe
    { srcs := [], maskSrcs := srcs.map BitVec.toNat, dst := .mask d.toNat, mask := k, neg := false, accs := noAccs,
      comp := fun s x i _ => (some (if f (srcs.map fun m => s.maskBit x m.toNat i) then 1 else 0), 0)
      hot := 0, noMp := false, accum := false, fin := fun s => s } noExtra

def execMand (d a b k : BitVec 3) (s : State) : Out := .next (s.vmaskop d [a, b] k fun l => l.all id)
def execMor (d a b k : BitVec 3) (s : State) : Out := .next (s.vmaskop d [a, b] k fun l => l.any id)
def execMxor (d a b k : BitVec 3) (s : State) : Out := .next (s.vmaskop d [a, b] k fun l => l.foldl xor false)
def execMnot (d a k : BitVec 3) (s : State) : Out := .next (s.vmaskop d [a] k fun l => l.all not)
def execMset (d k : BitVec 3) (s : State) : Out := .next (s.vmaskop d [] k fun _ => true)

/-- A whole-strip scan of a mask register into a scalar register. -/
def State.vmaskscan (s : State) (d : BitVec 5) (a k : BitVec 3) (empty : Word) (f : List Nat → Word) : State :=
  s.wframe
    { srcs := [], maskSrcs := [a.toNat], dst := .none, second := none, mask := k, whole := false, limit := 2 ^ 64,
      run := fun s x vl acts =>
        let bad := acts.find? fun i => s.maskFails x a.toNat i
        { vals := [], vals2 := [], tail := vl, exc := 0
          scalar := some (f (acts.filter fun i => s.maskBit x a.toNat i))
          fail := bad.map fun i => (i, Fail.lost 0) }
      fin := fun s v => match v with
        | some v => s.setS d v
        | none => s } (some empty)

def execMpopc (d : BitVec 5) (a k : BitVec 3) (s : State) : Out := .next (s.vmaskscan d a k 0 fun l => w64 l.length)
def execMfirst (d : BitVec 5) (a k : BitVec 3) (s : State) : Out :=
  .next (s.vmaskscan d a k (BitVec.allOnes 64) fun l => match l with
    | i :: _ => w64 i
    | [] => BitVec.allOnes 64)

end Sys2Proof.Machine
end

