-- ==== Sys2Proof/Machine/VReduce.lean ====
section
/-! DEFINITION. Reductions (10 R243; 07 R179, R180), permutations (R244 to R247), recurrences and moves (R248, R249). -/

namespace Sys2Proof.Machine

/-! ## Shared pieces -/

/-- Goes on with a VX word's scalar when its q0 entry and, for a scalar result, its q1 entry are to be had; otherwise it
waits, in the vector instruction queue (06 R153). -/
def State.withScalar (s : State) (n : BitVec 5) (q : BitVec 1) (result : Bool) (k : Word → State) : State :=
  match s.scalarOrQueue n q with
  | none => s
  | some v => if q = 1 && result && !s.me.q1Room then s else k v

/-- Completing a VX word with a scalar result. -/
def scalarFin (d : BitVec 5) (q : BitVec 1) (s : State) (v : Option Word) : State :=
  let s := s.popQ0 q
  match v with
  | some v => s.scalarResult d q v
  | none => s

/-- An element as a scalar result of an integer instruction (R233). -/
def intScalar (et v : Nat) : Word := BitVec.ofInt 64 (etInt et v)
/-- A scalar result of an integer or a floating-point instruction. -/
def scalarOut (float : Bool) (et v : Nat) : Word := if float then w64 (v % 2 ^ codeBits et) else intScalar et v

/-- The active elements of a register that read whole, and the first whose parity fails. -/
def State.readActs (s : State) (x : Lanes) (o : Operand) (acts : List Nat) : List (Nat × Nat) × Option (Nat × Fail) :=
  let good := acts.takeWhile fun i => !s.elemFails x o i
  (good.map fun i => (i, s.elem x o i), (acts.drop good.length).head?.map fun i => (i, Fail.lost 0))

/-- A running combination in ascending order, up to the first enabled exception: value, exceptions, failure. -/
def runFold (t : Thread) (f : Nat → Nat → Nat → Nat × Exc) : List (Nat × Nat) → Nat → Exc → Nat × Exc × Option (Nat × Fail)
  | [], c, e => (c, e, none)
  | (i, v) :: rest, c, e =>
    let r := f i c v
    if t.enabled r.2 then (c, e, some (i, Fail.arith r.2)) else runFold t f rest r.1 (e ||| r.2)

/-! ## Reductions -/

/-- One level of a tree sum over (value, lowest index): pairs are added, an odd last one is carried up (R180). -/
def treeLevel (t : Thread) (f : Fmt) (c : Ctl) : List (Nat × Nat) → Exc → List (Nat × Nat) → Except (Nat × Exc) (List (Nat × Nat) × Exc)
  | a :: b :: rest, e, acc =>
    let r := FOp.add.run f c b.2 0 a.1 b.1
    if t.enabled r.2 then .error (b.2, r.2) else treeLevel t f c rest (e ||| r.2) (acc ++ [(r.1, a.2)])
  | [a], e, acc => .ok (acc ++ [a], e)
  | [], e, acc => .ok (acc, e)

/-- The tree sum of R180 with the carry added last. -/
def treeSum (t : Thread) (f : Fmt) (c : Ctl) (carry : Nat) : (fuel : Nat) → List (Nat × Nat) → Exc → Nat × Exc × Option (Nat × Fail)
  | _, [], e => (carry, e, none)
  | _, [a], e =>
    let r := FOp.add.run f c a.2 0 carry a.1
    if t.enabled r.2 then (carry, e, some (a.2, Fail.arith r.2)) else (r.1, e ||| r.2, none)
  | 0, _, e => (carry, e, none)
  | n + 1, l, e =>
    match treeLevel t f c l e [] with
    | .error (k, x) => (carry, e, some (k, Fail.arith x))
    | .ok (l, e) => treeSum t f c carry n l e

/-- A reduction: `g` combines the carry with the elements in ascending order. -/
def State.vreduce (s : State) (word : BitVec 32) (d : BitVec 5) (a : BitVec 6) (n : BitVec 5) (q : BitVec 1) (k : BitVec 3)
    (float : Bool) (g : Nat → List (Nat × Nat) → Nat × Exc × Option (Nat × Fail)) : State :=
  let t := s.me
  let et := t.et
  match t.operand a t.group (codeNibbles et) false with
  | none => s.illegal word .absentRegister
  | some oa =>
    s.withScalar n q true fun v =>
      let carry := v.toNat % 2 ^ codeBits et
      s.wframe
        { srcs := [(a, oa)], maskSrcs := [], dst := .none, second := none, mask := k, whole := false, limit := 2 ^ 64,
          run := fun s x vl acts =>
            let r := s.readActs x oa acts
            let o := g carry (r.1.map fun e => (e.2, e.1))
            { vals := [], vals2 := [], tail := vl, exc := o.2.1, scalar := some (scalarOut float et o.1)
              fail := match o.2.2 with
                | some f => some f
                | none => r.2 }
          fin := scalarFin d q } (some (scalarOfElem et carry))

/-- An integer reduction. -/
def State.vired (s : State) (o : IOp) (word : BitVec 32) (d : BitVec 5) (a : BitVec 6) (n : BitVec 5) (q : BitVec 1) (k : BitVec 3) :
    State :=
  let et := s.me.et
  s.vreduce word d a n q k false fun c l => (l.foldl (fun r e => o.run et r e.1 0) c, 0, none)

/-- A floating-point reduction that combines one element at a time. -/
def State.vfred (s : State) (o : FOp) (word : BitVec 32) (d : BitVec 5) (a : BitVec 6) (n : BitVec 5) (q : BitVec 1) (k : BitVec 3) :
    State :=
  let t := s.me
  let c := t.ctl
  s.needFloat word fun f => s.vreduce word d a n q k true fun v l =>
    runFold t (fun i r e => o.run f c i 0 r e) (l.map fun e => (e.2, e.1)) v 0

def execVredsum (d : BitVec 5) (a : BitVec 6) (n : BitVec 5) (q : BitVec 1) (k : BitVec 3) (s : State) : Out :=
  .next (s.vired .add (Enc.vredsum d a n q k) d a n q k)
def execVredmax (d : BitVec 5) (a : BitVec 6) (n : BitVec 5) (q : BitVec 1) (k : BitVec 3) (s : State) : Out :=
  .next (s.vired .max (Enc.vredmax d a n q k) d a n q k)
def execVredmin (d : BitVec 5) (a : BitVec 6) (n : BitVec 5) (q : BitVec 1) (k : BitVec 3) (s : State) : Out :=
  .next (s.vired .min (Enc.vredmin d a n q k) d a n q k)
def execVredand (d : BitVec 5) (a : BitVec 6) (n : BitVec 5) (q : BitVec 1) (k : BitVec 3) (s : State) : Out :=
  .next (s.vired .and (Enc.vredand d a n q k) d a n q k)
def execVredor (d : BitVec 5) (a : BitVec 6) (n : BitVec 5) (q : BitVec 1) (k : BitVec 3) (s : State) : Out :=
  .next (s.vired .or (Enc.vredor d a n q k) d a n q k)
def execVfredsumO (d : BitVec 5) (a : BitVec 6) (n : BitVec 5) (q : BitVec 1) (k : BitVec 3) (s : State) : Out :=
  .next (s.vfred .add (Enc.vfredsumO d a n q k) d a n q k)
def execVfredsumT (d : BitVec 5) (a : BitVec 6) (n : BitVec 5) (q : BitVec 1) (k : BitVec 3) (s : State) : Out :=
  let t := s.me
  let c := t.ctl
  .next (s.needFloat (Enc.vfredsumT d a n q k) fun f =>
    s.vreduce (Enc.vfredsumT d a n q k) d a n q k true fun v l => treeSum t f c v l.length l 0)
def execVfredmax (d : BitVec 5) (a : BitVec 6) (n : BitVec 5) (q : BitVec 1) (k : BitVec 3) (s : State) : Out :=
  .next (s.vfred .max (Enc.vfredmax d a n q k) d a n q k)
def execVfredmin (d : BitVec 5) (a : BitVec 6) (n : BitVec 5) (q : BitVec 1) (k : BitVec 3) (s : State) : Out :=
  .next (s.vfred .min (Enc.vfredmin d a n q k) d a n q k)

/-! ## Permutations -/

/-- A permutation: `g` gives each active element's value, or none where a source it reads fails its parity. -/
def State.vpermute (s : State) (word : BitVec 32) (d : BitVec 6) (srcs : List (BitVec 6)) (maskSrcs : List Nat) (k : BitVec 3)
    (fin : State → State) (g : List Operand → State → Lanes → (vl i : Nat) → Option Nat) : State :=
  let t := s.me
  let nib := codeNibbles t.et
  let ops := srcs.filterMap fun c => (t.operand c t.group nib false).map fun o => (c, o)
  match t.operand d t.group nib true with
  | none => s.illegal word .absentRegister
  | some od =>
    if ops.length ≠ srcs.length then s.illegal word .absentRegister
    else s.wframe
      { srcs := ops, maskSrcs := maskSrcs, dst := .reg d od, second := none, mask := k, whole := false, limit := 2 ^ 64,
        run := fun s x vl acts =>
          let r := acts.map fun i => (i, g (ops.map (·.2)) s x vl i)
          { vals := r.filterMap fun e => e.2.map fun v => (e.1, v)
            vals2 := [], tail := vl, exc := 0, scalar := none
            fail := (r.find? fun e => e.2.isNone).map fun e => (e.1, Fail.lost 0) }
        fin := fun s _ => fin s } none

/-- An element, or none where its parity fails. -/
def State.elem? (s : State) (x : Lanes) (o : Operand) (i : Nat) : Option Nat := if s.elemFails x o i then none else some (s.elem x o i)

/-- Goes on when the registers a word names are there, which is checked before it waits (08 R194). -/
def State.withRegs (s : State) (word : BitVec 32) (d a : BitVec 6) (k : State) : State :=
  let t := s.me
  let nib := codeNibbles t.et
  if (t.operand d t.group nib true).isSome && (t.operand a t.group nib false).isSome then k else s.illegal word .absentRegister

def execVslideup (d a : BitVec 6) (n : BitVec 5) (q : BitVec 1) (k : BitVec 3) (s : State) : Out :=
  .next (s.withRegs (Enc.vslideup d a n q k) d a <| s.withScalar n q false fun v =>
    s.vpermute (Enc.vslideup d a n q k) d [a] [] k (fun s => s.popQ0 q) fun ops s x _ i => match ops with
      | oa :: _ => if v.toNat ≤ i then s.elem? x oa (i - v.toNat) else some 0
      | [] => none)
def execVslidedown (d a : BitVec 6) (n : BitVec 5) (q : BitVec 1) (k : BitVec 3) (s : State) : Out :=
  .next (s.withRegs (Enc.vslidedown d a n q k) d a <| s.withScalar n q false fun v =>
    s.vpermute (Enc.vslidedown d a n q k) d [a] [] k (fun s => s.popQ0 q) fun ops s x vl i => match ops with
      | oa :: _ => if i + v.toNat < vl then s.elem? x oa (i + v.toNat) else some 0
      | [] => none)
def execVrev (d a : BitVec 6) (k : BitVec 3) (s : State) : Out :=
  .next (s.vpermute (Enc.vrev d a k) d [a] [] k (fun s => s) fun ops s x vl i => match ops with
    | oa :: _ => s.elem? x oa (vl - 1 - i)
    | [] => none)
def execVperm (d a b : BitVec 6) (k : BitVec 3) (s : State) : Out :=
  .next (s.vpermute (Enc.vperm d a b k) d [a, b] [] k (fun s => s) fun ops s x vl i => match ops with
    | oa :: ob :: _ => (match s.elem? x ob i with
      | some j => if j < vl then s.elem? x oa j else some 0
      | none => none)
    | _ => none)
/-- viota (R244): counts the bits of ma below i, whatever their activity. -/
def execViota (d : BitVec 6) (a k : BitVec 3) (s : State) : Out :=
  let w := codeBits s.me.et
  .next (s.vpermute (Enc.viota d a k) d [] [a.toNat] k (fun s => s) fun _ s x _ i =>
    if (List.range i).any fun j => s.maskFails x a.toNat j then none
    else some (((List.range i).filter fun j => s.maskBit x a.toNat j).length % 2 ^ w))

/-- vcompress and vexpand (R245): the mask selects. -/
def State.vselect (s : State) (word : BitVec 32) (d a : BitVec 6) (k : BitVec 3) (compress : Bool) : State :=
  let t := s.me
  let nib := codeNibbles t.et
  match t.operand d t.group nib true, t.operand a t.group nib false with
  | some od, some oa =>
    s.wframe
      { srcs := [(a, oa)], maskSrcs := [], dst := .reg d od, second := none, mask := k, whole := true, limit := 2 ^ 64,
        run := fun s x vl acts =>
          let sel := acts.filter fun i => s.maskBit x k.toNat i
          let r := sel.zipIdx.map fun e => (e, s.elem? x oa (if compress then e.1 else e.2))
          { vals := r.filterMap fun e => e.2.map fun v => (if compress then e.1.2 else e.1.1, v)
            vals2 := [], tail := if compress then sel.length else vl, exc := 0, scalar := none
            fail := (r.find? fun e => e.2.isNone).map fun e => (e.1.1, Fail.lost 0) }
        outs := some (fun s x acts =>
          let sel := acts.filter fun i => s.maskBit x k.toNat i
          if compress then List.range sel.length else sel)
        fin := fun s _ => s } none
  | _, _ => s.illegal word .absentRegister

def execVcompress (d a : BitVec 6) (k : BitVec 3) (s : State) : Out := .next (s.vselect (Enc.vcompress d a k) d a k true)
def execVexpand (d a : BitVec 6) (k : BitVec 3) (s : State) : Out := .next (s.vselect (Enc.vexpand d a k) d a k false)

/-- Inserts behind every key not above it: a stable ascending sort. -/
def insertKey (le : Nat → Nat → Bool) (e : Nat × Nat) : List (Nat × Nat) → List (Nat × Nat)
  | [] => [e]
  | h :: t => if le h.2 e.2 then h :: insertKey le e t else e :: h :: t
def sortKeys (le : Nat → Nat → Bool) (l : List (Nat × Nat)) : List (Nat × Nat) := l.foldl (fun acc e => insertKey le e acc) []

/-- vsort (R246): keys in vd, original indices to vs1. A read binding on vd names a source (DEDUCED, log entry 98). -/
def execVsort (d a : BitVec 6) (s : State) : Out :=
  let t := s.me
  let et := t.et
  let nib := codeNibbles et
  .next (match t.operand d t.group nib true, t.operand a t.group nib true with
    | some od, some oa =>
      s.wframe
        { srcs := [(d, od)], maskSrcs := [], dst := .reg d od, second := some (a, oa), mask := 0, whole := true,
          limit := 2 ^ codeBits et
          run := fun s x vl acts =>
            let r := s.readActs x od acts
            let le (x y : Nat) : Bool :=
              if codeSigned et then decide (intOf true (codeBits et) x ≤ intOf true (codeBits et) y) else decide (x ≤ y)
            let l := (sortKeys le r.1).zipIdx
            { vals := l.map fun e => (e.2, e.1.2), vals2 := l.map fun e => (e.2, e.1.1), tail := vl, exc := 0, scalar := none
              fail := r.2 }
          fin := fun s _ => s } none
    | _, _ => s.illegal (Enc.vsort d a) .absentRegister)

/-- Runs of adjacent equal keys with the ordered sum of their values, up to the first enabled exception (R247). -/
def dedupRuns (t : Thread) (c : Ctl) (et : Nat) : List (Nat × Nat × Nat) → List (Nat × Nat) → Exc →
    List (Nat × Nat) × Exc × Option (Nat × Fail)
  | [], acc, e => (acc, e, none)
  | (i, key, v) :: rest, acc, e =>
    match acc.getLast? with
    | some (k0, sum) =>
      if k0 = key then
        let r := addCode et c i 0 sum v
        if t.enabled r.2 then (acc, e, some (i, Fail.arith r.2))
        else dedupRuns t c et rest (acc.dropLast ++ [(k0, r.1)]) (e ||| r.2)
      else dedupRuns t c et rest (acc ++ [(key, v)]) e
    | none => dedupRuns t c et rest [(key, v)] e

/-- vdedup (R247): keys in vd, values in vs1, the number of runs to sd. A read binding on vd names a source (DEDUCED, log entry 98). -/
def execVdedup (d a : BitVec 6) (sd : BitVec 5) (s : State) : Out :=
  let t := s.me
  let et := t.et
  let nib := codeNibbles et
  .next (match t.operand d t.group nib true, t.operand a t.group nib true with
    | some od, some oa =>
      s.wframe
        { srcs := [(d, od), (a, oa)], maskSrcs := [], dst := .reg d od, second := some (a, oa), mask := 0, whole := true, limit := 2 ^ 64,
          run := fun s x _ acts =>
            let r := s.readActs x od acts
            let good := r.1.takeWhile fun e => !s.elemFails x oa e.1
            let bad := match (r.1.drop good.length).head? with
              | some e => some (e.1, Fail.lost 0)
              | none => r.2
            let o := dedupRuns t t.ctl et (good.map fun e => (e.1, e.2, s.elem x oa e.1)) [] 0
            let l := o.1.zipIdx
            { vals := l.map fun e => (e.2, e.1.1), vals2 := l.map fun e => (e.2, e.1.2), tail := l.length, exc := o.2.1
              scalar := some (w64 l.length)
              fail := match o.2.2 with
                | some f => some f
                | none => bad }
          outs := some (fun s x acts =>
            let keys := (s.readActs x od acts).1.map (·.2)
            List.range (1 + (keys.zip (keys.drop 1)).countP fun e => e.1 != e.2))
          fin := fun s v => match v with
            | some v => s.setS sd v
            | none => s } (some 0)
    | _, _ => s.illegal (Enc.vdedup d a sd) .absentRegister)

/-! ## Recurrences (R248) -/

/-- A running recurrence: the values it leaves with the exceptions of each, the last one, all exceptions, failure. `none` from `f` is a
parity failure. -/
def runScan (t : Thread) (f : Nat → Nat → Option (Nat × Exc)) : List Nat → Nat → List (Nat × Nat × Exc) → Exc →
    List (Nat × Nat × Exc) × Nat × Exc × Option (Nat × Fail)
  | [], r, out, e => (out, r, e, none)
  | i :: rest, r, out, e =>
    match f i r with
    | none => (out, r, e, some (i, Fail.lost 0))
    | some v =>
      if t.enabled v.2 then (out, r, e, some (i, Fail.arith v.2)) else runScan t f rest v.1 (out ++ [(i, v)]) (e ||| v.2)

/-- A scan or recurrence over vs1, with the carry in a scalar; under Q = 1 the last value goes to q1. -/
def State.vscanop (s : State) (word : BitVec 32) (d a : BitVec 6) (n : BitVec 5) (q : BitVec 1) (k : BitVec 3) (float readD : Bool)
    (f : (i r x z : Nat) → Nat × Exc) : State :=
  let t := s.me
  let et := t.et
  let nib := codeNibbles et
  match t.operand d t.group nib true, t.operand a t.group nib false with
  | some od, some oa =>
    s.withScalar n q true fun v =>
      let carry := v.toNat % 2 ^ codeBits et
      s.wframe
        { srcs := [(a, oa)], maskSrcs := [], dst := .reg d od, second := none, mask := k, whole := false, limit := 2 ^ 64,
          run := fun s x vl acts =>
            let o := runScan t (fun i r =>
              match s.elem? x oa i, (if readD then s.elem? x od i else some 0) with
              | some e, some z => some (f i r e z)
              | _, _ => none) acts carry [] 0
            { vals := o.1.map fun e => (e.1, e.2.1), vals2 := [], tail := vl, exc := o.2.2.1
              scalar := some (scalarOut float et o.2.1), fail := o.2.2.2, each := o.1.map fun e => (e.1, e.2.2) }
          fin := fun s v => scalarFin 0 q s (if q = 1 then v else none) }
        (some (scalarOut float et carry))
  | _, _ => s.illegal word .absentRegister

def State.viscan (s : State) (o : IOp) (word : BitVec 32) (d a : BitVec 6) (n : BitVec 5) (q : BitVec 1) (k : BitVec 3) : State :=
  let et := s.me.et
  s.vscanop word d a n q k false false fun _ r x _ => (o.run et r x 0, 0)

def execVscanAdd (d a : BitVec 6) (n : BitVec 5) (q : BitVec 1) (k : BitVec 3) (s : State) : Out :=
  .next (s.viscan .add (Enc.vscanAdd d a n q k) d a n q k)
def execVscanMax (d a : BitVec 6) (n : BitVec 5) (q : BitVec 1) (k : BitVec 3) (s : State) : Out :=
  .next (s.viscan .max (Enc.vscanMax d a n q k) d a n q k)
def execVscanMin (d a : BitVec 6) (n : BitVec 5) (q : BitVec 1) (k : BitVec 3) (s : State) : Out :=
  .next (s.viscan .min (Enc.vscanMin d a n q k) d a n q k)
def execVscanFadd (d a : BitVec 6) (n : BitVec 5) (q : BitVec 1) (k : BitVec 3) (s : State) : Out :=
  let c := s.me.ctl
  .next (s.needFloat (Enc.vscanFadd d a n q k) fun f =>
    s.vscanop (Enc.vscanFadd d a n q k) d a n q k true false fun i r x _ => FOp.add.run f c i 0 r x)
/-- vrecur (R248): integer or floating point by the element type. -/
def execVrecur (d a : BitVec 6) (n : BitVec 5) (q : BitVec 1) (k : BitVec 3) (s : State) : Out :=
  let c := s.me.ctl
  let et := s.me.et
  .next (match codeFmt et with
    | some f => s.vscanop (Enc.vrecur d a n q k) d a n q k true true fun i r x z => fmaRun f c i 0 false false x r z
    | none => s.vscanop (Enc.vrecur d a n q k) d a n q k false true fun _ r x z => ((x * r + z) % 2 ^ codeBits et, 0))

/-! ## Moves (R248, R249) -/

def execVmv (d a : BitVec 6) (k : BitVec 3) (s : State) : Out :=
  .next (s.vop (Enc.vmv d a k) d a .none k false fun _ x _ _ => (x, 0))

/-- vbcast: no vector source. -/
def execVbcast (d : BitVec 6) (n : BitVec 5) (q : BitVec 1) (k : BitVec 3) (s : State) : Out :=
  let t := s.me
  .next (match t.operand d t.group (codeNibbles t.et) true with
    | none => s.illegal (Enc.vbcast d n q k) .absentRegister
    | some od =>
      s.withScalar n q false fun v =>
        s.vframe
          { srcs := [], maskSrcs := [], dst := .reg d od, mask := k, neg := false, accs := noAccs,
            comp := fun _ _ _ _ => (some (v.toNat % 2 ^ codeBits t.et), 0)
            hot := 0, noMp := false, accum := false, fin := fun s => s.popQ0 q } noExtra)

/-- The stream element a one-element instruction reads or writes: j, whatever VL is; the position does not move (log entry 82). At or beyond
END there is none (03 R99). -/
def Bind.reaches (b : Bind) (j : Nat) : Bool := decide (b.pos.toNat + j < b.fin.toNat)

/-- Stages the one stream element that vext reads: the state with its window and its exceptions, a failure, or none while it waits. -/
def State.stageOne (s : State) (x : Lanes) (o : Operand) (b : Bind) (j : Nat) : Option (Except Fail (State × Exc)) × State :=
  if !b.reaches j then (some (.error Fail.capacity), s)
  else match translateElems (s.who s.tid) (fun _ => b.readAccs j) [j] s [] [] with
    | (⟨_, some (_, f), _⟩, s) => (some (.error f), s)
    | (⟨_, none, true⟩, s) => (none, s)
    | (⟨placed, none, false⟩, s) =>
      match s.loadElems s.tid placed with
      | (⟨_, some (_, f), _⟩, s) => (some (.error f), s)
      | (⟨data, none, wait⟩, s) =>
        if wait then (none, s)
        else
          let r := b.decode s.me.et s.me.ctl j (mapGet [] data j)
          if s.me.enabled r.2 then (some (.error (Fail.arith r.2)), s)
          else (some (.ok ((s.setElem x o j r.1).countHot (s.who s.tid) b.hotClass placed, r.2)), s)

/-- vext: one element, whatever VL and ES are. -/
def execVext (d : BitVec 5) (a : BitVec 6) (n : BitVec 5) (q : BitVec 1) (s : State) : Out :=
  let t := s.me
  .next (match t.operand a t.group (codeNibbles t.et) false with
    | none => s.illegal (Enc.vext d a n q) .absentRegister
    | some oa =>
      s.withScalar n q true fun j =>
        let x := s.lanesOf s.tid
        let read (s : State) : State :=
          if s.elemFails x oa j.toNat then s.trap cDataLost 0 0
          else (scalarFin d q s (some (scalarOfElem t.et (s.elem x oa j.toNat)))).vdone
        if oa.cap x.count ≤ j.toNat then (scalarFin d q s (some 0)).vdone
        else match t.bound a false with
          | none => read s
          | some b => match s.stageOne x oa b j.toNat with
            | (none, s) => s
            | (some (.error f), s) => s.faultAt f
            | (some (.ok (u, e)), _) => read (u.setMe (u.me.addFlags e)))

/-- Writes the one stream element of vins (R99), as the strip that ends with it (R101): its store, a failure, or none while it waits. -/
def State.writeOne (s : State) (x : Lanes) (o : Operand) (b : Bind) (j v : Nat) : Option (Except Fail State) × State :=
  let t := s.me
  if !b.reaches j || (b.scaled && b.pos.toNat % 32 != 0) || (blockEnd (some b) (j + 1) false).isSome then (some (.error Fail.capacity), s)
  else match translateElems (s.who s.tid) (fun _ => b.writeAccs j) [j] s [] [] with
    | (⟨_, some (_, f), _⟩, s) => (some (.error f), s)
    | (⟨_, none, true⟩, s) => (none, s)
    | (⟨placed, none, false⟩, s) =>
      match s.loadElems s.tid placed with
      | (⟨_, some (_, f), _⟩, s) => (some (.error f), s)
      | (⟨data, none, wait⟩, s) =>
        if wait then (none, s)
        else
          let e : Elem := { i := j, v := some v, exc := 0, placed := mapGet [] placed j, read := mapGet [] data j }
          match encodeFails t (some b) [e] with
          | some (_, f) => (some (.error f), s)
          | none =>
            let sp : VSpec := { srcs := [], maskSrcs := [], dst := .reg b.reg o, mask := 0, neg := false, accs := noAccs,
                                comp := fun _ _ _ _ => (none, 0), hot := 3, noMp := true, accum := false, fin := fun s => s }
            let s := s.setMe (s.me.addFlags (b.out t.bt t.et t.ctl [e] e).2.2)
            (some (.ok ((s.writeStream x sp b (j + 1) [e]).countHot (s.who s.tid) b.hotClass placed)), s)

/-- vins: one element, no tail and no rotation. -/
def execVins (d : BitVec 6) (i n : BitVec 5) (q : BitVec 1) (s : State) : Out :=
  let t := s.me
  .next (match t.operand d t.group (codeNibbles t.et) true with
    | none => s.illegal (Enc.vins d i n q) .absentRegister
    | some od =>
      s.withScalar n q false fun v =>
        let x := s.lanesOf s.tid
        let j := (s.sr i).toNat
        let e := v.toNat % 2 ^ codeBits t.et
        let put (s : State) : State := ((s.setElem x od j e).popQ0 q).vdone
        if od.cap x.count ≤ j then (s.popQ0 q).vdone
        else match t.bound d true with
          | none => put s
          | some b => match s.writeOne x od b j e with
            | (none, s) => s
            | (some (.error f), s) => s.faultAt f
            | (some (.ok u), _) => put u)

/-- vmerge: the mask chooses the source; every element of [ES, VL) is written. -/
def execVmerge (d a b : BitVec 6) (k : BitVec 3) (s : State) : Out :=
  let t := s.me
  let nib := codeNibbles t.et
  .next (match t.operand d t.group nib true, t.operand a t.group nib false, t.operand b t.group nib false with
    | some od, some oa, some ob =>
      s.vframe
        { srcs := [(a, oa), (b, ob)], maskSrcs := [k.toNat], dst := .reg d od, mask := 0, neg := false, accs := noAccs,
          comp := fun s x i _ => (some (if s.maskBit x k.toNat i then s.elem x oa i else s.elem x ob i), 0)
          hot := 0, noMp := true, accum := false, fin := fun s => s } noExtra
    | _, _, _ => s.illegal (Enc.vmerge d a b k) .absentRegister)

end Sys2Proof.Machine
end

