-- ==== Sys2Proof/Machine/VMem.lean ====
section
/-! DEFINITION. Vector loads and stores, gathers, scatters and scatter-add (11 R251 to R257; 04 R126 to R128), two-dimensional tiles
(11 R258 to R260). -/

namespace Sys2Proof.Machine

/-! ## Addresses and elements -/

/-- Bytes of an element of the element type. -/
def Thread.ebytes (t : Thread) : Nat := codeBytes t.et
def Thread.int4 (t : Thread) : Bool := t.et == 7

/-- The bits of an element from the bytes its load returned; a 4-bit element stands in the nibble its index names (R251). -/
def elemBits (int4 : Bool) (i : Nat) (bs : List Byte) : Nat :=
  let v := leNat bs
  if int4 then (if i % 2 = 0 then v % 16 else v / 16 % 16) else v

/-- An address per element, or none where the index that gives it does not read (03 R103). -/
abbrev AddrFn := State → Lanes → Nat → Option Word

def accsOf (addr : AddrFn) (n : Nat) (use : Use) (s : State) (x : Lanes) (i : Nat) : List Acc :=
  match addr s x i with
  | some a => [⟨a, n, n, use⟩]
  | none => []

/-- Unit-stride, strided and indexed addresses (R254, R255). -/
def unitAddr (base : Word) (w : Nat) : AddrFn := fun _ _ i => some (base + w64 (i * w))
def unitAddr4 (base : Word) : AddrFn := fun _ _ i => some (base + w64 (i / 2))
def strideAddr (base stride : Word) : AddrFn := fun _ _ i => some (base + w64 i * stride)
def indexAddr (base : Word) (w : Nat) (oi : Operand) : AddrFn := fun s x i =>
  if s.elemFails x oi i then none else some (base + w64 (s.elem x oi i * w))

/-- The second operand of an address. -/
inductive Where_ where
  | unit | stride (r : BitVec 5) | index (c : BitVec 6)
  deriving DecidableEq, Repr

def Where_.hot : Where_ → Nat
  | .unit => 0
  | .stride _ => 1
  | .index _ => 2

/-- Goes on with the address function and the index source, absent index registers trapping; 4-bit elements only at unit stride. -/
def State.withAddr (s : State) (word : BitVec 32) (n : BitVec 5) (wh : Where_) (k : AddrFn → List (BitVec 6 × Operand) → State) :
    State :=
  let t := s.me
  let w := t.ebytes
  let base := s.sr n
  match wh with
  | .unit => k (if t.int4 then unitAddr4 base else unitAddr base w) []
  | .stride r => if t.int4 then s.illegal word .reservedField else k (strideAddr base (s.sr r)) []
  | .index c =>
    if t.int4 then s.illegal word .reservedField
    else match t.operand c t.group (codeNibbles t.et) false with
      | some oi => k (indexAddr base w oi) [(c, oi)]
      | none => s.illegal word .absentRegister

/-! ## Loads -/

def State.vload (s : State) (word : BitVec 32) (d : BitVec 6) (n : BitVec 5) (wh : Where_) (c : BitVec 1) (k : BitVec 3) : State :=
  let t := s.me
  s.withAddr word n wh fun addr srcs =>
    match t.operand d t.group (codeNibbles t.et) true with
    | none => s.illegal word .absentRegister
    | some od => s.vframe
        { srcs := srcs, maskSrcs := [], dst := .reg d od, mask := k, neg := c == 1, accs := accsOf addr t.ebytes .load, idx := srcs.map (·.1)
          comp := fun _ _ i bs => (some (elemBits t.int4 i (bs.headD [])), 0)
          hot := wh.hot, noMp := false, accum := false, fin := fun s => s } noExtra

def execVld (d : BitVec 6) (n : BitVec 5) (c : BitVec 1) (k : BitVec 3) (s : State) : Out :=
  .next (s.vload (Enc.vld d n c k) d n .unit c k)
def execVlds (d : BitVec 6) (n st : BitVec 5) (c : BitVec 1) (k : BitVec 3) (s : State) : Out :=
  .next (s.vload (Enc.vlds d n st c k) d n (.stride st) c k)
def execVldx (d : BitVec 6) (n : BitVec 5) (i : BitVec 6) (c : BitVec 1) (k : BitVec 3) (s : State) : Out :=
  .next (s.vload (Enc.vldx d n i c k) d n (.index i) c k)

/-- wgather (R257): serves the elements whose index lies in the gather window of the VL it begins with; m0 marks the rest. -/
def execWgather (d : BitVec 6) (n : BitVec 5) (i : BitVec 6) (c : BitVec 1) (k : BitVec 3) (s : State) : Out :=
  let t := s.me
  let w := t.ebytes
  let vl := t.vlen
  let base := s.sr n
  let word := Enc.wgather d n i c k
  .next (
    if t.int4 then s.illegal word .reservedField
    else match t.operand d t.group (codeNibbles t.et) true, t.operand i t.group (codeNibbles t.et) false with
    | some od, some oi =>
      s.vframe
        { srcs := [(i, oi)], maskSrcs := [], dst := .reg d od, mask := k, neg := c == 1, idx := [i]
          accs := fun s x e =>
            let j := s.elem x oi e
            if s.elemFails x oi e || decide (vl ≤ j) then [] else [⟨base + w64 (j * w), w, w, .load⟩]
          comp := fun s x e bs => (if s.elem x oi e < vl then some (leNat (bs.headD [])) else none, 0)
          hot := 2, noMp := false, accum := false, maskOut := true, skips := fun s x e => decide (vl ≤ s.elem x oi e)
          fin := fun s =>
            let x := s.lanesOf s.tid
            if s.me.tp && decide (0 < vl) then
              (List.range (maskCap x.count - s.me.vlen)).foldl (fun (s : State) e => s.setMaskBit x 0 (s.me.vlen + e) false) s
            else s }
        (fun s x stop els =>
          (List.range (stop - t.start)).foldl (fun (s : State) e =>
            let e := t.start + e
            s.setMaskBit x 0 e (els.any fun o => o.i == e && o.v.isNone)) s)
    | _, _ => s.illegal word .absentRegister)

/-! ## Stores -/

/-- An element's own access: the last of its accesses where the destination is no stream. -/
def Elem.own (e : Elem) : Option Placed := e.placed.getLast?

/-- Commits the stores of the elements, one per location (R126, R127, R253). -/
def State.storeElems (s : State) (int4 : Bool) (od : Operand) (x : Lanes) (els : List Elem) : State :=
  let ins := s.wseq
  els.foldl (fun (s : State) e =>
    match e.own with
    | some p => s.storeElem s.tid (x.sliceOf od e.i) ins p int4 (e.i % 2 == 1) ((e.read.getLast?).getD []) (e.v.getD 0)
    | none => s) s

/-- Which of the elements that write one location supplies its value. -/
inductive Dup where
  | highest
  | free
  deriving DecidableEq, Repr

def State.vstore (s : State) (word : BitVec 32) (d : BitVec 6) (n : BitVec 5) (wh : Where_) (c : BitVec 1) (k : BitVec 3) (dup : Dup) :
    State :=
  let t := s.me
  s.withAddr word n wh fun addr srcs =>
    match t.operand d t.group (codeNibbles t.et) false with
    | none => s.illegal word .absentRegister
    | some od => s.vframe
        { srcs := (d, od) :: srcs, maskSrcs := [], dst := .none, mask := k, neg := c == 1, accs := accsOf addr t.ebytes (if t.int4 then .rewrite else .store),
          idx := srcs.map (·.1)
          comp := fun s x i _ => (some (s.elem x od i), 0)
          hot := wh.hot, noMp := false, accum := false, fin := fun s => s }
        (fun s x _ els =>
          if t.int4 then s.storeElems true od x els
          else match dup with
            | .highest => s.storeElems false od x (mergeWrites List.getLast? els)
            | .free =>
              let c0 := s.freeCtr
              let s := { s with freeCtr := s.freeCtr + els.length }
              s.storeElems false od x (mergeWrites (fun same =>
                same[(Config.freeWord (c0 + (els.takeWhile fun e => !same.contains e).length)).toNat % same.length]?) els))

def execVst (d : BitVec 6) (n : BitVec 5) (c : BitVec 1) (k : BitVec 3) (s : State) : Out :=
  .next (s.vstore (Enc.vst d n c k) d n .unit c k .highest)
def execVsts (d : BitVec 6) (n st : BitVec 5) (c : BitVec 1) (k : BitVec 3) (s : State) : Out :=
  .next (s.vstore (Enc.vsts d n st c k) d n (.stride st) c k .highest)
def execVstxO (d : BitVec 6) (n : BitVec 5) (i : BitVec 6) (c : BitVec 1) (k : BitVec 3) (s : State) : Out :=
  .next (s.vstore (Enc.vstxO d n i c k) d n (.index i) c k .highest)
def execVstxU (d : BitVec 6) (n : BitVec 5) (i : BitVec 6) (c : BitVec 1) (k : BitVec 3) (s : State) : Out :=
  .next (s.vstore (Enc.vstxU d n i c k) d n (.index i) c k .free)

/-! ## Scatter-add (R256; 04 R128) -/

/-- Element types vsadd and the near-memory adds of a register group admit. -/
def addType (et : Nat) : Bool := et < 4 || (10 ≤ et && et < 16)

/-- The combined value after adding element i: the sum, in ascending order, of the active elements from ES that name its location (R105),
with the exceptions of the last addition. -/
def State.combine (s : State) (x : Lanes) (et : Nat) (c : Ctl) (od : Operand) (loc : Nat → Option Nat) (act : Nat → Bool) (es i : Nat) :
    Nat × Exc :=
  let mine := ((List.range (i - es)).map (es + ·)).filter fun j => act j && loc j == loc i
  match mine ++ [i] with
  | [] => (0, 0)
  | j0 :: rest => rest.foldl (fun acc j => addCode et c j 0 acc.1 (s.elem x od j)) (s.elem x od j0, 0)

def execVsadd (d : BitVec 6) (n : BitVec 5) (i : BitVec 6) (c : BitVec 1) (k : BitVec 3) (s : State) : Out :=
  let t := s.me
  let word := Enc.vsadd d n i c k
  .next (
    if !addType t.et then s.illegal word .reservedField
    else s.withAddr word n (.index i) fun addr srcs =>
      match t.operand d t.group (codeNibbles t.et) false with
      | none => s.illegal word .absentRegister
      | some od => s.vframe
          { srcs := (d, od) :: srcs, maskSrcs := [], dst := .none, mask := k, neg := c == 1, accs := accsOf addr t.ebytes .scatterAdd, idx := srcs.map (·.1)
            comp := fun s x i _ => (some (s.elem x od i), 0)
            compAt := some fun loc s x e =>
              let r := s.combine x t.et t.ctl od loc (fun j => s.active x k (c == 1) j) t.start e
              (some r.1, r.2)
            hot := 2, noMp := false, accum := false, fin := fun s => s }
          (fun s x _ els =>
            let same (e o : Elem) : Bool := (e.own.map fun p => p.at_.pa) == (o.own.map fun p => p.at_.pa)
            let ins := s.wseq
            (mergeWrites List.head? els).foldl (fun (s : State) e =>
              match e.own, (els.filter fun o => same e o).getLast? with
              | some p, some last =>
                s.commit s.tid (x.sliceOf od e.i) p.acc.va p.at_.pa (.add (BitVec.ofNat 4 t.et) t.fcs e.i (w64 (last.v.getD 0))) false false ins
              | _, _ => s) s))

/-! ## Two-dimensional tiles (R258 to R260) -/

/-- TAL of rows and columns. -/
def talWord (rows cols : Nat) : Word := w64 (cols % 256 * 2 ^ 16 + rows % 128)

/-- The pre-emption mark moves up to a row boundary, row 0 in full (R260). -/
def rowCut (cut cols : Nat) : Nat := if cut = 0 ∨ cols = 0 then 0 else Nat.max cols ((cut + cols - 1) / cols * cols)

/-- Ends a tile transfer whose scan gave an outcome (R259, R260). -/
def State.tileEnd (s : State) (sp : VSpec) (extra : State → Lanes → Nat → List Elem → State) (x : Lanes) (t : Thread) (rows cols : Nat)
    (o : Outcome) : State :=
  let total := rows * cols
  let codes := sp.streamCodes t
  let apply (s : State) : State := s.vapply sp extra x o.stop o.els o.pad
  let finish (s : State) : State :=
    let s := s.putResult x sp.dst sp.noMp t.start o.stop total o.els
    ((s.advanceBinds codes o.stop).setMe (s.advanceBinds codes o.stop).me).vdone
  match o.fail with
  | none => finish ((apply s).setMe { (apply s).me with tal := talWord rows 0 })
  | some f =>
    if t.resume && !trimsAlways f.cause && f.cause != cPreempted then
      if o.els.isEmpty then s.faultAt f else ((apply s).writeDst x sp.dst sp.noMp t.start o.stop o.els).vstop o.stop f
    else if o.stop < cols then s.faultAt f
    else
      let s := apply s
      finish (s.setMe { s.me with tal := talWord (o.stop / cols) (o.stop % cols), tm := w64 (o.stop / cols),
                                  trc := w64 f.cause, tra := f.addr })

/-- A tile transfer: the scan of the frame over min(T, VL, capacity) elements; VL itself never changes. -/
def State.tileXfer (s : State) (sp : VSpec) (extra : State → Lanes → Nat → List Elem → State) (cols : Nat) : State :=
  let t := s.me
  let rows := t.tm.toNat
  let total := rows * cols
  if t.vlen = 0 || total = 0 then s.vdone
  else
    let x := s.lanesOf s.tid
    let sp := { sp with limit := t.vlen }
    let inner := { t with vl := w64 total, cut := rowCut t.cut cols }
    if sp.capacity inner x ≤ t.start then s.trap cCapacity 0 0
    else if sp.misplacedBlock t then s.trap cCapacity 0 0
    else match (s.setMe inner).vscan sp with
      | (none, s') => s'.setMe { s'.me with vl := t.vl, cut := t.cut }
      | (some o, s') => (s'.setMe { s'.me with vl := t.vl, cut := t.cut }).tileEnd sp extra x t rows cols o

/-- Columns of a tile transfer: TK, or TN for the .n forms. -/
def Thread.tileCols (t : Thread) (b : BitVec 1) : Nat := if b = 1 then t.tn.toNat else t.tk.toNat

def tileAddr (base stride : Word) (cols w : Nat) : AddrFn := fun _ _ e =>
  some (base + w64 (e / cols) * stride + w64 (e % cols * w))

def execTload (d : BitVec 6) (n : BitVec 5) (b : BitVec 1) (st : BitVec 5) (c : BitVec 1) (k : BitVec 3) (s : State) : Out :=
  let t := s.me
  let word := Enc.tload d n b st c k
  let cols := t.tileCols b
  .next (
    if t.int4 then s.illegal word .reservedField
    else match t.operand d t.group (codeNibbles t.et) true with
    | none => s.illegal word .absentRegister
    | some od => s.tileXfer
        { srcs := [], maskSrcs := [], dst := .reg d od, mask := k, neg := c == 1,
          accs := accsOf (tileAddr (s.sr n) (s.sr st) cols t.ebytes) t.ebytes .load
          comp := fun _ _ _ bs => (some (leNat (bs.headD [])), 0)
          hot := 1, noMp := false, accum := false, fin := fun s => s } noExtra cols)

def execTstore (d : BitVec 6) (n : BitVec 5) (b : BitVec 1) (st : BitVec 5) (c : BitVec 1) (k : BitVec 3) (s : State) : Out :=
  let t := s.me
  let word := Enc.tstore d n b st c k
  let cols := t.tileCols b
  .next (
    if t.int4 then s.illegal word .reservedField
    else match t.operand d t.group (codeNibbles t.et) false with
    | none => s.illegal word .absentRegister
    | some od => s.tileXfer
        { srcs := [(d, od)], maskSrcs := [], dst := .none, mask := k, neg := c == 1,
          accs := accsOf (tileAddr (s.sr n) (s.sr st) cols t.ebytes) t.ebytes .store
          comp := fun s x i _ => (some (s.elem x od i), 0)
          hot := 1, noMp := false, accum := false, fin := fun s => s }
        (fun s x _ els => s.storeElems false od x (mergeWrites List.getLast? els)) cols)

end Sys2Proof.Machine
end

