-- ==== Sys2Proof/Machine/Streams.lean ====
section
/-! DEFINITION. Binding and unbinding streams (11 R261, R262; 03 R97) and compress-and-append (11 R263, R264). -/

namespace Sys2Proof.Machine

/-! ## Bindings -/

/-- The slot a 64-byte binding record describes, bound to a register and placed at a record address (R97). -/
def Bind.ofRecord (r : List Byte) (at_ : Word) (reg : BitVec 6) : Bind :=
  { base := w64 (recField r 0 8), stride := w64 (recField r 8 8), scale := w64 (recField r 0x10 8), pos := w64 (recField r 0x18 8),
    fin := w64 (recField r 0x20 8), fmt := BitVec.ofNat 4 (recField r 0x28 1), ctl := BitVec.ofNat 8 (recField r 0x29 1),
    recAddr := at_, reg := reg }

/-- The checks of R261 that a record fails. -/
def bindBad (r : List Byte) : Bool :=
  let b := Bind.ofRecord r 0 0
  let f := b.fmt.toNat
  let n := codeBytes f
  decide (16 ≤ recField r 0x28 1) || decide (4 ≤ recField r 0x29 1) || !recZero r 0x2A 22 ||
  (f != 6 && f != 7 && (b.base.toNat % n != 0 || b.stride.toNat % n != 0)) ||
  ((f == 6 || f == 7) && b.stride != 0) ||
  (b.sc && f != 4 && f != 5) ||
  (f != 6 && !b.sc && b.scale != 0) || ((f == 6 || b.sc) && b.scale == 0) ||
  b.fin.ult b.pos

/-- Puts a binding into one of the free slots; which, the spec leaves open, is a free choice (log entry 20). -/
def State.takeSlot (s : State) (b : Bind) : State :=
  let free := (List.range 8).filter fun j => ((s.me.binds[j]?).getD none).isNone
  let c := s.fresh
  let j := (free[(Config.freeWord c.1).toNat % free.length]?).getD 0
  c.2.setMe { c.2.me with binds := c.2.me.binds.setIfInBounds j (some b) }

/-- The record's bytes with the position of the old binding where its write-back falls on the record itself. -/
def overPos (r : List Byte) (old : Option (Bind × Nat)) (pa : Nat) : List Byte :=
  match old with
  | some (b, q) => if q = pa + 0x18 then r.take 0x18 ++ leBytes 8 b.pos.toNat ++ r.drop 0x20 else r
  | none => r

/-- Reads and checks the record, then ends the old binding of the register and binds it. A failure leaves the slots as they were. -/
def State.bindRecord (s : State) (word : BitVec 32) (d : BitVec 6) (va : Word) (old : Option (Nat × Bind × Nat)) : State :=
  State.finish (s.scalarLoad va 64 false) fun bs s =>
    let pa := match (s.translate (s.who s.tid) va.toNat 64 .load).1 with
      | .ok p => p.pa
      | _ => 0
    let r := overPos bs (old.map (·.2)) pa
    if old.isNone && s.me.binds.toList.all (·.isSome) then s.trap cCapacity 0 0
    else if bindBad r then s.illegal word .reservedField
    else
      let b := Bind.ofRecord r va d
      State.afterBinding (match old with
        | some (j, _) => s.endBinding j
        | none => (.ok (), s)) fun s => (s.takeSlot b).retire

/-- vbind (R261). -/
def execVbind (d : BitVec 6) (n : BitVec 5) (s : State) : Out :=
  let word := Enc.vbind d n
  let t := s.me
  let va := s.sr n
  .next (
    if t.nregs ≤ d.toNat then s.illegal word (if d.toNat < 56 then .absentRegister else .reservedField)
    else match t.boundSlot d with
      | none => s.bindRecord word d va none
      | some j =>
        match (t.binds[j]?).getD none with
        | none => s.bindRecord word d va none
        | some b =>
          let at_ := b.recAddr + 0x18
          match s.translate (s.who s.tid) at_.toNat 8 .store with
          | (.fail f, s) => s.faultAt (Fail.ofT f at_ .store)
          | (.wait, s) => s
          | (.ok q, s) => s.bindRecord word d va (some (j, b, q.pa)))

/-- Whether a 6-bit code names no register at all (03 R78, R79). -/
def Thread.absentCode (t : Thread) (d : BitVec 6) : Bool := decide (t.nregs ≤ d.toNat) && decide (d.toNat < 56)

/-- vunbind (R262). -/
def execVunbind (d : BitVec 6) (s : State) : Out :=
  .next (
    if s.me.absentCode d then s.illegal (Enc.vunbind d) .absentRegister
    else match s.me.boundSlot d with
      | none => s.retire
      | some j => State.afterBinding (s.endBinding j) State.retire)

/-- vbpos (R262). -/
def execVbpos (d : BitVec 6) (n : BitVec 5) (s : State) : Out :=
  .next (
    if s.me.absentCode d then s.illegal (Enc.vbpos d n) .absentRegister
    else s.result n (match s.me.boundSlot d with
      | none => BitVec.allOnes 64
      | some j => match (s.me.binds[j]?).getD none with
        | some b => b.pos
        | none => BitVec.allOnes 64))

/-! ## cappend (R263, R264) -/

/-- An append queue as its record describes it. -/
structure AppendQ where
  recPa : Nat
  base : Word
  cap : Nat
  deriving DecidableEq, Repr

/-- What setting up an append gave: the queue, the state of a trap, suspension or wait. -/
inductive AppendR where
  | ok (q : AppendQ) (s : State)
  | done (s : State)

/-- Translates page k of the ring and the pages after it, in order, for writing; the failure of the first that fails, or none when it
waits. -/
def State.ringPages (s : State) (w : Who) (base : Word) : List Nat → Except (Option Fail) Unit × State
  | [] => (.ok (), s)
  | k :: rest =>
    let va := Nat.max base.toNat (base.toNat / 4096 * 4096 + k * 4096) % 2 ^ 64
    match s.translate w va 1 .store with
    | (.ok _, s) => s.ringPages w base rest
    | (.fail f, s) => (.error (some (Fail.ofT f (w64 va) .store)), s)
    | (.wait, s) => (.error none, s)

/-- Step 1: the record, its checks, and the translation of the whole ring. -/
def State.appendSetup (s : State) (word : BitVec 32) (va : Word) (w : Nat) : AppendR :=
  let who := s.who s.tid
  match s.translate who va.toNat 32 .cas with
  | (.fail f, s) => .done (s.faultAt (Fail.ofT f va .cas))
  | (.wait, s) => .done s
  | (.ok p, s) =>
    if !(s.region p.pa).isLocal then .done (s.faultAt (Fail.ofT TFail.permission va .cas))
    else match s.loadLocal s.tid p.pa 16 false with
      | none => .done s
      | some (r, s) =>
        if s.lostIn p.pa 32 then .done (s.faultAt (Fail.lost va))
        else
          let base := w64 (recField r 0 8)
          let cap := recField r 8 4
          if !recZero r 12 4 || cap = 0 || 2 ^ 31 < cap then .done (s.illegal word .reservedField)
          else if base.toNat % w ≠ 0 then .done (s.trap cMisaligned 0 base)
          else
            let n := (base.toNat % 4096 + cap * w + 4095) / 4096
            match s.ringPages who base (List.range n) with
            | (.error (some f), s) => .done (s.faultAt f)
            | (.error none, s) => .done s
            | (.ok _, s) => .ok ⟨p.pa, base, cap⟩ s

/-- Step 2's atomic operation on HEAD and TAIL: the old TAIL and the entries taken; none while it waits. -/
def State.appendReserve (s : State) (q : AppendQ) (n : Nat) : Option (Nat × Nat × State) :=
  match s.drain (s.beforeAtomic (q.recPa + 0x10) 16 0 0) with
  | none => none
  | some s =>
    if s.boardWaits (q.recPa + 0x10) 16 s.wseq then none
    else
      let head := leNat (s.bytes (q.recPa + 0x10) 8)
      let tail := leNat (s.bytes (q.recPa + 0x18) 8)
      let used := (tail + 2 ^ 64 - head) % 2 ^ 64
      let take := Nat.min n (if used < q.cap then q.cap - used else 0)
      some (tail, take, s.putWord (q.recPa + 0x18) (w64 (tail + take)))

/-- Writes entry t0 + rank of each element through its slice; numbers of the writes are returned. -/
def State.appendEntries (s : State) (x : Lanes) (od : Operand) (q : AppendQ) (w t0 : Nat) (els : List Elem) : State :=
  let first := s.wseq
  els.zipIdx.foldl (fun (s : State) e =>
    let va := q.base + w64 ((t0 + e.2) % 2 ^ 64 % q.cap * w)
    match s.translate (s.who s.tid) va.toNat w .store with
    | (.ok p, s) => s.commit s.tid (x.sliceOf od e.1.i) va p.pa (.store (leBytes w (e.1.v.getD 0))) false false first
    | (_, s) => s) s

/-- Steps 2 to 4 over the elements whose reads succeed. From the original state while something must wait. -/
def State.appendTake (s0 s : State) (sp : VSpec) (x : Lanes) (od : Operand) (q : AppendQ) (w : Nat) (o : Outcome) : State :=
  let es := s0.me.start
  let n := o.els.length
  match s.appendReserve q n with
  | none => s0
  | some (t0, take, s) =>
    if take = 0 then s.trap cCapacity 0 0
    else
      let els := o.els.take take
      let o := match o.els[take]? with
        | some e => { o with stop := e.i, fail := some Fail.capacity, els := els }
        | none => o
      let vlmax := s.me.vlmax x.count
      let first := s.wseq
      match (s.appendEntries x od q w t0 els).drain fun p => decide (first ≤ p.seq) with
      | none => s0
      | some s =>
        let codes := sp.streamCodes s.me
        let s := s.vapply sp noExtra x o.stop els
        let s := match o.fail with
          | some f => s.setMe (s.me.noteTrim o.stop f)
          | none => s
        let t1 := (t0 + take) % 2 ^ 64
        let s := if t0 / vlmax < (t0 + take) / vlmax then s.setMe { s.me with q1 := s.me.q1 ++ [w64 t1] } else s
        s.vcomplete sp x es o.stop els codes

def execCappend (d : BitVec 6) (n : BitVec 5) (c : BitVec 1) (k : BitVec 3) (s : State) : Out :=
  let word := Enc.cappend d n c k
  let t := s.me
  .next (
    if t.int4 then s.illegal word .reservedField
    else match t.operand d t.group (codeNibbles t.et) false with
    | none => s.illegal word .absentRegister
    | some od =>
      let sp : VSpec :=
        { srcs := [(d, od)], maskSrcs := [], dst := .none, mask := k, neg := c == 1, accs := noAccs,
          comp := fun s x i _ => (some (s.elem x od i), 0)
          hot := 0, noMp := false, accum := false, fin := fun s => s }
      let x := s.lanesOf s.tid
      let stop := Nat.min t.vlen (sp.capacity t x)
      let readable := ((List.range (stop - t.start)).map (t.start + ·)).takeWhile fun i =>
        k == 0 || !s.maskFails x k.toNat i
      if t.vlen = 0 || !(readable.any fun i => s.active x k (c == 1) i) then s.vframe sp noExtra
      else if !t.q1Room then s
      else match s.appendSetup word (s.sr n) t.ebytes with
        | .done s => s
        | .ok q s1 =>
          match s1.vscan sp with
          | (none, s) => s
          | (some o, s2) =>
            match o.atLead t.start with
            | some f => s2.faultAt f
            | none => State.appendTake s s2 sp x od q t.ebytes o)

end Sys2Proof.Machine
end

