-- ==== Sys2Proof/Machine/Tile.lean ====
section
/-! DEFINITION. Tile mode, the tile shape, the weight buffer, tile operations and vtrans (12 R265 to R289; 07 R181). -/

namespace Sys2Proof.Machine

/-! ## Entering and leaving tile mode (R265, R266) -/

/-- Weight of leave for tile mode in W (20 R418). -/
def tileWeight : Nat := 18

/-- Zeroes y0 and y1 over a thread's lanes. -/
def State.zeroY (s : State) (tid : Nat) : State :=
  let x := s.lanesOf tid
  x.phys.foldl (fun (s : State) pl => s.zeroReg (regKey x.pp (nearOff pl + 0x600)) 512) s

/-- Takes the unit and enters tile mode. -/
def State.enterTile (s : State) (tid : Nat) (discard : Bool) : State :=
  let l := pairOf tid
  let s := s.setPair l { s.pair l with tmu := some tid }
  let s := (s.setTh tid ((s.th tid).setTmd true)).zeroY tid
  if discard then s.zeroTile l else s

/-- tmode. An entry that waits for the unit or for leave has not started: only its request for leave stands. -/
def execTmode (d t : BitVec 1) (s : State) : Out :=
  .next (
    if s.me.tile == (t == 1) then (if d = 1 then s.zeroTile s.myL else s).retire
    else if t = 0 then
      let s := s.leaveTile s.tid
      (if d = 1 then s.zeroTile s.myL else s).retire
    else if s.myPair.tmu.isSome then s
    else if s.me.leave then (s.enterTile s.tid (d == 1)).retire
    else if s.me.leaveAsked then s
    else s.askLeave ⟨s.tid, true, 0, 0, tileWeight, false⟩)

/-! ## The shape (R269) -/

/-- Pass depth and largest N by element type and slice count. -/
def passDepth (et slc : Nat) : Nat :=
  match et with
  | 7 => 64
  | 4 => 32
  | 5 => 32
  | 8 => 32
  | 2 => 16
  | 3 => 16
  | 0 => if 3 ≤ slc then 32 else 1
  | _ => 1
def largestN (et slc : Nat) : Nat := if et = 0 && decide (3 ≤ slc) then 64 else 128

/-- tshape: the registers of M, N and K. -/
def execTshape (k n m : BitVec 5) (s : State) : Out :=
  let t := s.me
  let p := passDepth t.et t.slc
  .next (s.setMe { t with
    tm := w64 (Nat.min (s.sr n).toNat 64)
    tn := w64 (Nat.min (s.sr m).toNat (largestN t.et t.slc))
    tk := w64 (Nat.min (s.sr k).toNat 128 / p * p) }).retire

/-! ## The weight buffer (R270 to R273) -/

def wdK (d : Word) : Nat := bits d 26 16
def wdN (d : Word) : Nat := bits d 15 8
def wdFmt (d : Word) : Nat := bits d 3 0
def wdValid (d : Word) : Bool := d.getLsbD 63
/-- Image size Z. -/
def wdBytes (d : Word) : Nat :=
  if wdFmt d = 6 then 17 * (wdK d / 32) * wdN d else wdK d * wdN d * codeBytes (wdFmt d)
/-- R270's limits on a descriptor. -/
def wdBad (d : Word) : Bool :=
  bits d 63 27 != 0 || bits d 7 4 != 0 || wdK d == 0 || decide (1024 < wdK d) || (wdFmt d == 6 && wdK d % 32 != 0) ||
  wdN d == 0 || decide (128 < wdN d) || !(([0, 2, 3, 4, 5, 6, 8] : List Nat).contains (wdFmt d)) || decide (65536 < wdBytes d)

/-- Sets a slot's descriptor: 0 makes it invalid. -/
def State.setWb (s : State) (l : Nat) (w : BitVec 4) (d : Word) : State :=
  let p := s.pair l
  s.setPair l { p with wb := p.wb.set w.toNat d w.isLt }

/-- Bytes of words that are written, the last in part, no longer fail (03 R103). -/
def State.healReg (s : State) (key n : Nat) : State :=
  { s with regBad := s.regBad.filter fun k => !(decide (key ≤ k) && decide (k < key + n)) }

/-- Places an image in a slot. -/
def State.putImage (s : State) (l : Nat) (w : BitVec 4) (d : Word) (bs : List Byte) : State :=
  let key := regKey (s.physPair l) (weightOff w.toNat)
  ((s.putReg key bs).healReg key ((bs.length + 7) / 8 * 8)).setWb l w (d ||| w64 (2 ^ 63))

def execWbload (w : BitVec 4) (n x : BitVec 5) (s : State) : Out :=
  let word := Enc.wbload w n x
  let d := s.sr x
  let va := s.sr n
  .next (
    if wdBad d then s.illegal word .reservedField
    else if va.toNat % 64 ≠ 0 then s.trap cMisaligned 0 va
    else
      let count := (wdBytes d + 63) / 64
      let who := s.who s.tid
      match translateElems who (fun i => [⟨va + w64 (64 * i), 64, 64, .load⟩]) (List.range count) s [] [] with
      | (⟨_, _, true⟩, s) => s
      | (⟨_, some (_, f), false⟩, s) => s.faultAt f
      | (⟨placed, none, false⟩, s) =>
        -- once a granule is asked for, the instruction runs to completion (step 4)
        match s.loadElems s.tid placed true with
        | (⟨_, _, true⟩, s) => s
        | (⟨_, some (_, f), false⟩, s) =>
          (if f.cause = cDataLost then s.setWb s.myL w 0 else s).faultAt f
        | (⟨data, none, false⟩, s) =>
          let bs := (data.flatMap fun e => e.2.flatMap id).take (wdBytes d)
          ((s.putImage s.myL w d bs).countHot who 0 placed).retire)

def execWbinv (w : BitVec 4) (s : State) : Out := .next (s.setWb s.myL w 0).retire

/-! ## Accumulators (R102, R277) -/

/-- The format of an accumulator element under an element type. -/
def accFmt (et : Nat) : Fmt := if et = 0 then fmt64 else fmt40
def accKey (pp a et i j : Nat) : Nat := regKey pp (accOff a + (if et = 0 then i * 128 + 2 * j else i * 128 + j) * 5)
def accBytes (et : Nat) : Nat := if et = 0 then 8 else 5
def State.accGet (s : State) (pp a et i j : Nat) : Nat := leNat (s.regBytes (accKey pp a et i j) (accBytes et))
def State.accFails (s : State) (pp a et i j : Nat) : Bool := s.regFails (accKey pp a et i j) (accBytes et)
/-- Writes an element; an FP64 element's two following bytes are set to 0. -/
def State.accPut (s : State) (pp a et i j v : Nat) : State :=
  s.putReg (accKey pp a et i j) (leBytes (if et = 0 then 10 else 5) v)
def accCols (et : Nat) : Nat := if et = 0 then 64 else 128

/-! ## Rows (R276) -/

/-- What one row computes: accumulator writes, group elements, scale elements, exceptions, and its cause if it meets one. -/
structure TileRow where
  accs : List (Nat × Nat × Nat)
  /-- group elements with their values and exceptions -/
  els : List (Nat × Nat × Exc)
  scales : List (Nat × Nat)
  exc : Exc
  fail : Option Fail
  deriving DecidableEq, Repr

def TileRow.failed (f : Fail) : TileRow := ⟨[], [], [], 0, some f⟩

/-- Rows in ascending order up to the first that meets a cause. -/
def collectRows (f : Nat → TileRow) : List Nat → List TileRow × Option (Nat × Fail)
  | [] => ([], none)
  | r :: rest =>
    match (f r).fail with
    | some e => ([], some (r, e))
    | none => let y := collectRows f rest; (f r :: y.1, y.2)

/-- Ends a tile operation that works by rows: `apply` commits the first `n` rows. -/
def State.tileRows (s : State) (n : Nat) (fail : Option Fail) (apply : State → State) : State :=
  match fail with
  | none => (apply s).vdone
  | some f =>
    if n = 0 then s.faultAt f
    else
      let s := apply s
      (s.setMe { s.me with tm := w64 n, tal := talWord n 0, trc := w64 f.cause, tra := f.addr }).vdone

/-- The lower of two causes by row; on one row the first, which the pipeline meets ahead of the other. -/
def firstCause (a b : Option (Nat × Fail)) : Option (Nat × Fail) :=
  match a, b with
  | some (r, f), some (q, g) => if q < r then some (q, g) else some (r, f)
  | some x, none => some x
  | none, y => y

/-- What the stream bound to an operand supplied: its lowest failure, each element's exceptions, and its accesses. -/
structure TileIn where
  fail : Option (Nat × Fail)
  excs : List (Nat × Exc)
  placed : List (Nat × List Placed)

/-- Reads the stream bound to an operand over its first n elements into its window (R282). An operation that has asked for elements outside
the module runs to completion (R276). None while it waits. -/
def State.tileStream (s : State) (code : BitVec 6) (o : Operand) (n : Nat) : Option TileIn × State :=
  match s.me.bound code false with
  | none => (some ⟨none, [], []⟩, s)
  | some b =>
    match translateElems (s.who s.tid) (fun i => b.readAccs i) (List.range n) s [] [] with
    | (⟨_, _, true⟩, s) => (none, s)
    | (⟨placed, tf, false⟩, s) =>
      match s.loadElems s.tid placed true with
      | (⟨_, _, true⟩, s) => (none, s)
      | (⟨data, df, false⟩, s) =>
        let st := stageAll s.me (s.lanesOf s.tid) [(code, o, b)] data s []
        let f := match st.2.2 with
          | some f => some f
          | none => match df with
            | some f => some f
            | none => tf
        (some ⟨f, st.2.1.map fun e => (e.1, e.2.1), placed⟩, st.1)

/-- Counts the committed elements of a stream read (02 R67) and moves its position by them. -/
def State.tileRead (s : State) (code : BitVec 6) (y : TileIn) (n : Nat) : State :=
  match s.me.bound code false with
  | none => s
  | some b => (s.countHot (s.who s.tid) b.hotClass (y.placed.filter fun e => decide (e.1 < n))).advanceBinds [code] n

/-- Exceptions of the stream elements of a row. -/
def rowStreamExc (excs : List (Nat × Exc)) (width r : Nat) : Exc :=
  (excs.filter fun (e : Nat × Exc) => e.1 / width == r).foldl (fun (a : Exc) e => a ||| e.2) 0

/-! ## tzero and tscale (R278) -/

def execTzero (d : BitVec 3) (s : State) : Out :=
  .next (s.zeroReg (regKey (s.physPair s.myL) (accOff d.toNat)) 40960).vdone

/-- Values of a whole accumulator times a factor, with the exceptions of the lowest element that raises an enabled one. -/
def execTscale (d : BitVec 3) (n : BitVec 5) (s : State) : Out :=
  let t := s.me
  let et := t.et
  let pp := s.physPair s.myL
  let a := d.toNat
  let f := accFmt et
  let c := t.ctl
  let factor := if et = 0 then fmt64.operand c.fz (s.sr n).toNat else fmt32.operand c.fz ((s.sr n).toNat % 2 ^ 32)
  let cells := (List.range 64).flatMap fun i => (List.range (accCols et)).map fun j => (i, j)
  .next (
    if cells.any fun p => s.accFails pp a et p.1 p.2 then s.faultAt (Fail.lost 0)
    else
      let res := cells.map fun p => (p, roundTo f c.nearest 0 0 ((f.operand c.fz (s.accGet pp a et p.1 p.2)).mul factor))
      match res.find? fun r => t.enabled r.2.2 with
      | some r => s.faultAt (Fail.arith r.2.2)
      | none =>
        let s := res.foldl (fun (s : State) r => s.accPut pp a et r.1.1 r.1.2 r.2.1) s
        (s.setMe (s.me.addFlags (res.foldl (fun (x : Exc) r => x ||| r.2.2) 0))).vdone)

/-! ## Matrix multiply-accumulate (R279 to R283) -/

/-- Slot formats a tmma accepts for an element type. -/
def slotFmts (et slc : Nat) : List Nat :=
  match et with
  | 7 => [6]
  | 4 => [4, 5, 6]
  | 5 => [4, 5, 6]
  | 8 => [8]
  | 2 => [2, 3, 4, 5, 6]
  | 3 => [2, 3, 4, 5, 6]
  | 0 => if 3 ≤ slc then [0] else []
  | _ => []

/-- A B4 code's value under its scale byte (07 R168). -/
def b4Scaled (scale code : Nat) : Val := (b4Val (scale / 64) code).scale ((scale % 64 : Int) - 32)

/-- First byte and length of what element (k, j) of a slot reads: its code and, for B4, its scale byte (R271). -/
def weightPlaces (d : Word) (k j : Nat) : List (Nat × Nat) :=
  let n := wdN d
  if wdFmt d = 6 then
    [(16 * (k / 32 * n + j) + k % 32 / 2, 1), (16 * (wdK d / 32) * n + k / 32 * n + j, 1)]
  else
    let w := codeBytes (wdFmt d)
    [((k * n + j) * w, w)]

/-- Whether a slot element's words have an uncorrectable error (03 R103). -/
def State.weightFails (s : State) (key : Nat) (d : Word) (k j : Nat) : Bool :=
  (weightPlaces d k j).any fun p => s.regFails (key + p.1 / 8 * 8) ((p.1 + p.2 + 7) / 8 * 8 - p.1 / 8 * 8)

/-- Element (k, j) of a slot as the multiplier takes it, with the decompressor's exceptions (R279). -/
def State.weight (s : State) (key : Nat) (d : Word) (et : Nat) (c : Ctl) (k j : Nat) : Val × Exc :=
  let read (p : Nat × Nat) : Nat := leNat (s.regBytes (key + p.1) p.2)
  let f := wdFmt d
  match weightPlaces d k j with
  | [p, q] =>
    let code := read p
    let v := b4Scaled (read q) (if k % 2 = 0 then code % 16 else code / 16 % 16)
    if et = 7 then (v, 0)
    else
      let r := convVal et c (k * wdN d + j) 0 v
      (codeVal et c.fz r.1, r.2)
  | [p] =>
    if f = et then (codeVal et c.fz (read p), 0)
    else
      let r := convCode f et c (k * wdN d + j) 0 (read p)
      (codeVal et c.fz r.1, r.2)
  | _ => (.zero false, 0)

/-- Exact sum of products (07 R181). A zero sum is -0 where every product is -0, and else +0 (DEDUCED, log entry 104). -/
def exactSum (as bs : List Val) : Val :=
  match List.zipWith Val.mul as bs with
  | [] => .zero false
  | v :: rest => rest.foldl (Val.add 0) v

/-- floor (log2 |v|) of a non-zero finite value. -/
def vlog2 : Val → Option Int
  | .num _ m e _ => if m = 0 then none else some (e + Nat.log2 m)
  | _ => none
def maxLog (vs : List Val) : Option Int :=
  vs.foldl (fun acc v => match acc, vlog2 v with
    | some a, some b => some (if a < b then b else a)
    | none, b => b
    | a, none => a) none

/-- Slice t of s of a value under a chunk exponent (R283 step 2). -/
def sliceDigit (sl t : Nat) (ex : Int) (v : Val) : Int :=
  match v with
  | .num neg m e _ =>
    let k : Int := e + 7 * sl - 1 - ex
    let q := if 0 ≤ k then m * 2 ^ k.toNat else m / 2 ^ (-k).toNat
    let d := q / 128 ^ (sl - 1 - t) % 128
    if neg then -(d : Int) else d
  | _ => 0

/-- The split-precision chunk sum (R283). -/
def splitSum (sl : Nat) (as bs : List Val) : Val :=
  if (as ++ bs).any fun v => v.isNan || v.isInf then exactSum as bs
  else match maxLog as, maxLog bs with
    | some ea, some eb =>
      let pairs := (List.range sl).flatMap fun t => (List.range (sl - t)).map fun u => (t, u)
      let dot (t u : Nat) : Int := (List.zipWith (fun a b => sliceDigit sl t ea a * sliceDigit sl u eb b) as bs).foldl (· + ·) 0
      let m : Int := pairs.foldl (fun acc p => acc + dot p.1 p.2 * 2 ^ (7 * (2 * sl - 2 - p.1 - p.2))) 0
      .num (decide (m < 0)) m.natAbs (ea + eb + 2 - 14 * sl) false
    | _, _ => .zero false

/-- One addition in the accumulator's format, rounding to nearest even. -/
def accAdd (f : Fmt) (c : Ctl) (a b : Nat × Exc) : Nat × Exc :=
  let r := roundTo f c.nearest 0 0 ((f.operand c.fz a.1).add 0 (f.operand c.fz b.1))
  (r.1, a.2 ||| b.2 ||| r.2)

/-- Chunk results added into an accumulator element in the order of tmma.o, or in the two halves of tmma.f (R281). -/
def accChunks (f : Fmt) (c : Ctl) (halves : Bool) (acc : Nat) (cs : List (Nat × Exc)) : Nat × Exc :=
  if halves then
    let r := cs.zipIdx.foldl (fun (h : (Nat × Exc) × (Nat × Exc)) x =>
      if x.2 % 2 = 0 then (accAdd f c h.1 x.1, h.2) else (h.1, accAdd f c h.2 x.1)) ((acc, 0), (f.signBit, 0))
    accAdd f c r.1 r.2
  else cs.foldl (accAdd f c) (acc, 0)

/-- What a tmma works on. -/
structure Mma where
  a : Nat
  od : Operand
  /-- the register of A's scale bytes under INT4 -/
  osc : Option Operand
  /-- storage key and descriptor of the slot -/
  key : Nat
  d : Word
  k0 : Nat
  row0 : Nat
  halves : Bool
  deriving DecidableEq, Repr

/-- A's element (i, k): its value, and whether its storage fails its parity. -/
def State.mmaA (s : State) (x : Lanes) (m : Mma) (et tk : Nat) (c : Ctl) (i k : Nat) : Val × Bool :=
  let e := i * tk + k
  match m.osc with
  | some o =>
    let j := i * (tk / 32) + k / 32
    (b4Scaled (s.elem x o j) (s.elem x m.od e), s.elemFails x m.od e || s.elemFails x o j)
  | none => (codeVal et c.fz (s.elem x m.od e), s.elemFails x m.od e)

/-- Row i of a tmma (R281). -/
def State.mmaRow (s : State) (x : Lanes) (t : Thread) (m : Mma) (excs : List (Nat × Exc)) (i : Nat) : TileRow :=
  let et := t.et
  let c := t.ctl
  let tn := t.tn.toNat
  let tk := t.tk.toNat
  let p := passDepth et t.slc
  let f := accFmt et
  let av := (List.range tk).map fun k => s.mmaA x m et tk c i k
  let cols := List.range tn
  if av.any (·.2) || cols.any (fun j => s.accFails x.pp m.a et (m.row0 + i) j) ||
      (cols.any fun j => (List.range tk).any fun k => s.weightFails m.key m.d (m.k0 + k) j) then TileRow.failed (Fail.lost 0)
  else
    let cell (j : Nat) : Nat × Exc :=
      let bv := (List.range tk).map fun k => (s.weight m.key m.d et c (m.k0 + k) j).1
      let chunks := (List.range (tk / p)).map fun q =>
        let as := ((av.map (·.1)).drop (q * p)).take p
        let bs := (bv.drop (q * p)).take p
        roundTo f c.nearest 0 0 (if et = 0 then splitSum t.slc as bs else exactSum as bs)
      accChunks f c m.halves (s.accGet x.pp m.a et (m.row0 + i) j) chunks
    let res := cols.map fun j => (j, cell j)
    match res.find? fun r => t.enabled r.2.2 with
    | some r => TileRow.failed (Fail.arith r.2.2)
    | none =>
      ⟨res.map fun r => (m.row0 + i, r.1, r.2.1), [], [],
        res.foldl (fun (e : Exc) r => e ||| r.2.2) (rowStreamExc excs tk i), none⟩

/-- The decompressor's exceptions over the part of the slot a tmma reads. -/
def State.weightExc (s : State) (t : Thread) (m : Mma) : Exc :=
  ((List.range t.tk.toNat).flatMap fun k => (List.range t.tn.toNat).map fun j => (m.k0 + k, j)).foldl
    (fun (e : Exc) p => e ||| (s.weight m.key m.d t.et t.ctl p.1 p.2).2) 0

/-- The cause of an operand that ends after `cap` elements, at its row. -/
def capCause (cap total width : Nat) : Option (Nat × Fail) := if cap < total then some (cap / width, Fail.capacity) else none

/-- Runs a tmma whose operands are good. -/
def State.mma (s : State) (v : BitVec 6) (m : Mma) : State :=
  let t := s.me
  let x := s.lanesOf s.tid
  let tm := t.tm.toNat
  let tk := t.tk.toNat
  let total := tm * tk
  let left := match t.bound v false with
    | some b => b.left
    | none => total
  let ahead := capCause (Nat.min (m.od.cap x.count) left) total tk
  let ahead := match m.osc with
    | some o => firstCause ahead (capCause (o.cap x.count) (tm * (tk / 32)) (tk / 32))
    | none => ahead
  match s.tileStream v m.od (Nat.min total (Nat.min (m.od.cap x.count) left)) with
  | (none, s) => s
  | (some y, s) =>
    let ahead := firstCause (y.fail.map fun f => (f.1 / tk, f.2)) ahead
    let rows := collectRows (fun i => s.mmaRow x t m y.excs i) (List.range ((ahead.map (·.1)).getD tm))
    let n := rows.1.length
    let fail := match rows.2 with
      | some f => some f.2
      | none => ahead.map (·.2)
    let flags := rows.1.foldl (fun (e : Exc) (r : TileRow) => e ||| r.exc) (s.weightExc t m)
    s.tileRows n fail fun s =>
      let s := s.setMe (s.me.addFlags flags)
      let s := rows.1.foldl (fun (s : State) r => r.accs.foldl (fun (s : State) w => s.accPut x.pp m.a t.et w.1 w.2.1 w.2.2) s) s
      s.tileRead v y (n * tk)

/-- The register after a group that holds its scale bytes (R280, R286). -/
def Thread.scaleReg (t : Thread) (v : BitVec 6) : Option Operand :=
  let c := v.toNat + t.group
  if c < t.nregs then some ⟨[t.mainReg c], 2⟩ else none

/-- tmma.o and tmma.f: the checks of R279 before anything is read. -/
def State.tmma (s : State) (word : BitVec 32) (halves : Bool) (d : BitVec 3) (v : BitVec 6) (w : BitVec 4) (n : BitVec 5) : State :=
  let t := s.me
  let et := t.et
  let o := s.sr n
  let k0 := bits o 10 0
  let row0 := bits o 21 16
  let desc := s.myPair.wb[w.toNat]'w.isLt
  let tm := t.tm.toNat
  let tn := t.tn.toNat
  let tk := t.tk.toNat
  let p := passDepth et t.slc
  if o &&& ~~~0x3F07FF != 0 || !(slotFmts et t.slc).contains (wdFmt desc) || !wdValid desc || tk % p ≠ 0 || k0 % p ≠ 0 ||
      wdK desc < k0 + tk || wdN desc < tn || 64 < row0 + tm || (et = 0 && 64 < tn) then s.illegal word .reservedField
  else match t.operand v t.group (codeNibbles et) false with
    | none => s.illegal word .absentRegister
    | some od =>
      let go (osc : Option Operand) : State :=
        if tm = 0 || tn = 0 || tk = 0 then s.vdone
        else s.mma v ⟨d.toNat, od, osc, regKey (s.physPair s.myL) (weightOff w.toNat), desc, k0, row0, halves⟩
      if et = 7 then
        match t.scaleReg v with
        | some o => go (some o)
        | none => s.illegal word .absentRegister
      else go none

def execTmmaO (d : BitVec 3) (v : BitVec 6) (w : BitVec 4) (n : BitVec 5) (s : State) : Out :=
  .next (s.tmma (Enc.tmmaO d v w n) false d v w n)
def execTmmaF (d : BitVec 3) (v : BitVec 6) (w : BitVec 4) (n : BitVec 5) (s : State) : Out :=
  .next (s.tmma (Enc.tmmaF d v w n) true d v w n)

/-! ## Moves between accumulators and registers (R284, R285) -/

/-- A move: its accumulator, the vector operand, rows of a width, and the accumulator place of element c of row r. -/
structure TMove where
  a : Nat
  code : BitVec 6
  od : Operand
  rows : Nat
  width : Nat
  place : Nat → Nat → Nat × Nat

/-- An accumulator element converted to an element type (R284). -/
def accToElem (et : Nat) (c : Ctl) (e x : Nat) : Nat × Exc :=
  if et = 0 then convCode 0 0 c e 0 x else convVal et c e 0 (fmt40.operand c.fz x)
/-- A group element taken into an accumulator: exactly under FP64, else rounded to nearest even. -/
def elemToAcc (et : Nat) (c : Ctl) (v : Nat) : Nat × Exc :=
  if et = 0 then (v, 0) else convFloat fmt40 c.nearest 0 0 false (codeVal et c.fz v)

/-- Row r of a move out of an accumulator. -/
def State.outRow (s : State) (x : Lanes) (t : Thread) (m : TMove) (r : Nat) : TileRow :=
  let et := t.et
  let cells := (List.range m.width).map fun c => (r * m.width + c, m.place r c)
  if cells.any fun p => s.accFails x.pp m.a et p.2.1 p.2.2 then TileRow.failed (Fail.lost 0)
  else
    let res := cells.map fun p => (p.1, accToElem et t.ctl p.1 (s.accGet x.pp m.a et p.2.1 p.2.2))
    match res.find? fun e => t.enabled e.2.2 with
    | some e => TileRow.failed (Fail.arith e.2.2)
    | none => ⟨[], res, [], res.foldl (fun (a : Exc) e => a ||| e.2.2) 0, none⟩

/-- Row r of a move into an accumulator. -/
def State.inRow (s : State) (x : Lanes) (t : Thread) (m : TMove) (excs : List (Nat × Exc)) (r : Nat) : TileRow :=
  let cells := (List.range m.width).map fun c => (r * m.width + c, m.place r c)
  if cells.any fun p => s.elemFails x m.od p.1 then TileRow.failed (Fail.lost 0)
  else
    let res := cells.map fun p => (p, elemToAcc t.et t.ctl (s.elem x m.od p.1))
    match res.find? fun e => t.enabled e.2.2 with
    | some e => TileRow.failed (Fail.arith (e.2.2 ||| mapGet 0 excs e.1.1))
    | none => ⟨res.map fun e => (e.1.2.1, e.1.2.2, e.2.1), [], [],
        res.foldl (fun (a : Exc) e => a ||| e.2.2) (rowStreamExc excs m.width r), none⟩

/-- Rows below `n` whose end keeps a scaled write stream's blocks whole (03 R101). -/
def blockRows (b : Option Bind) (n width : Nat) : Nat :=
  match b with
  | none => n
  | some b =>
    if !b.scaled || b.fin.toNat ≤ b.pos.toNat + n * width then n
    else (((List.range (n + 1)).reverse).find? fun k => (b.pos.toNat + k * width) % 32 == 0).getD 0

/-- Writes out the rows of a move out of an accumulator: window, scale register, stream and the tails of both registers (R284, R286, R289). -/
def State.outCommit (s : State) (x : Lanes) (t : Thread) (code : BitVec 6) (od : Operand) (osc : Option Operand) (total scales : Nat)
    (rows : List TileRow) (els : List Elem) (flags : Exc) : State :=
  let s := s.setMe (s.me.addFlags flags)
  let s := els.foldl (fun (s : State) e => s.setElem x od e.i (e.v.getD 0)) s
  let s := match osc with
    | some o => rows.foldl (fun (s : State) (r : TileRow) => r.scales.foldl (fun (s : State) (e : Nat × Nat) => s.setElem x o e.1 e.2) s) s
    | none => s
  let sp : VSpec := { srcs := [], maskSrcs := [], dst := .reg code od, mask := 0, neg := false, accs := noAccs,
                      comp := fun _ _ _ _ => (none, 0), hot := 0, noMp := true, accum := false, fin := fun s => s }
  let s := match t.bound code true with
    | some b => (s.writeStream x sp b els.length els).countParts sp t els
    | none => s
  let s := s.writeTail x (.reg code od) total
  let s := match osc with
    | some o => s.writeTail x (.reg code o) scales
    | none => s
  s.advanceBinds (if (t.bound code true).isSome then [code] else []) els.length

/-- The element of index `i` in a list of computed rows. -/
def rowElems (rows : List TileRow) (placed : List (Nat × List Placed)) (data : List (Nat × List (List Byte))) : List Elem :=
  rows.flatMap fun r => r.els.map fun e =>
    { i := e.1, v := some e.2.1, exc := e.2.2, placed := mapGet [] placed e.1, read := mapGet [] data e.1 }

/-- Runs a move out of an accumulator over `rows` of `width`, `row` computing each: capacity and END, the stream's accesses, the rows,
the stream's encodings, then what commits. -/
def State.moveOut (s : State) (code : BitVec 6) (od : Operand) (osc : Option Operand) (rows width scw : Nat) (row : Nat → TileRow) : State :=
  let t := s.me
  let x := s.lanesOf s.tid
  let total := rows * width
  let wb := t.bound code true
  let left := match wb with
    | some b => b.left
    | none => total
  let ahead := capCause (Nat.min (od.cap x.count) left) total width
  let ahead := match osc with
    | some o => firstCause ahead (capCause (o.cap x.count) (rows * scw) scw)
    | none => ahead
  let ahead := match wb with
    | some b => if b.scaled && b.pos.toNat % 32 != 0 then some (0, Fail.capacity) else ahead
    | none => ahead
  let r0 := (ahead.map (·.1)).getD rows
  let tr : Scan (List Placed) × State := match wb with
    | some b => translateElems (s.who s.tid) (fun i => b.writeAccs i) (List.range (r0 * width)) s [] []
    | none => (⟨[], none, false⟩, s)
  if tr.1.wait then tr.2
  else match tr.2.loadElems s.tid tr.1.got true with
  | (⟨_, _, true⟩, s) => s
  | (⟨data, df, false⟩, s) =>
    let ahead := firstCause (df.map fun f => (f.1 / width, f.2)) (firstCause (tr.1.fail.map fun f => (f.1 / width, f.2)) ahead)
    let got := collectRows row (List.range ((ahead.map (·.1)).getD rows))
    let fail := match got.2 with
      | some f => some f
      | none => ahead
    let els := rowElems got.1 tr.1.got data
    let fail := firstCause ((encodeFails t wb els).map fun f => (f.1 / width, f.2)) fail
    let n := (fail.map (·.1)).getD rows
    let k := blockRows wb n width
    let fail := if k < n then some (k, Fail.capacity) else fail
    let done := got.1.take k
    let kept := els.filter fun e => decide (e.i < k * width)
    let flags := (match wb with
      | some b => kept.foldl (fun (a : Exc) (e : Elem) => a ||| (b.out t.bt t.et t.ctl kept e).2.2) 0
      | none => 0) ||| done.foldl (fun (a : Exc) (r : TileRow) => a ||| r.exc) 0
    s.tileRows k (fail.map (·.2)) fun s => s.outCommit x t code od osc total (rows * scw) done kept flags

/-- Runs a move into an accumulator. -/
def State.moveIn (s : State) (m : TMove) : State :=
  let t := s.me
  let x := s.lanesOf s.tid
  let total := m.rows * m.width
  let left := match t.bound m.code false with
    | some b => b.left
    | none => total
  let cap := Nat.min (m.od.cap x.count) left
  let ahead := capCause cap total m.width
  match s.tileStream m.code m.od (Nat.min total cap) with
  | (none, s) => s
  | (some y, s) =>
    let ahead := firstCause (y.fail.map fun f => (f.1 / m.width, f.2)) ahead
    let got := collectRows (fun r => s.inRow x t m y.excs r) (List.range ((ahead.map (·.1)).getD m.rows))
    let fail := match got.2 with
      | some f => some f
      | none => ahead
    let n := got.1.length
    s.tileRows n (fail.map (·.2)) fun s =>
      let s := s.setMe (s.me.addFlags (got.1.foldl (fun (a : Exc) (r : TileRow) => a ||| r.exc) 0))
      let s := got.1.foldl (fun (s : State) r => r.accs.foldl (fun (s : State) w => s.accPut x.pp m.a t.et w.1 w.2.1 w.2.2) s) s
      s.tileRead m.code y (n * m.width)

/-- An origin register of tmova, tmovv and tcvt: bits 63:6 zero and origin + TM at most 64 (R274). -/
def State.badOrigin (s : State) (n : BitVec 5) : Bool := decide (64 ≤ (s.sr n).toNat) || decide (64 < (s.sr n).toNat + s.me.tm.toNat)

/-- The TM × TN block of tmova and tmovv. -/
def State.blockMove (s : State) (word : BitVec 32) (d : BitVec 3) (v : BitVec 6) (n : BitVec 5) (out : Bool) : State :=
  let t := s.me
  let tn := t.tn.toNat
  let row0 := (s.sr n).toNat
  if s.badOrigin n || t.int4 || (t.et = 0 && 64 < tn) then s.illegal word .reservedField
  else match t.operand v t.group (codeNibbles t.et) out with
    | none => s.illegal word .absentRegister
    | some od =>
      let m : TMove := ⟨d.toNat, v, od, t.tm.toNat, tn, fun r c => (row0 + r, c)⟩
      if t.tm = 0 || t.tn = 0 then s.vdone
      else if out then s.moveOut v od none m.rows m.width 1 fun r => s.outRow (s.lanesOf s.tid) t m r
      else s.moveIn m

def execTmova (d : BitVec 3) (v : BitVec 6) (n : BitVec 5) (s : State) : Out := .next (s.blockMove (Enc.tmova d v n) d v n true)
def execTmovv (d : BitVec 3) (v : BitVec 6) (n : BitVec 5) (s : State) : Out := .next (s.blockMove (Enc.tmovv d v n) d v n false)

/-- One column or one row: the operand is a single register, and an index out of range or a short register moves nothing. -/
def State.lineMove (s : State) (word : BitVec 32) (d : BitVec 3) (v : BitVec 6) (n : BitVec 5) (col out : Bool) : State :=
  let t := s.me
  let ix := (s.sr n).toNat
  let len := if col then t.tm.toNat else t.tn.toNat
  if !col && t.et = 0 && 64 < len then s.illegal word .reservedField
  else match t.operand v 1 (codeNibbles t.et) out with
    | none => s.illegal word .absentRegister
    | some od =>
      let m : TMove := ⟨d.toNat, v, od, 1, len, fun _ c => if col then (c, ix) else (ix, c)⟩
      if len = 0 then s.vdone
      else if (if col then accCols t.et else 64) ≤ ix then s.trap cCapacity 0 0
      else if out then s.moveOut v od none 1 len 1 fun r => s.outRow (s.lanesOf s.tid) t m r
      else s.moveIn m

def execTcolmvOut (d : BitVec 3) (v : BitVec 6) (n : BitVec 5) (s : State) : Out :=
  .next (s.lineMove (Enc.tcolmvOut d v n) d v n true true)
def execTcolmvIn (d : BitVec 3) (v : BitVec 6) (n : BitVec 5) (s : State) : Out :=
  .next (s.lineMove (Enc.tcolmvIn d v n) d v n true false)
def execTrowmvOut (d : BitVec 3) (v : BitVec 6) (n : BitVec 5) (s : State) : Out :=
  .next (s.lineMove (Enc.trowmvOut d v n) d v n false true)
def execTrowmvIn (d : BitVec 3) (v : BitVec 6) (n : BitVec 5) (s : State) : Out :=
  .next (s.lineMove (Enc.trowmvIn d v n) d v n false false)

/-! ## Conversion to B4 (R286, R287) -/

/-- Row i of a tcvt: the codes and scale bytes of its blocks of 32 columns. -/
def State.cvtRow (s : State) (x : Lanes) (t : Thread) (a row0 tn i : Nat) : TileRow :=
  let c := t.ctl
  if (List.range tn).any fun j => s.accFails x.pp a 7 (row0 + i) j then TileRow.failed (Fail.lost 0)
  else
    let blocks := (List.range (tn / 32)).map fun b =>
      let vals := (List.range 32).map fun j => fmt40.operand c.fz (s.accGet x.pp a 7 (row0 + i) (32 * b + j))
      let ex := blockExp (scaleMax true t.bt false) vals
      (b, ex, vals.zipIdx.map fun v =>
        let e := i * tn + 32 * b + v.2
        (e, convB4 t.bt ex c (e % 2 ^ 32) 0 v.1))
    let codes := blocks.flatMap fun b => b.2.2
    match codes.find? fun e => t.enabled e.2.2 with
    | some e => TileRow.failed (Fail.arith e.2.2)
    | none => ⟨[], codes, blocks.map fun b => (i * (tn / 32) + b.1, t.bt * 64 + b.2.1),
        codes.foldl (fun (z : Exc) e => z ||| e.2.2) 0, none⟩

def execTcvt (d : BitVec 3) (v : BitVec 6) (n : BitVec 5) (s : State) : Out :=
  let t := s.me
  let word := Enc.tcvt d v n
  let tn := t.tn.toNat
  let row0 := (s.sr n).toNat
  .next (
    if s.badOrigin n || !t.int4 || tn % 32 ≠ 0 then s.illegal word .reservedField
    else match t.operand v t.group 1 true, t.scaleReg v with
      | some od, some osc =>
        if t.tm = 0 || t.tn = 0 then s.vdone
        else s.moveOut v od (some osc) t.tm.toNat tn (tn / 32) fun i => s.cvtRow (s.lanesOf s.tid) t d.toNat row0 tn i
      | _, _ => s.illegal word .absentRegister)

/-! ## vtrans (R288) -/

/-- The eight registers from a code, as single registers. -/
def Thread.eight (t : Thread) (d : BitVec 6) : Option (List Operand) :=
  if d.toNat % 8 = 0 && d.toNat + 7 < t.nregs then some ((List.range 8).map fun r => ⟨[t.mainReg (d.toNat + r)], codeNibbles t.et⟩)
  else none

/-- The entries (r, c) of block b that a length reads: all 64, or the leading square of a final partial block. -/
def transSide (v b : Nat) : Nat := if 8 * b + 8 ≤ v then 8 else v % 8

/-- Writes block b of eight registers as the transposed block of `s0`, within its leading square (R288); every entry is read first (03 R87). -/
def State.transBlock (s s0 : State) (x : Lanes) (os : List Operand) (b side : Nat) : State :=
  let o (r : Nat) : Operand := (os[r]?).getD ⟨[], 2⟩
  ((List.range side).flatMap fun r => (List.range side).map fun c => (r, c)).foldl (fun (s : State) p =>
    if p.1 = p.2 then s else s.setElem x (o p.1) (8 * b + p.2) (s0.elem x (o p.2) (8 * b + p.1))) s

/-- Entry c of the first register after the transposition of a length. -/
def State.transFirst (s : State) (x : Lanes) (os : List Operand) (v i : Nat) : Nat :=
  let o (r : Nat) : Operand := (os[r]?).getD ⟨[], 2⟩
  if i % 8 < transSide v (i / 8) then s.elem x (o (i % 8)) (i / 8 * 8) else s.elem x (o 0) i

/-- vtrans (R288). Its registers are destinations that are read first, like an accumulating vd: a read binding acts on the window alone, a
write binding on vd takes the elements of the first register (log entry 82). -/
def execVtrans (d : BitVec 6) (s : State) : Out :=
  let t := s.me
  let x := s.lanesOf s.tid
  .next (
    if d.toNat % 8 ≠ 0 then s.illegal (Enc.vtrans d) .reservedField
    else match t.eight d with
    | none => s.illegal (Enc.vtrans d) .absentRegister
    | some os =>
      s.wframe
        { srcs := [], maskSrcs := [], dst := .reg d ((os[0]?).getD ⟨[], 2⟩), second := none, mask := 0, whole := true, limit := 2 ^ 64,
          also := os, own := true, unit := 8
          run := fun s x vl _ =>
            let bad := (List.range ((vl + 7) / 8)).find? fun b =>
              os.zipIdx.any fun o => decide (o.2 < transSide vl b) &&
                (List.range (transSide vl b)).any fun c => s.elemFails x o.1 (8 * b + c)
            { vals := (List.range vl).map fun i => (i, s.transFirst x os vl i)
              vals2 := [], tail := vl, exc := 0, scalar := none, fail := bad.map fun b => (8 * b, Fail.lost 0) }
          fin := fun u _ =>
            (List.range ((u.me.vlen + 7) / 8)).foldl (fun (y : State) b => y.transBlock s x os b (transSide u.me.vlen b)) u } none)

end Sys2Proof.Machine
end

