-- ==== Sys2Proof/Machine/Sparse.lean ====
section
/-! DEFINITION. Sparse vector registers and compaction (13 R290 to R298; 03 R86). -/

namespace Sys2Proof.Machine

/-! ## Sparse registers -/

/-- A sparse register: its number and the operands that hold coordinates and values. -/
structure Sparse where
  j : BitVec 3
  co : Operand
  va : Operand
  deriving DecidableEq, Repr

/-- The register a code names; none when absent (R86). -/
def Thread.sparse (t : Thread) (j : BitVec 3) : Option Sparse :=
  if t.nregs ≤ 2 * j.toNat + 1 then none
  else some ⟨j, ⟨[t.mainReg (2 * j.toNat)], 8⟩, ⟨[t.mainReg (2 * j.toNat + 1)], codeNibbles t.et⟩⟩

def Sparse.cap (c : Sparse) (lanes : Nat) : Nat := Nat.min (c.co.cap lanes) (c.va.cap lanes)
/-- CL_j. -/
def Thread.slen (t : Thread) (j : BitVec 3) : Nat := bits (t.cl[j.toNat]'j.isLt) 17 0
def Thread.setLen (t : Thread) (j : BitVec 3) (n : Nat) : Thread := { t with cl := t.cl.set j.toNat (w64 n) j.isLt }

/-- One entry: coordinate, value, and whether each fails its parity. -/
structure Entry where
  co : Nat
  va : Nat
  badCo : Bool
  badVa : Bool
  deriving DecidableEq, Repr

def State.entry (s : State) (x : Lanes) (c : Sparse) (i : Nat) : Entry :=
  ⟨s.elem x c.co i, s.elem x c.va i, s.elemFails x c.co i, s.elemFails x c.va i⟩
def Entry.bad (e : Entry) : Bool := e.badCo || e.badVa
/-- The entries a register holds. -/
def State.entries (s : State) (x : Lanes) (c : Sparse) : List Entry :=
  (List.range (s.me.slen c.j)).map fun i => s.entry x c i

/-- Writes entries from an index on. -/
def State.putEntries (s : State) (x : Lanes) (c : Sparse) (start : Nat) (es : List (Nat × Nat)) : State :=
  es.zipIdx.foldl (fun (s : State) e =>
    (s.setElem x c.co (start + e.2) e.1.1).setElem x c.va (start + e.2) e.1.2) s

/-- Sets a destination's length and writes the tails of both its registers (R292). -/
def State.closeSparse (s : State) (x : Lanes) (c : Sparse) (n : Nat) : State :=
  let s := s.setMe (s.me.setLen c.j n)
  if !s.me.tp then s
  else [c.co, c.va].foldl (fun (s : State) (o : Operand) =>
    (List.range (o.cap x.count - n)).foldl (fun (s : State) d => s.setElem x o (n + d) 0) s) s

/-- Goes on with the sparse registers of a word, INT4 and absent codes trapping (R292). -/
def State.withSparse (s : State) (word : BitVec 32) (js : List (BitVec 3)) (k : List Sparse → State) : State :=
  if s.me.int4 then s.illegal word .reservedField
  else match js.mapM fun j => s.me.sparse j with
    | some cs => k cs
    | none => s.illegal word .absentRegister

/-- Whether every source's length fits its capacity (R292). -/
def State.sourcesFit (s : State) (x : Lanes) (cs : List Sparse) : Bool :=
  cs.all fun c => decide (s.me.slen c.j ≤ c.cap x.count)

/-- Records a trim that leaves VL alone and ends the instruction. -/
def State.stopSparse (s : State) (f : Fail) : State :=
  (s.setMe { s.me with trc := w64 f.cause, tra := f.addr }).vdone

/-- Whether a value is non-zero (R297). -/
def nonZero (et v : Nat) : Bool :=
  match codeFmt et with
  | some f => v % f.signBit != 0
  | none => v != 0

/-! ## csld and csst (R293) -/

/-- Runs a frame under a length of its own: VL stays unless the frame trims below that length. -/
def State.withLen (s : State) (n : Nat) (k : State → State) : State :=
  let vl := s.me.vl
  let r := k (s.setMe { s.me with vl := w64 n })
  if r.me.vl = w64 n then r.setMe { r.me with vl := vl } else r

/-- The two accesses of entry i. -/
def entryAccs (a b : Word) (w : Nat) (use : Use) : State → Lanes → Nat → List Acc := fun _ _ i =>
  [⟨a + w64 (4 * i), 4, 4, use⟩, ⟨b + w64 (i * w), w, w, use⟩]

def execCsld (d : BitVec 3) (a b : BitVec 5) (s : State) : Out :=
  let t := s.me
  .next (s.withSparse (Enc.csld d a b) [d] fun cs =>
    match cs with
    | [c] => s.vframe
        { srcs := [], maskSrcs := [], dst := .none, mask := 0, neg := false,
          accs := entryAccs (s.sr a) (s.sr b) t.ebytes .load
          comp := fun _ _ _ bs => (some (leNat (bs.headD []) + 2 ^ 32 * leNat ((bs.drop 1).headD [])), 0)
          hot := 0, noMp := true, accum := false, limit := c.cap (s.lanesOf s.tid).count
          fin := fun s => if s.me.vlen = 0 then s else s.closeSparse (s.lanesOf s.tid) c s.me.vlen }
        fun s x _ els => els.foldl (fun (s : State) e =>
          let v := e.v.getD 0
          (s.setElem x c.co e.i (v % 2 ^ 32)).setElem x c.va e.i (v / 2 ^ 32)) s
    | _ => s)

def execCsst (d : BitVec 3) (a b : BitVec 5) (s : State) : Out :=
  let t := s.me
  let x := s.lanesOf s.tid
  .next (s.withSparse (Enc.csst d a b) [d] fun cs =>
    match cs with
    | [c] =>
      if t.vlen = 0 then s.vdone
      else if !s.sourcesFit x [c] then s.trap cCapacity 0 0
      else if Nat.min t.vlen (t.slen d) = 0 then s.vdone
      else s.withLen (Nat.min t.vlen (t.slen d)) fun s => s.vframe
        { srcs := [], maskSrcs := [], dst := .none, mask := 0, neg := false,
          accs := entryAccs (s.sr a) (s.sr b) t.ebytes .store
          comp := fun s x i _ => (some (s.elem x c.va i), 0)
          hot := 0, noMp := true, accum := false, raw := [c.co, c.va], fin := fun s => s }
        fun s x _ els =>
          let ins := s.wseq
          els.foldl (fun (s : State) e =>
          match e.placed with
          | [p, q] => (s.storeElem s.tid (x.slice e.i) ins p false false [] (s.elem x c.co e.i)).storeElem s.tid (x.slice e.i) ins q
              false false [] (e.v.getD 0)
          | _ => s) s
    | _ => s)

/-! ## Merges (R294, R295) -/

inductive MergeOp where
  | add | mul | dot
  deriving DecidableEq, Repr

/-- A value both sources meet at, from the carry, the two values and the SR index. -/
def MergeOp.both (o : MergeOp) (et : Nat) (c : Ctl) (elem carry a b : Nat) : Nat × Exc :=
  match o with
  | .add => addCode et c elem 0 a b
  | .mul => (match codeFmt et with
      | some f => FOp.mul.run f c elem 0 a b
      | none => (a * b % 2 ^ codeBits et, 0))
  | .dot => (match codeFmt et with
      | some f => fmaRun f c elem 0 false false a b carry
      | none => ((carry + a * b) % 2 ^ codeBits et, 0))

/-- How far a merge came: entries produced, the carry, flags, how many values were produced, and the stop if any. -/
structure Merged where
  out : List (Nat × Nat)
  carry : Nat
  exc : Exc
  count : Nat
  stop : Option (Nat × Fail)
  deriving DecidableEq, Repr

/-- The coordinate of the next step and the sides it takes (R294). -/
def mergePick : List Entry → List Entry → Option (Nat × Bool × Bool)
  | [], [] => none
  | a :: _, [] => some (a.co, true, false)
  | [], b :: _ => some (b.co, false, true)
  | a :: _, b :: _ =>
    if a.co < b.co then some (a.co, true, false) else if b.co < a.co then some (b.co, false, true) else some (a.co, true, true)

/-- Whether a side's head fails where the step reads it: its coordinate always, its value where it is used. -/
def sideBad (used : Bool) (l : List Entry) : Bool :=
  match l with
  | e :: _ => e.badCo || (used && e.badVa)
  | [] => false

/-- The walk of R294; on one coordinate a full destination precedes a failing value, and the end of a time slice stops it last, once
something is produced (14 R301). `cut` is the coordinates left before that end. -/
def mergeWalk (o : MergeOp) (t : Thread) (cap : Nat) : (fuel i : Nat) → (as bs : List Entry) → (cut : Nat) → Merged → Merged
  | 0, _, _, _, _, m => m
  | fuel + 1, i, as, bs, cut, m =>
    match mergePick as bs with
    | none => m
    | some (x, fa, fb) =>
      let makes := o == .add || (fa && fb)
      let full := makes && o != .dot && m.count == cap
      let as' := if fa then as.drop 1 else as
      let bs' := if fb then bs.drop 1 else bs
      let i' := if fa then i + 1 else i
      let pre := t.cut != 0 && cut = 0 && 0 < m.count
      if sideBad (makes && fa) as || sideBad (makes && fb) bs then { m with stop := some (x, if full then Fail.capacity else Fail.lost 0) }
      else if !makes then
        if pre then { m with stop := some (x, Fail.preempted) } else mergeWalk o t cap fuel i' as' bs' (cut - 1) m
      else
        let av := (as.head?.map (·.va)).getD 0
        let bv := (bs.head?.map (·.va)).getD 0
        let r : Nat × Exc := if fa && fb then o.both t.et t.ctl (if o = .dot then i else m.count) m.carry av bv
          else (if fa then av else bv, 0)
        if t.enabled r.2 then { m with stop := some (x, Fail.arith r.2) }
        else if full then { m with stop := some (x, Fail.capacity) }
        else if pre then { m with stop := some (x, Fail.preempted) }
        else
          let m := { m with exc := m.exc ||| r.2, count := m.count + 1 }
          mergeWalk o t cap fuel i' as' bs' (cut - 1) (if o = .dot then { m with carry := r.1 } else { m with out := m.out ++ [(x, r.1)] })

/-- Runs a merge of two sources and commits what it produced: `commit` writes the result, from the merge. -/
def State.merge (s : State) (o : MergeOp) (a b : Sparse) (cap : Nat) (carry : Nat) (r : BitVec 5) (commit : Merged → State → State) : State :=
  let t := s.me
  let x := s.lanesOf s.tid
  if t.vlen = 0 then s.vdone
  else if !s.sourcesFit x [a, b] then s.trap cCapacity 0 0
  else
    let m := mergeWalk o t cap (t.slen a.j + t.slen b.j) 0 (s.entries x a) (s.entries x b) t.cut ⟨[], carry, 0, 0, none⟩
    match m.stop with
    | none =>
      let s := s.setMe (s.me.addFlags m.exc)
      (commit m (s.setS r (BitVec.allOnes 64))).vdone
    | some (y, f) =>
      if m.count = 0 then s.faultAt f
      else
        let s := s.setMe (s.me.addFlags m.exc)
        ((commit m s).setS r (w64 y)).stopSparse f

/-- csadd and csmul into a sparse register. -/
def State.mergeInto (s : State) (word : BitVec 32) (o : MergeOp) (d a b : BitVec 3) (r : BitVec 5) : State :=
  let x := s.lanesOf s.tid
  s.withSparse word [d, a, b] fun cs =>
    match cs with
    | [c, ca, cb] => s.merge o ca cb (c.cap x.count) 0 r fun m s => (s.putEntries x c 0 m.out).closeSparse x c m.count
    | _ => s

def execCsadd (d a b : BitVec 3) (r : BitVec 5) (s : State) : Out := .next (s.mergeInto (Enc.csadd d a b r) .add d a b r)
def execCsmul (d a b : BitVec 3) (r : BitVec 5) (s : State) : Out := .next (s.mergeInto (Enc.csmul d a b r) .mul d a b r)

def execCsdot (d : BitVec 5) (a b : BitVec 3) (r : BitVec 5) (s : State) : Out :=
  let et := s.me.et
  .next (s.withSparse (Enc.csdot d a b r) [a, b] fun cs =>
    match cs with
    | [ca, cb] => s.merge .dot ca cb (2 ^ 64) ((s.sr d).toNat % 2 ^ codeBits et) r fun m s => s.setS d (scalarOfElem et m.carry)
    | _ => s)

/-! ## csseek and csscale (R296) -/

/-- Copies entries in order up to a cause: what stands, and the cause. -/
def copyWalk (cap : Nat) (f : Nat → Nat → Nat × Exc) (t : Thread) : List Entry → (i : Nat) → List (Nat × Nat) → Exc →
    List (Nat × Nat) × Exc × Option Fail
  | [], _, out, e => (out, e, none)
  | a :: rest, i, out, e =>
    if cap ≤ i then (out, e, some Fail.capacity)
    else if a.bad then (out, e, some (Fail.lost 0))
    else
      let r := f i a.va
      if t.enabled r.2 then (out, e, some (Fail.arith r.2))
      else if t.cut != 0 && t.cut = i && 0 < i then (out, e, some Fail.preempted)
      else copyWalk cap f t rest (i + 1) (out ++ [(a.co, r.1)]) (e ||| r.2)

/-- Writes copied entries to a destination; a cause at the first entry traps (R296). -/
def State.copyInto (s : State) (x : Lanes) (c : Sparse) (r : List (Nat × Nat) × Exc × Option Fail) : State :=
  let commit (s : State) : State :=
    ((s.setMe (s.me.addFlags r.2.1)).putEntries x c 0 r.1).closeSparse x c r.1.length
  match r.2.2 with
  | none => (commit s).vdone
  | some f => if r.1.isEmpty then s.faultAt f else (commit s).stopSparse f

def execCsseek (d a : BitVec 3) (n : BitVec 5) (s : State) : Out :=
  let t := s.me
  let x := s.lanesOf s.tid
  let from_ := s.sr n
  .next (s.withSparse (Enc.csseek d a n) [d, a] fun cs =>
    match cs with
    | [c, ca] =>
      if t.vlen = 0 then s.vdone
      else if !s.sourcesFit x [ca] then s.trap cCapacity 0 0
      else
        let all := s.entries x ca
        let rest := if bits from_ 63 32 ≠ 0 then [] else all.dropWhile fun e => decide (e.co < bits from_ 31 0)
        let scanned := if bits from_ 63 32 ≠ 0 then 0 else all.length - rest.length
        if (List.range scanned).any fun i => s.elemFails x ca.co i then s.faultAt (Fail.lost 0)
        else s.copyInto x c (copyWalk (c.cap x.count) (fun _ v => (v, 0)) t rest 0 [] 0)
    | _ => s)

def execCsscale (d a : BitVec 3) (n : BitVec 5) (s : State) : Out :=
  let t := s.me
  let x := s.lanesOf s.tid
  let f := (s.sr n).toNat % 2 ^ codeBits t.et
  .next (s.withSparse (Enc.csscale d a n) [d, a] fun cs =>
    match cs with
    | [c, ca] =>
      if t.vlen = 0 then s.vdone
      else if !s.sourcesFit x [ca] then s.trap cCapacity 0 0
      else s.copyInto x c (copyWalk (c.cap x.count) (fun i v => MergeOp.mul.both t.et t.ctl i 0 v f) t (s.entries x ca) 0 [] 0)
    | _ => s)

/-! ## cscompact and csexpand (R297) -/

def execCscompact (d : BitVec 3) (v : BitVec 6) (n : BitVec 5) (s : State) : Out :=
  let t := s.me
  let word := Enc.cscompact d v n
  let x := s.lanesOf s.tid
  let base := (s.sr n).toNat % 2 ^ 32
  .next (s.withSparse word [d] fun cs =>
    match cs, t.operand v t.group (codeNibbles t.et) false with
    | [c], some ov =>
      let have_ := if t.start = 0 then 0 else t.slen d
      let sp : VSpec :=
        { srcs := [(v, ov)], maskSrcs := [], dst := .none, mask := 0, neg := false, accs := noAccs,
          comp := fun s x i _ => (some (s.elem x ov i), 0)
          hot := 0, noMp := true, accum := false
          late := fun _ els => ((els.filter fun e => nonZero t.et (e.v.getD 0))[c.cap x.count - have_]?).map fun e => (e.i, Fail.capacity)
          fin := fun s => if s.me.vlen = 0 then s else s.closeSparse x c (s.me.slen d) }
      let picked (els : List Elem) : List (Nat × Nat) :=
        (els.filter fun e => nonZero t.et (e.v.getD 0)).map fun e => ((base + e.i) % 2 ^ 32, e.v.getD 0)
      if t.vlen = 0 then s.vdone
      else if sp.capacity t x ≤ t.start then s.trap cCapacity 0 0
      else match s.vscan sp with
        | (none, s) => s
        | (some o, s) =>
          match o.atLead t.start with
          | some f => s.faultAt f
          | none => s.vcommit sp (fun s x _ els =>
              let out := picked els
              (s.putEntries x c have_ out).setMe ((s.putEntries x c have_ out).me.setLen d (have_ + out.length))) x t.start o
    | [_], none => s.illegal word .absentRegister
    | _, _ => s)

def execCsexpand (v : BitVec 6) (a : BitVec 3) (n : BitVec 5) (s : State) : Out :=
  let t := s.me
  let word := Enc.csexpand v a n
  let x := s.lanesOf s.tid
  let base := (s.sr n).toNat % 2 ^ 32
  .next (s.withSparse word [a] fun cs =>
    match cs, t.operand v t.group (codeNibbles t.et) true with
    | [c], some ov =>
      if t.vlen = 0 then s.vdone
      else if !s.sourcesFit x [c] then s.trap cCapacity 0 0
      else
        let all := s.entries x c
        s.vframe
          { srcs := [], maskSrcs := [], dst := .reg v ov, mask := 0, neg := false, accs := noAccs,
            comp := fun _ _ i _ => (some (((all.filter fun e => e.co == base + i).getLast?.map (·.va)).getD 0), 0)
            hot := 0, noMp := true, accum := false, fromZero := true, noRot := true
            -- an entry that names no element of the range is ignored
            bad := fun _ _ i => all.any fun e => e.bad && e.co == base + i
            fin := fun s => s } noExtra
    | [_], none => s.illegal word .absentRegister
    | _, _ => s)

/-! ## cscsr (R298) -/

/-- What cscsr knows of a row before it runs: its entries, whether a value fails its parity, whether it is beyond an operand's capacity, a
failure of its stream elements, and whether the time slice ends at it. -/
structure CsrRow where
  out : List (Nat × Nat)
  bad : Bool
  full : Bool
  fail : Option Fail
  pre : Bool

/-- Rows in order up to the first that meets a cause (R298; 14 R301): entries, row records, and the cause with its row. -/
def csrRows (cap o : Nat) (row : Nat → CsrRow) : List Nat → List (Nat × Nat) → List Nat → List (Nat × Nat) × List Nat × Option (Nat × Fail)
  | [], out, recs => (out, recs, none)
  | r :: rest, out, recs =>
    let x := row r
    let n := x.out.length
    let off := o + out.length
    let known := x.fail.isNone
    if 0xFFFFFFFF < off || (known && decide (65535 < n)) then (out, recs, some (r, Fail.overflow))
    else if x.full || (known && decide (cap < out.length + n)) then (out, recs, some (r, Fail.capacity))
    else match x.fail with
      | some f => (out, recs, some (r, f))
      | none =>
        if x.bad then (out, recs, some (r, Fail.lost 0))
        else if x.pre then (out, recs, some (r, Fail.preempted))
        else csrRows cap o row rest (out ++ x.out) (recs ++ [off + n * 2 ^ 32])

/-- The element type of a row record (R298). -/
def recordType : Nat := 15

/-- cscsr with its operands: the source and the destination of the records may be bound (03 R99), the latter taking record r as its
element r. -/
def State.csrRun (s : State) (vt v : BitVec 6) (d : Sparse) (ov ot : Operand) (cols o : Nat) : State :=
  let t := s.me
  let x := s.lanesOf s.tid
  let w := s.who s.tid
  let rb := t.bound v false
  let wb := t.bound vt true
  let left (b : Option Bind) : Nat := (b.map Bind.left).getD (2 ^ 64)
  let cap := Nat.min (ov.cap x.count) (left rb)
  let vcap := Nat.min (ot.cap x.count) (left wb)
  let rows := (t.vlen + cols - 1) / cols
  let fits (r : Nat) : Bool := decide (Nat.min t.vlen ((r + 1) * cols) ≤ cap) && decide (r < vcap)
  let n := Nat.min t.vlen (((List.range rows).takeWhile fits).length * cols)
  let misplaced := match wb with
    | some b => b.scaled && b.pos.toNat % 32 != 0
    | none => false
  if misplaced then s.trap cCapacity 0 0
  else
    let accs (e : Nat) : List Acc := (match rb with
      | some b => b.readAccs e
      | none => []) ++ (match wb with
      | some b => if e % cols = 0 then b.writeAccs (e / cols) else []
      | none => [])
    let binds := match rb with
      | some b => [(v, ov, b)]
      | none => []
    match translateElems w accs (if rb.isNone && wb.isNone then [] else List.range n) s [] [] with
    | (⟨_, _, true⟩, s) => s
    | (⟨placed, tf, false⟩, s) =>
      match s.loadElems s.tid placed with
      | (⟨_, _, true⟩, s) => s
      | (⟨data, df, false⟩, s) =>
        let st := stageAll t x binds data s []
        let s := st.1
        let sf := match st.2.2 with
          | some f => some f
          | none => match df with
            | some f => some f
            | none => tf
        let row (r : Nat) : CsrRow :=
          let top := Nat.min (if rb.isSome then n else Nat.min t.vlen cap) ((r + 1) * cols)
          let is := (List.range (top - r * cols)).map fun k => (k, r * cols + k)
          { out := (is.map fun p => (p.1, s.elem x ov p.2)).filter fun e => nonZero t.et e.2
            bad := is.any fun p => s.elemFails x ov p.2
            full := !fits r
            fail := match sf with
              | some (k, f) => if k / cols = r then some f else none
              | none => none
            pre := t.cut != 0 && decide (0 < r) && decide (t.cut ≤ r * cols) }
        let got := csrRows (d.cap x.count) o row (List.range rows) [] []
        let els : List Elem := got.2.1.zipIdx.map fun e =>
          { i := e.2, v := some e.1, exc := 0, placed := (takeParts (binds.map (·.2.2)) (mapGet [] placed (e.2 * cols))).2
            read := (mapGet ((0 : Exc), []) st.2.1 (e.2 * cols)).2 }
        let (k, fail) := lower (match got.2.2 with
          | some (r, f) => (r, some f)
          | none => (rows, none)) (encodeFails t wb els recordType)
        let end_ := blockEnd wb k (k = 0)
        let (k, fail) := lower (k, fail) (end_.map fun k => (k, Fail.capacity))
        match fail, k with
        | some f, 0 => s.faultAt { f with value := if f.cause = cCapacity || f.cause = cFieldOverflow then 0 else f.value }
        | _, _ =>
          let vl := Nat.min t.vlen (k * cols)
          let recs := got.2.1.take k
          let els := els.take k
          let out := got.1.take ((recs.getLast?.map fun e => e % 2 ^ 32 + e / 2 ^ 32 - o).getD 0)
          let flags := (st.2.1.filter fun e => decide (e.1 < vl)).foldl (fun (z : Exc) e => z ||| e.2.1) 0
          let sp : VSpec := { srcs := [], maskSrcs := [], dst := .reg vt ot, mask := 0, neg := false, accs := noAccs, form := some recordType,
                              comp := fun _ _ _ _ => (none, 0), hot := 3, noMp := true, accum := false, fin := fun s => s }
          let enc : Exc := match wb with
            | some b => els.foldl (fun (z : Exc) e => z ||| (b.out t.bt recordType t.ctl els e).2.2) 0
            | none => 0
          let s := (s.setMe (s.me.addFlags (flags ||| enc))).putEntries x d 0 out
          let s := match wb with
            | some b => s.writeStream x sp b k els
            | none => s
          let s := placed.foldl (fun (s : State) p =>
            if p.1 < vl then
              let parts := takeParts (binds.map (·.2.2)) p.2
              s.countElem w (parts.1 ++ [((wb.map Bind.hotClass).getD 3, parts.2)])
            else s) s
          let s := recs.zipIdx.foldl (fun (s : State) e => s.setElem x ot e.2 e.1) s
          let s := (s.closeSparse x d out.length).writeTail x (.reg vt ot) k
          let s := (s.advanceBinds (if rb.isSome then [v] else []) vl).advanceBinds (if wb.isSome then [vt] else []) k
          (match fail with
          | some f => s.setMe (s.me.noteTrim vl f)
          | none => s).vdone

def execCscsr (vt v : BitVec 6) (n : BitVec 5) (c : BitVec 3) (s : State) : Out :=
  let t := s.me
  let word := Enc.cscsr vt v n c
  let a := s.sr n
  let cols := bits a 48 32
  .next (
    if bits a 63 49 ≠ 0 ∨ cols = 0 ∨ 65536 < cols then s.illegal word .reservedField
    else s.withSparse word [c] fun cs =>
    match cs, t.operand v t.group (codeNibbles t.et) false, t.operand vt t.group 16 true with
    | [d], some ov, some ot => if t.vlen = 0 then s.vdone else s.csrRun vt v d ov ot cols (bits a 31 0)
    | [_], _, _ => s.illegal word .absentRegister
    | _, _, _ => s)

end Sys2Proof.Machine
end

