-- ==== Sys2Proof/Machine/Engine.lean ====
section
/-! DEFINITION. Engine commands in general: acceptance with the issue release, range-scoreboard entries and numbers (05 R131 to R135; 03
R92 to R95), an engine's reads and writes through the issuing thread's translations (15 R317), and the end of a command with its
completion record (15 R314, R315). -/

namespace Sys2Proof.Machine

/-! ## Scratchpad ranges -/

/-- A virtual range a command will touch: address, bytes, and whether it only reads it. -/
structure Touch where
  va : Nat
  n : Nat
  src : Bool
  deriving DecidableEq, Repr

/-- The pair windows a thread reaches: the pair each shows and its first virtual address (01 R21 to R23). -/
def State.windows (s : State) (w : Who) : List (Nat × Nat) :=
  let l := pairOf w.tid
  let p := s.pair l
  (l, 0x00FF000000000000) :: (List.range (s.pairCount w.part)).filterMap fun j =>
    if p.xbar.getLsbD j || j == p.idx then (s.pairAt w.part j).map fun t => (t, 0x00FE000000000000 + j * 0x4000000) else none

/-- The scratchpad bytes of one window that a range covers. -/
def clip (base : Nat) (t : Touch) : Option (Nat × Nat) :=
  let lo := Nat.max t.va base
  let hi := Nat.min (t.va + t.n) (base + 0x3000000)
  if lo < hi then some (lo - base, hi - base) else none

/-- One entry per pair and direction: the bounding span, rounded out to 64 bytes (R92). -/
def spanOf (ws : List (Nat × Nat)) (ts : List Touch) (l : Nat) (src : Bool) : Option (Nat × Nat) :=
  let parts := (ws.filter fun w => w.1 == l).flatMap fun w => ts.filterMap fun t => if t.src == src then clip w.2 t else none
  match parts with
  | [] => none
  | p :: rest =>
    let r := rest.foldl (fun (a : Nat × Nat) b => (Nat.min a.1 b.1, Nat.max a.2 b.2)) p
    some (r.1 / 64 * 64, (r.2 + 63) / 64 * 64)

/-- The entries a command needs: the pair, the direction and the span. -/
def State.spans (s : State) (w : Who) (ts : List Touch) : List (Nat × Bool × Nat × Nat) :=
  let ws := s.windows w
  (ws.map (·.1)).eraseDups.flatMap fun l => [false, true].filterMap fun src => (spanOf ws ts l src).map fun r => (l, src, r.1, r.2)

/-! ## Acceptance -/

/-- Commands of a context accepted and not yet performed. -/
def State.inFlight (s : State) (tid ctx : Nat) : Nat := (s.cmds.filter fun c => c.tid == tid && c.ctx == ctx).length
/-- Most a context holds (R318; 16 R336, R348; 17 R357); none for the collectives. -/
def ctxLimit (ctx : Nat) : Option Nat :=
  match ctx with
  | 0 => some 256
  | 2 => some 64
  | 3 => some 2
  | 4 => some 64
  | _ => none

/-- Scoreboard entries of a pair. -/
def boardSize : Nat := 16

/-- Whether every pair a command needs entries of has room. -/
def State.boardRoom (s : State) (es : List (Nat × Bool × Nat × Nat)) : Bool :=
  es.all fun e => decide ((s.pair e.1).board.length + (es.filter fun o => o.1 == e.1).length ≤ boardSize)

inductive Accept where
  | wait
  | exhausted
  | ok (num : Nat) (s : State)

/-- What a command is and what it captured. -/
structure NewCmd where
  ctx : Nat
  op : CmdOp
  record : List Byte
  extra : List Byte
  words : List Word
  touch : List Touch
  deriving DecidableEq, Repr

/-- Takes the next number of a timeline, or none when it is exhausted (R131). -/
def State.takeNumber (s : State) (tid ctx : Nat) : Option (Nat × State) :=
  let t := s.th tid
  let tl := t.timeline ctx
  if 2 ^ 64 ≤ tl.last + 1 then none
  else some (tl.last + 1, s.setTh tid (t.setTimeline ctx { tl with last := tl.last + 1 }))

/-- Accepts a command of a thread: its entries register before it takes its number (R93); issue is a release towards it (R135). An entry
takes the next of the places that 03 R96 shows (DESIGN CHOICE, log entry 103). -/
def State.accept (s : State) (tid : Nat) (c : NewCmd) : Accept :=
  match s.takeNumber tid c.ctx with
  | none => .exhausted
  | some (num, s') =>
    let full := match ctxLimit c.ctx with
      | some n => decide (n ≤ s.inFlight tid c.ctx)
      | none => false
    let w := s.who tid
    -- a sketch command's ranges count in its own pair's scratchpad alone (17 R429)
    let es := (s.spans w c.touch).filter fun e => c.ctx != 4 || e.1 == pairOf tid
    if full || !s.boardRoom es then .wait
    else
      let t := s'.th tid
      let s := es.foldl (fun (s : State) e =>
        let p := s.pair e.1
        s.setPair e.1 { p with board := p.board ++ [⟨e.2.2.1, e.2.2.2, e.2.1, tid % 2, c.ctx, num, tid, s.wseq⟩] }) s'
      let cmd : Cmd := {
        tid := tid, ctx := c.ctx, num := num, op := c.op, record := c.record, extra := c.extra, words := c.words, vty := t.vty,
        fcs := t.fcs, skz := t.skz, atb := t.atb, sup := t.sup, pc := t.pc, after := s.wseq, deps := t.fwd, power := none, det := 0 }
      .ok num { s with cmds := s.cmds ++ [cmd] }

/-- Reads a record at issue, as one access of n bytes aligned to n through the scalar slice (R318). -/
def State.issueRead (s : State) (va : Word) (n : Nat) (counted : Bool) (k : List Byte → State → State) : State :=
  State.finish (s.scalarLoad va n false counted) k

/-- The same for a command that takes a number: an exhausted timeline traps before any access (R131). -/
def State.commandRead (s : State) (ctx : Nat) (va : Word) (n : Nat) (k : List Byte → State → State) : State :=
  if (s.takeNumber s.tid ctx).isNone then s.trap cCapacity 0 0 else s.issueRead va n false k

/-- Reads a record at issue whose reply, if it comes from outside, is kept until the instruction completes. -/
def State.keepLoad (s : State) (va : Word) (n : Nat) : Got × State :=
  match s.translate (s.who s.tid) va.toNat n .load with
  | (.fail f, s) => (.fail (Fail.ofT f va .load), s)
  | (.wait, s) => (.wait, s)
  | (.ok p, s) =>
    match s.replies s.tid (if p.isOutbound then [(p.pa, n)] else []) false false with
    | (none, s) => (.wait, s)
    | (some reps, s) =>
      match readPlaced s.tid false ⟨⟨va, n, n, .load⟩, p⟩ ⟨reps, []⟩ s with
      | (.error none, s) => (.wait, s)
      | (.error (some f), s) => (.fail f, s)
      | (.ok (bs, _), s) => (.ok bs, s)

/-- The destination bytes of a completion record. -/
def recTouch (crec : Nat) : List Touch := if crec = 0 ∨ crec % 32 ≠ 0 then [] else [⟨crec, 32, false⟩]

/-! ## An engine's accesses -/

/-- Who translates for a command. -/
def State.cmdWho (s : State) (c : Cmd) : Who :=
  ⟨c.tid, (s.pair (pairOf c.tid)).part.getD 0, c.atb, c.sup, engineAgent c.tid c.ctx⟩

def Cmd.isOf (c : Cmd) (tid ctx num : Nat) : Bool := c.tid == tid && c.ctx == ctx && c.num == num

/-- Whether an access of a command waits behind the entry of a command accepted earlier (R94, R95). -/
def State.cmdWaits (s : State) (c : Cmd) (pa n : Nat) : Bool :=
  let before := s.cmds.takeWhile fun o => !o.isOf c.tid c.ctx c.num
  (s.boardAt pa).any fun r =>
    !r.ofCmd c && before.any (fun o => r.ofCmd o) && overlaps (pa % 0x4000000) n r.lo (r.hi - r.lo)

/-- A piece of a virtual range that lies in one 4 KiB page. -/
structure Piece where
  va : Nat
  n : Nat
  deriving DecidableEq, Repr

/-- Splits a range at 4 KiB boundaries, modulo 2^64. -/
def splitPages : (fuel va n : Nat) → List Piece
  | 0, _, _ => []
  | f + 1, va, n =>
    if n = 0 then []
    else
      let v := va % 2 ^ 64
      let k := Nat.min n (4096 - v % 4096)
      ⟨v, k⟩ :: splitPages f (v + k) (n - k)
def pagesOf (va n : Nat) : List Piece := splitPages (n / 4096 + 2) va n

/-- Pieces translated in order: those before the first failure, the failure and its address, or that one waits. -/
structure EPlan where
  got : List (Piece × Phys)
  fail : Option (Nat × TFail)
  wait : Bool
  deriving DecidableEq, Repr

def State.plan (s : State) (w : Who) (use : Use) : List Piece → List (Piece × Phys) → EPlan × State
  | [], got => (⟨got, none, false⟩, s)
  | p :: rest, got =>
    match s.translate w p.va 1 use with
    | (.fail f, s) => (⟨got, some (p.va, f), false⟩, s)
    | (.wait, s) => (⟨got, none, true⟩, s)
    | (.ok x, s) => s.plan w use rest (got ++ [(p, x)])

/-- The replies an asker needs for its reads of hosts and peers: the missing ones are asked for, and kept until the asker
ends. None while one is missing. -/
def State.keepReplies (s : State) (tid : Nat) (key : Option (Nat × Nat)) (reqs : List (Nat × Nat)) : Option (List Reply) × State :=
  let have_ := s.asked tid key
  let find (r : Nat × Nat) := have_.find? fun o => o.addr == r.1 && o.len == r.2
  let missing := reqs.filter fun r => (find r).isNone
  if missing.isEmpty then
    let rs := reqs.map fun r => ((find r).map (·.reply)).getD .none
    (if rs.any fun r => r == .none then none else some rs, s)
  else (none, missing.eraseDups.foldl (fun (s : State) r => s.request tid key r.1 r.2 false fun k dest => .request tid k dest r.2) s)

/-- The same for a command. -/
def State.cmdReplies (s : State) (c : Cmd) (reqs : List (Nat × Nat)) : Option (List Reply) × State :=
  s.keepReplies c.tid (some (c.ctx, c.num)) reqs

/-- Bytes of a range before the first byte in an uncorrectable word. -/
def State.goodBytes (s : State) (a n : Nat) : Nat :=
  if s.memLost.any fun w => overlaps a n w 8 then
    (s.memLost.filter fun w => overlaps a n w 8).foldl (fun m w => Nat.min m (w - a)) n
  else n

/-- What reading a piece gave: its bytes, and a cause with its address where it stopped short. -/
structure PieceR where
  bytes : List Byte
  fail : Option (Nat × Nat)
  deriving DecidableEq, Repr

/-- Reads pieces in order at memory, or from the replies, up to the first that stops short. -/
def State.readPieces (s : State) : List (Piece × Phys) → List Reply → List (List Byte) → List (List Byte) × Option (Nat × Nat)
  | [], _, got => (got, none)
  | (p, x) :: rest, reps, got =>
    if x.isOutbound then
      match reps with
      | .data bs :: reps => s.readPieces rest reps (got ++ [bs.take p.n ++ List.replicate (p.n - bs.length) 0])
      | _ => (got ++ [[]], some (cPermission, p.va))
    else
      let k := s.goodBytes x.pa p.n
      if k < p.n then (got ++ [s.bytes x.pa k], some (cDataLost, (p.va + k) % 2 ^ 64))
      else s.readPieces rest reps (got ++ [s.bytes x.pa p.n])

def outReqs (ps : List (Piece × Phys)) : List (Nat × Nat) :=
  (ps.filter fun p => p.2.isOutbound).map fun p => (p.2.pa, p.1.n)

/-- The result of an engine's read of one range: all its bytes, a cause with its address, or that it waits. -/
inductive ERead where
  | ok (bs : List Byte)
  | fail (cause addr : Nat)
  | wait
  deriving DecidableEq, Repr

/-- Reads a virtual range for a command. -/
def State.engineRead (s : State) (c : Cmd) (va n : Nat) : ERead × State :=
  match s.plan (s.cmdWho c) .load (pagesOf va n) [] with
  | (⟨_, _, true⟩, s) => (.wait, s)
  | (⟨_, some (a, f), false⟩, s) => (.fail f.cause a, s)
  | (⟨ps, none, false⟩, s) =>
    if ps.any fun p => s.cmdWaits c p.2.pa p.1.n then (.wait, s)
    else match s.cmdReplies c (outReqs ps) with
      | (none, s) => (.wait, s)
      | (some reps, s) =>
        match s.readPieces ps reps [] with
        | (_, some (k, a)) => (.fail k a, s)
        | (bs, none) => (.ok bs.flatten, s)

/-- Whether a write covers only part of a lost ECC word. -/
def State.partlyLost (s : State) (a n : Nat) : Bool :=
  s.memLost.any fun w => overlaps a n w 8 && !(decide (a ≤ w) && decide (w + 8 ≤ a + n))

/-- Writes bytes at local memory; the part of an uncorrectable word that is not covered whole is dropped (11 R252), and an engine
posts no record for its own accesses (R314). -/
def State.engineStore (s : State) (a : Nat) (bs : List Byte) : State :=
  if s.partlyLost a bs.length then
    (List.range ((a + bs.length + 7) / 8 - a / 8)).foldl (fun (s : State) k =>
      let lo := Nat.max a ((a / 8 + k) * 8)
      let hi := Nat.min (a + bs.length) ((a / 8 + k + 1) * 8)
      if s.partlyLost lo (hi - lo) then s else s.putBytes lo ((bs.drop (lo - a)).take (hi - lo))) s
  else s.putBytes a bs

/-- Writes bytes of a command at a translated place. -/
def State.engineWrite (s : State) (c : Cmd) (x : Phys) (bs : List Byte) : State :=
  if bs.isEmpty then s
  else if x.isOutbound then s.sendPosted c.tid (some (c.ctx, c.num)) x.pa bs.length 0 0 1 fun dest => .posted dest bs
  else s.engineStore x.pa bs

/-- Translates a range for writing. -/
def State.planWrite (s : State) (c : Cmd) (va n : Nat) : EPlan × State := s.plan (s.cmdWho c) .store (pagesOf va n) []

/-- Writes consecutive bytes over translated pieces. -/
def State.writePieces (s : State) (c : Cmd) : List (Piece × Phys) → List Byte → State
  | [], _ => s
  | (p, x) :: rest, bs => State.writePieces (s.engineWrite c x (bs.take p.n)) c rest (bs.drop p.n)

/-! ## The end of a command -/

/-- What a completion record says (R314), with the count requested. -/
structure Done where
  done : Nat
  cause : Nat
  sub : Nat
  det : Nat
  flg : Exc
  addr : Nat
  requested : Nat
  deriving DecidableEq, Repr

def Done.ok (n : Nat) : Done := ⟨n, 0, 0, 0, 0, 0, n⟩
def Done.malformed (n : Nat) : Done := ⟨0, cIllegal, 3, 0, 0, 0, n⟩
def Done.failed (done cause addr requested : Nat) : Done := ⟨done, cause, 0, 0, 0, addr, requested⟩
/-- Whether a command falls short (R314). -/
def Done.short (d : Done) : Bool := decide (d.done < d.requested) || d.cause != 0

def Done.bytes (d : Done) (num : Nat) : List Byte :=
  leBytes 8 num ++ leBytes 8 d.done ++ leBytes 1 d.cause ++ leBytes 1 d.sub ++ leBytes 1 d.det ++ leBytes 1 d.flg.toNat ++
  leBytes 4 0 ++ leBytes 8 d.addr

/-- Adds an unreported shortfall (19 R403). -/
def Short.note (x : Short) (n : Nat) : Short :=
  if x.nums.length < 64 then { x with nums := (x.nums.filter fun k => decide (k < n)) ++ n :: x.nums.filter fun k => decide (n < k) }
  else match x.nums.getLast? with
    | some top => if n < top then
        { nums := (x.nums.dropLast.filter fun k => decide (k < n)) ++ n :: x.nums.dropLast.filter fun k => decide (n < k), loss := true }
      else { x with loss := true }
    | none => x
def State.noteShort (s : State) (tid ctx n : Nat) : State :=
  let t := s.th tid
  s.setTh tid { t with short := t.short.setIfInBounds ctx (((t.short[ctx]?).getD ⟨[], false⟩).note n) }

/-- Whether every peer write of a command is acknowledged (R133). -/
def State.cmdAcked (s : State) (c : Cmd) : Bool :=
  !(s.obs.any fun o => o.tid == c.tid && o.cmd == some (c.ctx, c.num) && o.posted && o.link.isSome)

/-- Replaces an accepted command by its later self. -/
def State.setCmd (s : State) (c : Cmd) : State :=
  { s with cmds := s.cmds.map fun o => if o.isOf c.tid c.ctx c.num then c else o }

/-- Writes the completion record of a command: none while it waits; a record that cannot be written is lost (R314). -/
def State.writeRecord (s : State) (c : Cmd) (crec : Nat) (bs : List Byte) : Option State :=
  if crec = 0 then some s
  else match s.translate (s.cmdWho c) crec 32 .store with
    | (.fail _, s) => some s
    | (.wait, _) => none
    | (.ok x, s) => if s.cmdWaits c x.pa 32 then none else some (s.engineWrite c x bs)

/-- A command is performed: its entries retire, its leave returns, its timeline advances (R94, R134). -/
def State.retireCmd (s : State) (c : Cmd) (short : Bool) : State :=
  let s := { s with
    cmds := s.cmds.filter fun o => !o.isOf c.tid c.ctx c.num
    obs := s.obs.filter fun o => !(o.tid == c.tid && o.cmd == some (c.ctx, c.num))
    pairs := s.pairs.map fun (p : Nat × Pair) => (p.1, { p.2 with board := p.2.board.filter fun r => !r.ofCmd c }) }
  let s := s.dropCmdLeave c.tid c.ctx c.num
  let s := if short then s.noteShort c.tid c.ctx c.num else s
  s.performNumber c.tid c.ctx c.num

/-- Goes on with a command whose accesses are made: the record once they are acknowledged, then the number once the record is. -/
def State.settle (s : State) (c : Cmd) : State :=
  let short := (c.words[1]?).getD 0 != 0
  if !s.cmdAcked c then s
  else if c.op = .final then s.retireCmd c short
  else match s.writeRecord c ((c.words[0]?).getD 0).toNat c.extra with
    | none => s
    | some s =>
      let c := { c with op := .final }
      if s.cmdAcked c then s.retireCmd c short else s.setCmd c

/-- Ends a command's accesses. -/
def State.endCmd (s : State) (c : Cmd) (crec : Nat) (d : Done) : State :=
  let c := { c with op := .finish, extra := d.bytes c.num, words := [w64 crec, if d.short then 1 else 0] }
  (s.setCmd c).settle c

/-- Runs an accepted command when its event comes: what its issue releases goes to memory first (R135). -/
def State.runCmd (s : State) (tid ctx num : Nat) (body : State → Cmd → State) : State :=
  match s.cmds.find? fun c => c.isOf tid ctx num with
  | none => s
  | some c =>
    if c.op = .finish ∨ c.op = .final then s.settle c
    else match s.drain fun p => (p.ownOrdered tid && decide (p.seq < c.after)) || c.deps.contains p.seq with
      | none => s
      | some s => body s c

/-- Goes on once a command holds leave of a weight at a die; asks for it otherwise (20 R418). -/
def State.withLeave (s : State) (c : Cmd) (d weight : Nat) (k : State → State) : State :=
  if s.cmdLeave c.tid c.ctx c.num then k s
  else if s.cmdAsked c.tid c.ctx c.num then s
  else s.askLeaveAt d ⟨c.tid, false, c.ctx, c.num, weight, false⟩

/-- Issues a command whose number goes to sd: waits, traps when the timeline is exhausted, or completes (R131). `s0` is the state
an instruction that waits is tried again from; `also` runs an accepted command at once. -/
def State.issueCmd (s0 s : State) (d : BitVec 5) (c : NewCmd) (also : Nat → State → State) : State :=
  match s.accept s.tid c with
  | .wait => s0
  | .exhausted => s.trap cCapacity 0 0
  | .ok num s => also num (s.result d (w64 num))

end Sys2Proof.Machine
end

