-- ==== Sys2Proof/Machine/Copies.lean ====
section
/-! DEFINITION. Copies, batches, timelines, replay and the remote-reduce store (15 R312 to R324; 05 R131 to R141), with the events that
perform them. -/

namespace Sys2Proof.Machine

/-! ## Copy commands (R316, R317) -/

def cpSrc (r : List Byte) : Nat := recField r 0 8
def cpDst (r : List Byte) : Nat := recField r 8 8
def cpRec (r : List Byte) : Nat := recField r 0x10 8
def cpNest (r : List Byte) : Nat := recField r 0x18 8
def cpB0 (r : List Byte) : Nat := recField r 0x20 4
def cpDims (r : List Byte) : Nat := recField r 0x38 1 % 8

/-- A copy command whose own fields are malformed. -/
def cpBad (r : List Byte) : Bool :=
  decide (8 ≤ recField r 0x38 1) || decide (4 < cpDims r) || !recZero r 0x39 7 ||
  (if cpDims r = 0 then cpNest r != 0 else cpNest r % 8 != 0) || cpRec r % 32 != 0

/-- One dimension: bound, source and destination stride. -/
abbrev Dim := Nat × Word × Word

/-- Dimension 1 and the outer dimensions of a NEST record. -/
def cpAllDims (r nest : List Byte) : List Dim :=
  (recField r 0x24 4, w64 (recField r 0x28 8), w64 (recField r 0x30 8)) ::
    (List.range (cpDims r)).map fun d =>
      (recField nest (24 * d) 4, w64 (recField nest (24 * d + 8) 8), w64 (recField nest (24 * d + 16) 8))
def nestBad (n : Nat) (nest : List Byte) : Bool := (List.range n).any fun d => !recZero nest (24 * d + 4) 4

/-- Requested count T. -/
def cpTotal (r : List Byte) (ds : List Dim) : Nat := ds.foldl (fun t d => t * d.1) (cpB0 r)

/-- Offsets of the runs in enumeration order, dimension 1 fastest. -/
def runOffsets (ds : List Dim) : List (Word × Word) :=
  ds.foldl (fun offs d => (List.range d.1).flatMap fun i => offs.map fun o => (o.1 + w64 i * d.2.1, o.2 + w64 i * d.2.2)) [(0, 0)]

/-- A segment that lies in one page at the source and in one at the destination. -/
structure Seg where
  src : Nat
  dst : Nat
  n : Nat
  deriving DecidableEq, Repr

def splitSegs : (fuel src dst n : Nat) → List Seg
  | 0, _, _, _ => []
  | f + 1, src, dst, n =>
    if n = 0 then []
    else
      let a := src % 2 ^ 64
      let b := dst % 2 ^ 64
      let k := Nat.min n (Nat.min (4096 - a % 4096) (4096 - b % 4096))
      ⟨a, b, k⟩ :: splitSegs f (a + k) (b + k) (n - k)

/-- The segments of a copy in enumeration order. -/
def cpSegs (r : List Byte) (ds : List Dim) : List Seg :=
  if cpTotal r ds = 0 then []
  else (runOffsets ds).flatMap fun o =>
    splitSegs (cpB0 r / 2048 + 3) (w64 (cpSrc r) + o.1).toNat (w64 (cpDst r) + o.2).toNat (cpB0 r)

/-- The bytes of its NEST record that a copy reads. -/
def nestTouch (r : List Byte) : List Touch := if cpDims r = 0 then [] else [⟨cpNest r, 24 * cpDims r, true⟩]

/-- The ranges a copy touches, for the scoreboard: its NEST record among the sources, its completion record among the destinations. -/
def cpTouch (r : List Byte) (ds : List Dim) : List Touch :=
  if cpTotal r ds = 0 then []
  else
    nestTouch r ++ (runOffsets ds).flatMap (fun o =>
      [⟨(w64 (cpSrc r) + o.1).toNat, cpB0 r, true⟩, ⟨(w64 (cpDst r) + o.2).toNat, cpB0 r, false⟩]) ++
    recTouch (cpRec r)

/-- A translated segment. -/
structure SegT where
  seg : Seg
  sp : Phys
  dp : Phys
  deriving DecidableEq, Repr

/-- Translates the segments in order, the source first: those before the stop, the cause with its address and the segment it fell in,
or that it waits. -/
def State.planSegs (s : State) (w : Who) : List Seg → List SegT → (List SegT × Option (Nat × Nat) × Bool) × State
  | [], got => ((got, none, false), s)
  | g :: rest, got =>
    match s.translate w g.src 1 .load with
    | (.fail f, s) => ((got, some (f.cause, g.src), false), s)
    | (.wait, s) => ((got, none, true), s)
    | (.ok a, s) =>
      match s.translate w g.dst 1 .store with
      | (.fail f, s) => ((got, some (f.cause, g.dst), false), s)
      | (.wait, s) => ((got, none, true), s)
      | (.ok b, s) => s.planSegs w rest (got ++ [⟨g, a, b⟩])

/-- Whether the sources and destinations of a copy share local bytes. -/
def segsOverlap (gs : List SegT) : Bool :=
  gs.any fun a => !a.sp.isOutbound && gs.any fun b => !b.dp.isOutbound && overlaps a.sp.pa a.seg.n b.dp.pa b.seg.n

/-- Copies one segment from bytes read before the command moved anything. With an overlap each byte takes that value or what stands at
its source now, by a free choice (R317). -/
def State.copySeg (s : State) (c : Cmd) (g : SegT) (old : List Byte) (mixed : Bool) : State :=
  if mixed && !g.sp.isOutbound then
    let n0 := s.freeCtr
    let s := { s with freeCtr := n0 + old.length }
    old.zipIdx.foldl (fun (s : State) b =>
      s.engineWrite c { g.dp with pa := g.dp.pa + b.2 } [if Config.freeBit (n0 + b.2) then b.1 else s.byte (g.sp.pa + b.2)]) s
  else s.engineWrite c g.dp old

/-- Destination bytes at or beyond a data-lost stop: each may hold its old value or the value the copy would have written. -/
def State.copyTail (s : State) (g : SegT) (skip : Nat) : State :=
  if g.sp.isOutbound || g.dp.isOutbound then s
  else
    let n0 := s.freeCtr
    let s := { s with freeCtr := n0 + g.seg.n }
    (List.range (g.seg.n - skip)).foldl (fun (s : State) k =>
      let i := skip + k
      if Config.freeBit (n0 + i) && !s.lostIn (g.sp.pa + i) 1 then
        s.engineStore (g.dp.pa + i) [s.byte (g.sp.pa + i)]
      else s) s

/-- Moves the data of a planned copy. -/
def State.copyMove (s : State) (c : Cmd) (r : List Byte) (total : Nat) (gs : List SegT) (fail : Option (Nat × Nat)) : State :=
  if gs.any fun g => s.cmdWaits c g.sp.pa g.seg.n || s.cmdWaits c g.dp.pa g.seg.n then s
  else
    let ps := gs.map fun g => (⟨g.seg.src, g.seg.n⟩, g.sp)
    match s.cmdReplies c (outReqs ps) with
    | (none, s) => s
    | (some reps, s) =>
      let got := s.readPieces ps reps []
      let mixed := segsOverlap gs
      let count := (got.1.map List.length).foldl (· + ·) 0
      let s' := (List.zip gs got.1).foldl (fun (s : State) g => s.copySeg c g.1 g.2 mixed) s
      let s' := match got.2 with
        | some (k, _) =>
          if k = cDataLost then
            let n := got.1.length
            let part := ((got.1.getLast?).map List.length).getD 0
            match gs.drop (n - 1) with
            | g :: rest => rest.foldl (fun (s : State) g => s.copyTail g 0) (s'.copyTail g part)
            | [] => s'
          else s'
        | none => s'
      let f := match got.2 with
        | some f => some f
        | none => fail
      s'.endCmd c (cpRec r) (match f with
        | some (k, a) => Done.failed count k a total
        | none => Done.ok total)

/-- Watts asked by a copy of more than 1 MiB (20 R418). -/
def copyWeight : Nat := 4

/-- The die whose governor a large copy asks: the destination's where it is a die pool or a scratchpad, else the issuing thread's. -/
def State.copyDie (s : State) (c : Cmd) (gs : List SegT) : Nat :=
  match gs.head?.map fun g => s.region g.dp.pa with
  | some (.pool d) => d
  | some (.scratch p) => p / 36
  | _ => pairOf c.tid / 32

/-- The scoreboard once a command's entries span what it touches: those registered when it was accepted do, where its NEST read as it does now; else
they are widened, or added where there is room (03 R92, R93; log entry 99). None while there is none. -/
def State.boardFor (s : State) (c : Cmd) (ts : List Touch) : Option State :=
  (s.spans (s.cmdWho c) ts).foldl (fun (s : Option State) e => s.bind fun s =>
    let p := s.pair e.1
    let put (b : List Range) : Option State := some (s.setPair e.1 { p with board := b })
    match p.board.find? fun r => r.ofCmd c && r.src == e.2.1 with
    | some r =>
      if r.lo ≤ e.2.2.1 ∧ e.2.2.2 ≤ r.hi then some s
      else put (p.board.map fun o => if o == r then { r with lo := Nat.min r.lo e.2.2.1, hi := Nat.max r.hi e.2.2.2 } else o)
    | none =>
      if boardSize ≤ p.board.length then none else put (p.board ++ [⟨e.2.2.1, e.2.2.2, e.2.1, c.tid % 2, c.ctx, c.num, c.tid, c.after⟩])) (some s)

/-- Runs a copy command (R317). -/
def State.runCopy (s : State) (c : Cmd) : State :=
  let r := c.record
  if cpBad r then s.endCmd c (if cpRec r % 32 = 0 then cpRec r else 0) (Done.malformed 1)
  else
    let go (s : State) (nest : List Byte) : State :=
      let ds := cpAllDims r nest
      let total := cpTotal r ds
      if nestBad (cpDims r) nest then s.endCmd c (cpRec r) (Done.malformed total)
      else match s.boardFor c (cpTouch r ds) with
      | none => s
      | some s =>
        match s.planSegs (s.cmdWho c) (cpSegs r ds) [] with
        | ((_, _, true), s) => s
        | ((gs, fail, false), s) =>
          if 2 ^ 20 < total then s.withLeave c (s.copyDie c gs) copyWeight fun s => s.copyMove c r total gs fail
          else s.copyMove c r total gs fail
    if cpDims r = 0 then go s []
    else if !c.extra.isEmpty then go s c.extra
    else match s.engineRead c (cpNest r) (24 * cpDims r) with
      | (.wait, s) => s
      | (.fail k a, s) => s.endCmd c (cpRec r) (Done.failed 0 k a 1)
      | (.ok bs, s) => go s bs

/-- COPY_COMMAND_PERFORMED. -/
def execCopyCommandPerformed (tid : BitVec 9) (n : Nat) (s : State) : Out :=
  .next (s.runCmd tid.toNat 0 n State.runCopy)

/-- The reads of a copy's NEST record that leave the module, with which its issue waits for them; none while a page of it is in motion. -/
def State.nestReads (s : State) (r : List Byte) : Option (List (Nat × Nat)) :=
  if cpBad r then some []
  else match (s.plan (s.who s.tid) .load (pagesOf (cpNest r) (24 * cpDims r)) []).1 with
    | ⟨_, _, true⟩ => none
    | ⟨_, some _, false⟩ => some []
    | ⟨ps, none, false⟩ => some (outReqs ps)

/-- Asks for the NEST records of copies that lie outside the module, behind what the issuer has written (05 R135): whether one is missing. The
ranges a command registers when it is accepted are those its NEST gives (03 R92, R93). -/
def State.askNests (s : State) (rs : List (List Byte)) : Bool × State :=
  let reads := rs.map s.nestReads
  if reads.any (·.isNone) then (true, s)
  else
    let reqs := reads.flatMap (·.getD [])
    if reqs.isEmpty then (false, s)
    else match s.drainCumulative s.tid with
      | none => (true, s)
      | some s => match s.keepReplies s.tid none reqs with
        | (none, s) => (true, s)
        | (some _, s) => (false, s)

/-- The bytes a reply carries. -/
def Reply.data? : Reply → Option (List Byte)
  | .data bs => some bs
  | _ => Option.none

/-- NEST as the command will find it, for the scoreboard's spans: with the issuing thread's earlier writes, which go before the command
(05 R135); none where its read fails. -/
def State.peekNest (s : State) (w : Who) (r : List Byte) : Option (List Byte) :=
  let s := (s.pend.filter (Pend.ownOrdered w.tid)).foldl (fun (s : State) p => s.perform p) s
  match (s.plan w .load (pagesOf (cpNest r) (24 * cpDims r)) []).1 with
  | ⟨ps, none, false⟩ =>
    let at_ := ps.map fun p =>
      if p.2.isOutbound then ((s.asked w.tid none).find? fun (o : OutReq) => o.addr == p.2.pa && o.len == p.1.n).bind fun o => o.reply.data?
      else some (s.bytes p.2.pa p.1.n)
    if at_.all (·.isSome) then some (at_.flatMap fun b => b.getD []) else none
  | _ => none

/-- The new command a copy record describes; it captures a NEST that its issue has read from outside the module. -/
def State.copyCmd (s : State) (tid : Nat) (r : List Byte) : NewCmd :=
  let nest := s.peekNest (s.who tid) r
  let touch := if cpBad r then recTouch (cpRec r) else match nest with
    | some nest => if nestBad (cpDims r) nest then nestTouch r ++ recTouch (cpRec r) else cpTouch r (cpAllDims r nest)
    | none => nestTouch r ++ recTouch (cpRec r)
  ⟨0, .copy, r, if s.nestReads r == some [] then [] else nest.getD [], [], touch⟩

/-- Whether a copy moves no bytes. -/
def State.copyZero (s : State) (tid : Nat) (r : List Byte) : Bool :=
  !cpBad r && (match s.peekNest (s.who tid) r with
    | some nest => !nestBad (cpDims r) nest && cpTotal r (cpAllDims r nest) == 0
    | none => false)

/-- A command of zero bytes is performed at once (R317). -/
def State.copyAtOnce (s : State) (zero : Bool) (tid num : Nat) : State := if zero then s.runCmd tid 0 num State.runCopy else s

def execEcopy (n d : BitVec 5) (s : State) : Out :=
  .next (
    if (s.takeNumber s.tid 0).isNone then s.trap cCapacity 0 0
    else State.finish (s.keepLoad (s.sr n) 64) fun r s' =>
      match s'.askNests [r] with
      | (true, s) => s
      | (false, s') =>
        State.issueCmd s' (s'.dropRequests s'.tid) d (s'.copyCmd s'.tid r) fun num s => s.copyAtOnce (s'.copyZero s'.tid r) s.tid num)

/-! ## Batches (R319) -/

/-- Where a batch stands: accepted commands, the last number, the acceptance mask's set bits, whether it stopped, and the cause. -/
structure Batch where
  count : Nat
  last : Nat
  bits : List Nat
  cause : Option Fail
  stop : Bool
  /-- the command at which it stopped, or their number: its achieved length -/
  upto : Nat
  deriving DecidableEq, Repr

/-- What a batch works on: its register, the mask, and the stream element that fails, if one does. -/
structure BatchIn where
  x : Lanes
  o : Operand
  k : BitVec 3
  neg : Bool
  fail : Option (Nat × Fail)

/-- The batch stops at command c. -/
def Batch.stopped (b : Batch) (c : Nat) (f : Option Fail) : Batch := { b with stop := true, cause := f, upto := c }

/-- The copy command in eight elements of a register read at width 8 (R319). -/
def State.record8 (s : State) (x : Lanes) (o : Operand) (c : Nat) : List Byte := (List.range 8).flatMap fun j => leBytes 8 (s.elem x o (8 * c + j))

/-- Offers command c of a batch. -/
def State.batchOne (s : State) (y : BatchIn) (b : Batch) (c : Nat) : Batch × State :=
  if b.stop then (b, s)
  else if y.k != 0 && s.maskFails y.x y.k.toNat c then (b.stopped c (some (Fail.lost 0)), s)
  else if !s.active y.x y.k y.neg c then (b, s)
  else match y.fail.bind fun f => if f.1 / 8 = c then some f.2 else none with
  | some f => (b.stopped c (some f), s)
  | none =>
    if (List.range 8).any fun j => s.elemFails y.x y.o (8 * c + j) then (b.stopped c (some (Fail.lost 0)), s)
    else
      let r := s.record8 y.x y.o c
      match s.accept s.tid (s.copyCmd s.tid r) with
      | .ok num s' => ({ b with count := b.count + 1, last := num, bits := c :: b.bits }, s'.copyAtOnce (s.copyZero s.tid r) s.tid num)
      | _ => (b.stopped c none, s)

def State.batchAll (s : State) (y : BatchIn) (b : Batch) : List Nat → Batch × State
  | [] => (b, s)
  | c :: rest =>
    let r := s.batchOne y b c
    r.2.batchAll y r.1 rest

/-- Closes a batch: its mask, its cause, its number (R319). -/
def State.batchEnd (s : State) (x : Lanes) (d : BitVec 5) (m : BitVec 3) (vl cap : Nat) (b : Batch) : State :=
  let s := if vl = 0 then s else
    let n := Nat.min vl cap
    let s := (List.range n).foldl (fun (s : State) c => s.setMaskBit x m.toNat c (b.bits.contains c)) s
    if s.me.tp then (List.range (maskCap x.count - vl)).foldl (fun (s : State) c => s.setMaskBit x m.toNat (vl + c) false) s else s
  let t := s.me
  let s := if cap < vl then s.setMe { t with trc := w64 cCapacity, tra := 0 }
    else match b.cause with
      | some f => s.setMe { t with trc := w64 f.cause, tra := f.addr }
      | none => s
  (s.setS d (w64 b.last)).vdone

/-- A register read at width 8, its elements decoded to UINT64 (R319). -/
def Thread.wide (t : Thread) : Thread := { t with vty := t.vty &&& ~~~15 ||| 15 }

/-- What the stream of a register gave an instruction that takes its elements in units: the lowest failure, the accesses of the units below
it, the exceptions of each element's decoding, the translations in use and what has been read. -/
structure Units where
  fail : Option (Nat × Fail)
  placed : List (Nat × List Placed)
  excs : List (Nat × Exc)
  used : List Tlb
  seen : Seen

/-- Reads the stream bound to a register whose elements come in units of `n`, for the units listed, beside the translations the instruction
uses and what it has read; none while it waits (03 R99). The elements are decoded as thread `t` types them. `last` says that the
instruction asks for nothing more. -/
def State.unitStream (s : State) (t : Thread) (v : BitVec 6) (o : Operand) (n : Nat) (us : List Nat) (last : Bool)
    (used : List Tlb := []) (seen : Seen := ⟨[], []⟩) : Option Units × State :=
  match t.bound v false with
  | none => (some ⟨none, [], [], used, seen⟩, s)
  | some b =>
    match translateElems (s.who s.tid) (fun i => b.readAccs i) (us.flatMap fun u => (List.range n).map fun j => n * u + j) s used [] with
    | (⟨_, _, true⟩, s) => (none, s)
    | (⟨placed, tf, false⟩, s) =>
      match s.loadBeside s.tid seen placed false last with
      | (⟨_, _, true⟩, _, s) => (none, s)
      | (⟨data, df, false⟩, seen, s) =>
        let st := stageAll t (s.lanesOf s.tid) [(v, o, b)] data s []
        let f := match st.2.2 with
          | some f => some f
          | none => match df with
            | some f => some f
            | none => tf
        let got := placed.filter fun e => f.all fun k => decide (e.1 / n < k.1 / n)
        (some ⟨f, got, st.2.1.map fun e => (e.1, e.2.1), usedWith used placed, seen⟩, st.1)

/-- The units below one have been used: their exceptions, their counts, and the stream's position (02 R67; 03 R100; 07 R171). -/
def State.unitsDone (s : State) (v : BitVec 6) (placed : List (Nat × List Placed)) (excs : List (Nat × Exc)) (n units : Nat) : State :=
  match s.me.bound v false with
  | some b =>
    let exc := (excs.filter fun e => decide (e.1 / n < units)).foldl (fun (z : Exc) e => z ||| e.2) 0
    ((s.setMe (s.me.addFlags exc)).countHot (s.who s.tid) b.hotClass (placed.filter fun e => decide (e.1 / n < units))).advanceBinds [v] (n * units)
  | none => s

/-- ebatch (R319). With its register's stream at END it takes no command, one number, and sets TRC to capacity, where R99 would trap (DEDUCED, log
entry 102). -/
def execEbatch (v : BitVec 6) (d : BitVec 5) (m : BitVec 3) (c : BitVec 1) (k : BitVec 3) (s : State) : Out :=
  let t := s.me
  .next (match t.operand v t.group 16 false with
    | none => s.illegal (Enc.ebatch v d m c k) .absentRegister
    | some o =>
      let x := s.lanesOf s.tid
      let b := t.bound v false
      let cap := Nat.min (Nat.min (o.cap x.count / 8) (maskCap x.count)) ((b.map fun b => b.left / 8).getD (2 ^ 64))
      let cs := List.range (Nat.min t.vlen cap)
      let wanted := (cs.takeWhile fun i => k == 0 || !s.maskFails x k.toNat i).filter fun i => s.active x k (c == 1) i
      -- a bound register supplies its stream, up to the element that fails (log entry 82)
      match s.unitStream t.wide v o 8 wanted false with
      | (none, s) => s
      | (some u, s) =>
      let records := (wanted.filter fun i => u.fail.all fun f => decide (i < f.1 / 8)).map fun i => s.record8 x o i
      match s.askNests records with
      | (true, s) => s
      | (false, s) =>
        match s.batchAll ⟨x, o, k, c == 1, u.fail⟩ ⟨0, 0, [], none, false, cs.length⟩ cs with
        | (y, s') =>
          let close (s : State) (y : Batch) : State :=
            ((s.dropRequests s.tid).unitsDone v u.placed u.excs 8 y.upto).batchEnd x d m t.vlen cap y
          if 0 < y.count then close s' y
          else match s'.takeNumber s'.tid 0 with
            | none => s.trap cCapacity 0 0
            | some (num, s') => close (s'.performNumber s'.tid 0 num) { y with last := num })

/-! ## Replay (R320 to R323) -/

/-- A malformed nest record. -/
def nestRecBad (r : List Byte) : Bool :=
  let dims := recField r 0 1
  dims == 0 || decide (6 < dims) || !recZero r 1 7 ||
  (List.range 6).any fun l => decide (dims ≤ l) && recField r (8 + 4 * l) 4 != 0

/-- rep n + 1 words: `c` is n less one. -/
def execRep (n c : BitVec 5) (s : State) : Out :=
  let word := Enc.rep n c
  .next (
    if s.me.rps.getLsbD 16 then s.illegal word .mode
    else s.issueRead (s.sr n) 32 true fun r s =>
      if nestRecBad r then s.illegal word .reservedField
      else
        let dims := recField r 0 1
        let bound : Vector (BitVec 32) 6 := Vector.ofFn fun l => BitVec.ofNat 32 (recField r (8 + 4 * l.val) 4)
        let t := s.me.retire
        if (List.range dims).any fun l => recField r (8 + 4 * l) 4 == 0 then
          s.setMe { t with pc := t.pc + w64 (4 * (c.toNat + 1)) }
        else
          let ix : Vector (BitVec 32) 6 := Vector.replicate 6 0
          s.setMe { (t.loadIx ix dims) with
            repBound := bound, repIx := ix,
            rps := w64 ((if t.sup then 2 ^ 17 else 0) + 2 ^ 16 + dims * 2 ^ 13 + c.toNat) })

/-! ## Timelines (R313, R315; 05 R136, R138) -/

/-- A decoded timeline name: the thread and the context, or how the name fails. -/
inductive TlName where
  | reserved | absent
  | ok (tid ctx : Nat)
  deriving DecidableEq, Repr

def State.tlName (s : State) (v : Word) : TlName :=
  let ctx := bits v 11 9
  if bits v 63 12 ≠ 0 ∨ 6 ≤ ctx then .reserved
  else match s.pairAt s.myPart (bits v 7 0) with
    | some l => .ok (2 * l + bits v 8 8) ctx
    | none => .absent

/-- Goes on with a timeline name. -/
def State.withTl (s : State) (word : BitVec 32) (v : Word) (k : Nat → Nat → State) : State :=
  match s.tlName v with
  | .reserved => s.illegal word .reservedField
  | .absent => s.trap cPermission 0 0
  | .ok tid ctx => k tid ctx

/-- tlsig (R138): takes a number; the counter reaches it once earlier accesses are performed. -/
def execTlsig (d : BitVec 5) (s : State) : Out :=
  .next (match s.takeNumber s.tid 5 with
    | none => s.trap cCapacity 0 0
    | some (num, s) => (s.commit s.tid 9 0 0 (.signal num) true true).result d (w64 num))

def execTlwait (n m : BitVec 5) (s : State) : Out :=
  .next (s.withTl (Enc.tlwait n m) (s.sr n) fun tid ctx =>
    if (s.sr m).toNat ≤ ((s.th tid).timeline ctx).ctr then s.retire else s)

/-- tlwait.chk (R315; 19 R403): reports the shortfalls up to the number, then LOSS. -/
def execTlwaitChk (n m : BitVec 5) (s : State) : Out :=
  let word := Enc.tlwaitChk n m
  .next (s.withTl word (s.sr n) fun tid ctx =>
    let k := (s.sr m).toNat
    if ctx ≠ 5 ∧ tid ≠ s.tid then s.illegal word .reservedField
    else if ((s.th tid).timeline ctx).ctr < k then s
    else if ctx = 5 then s.retire
    else
      let t := s.me
      let x := (t.short[ctx]?).getD ⟨[], false⟩
      match x.nums.filter fun q => decide (q ≤ k) with
      | q :: _ =>
        (s.setMe { t with short := t.short.setIfInBounds ctx { x with nums := x.nums.filter fun q => decide (k < q) } }).trap
          cShortfall 0 (w64 q)
      | [] =>
        if x.loss then
          (s.setMe { t with short := t.short.setIfInBounds ctx { x with loss := false } }).trap cShortfall 0 (BitVec.allOnes 64)
        else s.retire)

def execTlread (d n : BitVec 5) (s : State) : Out :=
  .next (s.withTl (Enc.tlread d n) (s.sr n) fun tid ctx => s.result d (w64 ((s.th tid).timeline ctx).ctr))

/-- THREAD_TIMELINE_SIGNAL. -/
def execThreadTimelineSignal (tid : BitVec 9) (n : Nat) (s : State) : Out :=
  .next (match s.pend.find? fun p => p.tid == tid.toNat && (match p.op with
      | .signal k => k == n
      | _ => false) with
    | some p => s.performSeq p.seq
    | none => s)

/-! ## Committed writes reach memory (04 R106; 05 R139, R141) -/

/-- WRITE_PERFORMED: a store or a scatter-add. -/
def execWritePerformed (seq : Nat) (s : State) : Out :=
  .next (match s.pend.find? fun p => p.seq == seq with
    | some p => (match p.op with
      | .store _ => s.performSeq seq
      | .nib .. => s.performSeq seq
      | .add .. => s.performSeq seq
      | _ => s)
    | none => s)

/-- NEAR_MEMORY_ADD. -/
def execNearMemoryAdd (seq : Nat) (s : State) : Out :=
  .next (match s.pend.find? fun p => p.seq == seq with
    | some p => if p.isNear then s.performSeq seq else s
    | none => s)

/-- REMOTE_REDUCE_ADD. -/
def execRemoteReduceAdd (seq : Nat) (s : State) : Out :=
  .next (match s.pend.find? fun p => p.seq == seq with
    | some p => (match p.op with
      | .packet .. => s.performSeq seq
      | _ => s)
    | none => s)

/-! ## Remote-reduce store (R324) -/

/-- Whether vrred admits an element type, a target format and S. -/
def rredOk (et tf : Nat) (sc : Bool) : Bool :=
  if et < 4 then (tf == 0 || tf == 1 || tf == 3) && !sc
  else if et < 6 then tf == 0 || tf == 1 || tf == 3
  else if 8 ≤ et then (tf == 12 || tf == 14) && !sc
  else false

/-- The exact element as the packet carries it: FP64 bits, or the integer extended to 64 bits. -/
def packetWord (et : Nat) (fz : Bool) (v : Nat) (scale : Option Nat) : Word :=
  if codeIsInt et then BitVec.ofInt 64 (codeInt et v)
  else
    let x := codeVal et fz v
    let x := match scale with
      | some b => x.scale ((b % 64 : Int) - 32)
      | none => x
    w64 (roundTo fmt64 ctlRne 0 0 x).1

/-- Splits consecutive packet elements by the memory that receives them. -/
def groupTargets (s : State) : List (Nat × Nat × Word) → List (List (Nat × Nat × Word)) → List (List (Nat × Nat × Word))
  | [], acc => acc.reverse
  | e :: rest, [] => groupTargets s rest [[e]]
  | e :: rest, g :: acc =>
    let key (a : Nat) : Region := match s.region a with
      | .peer d _ => .peer d 0
      | r => r
    match g.head? with
    | some h => if key h.1 == key e.1 then groupTargets s rest ((g ++ [e]) :: acc) else groupTargets s rest ([e] :: g :: acc)
    | none => groupTargets s rest ([e] :: acc)

/-- vrred (R324). Its elements count on no page: R67's table has no row for them (DEDUCED, log entry 30). -/
def execVrred (v : BitVec 6) (n : BitVec 5) (f : BitVec 4) (sc : BitVec 1) (c : BitVec 1) (k : BitVec 3) (s : State) : Out :=
  let t := s.me
  let word := Enc.vrred v n f sc c k
  let tf := f.toNat
  let wt := codeBytes tf
  let base := s.sr n
  .next (
    if !rredOk t.et tf (sc == 1) then s.illegal word .reservedField
    else match t.operand v t.group (codeNibbles t.et) false with
    | none => s.illegal word .absentRegister
    | some ov =>
      let go (osc : Option Operand) : State := s.vframe
        { srcs := [(v, ov)], maskSrcs := [], dst := .none, mask := k, neg := c == 1
          accs := fun _ _ i => [⟨base + w64 (i * wt), wt, wt, .reduce⟩]
          comp := fun s x i _ =>
            (some (packetWord t.et t.ctl.fz (s.elem x ov i) (osc.map fun o => s.elem x o (i / 32))).toNat, 0)
          hot := 3, noMp := false, accum := false
          limit := match osc with
            | some o => 32 * o.cap (s.lanesOf s.tid).count
            | none => 2 ^ 64
          bad := fun s x i => match osc with
            | some o => s.elemFails x o (i / 32)
            | none => false
          fin := fun s => s }
        fun s _ _ els =>
          let es := els.filterMap fun e => (e.own).map fun p => (p.at_.pa, e.i, w64 (e.v.getD 0))
          let va (i : Nat) : Word := base + w64 (i * wt)
          (groupTargets s es []).foldl (fun (s : State) g =>
            s.commit s.tid 9 (va ((g.head?.map (·.2.1)).getD 0)) ((g.head?.map (·.1)).getD 0) (.packet f t.fcs g (BitVec.ofNat 4 t.et)) false false) s
      if sc = 1 then
        match t.scaleReg v with
        | some o => go (some o)
        | none => s.illegal word .absentRegister
      else go none)

end Sys2Proof.Machine
end

