-- ==== Sys2Proof/Machine/Collective.lean ====
section
/-! DEFINITION. Collectives across devices (15 R325 to R328; 05 R144). What the other members bring comes with the event. -/

namespace Sys2Proof.Machine

/-! ## The record (R325) -/

def coSrc (r : List Byte) : Nat := recField r 0 8
def coDst (r : List Byte) : Nat := recField r 8 8
def coRec (r : List Byte) : Nat := recField r 0x10 8
def coN (r : List Byte) : Nat := recField r 0x18 8
def coP (r : List Byte) : Nat := recField r 0x24 1
def coRk (r : List Byte) : Nat := recField r 0x25 1
def coB (r : List Byte) : Nat := recField r 0x26 1
def coW (r : List Byte) : Nat := recField r 0x27 1 % 16
def coSc (r : List Byte) : Bool := recField r 0x27 1 / 16 % 2 == 1
def coMsk (r : List Byte) : Nat := recField r 0x28 2
def coRcv (r : List Byte) : Nat := recField r 0x2A 1
def coMem (r : List Byte) (k : Nat) : Nat := recField r (0x30 + k) 1

/-- The wire formats of creduce: FP32, BF16, or scaled FP8. -/
def wireOk (r : List Byte) : Bool :=
  let w := coW r
  ((w == 1 || w == 3) && !coSc r) || ((w == 4 || w == 5) && coSc r)

/-- Whether the record's formats are admitted for its function. -/
def formatsOk (op : CmdOp) (r : List Byte) : Bool :=
  let b := coB r
  match op with
  | .creduce => (b == 1 || b == 3) && wireOk r && coMsk r == 0 && coRcv r == 0
  | .cgather => decide (b < 16) && b != 6 && b != 7 && ((coW r == b && !coSc r) || ((b == 1 || b == 3) && wireOk r)) &&
      coMsk r == 0 && coRcv r == 0
  | _ => b == 0 && recField r 0x27 1 == 0 && decide (coRcv r < coP r) && decide (coMsk r < 2 ^ coP r) &&
      (List.range (coP r)).all fun k => (coMsk r).testBit k || k == coRcv r

/-- A record whose local fields are reserved, inadmissible, or that names another device at its rank (R326). -/
def State.collBad (s : State) (op : CmdOp) (r : List Byte) : Bool :=
  let p := coP r
  decide (2 ^ 32 ≤ coN r) || decide (p < 2) || decide (16 < p) || decide (p ≤ coRk r) || decide (32 ≤ recField r 0x27 1) ||
  !recZero r 0x2B 5 || (List.range 16).any (fun k => decide (p ≤ k) && coMem r k != 0) ||
  !formatsOk op r || coMem r (coRk r) != s.devn.toNat

/-! ## Encodings on the wire (R327) -/

/-- A format code a value travels in, and whether it is scaled FP8. -/
structure Coding where
  code : Nat
  sc : Bool
  deriving DecidableEq, Repr

def wireOf (r : List Byte) : Coding := ⟨coW r, coSc r⟩
/-- narrower(W, B). -/
def narrower (r : List Byte) : Coding := if coW r = 1 then ⟨coB r, false⟩ else wireOf r

/-- Encodes values, each with its element index, under a device's controls at a hop: the values as they decode, and the exceptions. `same`
says that they come from the wire's own format; `fz` that whoever decodes them reads subnormal operands as zero (07 R173). -/
def encodeWire (w : Coding) (c : Ctl) (hop : Nat) (same fz : Bool) (vs : List (Nat × Val)) : List Val × Exc :=
  let one (scale : Int) (e : Nat × Val) : Val × Exc :=
    match codeFmt w.code with
    | some f =>
      let r := convFloat f c (e.1 % 2 ^ 32) hop same (e.2.scale (-scale))
      ((f.operand fz r.1).scale scale, r.2)
    | none => (e.2, 0)
  let blocks : List (List (Nat × Val)) := if w.sc then
      (List.range ((vs.length + 31) / 32)).map fun b => (vs.drop (32 * b)).take 32
    else [vs]
  let r := blocks.map fun b =>
    let scale : Int := if w.sc then (blockExp (scaleMax false 0 (w.code == 4)) (b.map (·.2)) : Int) - 32 else 0
    b.map (one scale)
  (r.flatten.map (·.1), r.flatten.foldl (fun (a : Exc) x => a ||| x.2) 0)

/-- The code of a decoded value in the buffer format. -/
def bufferCode (b : Nat) (v : Val) : Nat :=
  match codeFmt b with
  | some f => (convFloat f ctlRne 0 0 true v).1
  | none => 0

/-- Element e of a member's input. -/
def inputCode (b : Nat) (bs : List Byte) (e : Nat) : Nat := leNat ((bs.drop (e * codeBytes b)).take (codeBytes b))

/-! ## The operations -/

/-- A member as the computation sees it: its input and its controls. -/
structure Rank where
  input : List Byte
  fcs : Word
  deriving DecidableEq, Repr

/-- Elements per chunk (R327). -/
def chunkLen (n p : Nat) (sc : Bool) : Nat := if sc then 32 * ((n + 32 * p - 1) / (32 * p)) else (n + p - 1) / p

/-- One chunk round its ring: decoded results and the exceptions raised at rank `me`. -/
def ringChunk (r : List Byte) (ranks : List Rank) (me c : Nat) (es : List Nat) : List Val × Exc :=
  let p := coP r
  let b := coB r
  let rank (k : Nat) : Rank := (ranks[k % p]?).getD ⟨[], 0⟩
  let val (k e : Nat) : Val := codeVal b (Ctl.of (rank k).fcs).fz (inputCode b (rank k).input e)
  let start := es.map fun e => (e, val (c + 1) e)
  let hops := (List.range (p - 1)).foldl (fun (acc : List (Nat × Val) × Exc) h =>
    let snd := (c + 1 + h) % p
    let rcv := (c + 2 + h) % p
    let rc := Ctl.of (rank rcv).fcs
    let q := encodeWire (wireOf r) (Ctl.of (rank snd).fcs) h false rc.fz acc.1
    let sums := (List.zip es q.1).map fun x => (x.1, roundTo fmt32 rc (x.1 % 2 ^ 32) h (x.2.add rc.rm (val rcv x.1)))
    let exc := acc.2 ||| (if snd = me then q.2 else 0) ||| (if rcv = me then sums.foldl (fun (a : Exc) x => a ||| x.2.2) 0 else 0)
    (sums.map fun x => (x.1, fmt32.operand rc.fz x.2.1), exc)) (start, (0 : Exc))
  let last := encodeWire (narrower r) (Ctl.of (rank c).fcs) (p - 1) false false hops.1
  (last.1, hops.2 ||| (if c = me then last.2 else 0))

/-- creduce's output codes and local exceptions. -/
def reduceOut (r : List Byte) (ranks : List Rank) : List Nat × Exc :=
  let n := coN r
  let p := coP r
  let k := chunkLen n p (coSc r)
  let chunks := (List.range p).map fun c =>
    ringChunk r ranks (coRk r) c ((List.range (Nat.min n (c * k + k) - c * k)).map (c * k + ·))
  ((chunks.flatMap (·.1)).map (bufferCode (coB r)), chunks.foldl (fun (a : Exc) x => a ||| x.2) 0)

/-- Elements of a member as cgather gives them, with the exceptions of their encoding. -/
def gatherPart (r : List Byte) (m : Rank) (es : List Nat) : List Nat × Exc :=
  let b := coB r
  let codes := es.map fun e => (e, inputCode b m.input e)
  if codeIsInt b then (codes.map (·.2), 0)
  else
    let c := Ctl.of m.fcs
    let w := narrower r
    let q := encodeWire w c 0 (w.code == b && !w.sc) false (codes.map fun x => (x.1, codeVal b c.fz x.2))
    (q.1.map (bufferCode b), q.2)

/-- cgather's output codes, rank after rank, and local exceptions (R328). -/
def gatherOut (r : List Byte) (ranks : List Rank) : List Nat × Exc :=
  let parts := (List.range (coP r)).map fun k => gatherPart r ((ranks[k]?).getD ⟨[], 0⟩) (List.range (coN r))
  (parts.flatMap (·.1), ((parts[coRk r]?).map (·.2)).getD 0)

/-- cxpar's parity. -/
def parityOut (r : List Byte) (ranks : List Rank) : List Byte :=
  (List.range (coN r)).map fun i =>
    (List.range (coP r)).foldl (fun (a : Byte) k =>
      if (coMsk r).testBit k then a ^^^ ((((ranks[k]?).getD ⟨[], 0⟩).input[i]?).getD 0) else a) 0

/-- Width, count requested, and bytes written at this member. -/
def collWidth (op : CmdOp) (r : List Byte) : Nat := if op = .cxpar then 1 else codeBytes (coB r)
def collCount (op : CmdOp) (r : List Byte) : Nat := if op = .cgather then coP r * coN r else coN r
/-- Bytes of DST, which each member translates in full (R326), and those of them it writes. -/
def collSpan (op : CmdOp) (r : List Byte) : Nat := collCount op r * collWidth op r
def collWrites (op : CmdOp) (r : List Byte) : Nat :=
  if op = .cxpar ∧ coRk r ≠ coRcv r then 0 else collSpan op r

/-- Output bytes and local exceptions. -/
def collOut (op : CmdOp) (r : List Byte) (ranks : List Rank) : List Byte × Exc :=
  let pack (x : List Nat × Exc) : List Byte × Exc := (x.1.flatMap fun v => leBytes (codeBytes (coB r)) v, x.2)
  match op with
  | .creduce => pack (reduceOut r ranks)
  | .cgather => pack (gatherOut r ranks)
  | _ => (parityOut r ranks, 0)

/-- The exceptions this member raises for element e of DST: those of its whole block where the wire is scaled. -/
def elemExc (op : CmdOp) (r : List Byte) (ranks : List Rank) (e : Nat) : Exc :=
  let n := Nat.max 1 (coN r)
  let i := e % n
  let es := if coSc r then (List.range (Nat.min n (i / 32 * 32 + 32) - i / 32 * 32)).map (i / 32 * 32 + ·) else [i]
  match op with
  | .creduce => (ringChunk r ranks (coRk r) (i / Nat.max 1 (chunkLen n (coP r) (coSc r))) es).2
  | .cgather => if e / n = coRk r then (gatherPart r ((ranks[coRk r]?).getD ⟨[], 0⟩) es).2 else 0
  | _ => 0

/-! ## Running a collective (R326) -/

/-- Watts a collective asks (20 R418). -/
def collWeight : Nat := 8

/-- Writes to DST the elements of the output that a list names. -/
def State.writeElems (s : State) (c : Cmd) (w : Nat) (es : List Nat) (out : List Byte) (ps : List (Piece × Phys)) : State :=
  let places : List Phys := ps.flatMap fun p => (List.range p.1.n).map fun i => { p.2 with pa := p.2.pa + i }
  es.foldl (fun (s : State) e => (List.range w).foldl (fun (s : State) i =>
    match places[e * w + i]?, out[e * w + i]? with
    | some x, some b => s.engineWrite c x [b]
    | _, _ => s) s) s

/-- Ends a collective that fails once its exchange began: each DST element holds its old or its final value, by a free choice; one whose final
value needs a byte this device lost keeps its old one. FLG has the roundings made here for the elements written, and some of those for the
others that could be made (R314, R326). -/
def State.cutShort (s : State) (c : Cmd) (ranks : List Rank) (known : Nat → Bool) (dst : List (Piece × Phys)) (d : Done) : State :=
  let r := c.record
  let w := collWidth c.op r
  let out := ((collOut c.op r ranks).1).take (collWrites c.op r)
  let n0 := s.freeCtr
  let could := (List.range (out.length / w)).filter known
  let made := could.filter fun e => Config.freeBit (n0 + e)
  let flags (es : List Nat) : Exc := es.foldl (fun (a : Exc) e => a ||| elemExc c.op r ranks e) 0
  let f := { s with freeCtr := n0 + out.length / w }.fresh
  (f.2.writeElems c w made out dst).endCmd c (coRec r) { d with flg := flags made ||| (flags could &&& (Config.freeWord f.1).extractLsb' 0 5) }

/-- The ranks in order, this device's own among them. -/
def ranksOf (r : List Byte) (own : Rank) (members : List CollMember) : List Rank :=
  (List.range (coP r)).map fun k =>
    if k = coRk r then own
    else match members.find? fun m => m.rank == k with
      | some m => ⟨m.input, m.fcs⟩
      | none => ⟨[], 0⟩

/-- Whether an event brings every other member. -/
def membersCover (r : List Byte) (members : List CollMember) : Bool :=
  (List.range (coP r)).all fun k => k == coRk r || members.any fun m => m.rank == k

/-- How another member's failure ends this one: cause "engine shortfall", DET 2 for a lost link, else 3. -/
def failedBy (m : CollMember) (req : Nat) : Done := ⟨0, cShortfall, 0, if m.fail = 2 then 2 else 3, 0, 0, req⟩

/-- A command's own contribution to another device: it stands for all that it sends there, and the command is performed once it is
acknowledged (05 R143, R144; log entry 14). -/
def State.share (s : State) (c : Cmd) (dev tag : Nat) (bs : List Byte) : State :=
  let t := s.th c.tid
  { s.setTh c.tid { t with obNext := t.obNext + 1 } with
    out := .share dev tag bs :: s.out
    obs := s.obs ++ [{ tid := c.tid, k := t.obNext, cmd := some (c.ctx, c.num), posted := true, addr := 0, len := bs.length, va := 0, pc := 0,
                       reply := .none, link := some (s.routePort dev), share := true }] }

/-- The ranks that consume a member's contribution: every other, or for cxpar the one that receives the parity. -/
def consumers (op : CmdOp) (r : List Byte) : List Nat :=
  (List.range (coP r)).filter fun k => k != coRk r && (op != .cxpar || (k == coRcv r && (coMsk r).testBit (coRk r)))

/-- Whether an element's output is known although the input was lost from element `lost` on: elements of a scaled block share its scale. -/
def knownOut (op : CmdOp) (r : List Byte) (lost e : Nat) : Bool :=
  let n := Nat.max 1 (coN r)
  if op = .cgather ∧ e / n ≠ coRk r then true
  else decide ((if coSc r then Nat.min n (e % n / 32 * 32 + 32) else e % n + 1) ≤ lost)

/-- Whether a member reads SRC: every one, but in cxpar those whose bytes the parity takes (R328). -/
def readsSrc (op : CmdOp) (r : List Byte) : Bool := op != .cxpar || (coMsk r).testBit (coRk r)

/-- The exchange, from translated SRC and DST. -/
def State.exchange (s : State) (c : Cmd) (members : List CollMember) (src dst : List (Piece × Phys)) : State :=
  let r := c.record
  let req := collCount c.op r
  let src := if readsSrc c.op r then src else []
  if (src ++ dst).any fun p => s.cmdWaits c p.2.pa p.1.n then s
  else match s.cmdReplies c (outReqs src) with
    | (none, s) => s
    | (some reps, s) =>
      let got := s.readPieces src reps []
      let input := got.1.flatten
      let ranks (pad : List Byte) : List Rank := ranksOf r ⟨input ++ pad, c.fcs⟩ members
      let w := collWidth c.op r
      match got.2 with
      | some (k, a) =>
        s.cutShort c (ranks (List.replicate (coN r * w) 0)) (knownOut c.op r (input.length / w)) dst (Done.failed 0 k a req)
      | none =>
        let to_ := (consumers c.op r).map (coMem r)
        match members.find? fun m => m.fail != 0 with
        | some m => s.cutShort c (ranks []) (fun _ => true) dst (failedBy m req)
        | none =>
          if !(to_.all s.reaches) then s.cutShort c (ranks []) (fun _ => true) dst ⟨0, cShortfall, 0, 2, 0, 0, req⟩
          else
            let out := collOut c.op r (ranks [])
            let s := to_.foldl (fun (s : State) dev => s.share c dev (recField r 0x20 4) input) s
            (s.writePieces c dst (out.1.take (collWrites c.op r))).endCmd c (coRec r) { Done.ok req with flg := out.2 }

/-- Runs a collective command with what its other members bring. -/
def State.runColl (members : List CollMember) (s : State) (c : Cmd) : State :=
  let r := c.record
  let req := collCount c.op r
  let mismatch : Done := ⟨0, cShortfall, 0, 1, 0, 0, req⟩
  if coRec r % 32 ≠ 0 then s.endCmd c 0 (Done.malformed req)
  else if s.collBad c.op r then s.endCmd c (coRec r) mismatch
  else if !membersCover r members then s
  else if members.any fun m => !m.agrees then s.endCmd c (coRec r) mismatch
  else s.withLeave c (pairOf c.tid / 32) collWeight fun s =>
    match s.plan (s.cmdWho c) .load (pagesOf (coSrc r) (coN r * collWidth c.op r)) [] with
    | (⟨_, _, true⟩, s) => s
    | (⟨_, some (a, f), false⟩, s) => s.endCmd c (coRec r) (Done.failed 0 f.cause a req)
    | (⟨src, none, false⟩, s) =>
      match s.planWrite c (coDst r) (collSpan c.op r) with
      | (⟨_, _, true⟩, s) => s
      | (⟨_, some (a, f), false⟩, s) => s.endCmd c (coRec r) (Done.failed 0 f.cause a req)
      | (⟨dst, none, false⟩, s) =>
        match members.find? fun m => m.fail != 0 && !m.late with
        | some m => s.endCmd c (coRec r) (failedBy m req)
        | none => s.exchange c members src dst

/-- COLLECTIVE_PERFORMED. -/
def execCollectivePerformed (tid : BitVec 9) (n : Nat) (members : List CollMember) (s : State) : Out :=
  .next (s.runCmd tid.toNat 1 n (State.runColl members))

/-- What a collective touches in scratchpads. -/
def collTouch (op : CmdOp) (r : List Byte) : List Touch :=
  (if readsSrc op r then [⟨coSrc r, coN r * collWidth op r, true⟩] else []) ++ [⟨coDst r, collWrites op r, false⟩] ++
  recTouch (coRec r)

/-- Issues a collective (R325). -/
def State.coll (s : State) (op : CmdOp) (n d : BitVec 5) : State :=
  s.commandRead 1 (s.sr n) 64 fun r s' =>
    let touch := if coRec r % 32 ≠ 0 || s'.collBad op r then recTouch (coRec r) else if coN r = 0 then [] else collTouch op r
    State.issueCmd s s' d ⟨1, op, r, [], [], touch⟩ fun _ s => s

def execCreduce (n d : BitVec 5) (s : State) : Out := .next (s.coll .creduce n d)
def execCgather (n d : BitVec 5) (s : State) : Out := .next (s.coll .cgather n d)
def execCxpar (n d : BitVec 5) (s : State) : Out := .next (s.coll .cxpar n d)

end Sys2Proof.Machine
end

