-- ==== Sys2Proof/Machine/NearMem.lean ====
section
/-! DEFINITION. Near-memory adds and their fences (16 R331 to R334; 05 R139, R140) and optimiser commands (16 R335 to R339). -/

namespace Sys2Proof.Machine

/-! ## Near-memory adds -/

/-- The element types of the near-memory adds (R331). -/
def nearType (et : Nat) : Bool := et == 1 || et == 3 || et == 12 || et == 13 || et == 14 || et == 15

/-- Goes on with the data group and the target addresses; for indexed forms the index group follows the data group (R331). -/
def State.withNear (s : State) (word : BitVec 32) (v : BitVec 6) (n : BitVec 5) (x : BitVec 1) (dest : Bool)
    (k : Operand → AddrFn → List (BitVec 6 × Operand) → State) : State :=
  let t := s.me
  let w := t.ebytes
  let nib := codeNibbles t.et
  if !nearType t.et then s.illegal word .reservedField
  else if x = 1 && decide (56 ≤ v.toNat) && decide (t.nregs ≤ 32) then s.illegal word .reservedField
  else match t.operand v t.group nib dest with
    | none => s.illegal word .absentRegister
    | some ov =>
      if x = 0 then k ov (unitAddr (s.sr n) w) []
      else
        let i := v + BitVec.ofNat 6 t.group
        if t.nregs ≤ v.toNat + t.group then s.illegal word .absentRegister
        else match t.operand i t.group nib false with
          | none => s.illegal word .absentRegister
          | some oi => k ov (indexAddr (s.sr n) w oi) [(i, oi)]

/-- The scan of a near-memory instruction, which meets no enabled exception (R332). -/
def State.nearScan (s : State) (sp : VSpec) : Option Outcome × State :=
  let t := s.me
  match (s.setMe { t with fcs := t.fcs &&& ~~~(0x1F0000 : Word) }).vscan sp with
  | (o, s) => (o, s.setMe { s.me with fcs := t.fcs })

/-- The frame of R199 around near-memory adds: `adds` makes those that answer, `extra` commits the others. -/
def State.nearFrame (s : State) (sp : VSpec) (adds : Outcome → State → Outcome × State)
    (extra : State → Lanes → Nat → List Elem → State) : State :=
  let t := s.me
  if t.vlen = 0 then s.vdone
  else
    let x := s.lanesOf s.tid
    if sp.capacity t x ≤ sp.startOf t then s.trap cCapacity 0 0
    else if sp.misplacedBlock t then s.trap cCapacity 0 0
    else match s.nearScan sp with
      | (none, s) => s
      | (some o, s) =>
        let r := adds o s
        match r.1.atLead (sp.startOf t) with
        | some f => r.2.faultAt f
        | none => r.2.vcommit sp extra x (sp.startOf t) r.1

/-- nmadd (R332): each active element is one add at memory. -/
def execNmadd (v : BitVec 6) (n : BitVec 5) (x : BitVec 1) (c : BitVec 1) (k : BitVec 3) (s : State) : Out :=
  .next (s.withNear (Enc.nmadd v n x c k) v n x false fun ov addr srcs =>
    let t := s.me
    s.nearFrame
      { srcs := (v, ov) :: srcs, maskSrcs := [], dst := .none, mask := k, neg := c == 1, accs := accsOf addr t.ebytes .near
        comp := fun s x i _ => (some (s.elem x ov i), 0), idx := srcs.map (·.1)
        hot := 3, noMp := false, accum := false, fin := fun s => s }
      (fun o s => (o, s))
      (fun s _ _ els =>
        let first := s.wseq
        els.foldl (fun (s : State) e => match e.own with
          | some p => s.commitNear s.tid p.acc.va p.at_.pa (BitVec.ofNat 4 t.et) t.fcs e.i (w64 (e.v.getD 0)) first
          | none => s) s))

/-- The target of an add among an element's accesses. -/
def Elem.target (e : Elem) : Option Placed := e.placed.find? fun p => p.acc.use == .near
/-- Whether an element's add meets an uncorrectable word. -/
def State.addLost (s : State) (fmt : Nat) (e : Elem) : Bool :=
  match e.target with
  | some p => s.lostIn p.at_.pa (codeBytes fmt)
  | none => false

/-- The adds of nmfadd in ascending order. Below `stop` each is performed and answers the old value. From `lost` on, the lowest element that
meets a lost word, each is performed or not by a free choice, and its value is discarded (R333). -/
def nearAdds (fmt : Nat) (fcs : Word) (stop lost : Nat) : List Elem → State → List Elem → State × List Elem
  | [], s, acc => (s, acc)
  | e :: rest, s, acc =>
    match e.target with
    | none => nearAdds fmt fcs stop lost rest s acc
    | some p =>
      let add (s : State) : State := s.memAdd s.tid p.at_.pa fmt fcs e.i (e.v.getD 0) p.acc.va (s.th s.tid).pc
      if e.i < stop then
        nearAdds fmt fcs stop lost rest (add s) (acc ++ [{ e with v := some (leNat (s.bytes p.at_.pa (codeBytes fmt))), exc := 0 }])
      else if e.i < lost then nearAdds fmt fcs stop lost rest s acc
      else
        let c := s.fresh
        nearAdds fmt fcs stop lost rest (if Config.freeBit c.1 && !s.addLost fmt e then add c.2 else c.2) acc

/-- The lowest element whose add meets a lost word (R333). -/
def State.nearLost (s : State) (els : List Elem) : Option (Nat × Fail) :=
  (els.find? fun e => s.addLost s.me.et e).map fun e => (e.i, Fail.lost ((e.target.map fun p => p.acc.va).getD 0))

/-- An outcome whose adds have been made: those below where it stops, and, where a lost word trimmed it, some of those above. -/
def State.nearOutcome (o : Outcome) (s : State) : Outcome × State :=
  let t := s.me
  let r := match o.late with
    | none => nearAdds t.et t.fcs (2 ^ 64) (2 ^ 64) o.els s []
    | some (k, above) => nearAdds t.et t.fcs o.stop k (o.els ++ above) s []
  ({ o with els := r.2 }, r.1)

/-- What nmfadd works on: its group is read and written. -/
def nearSpec (v : BitVec 6) (ov : Operand) (srcs : List (BitVec 6 × Operand)) (addr : AddrFn) (w : Nat) (c : BitVec 1) (k : BitVec 3) : VSpec :=
  { srcs := srcs, maskSrcs := [], dst := .reg v ov, mask := k, neg := c == 1, accs := accsOf addr w .near
    comp := fun s x i _ => (some (s.elem x ov i), 0), idx := srcs.map (·.1)
    hot := 3, noMp := false, accum := true, late := State.nearLost, fin := fun s => s }

/-- nmfadd (R332): the data group receives the values that stood before each add. -/
def execNmfadd (v : BitVec 6) (n : BitVec 5) (x : BitVec 1) (c : BitVec 1) (k : BitVec 3) (s : State) : Out :=
  .next (s.withNear (Enc.nmfadd v n x c k) v n x true fun ov addr srcs =>
    s.nearFrame
      (nearSpec v ov srcs addr s.me.ebytes c k) State.nearOutcome noExtra)

/-! ## Fences (R334) -/

/-- Performs the thread's near-memory operations, then goes on; it waits while one may not be performed. -/
def State.nearFence (s : State) (k : State → State) : State :=
  match s.drain fun p => p.tid == s.tid && p.isNear with
  | none => s
  | some s => k s

def execNmfence (s : State) : Out := .next (s.nearFence State.retire)
def execNmfenceRel (s : State) : Out := .next (s.nearFence fun s => (s.fenceRel s.tid true).retire)

/-! ## Optimiser commands -/

def opW (r : List Byte) : Nat := recField r 0 8
def opG (r : List Byte) : Nat := recField r 8 8
def opM (r : List Byte) : Nat := recField r 0x10 8
def opV (r : List Byte) : Nat := recField r 0x18 8
def opWb (r : List Byte) : Nat := recField r 0x20 8
def opRec (r : List Byte) : Nat := recField r 0x28 8
def opN (r : List Byte) : Nat := recField r 0x30 8
def opMoment (r : List Byte) : Bool := recField r 0x38 1 == 1
def opGz (r : List Byte) : Bool := recField r 0x39 1 == 1
/-- The FP32 field j of the block, from LR on. -/
def opF (r : List Byte) (j : Nat) : Nat := recField r (0x40 + 4 * j) 4

/-- A code of a finite FP32 number. -/
def finite32 (c : Nat) : Bool := c / 2 ^ 23 % 256 != 255

/-- A parameter block that breaks R335. -/
def opBad (r : List Byte) : Bool :=
  opW r % 4096 != 0 || opG r % 4096 != 0 || opM r % 4096 != 0 || opV r % 4096 != 0 || opWb r % 2048 != 0 || opRec r % 32 != 0 ||
  decide (2 ^ 40 < opN r) || decide (1 < recField r 0x38 1) || decide (1 < recField r 0x39 1) || !recZero r 0x3A 6 || !recZero r 0x60 32 ||
  (List.range 8).any (fun j => !finite32 (opF r j)) || (decide (2 ^ 31 < opF r 5)) ||
  (!opMoment r && (opV r != 0 || [2, 3, 4, 6, 7].any fun j => opF r j != 0))

/-- A value rounded to FP32 by the near-memory units and the scorer, with what it raised (R337, R344). -/
abbrev RVal := Val × Exc
def r32 (x : Val) : RVal :=
  let r := roundTo fmt32 ctlRne 0 0 x
  (fmt32.decode r.1, r.2)
def div32 (x y : Val) : RVal :=
  let q := x.div y
  let r := r32 q.1
  (r.1, r.2 ||| q.2)
def code32 (x : Val) : Nat := (roundTo fmt32 ctlRne 0 0 x).1
def vAdd (x y : Val) : Val := x.add 0 y
def vSub (x y : Val) : Val := x.add 0 y.negate
def val32 (c : Nat) : Val := fmt32.decode c

/-- Clipping factor of a block (R337). -/
def clipFactor (clip : Val) (g : List Val) : RVal :=
  let ss := g.foldl (fun (a : RVal) x => let r := r32 (vAdd a.1 (x.mul x)); (r.1, a.2 ||| r.2)) (Val.zero false, 0)
  let nrm := r32 ss.1.sqrt
  let e := ss.2 ||| nrm.2
  if !clip.isZero && !nrm.1.isNan && decide (clip.cmp nrm.1 < 0) then
    let s := div32 clip nrm.1
    (s.1, e ||| s.2)
  else (Val.ofInt 1, e)

/-- New weight, moments and exceptions of one element (R337). -/
structure OptOut where
  w : Val
  m : Val
  v : Val
  exc : Exc
  deriving DecidableEq, Repr

def optMomentum (lr b1 : Val) (h w m : Val) : OptOut :=
  let m' := r32 (vAdd (b1.mul m) h)
  let w' := r32 (vSub w (lr.mul m'.1))
  ⟨w'.1, m'.1, .zero false, m'.2 ||| w'.2⟩

def optMoment (lr b1 b2 eps wd bc1 bc2 a1 a2 : Val) (h w m v : Val) : OptOut :=
  let m' := r32 (vAdd (b1.mul m) (a1.mul h))
  let v' := r32 (vAdd (b2.mul v) ((a2.mul h).mul h))
  let q := r32 (v'.1.mul bc2)
  let root := r32 q.1.sqrt
  let den := r32 (vAdd root.1 eps)
  let num := r32 (m'.1.mul bc1)
  let u := div32 num.1 den.1
  let w' := r32 (vSub (vSub w (lr.mul u.1)) ((lr.mul wd).mul w))
  ⟨w'.1, m'.1, v'.1, m'.2 ||| v'.2 ||| q.2 ||| root.2 ||| den.2 ||| num.2 ||| u.2 ||| w'.2⟩

/-- One block: the new elements and the exceptions, from the codes of gradient, weights and moments. -/
def optBlock (r : List Byte) (g w m v : List Nat) : List OptOut × Exc :=
  let f (j : Nat) : Val := val32 (opF r j)
  let gv := g.map val32
  let cf := clipFactor (f 5) gv
  let a1 := r32 (vSub (Val.ofInt 1) (f 1))
  let a2 := r32 (vSub (Val.ofInt 1) (f 2))
  let one (j : Nat) : OptOut × Exc :=
    let at_ (l : List Nat) : Val := val32 ((l[j]?).getD 0)
    let h := if cf.1.cmp (Val.ofInt 1) = 0 then ((gv[j]?).getD (.zero false), (0 : Exc)) else r32 (((gv[j]?).getD (.zero false)).mul cf.1)
    (if opMoment r then optMoment (f 0) (f 1) (f 2) (f 3) (f 4) (f 6) (f 7) a1.1 a2.1 h.1 (at_ w) (at_ m) (at_ v)
      else optMomentum (f 0) (f 1) h.1 (at_ w) (at_ m), h.2)
  let os := (List.range g.length).map one
  (os.map (·.1), os.foldl (fun (a : Exc) o => a ||| o.1.exc ||| o.2) (cf.2 ||| a1.2 ||| a2.2))

/-- The five arrays as translated pieces: weights, gradient, moments, BF16 copy. -/
structure OptArr where
  base : Nat
  width : Nat
  ps : List (Piece × Phys)
  deriving DecidableEq, Repr

/-- System-physical address of element j. -/
def OptArr.at_ (a : OptArr) (j : Nat) : Nat :=
  let va := (a.base + j * a.width) % 2 ^ 64
  match a.ps.find? fun p => decide (p.1.va ≤ va) && decide (va < p.1.va + p.1.n) with
  | some p => p.2.pa + (va - p.1.va)
  | none => 0

def State.optRead (s : State) (a : OptArr) (js : List Nat) : List Nat := js.map fun j => leNat (s.bytes (a.at_ j) a.width)
/-- Lowest address of an uncorrectable word among the elements of an array. -/
def State.optLost (s : State) (a : OptArr) (js : List Nat) : List Nat :=
  if s.memLost.isEmpty then []
  else (js.filter fun j => s.lostIn (a.at_ j) a.width).map fun j => (a.base + j * a.width) % 2 ^ 64
def State.optWrite (s : State) (a : OptArr) (js : List Nat) (vs : List Nat) : State :=
  (List.zip js vs).foldl (fun (s : State) e => s.engineStore (a.at_ e.1) (leBytes a.width e.2)) s

/-- Where an optimiser command stands: elements updated, exceptions, lost addresses. -/
structure OptRun where
  done : Nat
  flg : Exc
  lost : List Nat
  deriving DecidableEq, Repr

/-- Runs one block, or leaves it untouched where a word of it is lost (R338). -/
def State.optOne (s : State) (r : List Byte) (w g m v : OptArr) (wb : Option OptArr) (js : List Nat) (o : OptRun) : State × OptRun :=
  let ins := (if opMoment r then [w, g, m, v] else [w, g, m]) ++ wb.toList
  let lost := ins.flatMap fun a => s.optLost a js
  if !lost.isEmpty then (s, { o with lost := o.lost ++ lost })
  else
    let b := optBlock r (s.optRead g js) (s.optRead w js) (s.optRead m js) (if opMoment r then s.optRead v js else [])
    let s := s.optWrite w js (b.1.map fun x => code32 x.w)
    let s := s.optWrite m js (b.1.map fun x => code32 x.m)
    let s := if opMoment r then s.optWrite v js (b.1.map fun x => code32 x.v) else s
    let s := if opGz r then s.optWrite g js (js.map fun _ => 0) else s
    let bf := b.1.map fun x => convFloat fmtBf ctlRne 0 0 false x.w
    let s := match wb with
      | some a => s.optWrite a js (bf.map (·.1))
      | none => s
    (s, { done := o.done + js.length, flg := o.flg ||| b.2 ||| (if wb.isSome then bf.foldl (fun (a : Exc) x => a ||| x.2) 0 else 0), lost := o.lost })

/-- The blocks below a limit, in ascending order (log entry 24). -/
def State.optAll (s : State) (r : List Byte) (w g m v : OptArr) (wb : Option OptArr) (limit : Nat) : State × OptRun :=
  (List.range ((limit + 1023) / 1024)).foldl (fun (a : State × OptRun) b =>
    a.1.optOne r w g m v wb ((List.range (Nat.min limit (1024 * b + 1024) - 1024 * b)).map (1024 * b + ·)) a.2) (s, ⟨0, 0, []⟩)

/-- Translates an array for update: the element, cause and address of its first failure. -/
def State.optPlan (s : State) (c : Cmd) (use : Use) (base width n : Nat) : (OptArr × Option (Nat × Nat × Nat) × Bool) × State :=
  match s.plan (s.cmdWho c) use (pagesOf base (n * width)) [] with
  | (p, s) =>
    -- the BF16 copy needs W alone, and the near-memory attribute too
    let off := p.got.find? fun q => !(q.2.kind == 0 && q.2.nm)
    let f : Option (Nat × Nat) := match off with
      | some q => some (q.1.va, cPermission)
      | none => p.fail.map fun e => (e.1, e.2.cause)
    ((⟨base, width, p.got⟩, f.map (fun e => ((e.1 + 2 ^ 64 - base) % 2 ^ 64 / width, e.2, e.1)), p.wait), s)

/-- The lowest failing element of the arrays, the first array winning a tie. -/
def lowestFail (l : List (Option (Nat × Nat × Nat))) : Option (Nat × Nat × Nat) :=
  l.foldl (fun a f => match a, f with
    | some x, some y => if y.1 < x.1 then some y else some x
    | none, y => y
    | x, none => x) none

/-- Runs an optimiser command (R336 to R338). -/
def State.runNmopt (s : State) (c : Cmd) : State :=
  let r := c.record
  let n := opN r
  if opBad r then s.endCmd c (if opRec r % 32 = 0 then opRec r else 0) (Done.malformed n)
  else if n = 0 then s.endCmd c (opRec r) (Done.ok 0)
  else
    let none_ : OptArr := ⟨0, 4, []⟩
    let w := s.optPlan c .near (opW r) 4 n
    let g := w.2.optPlan c .near (opG r) 4 n
    let m := g.2.optPlan c .near (opM r) 4 n
    let v := if opMoment r then m.2.optPlan c .near (opV r) 4 n else ((none_, none, false), m.2)
    let wb := if opWb r ≠ 0 then v.2.optPlan c .store (opWb r) 2 n else ((none_, none, false), v.2)
    let s' := wb.2
    if w.1.2.2 || g.1.2.2 || m.1.2.2 || v.1.2.2 || wb.1.2.2 then s'
    else
      let f := lowestFail [w.1.2.1, g.1.2.1, m.1.2.1, v.1.2.1, wb.1.2.1]
      let limit := match f with
        | some (e, _) => e / 1024 * 1024
        | none => n
      match s'.optAll r w.1.1 g.1.1 m.1.1 v.1.1 (if opWb r ≠ 0 then some wb.1.1 else none) limit with
      | (s, o) =>
        let d : Done := match o.lost, f with
          | a :: rest, _ => { Done.failed o.done cDataLost (rest.foldl Nat.min a) n with flg := o.flg }
          | [], some (_, k, a) => { Done.failed o.done k a n with flg := o.flg }
          | [], none => { Done.ok n with flg := o.flg }
        s.endCmd c (opRec r) d

/-- NMOPT_PERFORMED. -/
def execNmoptPerformed (tid : BitVec 9) (n : Nat) (s : State) : Out := .next (s.runCmd tid.toNat 2 n State.runNmopt)

/-- Reads a 128-byte block at issue, aligned to 64 bytes: one access that may span two pages (R336, R318).
It counts on no page, launch's record neither (02 R67; DEDUCED, log entry 30). -/
def State.blockLoad (s0 : State) (va : Word) : Got × State :=
  let w := s0.who s0.tid
  match s0.translate w va.toNat 64 .load with
  | (.fail f, s) => (.fail (Fail.ofT f va .load), s)
  | (.wait, s) => (.wait, s)
  | (.ok p, s) =>
    match s.translate w (va + 64).toNat 64 .load with
    | (.fail f, _) => (.fail (Fail.ofT f va .load), (s0.translate w (va + 64).toNat 64 .load).2)
    | (.wait, s) => (.wait, s)
    | (.ok q, s) =>
      let ps : List Placed := [⟨⟨va, 64, 64, .load⟩, p⟩, ⟨⟨va + 64, 64, 64, .load⟩, q⟩]
      match s.loadElems s.tid [(0, ps)] with
      | (⟨_, _, true⟩, s) => (.wait, s)
      | (⟨_, some (_, f), false⟩, s) => (.fail { f with addr := va, value := va }, s)
      | (⟨data, none, false⟩, s) => (.ok (data.flatMap fun e => e.2.flatten), s)

/-- nmopt (R336). -/
def execNmopt (n d : BitVec 5) (s : State) : Out :=
  .next (
    if (s.takeNumber s.tid 2).isNone then s.trap cCapacity 0 0
    else State.finish (s.blockLoad (s.sr n)) fun r s' =>
      let touch := if !opBad r && opN r = 0 then [] else recTouch (opRec r)
      State.issueCmd s s' d ⟨2, .nmopt, r, [], [], touch⟩ fun num s =>
        if !opBad r && opN r = 0 then s.runCmd s.tid 2 num State.runNmopt else s)

end Sys2Proof.Machine
end

