-- ==== Sys2Proof/Machine/KeyLookup.lean ====
section
/-! DEFINITION. The product-key lookup unit (16 R340 to R348). -/

namespace Sys2Proof.Machine

/-! ## The PK record -/

def pkK (r : List Byte) (h : Nat) : Nat := recField r (8 * h) 8
def pkVt (r : List Byte) : Nat := recField r 0x10 8
def pkVs (r : List Byte) : Nat := recField r 0x18 8
def pkD (r : List Byte) : Nat := recField r 0x20 2
def pkKh (r : List Byte) : Nat := recField r 0x22 2
def pkDv (r : List Byte) : Nat := recField r 0x24 2
def pkK1n (r : List Byte) : Nat := recField r 0x26 1
def pkKn (r : List Byte) : Nat := recField r 0x27 1
def pkVf (r : List Byte) : Nat := recField r 0x28 1
def pkTinv (r : List Byte) : Nat := recField r 0x2C 4

/-- A record that breaks R340. -/
def pkBad (r : List Byte) : Bool :=
  let d := pkD r
  let vf := pkVf r
  let range (lo hi v : Nat) : Bool := decide (lo ≤ v) && decide (v ≤ hi)
  pkK r 0 % 2 != 0 || pkK r 1 % 2 != 0 || !(vf == 1 || vf == 3 || vf == 6) ||
  pkVt r % (if vf = 1 then 4 else if vf = 3 then 2 else 16) != 0 || ((vf == 6) != (pkVs r != 0)) ||
  d % 2 != 0 || !range 2 1024 d || !range 1 4096 (pkKh r) || !range 1 4096 (pkDv r) || (vf == 6 && pkDv r % 32 != 0) ||
  !range 1 (Nat.min 64 (pkKh r)) (pkK1n r) || !range 1 (Nat.min 64 (pkK1n r * pkK1n r)) (pkKn r) ||
  !recZero r 0x29 3 || !recZero r 0x30 16 || !finite32 (pkTinv r) || pkTinv r == 0 || decide (2 ^ 31 ≤ pkTinv r)

/-- pkcfg (R342). -/
def execPkcfg (n : BitVec 5) (s : State) : Out :=
  .next (s.issueRead (s.sr n) 64 false fun r s =>
    if pkBad r then s.illegal (Enc.pkcfg n) .reservedField
    else (s.setMe { s.me with lookup := r }).retire)

/-! ## Scoring (R344) -/

/-- Fraction bits of the exponential's working precision: far more than one FP32 rounding can resolve. -/
def expBits : Nat := 256
/-- ln 2 at that precision: the sum of 1 / (k 2^k). -/
def lnTwo : Nat := (List.range 270).foldl (fun a k => a + 2 ^ expBits / ((k + 1) * 2 ^ (k + 1))) 0
/-- The series of the exponential for 0 ≤ r < ln 2. -/
def expSeries (r : Nat) : (fuel j term acc : Nat) → Nat
  | 0, _, _, acc => acc
  | f + 1, j, term, acc => let t := term * r / (2 ^ expBits * j); expSeries r f (j + 1) t (acc + t)
/-- exp of a value, exact where it is exact and otherwise with an inexact tail. -/
def Val.exp (x : Val) : Val :=
  match x with
  | .nan s => .nan s
  | .inf neg => if neg then .zero false else .inf false
  | .num neg m e _ =>
    if m = 0 then Val.ofInt 1
    else if 11 ≤ e + Nat.log2 m then (if neg then .num false 1 (-2000) true else .num false 1 2000 true)
    else
      let k : Int := e + expBits
      let f : Int := if 0 ≤ k then m * 2 ^ k.toNat else m / 2 ^ (-k).toNat
      let f := if neg then -f else f
      let q := f / (lnTwo : Int)
      let r := (f - q * lnTwo).toNat
      .num false (expSeries r 90 1 (2 ^ expBits) (2 ^ expBits)) (q - expBits) true

/-- The order of top: NaN below everything, -0 equal to +0. -/
def rankKey (c : Nat) : Int :=
  if (val32 c).isNan then -(2 ^ 40) else if 2 ^ 31 ≤ c then -((c % 2 ^ 31 : Nat) : Int) else c

/-- Inserts an (index, code) pair: larger values first, equal values by lower index. -/
def topInsert (p : Nat × Nat) : List (Nat × Nat) → List (Nat × Nat)
  | [] => [p]
  | q :: t =>
    if rankKey q.2 < rankKey p.2 || (rankKey q.2 == rankKey p.2 && decide (p.1 < q.1)) then p :: q :: t else q :: topInsert p t
def topOf (n : Nat) (l : List (Nat × Nat)) : List (Nat × Nat) := l.foldl (fun acc p => (topInsert p acc).take n) []

/-- A running FP32 dot product: the code and what it raised. -/
def dot32 (x k : List Nat) : Nat × Exc :=
  (List.zip x k).foldl (fun (a : Nat × Exc) p =>
    let r := roundTo fmt32 ctlRne 0 0 (vAdd (val32 a.1) ((fmtBf.decode p.1).mul (fmtBf.decode p.2)))
    (r.1, a.2 ||| r.2)) (0, 0)

def orAll (l : List Exc) : Exc := l.foldl (fun a b => a ||| b) 0

/-- A scored query: row indices, weights, exceptions. -/
structure Scored where
  rows : List Nat
  wts : List Nat
  exc : Exc
  deriving DecidableEq, Repr

/-- BF16 codes of a table from its bytes. -/
def half16 (bs : List Byte) (at_ n : Nat) : List Nat := (List.range n).map fun i => leNat ((bs.drop (at_ + 2 * i)).take 2)

/-- Scores one query against both half-key tables. -/
def pkScore (r : List Byte) (t1 t2 : List Byte) (x : List Nat) : Scored :=
  let h := pkD r / 2
  let kh := pkKh r
  let s (tab : List Byte) (q : List Nat) : List (Nat × Exc) := (List.range kh).map fun i => dot32 q (half16 tab (i * pkD r) h)
  let s1 := s t1 (x.take h)
  let s2 := s t2 (x.drop h)
  let idx (l : List (Nat × Exc)) : List (Nat × Nat) := l.zipIdx.map fun e => (e.2, e.1.1)
  let p := topOf (pkK1n r) (idx s1)
  let q := topOf (pkK1n r) (idx s2)
  let cand := p.flatMap fun a => q.map fun b => (a.1 * kh + b.1, roundTo fmt32 ctlRne 0 0 (vAdd (val32 a.2) (val32 b.2)))
  let best := topOf (pkKn r) (cand.map fun c => (c.1, c.2.1))
  let c0 := val32 ((best.head?.map (·.2)).getD 0)
  let es : List RVal := best.map fun c =>
    let d := r32 (vSub (val32 c.2) c0)
    let z := r32 (d.1.mul (val32 (pkTinv r)))
    let e := r32 z.1.exp
    (e.1, d.2 ||| z.2 ||| e.2)
  let z : RVal := match es with
    | [] => (Val.zero false, 0)
    | e :: rest => rest.foldl (fun (a : RVal) (o : RVal) => let r := r32 (vAdd a.1 o.1); (r.1, a.2 ||| r.2)) (e.1, 0)
  let ws := es.map fun e => div32 e.1 z.1
  ⟨best.map (·.1), ws.map fun w => code32 w.1,
    orAll (s1.map (·.2)) ||| orAll (s2.map (·.2)) ||| orAll (cand.map (·.2.2)) ||| orAll (es.map (·.2)) ||| z.2 ||| orAll (ws.map (·.2))⟩

/-! ## Value rows (R341, R345) -/

/-- The byte ranges of a value row: its elements, and its scale bytes. -/
def pkSpans (r : List Byte) (n : Nat) : List (Nat × Nat) :=
  let dv := pkDv r
  if pkVf r = 6 then [(pkVt r + n * dv / 2, dv / 2), (pkVs r + n * dv / 32, dv / 32)]
  else [(pkVt r + n * dv * codeBytes (pkVf r), dv * codeBytes (pkVf r))]

/-- A row with its translated pieces, elements and scales apart. -/
abbrev RowP := List (List (Piece × Phys))

/-- The bytes of translated pieces, each with the stack that holds it, and the virtual addresses of lost words. -/
def State.rowBytes (s : State) (ps : List (Piece × Phys)) : List (Byte × Nat) × List Nat :=
  (ps.flatMap (fun p => (s.bytes p.2.pa p.1.n).zipIdx.map fun b => (b.1, (p.2.pa + b.2) / 4096 % 12)),
    if s.memLost.isEmpty then []
    else ps.flatMap fun p => ((List.range p.1.n).filter fun i => s.lostIn (p.2.pa + i) 1).map fun i => (p.1.va + i) % 2 ^ 64 / 8 * 8)

/-- Element c of a row: its exact value and the stack of its first byte. -/
def rowElem (vf c : Nat) (data scales : List (Byte × Nat)) : Val × Nat :=
  if vf = 6 then
    let d := (data[c / 2]?).getD (0, 0)
    let sc := ((scales[c / 32]?).getD (0, 0)).1.toNat
    ((b4Val (sc / 64) (if c % 2 = 0 then d.1.toNat % 16 else d.1.toNat / 16)).scale ((sc % 64 : Int) - 32), d.2)
  else
    let w := codeBytes vf
    let bs := (data.drop (c * w)).take w
    (codeVal vf false (leNat (bs.map (·.1))), ((bs.head?).map (·.2)).getD 0)

/-- The weighted sum of one column over its stacks (R345). -/
def columnSum (terms : List (Val × Val × Nat)) : RVal :=
  let units := (List.range 12).filter fun u => terms.any fun t => t.2.2 == u
  let parts := units.map fun u => (terms.filter fun t => t.2.2 == u).foldl (fun (a : RVal) t =>
    let r := r32 (vAdd a.1 (t.1.mul t.2.1)); (r.1, a.2 ||| r.2)) ((Val.zero false, 0) : RVal)
  match parts with
  | [] => (Val.zero false, 0)
  | p :: rest => rest.foldl (fun (a : RVal) q => let r := r32 (vAdd a.1 q.1); (r.1, a.2 ||| r.2 ||| q.2)) p

/-- The sums of a query, their exceptions, and its lost addresses. -/
def State.pkSums (s : State) (r : List Byte) (wts : List Nat) (rows : List RowP) : List Nat × Exc × List Nat :=
  let read := rows.map fun row => row.map s.rowBytes
  let lost := read.flatMap fun row => row.flatMap (·.2)
  let part (row : List (List (Byte × Nat) × List Nat)) (k : Nat) : List (Byte × Nat) := ((row[k]?).map (·.1)).getD []
  let sums := (List.range (pkDv r)).map fun c =>
    columnSum ((List.zip wts read).map fun e =>
      let v := rowElem (pkVf r) c (part e.2 0) (part e.2 1)
      (val32 e.1, v.1, v.2))
  if lost.isEmpty then (sums.map (fun x => code32 x.1), orAll (sums.map (·.2)), [])
  else ((List.range (pkDv r)).map (fun _ => fmt32.nan), orAll (sums.map (·.2)), lost)

/-- Translates the value rows of a query, beside the translations its instruction uses (R347; 02 R55, R65). -/
def State.planRows (s : State) (w : Who) (ps : List Piece) (used : List Tlb) :
    Except (Option Fail) (List (Piece × Phys) × List Tlb) × State :=
  match translateAccs w s used (ps.map fun p => ⟨w64 p.va, p.n, 1, .lookup⟩) (s, used, []) none with
  | (.error e, s) => (.error e, s)
  | (.ok (_, used, placed), s) => (.ok (ps.zip (placed.map (·.at_)), used), s)

/-- Cuts a query's translated pieces back into rows. -/
def cutRows : List (List (List Piece)) → List (Piece × Phys) → List RowP
  | [], _ => []
  | row :: rest, ps =>
    let r := row.foldl (fun (a : RowP × List (Piece × Phys)) span => (a.1 ++ [a.2.take span.length], a.2.drop span.length)) ([], ps)
    r.1 :: cutRows rest r.2

/-! ## The batch (R343, R346, R347) -/

/-- Where a batch stands: finished queries with their bytes, exceptions, the lowest lost query with its address, the failing query; and the
translations in use, what its stream has read, where, and the exceptions of its decoding. -/
structure PkRun where
  outs : List (Nat × List Byte)
  exc : Exc
  lost : Option (Nat × Nat)
  pages : List Tlb
  fail : Option (Nat × Fail)
  wait : Bool
  placed : List (Nat × List Placed)
  excs : List (Nat × Exc)
  seen : Seen
  deriving DecidableEq, Repr

/-- A batch of which nothing is done. -/
def PkRun.start : PkRun := ⟨[], 0, none, [], none, false, [], [], ⟨[], []⟩⟩

/-- What a batch reads: its register, its mask, and the half-key tables. -/
structure PkIn where
  x : Lanes
  v : BitVec 6
  o : Operand
  r : List Byte
  t1 : List Byte
  t2 : List Byte
  k : BitVec 3
  neg : Bool

/-- Scores query q, whose elements stand in its register or window, and gathers its rows. `s0` is the state the query began with: one whose rows
fail leaves the marks of the failing walk alone (02 R49). -/
def State.pkRows (s0 s : State) (w : Who) (y : PkIn) (q : Nat) (b : PkRun) : PkRun × State :=
  let r := y.r
  let sc := pkScore r y.t1 y.t2 ((List.range (pkD r)).map fun i => s.elem y.x y.o (q * pkD r + i))
  let spans := sc.rows.map fun n => (pkSpans r n).map fun e => pagesOf e.1 e.2
  match s.planRows w (spans.flatMap (·.flatten)) b.pages with
  | (.error none, s) => ({ b with wait := true }, s)
  | (.error (some f), _) =>
    ({ b with exc := b.exc ||| sc.exc, fail := some (q, f) },
      if f.cause = cPageBudget then s0 else (s0.translateIn b.pages w f.addr.toNat 1 .lookup).2)
  | (.ok (ps, pages), s) =>
    let sums := s.pkSums r sc.wts (cutRows spans ps)
    let bytes := (sums.1 ++ sc.rows ++ sc.wts).flatMap (leBytes 4)
    -- which roundings the units made over a lost row is not stated: any of them may count
    let c := s.fresh
    let s' := if sums.2.2.isEmpty then s else c.2
    let exc := if sums.2.2.isEmpty then sums.2.1 else sums.2.1 &&& (Config.freeWord c.1).extractLsb' 0 5
    ({ b with
       outs := b.outs ++ [(q, bytes)], exc := b.exc ||| sc.exc ||| exc, pages := pages
       lost := match b.lost, sums.2.2 with
         | none, a :: rest => some (q, rest.foldl Nat.min a)
         | l, _ => l }, s')

/-- Takes one query: its stream, where its register is bound (03 R99), then its scores and rows. -/
def State.pkOne (s : State) (w : Who) (y : PkIn) (q : Nat) (b : PkRun) : PkRun × State :=
  let d := pkD y.r
  match s.unitStream s.me y.v y.o d (if s.active y.x y.k y.neg q then [q] else []) false b.pages b.seen with
  | (none, s) => ({ b with wait := true }, s)
  | (some u, s') =>
    match u.fail with
    | some f => ({ b with fail := some (q, f.2) }, s')
    | none =>
      if (y.k != 0 && s'.maskFails y.x y.k.toNat q) || (List.range d).any fun i => s'.elemFails y.x y.o (q * d + i) then
        ({ b with fail := some (q, Fail.lost 0) }, s')
      else s.pkRows s' w y q { b with pages := u.used, seen := u.seen, placed := b.placed ++ u.placed, excs := b.excs ++ u.excs }

def State.pkAll (s : State) (w : Who) (y : PkIn) (b : PkRun) : List Nat → PkRun × State
  | [] => (b, s)
  | q :: rest =>
    if b.wait || b.fail.isSome then (b, s)
    else
      let n := s.pkOne w y q b
      n.2.pkAll w y n.1 rest

/-- Reads a half-key table at issue: its bytes, a failure, or that it waits. -/
def State.pkTables (s : State) (r : List Byte) : Except (Option Fail) (List Byte × List Byte) × State :=
  let n := pkKh r * pkD r
  let p1 := pagesOf (pkK r 0) n
  let p2 := pagesOf (pkK r 1) n
  match s.plan (s.who s.tid) .load (p1 ++ p2) [] with
  | (⟨_, _, true⟩, s) => (.error none, s)
  | (⟨_, some (a, f), false⟩, s) => (.error (some (Fail.ofT f (w64 a) .load)), s)
  | (⟨ps, none, false⟩, s) =>
    if ps.any fun p => s.boardWaits p.2.pa p.1.n s.wseq then (.error none, s)
    else match s.keepReplies s.tid none (outReqs ps) with
      | (none, s) => (.error none, s)
      | (some reps, s) =>
        match s.readPieces ps reps [] with
        | (_, some (k, a)) => (.error (some ⟨k, w64 a, w64 a, noT, 0⟩), s)
        | (bs, none) => (.ok ((bs.take p1.length).flatten, (bs.drop p1.length).flatten), s)

/-- Bytes of a query's record area (R343). -/
def pkRs (r : List Byte) : Nat := (4 * pkDv r + 8 * pkKn r + 63) / 64 * 64
/-- First byte of the local window (01 R22). -/
def localWin : Nat := 0x00FF000000000000

/-- Accepts a batch once it is scored: the trim, the number, sd. `v` is its register. -/
def State.pkAccept (s : State) (v : BitVec 6) (d : BitVec 5) (r : List Byte) (area vl0 vl : Nat)
    (b : PkRun) : State :=
  let final := match b.fail with
    | some (q, _) => q
    | none => vl
  let outs := b.outs.filter fun e => decide (e.1 < final)
  let lost := match b.lost with
    | some (q, a) => if q < final then some (q, a) else none
    | none => none
  let dn : Done := match lost with
    | some (q, a) => ⟨q, cDataLost, 0, 0, b.exc, a, final⟩
    | none => { Done.ok final with flg := b.exc }
  let cmd : NewCmd := ⟨3, .pklook, r, outs.flatMap (·.2),
    [w64 area, w64 dn.done, w64 dn.cause, dn.flg.zeroExtend 64, w64 dn.addr, w64 dn.requested] ++ outs.map fun e => w64 e.1,
    [⟨area, 64 + vl * pkRs r, false⟩]⟩
  match s.accept s.tid cmd with
  | .wait => s
  | .exhausted => s.trap cCapacity 0 0
  | .ok num s =>
    let s := (s.dropRequests s.tid).unitsDone v b.placed b.excs (pkD r) final
    let s := match b.fail with
      | some (q, f) => s.setMe (s.me.noteTrim q f)
      | none => if vl < vl0 then s.setMe (s.me.noteTrim vl Fail.capacity) else s
    (s.setS d (w64 num)).vdone

/-- Runs a started lookup. What its issue releases goes to memory first (05 R135). -/
def State.pkRunAt (s0 : State) (v : BitVec 6) (o : Operand) (d : BitVec 5) (c : BitVec 1) (k : BitVec 3) (r : List Byte) (area vl : Nat) : State :=
  let x := s0.lanesOf s0.tid
  let num := (s0.me.timeline 3).last + 1
  -- a mask bit that fails its parity is met at its query
  let act := (List.range vl).filter fun q => (k != 0 && s0.maskFails x k.toNat q) || s0.active x k (c == 1) q
  match s0.drainCumulative s0.tid with
  | none => s0
  | some s =>
    if act.isEmpty then s.pkAccept v d r area s0.me.vlen vl PkRun.start
    else match s.pkTables r with
      | (.error none, s) => s
      | (.error (some f), s) => (s.dropCmdLeave s.tid 3 num).faultAt f
      | (.ok (t1, t2), s) =>
        match s.pkAll (s.who s.tid) ⟨x, v, o, r, t1, t2, k, c == 1⟩ PkRun.start act with
        | (b, u) =>
          if b.wait then u
          else match b.fail with
            | some (q, f) =>
              if some q == act.head? then (u.dropCmdLeave u.tid 3 num).faultAt f else u.pkAccept v d r area s0.me.vlen vl b
            | none => u.pkAccept v d r area s0.me.vlen vl b

/-- Watts a lookup asks (20 R418). -/
def pkWeight : Nat := 12

/-- pklook (R343, R348). -/
def execPklook (v : BitVec 6) (n d : BitVec 5) (c : BitVec 1) (k : BitVec 3) (s : State) : Out :=
  let t := s.me
  let word := Enc.pklook v n d c k
  let r := t.lookup
  let area := (s.sr n).toNat
  .next (
    if t.et ≠ 3 ∨ r = [] then s.illegal word .reservedField
    else match t.operand v t.group 4 false with
    | none => s.illegal word .absentRegister
    | some o =>
      match s.takeNumber s.tid 3 with
      | none => s.trap cCapacity 0 0
      | some (num, s1) =>
        if t.vlen = 0 then ((s1.performNumber s.tid 3 num).setS d (w64 num)).vdone
        else
          let vl := Nat.min (Nat.min t.vlen 64)
            (Nat.min (o.cap (s.lanesOf s.tid).count) (((t.bound v false).map Bind.left).getD (2 ^ 64)) / pkD r)
          let size := 64 + vl * pkRs r
          if vl = 0 then s.trap cCapacity 0 0
          else if area % 64 ≠ 0 then s.trap cMisaligned 0 (w64 area)
          else if area < localWin ∨ localWin + 0x3000000 < area + size then s.trap cPermission 0 (w64 area)
          else if 2 ≤ s.inFlight s.tid 3 ∨ !s.boardRoom (s.spans (s.who s.tid) [⟨area, size, false⟩]) then s
          else if s.cmdLeave s.tid 3 num then s.pkRunAt v o d c k r area vl
          else if s.cmdAsked s.tid 3 num then s
          else s.askLeave ⟨s.tid, false, 3, num, pkWeight, false⟩)

/-- Writes the records of a performed lookup, then its completion record (R346). -/
def State.runPklook (s : State) (c : Cmd) : State :=
  let r := c.record
  let f (j : Nat) : Nat := ((c.words[j]?).getD 0).toNat
  let area := f 0
  let base := scratchBase (s.physPair (pairOf c.tid)) + (area - localWin)
  let n := 4 * pkDv r + 8 * pkKn r
  let qs := c.words.drop 6
  if s.cmdWaits c base (64 + f 5 * pkRs r) then s
  else
    let s := qs.zipIdx.foldl (fun (s : State) e =>
      s.engineStore (base + 64 + e.1.toNat * pkRs r) ((c.extra.drop (e.2 * n)).take n)) s
    s.endCmd c area ⟨f 1, f 2, 0, 0, BitVec.ofNat 5 (f 3), f 4, f 5⟩

/-- PKLOOK_PERFORMED. -/
def execPklookPerformed (tid : BitVec 9) (n : Nat) (s : State) : Out := .next (s.runCmd tid.toNat 3 n State.runPklook)

end Sys2Proof.Machine
end

