-- ==== Sys2Proof/Machine/Sketch.lean ====
section
/-! DEFINITION. Sketch reconciliation: SKZ, building, exchanging and peeling (17 R349 to R361, R429; 05 R143). -/

namespace Sys2Proof.Machine

/-! ## SKZ (R354, R355) -/

def execSkset (n : BitVec 5) (s : State) : Out :=
  .next (if skzOk (s.sr n) then (s.setMe { s.me with skz := s.sr n }).retire else s.illegal (Enc.skset n) .reservedField)

/-- K, STEP and MAX of a class. -/
def skK (skz : Word) (c : Nat) : Nat := skz.toNat / 2 ^ (16 * c) % 32
def skStep (skz : Word) (c : Nat) : Nat := skz.toNat / 2 ^ (16 * c + 5) % 8
def skMax (skz : Word) (c : Nat) : Nat := skz.toNat / 2 ^ (16 * c + 8) % 32

def execSksetG (n d : BitVec 5) (s : State) : Out :=
  let v := s.sr n
  let z := s.me.skz
  let c := bits v 1 0
  .next (
    if bits v 63 2 ≠ 0 ∨ skK z c = 0 then s.illegal (Enc.sksetG n d) .reservedField
    else
      let k := skK z c + skStep z c
      if skStep z c = 0 ∨ skMax z c < k then s.result d 0
      else (s.setMe { s.me with skz := setBits z (16 * c + 4) (16 * c) k }).result d (w64 k))

/-! ## Hashes and cells (R350 to R353) -/

abbrev rotl17 (d : Word) : Word := d.rotateLeft 17

/-- Digest of an entry's words. -/
def digest (ws : List Word) : Word := ws.foldl (fun d w => rotl17 d + w) 0

def foldOf (key dig : Word) : BitVec 32 :=
  key.extractLsb' 0 32 ^^^ key.extractLsb' 32 32 ^^^ dig.extractLsb' 0 32 ^^^ dig.extractLsb' 32 32

/-- The check value g(fold). -/
def checkOf (f : BitVec 32) : BitVec 32 :=
  let h := (f ^^^ (f >>> 16)) * 0x7FEB352D#32
  h ^^^ (h >>> 15)

def hashMul (p : Nat) : BitVec 32 := if p = 0 then 0x6F4A7C19#32 else if p = 1 then 0xB5C18E2F#32 else 0x2F6BD3A1#32

/-- The cell of a fold in a partition at size k. -/
def cellOf (p : Nat) (f : BitVec 32) (k : Nat) : Nat := p * 2 ^ k + ((f * hashMul p) >>> (32 - k)).toNat

/-- A sketch cell. -/
structure Cell where
  count : BitVec 32
  check : BitVec 32
  keyx : Word
  digx : Word
  deriving DecidableEq, Repr

def Cell.isEmpty (c : Cell) : Bool := c.count == 0 && c.check == 0 && c.keyx == 0 && c.digx == 0
def Cell.ofBytes (b : List Byte) : Cell :=
  ⟨BitVec.ofNat 32 (recField b 0 4), BitVec.ofNat 32 (recField b 4 4), w64 (recField b 8 8), w64 (recField b 16 8)⟩
def Cell.bytes (c : Cell) : List Byte := leBytes 4 c.count.toNat ++ leBytes 4 c.check.toNat ++ leBytes 8 c.keyx.toNat ++ leBytes 8 c.digx.toNat

/-- Inserts an element with a sign into a cell. -/
def Cell.change (c : Cell) (sign : BitVec 32) (key dig : Word) : Cell :=
  ⟨c.count + sign, c.check ^^^ checkOf (foldOf key dig), c.keyx ^^^ key, c.digx ^^^ dig⟩

/-- Cells and bytes of a sketch of size k (R352). -/
def skCells (k : Nat) : Nat := 3 * 2 ^ k
def skBytes (k : Nat) : Nat := 32 + 24 * skCells k

/-! ## Command and set-class records (R349, R357) -/

def skSet (r : List Byte) : Nat := recField r 0 8
def skLoc (r : List Byte) : Nat := recField r 8 8
def skRem (r : List Byte) : Nat := recField r 0x10 8
def skDq (r : List Byte) : Nat := recField r 0x18 8
def skRec (r : List Byte) : Nat := recField r 0x20 8
def skPeer (r : List Byte) : Nat := recField r 0x28 1
def skCls (r : List Byte) : Nat := recField r 0x29 1 % 4

/-- Reserved bytes of a command record, and its completion-record address (R314). -/
def skFieldsBad (r : List Byte) : Bool := decide (4 ≤ recField r 0x29 1) || !recZero r 0x2A 22 || skRec r % 32 != 0

def setBase (r : List Byte) : Nat := recField r 0 8
def setCount (r : List Byte) : Nat := recField r 8 4
def setEsz (r : List Byte) : Nat := recField r 0xC 2
def setKoff (r : List Byte) : Nat := recField r 0xE 2
def setTag (r : List Byte) : Nat := recField r 0x14 4

/-- A command record that is malformed: a sketch it names is aligned to 64 bytes (R352; log entry 83), and so is the queue (R357). -/
def skRecBad (op : CmdOp) (r : List Byte) : Bool :=
  skFieldsBad r || skLoc r % 64 != 0 || (op != .skbuild && skRem r % 64 != 0) || (op == .skpeel && skDq r % 64 != 0)

/-- A set-class record that breaks R349. -/
def setBad (r : List Byte) : Bool :=
  let e := setEsz r
  let k := setKoff r
  let v := recField r 0x10 2
  setBase r % 8 != 0 || e % 8 != 0 || decide (e < 16) || decide (4096 < e) || k % 8 != 0 || decide (e < k + 8) || v % 8 != 0 ||
  decide (e < v + 8) || v == k || !recZero r 0x12 2 || !recZero r 0x18 8

/-- Size of the class a command names, as captured at issue; 0 when unset. -/
def Cmd.skSize (c : Cmd) : Nat := skK c.skz (skCls c.record)

/-! ## Areas -/

/-- A sketch area or queue: its address and translated pieces. -/
structure Area where
  base : Nat
  ps : List (Piece × Phys)
  deriving DecidableEq, Repr

/-- An area's translation: the area, its first failure, or that it waits. Sketch areas lie in the local window, in HBM or in a die pool
(R357). -/
def State.planArea (s : State) (c : Cmd) (use : Use) (base n : Nat) : (Area × Option (Nat × Nat) × Bool) × State :=
  match s.plan (s.cmdWho c) use (pagesOf base n) [] with
  | (p, s) =>
    let off := p.got.find? fun q => !(q.2.kind == 0 || q.2.kind == 1 || (q.2.kind == 4 && decide (localWin ≤ q.1.va)))
    let f : Option (Nat × Nat) := match off with
      | some q => some (cPermission, q.1.va)
      | none => p.fail.map fun e => (e.2.cause, e.1)
    let waits := p.wait || p.got.any fun q => s.cmdWaits c q.2.pa q.1.n
    ((⟨base, p.got⟩, f, f.isNone && waits), s)

/-- System-physical address of a byte of an area. -/
def Area.pa (a : Area) (off : Nat) : Nat :=
  let va := (a.base + off) % 2 ^ 64
  match a.ps.find? fun p => decide (p.1.va ≤ va) && decide (va < p.1.va + p.1.n) with
  | some p => p.2.pa + (va - p.1.va)
  | none => 0

def State.areaGet (s : State) (a : Area) (off n : Nat) : List Byte := (List.range n).map fun i => s.byte (a.pa (off + i))
def State.areaPut (s : State) (a : Area) (off : Nat) (bs : List Byte) : State :=
  -- a run inside one page goes as one write
  if a.pa off + bs.length = a.pa (off + bs.length - 1) + 1 then s.engineStore (a.pa off) bs
  else bs.zipIdx.foldl (fun (s : State) b => s.engineStore (a.pa (off + b.2)) [b.1]) s

/-- Reads an area whole: its bytes, or the address of its first byte in an uncorrectable word. -/
def State.areaRead (s : State) (a : Area) : Except Nat (List Byte) :=
  match s.readPieces a.ps [] [] with
  | (bs, none) => .ok bs.flatten
  | (_, some (_, va)) => .error va

def malformedSk (s : State) (c : Cmd) (req : Nat) : State :=
  s.endCmd c (if skRec c.record % 32 = 0 then skRec c.record else 0) (Done.malformed req)

/-- Runs a sketch command of one kind; an event of another kind than the command's is not enabled. -/
def State.runSketch (s : State) (tid num : Nat) (op : CmdOp) (body : State → Cmd → State) : State :=
  s.runCmd tid 4 num fun u c => if c.op = op then body u c else s

/-! ## Building (R358) -/

/-- What reading a word of the table gave. -/
inductive WordRead where
  | ok (w : Word)
  | lost
  | refused
  deriving DecidableEq, Repr

/-- A table word at a virtual address, from memory or from a reply. -/
def State.tableWord (s : State) (ps : List (Piece × Phys)) (reps : List (Nat × Reply)) (va : Nat) : WordRead :=
  match ps.find? fun p => decide (p.1.va ≤ va) && decide (va < p.1.va + p.1.n) with
  | none => .refused
  | some p =>
    if p.2.isOutbound then
      match reps.find? fun r => r.1 == p.2.pa with
      | some (_, .data bs) => .ok (w64 (leNat ((bs.drop (va - p.1.va)).take 8)))
      | _ => .refused
    else if s.lostIn (p.2.pa + (va - p.1.va)) 8 then .lost
    else .ok (s.word (p.2.pa + (va - p.1.va)))

/-- The words of an entry, up to the first that does not read. -/
def State.entryWords (s : State) (ps : List (Piece × Phys)) (reps : List (Nat × Reply)) : (n va : Nat) → Except Nat (List Word)
  | 0, _ => .ok []
  | n + 1, va =>
    match s.tableWord ps reps (va % 2 ^ 64) with
    | .lost => .error cDataLost
    | .refused => .error cPermission
    | .ok w => match s.entryWords ps reps n (va + 8) with
      | .ok ws => .ok (w :: ws)
      | .error k => .error k

/-- Inserts an element into a sketch in memory. -/
def State.skInsert (s : State) (loc : Area) (k : Nat) (key dig : Word) : State :=
  (List.range 3).foldl (fun (s : State) p =>
    let off := 32 + 24 * cellOf p (foldOf key dig) k
    s.areaPut loc off ((Cell.ofBytes (s.areaGet loc off 24)).change 1 key dig).bytes) s

/-- Inserts the entries below a stop point, in order: the elements inserted, and where and why it stopped sooner. -/
def State.skInsertAll (s : State) (c : Cmd) (loc : Area) (k : Nat) (ps : List (Piece × Phys)) (reps : List (Nat × Reply)) :
    (left e n : Nat) → State × Nat × Nat × Option Nat
  | 0, e, n => (s, e, n, none)
  | left + 1, e, n =>
    let set := c.extra
    match s.entryWords ps reps (setEsz set / 8) (setBase set + e * setEsz set) with
    | .error f => (s, e, n, some f)
    | .ok ws =>
      let key := (ws[setKoff set / 8]?).getD 0
      if key = 0 then s.skInsertAll c loc k ps reps left (e + 1) n
      else State.skInsertAll (s.skInsert loc k key (digest ws)) c loc k ps reps left (e + 1) (n + 1)

def skHeader (k tag n : Nat) : List Byte := leBytes 1 k ++ leBytes 3 0 ++ leBytes 4 tag ++ leBytes 8 n ++ leBytes 16 0

def State.runSkbuild (s : State) (c : Cmd) : State :=
  let r := c.record
  let set := c.extra
  let k := c.skSize
  let count := setCount set
  if skRecBad .skbuild r || k = 0 || setBad set then malformedSk s c count
  else match s.planArea c .store (skLoc r) (skBytes k) with
    | ((_, _, true), s) => s
    | ((_, some (f, a), false), s) => s.endCmd c (skRec r) (Done.failed 0 f a (Nat.max 1 count))
    | ((loc, none, false), s) =>
      match s.plan (s.cmdWho c) .load (pagesOf (setBase set) (count * setEsz set)) [] with
      | (⟨_, _, true⟩, s) => s
      | (⟨ps, tf, false⟩, s) =>
        if ps.any fun p => s.cmdWaits c p.2.pa p.1.n then s
        else match s.cmdReplies c (outReqs ps) with
          | (none, s) => s
          | (some reps, s) =>
            let entry (va : Nat) : Nat := (va + 2 ^ 64 - setBase set) % 2 ^ 64 / setEsz set
            let stop := match tf with
              | some (va, _) => entry va
              | none => count
            let s := (List.range (skCells k)).foldl (fun (s : State) i => s.areaPut loc (32 + 24 * i) (leBytes 24 0)) s
            match s.skInsertAll c loc k ps (List.zip ((outReqs ps).map (·.1)) reps) stop 0 0 with
            | (s, e, n, f) =>
              let s := s.areaPut loc 0 (skHeader k (setTag set) n)
              let at_ := (setBase set + e * setEsz set) % 2 ^ 64
              s.endCmd c (skRec r) (match f, tf with
                | some f, _ => Done.failed e f at_ count
                | none, some (_, f) => Done.failed e f.cause at_ count
                | none, none => Done.ok count)

/-- SKBUILD_PERFORMED. -/
def execSkbuildPerformed (tid : BitVec 9) (n : Nat) (s : State) : Out := .next (s.runSketch tid.toNat n .skbuild State.runSkbuild)

/-! ## Exchanging (R359) -/

/-- A header with a reserved bit set or a size out of range. -/
def hdrBad (h : List Byte) : Bool := decide (recField h 0 1 < 2) || decide (20 < recField h 0 1) || !recZero h 1 3 || !recZero h 16 16

/-- The end of an exchange by the peer, or by a mismatch: CAUSE 11 with a DET. -/
def xchgEnd (det : Nat) : Done := ⟨0, cShortfall, 0, det, 0, 0, 1⟩

/-- Whether a command's peer can be reached. -/
def State.skReaches (s : State) (peer : Nat) : Bool := decide (16 ≤ peer) && s.devn != 0 && peer != s.devn.toNat && decide (peer < 128) && s.reaches peer

/-- The exchange proper, with both headers good: the local sketch is sent, and the peer's is written (R359; 05 R143). -/
def State.skSwap (s : State) (c : Cmd) (k : Nat) (peer : SkPeer) : State :=
  let r := c.record
  let n := skBytes k
  match s.planArea c .load (skLoc r) n with
  | ((_, _, true), s) => s
  | ((_, some (f, a), false), s) => s.endCmd c (skRec r) (Done.failed 0 f a n)
  | ((loc, none, false), s) =>
    match s.planArea c .store (skRem r) n with
    | ((_, _, true), s) => s
    | ((_, some (f, a), false), s) => s.endCmd c (skRec r) (Done.failed 0 f a n)
    | ((rem, none, false), s) =>
      match s.areaRead loc with
      | .error a => s.endCmd c (skRec r) (Done.failed 0 cDataLost a n)
      | .ok own =>
        match peer with
        | .failed => s.endCmd c (skRec r) (xchgEnd 3)
        | .halted => s.endCmd c (skRec r) (xchgEnd 3)
        | .linkLost => s.endCmd c (skRec r) (xchgEnd 2)
        | .sketch bs =>
          if bs.length ≠ n then s
          else
            let s := s.share c (skPeer r) (recField own 4 4) own
            (s.writePieces c rem.ps bs).endCmd c (skRec r) (Done.ok n)

/-- The TAG in the header of the sketch a command names, where it can be read. -/
def State.skTagOf (s : State) (c : Cmd) : Option Nat :=
  match s.planArea c .load (skLoc c.record) 32 with
  | ((loc, none, false), s) => (s.areaRead loc).toOption.map fun h => recField h 4 4
  | _ => none

/-- Whether an exchange accepted earlier with the same peer and TAG is unmatched: commands match earliest first (R359). -/
def State.skBehind (s : State) (c : Cmd) (tag : Nat) : Bool :=
  (s.cmds.takeWhile fun o => !o.isOf c.tid c.ctx c.num).any fun o =>
    o.op == .skxchg && skPeer o.record == skPeer c.record && !skRecBad .skxchg o.record && o.skSize != 0 && s.skTagOf o == some tag

def State.runSkxchg (peer : SkPeer) (s : State) (c : Cmd) : State :=
  let r := c.record
  let k := c.skSize
  if skRecBad .skxchg r || k = 0 then malformedSk s c 1
  else if !s.skReaches (skPeer r) then s.endCmd c (skRec r) (xchgEnd 2)
  else match s.planArea c .load (skLoc r) 32 with
    | ((_, _, true), s) => s
    | ((_, some (f, a), false), s) => s.endCmd c (skRec r) (Done.failed 0 f a 1)
    | ((loc, none, false), s) =>
      match s.areaRead loc with
      | .error a => s.endCmd c (skRec r) (Done.failed 0 cDataLost a 1)
      | .ok h =>
        let peerBad := match peer with
          | .sketch bs => hdrBad bs || recField bs 0 1 != recField h 0 1
          | _ => false
        let unmatched := match peer with
          | .sketch bs => decide (bs.length < 32) || recField bs 4 4 != recField h 4 4
          | _ => false
        if unmatched || s.skBehind c (recField h 4 4) then s
        else if hdrBad h then s.endCmd c (skRec r) (match peer with
          | .sketch _ => xchgEnd 1
          | .linkLost => xchgEnd 2
          | _ => xchgEnd 3)
        else if recField h 0 1 ≠ k then malformedSk s c 1
        else if peerBad then s.endCmd c (skRec r) (xchgEnd 1)
        else s.skSwap c k peer

/-- SKXCHG_PERFORMED. -/
def execSkxchgPerformed (tid : BitVec 9) (n : Nat) (peer : SkPeer) (s : State) : Out :=
  .next (s.runSketch tid.toNat n .skxchg (State.runSkxchg peer))

/-! ## Peeling (R360, R361) -/

/-- Whether a cell holds one element, as far as its check tells. -/
def Cell.pure (c : Cell) : Bool := (c.count == 1 || c.count == -1) && c.keyx != 0 && c.check == checkOf (foldOf c.keyx c.digx)

/-- Removes an element from its three cells. -/
def removeElem (k : Nat) (sign : BitVec 32) (key dig : Word) (d : List Cell) : List Cell :=
  (List.range 3).foldl (fun (d : List Cell) p =>
    let i := cellOf p (foldOf key dig) k
    match d[i]? with
    | some c => d.set i (c.change (-sign) key dig)
    | none => d) d

/-- Where a peel stands: cells and queue entries (key, digest, side). -/
abbrev PeelSt := List Cell × List (Word × Word × Nat)

/-- One ascending pass over the cells. -/
def peelPass (k : Nat) (p : PeelSt) : PeelSt :=
  (List.range (skCells k)).foldl (fun (p : PeelSt) i =>
    match p.1[i]? with
    | some c =>
      if decide (p.2.length < skCells k) && c.pure then
        (removeElem k c.count c.keyx c.digx p.1, p.2 ++ [(c.keyx, c.digx, if c.count = 1 then 0 else 1)])
      else p
    | none => p) p

/-- Passes until one emits nothing. -/
def peelAll (k : Nat) : (fuel : Nat) → PeelSt → PeelSt
  | 0, p => p
  | f + 1, p => let q := peelPass k p; if q.2.length = p.2.length then q else peelAll k f q

/-- The cells of a sketch. -/
def cellsOf (k : Nat) (bs : List Byte) : List Cell := (List.range (skCells k)).map fun i => Cell.ofBytes ((bs.drop (32 + 24 * i)).take 24)

/-- The difference of two sketches, cell by cell. -/
def skDiff (a b : List Cell) : List Cell :=
  (List.zip a b).map fun p => ⟨p.1.count - p.2.count, p.1.check ^^^ p.2.check, p.1.keyx ^^^ p.2.keyx, p.1.digx ^^^ p.2.digx⟩

/-- The peel of two sketches of size k. -/
def peelOf (k : Nat) (loc rem : List Byte) : PeelSt := peelAll k (skCells k + 1) (skDiff (cellsOf k loc) (cellsOf k rem), [])

/-- Watts a peel asks (20 R418). -/
def peelWeight : Nat := 6

/-- The peel proper, with both headers good. -/
def State.skPeelMain (s : State) (c : Cmd) (k : Nat) : State :=
  let r := c.record
  let n := skBytes k
  let stop (f a : Nat) (s : State) : State := s.endCmd c (skRec r) (Done.failed 0 f a 1)
  match s.planArea c .load (skLoc r) n with
  | ((_, _, true), s) => s
  | ((_, some (f, a), false), s) => stop f a s
  | ((_, none, false), s) =>
  match s.planArea c .store (skLoc r) n with
  | ((_, _, true), s) => s
  | ((_, some (f, a), false), s) => stop f a s
  | ((loc, none, false), s) =>
  match s.planArea c .load (skRem r) n with
  | ((_, _, true), s) => s
  | ((_, some (f, a), false), s) => stop f a s
  | ((rem, none, false), s) =>
  match s.planArea c .store (skDq r) (24 * skCells k) with
  | ((_, _, true), s) => s
  | ((_, some (f, a), false), s) => stop f a s
  | ((dq, none, false), s) =>
    match s.areaRead loc, s.areaRead rem with
    | .error a, _ => stop cDataLost a s
    | _, .error a => stop cDataLost a s
    | .ok lb, .ok rb =>
      let p := peelOf k lb rb
      let s := p.2.zipIdx.foldl (fun (s : State) e =>
        s.areaPut dq (24 * e.2) (leBytes 8 e.1.1.toNat ++ leBytes 8 e.1.2.1.toNat ++ leBytes 8 e.1.2.2)) s
      let s := p.1.zipIdx.foldl (fun (s : State) e => s.areaPut loc (32 + 24 * e.2) e.1.bytes) s
      let m := p.2.length
      s.endCmd c (skRec r) (match p.1.findIdx? fun x => !x.isEmpty with
        | none => Done.ok m
        | some i => ⟨m, cPeel, 0, 0, 0, (skLoc r + 32 + 24 * i) % 2 ^ 64, m + 1⟩)

def State.runSkpeel (s : State) (c : Cmd) : State :=
  let r := c.record
  let k := c.skSize
  if skRecBad .skpeel r || k = 0 then malformedSk s c 1
  else s.withLeave c (pairOf c.tid / 32) peelWeight fun s =>
    match s.planArea c .load (skLoc r) 32 with
    | ((_, _, true), s) => s
    | ((_, some (f, a), false), s) => s.endCmd c (skRec r) (Done.failed 0 f a 1)
    | ((loc, none, false), s) =>
    match s.planArea c .load (skRem r) 32 with
    | ((_, _, true), s) => s
    | ((_, some (f, a), false), s) => s.endCmd c (skRec r) (Done.failed 0 f a 1)
    | ((rem, none, false), s) =>
      match s.areaRead loc, s.areaRead rem with
      | .error a, _ => s.endCmd c (skRec r) (Done.failed 0 cDataLost a 1)
      | _, .error a => s.endCmd c (skRec r) (Done.failed 0 cDataLost a 1)
      | .ok lh, .ok rh =>
        if hdrBad lh || hdrBad rh || recField lh 0 1 != k || recField rh 0 1 != k || recField lh 4 4 != recField rh 4 4 then malformedSk s c 1
        else s.skPeelMain c k

/-- SKPEEL_PERFORMED. -/
def execSkpeelPerformed (tid : BitVec 9) (n : Nat) (s : State) : Out := .next (s.runSketch tid.toNat n .skpeel State.runSkpeel)

/-! ## Issue (R357, R429) -/

/-- The bytes a sketch command is taken to write and read (R429). -/
def skTouch (op : CmdOp) (k : Nat) (r set : List Byte) : List Touch :=
  let n := skBytes k
  (match op with
    | .skbuild => [⟨skLoc r, n, false⟩, ⟨setBase set, setCount set * setEsz set, true⟩]
    | .skxchg => [⟨skRem r, n, false⟩, ⟨skLoc r, n, true⟩]
    | _ => [⟨skLoc r, n, false⟩, ⟨skDq r, 24 * skCells k, false⟩, ⟨skLoc r, n, true⟩, ⟨skRem r, n, true⟩]) ++ recTouch (skRec r)

/-- Issues a sketch command. -/
def State.skIssue (s : State) (op : CmdOp) (n d : BitVec 5) : State :=
  if (s.takeNumber s.tid 4).isNone then s.trap cCapacity 0 0
  else State.finish (s.keepLoad (s.sr n) 64) fun r s1 =>
    let k := skK s1.me.skz (skCls r)
    let go (set : List Byte) (s2 : State) : State :=
      let touch := if k = 0 then [] else skTouch op k r set
      State.issueCmd s1 (s2.dropRequests s2.tid) d ⟨4, op, r, set, [], touch⟩ fun _ s => s
    if op = .skbuild then State.finish (s1.keepLoad (w64 (skSet r)) 32) go
    else go [] s1

def execSkbuild (n d : BitVec 5) (s : State) : Out := .next (s.skIssue .skbuild n d)
def execSkxchg (n d : BitVec 5) (s : State) : Out := .next (s.skIssue .skxchg n d)
def execSkpeel (n d : BitVec 5) (s : State) : Out := .next (s.skIssue .skpeel n d)

end Sys2Proof.Machine
end

