-- ==== Sys2Proof/Machine/Launch.lean ====
section
/-! DEFINITION. Launch records, launch queues and intake (18 R367 to R376), iterations, their placement, gates and preconditions
(R378 to R381), the choice of what a free thread runs (R384, R385), and dispatch (R382). -/

namespace Sys2Proof.Machine

/-! ## Launch records (R374, R375) -/

def lrLevels (r : List Byte) : Nat := recField r 0x18 1
def lrPrio (r : List Byte) : Nat := recField r 0x19 1 % 4
def lrPre (r : List Byte) : Nat := recField r 0x1A 1
def lrBound (r : List Byte) (l : Nat) : Nat := recField r (0x20 + 8 * l) 4
def lrKind (r : List Byte) (l : Nat) : Nat := recField r (0x24 + 8 * l) 1
def lrRank (r : List Byte) (l : Nat) : Nat := recField r (0x25 + 8 * l) 1
/-- Precondition i: its name and number. -/
def lrName (r : List Byte) (i : Nat) : Word := w64 (recField r (0x50 + 16 * i) 8)
def lrNum (r : List Byte) (i : Nat) : Nat := recField r (0x58 + 16 * i) 8

/-- A timeline name R313 admits in a partition of p pairs. -/
def nameOk (p : Nat) (v : Word) : Bool := bits v 63 12 == 0 && decide (bits v 11 9 < 6) && decide (bits v 7 0 < p)

/-- A malformed record, for a partition of p pairs. -/
def lrBad (p : Nat) (r : List Byte) : Bool :=
  let n := lrLevels r
  let ls := List.range n
  !recZero r 0x1B 5 || !recZero r 0x78 8 || decide (4 ≤ recField r 0x19 1) || recField r 0x76 2 / 16 != 0 ||
  recField r 0 8 % 4 != 0 || recField r 0x10 8 % 4 != 0 ||
  n == 0 || decide (6 < n) || decide (2 < lrPre r) ||
  ls.any (fun l => lrBound r l == 0 || decide (2 < lrKind r l) || !recZero r (0x26 + 8 * l) 2) ||
  !(ls.all fun k => ls.any fun l => lrRank r l == k) ||
  decide (1 < (ls.filter fun l => lrKind r l != 0).length) ||
  !recZero r (0x20 + 8 * n) (8 * (6 - n)) || !recZero r (0x50 + 16 * lrPre r) (16 * (2 - lrPre r)) ||
  decide (2 ^ 48 ≤ ls.foldl (fun a l => a * lrBound r l) 1) ||
  (List.range (lrPre r)).any fun i => !nameOk p (lrName r i)

/-- Iterations of a record. -/
def lrTotal (r : List Byte) : Nat := (List.range (lrLevels r)).foldl (fun a l => a * lrBound r l) 1
/-- Product of the bounds of the levels ranked below level l. -/
def lrStride (r : List Byte) (l : Nat) : Nat :=
  (List.range (lrLevels r)).foldl (fun a m => if lrRank r m < lrRank r l then a * lrBound r m else a) 1
/-- Index of iteration e at level l (R378); 0 at or above LEVELS. -/
def lrIndex (r : List Byte) (e l : Nat) : Nat :=
  if l < lrLevels r then e / lrStride r l % Nat.max 1 (lrBound r l) else 0

/-! ## Launch queues (R372) -/

def Part.queue (p : Part) (prio : Nat) : LaunchQ := (p.lq[prio]?).getD ⟨0, 0, 0, 0⟩
def Part.setQueue (p : Part) (prio : Nat) (q : LaunchQ) : Part := { p with lq := p.lq.setIfInBounds prio q }
def LaunchQ.full (q : LaunchQ) : Bool := q.tail - q.head == q.cap
/-- System-physical address of record j. -/
def LaunchQ.at_ (q : LaunchQ) (j : Nat) : Nat := q.base.toNat + j % Nat.max 1 q.cap * 128
/-- A record of a queue. -/
def State.queued (s : State) (q : LaunchQ) (j : Nat) : List Byte := s.bytes (q.at_ j) 128

/-- Appends a record at a priority, which it then carries in PRIO. -/
def State.append (s : State) (part prio : Nat) (r : List Byte) : State :=
  let p := s.part part
  let q := p.queue prio
  (s.sysWrite (q.at_ q.tail) (r.take 0x19 ++ leBytes 1 prio ++ r.drop 0x1A)).setPart part
    (p.setQueue prio { q with tail := q.tail + 1 })

/-- launch (R376). -/
def execLaunch (n : BitVec 5) (s : State) : Out :=
  let va := s.sr n
  .next (s.unlessReplay (Enc.launch n) fun s =>
    State.finish (s.blockLoad va) fun r s' =>
      let part := s'.myPart
      let p := s'.part part
      if lrBad (s'.pairCount part) r then s'.illegal (Enc.launch n) .reservedField
      else
        let prio := Nat.min (lrPrio r) p.prio
        let q := p.queue prio
        if q.cap = 0 then s'.trap cPermission 0 0
        else if q.full then s
        else match s'.drainCumulative s'.tid with
          | none => s
          | some s' => (s'.append part prio r).retire)

/-! ## Intake (R367 to R371) -/

/-- Adds one to RQDROP. -/
def State.rqDrop (s : State) : State := { s with rqdrop := w64 (Nat.min (s.rqdrop.toNat + 1) (2 ^ 64 - 1)) }
/-- Adds one to a 64-bit counter among the control-die tables. -/
def State.ctlBump (s : State) (off : Nat) : State :=
  { s with ctl := cellsPut s.ctl off (leBytes 8 (Nat.min (leNat (cellsGet s.ctl off 8) + 1) (2 ^ 64 - 1))) }

/-- SRC bit of a path. -/
def pathBit : Path → Nat
  | .ethernet _ => 0
  | .host _ => 1
  | .peer _ => 2

/-- A request packet of 144 bytes that arrived by a path, for a window's partition if it was written to one (R371). -/
def State.packet (s : State) (path : Path) (window : Option Nat) (bs : List Byte) : State :=
  let flow := recField bs 0 4
  let at_ := 0x80000 + flow % 4096 * 32
  let e := cellsGet s.ctl at_ 32
  let part := recField e 5 1 % 64
  let src := recField e 4 1
  let matches_ := src.testBit 7 && recField e 0 4 == flow && src.testBit (pathBit path) && (match window with
    | some w => w == part
    | none => true)
  if !matches_ || recField bs 4 1 != 1 then s.rqDrop
  else
    let r := bs.drop 16
    let p := s.part part
    let prio := Nat.min (Nat.min (lrPrio r) (recField e 6 1 % 4)) p.prio
    let q := p.queue prio
    if !recZero bs 5 11 || lrBad (s.pairCount part) r || p.mode != .active || q.cap == 0 || q.full then s.ctlBump (at_ + 0x10)
    else (s.ctlBump (at_ + 8)).append part prio r

/-- A write to the intake windows, at an offset from the first (R368). -/
def State.windowWrite (s : State) (path : Path) (off : Nat) (bs : List Byte) : State :=
  if off % 256 = 0 ∧ bs.length = 144 then s.packet path (some (off / 0x100000)) bs else s.rqDrop

/-- The payload of a datagram addressed to RQPORT.PORT (R368); port 0 disables Ethernet intake. -/
def State.datagram (s : State) (path : Path) (bs : List Byte) (sumsOk : Bool) : State :=
  if s.rqport = 0 then s
  else if bs.length = 144 ∧ sumsOk then s.packet path none bs else s.rqDrop

/-! ## Placement, gates and preconditions (R379 to R381) -/

/-- A free control thread: it holds no context (R379); one whose last stop is still to be reported is not given away (19 R392). -/
def State.isFree (s : State) (tid : Nat) : Bool := (s.th tid).run == .free && (s.th tid).toPost.isEmpty
/-- The partition's pairs in index order. -/
def State.partPairs (s : State) (part : Nat) : List Nat :=
  let m := (s.part part).pairs
  (List.range 256).filter fun l => m.getLsbD l
/-- The free thread of a pair, thread 0 first. -/
def State.freeOf (s : State) (l : Nat) : Option Nat :=
  if s.isFree (2 * l) then some (2 * l) else if s.isFree (2 * l + 1) then some (2 * l + 1) else none
/-- The thread an iteration goes to, if it is free (R379). -/
def State.placement (s : State) (part : Nat) (r : List Byte) (e : Nat) : Option Nat :=
  let ps := s.partPairs part
  match (List.range (lrLevels r)).find? fun l => lrKind r l != 0 with
  | none => ps.findSome? s.freeOf
  | some l =>
    let i := lrIndex r e l
    if lrKind r l = 1 then (ps[i % ps.length]?).bind s.freeOf
    else
      let ds := (ps.map (· / 32)).eraseDups
      (ps.filter fun q => some (q / 32) == ds[i % ds.length]?).findSome? s.freeOf

/-- Whether iteration e is gated by a live iteration (R380). -/
def lrGated (r : List Byte) (live : List Nat) (e : Nat) : Bool :=
  let ls := List.range (lrLevels r)
  ls.any fun l => lrKind r l == 0 && decide (0 < lrIndex r e l) && live.any fun x =>
    lrIndex r x l + 1 == lrIndex r e l && ls.all fun m => decide (lrRank r m ≤ lrRank r l) || lrIndex r x m == lrIndex r e m
/-- Whether an iteration has passed a gate, which acquires what the gating iterations did. -/
def lrHasGate (r : List Byte) (e : Nat) : Bool :=
  (List.range (lrLevels r)).any fun l => lrKind r l == 0 && decide (0 < lrIndex r e l)

/-- Whether a timeline of a partition holds a number. -/
def State.reached (s : State) (part : Nat) (name : Word) (num : Nat) : Bool :=
  match s.pairAt part (bits name 7 0) with
  | some l => decide (num ≤ ((s.th (2 * l + bits name 8 8)).timeline (bits name 11 9)).ctr)
  | none => false
def State.preOk (s : State) (part : Nat) (r : List Byte) : Bool :=
  (List.range (lrPre r)).all fun i => s.reached part (lrName r i) (lrNum r i)

/-! ## Candidates (R384) -/

def Part.walkOf (p : Part) (prio j : Nat) : Walk :=
  (p.walk.find? fun w => w.prio == prio && w.j == j).getD ⟨prio, j, 0, [], false⟩
/-- Records of a queue started and not retired, which the walker keeps at 255 or fewer (19 R404). -/
def Part.partly (p : Part) (prio : Nat) : Nat := (p.walk.filter fun w => w.prio == prio).length

inductive Cand where
  | aside (a : Aside)
  | iter (prio j e : Nat)
  deriving DecidableEq, Repr

/-- Whether a set-aside context may resume: it is not waiting for a replay, and neither thread of the pair holds one of its groups. -/
def State.asideReady (s : State) (a : Aside) : Bool :=
  let p := s.pair (pairOf a.tid)
  !a.waiting && (a.held &&& (p.held0 ||| p.held1)) == 0

/-- The oldest launch of a level whose next iteration goes to a thread. -/
def State.iterCand (s : State) (part tid prio : Nat) : Option Cand :=
  let p := s.part part
  let q := p.queue prio
  ((List.range (q.tail - q.head)).map (q.head + ·)).findSome? fun j =>
    let w := p.walkOf prio j
    let r := s.queued q j
    if w.whole || (w.next == 0 && decide (255 ≤ p.partly prio)) then none
    else if s.placement part r w.next == some tid && s.preOk part r && !lrGated r w.live w.next then some (.iter prio j w.next)
    else none

/-- Whether new iterations are dispatched: the partition is active and no quiesce is in progress (01 R28; R390). -/
def State.dispatching (s : State) (part : Nat) : Bool :=
  (s.part part).mode == .active && !(s.pcmdJob == .quiesce && s.pcmdPart.toNat == part)

/-- The candidate of a level for a free thread: a set-aside context first, the oldest. -/
def State.candAt (s : State) (part tid level : Nat) : Option Cand :=
  let p := s.part part
  if p.mode != .active then none
  else match p.aside.find? fun a => a.tid == tid && a.level == level && s.asideReady a with
    | some a => some (.aside a)
    | none => if s.dispatching part then s.iterCand part tid level else none

def Part.age (p : Part) (level : Nat) : Nat := (p.aging[level]?).getD 0

/-- The level R385 grants to, with its candidate. -/
def State.choose (s : State) (part tid : Nat) : Option (Nat × Cand) :=
  let cs := [3, 2, 1, 0].filterMap fun h => (s.candAt part tid h).map fun c => (h, c)
  match cs.find? fun c => decide (8 ≤ (s.part part).age c.1) with
  | some c => some c
  | none => cs.head?

/-- The aging counts after a grant of a thread at level h (R385). -/
def State.granted (s : State) (part tid h : Nat) : Vector Nat 4 :=
  Vector.ofFn fun (k : Fin 4) =>
    if k.val = h then 0
    else if k.val < h ∧ (s.candAt part tid k.val).isSome then (s.part part).age k.val + 1
    else (s.part part).age k.val

/-! ## Dispatch (R382) -/

/-- State of a thread at dispatch. Bits 1:0 of a program counter and of TVB are 0 (08 R182; 09 R219; log entry 100). -/
def Thread.dispatched (t : Thread) (r : List Byte) (prio j e idx thr : Nat) : Thread :=
  let regs : Vector Word 32 := Vector.ofFn fun (k : Fin 32) =>
    if 20 ≤ k.val ∧ k.val < 26 then w64 (lrIndex r e (k.val - 20))
    else if k.val = 26 then w64 (recField r 8 8)
    else if k.val = 27 then w64 e
    else if k.val = 28 then w64 idx
    else if k.val = 29 then w64 thr
    else 0
  let atbv := recField r 0x70 8
  { t with
    run := .running, ceHalted := false, refused := none, refAside := false, fullSave := false, waiting := false, noFetch := false,
    cut := 0, pc := w64 (recField r 0 8) &&& ~~~3, sup := false, s := regs, tvb := w64 (recField r 0x10 8) &&& ~~~3, tca := 0, tpc := 0, tva := 0,
    rps := 0, tcr := 0, atb := if atbv = 0 then t.atb else w64 atbv, vl := 0, es := 0, trc := 0, tra := 0, tal := 0, tm := 0,
    tn := 0, tk := 0, vty := 0x1001, ncfg := 2, wsel := 0, win := Vector.ofFn fun (k : Fin 64) => if k.val < 32 then resetWin k.val else t.win[k], fcs := t.fcs &&& 0x1F00,
    binds := Vector.replicate 8 none, lq := prio, lrec := j, iter := e, debt := 0, fseq := 0, fOwner := false }

/-- Retires the records at the head whose iterations are all dispatched (R373). -/
def retireHead (p : Part) (prio : Nat) : Nat → Part
  | 0 => p
  | f + 1 =>
    let q := p.queue prio
    if q.head < q.tail ∧ (p.walkOf prio q.head).whole then retireHead (p.setQueue prio { q with head := q.head + 1 }) prio f else p

/-- Notes that iteration e of a record has been dispatched. -/
def Part.noteDispatch (p : Part) (prio j e total : Nat) : Part :=
  let w := p.walkOf prio j
  let w := { w with next := e + 1, live := w.live ++ [e], whole := e + 1 == total }
  let p := { p with walk := (p.walk.filter fun o => !(o.prio == prio && o.j == j)) ++ [w] }
  let p := retireHead p prio ((p.queue prio).tail - (p.queue prio).head)
  { p with walk := p.walk.filter fun o => !(o.prio == prio && decide (o.j < (p.queue prio).head)) }

/-- Performs the ordinary writes of a partition's threads. -/
def State.drainPart (s : State) (part : Nat) : Option State :=
  s.drain fun p => !p.isNear && !p.isSignal && (s.pair (pairOf p.tid)).part == some part

/-- Gives a free thread an iteration; a gated one first sees what its gates released (R380). -/
def State.dispatch (s : State) (part tid prio j e : Nat) (aging : Vector Nat 4) : State :=
  let r := s.queued ((s.part part).queue prio) j
  match if lrHasGate r e then s.drainPart part else some s with
  | none => s
  | some s =>
    let s := s.setTh tid ((s.th tid).dispatched r prio j e (s.pair (pairOf tid)).idx (tid % 2))
    s.setPart part { (s.part part).noteDispatch prio j e (lrTotal r) with aging := aging }

/-- ITERATION_DISPATCH: enabled while the thread is free and R385 grants it to this iteration. -/
def execIterationDispatch (part : BitVec 6) (tid : BitVec 9) (s : State) : Out :=
  let n := part.toNat
  let t := tid.toNat
  .next (
    if (s.pair (pairOf t)).part != some n || !s.isFree t then s
    else match s.choose n t with
      | some (h, .iter prio j e) => s.dispatch n t prio j e (s.granted n t h)
      | _ => s)

end Sys2Proof.Machine
end

