-- ==== Sys2Proof/Machine/Image.lean ====
section
/-! DEFINITION. Context images (19 R401 to R403) and the walker block (R404): where an image lies, its bytes, the checks a restore
makes, and the thread it gives back. An image is held as the list of its bytes that are not 0, by offset. -/

namespace Sys2Proof.Machine

/-! ## Where an image lies (R401) -/

/-- What checking a range gave: the physical address of each 4 KiB page, a STAT code with the failing address, or that a page is in
motion. -/
inductive Pages where
  | ok (pas : List Nat)
  | stat (code addr : Nat)
  | wait
  deriving DecidableEq, Repr

/-- Checks one page: through the partition's second stage, or by its system-physical address; a STAT code with the walk's failure
otherwise, or none while the page is in motion. -/
def State.imagePage (s : State) (part : Nat) (spa : Bool) (a : Nat) (write : Bool) : Except (Option (Nat × TFail)) (Nat × State) :=
  if spa then
    if (s.region a).isMain then (if s.inMotion a then .error none else .ok (a, s)) else .error (some (3, noT))
  else match stage2 s noDie part a with
    | .error f => .error (some (2, f))
    | .ok l =>
      if !(if write then l.pte.wr else l.pte.r) then .error (some (2, noT))
      else if !(s.region l.addr).isMain || !kindOk l.pte.kind (s.region l.addr) then .error (some (3, noT))
      else if s.inMotion l.addr then .error none
      else
        let s := s.setPte l.at_ true write
        .ok (l.addr, if write then s.setDirty noFilter part (a / 4096) else s)

/-- A record about a walk of no thread, the fields it does not name being 0 (02 R43; 19 R393). -/
def walkRec (part gpa : Nat) (write : Bool) : FaultRec :=
  { ownerQ := true, kind := 2, flg := 0, lvl := 0, acc := if write then 1 else 0, rpt := 0, part := part, pair := 0, thr := 0,
    cause := 0, sub := 0, va := 0, gpa := w64 gpa, pc := 0, value := 0 }

/-- Checks the pages of a range in order, from a state `s0` that a refusal leaves but for the record of a bad second-stage table. -/
def State.imagePages (s0 s : State) (part : Nat) (spa write : Bool) : List Nat → List Nat → Pages × State
  | [], got => (.ok got, s)
  | a :: rest, got =>
    match s.imagePage part spa a write with
    | .error none => (.wait, s0)
    | .error (some (c, f)) => (.stat c a, s0.ownerTable (walkRec part a write) f)
    | .ok (pa, s) => State.imagePages s0 s part spa write rest (got ++ [pa])

/-- Checks a whole range of 4 KiB pages. -/
def State.imageRange (s : State) (part : Nat) (spa : Bool) (addr size : Nat) (write : Bool) : Pages × State :=
  if addr % 4096 ≠ 0 then (.stat 3 addr, s)
  else State.imagePages s s part spa write ((List.range (size / 4096)).map fun k => addr + 4096 * k) []

/-- Writes an image over its pages: the bytes it does not list become 0. -/
def State.putImagePages (s : State) (pas : List Nat) (img : List Host.Cell) : State :=
  let kept := s.mem.filter fun c => !(pas.contains (c.1 / 4096 * 4096))
  { s with
    mem := img.foldl (fun m c => match pas[c.1 / 4096]? with
      | some pa => cellPut m (pa + c.1 % 4096) c.2
      | none => m) kept
    memLost := s.memLost.filter fun w => !(pas.contains (w / 4096 * 4096)) }

/-- The bytes that lie on an image's pages. -/
def State.getImagePages (s : State) (pas : List Nat) : List Host.Cell :=
  pas.zipIdx.flatMap fun p =>
    (s.mem.filter fun c => decide (p.1 ≤ c.1) && decide (c.1 < p.1 + 4096)).map fun c => (p.2 * 4096 + (c.1 - p.1), c.2)
def State.pagesLost (s : State) (pas : List Nat) : Bool := s.memLost.any fun w => pas.contains (w / 4096 * 4096)

/-! ## The bytes of an image (R403) -/

def imgGroups (h : Byte) : Nat := (groupsOf h).length
def imgPrt (h : Byte) : Nat := 0x2000 + imgGroups h * 0x18000
def imgScr (h : Byte) (prt : Bool) : Nat := imgPrt h + if prt then 0x151000 else 0
def imgSize (h : Byte) (prt scr : Bool) : Nat := imgScr h prt + if scr then 0x3000000 else 0

/-- Dense bytes at an image offset. -/
def dense (off : Nat) (bs : List Byte) : List Host.Cell := (bs.zipIdx.map fun b => (off + b.2, b.1)).filter fun c => c.2 != 0

/-- The register-storage ranges an image holds: storage key, bytes, image offset. -/
def State.imageStores (s : State) (tid : Nat) (h : Byte) (prt : Bool) : List (Nat × Nat × Nat) :=
  let l := pairOf tid
  let pp := s.physPair l
  let groups := (groupsOf h).zipIdx.flatMap fun g => (List.range 8).flatMap fun i =>
    let pl := s.physLane l (g.1 * 8 + i)
    let b := 0x2000 + g.2 * 0x18000
    [(regKey pp (mainOff pl), 0x2000, b + i * 0x2000), (regKey pp (nearOff pl), 0x800, b + 0x10000 + i * 0x800),
     (regKey pp (maskOff pl), 0x800, b + 0x14000 + i * 0x800)]
  groups ++ if prt then
    [(regKey pp (accOff 0), 0x50000, imgPrt h), (regKey pp (weightOff 0), 0x100000, imgPrt h + 0x50000)] else []

/-- STATE of a context. -/
def Run.code : Run → Nat
  | .suspended => 1
  | .stopped => 2
  | .doubleTrap => 3
  | _ => 0

def words (ws : List Word) : List Byte := ws.flatMap fun w => leBytes 8 w.toNat

/-- One range-scoreboard entry (03 R96). -/
def Range.bytes (r : Range) : List Byte :=
  leBytes 4 r.lo ++ leBytes 4 r.hi ++ leBytes 1 (1 + (if r.src then 2 else 0) + 4 * r.thr) ++ leBytes 1 r.ctx ++ leBytes 6 r.num

/-- A binding slot in the layout of R97. -/
def Bind.bytes (b : Bind) : List Byte :=
  words [b.base, b.stride, b.scale, b.pos, b.fin] ++ leBytes 1 b.fmt.toNat ++ [b.ctl] ++ leBytes 22 0

def Short.bytes (x : Short) : List Byte :=
  leBytes 1 x.nums.length ++ leBytes 1 (if x.loss then 1 else 0) ++ leBytes 6 0 ++
  (List.range 64).flatMap fun k => leBytes 8 ((x.nums[k]?).getD 0)

/-- n words of a queue, oldest first. -/
def queueBytes (n : Nat) (q : List Word) : List Byte := (List.range n).flatMap fun k => leBytes 8 ((q[k]?).getD 0).toNat

/-- The header. -/
def Thread.imageHeader (t : Thread) (p : Pair) (part thr : Nat) (h : Byte) (prt scr : Bool) : List Byte :=
  leBytes 4 0x55584349 ++ leBytes 2 1 ++ leBytes 2 1 ++ leBytes 8 (imgSize h prt scr) ++ leBytes 1 part ++ leBytes 1 p.idx ++
  leBytes 1 thr ++ [h] ++ leBytes 1 ((if prt then 1 else 0) + if scr then 2 else 0) ++ leBytes 1 t.run.code ++
  leBytes 1 t.ncfg.toNat ++ leBytes 1 t.lq ++ leBytes 8 (if t.run.code = 0 then 0 else t.fseq) ++ leBytes 8 t.iter ++
  leBytes 8 t.lrec ++ leBytes 8 t.debt ++ leBytes 8 0

/-- The dense part of an image: its bytes below 0x2000. -/
def Thread.imageFixed (t : Thread) (p : Pair) (tid part : Nat) (h : Byte) (prt scr : Bool) : List Host.Cell :=
  dense 0 (t.imageHeader p part (tid % 2) h prt scr) ++
  dense 0x40 (words ((List.range 32).map fun k => t.sreg (BitVec.ofNat 5 k))) ++
  dense 0x140 (words [t.pc, if t.sup then 1 else 0]) ++
  dense 0x150 (words ((List.range 17).map (t.csr p))) ++
  dense 0x1D8 (words t.cl.toList) ++
  dense 0x218 (words ((List.range 5).map fun k => t.csr p (0x100 + k))) ++
  dense 0x240 (t.repBound.toList.flatMap fun b => leBytes 4 b.toNat) ++
  dense 0x260 (t.win.toList.flatMap fun w => leBytes 8 (w.len.toNat * 2 ^ 16 + w.base.toNat)) ++
  dense 0x460 (queueBytes 32 t.q0 ++ queueBytes 32 t.q1 ++ queueBytes 16 t.fromE ++ queueBytes 16 t.fromW) ++
  dense 0x760 (t.tl.toList.flatMap fun x => leBytes 8 x.ctr) ++
  dense 0x7A0 (t.short.toList.flatMap Short.bytes) ++
  dense 0x11C8 (t.repIx.toList.flatMap fun b => leBytes 4 b.toNat) ++
  dense 0x1200 t.lookup ++
  dense 0x1240 (t.binds.toList.flatMap fun b => match b with
    | some b => leBytes 1 (128 + b.reg.toNat)
    | none => [0]) ++
  dense 0x1280 (t.binds.toList.flatMap fun b => match b with
    | some b => b.bytes
    | none => leBytes 64 0) ++
  dense 0x1480 (p.board.flatMap fun r => if r.tid = tid then r.bytes else leBytes 16 0)

/-- The image of a thread's context. -/
def State.image (s : State) (tid : Nat) (prt scr : Bool) : List Host.Cell :=
  let h := s.held tid
  let l := pairOf tid
  let p := s.pair l
  (s.th tid).imageFixed p tid (p.part.getD 0) h prt scr ++
  (s.imageStores tid h prt).flatMap (fun e => sparse s.regs e.1 e.2.1 e.2.2) ++
  (if prt then dense (imgPrt h + 0x150000) (words p.wb.toList ++ leBytes 8 (if p.tmu = some tid then 1 else 0)) else []) ++
  (if scr then sparse s.mem (scratchBase (s.physPair l)) 0x3000000 (imgScr h prt) else [])

/-- Whether state being saved holds an uncorrectable error (R400, STAT 8). -/
def State.imageLost (s : State) (tid : Nat) (prt scr : Bool) : Bool :=
  (s.imageStores tid (s.held tid) prt).any (fun e => s.regFails e.1 e.2.1) ||
  (scr && s.lostIn (scratchBase (s.physPair (pairOf tid))) 0x3000000)

/-- What a save came to. -/
inductive Save where
  | done (size : Nat) (s : State)
  | refused (code addr : Nat) (s : State)
  | wait

/-- Whether a pair's scoreboard holds entries: an access to its whole scratchpad waits behind them (03 R94). -/
def State.boardTaken (s : State) (l : Nat) : Bool := !(s.pair l).board.isEmpty

/-- Saves a context's image at an address of a partition (R401). -/
def State.saveImage (s : State) (tid part : Nat) (spa : Bool) (addr : Nat) (prt scr : Bool) : Save :=
  let size := imgSize (s.held tid) prt scr
  match s.imageRange part spa addr size true with
  | (.wait, _) => .wait
  | (.stat c a, s) => .refused c a s
  | (.ok pas, s') =>
    if scr && s.boardTaken (pairOf tid) then .wait
    else if s.imageLost tid prt scr then .refused 8 0 s
    else .done size (s'.putImagePages pas (s.image tid prt scr))

/-! ## Reading an image back (R400, R403) -/

def imgN (img : List Host.Cell) (off n : Nat) : Nat := leNat (cellsGet img off n)
def imgW (img : List Host.Cell) (off : Nat) : Word := w64 (imgN img off 8)
/-- HELD, OPT and the control register numbered r below 17. -/
def imgHeld (img : List Host.Cell) : Byte := cellGet img 0x13
def imgOpt (img : List Host.Cell) (k : Nat) : Bool := (cellGet img 0x14).getLsbD k
def imgCsr (img : List Host.Cell) (r : Nat) : Word := imgW img (0x150 + 8 * r)

/-- A control register's image value with no reserved bit set and none of its fields out of range. -/
def csrImageOk (r : Nat) (v : Word) : Bool :=
  match r with
  | 0x001 => !vtyBad v
  | 0x002 => bits v 63 14 == 0 && bits v 7 2 == 0
  | 0x003 => bits v 63 27 == 0 && bits v 15 10 == 0
  | 0x004 => bits v 63 32 == 0
  | 0x00D => bits v 63 2 == 0
  | 0x010 => decide (bits v 7 0 ≤ 32) && decide (bits v 15 8 ≤ 32) && decide (bits v 23 16 ≤ 16) && decide (bits v 63 24 ≤ 16)
  | r => (Thread.reset.setCsr r v).csr Pair.reset r == v

/-- Queue offsets, capacities and fill levels. -/
def imgQueues (img : List Host.Cell) : List (Nat × Nat × Nat) :=
  let q := imgCsr img 16
  [(0x460, 32, bits q 7 0), (0x560, 32, bits q 15 8), (0x660, 16, bits q 23 16), (0x6E0, 16, bits q 31 24)]

/-- Byte ranges of an image that must be 0. -/
def imgReserved (img : List Host.Cell) (prt : Bool) : List (Nat × Nat) :=
  [(0x38, 8), (0x40, 8), (0x258, 8), (0x790, 16), (0x11E0, 32), (0x1248, 56), (0x1580, 2688)] ++
  (imgQueues img).map (fun q => (q.1 + 8 * q.2.2, 8 * (q.2.1 - q.2.2))) ++
  (List.range 5).flatMap (fun k =>
    let o := 0x7A0 + 520 * k
    let n := imgN img o 1
    [(o + 2, 6), (o + 8 + 8 * n, 8 * (64 - n))]) ++
  (List.range 8).map (fun j => (0x1280 + 64 * j + 0x2A, 22)) ++
  (List.range 8).filterMap (fun j => if (cellGet img (0x1240 + j)).getLsbD 7 then none else some (0x1280 + 64 * j, 64)) ++
  if prt then [(imgPrt (imgHeld img) + 0x150088, 3960)] else []

/-- Whether every reserved byte and field of an image is 0 and its counts are in range (R403). -/
def imgClean (img : List Host.Cell) : Bool :=
  let prt := imgOpt img 0
  (imgReserved img prt).all (fun r => !(img.any fun c => decide (r.1 ≤ c.1) && decide (c.1 < r.1 + r.2))) &&
  decide (imgN img 0x12 1 < 2) && decide (imgN img 0x14 1 < 4) && decide (imgN img 0x15 1 < 4) && decide (imgN img 0x16 1 < 4) &&
  decide (imgN img 0x17 1 < 4) && decide (imgN img 0x148 8 < 2) && decide (imgN img 0x140 8 % 4 = 0) &&
  (List.range 17).all (fun r => csrImageOk r (imgCsr img r)) &&
  (List.range 8).all (fun k => csrImageOk (0x018 + k) (imgW img (0x1D8 + 8 * k))) &&
  (List.range 5).all (fun k => csrImageOk (0x100 + k) (imgW img (0x218 + 8 * k))) &&
  (List.range 64).all (fun k => csrImageOk 3 (imgW img (0x260 + 8 * k))) &&
  (List.range 5).all (fun k => decide (imgN img (0x7A0 + 520 * k) 1 ≤ 64) && decide (imgN img (0x7A1 + 520 * k) 1 < 2)) &&
  (List.range 8).all (fun j =>
    !(cellGet img (0x1240 + j)).getLsbD 6 && ((cellGet img (0x1240 + j)).getLsbD 7 || cellGet img (0x1240 + j) == 0) &&
    decide (imgN img (0x12A8 + 64 * j) 1 < 16) && decide (imgN img (0x12A9 + 64 * j) 1 < 4)) &&
  (List.range 16).all (fun k =>
    imgN img (0x1480 + 16 * k) 4 % 64 == 0 && decide (imgN img (0x1488 + 16 * k) 1 < 8) && decide (imgN img (0x1489 + 16 * k) 1 < 6)) &&
  (!prt || ((List.range 16).all (fun k =>
      let d := imgW img (imgPrt (imgHeld img) + 0x150000 + 8 * k)
      d == 0 || (d.getLsbD 63 && bits d 62 27 == 0 && bits d 7 4 == 0)) &&
    decide (imgN img (imgPrt (imgHeld img) + 0x150080) 8 < 2)))

/-- A counter raised to an image's value: it never decreases (R403; 05 R134). -/
def Timeline.raise (x : Timeline) (n : Nat) : Timeline :=
  let c := Nat.max x.ctr n
  let r := runUp x.ahead.length c (x.ahead.filter fun k => decide (c < k))
  ⟨r.1, Nat.max x.last r.1, r.2⟩

/-- An image's binding slot j, whose record lies at an address. -/
def imgBind (img : List Host.Cell) (j : Nat) (at_ : Word) : Option Bind :=
  let m := cellGet img (0x1240 + j)
  if m.getLsbD 7 then some (Bind.ofRecord (cellsGet img (0x1280 + 64 * j) 64) at_ (BitVec.ofNat 6 m.toNat)) else none

/-- The thread of an image, over what the thread held: `ce` for a restore by the context engine, else the resumption of a set-aside
context, which writes neither timelines nor shortfalls. -/
def Thread.ofImage (t : Thread) (img : List Host.Cell) (ce : Bool) (recs : List Word) : Thread :=
  let c (r : Nat) : Word := imgCsr img r
  let q (k : Nat) : List Word := match (imgQueues img)[k]? with
    | some e => (List.range e.2.2).map fun i => imgW img (e.1 + 8 * i)
    | none => []
  let cfg := cellsGet img 0x1200 64
  let run : Run := match imgN img 0x15 1 with
    | 1 => .suspended
    | 2 => .stopped
    | 3 => .doubleTrap
    | _ => .running
  { t with
    run := run, ceHalted := ce, refused := none, refAside := false, fullSave := false, waiting := false, noFetch := false, cut := 0,
    pc := imgW img 0x140, sup := imgN img 0x148 1 % 2 == 1, s := Vector.ofFn fun (k : Fin 32) => imgW img (0x40 + 8 * k.val),
    vl := c 0, vty := c 1, wsel := BitVec.ofNat 6 (bits (c 2) 13 8), ncfg := BitVec.ofNat 2 (bits (c 2) 1 0), trc := c 5, tra := c 6,
    es := c 7, tal := c 8, tm := c 9, tn := c 10, tk := c 11, fcs := c 12, tcr := c 13, rps := c 14, skz := c 15,
    cl := Vector.ofFn fun (k : Fin 8) => imgW img (0x1D8 + 8 * k.val), tvb := imgW img 0x218, tca := imgW img 0x220,
    tpc := imgW img 0x228, tva := imgW img 0x230, atb := imgW img 0x238,
    repBound := Vector.ofFn fun (k : Fin 6) => BitVec.ofNat 32 (imgN img (0x240 + 4 * k.val) 4),
    win := Vector.ofFn fun (k : Fin 64) =>
      ⟨BitVec.ofNat 10 (imgN img (0x260 + 8 * k.val) 2), BitVec.ofNat 11 (imgN img (0x262 + 8 * k.val) 2)⟩,
    q0 := q 0, q1 := q 1, fromE := q 2, fromW := q 3,
    tl := if ce then Vector.ofFn fun (k : Fin 6) => t.tl[k].raise (imgN img (0x760 + 8 * k.val) 8) else t.tl,
    short := if ce then Vector.ofFn fun (k : Fin 5) =>
        let o := 0x7A0 + 520 * k.val
        let x := (List.range (imgN img o 1)).foldl (fun (x : Short) i => x.note (imgN img (o + 8 + 8 * i) 8)) t.short[k]
        { x with loss := x.loss || imgN img (o + 1) 1 != 0 }
      else t.short,
    repIx := Vector.ofFn fun (k : Fin 6) => BitVec.ofNat 32 (imgN img (0x11C8 + 4 * k.val) 4),
    lookup := if cfg.all (· == 0) then [] else cfg,
    binds := Vector.ofFn fun (j : Fin 8) => imgBind img j.val ((recs[j.val]?).getD 0),
    lq := imgN img 0x17 1, lrec := imgN img 0x28 8, iter := imgN img 0x20 8, debt := imgN img 0x30 8, fseq := imgN img 0x18 8,
    fOwner := false, toPost := [], leave := false, leaveAsked := false, vq := [] }

/-- Gives a thread lane groups, with their REQ codes (R403; 06 R155). -/
def State.takeGroups (s : State) (tid : Nat) (h : Byte) : State :=
  let s := s.setHeld tid h
  let l := pairOf tid
  let p := s.pair l
  let code : Nat := if tid % 2 = 0 then 1 else 2
  s.setPair l { p with
    req := (groupsOf h).foldl (fun (r : BitVec 16) g => BitVec.ofNat 16 (setBits (w64 r.toNat) (2 * g + 1) (2 * g) code).toNat) p.req }

/-- Writes an image's stores back: registers, then the pair part and the scratchpad where it has them. -/
def State.putStores (s : State) (tid : Nat) (img : List Host.Cell) : State :=
  let h := imgHeld img
  let prt := imgOpt img 0
  let l := pairOf tid
  let s := (s.imageStores tid h prt).foldl (fun (s : State) e =>
    let s := s.zeroReg e.1 e.2.1
    { s with regs := (sparse img e.2.2 e.2.1 e.1).foldl (fun m c => cellPut m c.1 c.2) s.regs }) s
  let s := if prt then
      let b := imgPrt h + 0x150000
      let p := s.pair l
      s.setPair l { p with
        wb := Vector.ofFn fun (k : Fin 16) => imgW img (b + 8 * k.val)
        tmu := if imgN img (b + 0x80) 1 % 2 = 1 then some tid else if p.tmu = some tid then none else p.tmu }
    else s
  if imgOpt img 1 then
    let b := scratchBase (s.physPair l)
    { s with
      mem := (sparse img (imgScr h prt) 0x3000000 b).foldl (fun m c => cellPut m c.1 c.2) (cellsZero s.mem b 0x3000000)
      memLost := s.memLost.filter fun w => !(decide (b ≤ w) && decide (w < b + 0x3000000)) }
  else s

/-- A context in tile mode holds the matrix-tile unit (12 R266). -/
def State.keepUnit (s : State) (tid : Nat) : State :=
  let l := pairOf tid
  let p := s.pair l
  if (s.th tid).tile && p.tmu.isNone then s.setPair l { p with tmu := some tid } else s

/-- The range-scoreboard entries of an image that a restore writes back (03 R96): the thread's own that are valid and whose commands are not
performed, since those of a performed command have retired (03 R94; log entry 56). -/
def State.imgBoard (s : State) (tid : Nat) (img : List Host.Cell) : List Range :=
  let entry (k : Nat) : Option Range :=
    let o := 0x1480 + 16 * k
    let flg := imgN img (o + 8) 1
    let ctx := imgN img (o + 9) 1
    let ctr := ((s.th tid).timeline ctx).ctr
    let r : Range := {
      lo := imgN img o 4, hi := imgN img (o + 4) 4, src := flg.testBit 1, thr := tid % 2, ctx := ctx,
      num := ctr / 2 ^ 48 * 2 ^ 48 + imgN img (o + 10) 6, tid := tid, seq := s.wseq }
    if flg.testBit 0 && flg / 4 % 2 == tid % 2 && decide (ctr < r.num) then some r else none
  (List.range 16).filterMap entry

/-- Writes an image's scoreboard entries back beside those that still stand, of which there are sixteen in all. -/
def State.putBoard (s : State) (tid : Nat) (img : List Host.Cell) : State :=
  let l := pairOf tid
  let p := s.pair l
  let new := (s.imgBoard tid img).filter fun r =>
    !(p.board.any fun o => o.tid == tid && o.ctx == r.ctx && o.num % 2 ^ 48 == r.num % 2 ^ 48 && o.src == r.src)
  s.setPair l { p with board := (p.board ++ new).take boardSize }

/-- Puts the context of an image into a thread (R403). -/
def State.putImage_ (s : State) (tid : Nat) (img : List Host.Cell) (ce : Bool) (recs : List Word) : State :=
  let s := s.setTh tid ((s.th tid).ofImage img ce recs)
  (((s.takeGroups tid (imgHeld img)).putStores tid img).keepUnit tid).putBoard tid img

/-- The STAT of a restore's header: wrong magic, version, level, or a size that disagrees with HELD and OPT. -/
def imgHeaderStat (img : List Host.Cell) : Nat :=
  if imgN img 0 4 ≠ 0x55584349 ∨ imgN img 4 2 = 0 then 4
  else if 1 < imgN img 4 2 then 5
  else if imgN img 6 2 ≠ 1 then 6
  else if imgN img 0x14 1 ≥ 4 ∨ imgN img 8 8 ≠ imgSize (imgHeld img) (imgOpt img 0) (imgOpt img 1) then 4
  else 0

/-- The STAT of an image's placement on a thread (R400, STAT 7). -/
def State.imgPlaced (s : State) (tid : Nat) (img : List Host.Cell) : Bool :=
  let p := s.pair (pairOf tid)
  let other := if tid % 2 = 0 then tid + 1 else tid - 1
  imgN img 0x11 1 == p.idx && imgN img 0x12 1 == tid % 2 && (imgHeld img &&& s.held other) == 0 &&
  !(imgOpt img 0 && ((s.th other).tile || p.tmu == some other))

/-- Reads an image at an address, with every check of a restore. -/
def State.readImage (s : State) (tid part : Nat) (spa : Bool) (addr : Nat) : Except (Option (Nat × Nat)) (List Host.Cell) × State :=
  match s.imageRange part spa addr 4096 false with
  | (.wait, _) => (.error none, s)
  | (.stat c a, s) => (.error (some (c, a)), s)
  | (.ok first, _) =>
    if s.pagesLost first then (.error (some (8, 0)), s)
    else
      let head := s.getImagePages first
      let st := imgHeaderStat head
      if st ≠ 0 then (.error (some (st, 0)), s)
      else match s.imageRange part spa addr (imgN head 8 8) false with
        | (.wait, _) => (.error none, s)
        | (.stat c a, s) => (.error (some (c, a)), s)
        | (.ok pas, s') =>
          let img := s.getImagePages pas
          if s.pagesLost pas then (.error (some (8, 0)), s)
          else if !imgClean img then (.error (some (4, 0)), s)
          else if !s.imgPlaced tid img then (.error (some (7, 0)), s)
          else (.ok img, s')

/-! ## The walker block (R404) -/

/-- One queue's part of the block. -/
def Part.walkerPart (p : Part) (prio : Nat) : List Host.Cell :=
  let q := p.queue prio
  let ws := p.walk.filter fun w => w.prio == prio
  dense (prio * 0x2000) (leBytes 8 q.head ++ leBytes 8 q.tail ++ leBytes 4 ws.length ++ leBytes 4 0 ++
    ws.flatMap fun w => leBytes 8 w.j ++ leBytes 8 w.next)

def Part.walkerBlock (p : Part) : List Host.Cell := (List.range 4).flatMap p.walkerPart

/-- Entry k of a queue's part. -/
def wkEntry (img : List Host.Cell) (prio k : Nat) : Nat × Nat :=
  (imgN img (prio * 0x2000 + 24 + 16 * k) 8, imgN img (prio * 0x2000 + 32 + 16 * k) 8)

/-- A malformed walker block for a partition: a count or a record out of range, or a non-zero byte past the entries. -/
def wkBad (p : Part) (img : List Host.Cell) : Bool :=
  (List.range 4).any fun prio =>
    let o := prio * 0x2000
    let head := imgN img o 8
    let tail := imgN img (o + 8) 8
    let np := imgN img (o + 16) 4
    let es := (List.range np).map (wkEntry img prio)
    decide (255 < np) || imgN img (o + 20) 4 != 0 || decide (tail < head) || decide ((p.queue prio).cap < tail - head) ||
    es.any (fun e => decide (e.1 < head) || decide (tail ≤ e.1) || e.2 == 0) || (es.map (·.1)).eraseDups.length != np ||
    img.any (fun c => decide (o + 24 + 16 * np ≤ c.1) && decide (c.1 < o + 0x2000))

/-- The iterations below NEXT of a record that contexts of the partition's threads hold: they gate until they execute kend (R404). -/
def State.heldIters (s : State) (part prio j next : Nat) : List Nat :=
  let tids := (s.partPairs part).flatMap fun l => [2 * l, 2 * l + 1]
  (tids.filter fun tid =>
    let t := s.th tid
    t.run != .free && t.lq == prio && t.lrec == j && decide (t.iter < next)).map fun tid => (s.th tid).iter

/-- The partition with an imported block: iterations below NEXT are dispatched; those of contexts restored before the import gate, and
those of contexts restored after it will (R404). -/
def State.importWalk (s : State) (part : Nat) (img : List Host.Cell) : State :=
  let p := s.part part
  let one (prio : Nat) : List Walk := (List.range (imgN img (prio * 0x2000 + 16) 4)).map fun k =>
    let e := wkEntry img prio k
    ⟨prio, e.1, e.2, s.heldIters part prio e.1 e.2, decide (lrTotal (s.queued { p.queue prio with head := 0 } e.1) ≤ e.2)⟩
  let lq : Vector LaunchQ 4 := Vector.ofFn fun (k : Fin 4) =>
    { p.lq[k] with head := imgN img (k.val * 0x2000) 8, tail := imgN img (k.val * 0x2000 + 8) 8 }
  s.setPart part { p with lq := lq, walk := (List.range 4).flatMap one }

/-- A restored context's iteration gates its launch until it executes kend (R404). -/
def State.relive (s : State) (tid : Nat) : State :=
  match (s.pair (pairOf tid)).part with
  | none => s
  | some n =>
    let t := s.th tid
    let p := s.part n
    s.setPart n { p with walk := p.walk.map fun w =>
      if w.prio = t.lq ∧ w.j = t.lrec ∧ t.iter < w.next ∧ !w.live.contains t.iter then { w with live := w.live ++ [t.iter] } else w }

end Sys2Proof.Machine
end

