-- ==== Sys2Proof/Machine/Fetch.lean ====
section
/-! DEFINITION. Instruction fetch (08 R197) and whether a thread may issue. -/

namespace Sys2Proof.Machine

/-- What fetching the word at the program counter gave. -/
inductive Fetched where
  | word (w : BitVec 32)
  | fail (f : Fail)
  | wait
  deriving DecidableEq, Repr

/-- Fetches the word at a thread's program counter. -/
def State.fetch (s : State) (tid : Nat) : Fetched × State :=
  let pc := (s.th tid).pc
  match s.translate (s.who tid) pc.toNat 4 .fetch with
  | (.fail f, s) => (.fail (Fail.ofT f pc .fetch), s)
  | (.wait, s) => (.wait, s)
  | (.ok p, s) =>
    if s.lostIn p.pa 4 then (.fail (Fail.lost pc), s)
    else (.word (BitVec.ofNat 32 (leNat (s.bytes p.pa 4))), s)

/-- A fetch that failed: a second-stage failure suspends; a first-stage one traps, as every other cause does. -/
def State.fetchFault (s : State) (f : Fail) : State :=
  if f.cause = cTranslation ∧ f.tf.second then s.suspend f else s.trap f.cause 0 f.value

/-- Whether a thread issues: it runs, no record of it waits for room (19 R392), nothing holds its front end, and a thread in tile mode has its leave (20 R418). -/
def Thread.issues (t : Thread) : Bool :=
  t.run == .running && t.toPost.isEmpty && !t.ceHalted && !t.waiting && !t.noFetch && (!t.tile || t.leave)

end Sys2Proof.Machine
end

