-- ==== Sys2Proof/Machine/Sched.lean ====
section
/-! DEFINITION. Time slices and set-aside contexts (18 R386, R387; 19 R398, R402), the watchdog (19 R399), replays (19 R394 to R397) and
records that waited for room (19 R392). -/

namespace Sys2Proof.Machine

/-! ## Context-engine slots (19 R400) -/

def ctlOp (c : Word) : Nat := bits c 35 32
def ctlPart (c : Word) : Nat := bits c 5 0
def ctlSpa (c : Word) : Bool := c.getLsbD 41
def ctlScr (c : Word) : Bool := c.getLsbD 40
def ctlPrt (c : Word) : Bool := c.getLsbD 39
/-- Bits of CTL that a slot keeps. -/
def ctlKeep (c : Word) : Word := c &&& 0x38F0001FF3F

def CeSlot.none : CeSlot := ⟨0, 0, 0, false, 0⟩
def State.ceSlot (s : State) (n : Nat) : CeSlot := (s.ce[n]?).getD CeSlot.none
def State.setCe (s : State) (n : Nat) (x : CeSlot) : State := { s with ce := s.ce.setIfInBounds n x }

/-- Ends a slot's command with a STAT and a RES. -/
def State.ceEnd (s : State) (n stat res : Nat) : State :=
  let x := s.ceSlot n
  s.setCe n { x with busy := false, stat := stat, res := w64 res }

/-- The thread a command names: none where the partition is inactive or has no such pair. -/
def State.ceThread (s : State) (c : Word) : Option Nat :=
  if (s.part (ctlPart c)).mode = .inactive then none
  else (s.pairAt (ctlPart c) (bits c 15 8)).map fun l => 2 * l + bits c 16 16

/-- Whether the context engine is bringing a thread to a halt. -/
def State.halting (s : State) (tid : Nat) : Bool :=
  s.ce.toList.any fun x => x.busy && ctlOp x.ctl == 1 && s.ceThread x.ctl == some tid

/-! ## Slots and slices -/

/-- Slot of a thread in its partition's set-aside area (R402). -/
def State.slotOf (s : State) (part tid : Nat) : Nat :=
  bits (s.part part).cesav 51 12 * 4096 + (2 * (s.pair (pairOf tid)).idx + tid % 2) * 0xC2000
/-- Time slice of a partition in µs. -/
def Part.slice (p : Part) : Nat := bits p.tsl 16 0

/-- Posts a record that holds a thread but is not the record its replay names (kinds 7 and 8). -/
def State.postHold (s : State) (tid : Nat) (r : FaultRec) : State :=
  match s.post r with
  | (some _, s) => s
  | (none, s) => s.setTh tid { s.th tid with toPost := (s.th tid).toPost ++ [r] }

/-- The addresses of a thread's binding records. -/
def Thread.recs (t : Thread) : List Word := t.binds.toList.map fun b => match b with
  | some b => b.recAddr
  | none => 0

/-- Brings a thread's accesses to an end before its image is written: all it committed is performed and acknowledged, near-memory adds
and signals among it (04 R115). None while that waits. -/
def State.quiet (s : State) (tid : Nat) : Option State :=
  let f := (s.th tid).fwd
  match s.drain fun p => p.tid == tid || f.contains p.seq with
  | none => none
  | some s => if s.acked tid then some s else none

/-- Undoes what the front end moved of the queue registers since a queued instruction entered; what it sent to a neighbour stands (06 R152,
R153; 19 R398; log entry 90). -/
def Thread.unmove (t : Thread) (q : Queued) : Thread :=
  { t with
    q0 := t.q0.take (t.q0.length - q.pushed), q1 := q.popped ++ t.q1
    fromE := q.poppedE ++ t.fromE, fromW := q.poppedW ++ t.fromW }

/-- The front end rolls back to the oldest instruction of the vector queue: its register results and what it moved of the queue registers
are undone (19 R398; 06 R152; 15 R323; log entry 90). -/
def Thread.rollback (t : Thread) : Thread :=
  match t.vq with
  | [] => t
  | q :: _ => { (t.withFront q.front).unmove q with vq := [] }

/-- What a queue squash discards: the queued instructions that have not started, the requests of one that waits, and the leave it asked
for (19 R398). -/
def State.squash (s : State) (tid : Nat) : State :=
  let s := s.dropRequests tid
  let s := s.setTh tid (s.th tid).rollback
  let t := s.th tid
  let s := if t.tile then s else s.dropTileLeave tid
  let s := (List.range 8).foldl (fun (s : State) d =>
    if (s.die d).waiting.any fun r => r.tid == tid && !r.tile && decide ((t.timeline r.ctx).last < r.num) then
      s.dropLeaveAt d tid fun r => !r.tile && decide ((t.timeline r.ctx).last < r.num)
    else s) s
  s.setTh tid { s.th tid with waiting := false, cut := 0 }

/-- An accepted command that is not pre-emptible and has started: a lookup, or a peel with leave (R387). -/
def State.running (s : State) (tid : Nat) : Option Cmd :=
  s.cmds.find? fun c => c.tid == tid && (c.op == .pklook || (c.op == .skpeel && s.cmdLeave tid c.ctx c.num))

/-! ## Resuming a set-aside context -/

/-- Restores a set-aside context from its slot onto its thread (R402, R403): none while its image cannot be read. A context in tile mode
asks for leave again, and issues once it has it. -/
def State.resumeAside (s : State) (part : Nat) (a : Aside) (aging : Vector Nat 4) : Option State :=
  match s.readImage a.tid part false (s.slotOf part a.tid) with
  | (.error _, _) => none
  | (.ok img, s) =>
    let s := s.putImage_ a.tid img false a.recs
    let p := s.part part
    let s := s.setPart part { p with aside := p.aside.filter fun o => o != a, aging := aging }
    let t := s.th a.tid
    let s := s.setTh a.tid { t with run := .running, debt := t.debt - p.slice }
    some (if a.tile then s.askLeave ⟨a.tid, true, 0, 0, tileWeight, false⟩ else s)

/-- SET_ASIDE_RESUME: enabled while the thread is free and R385 grants it to that context. -/
def execSetAsideResume (tid : BitVec 9) (s : State) : Out :=
  let t := tid.toNat
  .next (match (s.pair (pairOf t)).part with
    | none => s
    | some n =>
      if !s.isFree t then s
      else match s.choose n t with
        | some (h, .aside a) => (s.resumeAside n a (s.granted n t h)).getD s
        | _ => s)

/-! ## The end of a time slice -/

/-- The state with a thread taken as free, to ask what would run on it. -/
def State.asFree (s : State) (tid : Nat) : State :=
  (s.setTh tid { s.th tid with run := .free, toPost := [] }).setHeld tid 0

/-- Whether the end of a slice calls for setting the context aside (R386, R402): a candidate's level is at or above its own or has aged,
and the partition has a set-aside area. -/
def State.callsAside (s : State) (part tid : Nat) : Bool :=
  let f := s.asFree tid
  bits (s.part part).cesav 51 12 != 0 && [3, 2, 1, 0].any fun h =>
    (f.candAt part tid h).isSome && (decide ((s.th tid).lq ≤ h) || decide (8 ≤ (s.part part).age h))

/-- The set-aside context in tile mode that goes ahead of every candidate at the end of a slice (R386). -/
def State.tileAside (s : State) (part tid : Nat) : Option Aside :=
  (s.part part).aside.find? fun a => a.tid == tid && a.tile && s.asideReady a

/-- Grants a thread that has just been freed at the end of a slice. -/
def State.grantNext (s : State) (part tid : Nat) : Option State :=
  match s.tileAside part tid with
  | some a => s.resumeAside part a (s.granted part tid a.level)
  | none =>
    match s.choose part tid with
    | some (h, .aside a) => s.resumeAside part a (s.granted part tid h)
    | some (h, .iter prio j e) =>
      let s' := s.dispatch part tid prio j e (s.granted part tid h)
      if (s'.th tid).run == .running then some s' else none
    | none => none

/-- Sets a context aside and gives its thread to the next candidate (R386, R402). -/
def State.setAside (s0 : State) (part tid debt : Nat) : State :=
  if s0.kept tid then s0
  else match s0.quiet tid with
  | none => s0
  | some s =>
    let s := s.squash tid
    let s := s.setTh tid { s.th tid with debt := debt, noFetch := false }
    let t := s.th tid
    let a : Aside := ⟨tid, t.lq, s.held tid, t.run == .suspended, t.fseq, t.fOwner, t.tile, t.recs⟩
    match s.saveImage tid part false (s.slotOf part tid) false false with
    | .wait => s0
    | .refused _ addr s =>
      let s := s.dropTileLeave tid
      let s := s.setTh tid { s.th tid with ceHalted := true, refused := some (0, 0), refAside := true }
      s.postHold tid { s.recFor tid true 7 with gpa := w64 addr }
    | .done _ s =>
      let s := s.dropTileLeave tid
      let s := (s.setTh tid { s.th tid with run := .free, debt := 0 }).setHeld tid 0
      match s.grantNext part tid with
      | none => s0
      | some s => s.setPart part { s.part part with aside := (s.part part).aside ++ [a] }

/-- TIME_SLICE_END. With a cut, the next vector instruction is trimmed there first (R398); without, the slice ends: the context is set
aside where R386 calls for it, else runs on. Nothing happens while an operation runs that is not pre-emptible, or that has already acted
outside the module (18 R387; 04 R104). -/
def execTimeSliceEnd (tid : BitVec 9) (cut overrun : Nat) (s : State) : Out :=
  let n := tid.toNat
  let t := s.th n
  .next (match (s.pair (pairOf n)).part with
    | none => s
    | some part =>
      if t.ceHalted || !(t.run == .running || (t.run == .suspended && t.toPost.isEmpty)) || (s.running n).isSome ||
        s.kept n || s.halting n then s
      else if s.callsAside part n then
        if cut ≠ 0 ∧ t.run = .running ∧ !t.noFetch then s.setTh n { t with cut := cut }
        else s.setAside part n (t.debt + overrun)
      else
        let p := s.part part
        let d := if bits p.cesav 51 12 = 0 then t.debt else t.debt + overrun
        s.setTh n { t with noFetch := false, cut := 0, debt := d - p.slice })

/-- WAIT_EXPIRE. -/
def execWaitExpire (tid : BitVec 9) (s : State) : Out :=
  .next (s.setTh tid.toNat { s.th tid.toNat with waiting := false })

/-! ## The watchdog -/

/-- The operations of a word that are not pre-emptible: tile operations in tile mode, wbload, ebatch, pklook. -/
def notPreemptible (tile : Bool) (w : BitVec 32) : Bool :=
  let major := w.extractLsb' 26 6
  let f := w.extractLsb' 0 5
  (tile && major == 0x10) || (major == 0x21 && f == 0) || (major == 0x28 && f == 0) || (major == 0x2A && f == 6)

/-- The major and function of an operation, as word bits. -/
def opBits (w : BitVec 32) : Word := (w &&& 0xFC00001F).zeroExtend 64

/-- The completion record a command names. -/
def Cmd.crec (c : Cmd) : Nat :=
  match c.op with
  | .pklook => ((c.words[0]?).getD 0).toNat
  | _ => if skRec c.record % 32 = 0 then skRec c.record else 0

/-- The word of the instruction a thread is at: the oldest of its vector queue, else the one at its program counter. -/
def State.wordAt (s : State) (tid : Nat) : Option (BitVec 32) :=
  match (s.th tid).vq with
  | q :: _ => some q.word
  | [] => match (s.fetch tid).1 with
    | .word w => some w
    | _ => none

/-- The address of that instruction. -/
def State.pcAt (s : State) (tid : Nat) : Word :=
  match (s.th tid).vq with
  | q :: _ => q.front.pc
  | [] => (s.th tid).pc

/-- What the watchdog finds running past its limit: the accepted command, or the operation the thread is at, which has started when requests
of it that it may not leave are out; a wait that has not started never reaches the watchdog (R399). -/
def State.watched (s : State) (tid : Nat) : Option (Option Cmd × Word) :=
  match s.running tid with
  | some c => some (some c, opBits (if c.op == .pklook then Enc.pklook 0 0 0 0 0 else Enc.skpeel 0 0))
  | none =>
    if !s.kept tid then none
    else match s.wordAt tid with
      | some w => if notPreemptible (s.th tid).tile w then some (none, opBits w) else none
      | none => none

/-- WATCHDOG_EXPIRE (R399): the context ends, a command cut off is short with CAUSE 9 and DET 4, and a record of kind 8 goes to both
queues. -/
def execWatchdogExpire (tid : BitVec 9) (s : State) : Out :=
  let n := tid.toNat
  .next (match s.watched n with
    | none => s
    | some (c, value) =>
      let r := { s.recFor n false 8 with value := value, pc := (c.map Cmd.pc).getD (s.pcAt n) }
      let s := match c with
        | some c => s.endCmd c c.crec ⟨0, cPreempted, 0, 4, 0, 0, 1⟩
        | none => s
      let s := (s.squash n).endContext n
      (s.postHold n r).postHold n { r with ownerQ := true })

/-! ## Replay commands -/

/-- A malformed replay record of a ring, for the partition it names (R394). -/
def State.replayBad (s : State) (own : Bool) (part : Nat) (r : List Byte) : Bool :=
  recField r 0 1 != 1 || decide (2 ≤ recField r 2 1) || decide (2 ≤ recField r 4 1) || !recZero r 5 3 ||
  (!own && recField r 3 1 != 0) || decide (64 ≤ recField r 3 1) || (s.part part).mode == .inactive ||
  decide (s.pairCount part ≤ recField r 1 1) ||
  (recField r 4 1 == 1 && !nameOk (s.pairCount part) (w64 (recField r 8 8)))

/-- Whether a replay's TOKEN and ring are those of the record that stopped the thread's context, or a context set aside from it
(R396). -/
def State.replayFits (s : State) (tid : Nat) (r : Replay) : Bool × Option Aside :=
  let t := s.th tid
  let now := (t.run == .suspended || t.run == .stopped) && t.toPost.isEmpty && t.fOwner == r.ownerQ && t.fseq == r.token
  let as_ := match (s.pair (pairOf tid)).part with
    | some n => (s.part n).aside.find? fun a => a.tid == tid && a.waiting && a.fOwner == r.ownerQ && a.fseq == r.token
    | none => none
  (now, as_)

/-- A replay takes effect: the context resumes, or keeps it while halted by the owner; a set-aside context becomes a candidate; one that no
longer applies is counted in RBAD (R397). -/
def State.replayNow (s : State) (tid : Nat) (r : Replay) : State :=
  match s.replayFits tid r with
  | (true, _) =>
    let t := s.th tid
    if t.ceHalted then s.setTh tid { t with replay := some { r with cond := none } }
    else s.setTh tid { t with run := .running, replay := none }
  | (false, some a) =>
    match (s.pair (pairOf tid)).part with
    | some n =>
      let s := s.setPart n { s.part n with aside := (s.part n).aside.map fun o => if o == a then { o with waiting := false } else o }
      s.setTh tid { s.th tid with replay := none }
    | none => s
  | (false, none) =>
    let s := match (s.pair (pairOf tid)).part with
      | some n => s.replayLost n r
      | none => s
    s.setTh tid { s.th tid with replay := none }

/-- Takes one replay record whose bytes are given (R395, R397); `base` is its queue. -/
def State.takeReplay (s : State) (own : Bool) (part base : Nat) (r : List Byte) : State :=
  if s.replayBad own part r then s.bump (base + 0x30)
  else match s.pairAt part (recField r 1 1) with
    | none => s.bump (base + 0x30)
    | some l =>
      let tid := 2 * l + recField r 2 1
      let cond : Option (Word × Word) := if recField r 4 1 = 1 then some (w64 (recField r 8 8), w64 (recField r 0x10 8)) else none
      let rp : Replay := ⟨cond, recField r 0x18 8, own⟩
      let fits := s.replayFits tid rp
      if (s.th tid).replay.isSome || !(fits.1 || fits.2.isSome) then s.bump (base + 0x30)
      else match cond with
        | some (nm, k) => if s.reached part nm k.toNat then s.replayNow tid rp else s.setTh tid { s.th tid with replay := some rp }
        | none => s.replayNow tid rp

/-- REPLAY_COMMAND: the fault unit takes the next record of a ring, if there is one and RCAP is in range (R392). The ring lies behind the
fault records, of which there are CAP as it stands. -/
def execReplayCommand (own : Bool) (part : BitVec 6) (s : State) : Out :=
  let base := s.fqBase own part.toNat
  .next (
    if (own && base = 0) || (!own && (s.part part.toNat).mode == .inactive) then s
    else
      let head := leNat (s.bytes (base + 0x20) 8)
      let tail := leNat (s.bytes (base + 0x28) 8)
      if head = tail then s
      else
        let c := s.fqCaps own part.toNat
        match c.2.1 with
        | some rcap =>
          let s := c.2.2
          let cap := c.1.getD (leNat (s.bytes base 4))
          let r := s.bytes (base + 0x40 + cap * 64 + head % rcap * 32) 32
          let s := s.sysWrite (base + 0x20) (leBytes 8 (head + 1))
          s.takeReplay own (if own then recField r 3 1 else part.toNat) base r
        | none => s)

/-- REPLAY_CONDITION_MET: a held replay whose counter has reached its number. -/
def execReplayConditionMet (tid : BitVec 9) (s : State) : Out :=
  let n := tid.toNat
  .next (match (s.th n).replay, (s.pair (pairOf n)).part with
    | some rp, some part =>
      (match rp.cond with
      | some (nm, k) => if s.reached part nm k.toNat then s.replayNow n rp else s
      | none => s)
    | _, _ => s)

/-- Posts a thread's waiting records, each behind those that still wait for its queue (R392). -/
def State.postWaiting (s : State) (tid : Nat) : (todo kept : List FaultRec) → State
  | [], kept => s.setTh tid { s.th tid with toPost := kept }
  | r :: rest, kept =>
    if kept.any fun k => k.ownerQ == r.ownerQ then s.postWaiting tid rest (kept ++ [r])
    else match s.post r with
      | (none, s) => s.postWaiting tid rest (kept ++ [r])
      | (some seq, s) =>
        let t := s.th tid
        State.postWaiting (if r.kind = 7 ∨ r.kind = 8 then s else s.setTh tid { t with fseq := seq, fOwner := r.ownerQ }) tid rest kept

/-- DEFERRED_FAULT_POST: the records that waited for room are posted. -/
def execDeferredFaultPost (tid : BitVec 9) (s : State) : Out :=
  .next (s.postWaiting tid.toNat (s.th tid.toNat).toPost [])

end Sys2Proof.Machine
end

