-- ==== Sys2Proof/Machine/CtxEngine.lean ====
section
/-! DEFINITION. The context engine (19 R400 to R404; 05 R145): commands start at a write of CTL with GO, and end at
CONTEXT_ENGINE_DONE. -/

namespace Sys2Proof.Machine

/-! ## Preconditions -/

/-- Whether a thread holds a context. -/
def Thread.holds (t : Thread) : Bool := t.run != .free

/-- Whether an operation's preconditions hold (R400). -/
def State.ceReady (s : State) (c : Word) : Bool :=
  let quiesced := (s.part (ctlPart c)).mode == .quiesced
  match s.ceThread c with
  | none => if 7 ≤ ctlOp c then quiesced && ctlOp c ≤ 8 else false
  | some tid =>
    let t := s.th tid
    match ctlOp c with
    | 1 => t.holds && !t.ceHalted
    | 2 => t.holds && t.ceHalted
    | 3 => s.isFree tid
    | 4 => t.holds && t.ceHalted
    | 5 => t.holds && t.refused.isSome
    | 6 => t.holds && t.ceHalted
    | 7 => quiesced
    | 8 => quiesced
    | _ => false

/-! ## Starting -/

/-- Ends the commands of a thread that wait for other members: CAUSE 11, DET 4 (15 R326; 17 R359). As every command, each is performed behind
what its issue released (05 R135); one held back is ended when the halt is tried again. -/
def State.endMembers (s : State) (tid : Nat) : State :=
  (s.cmds.filter fun c => c.tid == tid).foldl (fun (s : State) c =>
    match c.op with
    | .creduce | .cgather | .cxpar => s.runCmd tid c.ctx c.num fun s c =>
        s.endCmd c (if coRec c.record % 32 = 0 then coRec c.record else 0) ⟨0, cShortfall, 0, 4, 0, 0, collCount c.op c.record⟩
    | .skxchg => s.runCmd tid c.ctx c.num fun s c =>
        s.endCmd c (if skRec c.record % 32 = 0 then skRec c.record else 0) (xchgEnd 4)
    | _ => s) s

/-- The front end of a thread that the owner halts stops fetching. An instruction that has started is trimmed at an element boundary, or keeps
ES (19 R398); whether the next is such an instruction, and the element, are free choices. -/
def State.haltFront (s : State) (tid : Nat) : State :=
  let c := s.fresh
  let s := c.2
  s.setTh tid { s.th tid with noFetch := true, cut := if Config.freeBit c.1 then (Config.freeWord c.1).toNat else 0 }

/-- A command names a context: a completed save is no longer the last one (20 R420). -/
def State.ceNamed (s : State) (c : Word) : State :=
  match s.ceThread c with
  | some tid => if ctlOp c = 0 ∨ ctlOp c = 7 ∨ ctlOp c = 8 then s else s.setTh tid { s.th tid with fullSave := false }
  | none => s

/-- A write of a slot's CTL (R400): ignored while the slot is busy; with GO it starts the operation, or refuses it with STAT 1. -/
def State.ceWrite (s : State) (n : Nat) (c : Word) : State :=
  let x := s.ceSlot n
  if x.busy then s
  else
    let s := s.setCe n { x with ctl := ctlKeep c }
    if !c.getLsbD 42 then s
    else if ctlOp c = 0 then s.ceEnd n 0 0
    else
    let s := s.ceNamed c
    if !s.ceReady c then s.ceEnd n 1 0
    else
      let x := s.ceSlot n
      let s := s.setCe n { x with busy := true, stat := 0, res := 0 }
      match ctlOp c, s.ceThread c with
      | 1, some tid => (s.haltFront tid).endMembers tid
      | _, _ => s

/-- A write of CTL with GO and an operation code. -/
def State.ceStart (s : State) (n op : Nat) (c : Word) : State := s.ceWrite n (setBits (setBits c 35 32 op) 42 42 1)

def execContextHalt (slot : BitVec 3) (ctl : Word) (s : State) : Out := .next (s.ceStart slot.toNat 1 ctl)
def execContextSave (slot : BitVec 3) (ctl : Word) (s : State) : Out := .next (s.ceStart slot.toNat 2 ctl)
def execContextRestore (slot : BitVec 3) (ctl : Word) (s : State) : Out := .next (s.ceStart slot.toNat 3 ctl)
def execContextResume (slot : BitVec 3) (ctl : Word) (s : State) : Out := .next (s.ceStart slot.toNat 4 ctl)
def execCtxRetry (slot : BitVec 3) (ctl : Word) (s : State) : Out := .next (s.ceStart slot.toNat 5 ctl)
def execAbandon (slot : BitVec 3) (ctl : Word) (s : State) : Out := .next (s.ceStart slot.toNat 6 ctl)
def execExportWalker (slot : BitVec 3) (ctl : Word) (s : State) : Out := .next (s.ceStart slot.toNat 7 ctl)
def execImportWalker (slot : BitVec 3) (ctl : Word) (s : State) : Out := .next (s.ceStart slot.toNat 8 ctl)

/-- A reserved operation, 9 to 15 as CTL has it: refused with STAT 1. -/
def execContextEngineReserved (slot : BitVec 3) (ctl : Word) (s : State) : Out :=
  .next (s.ceStart slot.toNat (9 + (ctlOp ctl + 7) % 16 % 7) ctl)

/-! ## Ending -/

/-- halt (R400): the context is at an instruction boundary once its accepted commands and its accesses are performed (05 R145; 04
R115); it keeps its lanes and the tile unit, and gives up its leave (20 R418). An operation that has acted outside the module, or runs to
completion, is first finished (04 R104; 18 R387). -/
def State.ceHalt (s : State) (n tid : Nat) : State :=
  let s := s.endMembers tid
  if (s.cmds.any fun c => c.tid == tid) || s.kept tid then s
  else match s.quiet tid with
    | none => s
    | some s =>
      let s := (s.squash tid).dropTileLeave tid
      (s.setTh tid { s.th tid with ceHalted := true, noFetch := false, fullSave := false }).ceEnd n 0 0

/-- A save or its repetition, by the CTL and ADDR it was asked with (R401). -/
def State.ceSave (s : State) (n tid : Nat) (c addr : Word) : State :=
  match s.saveImage tid (ctlPart c) (ctlSpa c) addr.toNat (ctlPrt c) (ctlScr c) with
  | .wait => s
  | .refused code a s =>
    let s := s.setTh tid { s.th tid with refused := some (addr, ctlKeep c), refAside := false, fullSave := false }
    let s := if code = 2 then s.postHold tid { s.recFor tid true 7 with gpa := w64 a } else s
    s.ceEnd n code (if code = 2 then a else 0)
  | .done size s =>
    (s.setTh tid { s.th tid with refused := none, fullSave := ctlPrt c && ctlScr c }).ceEnd n 0 size

/-- The repetition of a refused set-aside save: the context is then set aside (R402; log entry 38). -/
def State.retryAside (s : State) (n tid part : Nat) : State :=
  match s.saveImage tid part false (s.slotOf part tid) false false with
  | .wait => s
  | .refused code a s =>
    (s.postHold tid { s.recFor tid true 7 with gpa := w64 a }).ceEnd n code (if code = 2 then a else 0)
  | .done size s =>
    let t := s.th tid
    let a : Aside := ⟨tid, t.lq, s.held tid, t.run == .suspended, t.fseq, t.fOwner, t.tile, t.recs⟩
    let s := (s.setTh tid { t with
      run := .free, ceHalted := false, refused := none, refAside := false, fullSave := false, debt := 0 }).setHeld tid 0
    (s.setPart part { s.part part with aside := (s.part part).aside ++ [a] }).ceEnd n 0 size

/-- restore (R403): the image's context, halted. The places of its binding records are not in the image: they are free values. -/
def State.ceRestore (s : State) (n tid : Nat) (c addr : Word) : State :=
  match s.readImage tid (ctlPart c) (ctlSpa c) addr.toNat with
  | (.error none, s) => s
  | (.error (some (code, a)), s) => s.ceEnd n code (if code = 2 then a else 0)
  | (.ok img, s') =>
    if imgOpt img 1 && s.boardTaken (pairOf tid) then s else
    let s := s'
    let k := s.freeCtr
    let s := { s with freeCtr := k + 8 }
    ((s.putImage_ tid img true ((List.range 8).map fun j => Config.freeWord (k + j))).relive tid).ceEnd n 0 0

/-- resume (R400): the context runs, a kept replay first. A context stopped by `halt` still waits for its replay (09 R220); one whose
record is not yet posted stays stopped (R392). -/
def State.ceResume (s : State) (n tid : Nat) : State :=
  let t := s.th tid
  let kept := match t.replay with
    | some r => r.cond.isNone && (s.replayFits tid r).1
    | none => false
  let run : Run := if !t.toPost.isEmpty then t.run else if kept then .running
    else match t.run with
      | .suspended => .running
      | .doubleTrap => .running
      | r => r
  let s := s.setTh tid { t with
    ceHalted := false, refused := none, refAside := false, fullSave := false, run := run, replay := if kept then none else t.replay }
  let s := if t.tile && !t.leave && !t.leaveAsked then s.askLeave ⟨tid, true, 0, 0, tileWeight, false⟩ else s
  s.ceEnd n 0 0

/-- Writes the walker block of a partition (R404). -/
def State.ceExport (s : State) (n : Nat) (c addr : Word) : State :=
  match s.imageRange (ctlPart c) (ctlSpa c) addr.toNat 0x8000 true with
  | (.wait, _) => s
  | (.stat code a, s) => s.ceEnd n code (if code = 2 then a else 0)
  | (.ok pas, s) => (s.putImagePages pas (s.part (ctlPart c)).walkerBlock).ceEnd n 0 0

/-- Reads a walker block into the launch queues of a partition (R404). -/
def State.ceImport (s : State) (n : Nat) (c addr : Word) : State :=
  match s.imageRange (ctlPart c) (ctlSpa c) addr.toNat 0x8000 false with
  | (.wait, _) => s
  | (.stat code a, s) => s.ceEnd n code (if code = 2 then a else 0)
  | (.ok pas, s) =>
    let img := s.getImagePages pas
    if s.pagesLost pas then s.ceEnd n 8 0
    else if wkBad (s.part (ctlPart c)) img then s.ceEnd n 4 0
    else (s.importWalk (ctlPart c) img).ceEnd n 0 0

/-- CONTEXT_ENGINE_DONE: a slot's operation completes; one whose preconditions no longer hold is refused. -/
def execContextEngineDone (slot : BitVec 3) (s : State) : Out :=
  let n := slot.toNat
  let x := s.ceSlot n
  let c := x.ctl
  .next (
    if !x.busy then s
    else if !s.ceReady c then s.ceEnd n 1 0
    else match ctlOp c, s.ceThread c with
      | 1, some tid => s.ceHalt n tid
      | 2, some tid => s.ceSave n tid c x.addr
      | 3, some tid => s.ceRestore n tid c x.addr
      | 4, some tid => s.ceResume n tid
      | 5, some tid =>
        if (s.th tid).refAside then s.retryAside n tid (ctlPart c)
        else (match (s.th tid).refused with
          | some (addr, c') => s.ceSave n tid (setBits c' 35 32 2) addr
          | none => s.ceEnd n 1 0)
      | 6, some tid => (s.endContext tid).ceEnd n 0 0
      | 7, _ => s.ceExport n c x.addr
      | _, _ => s.ceImport n c x.addr)

end Sys2Proof.Machine
end

