-- ==== Sys2Proof/Machine/Crypto.lean ====
section
/-! DEFINITION. The published algorithms that 20 R411 and R413 name: SHA-256 (FIPS 180-4) and SLH-DSA-SHA2-128s in pure mode with an empty
context (FIPS 205). Log entry 11. -/

namespace Sys2Proof.Machine

/-! ## SHA-256 -/

/-- The round constants. -/
def shaK : List (BitVec 32) :=
  [0x428a2f98, 0x71374491, 0xb5c0fbcf, 0xe9b5dba5, 0x3956c25b, 0x59f111f1, 0x923f82a4, 0xab1c5ed5] ++
  [0xd807aa98, 0x12835b01, 0x243185be, 0x550c7dc3, 0x72be5d74, 0x80deb1fe, 0x9bdc06a7, 0xc19bf174] ++
  [0xe49b69c1, 0xefbe4786, 0x0fc19dc6, 0x240ca1cc, 0x2de92c6f, 0x4a7484aa, 0x5cb0a9dc, 0x76f988da] ++
  [0x983e5152, 0xa831c66d, 0xb00327c8, 0xbf597fc7, 0xc6e00bf3, 0xd5a79147, 0x06ca6351, 0x14292967] ++
  [0x27b70a85, 0x2e1b2138, 0x4d2c6dfc, 0x53380d13, 0x650a7354, 0x766a0abb, 0x81c2c92e, 0x92722c85] ++
  [0xa2bfe8a1, 0xa81a664b, 0xc24b8b70, 0xc76c51a3, 0xd192e819, 0xd6990624, 0xf40e3585, 0x106aa070] ++
  [0x19a4c116, 0x1e376c08, 0x2748774c, 0x34b0bcb5, 0x391c0cb3, 0x4ed8aa4a, 0x5b9cca4f, 0x682e6ff3] ++
  [0x748f82ee, 0x78a5636f, 0x84c87814, 0x8cc70208, 0x90befffa, 0xa4506ceb, 0xbef9a3f7, 0xc67178f2]

/-- The eight words of a hash in progress. -/
structure Sha where
  a : BitVec 32
  b : BitVec 32
  c : BitVec 32
  d : BitVec 32
  e : BitVec 32
  f : BitVec 32
  g : BitVec 32
  h : BitVec 32
  deriving DecidableEq, Repr

def shaInit : Sha := ⟨0x6a09e667, 0xbb67ae85, 0x3c6ef372, 0xa54ff53a, 0x510e527f, 0x9b05688c, 0x1f83d9ab, 0x5be0cd19⟩

/-- One round with its constant and message word. -/
def Sha.round (x : Sha) (k w : BitVec 32) : Sha :=
  let s1 := x.e.rotateRight 6 ^^^ x.e.rotateRight 11 ^^^ x.e.rotateRight 25
  let ch := (x.e &&& x.f) ^^^ (~~~x.e &&& x.g)
  let t1 := x.h + s1 + ch + k + w
  let s0 := x.a.rotateRight 2 ^^^ x.a.rotateRight 13 ^^^ x.a.rotateRight 22
  let maj := (x.a &&& x.b) ^^^ (x.a &&& x.c) ^^^ (x.b &&& x.c)
  ⟨t1 + (s0 + maj), x.a, x.b, x.c, x.d + t1, x.e, x.f, x.g⟩

/-- The message schedule's next word, from the sixteen before it. -/
def shaNext (w : List (BitVec 32)) : BitVec 32 :=
  let at_ (i : Nat) : BitVec 32 := (w[i]?).getD 0
  let s0 := (at_ 1).rotateRight 7 ^^^ (at_ 1).rotateRight 18 ^^^ (at_ 1 >>> 3)
  let s1 := (at_ 14).rotateRight 17 ^^^ (at_ 14).rotateRight 19 ^^^ (at_ 14 >>> 10)
  at_ 0 + s0 + at_ 9 + s1

/-- The rounds of one block, over the sixteen message words to come. -/
def shaRounds : List (BitVec 32) → List (BitVec 32) → Sha → Sha
  | [], _, x => x
  | k :: ks, w, x => shaRounds ks (w.drop 1 ++ [shaNext w]) (x.round k (w.headD 0))

/-- A number from bytes, and bytes of one, most significant first. -/
def beNat (bs : List Byte) : Nat := bs.foldl (fun a b => a * 256 + b.toNat) 0
def beBytes (n v : Nat) : List Byte := (leBytes n v).reverse

def Sha.add (x y : Sha) : Sha := ⟨x.a + y.a, x.b + y.b, x.c + y.c, x.d + y.d, x.e + y.e, x.f + y.f, x.g + y.g, x.h + y.h⟩

/-- Takes blocks of 64 bytes in turn. -/
def shaBlocks : Nat → List Byte → Sha → Sha
  | 0, _, x => x
  | n + 1, bs, x =>
    let w := (List.range 16).map fun i => BitVec.ofNat 32 (beNat ((bs.drop (4 * i)).take 4))
    shaBlocks n (bs.drop 64) (x.add (shaRounds shaK w x))

/-- The SHA-256 hash of a message. -/
def sha256 (m : List Byte) : List Byte :=
  let zeros := (119 - m.length % 64) % 64
  let bs := m ++ [0x80] ++ List.replicate zeros 0 ++ beBytes 8 (8 * m.length)
  let x := shaBlocks (bs.length / 64) bs shaInit
  [x.a, x.b, x.c, x.d, x.e, x.f, x.g, x.h].flatMap fun w => beBytes 4 w.toNat

/-- HMAC-SHA-256 under a key of at most 64 bytes. -/
def hmac (key m : List Byte) : List Byte :=
  let k := key ++ List.replicate (64 - key.length) 0
  sha256 (k.map (· ^^^ 0x5C) ++ sha256 (k.map (· ^^^ 0x36) ++ m))

/-- MGF1 with SHA-256: n bytes from a seed. -/
def mgf1 (seed : List Byte) (n : Nat) : List Byte := ((List.range ((n + 31) / 32)).flatMap fun i => sha256 (seed ++ beBytes 4 i)).take n

/-! ## SLH-DSA-SHA2-128s

n = 16, h = 63, d = 7, h' = 9, a = 12, k = 14, w = 16; 35 chains. -/

/-- An address: layer, tree, type, key pair, and the two words whose use the type decides. -/
structure Adrs where
  layer : Nat
  tree : Nat
  type : Nat
  pair : Nat
  x : Nat
  y : Nat
  deriving DecidableEq, Repr

/-- The compressed form of an address. -/
def Adrs.bytes (a : Adrs) : List Byte := beBytes 1 a.layer ++ beBytes 8 a.tree ++ beBytes 1 a.type ++ beBytes 4 a.pair ++ beBytes 4 a.x ++ beBytes 4 a.y

/-- The hash of the tree functions and, over a secret seed, the pseudorandom function. -/
def slhHash (seed : List Byte) (a : Adrs) (m : List Byte) : List Byte := (sha256 (seed ++ List.replicate 48 0 ++ a.bytes ++ m)).take 16

/-- The value of the i-th group of b bits of a byte string, most significant first. -/
def bitGroup (bs : List Byte) (b i : Nat) : Nat := beNat bs / 2 ^ (8 * bs.length - b * (i + 1)) % 2 ^ b

/-- `s` steps of a chain from step `i`. -/
def slhChain (seed : List Byte) (a : Adrs) : (s i : Nat) → List Byte → List Byte
  | 0, _, v => v
  | s + 1, i, v => slhChain seed a s (i + 1) (slhHash seed { a with y := i } v)

/-- The 35 digits of a message, its checksum last. -/
def wotsDigits (m : List Byte) : List Nat :=
  let d := (List.range 32).map (bitGroup m 4)
  let sum := d.foldl (fun c x => c + (15 - x)) 0
  d ++ (List.range 3).map (bitGroup (beBytes 2 (sum * 16)) 4)

/-- Chunk i of 16 bytes. -/
def chunk16 (bs : List Byte) (i : Nat) : List Byte := (bs.drop (16 * i)).take 16

/-- The key of one chain. -/
def wotsSecret (seed sk : List Byte) (a : Adrs) (i : Nat) : List Byte := slhHash seed { a with type := 5, x := i, y := 0 } sk

/-- A one-time public key, from its chains' ends. -/
def wotsClose (seed : List Byte) (a : Adrs) (ends : List (List Byte)) : List Byte := slhHash seed { a with type := 1, x := 0, y := 0 } ends.flatten
def wotsPk (seed sk : List Byte) (a : Adrs) : List Byte :=
  wotsClose seed a ((List.range 35).map fun i => slhChain seed { a with type := 0, x := i, y := 0 } 15 0 (wotsSecret seed sk a i))
def wotsSign (seed sk : List Byte) (a : Adrs) (m : List Byte) : List Byte :=
  (wotsDigits m).zipIdx.flatMap fun d => slhChain seed { a with type := 0, x := d.2, y := 0 } d.1 0 (wotsSecret seed sk a d.2)
def wotsFrom (seed : List Byte) (a : Adrs) (m sig : List Byte) : List Byte :=
  wotsClose seed a ((wotsDigits m).zipIdx.map fun d => slhChain seed { a with type := 0, x := d.2, y := 0 } (15 - d.1) d.1 (chunk16 sig d.2))

/-- The node of height z and index i of a tree over leaves. `a` is the address of its nodes. -/
def slhNode (seed : List Byte) (a : Adrs) (leaf : Nat → List Byte) : (z i : Nat) → List Byte
  | 0, i => leaf i
  | z + 1, i => slhHash seed { a with x := z + 1, y := i } (slhNode seed a leaf z (2 * i) ++ slhNode seed a leaf z (2 * i + 1))
/-- The authentication path of a leaf: the sibling at each height. -/
def slhPath (seed : List Byte) (a : Adrs) (leaf : Nat → List Byte) (h i : Nat) : List Byte :=
  (List.range h).flatMap fun j => slhNode seed a leaf j (i / 2 ^ j ^^^ 1)
/-- The root a leaf and its path give. -/
def slhClimb (seed : List Byte) (a : Adrs) (h i : Nat) (leaf path : List Byte) : List Byte :=
  (List.range h).foldl (fun v j =>
    let s := chunk16 path j
    slhHash seed { a with x := j + 1, y := i / 2 ^ (j + 1) } (if i / 2 ^ j % 2 = 0 then v ++ s else s ++ v)) leaf

/-- The address of a tree of the hypertree. -/
def xmssAdrs (layer tree : Nat) : Adrs := ⟨layer, tree, 2, 0, 0, 0⟩
def xmssLeaf (seed sk : List Byte) (layer tree i : Nat) : List Byte := wotsPk seed sk ⟨layer, tree, 0, i, 0, 0⟩
def xmssRoot (seed sk : List Byte) (layer tree : Nat) : List Byte := slhNode seed (xmssAdrs layer tree) (xmssLeaf seed sk layer tree) 9 0
def xmssFrom (seed : List Byte) (layer tree i : Nat) (m sig : List Byte) : List Byte :=
  slhClimb seed (xmssAdrs layer tree) 9 i (wotsFrom seed ⟨layer, tree, 0, i, 0, 0⟩ m sig) (sig.drop 560)

/-- The layers of the hypertree above a leaf: the tree and the leaf in it. -/
def slhPlace (tree leaf layer : Nat) : Nat × Nat :=
  let all := tree * 512 + leaf
  (all / 512 ^ (layer + 1), all / 512 ^ layer % 512)
def htSign (seed sk : List Byte) (tree leaf : Nat) (m : List Byte) : List Byte :=
  ((List.range 7).foldl (fun (r : List Byte × List Byte) j =>
    let p := slhPlace tree leaf j
    (r.1 ++ wotsSign seed sk ⟨j, p.1, 0, p.2, 0, 0⟩ r.2 ++ slhPath seed (xmssAdrs j p.1) (xmssLeaf seed sk j p.1) 9 p.2,
      if j = 6 then [] else xmssRoot seed sk j p.1)) ([], m)).1
def htFrom (seed : List Byte) (tree leaf : Nat) (m sig : List Byte) : List Byte :=
  (List.range 7).foldl (fun v j =>
    let p := slhPlace tree leaf j
    xmssFrom seed j p.1 p.2 v ((sig.drop (704 * j)).take 704)) m

/-- The address of the few-time trees at a leaf. -/
def forsAdrs (tree leaf : Nat) : Adrs := ⟨0, tree, 3, leaf, 0, 0⟩
def forsSecret (seed sk : List Byte) (tree leaf i : Nat) : List Byte := slhHash seed { forsAdrs tree leaf with type := 6, y := i } sk
def forsLeaf (seed sk : List Byte) (tree leaf i : Nat) : List Byte :=
  slhHash seed { forsAdrs tree leaf with y := i } (forsSecret seed sk tree leaf i)
def forsSign (seed sk : List Byte) (tree leaf : Nat) (md : List Byte) : List Byte :=
  (List.range 14).flatMap fun t =>
    let i := bitGroup md 12 t
    forsSecret seed sk tree leaf (4096 * t + i) ++
      (List.range 12).flatMap fun j =>
        slhNode seed (forsAdrs tree leaf) (forsLeaf seed sk tree leaf) j ((4096 * t + i) / 2 ^ j ^^^ 1)
def forsFrom (seed : List Byte) (tree leaf : Nat) (md sig : List Byte) : List Byte :=
  slhHash seed { forsAdrs tree leaf with type := 4 } <| (List.range 14).flatMap fun t =>
    let i := 4096 * t + bitGroup md 12 t
    let s := (sig.drop (208 * t)).take 208
    slhClimb seed (forsAdrs tree leaf) 12 i (slhHash seed { forsAdrs tree leaf with y := i } (s.take 16)) (s.drop 16)

/-- The digest of a message: what the few-time trees sign, the tree and the leaf. -/
def slhDigest (rand seed root m : List Byte) : List Byte × Nat × Nat :=
  let d := mgf1 (rand ++ seed ++ sha256 (rand ++ seed ++ root ++ [0, 0] ++ m)) 30
  (d.take 21, beNat ((d.drop 21).take 7) % 2 ^ 54, beNat ((d.drop 28).take 2) % 2 ^ 9)

/-- Verifies a signature under a public key, its seed and its root. -/
def slhVerify (pk m sig : List Byte) : Bool :=
  let seed := pk.take 16
  let root := pk.drop 16
  let d := slhDigest (sig.take 16) seed root m
  let fors := forsFrom seed d.2.1 d.2.2 d.1 ((sig.drop 16).take 2912)
  sig.length == 7856 && pk.length == 32 && htFrom seed d.2.1 d.2.2 fors (sig.drop 2928) == root

/-- A private key: the secret seed, the key of the message's randomness, and the public seed. -/
structure SlhKey where
  sk : List Byte
  prf : List Byte
  seed : List Byte
def SlhKey.root (k : SlhKey) : List Byte := xmssRoot k.seed k.sk 6 0
def SlhKey.pk (k : SlhKey) : List Byte := k.seed ++ k.root

/-- Signs a message with some randomness. -/
def SlhKey.sign (k : SlhKey) (random m : List Byte) : List Byte :=
  let rand := (hmac k.prf (random ++ [0, 0] ++ m)).take 16
  let d := slhDigest rand k.seed k.root m
  let fors := forsSign k.seed k.sk d.2.1 d.2.2 d.1
  rand ++ fors ++ htSign k.seed k.sk d.2.1 d.2.2 (forsFrom k.seed d.2.1 d.2.2 d.1 fors)

end Sys2Proof.Machine
end

