-- ==== Sys2Proof/Machine/Partition.lean ====
section
/-! DEFINITION. Partition commands (01 R25 to R29), page migration (02 R70 to R72; 05 R146) and clearing the hotness table
(02 R69). -/

namespace Sys2Proof.Machine

/-! ## Descriptors and crossbar tables (R26, R27) -/

/-- Bytes 0 to 31 as a set of pairs. -/
def maskOf (bs : List Byte) : BitVec 256 := BitVec.ofNat 256 (leNat (bs.take 32))
def pairsIn (m : BitVec 256) : List Nat := (List.range 256).filter fun l => m.getLsbD l

/-- A malformed descriptor. -/
def State.descBad (s : State) (d : List Byte) : Bool :=
  let f (o : Nat) : Nat := recField d o 8
  let hole (a : Nat) : Bool := s.region a == .hole
  maskOf d == 0 || !recZero d 0x49 7 || !recZero d 0x58 40 || decide (4 ≤ recField d 0x48 1) || recField d 0x56 2 / 16 != 0 ||
  f 0x20 % 4096 != 0 || f 0x28 % 4096 != 0 || f 0x30 % 4096 != 0 || f 0x40 % 32 != 0 || decide (2 ^ 52 < f 0x28) ||
  hole (f 0x20) || (f 0x30 != 0 && hole (f 0x30)) || hole (f 0x38 / 64 * 64) || hole (f 0x40)

/-- Whether bytes of a table can be read: a table outside the module's own memories counts as unreadable, as does one over an uncorrectable
word (DESIGN CHOICE, log entry 84: the spec does not say what "unreadable" covers). -/
def State.readable (s : State) (a n : Nat) : Bool :=
  (s.region a).isLocal && (s.region (a + n - 1) == s.region a) && !s.lostIn a n

/-- Loads the crossbar masks of pairs from a table, entry j for the pair of index j. -/
def State.loadMasks (s : State) (ls : List Nat) (table : Nat) : State :=
  ls.zipIdx.foldl (fun (s : State) e => s.setPair e.1 { s.pair e.1 with xbar := maskOf (s.bytes (table + 32 * e.2) 32) }) s

/-- A launch-queue entry activation refuses (18 R372). -/
def State.queueBad (s : State) (q : LaunchQ) : Bool := q.cap != 0 && (q.base.toNat % 128 != 0 || !(s.region q.base.toNat).isMain)

/-! ## PCMD (R28) -/

/-- Ends the command with a result. -/
def State.pcmdEnd (s : State) (res : Nat) : State := { s with pcmdRes := BitVec.ofNat 3 res, pcmdJob := .idle }
/-- A command runs. RES reads 0 meanwhile (DESIGN CHOICE, log entry 85: the spec does not say what it reads while BUSY is 1). -/
def State.pcmdRun (s : State) (j : PcmdJob) : State := { s with pcmdRes := 0, pcmdJob := j }

/-- The partition a descriptor describes, over its registers. -/
def Part.describe (p : Part) (d : List Byte) : Part :=
  let f (o : Nat) : Word := w64 (recField d o 8)
  { p with
    mode := .active, pairs := maskOf d, s2root := f 0x20, gplim := f 0x28, dirty := f 0x30, faultq := f 0x38, xbarAddr := f 0x40,
    prio := recField d 0x48 1 % 4, atb0 := f 0x50, fq := ⟨none, none⟩,
    lq := Vector.ofFn fun (k : Fin 4) => { p.lq[k] with head := 0, tail := 0 }, walk := [], aging := Vector.replicate 4 0, aside := [] }

/-- activate: the descriptor and the masks are read now, the rest follows at ACTIVATE_COMPLETE. -/
def State.activate (s : State) (n : Nat) : State :=
  let p := s.part n
  if p.mode ≠ .inactive then s.pcmdEnd 2
  else
    let at_ := s.ptb.toNat + 128 * n
    let d := s.bytes at_ 128
    let ls := pairsIn (maskOf d)
    let table := recField d 0x40 8
    if !s.readable at_ 128 || s.descBad d || !s.readable table (32 * ls.length) || p.lq.toList.any s.queueBad then s.pcmdEnd 4
    else if ls.any fun l => (s.pair l).part.isSome then s.pcmdEnd 1
    else (s.loadMasks ls table).pcmdRun (.activate (p.describe d))

/-- A write of PCMD: ignored while a command runs; a command that is refused ends at once (R28). -/
def State.pcmdWrite (s : State) (part : BitVec 6) (cmd : BitVec 3) : State :=
  if s.pcmdJob ≠ .idle then s
  else
    let n := part.toNat
    let s := { s with pcmdCmd := cmd, pcmdPart := part }
    let p := s.part n
    match cmd.toNat with
    | 0 => s
    | 1 => s.activate n
    | 2 => if p.mode = .active then s.pcmdRun .quiesce else s.pcmdEnd 2
    | 3 =>
      if p.mode = .quiesced then
        ((s.partPairs n).foldl (fun (s : State) l =>
          [2 * l, 2 * l + 1].foldl (fun (s : State) tid => if (s.th tid).holds then (s.squash tid).endContext tid else s) s)
          s).pcmdRun .deactivate
      else s.pcmdEnd 2
    | 4 =>
      if p.mode = .inactive then s.pcmdEnd 2
      else
        let ls := s.partPairs n
        let table := p.xbarAddr.toNat
        if s.readable table (32 * ls.length) then (s.loadMasks ls table).pcmdEnd 0 else s.pcmdEnd 4
    | 5 => if p.mode = .quiesced then (s.setPart n { p with mode := .active }).pcmdEnd 0 else s.pcmdEnd 2
    | _ => s.pcmdEnd 3

def execPartitionActivate (part : BitVec 6) (s : State) : Out := .next (s.pcmdWrite part 1)
def execPartitionQuiesce (part : BitVec 6) (s : State) : Out := .next (s.pcmdWrite part 2)
def execPartitionDeactivate (part : BitVec 6) (s : State) : Out := .next (s.pcmdWrite part 3)
def execReloadCrossbar (part : BitVec 6) (s : State) : Out := .next (s.pcmdWrite part 4)
def execPartitionResume (part : BitVec 6) (s : State) : Out := .next (s.pcmdWrite part 5)
/-- Codes 6 and 7; a reserved command of the row is taken as 6 where its code is neither. -/
def execPcmdReserved (part : BitVec 6) (cmd : BitVec 3) (s : State) : Out := .next (s.pcmdWrite part (if cmd = 7 then 7 else 6))

/-- A thread after activation: reset but for ATB and the numbering of its outbound requests. -/
def Thread.activated (t : Thread) (atb0 : Word) : Thread := { Thread.reset with atb := atb0, obNext := t.obNext }

/-- Zeroes a pair's storage and resets it and its threads (R28). -/
def State.activatePair (s : State) (n l idx : Nat) (atb0 : Word) : State :=
  let pp := s.physPair l
  let b := scratchBase pp
  let old := s.pair l
  let s := s.zeroReg (regKey pp 0) 0x400000
  let s := { s with
    mem := cellsZero s.mem b 0x3000000
    memLost := s.memLost.filter fun w => !(decide (b ≤ w) && decide (w < b + 0x3000000))
    obs := s.obs.filter fun o => !(pairOf o.tid == l && !o.posted) }
  let s := s.setPair l { Pair.reset with xbar := old.xbar, part := some n, idx := idx, paw := old.paw, pac := old.pac }
  (s.setTh (2 * l) ((s.th (2 * l)).activated atb0)).setTh (2 * l + 1) ((s.th (2 * l + 1)).activated atb0)

/-- ACTIVATE_COMPLETE. -/
def execActivateComplete (s : State) : Out :=
  .next (match s.pcmdJob with
    | .activate p =>
      let n := s.pcmdPart.toNat
      let s := (pairsIn p.pairs).zipIdx.foldl (fun (s : State) e => s.activatePair n e.1 e.2 p.atb0) s
      let s := s.setPart n { p with tsl := (s.part n).tsl, cesav := (s.part n).cesav }
      { s with ownerFq := ⟨none, none⟩, filt := s.filt.filter fun f => f.2.1 != n }.pcmdEnd 0
    | _ => s)

/-- QUIESCE_COMPLETE: no thread of the partition holds a context that is not halted, and none is set aside. -/
def execQuiesceComplete (s : State) : Out :=
  let n := s.pcmdPart.toNat
  .next (match s.pcmdJob with
    | .quiesce =>
      if (s.part n).aside.isEmpty && (s.partPairs n).all fun l => [2 * l, 2 * l + 1].all fun tid =>
          !(s.th tid).holds || (s.th tid).ceHalted then
        (s.setPart n { s.part n with mode := .quiesced }).pcmdEnd 0
      else s
    | _ => s)

/-- DEACTIVATE_COMPLETE: every command accepted on the partition's engine contexts is performed, and its accesses with them. -/
def execDeactivateComplete (s : State) : Out :=
  let n := s.pcmdPart.toNat
  let mine (s : State) (tid : Nat) : Bool := (s.pair (pairOf tid)).part == some n
  .next (match s.pcmdJob with
    | .deactivate =>
      if s.cmds.any fun c => mine s c.tid then s
      else match s.drain fun p => mine s p.tid with
        | none => s
        | some s =>
          let s := (s.partPairs n).foldl (fun (s : State) l => s.setPair l { s.pair l with part := none, idx := 0, tmu := none }) s
          (s.setPart n { s.part n with mode := .inactive, walk := [], aside := [] }).pcmdEnd 0
    | _ => s)

/-! ## Page migration (02 R70 to R72) -/

def MigSlot.none : MigSlot := ⟨0, 0, 0, 0, false, 0, []⟩
def State.migSlot (s : State) (n : Nat) : MigSlot := (s.mig[n]?).getD MigSlot.none
def State.setMig (s : State) (n : Nat) (x : MigSlot) : State := { s with mig := s.mig.setIfInBounds n x }
def migSize (c : Word) : Nat := bits c 1 0
def migPart (c : Word) : Nat := bits c 7 2
/-- PTE entries a move rewrites. -/
def migCount (c : Word) : Nat := if migSize c = 1 then 16 else 1

/-- Whether a page lies whole in memory of a kind. -/
def State.pageOf (s : State) (a n kind : Nat) : Bool :=
  s.mainRange a n && (match s.region a with
    | .hbm => kind == 0
    | .pool _ => kind == 1
    | _ => false)

/-- The STAT a command is refused with; 0 for none. Where several apply, the lowest code is reported (DESIGN CHOICE, log entry 86: the spec
gives no order). An entry does not tell its level: one that names SRC is taken as a leaf of the size commanded where C fits (DESIGN CHOICE,
log entry 86). -/
def State.migStat (s : State) (n : Nat) (x : MigSlot) : Nat :=
  let c := x.ctl
  let size := classBytes (migSize c)
  let src := x.src.toNat
  let dst := x.dst.toNat
  let at_ := x.ptea.toNat
  let p : Pte := ⟨s.word at_⟩
  if migSize c = 3 ∨ src % size ≠ 0 ∨ dst % size ≠ 0 ∨ !s.mainRange src size ∨ !s.pageOf dst size (bits c 10 9) then 1
  else if at_ % (8 * migCount c) ≠ 0 ∨ !s.mainRange at_ (8 * migCount c) ∨ !p.v ∨ !p.leaf ∨ p.c != (migSize c == 1) ∨
      p.frame ≠ src ∨ bits p.w 58 52 ≠ 0 ∨ (p.wr && !p.r) then 2
  else if (List.range 8).any fun k => k != n && (s.migSlot k).busy &&
      (let o := s.migSlot k
       let m := classBytes (migSize o.ctl)
       overlaps o.src.toNat m src size || overlaps o.src.toNat m dst size) then 4
  else 0

/-- Removes the translations of a moving page from every TLB. A cached table pointer depends on no leaf. -/
def State.migRemove (s : State) (x : MigSlot) : State :=
  s.tlbDrop (fun e => e.part == migPart x.ctl && overlaps e.s2base (classBytes e.s2size) x.src.toNat (classBytes (migSize x.ctl)))
    fun _ => false

/-- A write of a slot's CTL: ignored while the slot is busy; with GO the command is checked, the page marked and its translations
removed (R71). -/
def State.migWrite (s : State) (n : Nat) (c : Word) : State :=
  let x := s.migSlot n
  if x.busy then s
  else
    let x := { x with ctl := c &&& 0x6FF }
    if !c.getLsbD 11 then s.setMig n x
    else
      let st := s.migStat n x
      if st ≠ 0 then s.setMig n { x with stat := st }
      else
        let ptes := (List.range (migCount c)).map fun k => s.word (x.ptea.toNat + 8 * k)
        (s.setMig n { x with busy := true, stat := 0, moving := ptes }).migRemove x

/-- PAGE_MIGRATION. -/
def execPageMigration (slot : BitVec 3) (ctl : Word) (s : State) : Out :=
  .next (s.migWrite slot.toNat (setBits ctl 11 11 1))

/-- An entry with FRAME and KIND replaced. -/
def pteMoved (w : Word) (frame kind : Nat) : Word := setBits (setBits w 51 12 (frame / 4096)) 9 8 kind

/-- Copies a page, uncorrectable words among it. -/
def State.copyPage (s : State) (src dst n : Nat) : State :=
  { s with
    mem := (sparse s.mem src n dst).foldl (fun m c => cellPut m c.1 c.2) (cellsZero s.mem dst n)
    memLost := (s.memLost.filter fun w => !(decide (dst ≤ w) && decide (w < dst + n))) ++
      (s.memLost.filter fun w => decide (src ≤ w) && decide (w < src + n)).map fun w => dst + (w - src) }

/-- The bytes of a page whose move was raced: undefined to software (R72), so free (log entry 15). -/
def State.freePage (s : State) (dst n : Nat) : State :=
  let k := s.freeCtr
  { s with
    freeCtr := k + n
    mem := (List.range n).foldl (fun m i => cellPut m (dst + i) (Config.freeByte (k + i))) s.mem }

/-- PAGE_MIGRATION_COMPLETE: once the accesses made through the removed translations are performed (02 R64), the page is copied and
its entries rewritten, all or none; an entry that changed in any bit meanwhile is left as it stands, and the move is raced (R71, R72). -/
def execPageMigrationComplete (slot : BitVec 3) (s : State) : Out :=
  let n := slot.toNat
  let x := s.migSlot n
  let c := x.ctl
  .next (
    if !x.busy then s
    else match s.drain fun p => !p.isSignal && (s.pair (pairOf p.tid)).part == some (migPart c) with
      | none => s
      | some s =>
        if s.asking (migPart c) then s
        else
        let s := s.copyPage x.src.toNat x.dst.toNat (classBytes (migSize c))
        let now := (List.range (migCount c)).map fun k => s.word (x.ptea.toNat + 8 * k)
        let same := now == x.moving
        let s := if same then
            now.zipIdx.foldl (fun (s : State) e =>
              s.putWord (x.ptea.toNat + 8 * e.2) (pteMoved e.1 (x.dst.toNat + 4096 * e.2) (bits c 10 9))) s
          else s.freePage x.dst.toNat (classBytes (migSize c))
        (s.migRemove x).setMig n { x with busy := false, stat := if same then 0 else 3, moving := [] })

/-! ## Hotness (02 R69) -/

/-- HOTNESS_CLEAR: a write of 1 to HCTL.CLR. -/
def State.hotClear (s : State) (d : Nat) : State := s.setDie d { s.die d with hctlClr := true }
def execHotnessClear (die : BitVec 3) (s : State) : Out := .next (s.hotClear die.toNat)

/-- HOTNESS_CLEAR_DONE. -/
def execHotnessClearDone (die : BitVec 3) (s : State) : Out :=
  let x := s.die die.toNat
  .next (if x.hctlClr then s.setDie die.toNat { x with hctlClr := false, hot := [] } else s)

/-! ## Walkers (02 R60) -/

/-- What an access kind asks of a translation. -/
def useOf : Access → Use
  | .read => .load
  | .write => .store
  | .atomic => .amo true
  | .fetch => .fetch

/-- PAGE_WALK: a walker finishes a walk for a thread's access: the entries used are marked and the translation cached; a walk that fails
changes nothing. -/
def execPageWalk (tid : BitVec 9) (va : Word) (acc : Access) (s : State) : Out :=
  .next (if (s.pair (pairOf tid.toNat)).part.isNone then s
    else match s.translate (s.who tid.toNat) va.toNat 1 (useOf acc) with
      | (.ok _, s) => s
      | _ => s)

end Sys2Proof.Machine
end

