-- ==== Sys2Proof/Machine/Module.lean ====
section
/-! DEFINITION. The control die's own work: boot and recovery (20 R411, R412), attestation (R413), ownership (R414 to R416), links
and outbound completions (R409; 01 R33), power (R418), soft errors (R419) and spares (R420, R421). -/

namespace Sys2Proof.Machine

/-! ## Ownership -/

def State.eligible (s : State) (m : Nat) : Bool := decide (m < 4) && s.elig.getLsbD m
def State.isOwner (s : State) (m : Nat) : Bool := s.owState != 0 && s.owner.toNat == m
/-- A master's copy of OCLM. -/
def State.oclmOf (s : State) (m : Nat) : Oclm := (s.oclm[m]?).getD ⟨0, 0, 0⟩
def State.setOclm (s : State) (m cmd tgt res : Nat) : State :=
  { s with oclm := s.oclm.setIfInBounds m ⟨BitVec.ofNat 2 cmd, BitVec.ofNat 3 tgt, BitVec.ofNat 3 res⟩ }

/-- The records that waited while the module had no owner go to the owner's fault queue (R416). -/
def State.postOwner (s : State) : State :=
  s.ownerWait.foldl (fun (s : State) r => (s.post r).2) { s with ownerWait := [] }

/-- A master's write of OCLM (R414, R415): 0 done, 1 refused, 2 pending. -/
def State.oclmWrite (s : State) (m cmd tgt : Nat) : State :=
  let done (s : State) : State := s.setOclm m cmd tgt 0
  let refuse : State := s.setOclm m cmd tgt 1
  match cmd with
  | 0 => s.setOclm m 0 tgt (s.oclmOf m).res.toNat
  | 1 =>
    if s.bootPhase = 3 ∧ s.owState = 0 ∧ s.eligible m then done { s with owner := BitVec.ofNat 3 m, owState := 1 }.postOwner else refuse
  | 2 =>
    if !s.isOwner m || s.acceptWait then refuse
    else if tgt = m then done { s with owState := 1 }
    else if s.owState = 1 ∧ s.eligible tgt then done { s with owState := 2, offerTgt := BitVec.ofNat 3 tgt }
    else refuse
  | _ => if s.owState = 2 ∧ s.offerTgt.toNat = m then { s with acceptWait := true }.setOclm m cmd tgt 2 else refuse

/-- A master's request that writes OCLM reaches it but in recovery, when every request outside the recovery path is dropped (R411). -/
def State.unlessRecovery (s : State) (k : State → State) : State := if s.bootPhase = 4 then s else k s

def execClaim (m : BitVec 2) (s : State) : Out :=
  .next (s.unlessRecovery fun s => s.oclmWrite m.toNat 1 (s.oclmOf m.toNat).tgt.toNat)
def execOffer (m : BitVec 2) (tgt : BitVec 3) (s : State) : Out := .next (s.unlessRecovery fun s => s.oclmWrite m.toNat 2 tgt.toNat)
def execAccept (m : BitVec 2) (s : State) : Out :=
  .next (s.unlessRecovery fun s => s.oclmWrite m.toNat 3 (s.oclmOf m.toNat).tgt.toNat)

/-- Whether PCMD or an engine slot is busy (R415). -/
def State.anyBusy (s : State) : Bool :=
  s.pcmdJob != .idle || s.mig.toList.any (·.busy) || s.ce.toList.any (·.busy)

/-- Settles the pending accept with a RES. -/
def State.settleAccept (s : State) (res : Nat) : State :=
  let m := s.offerTgt.toNat
  let o := s.oclmOf m
  { s with acceptWait := false, owState := 1 }.setOclm m o.cmd.toNat o.tgt.toNat res

/-- ACCEPT_COMPLETE. -/
def execAcceptComplete (s : State) : Out :=
  .next (if s.acceptWait && !s.anyBusy then { s with owner := s.offerTgt, pathFail := false }.settleAccept 0 else s)

/-- ACCEPT_TIMEOUT. -/
def execAcceptTimeout (s : State) : Out := .next (if s.acceptWait && s.anyBusy then s.settleAccept 1 else s)

/-- OFFER_LAPSE. -/
def execOfferLapse (s : State) : Out :=
  .next (if s.owState = 2 && !s.acceptWait then { s with owState := 1 } else s)

/-- OWNER_PATH_FAILURE (R416): the owner's port goes down, or its management messages have stopped for 1 s. -/
def execOwnerPathFailure (s : State) : Out :=
  .next (if s.owState = 0 then s
    else { s with
      pathFail := true
      dllUp := if s.owner.toNat < 2 then s.dllUp.setIfInBounds s.owner.toNat false else s.dllUp })

/-- OWNER_LOST: a further second without recovery. -/
def execOwnerLost (s : State) : Out :=
  .next (if !s.pathFail then s
    else
      let m := s.owner.toNat
      let s := if s.acceptWait then s.settleAccept 1 else s
      { s with owState := 0, owner := 7, pathFail := false }.logError 6 m 0 1)

/-- DATA_LINK_LAYER_UP. -/
def execDataLinkLayerUp (port : BitVec 1) (s : State) : Out :=
  .next { s with
    dllUp := s.dllUp.setIfInBounds port.toNat true
    pathFail := s.pathFail && s.owner.toNat != port.toNat }

/-! ## Boot -/

/-- Bytes of a fixed length. -/
def fixed (n : Nat) (bs : List Byte) : List Byte := bs.take n ++ List.replicate (n - bs.length) 0

def imLen (im : List Byte) : Nat := recField im 0xC 4
def imBody (im : List Byte) : List Byte := (im.drop 0x1EF0).take (imLen im)
/-- Header and body: what is signed and measured. -/
def imMsg (im : List Byte) : List Byte := im.take 0x40 ++ imBody im

/-- The failure of a stage image, 0 for none (R411, R412): 1 bad header, 2 key hash, 3 signature, 4 rollback. -/
def Flash.check (f : Flash) (stage : Nat) (im : List Byte) : Nat :=
  let pk := (im.drop 0x18).take 32
  if recField im 0 4 ≠ 0x53584254 ∨ recField im 4 2 ≠ stage ∨ !recZero im 6 2 ∨ !recZero im 0x38 8 ∨ imLen im = 0 ∨
      2 ^ 24 < imLen im ∨ im.length < 0x1EF0 + imLen im then 1
  else if sha256 pk ≠ f.keyHash then 2
  else if !slhVerify pk (imMsg im) ((im.drop 0x40).take 7856) then 3
  else if recField im 8 4 < (if stage = 1 then f.rollback1 else f.rollback2) then 4
  else 0

/-- Runs an accepted stage: its body is loaded, its SVN and measurement kept, and PHASE names it (R412). Stage 2 sets ELIG from its signed
configuration before it opens the election (R414). -/
def State.runStage (s : State) (stage copy : Nat) (im : List Byte) : State :=
  let s := s.sysWrite (recField im 0x10 8) (imBody im)
  let svn : BitVec 32 := BitVec.ofNat 32 (recField im 8 4)
  let h := sha256 (imMsg im)
  if stage = 1 then { s with bootPhase := 1, bootCopy := BitVec.ofNat 1 copy, svn1 := svn, meas := h }
  else { s with
    bootPhase := 2, bootCopy := BitVec.ofNat 1 copy, svn2 := svn, meas := fixed 32 s.meas ++ h, elig := s.flash.elig }

/-- Loads a stage from flash, copy A first (R411); none when both fail. -/
def State.bootStage (s : State) (stage : Nat) : Option State :=
  let im (copy : Nat) : List Byte := (s.flash.images[2 * (stage - 1) + copy]?).getD []
  let a := s.flash.check stage (im 0)
  if a = 0 then some (s.runStage stage 0 (im 0))
  else
    let b := s.flash.check stage (im 1)
    if b = 0 then some ({ s with bootErr := BitVec.ofNat 8 a }.runStage stage 1 (im 1)) else none

/-- Both copies of a stage have failed (R411). -/
def State.enterRecovery (s : State) (stage : Nat) : State :=
  { s with
    bootPhase := 4, failedStage := stage
    bootErr := BitVec.ofNat 8 (s.flash.check stage ((s.flash.images[2 * (stage - 1) + 1]?).getD [])) }

/-- The next step of boot, by who runs: the ROM verifies and runs stage 1, stage 1 does so with stage 2, and stage 2 opens the election
(R411, R412, R414). -/
def State.bootNext (s : State) : State :=
  match s.bootPhase.toNat with
  | 0 => (s.bootStage 1).getD (s.enterRecovery 1)
  | 1 => (s.bootStage 2).getD (s.enterRecovery 2)
  | 2 => { s with bootPhase := 3 }
  | _ => s

/-- MODULE_RESET: every register returns to its reset value; storage without one, the flash and the fuses keep theirs; the ROM starts, and
its first step runs stage 1 (R411). -/
def execModuleReset (s : State) : Out :=
  .next { State.reset with
    agenda := s.agenda, cur := s.cur, freeCtr := s.freeCtr, wseq := s.wseq, mem := s.mem, memLost := s.memLost,
    regs := s.regs, regBad := s.regBad, out := s.out, flash := s.flash, spares := s.spares, frames := s.frames }.bootNext

/-- The image a recovery write left in HBM. -/
def State.recoveryImage (s : State) : List Byte := s.bytes 0 (0x1EF0 + Nat.min (leNat (s.bytes 0xC 4)) (2 ^ 24))

/-- A write of 1 to BOOTST.RGO: an image that passes runs as the stage that failed, and boot goes on from there (R411). -/
def State.recover (s : State) : State :=
  if s.bootPhase ≠ 4 then s
  else
    let im := s.recoveryImage
    let e := s.flash.check s.failedStage im
    if e ≠ 0 then { s with bootErr := BitVec.ofNat 8 e }
    else
      { s with failedStage := 0 }.runStage s.failedStage 0 im

def execRecoveryVerify (s : State) : Out := .next s.recover

/-! ## Attestation (R413) -/

/-- A write of 1 to ATCTL bit 0, by the owner; ignored while a report is being signed. -/
def State.attest (s : State) : State := if s.atctl.getLsbD 1 then s else { s with atctl := 2 }
def execAttestationRequest (s : State) : Out := .next (if s.owState = 0 then s else s.attest)

/-- The identity key pair (log entry 11). -/
def identity : SlhKey :=
  let part (k : Nat) : List Byte := fixed 16 ((Config.identitySeed.drop (16 * k)).take 16)
  ⟨part 0, part 1, part 2⟩

/-- The report's bytes before its signature. -/
def State.reportHead (s : State) : List Byte :=
  leBytes 4 0x53584154 ++ leBytes 2 1 ++ leBytes 1 s.devn.toNat ++ leBytes 1 s.owner.toNat ++ leBytes 4 s.svn1.toNat ++
  leBytes 4 s.svn2.toNat ++ fixed 16 Config.serial ++ fixed 64 s.meas ++ cellsGet s.ctl 0xA0020 32 ++ identity.pk

/-- ATTESTATION_DONE. The randomness of a signature is a free value. -/
def execAttestationDone (s : State) : Out :=
  let k := s.freeCtr
  .next (if s.atctl.getLsbD 1 then
      { s with
        atctl := 0, freeCtr := k + 2
        report := s.reportHead ++ identity.sign (beBytes 8 (Config.freeWord k).toNat ++ beBytes 8 (Config.freeWord (k + 1)).toNat) s.reportHead }
    else s)

/-! ## Links and outbound completions (R409; 01 R33) -/

/-- Whether a request was handed to a link port. -/
def OutReq.via (o : OutReq) (port : Nat) : Bool := o.link == some port

/-- A command whose share to another device is lost with its link ends short: CAUSE 11, DET 2, and no element is counted (15 R326; 17
R359). -/
def Cmd.linkLost (c : Cmd) : Cmd :=
  { c with extra := Done.bytes ⟨0, cShortfall, 0, 2, 0, 0, 1⟩ c.num, words := [(c.words[0]?).getD 0, 1] }

/-- LINK_DOWN: non-posted requests in flight are refused; posted writes in flight are dropped, each logged with its target; a command whose
share was in flight ends short. -/
def execLinkDown (port : BitVec 4) (s : State) : Out :=
  let p := port.toNat
  let lost := s.obs.filter fun o => o.via p && o.posted
  let shares := lost.filterMap fun o => if o.share then o.cmd.map fun c => (o.tid, c) else none
  let s' := { s with
    linkUp := s.linkUp.setIfInBounds p false
    obs := (s.obs.filter fun o => !(o.via p && o.posted)).map fun o =>
      if o.via p && o.reply == .none then { o with reply := .refused } else o
    cmds := s.cmds.map fun c => if c.op == .finish && shares.any (fun x => c.isOf x.1 x.2.1 x.2.2) then c.linkLost else c }
  .next ((lost.filter fun o => !o.share).foldl (fun (s : State) o => s.logError 7 p o.addr 1) s')

/-- LINK_UP. -/
def execLinkUp (port : BitVec 4) (s : State) : Out := .next { s with linkUp := s.linkUp.setIfInBounds port.toNat true }

def OutReq.matches_ (o : OutReq) (tid k : Nat) : Bool := o.tid == tid && o.k == k

/-- COMPLETION_TIMEOUT: a link request without completion fails as one refused (a request to a host has no such limit). -/
def execCompletionTimeout (tid : BitVec 10) (k : Nat) (s : State) : Out :=
  .next { s with obs := s.obs.map fun o =>
    if o.matches_ tid.toNat k && !o.posted && o.reply == .none && o.link.isSome then { o with reply := .refused } else o }

/-- The record of kind 3 about a refused posted write, for the partition it was made for: an instruction's, or a root-port device's (01 R33);
an engine's is not recorded (15 R314), and the cores and the module's own machinery are of no partition. -/
def State.refusalRec (s : State) (o : OutReq) : Option FaultRec :=
  if o.cmd.isSome then none
  else if o.tid < coreAgent 0 then some { s.recFor o.tid false 3 with acc := o.acc, va := o.va, pc := o.pc, value := w64 o.addr }
  else if rootAgent 0 ≤ o.tid ∧ o.tid < moduleAgent then
    let part := bits ((s.rpa[o.tid - rootAgent 0]?).getD 0) 5 0
    some { s.recFor 0 false 3 with part := part, pair := 0, pc := 0, acc := o.acc, value := w64 o.addr }
  else none

/-- OUTBOUND_COMPLETION: a reply to a non-posted request, or the acknowledgement or refusal of a posted write; one that nothing waits
for is discarded. -/
def execOutboundCompletion (tid : BitVec 10) (k : Nat) (refused : Bool) (data : List Byte) (s : State) : Out :=
  let t := tid.toNat
  .next (match s.obs.find? fun o => o.matches_ t k with
    | none => s
    | some o =>
      if o.posted then
        let s := { s with obs := s.obs.filter fun o => !(OutReq.matches_ o t k) }
        if refused then match s.refusalRec o with
          | some r => (s.post r).2
          | none => s
        else s
      else if o.reply == .none then
        { s with obs := s.obs.map fun o => if o.matches_ t k then { o with reply := if refused then .refused else .data data } else o }
      else s)

/-- LINK_LANE_FAULT (R421): the port's spare lane comes in, once; a lane retired without one is logged. -/
def execLinkLaneFault (port : BitVec 4) (spare : Bool) (s : State) : Out :=
  let p := port.toNat
  .next (if spare && !s.spares.contains (p, 0) then { s with spares := s.spares ++ [(p, 0)] }.logError 4 p 0 1
    else { s with spares := s.spares ++ [(p, 1)] }.logError 5 p 0 1)

/-! ## Power (R418) -/

def execPowerLeaveGrant (die : BitVec 3) (s : State) : Out := .next (s.grantHead die.toNat)
def execPowerInputOverlimit (s : State) : Out := .next { s with overPower := true }
def execPowerInputRecovered (s : State) : Out := .next { s with overPower := false }

/-! ## Soft errors (R419) -/

/-- The unit an error-log entry names: the stack, or the die. -/
def State.unitOf (s : State) (a : Nat) : Nat :=
  match s.region a with
  | .hbm => a / 4096 % 12
  | .pool d => d
  | .scratch p => p / 36
  | _ => 0

def addOnce (l : List Nat) (a : Nat) : List Nat := if l.contains a then l else l ++ [a]

/-- SOFT_ERROR: a corrected error is logged; an uncorrectable one is left for the next reader to meet; an entry of a TLB or a walk cache is
discarded, and the next access walks again. -/
def execSoftError (site : Site) (s : State) : Out :=
  .next (match site with
    | .mem a c =>
      if !(s.region a).isLocal then s
      else if c then s.logError 2 (s.unitOf a) (a / 8 * 8) 1
      else { s with memLost := addOnce s.memLost (a / 8 * 8) }
    | .reg pp off =>
      if 288 ≤ pp ∨ weightOff 0 ≤ off then s else { s with regBad := addOnce s.regBad (regKey pp off) }
    | .weight pp off c =>
      if 288 ≤ pp ∨ 0x100000 ≤ off then s
      else if c then s.logError 2 (pp / 36) 0 1
      else { s with regBad := (List.range 8).foldl (fun l i => addOnce l (regKey pp (weightOff 0 + off / 8 * 8 + i))) s.regBad }
    | .l1 k => { s with tlb1 := s.tlb1.eraseIdx k }
    | .l2 k => { s with tlb := s.tlb.eraseIdx k }
    | .walkCache k => { s with wcache := s.wcache.eraseIdx k })

/-- PATROL_SCRUB: each uncorrectable word found is logged and left. -/
def execPatrolScrub (s : State) : Out :=
  .next (s.memLost.foldl (fun (s : State) a => s.logError 3 (s.unitOf a) a 1) s)

/-! ## Spares (R420, R421) -/

/-- Whether a logical pair's maps may change: each thread holds no context, or a halted one fully saved. -/
def State.mapFree (s : State) (l : Nat) : Bool :=
  [2 * l, 2 * l + 1].all fun tid => !(s.th tid).holds || ((s.th tid).ceHalted && (s.th tid).fullSave)

/-- The halted contexts of a pair leave the hardware: they exist only in their images. -/
def State.leaveHw (s : State) (l : Nat) : State :=
  [2 * l, 2 * l + 1].foldl (fun (s : State) tid =>
    if (s.th tid).holds then
      let s := (s.dropTileLeave tid).setHeld tid 0
      let p := s.pair l
      let s := s.setPair l { p with tmu := if p.tmu = some tid then none else p.tmu }
      s.setTh tid { s.th tid with run := .free, ceHalted := false, fullSave := false, refused := none, refAside := false, toPost := [] }
    else s) s

/-- A write of a spare-map byte (R420). -/
def State.spareWrite (s : State) (d slot v : Nat) : State :=
  let x := s.die d
  let old := ((x.spare[slot]?).getD 0).toNat
  if old = v ∨ 35 < v ∨ x.spare.toList.any (fun b => b.toNat == v) ∨ !s.mapFree (d * 32 + slot) then s
  else (s.leaveHw (d * 32 + slot)).setDie d { s.die d with spare := x.spare.setIfInBounds slot (BitVec.ofNat 8 v) }

def execSpareMapWrite (die : BitVec 3) (slot : BitVec 5) (v : Byte) (s : State) : Out :=
  .next (s.spareWrite die.toNat slot.toNat v.toNat)

/-- A write of a lane-map byte. -/
def State.laneWrite (s : State) (d slot lane v : Nat) : State :=
  let l := d * 32 + slot
  let old := s.physLane l lane
  if old = v ∨ 67 < v ∨ (List.range 64).any (fun k => s.physLane l k == v) ∨ !s.mapFree l then s
  else
    let s := s.leaveHw l
    let x := s.die d
    let key := slot * 64 + lane
    s.setDie d { x with lanes := if v = lane then mapDel key x.lanes else mapPut key v x.lanes }

def execLaneMapWrite (die : BitVec 3) (slot : BitVec 5) (lane : BitVec 6) (v : Byte) (s : State) : Out :=
  .next (s.laneWrite die.toNat slot.toNat lane.toNat v.toNat)

/-- SPARE_ROW_REPLACE: the row's data is copied and never lost; the bring-in is logged. -/
def execSpareRowReplace (unit : Byte) (addr : Word) (s : State) : Out :=
  .next ({ s with spares := s.spares ++ [(16 + unit.toNat, addr.toNat)] }.logError 4 unit.toNat addr.toNat 1)

end Sys2Proof.Machine
end

