-- ==== Sys2Proof/Machine/Regs.lean ====
section
/-! DEFINITION. The registers and tables of the engine aperture, read and written as 8-byte words (00 R7, R8; 01 R15 and the chapters
of each register). Offsets are from 0x0_0300_0000_0000. An offset no chapter gives a register reads as zero. -/

namespace Sys2Proof.Machine

def ofBool (b : Bool) (k : Nat) : Nat := if b then 2 ^ k else 0

/-! ## Tables held as bytes -/

/-- Bits of a table word that are not reserved; none for an offset in no such table: peer windows and host filter (01 R32), route table
(20 R409), flow table (18 R370), nonce (20 R413). -/
def tableMask (o : Nat) : Option Word :=
  if 0x10000 ≤ o ∧ o < 0x10800 then
    some (match o / 8 % 4 with
      | 2 => 0xBF0FFF
      | _ => BitVec.allOnes 64)
  else if 0x20000 ≤ o ∧ o < 0x20800 then
    some (match o / 8 % 4 with
      | 2 => 0xBF0F03
      | _ => BitVec.allOnes 64)
  else if 0x70000 ≤ o ∧ o < 0x70080 then some 0x8F8F8F8F8F8F8F8F
  else if 0x80000 ≤ o ∧ o < 0xA0000 then
    some (match o / 8 % 4 with
      | 0 => 0x033F87FFFFFFFF
      | 3 => 0
      | _ => BitVec.allOnes 64)
  else if 0xA0020 ≤ o ∧ o < 0xA0040 then some (BitVec.allOnes 64)
  else none

/-! ## Reading -/

/-- A word of a slot of migration or the context engine. -/
def MigSlot.reg (x : MigSlot) (k : Nat) : Word :=
  match k with
  | 0 => x.src
  | 1 => x.dst
  | 2 => x.ptea
  | _ => w64 (x.ctl.toNat + ofBool x.busy 12 + x.stat * 2 ^ 13)
def CeSlot.reg (x : CeSlot) (k : Nat) : Word :=
  match k with
  | 0 => w64 (x.ctl.toNat + ofBool x.busy 43 + x.stat * 2 ^ 44)
  | 1 => x.addr
  | 2 => x.res
  | _ => 0
/-- A word of a launch-queue entry (18 R372). -/
def LaunchQ.reg (q : LaunchQ) (k : Nat) : Word :=
  match k with
  | 0 => q.base
  | 1 => w64 q.cap
  | 2 => w64 q.head
  | _ => w64 q.tail

/-- Control-die registers, for a master where each reads its own copy. -/
def State.ctlRead (s : State) (m : Nat) (o : Nat) : Word :=
  match tableMask o with
  | some _ => w64 (leNat (cellsGet s.ctl o 8))
  | none =>
    if 0x30000 ≤ o ∧ o < 0x30100 then (s.migSlot ((o - 0x30000) / 32)).reg (o / 8 % 4)
    else if 0x31000 ≤ o ∧ o < 0x31100 then (s.ceSlot ((o - 0x31000) / 32)).reg (o / 8 % 4)
    else if 0x40000 ≤ o ∧ o < 0x42000 then
      ((s.part ((o - 0x40000) / 128)).queue (o / 32 % 4)).reg (o / 8 % 4)
    else if 0x50000 ≤ o ∧ o < 0x50200 then (s.part ((o - 0x50000) / 8)).tsl
    else if 0x50200 ≤ o ∧ o < 0x50400 then (s.part ((o - 0x50200) / 8)).cesav
    else if 0xA1000 ≤ o ∧ o < 0xA2F50 then w64 (leNat ((s.report.drop (o - 0xA1000)).take 8))
    else if 0x160 ≤ o ∧ o < 0x180 then (s.rpa[(o - 0x160) / 8]?).getD 0
    else match o with
      | 0x100 => s.ptb
      | 0x108 => w64 (s.pcmdPart.toNat + s.pcmdCmd.toNat * 2 ^ 8 + s.pcmdRes.toNat * 2 ^ 16 + ofBool (s.pcmdJob != .idle) 31)
      | 0x110 => w64 s.devn.toNat
      | 0x118 => s.ofq
      | 0x120 => w64 s.rqport.toNat
      | 0x128 => s.rqdrop
      | 0x130 => w64 (s.elig.toNat * 2 ^ 8 + s.owState.toNat * 2 ^ 4 + s.owner.toNat)
      | 0x138 =>
        let c := s.oclmOf m
        w64 (c.res.toNat * 2 ^ 9 + c.cmd.toNat * 2 ^ 4 + c.tgt.toNat)
      | 0x140 => w64 (s.bootErr.toNat * 2 ^ 8 + s.bootCopy.toNat * 2 ^ 3 + s.bootPhase.toNat)
      | 0x148 => s.elog
      | 0x150 => s.elogt
      | 0x158 => w64 s.mgport.toNat
      | 0xA0000 => w64 s.atctl.toNat
      | _ => 0

/-- A hotness entry (02 R68). -/
def Die.hotEntry (d : Die) (i : Nat) : Word × BitVec 32 × BitVec 32 × BitVec 32 := mapGet (0, 0, 0, 0) d.hot i

/-- Registers of compute die d, at an offset in its block. -/
def State.dieRead (s : State) (d o : Nat) : Word :=
  let x := s.die d
  if 0x400000 ≤ o ∧ o < 0x600000 then
    let e := x.hotEntry ((o - 0x400000) / 32)
    match o / 8 % 4 with
    | 0 => e.1
    | 1 => w64 (e.2.1.toNat + e.2.2.1.toNat * 2 ^ 32)
    | 2 => w64 e.2.2.2.toNat
    | _ => 0
  else if 0x600000 ≤ o ∧ o < 0x602000 then
    match (s.pair (d * 32 + (o - 0x600000) / 0x100)).board[o / 16 % 16]? with
    | some r => w64 (recField r.bytes (o / 8 % 2 * 8) 8)
    | none => 0
  else if 0x700000 ≤ o ∧ o < 0x700200 then
    let p := s.pair (d * 32 + (o - 0x700000) / 16)
    if o / 8 % 2 = 0 then p.paw else p.pac
  else if 0x7F1000 ≤ o ∧ o < 0x7F1020 then w64 (leNat ((x.spare.toList.drop (o - 0x7F1000)).take 8))
  else if 0x7F2000 ≤ o ∧ o < 0x7F3000 then
    let l := d * 32 + (o - 0x7F2000) / 0x80
    let lane := o % 0x80
    if lane < 64 then w64 (leNat ((List.range 8).map fun k => BitVec.ofNat 8 (s.physLane l (lane + k)))) else 0
  else match o with
    | 0x3FFF00 => w64 (ofBool x.hctlEn 0 + ofBool x.hctlClr 1)
    | 0x3FFF08 => x.hmiss
    | 0x7F0000 => w64 (x.used * 2 ^ 16 + x.budget)
    | _ => 0

/-- The word at an aperture offset that is a multiple of 8. Intake windows read as zero (01 R31). -/
def State.apWord (s : State) (m o : Nat) : Word :=
  if o < 0x10000000 then s.ctlRead m o
  else if o < 0x18000000 then s.dieRead ((o - 0x10000000) / 0x1000000) (o % 0x1000000)
  else 0

/-- n bytes at an aperture offset. -/
def State.apRead (s : State) (m o n : Nat) : List Byte :=
  (List.range n).map fun i => BitVec.ofNat 8 ((s.apWord m ((o + i) / 8 * 8)).toNat / 2 ^ (8 * ((o + i) % 8)))

/-! ## Writing -/

def State.putTable (s : State) (o : Nat) (v : Word) : State := { s with ctl := cellsPut s.ctl o (leBytes 8 v.toNat) }

def State.idlePart (s : State) (n : Nat) : Bool := (s.part n).mode != .active

/-- A write of a word of a migration slot: CTL may start a move; nothing while it is busy. -/
def State.migReg (s : State) (n k : Nat) (v : Word) : State :=
  let x := s.migSlot n
  if x.busy then s
  else match k with
    | 0 => s.setMig n { x with src := v }
    | 1 => s.setMig n { x with dst := v }
    | 2 => s.setMig n { x with ptea := v }
    | _ => s.migWrite n v

/-- A write of a word of a context-engine slot. -/
def State.ceReg (s : State) (n k : Nat) (v : Word) : State :=
  let x := s.ceSlot n
  if x.busy then s
  else match k with
    | 0 => s.ceWrite n v
    | 1 => s.setCe n { x with addr := v }
    | _ => s

/-- A write of a launch-queue entry: BASE and CAP, only while the partition is inactive (18 R372). -/
def State.queueReg (s : State) (n prio k : Nat) (v : Word) : State :=
  let p := s.part n
  let q := p.queue prio
  if p.mode ≠ .inactive then s
  else match k with
    | 0 => s.setPart n (p.setQueue prio { q with base := v })
    | 1 => if bits v 31 0 ≤ 2 ^ 20 then s.setPart n (p.setQueue prio { q with cap := bits v 31 0 }) else s
    | _ => s

/-- A control-die word written by a master. -/
def State.ctlWrite (s : State) (m o : Nat) (v : Word) : State :=
  match tableMask o with
  | some mask => s.putTable o (v &&& mask)
  | none =>
    if 0x30000 ≤ o ∧ o < 0x30100 then s.migReg ((o - 0x30000) / 32) (o / 8 % 4) v
    else if 0x31000 ≤ o ∧ o < 0x31100 then s.ceReg ((o - 0x31000) / 32) (o / 8 % 4) v
    else if 0x40000 ≤ o ∧ o < 0x42000 then s.queueReg ((o - 0x40000) / 128) (o / 32 % 4) (o / 8 % 4) v
    else if 0x50000 ≤ o ∧ o < 0x50200 then
      let n := (o - 0x50000) / 8
      if 100 ≤ bits v 16 0 ∧ bits v 16 0 ≤ 100000 then s.setPart n { s.part n with tsl := w64 (bits v 16 0) } else s
    else if 0x50200 ≤ o ∧ o < 0x50400 then
      let n := (o - 0x50200) / 8
      if s.idlePart n then s.setPart n { s.part n with cesav := v &&& 0x000FFFFFFFFFF000 } else s
    else if 0x160 ≤ o ∧ o < 0x180 then
      let r := (o - 0x160) / 8
      let old := (s.rpa[r]?).getD 0
      if s.idlePart (bits v 5 0) && (!old.getLsbD 8 || s.idlePart (bits old 5 0)) then
        { s with rpa := s.rpa.setIfInBounds r (v &&& 0x13F) }
      else s
    else match o with
      | 0x100 => { s with ptb := v &&& ~~~0xFFF }
      | 0x108 => s.pcmdWrite (BitVec.ofNat 6 (bits v 5 0)) (BitVec.ofNat 3 (bits v 10 8))
      | 0x110 =>
        let n := bits v 6 0
        if n = 0 ∨ 16 ≤ n then { s with devn := BitVec.ofNat 7 n } else s
      | 0x118 => { s with ofq := v &&& 0x000FFFFFFFFFF000, ownerFq := ⟨none, none⟩ }
      | 0x120 => { s with rqport := BitVec.ofNat 16 (bits v 15 0) }
      | 0x128 => { s with rqdrop := v }
      | 0x138 => s.oclmWrite m (bits v 5 4) (bits v 2 0)
      | 0x140 => if v.getLsbD 4 then s.recover else s
      | 0x148 => { s with elog := v &&& 0x000FFFFFFFFFF00F }
      | 0x158 => { s with mgport := BitVec.ofNat 16 (bits v 15 0) }
      | 0xA0000 => if v.getLsbD 0 then s.attest else s
      | _ => s

/-- A word of compute die d written. -/
def State.dieWrite (s : State) (d o : Nat) (v : Word) : State :=
  let x := s.die d
  if 0x400000 ≤ o ∧ o < 0x600000 then
    let i := (o - 0x400000) / 32
    let e := x.hotEntry i
    let lo : BitVec 32 := BitVec.ofNat 32 (bits v 31 0)
    let hi : BitVec 32 := BitVec.ofNat 32 (bits v 63 32)
    let e' := match o / 8 % 4 with
      | 0 => (v &&& 0x000FFFFFFFFFF1FF, e.2)
      | 1 => (e.1, lo, hi, e.2.2.2)
      | 2 => (e.1, e.2.1, e.2.2.1, lo)
      | _ => e
    s.setDie d { x with hot := if e' = (0, 0, 0, 0) then mapDel i x.hot else mapPut i e' x.hot }
  else if 0x700000 ≤ o ∧ o < 0x700200 then
    let l := d * 32 + (o - 0x700000) / 16
    s.setPair l (if o / 8 % 2 = 0 then { s.pair l with paw := v } else { s.pair l with pac := v })
  else if 0x7F1000 ≤ o ∧ o < 0x7F1020 then
    (List.range 8).foldl (fun (s : State) k => s.spareWrite d (o - 0x7F1000 + k) (bits v (8 * k + 7) (8 * k))) s
  else if 0x7F2000 ≤ o ∧ o < 0x7F3000 then
    if o % 0x80 < 64 then
      (List.range 8).foldl (fun (s : State) k =>
        s.laneWrite d ((o - 0x7F2000) / 0x80) (o % 0x80 + k) (bits v (8 * k + 7) (8 * k))) s
    else s
  else match o with
    | 0x3FFF00 =>
      let s := s.setDie d { x with hctlEn := v.getLsbD 0 }
      if v.getLsbD 1 then s.hotClear d else s
    | 0x3FFF08 => s.setDie d { x with hmiss := w64 (bits v 31 0) }
    | 0x7F0000 => if 100 ≤ bits v 15 0 ∧ bits v 15 0 ≤ 1000 then s.setDie d { x with budget := bits v 15 0 } else s
    | _ => s

/-- A word written at an aperture offset that is a multiple of 8. -/
def State.apWriteWord (s : State) (m o : Nat) (v : Word) : State :=
  if o < 0x10000000 then s.ctlWrite m o v
  else if o < 0x18000000 then s.dieWrite ((o - 0x10000000) / 0x1000000) (o % 0x1000000) v
  else s

/-- Bytes written at an aperture offset: the words they touch in ascending order, each with its other bytes as they read. -/
def State.apWrite (s : State) (m o : Nat) (bs : List Byte) : State :=
  if bs.isEmpty then s
  else (List.range ((o + bs.length - 1) / 8 + 1 - o / 8)).foldl (fun (s : State) k =>
    let a := (o / 8 + k) * 8
    let w := s.apRead m a 8
    let w' := (List.range 8).map fun i =>
      if o ≤ a + i ∧ a + i < o + bs.length then (bs[a + i - o]?).getD 0 else (w[i]?).getD 0
    s.apWriteWord m a (w64 (leNat w'))) s

/-- REGISTER_WRITE: the owner writes a word of the aperture; a hole there refuses it (01 R31), and a module without an owner has none to
write (20 R411). -/
def execRegisterWrite (off : BitVec 32) (v : Word) (s : State) : Out :=
  let o := off.toNat / 8 * 8
  .next (
    if s.owState = 0 then s
    else if !apertureBlock o then s.logError 1 s.owner.toNat (0x030000000000 + o) 1
    else s.apWriteWord s.owner.toNat o v)

end Sys2Proof.Machine
end

