-- ==== Sys2Proof/Machine/Inbound.lean ====
section
/-! DEFINITION. Inbound requests of hosts, peers, root-port devices and management masters (01 R31, R32; 05 R146 to R149; 20 R408,
R411, R414), request packets (18 R368) and Ethernet frames (20 R407). -/

namespace Sys2Proof.Machine

/-! ## Requests -/

def apertureBase : Nat := 0x030000000000

/-- Bytes a request covers. -/
def reqLen : InReq → Nat
  | .read n => n
  | .write d _ => d.length
  | .atomic _ wide _ => if wide then 8 else 4
  | .cas wide _ _ => if wide then 8 else 4
  | .reduce f _ es => codeBytes f.toNat * es.length
/-- The RIGHTS bit a request needs (R32). -/
def reqRight : InReq → Nat
  | .read _ => 0
  | .write _ _ => 1
  | .atomic _ _ _ => 2
  | .cas _ _ _ => 2
  | .reduce _ _ _ => 3
/-- Posted requests get no data back. -/
def reqPosted : InReq → Bool
  | .write _ _ => true
  | .reduce _ _ _ => true
  | _ => false
def reqWrites : InReq → Bool
  | .read _ => false
  | _ => true

/-- The AtomicOps a host endpoint completes: add, swap and CAS (20 R407). -/
def hostAtomicOk : InReq → Bool
  | .atomic op _ _ => op == .add || op == .swap
  | .cas _ _ _ => true
  | _ => true

/-- Answers a non-posted request. -/
def State.complete (s : State) (ok : Bool) (bs : List Byte) : State := { s with out := .completion ok bs :: s.out }

/-- Refuses a request: Unsupported Request, or a dropped write in the owner's error log (R31). -/
def State.refuseReq (s : State) (unit a : Nat) (req : InReq) : State :=
  if reqPosted req then s.logError 1 unit a 1 else s.complete false []

/-- Refuses in recovery: a posted write is dropped (20 R411). -/
def State.refuseRecovery (s : State) (req : InReq) : State := if reqPosted req then s else s.complete false []

/-! ## The tables (R32) -/

/-- An entry of the host filter or the peer window table. -/
structure InEntry where
  base : Nat
  len : Nat
  src : Nat
  rights : Nat
  dpart : Nat
  gbase : Nat
  deriving DecidableEq, Repr

def State.inEntry (s : State) (table k : Nat) : InEntry :=
  let r := cellsGet s.ctl (table + 32 * k) 32
  ⟨recField r 0 8, recField r 8 8, recField r 0x10 1, recField r 0x11 1, recField r 0x12 1, recField r 0x18 8⟩

/-- The lowest-numbered enabled entry that contains an address and admits a source. -/
def State.findEntry (s : State) (table a : Nat) (admits : Nat → Bool) : Option InEntry :=
  ((List.range 64).map (s.inEntry table)).find? fun e =>
    e.len != 0 && decide (e.base ≤ a) && decide (a < e.base + e.len) && admits e.src

/-- Whether an entry lets a whole request through. -/
def InEntry.allows (e : InEntry) (a : Nat) (req : InReq) : Bool :=
  decide (a + reqLen req ≤ e.base + e.len) && e.rights.testBit (reqRight req)

/-- Guest pages a write of n bytes at g touches. -/
def guestPages (g n : Nat) : List Nat := if n = 0 then [] else (List.range ((g + n - 1) / 4096 + 1 - g / 4096)).map (· + g / 4096)

/-- Partition and guest pages whose dirty bits a write through an entry sets. -/
def InEntry.dirtyPages (e : InEntry) (a : Nat) (req : InReq) : List (Nat × Nat) :=
  if reqWrites req && e.dpart.testBit 7 then (guestPages (e.gbase + (a - e.base)) (reqLen req)).map fun g => (e.dpart % 64, g) else []
def State.setDirties (s : State) (ps : List (Nat × Nat)) : State := ps.foldl (fun (s : State) p => s.setDirty noFilter p.1 p.2) s

/-! ## Performing a request at local memory -/

/-- A word of an inbound read: an uncorrectable word's bytes are free values. -/
def State.inRead (s : State) (a n : Nat) : List Byte × State :=
  if s.lostIn a n then
    let k := s.freeCtr
    ((List.range n).map fun i => if s.lostIn (a + i) 1 then Config.freeByte (k + i) else s.byte (a + i), { s with freeCtr := k + n })
  else (s.bytes a n, s)

/-- An inbound write: the part of an uncorrectable word it does not cover whole is dropped and logged (11 R252; 20 R419). -/
def State.inWrite (s : State) (a : Nat) (bs : List Byte) : State :=
  if s.memLost.any fun w => overlaps a bs.length w 8 && !(decide (a ≤ w) && decide (w + 8 ≤ a + bs.length)) then
    (List.range ((a + bs.length + 7) / 8 - a / 8)).foldl (fun (s : State) k =>
      let w := (a / 8 + k) * 8
      let lo := Nat.max a w
      let hi := Nat.min (a + bs.length) (w + 8)
      let part := (bs.drop (lo - a)).take (hi - lo)
      if s.memLost.contains w && decide (hi - lo < 8) then s.logError 3 (s.unitOf w) w 1 else s.putBytes lo part) s
  else s.putBytes a bs

/-- One add of a peer's reduce packet, whose elements are exact: FP64 bits, or integers modulo 2^64 (15 R324). -/
def State.inAdd (s : State) (a : Nat) (fmt : Nat) (fcs : Word) (elem : Nat) (v : Word) : State :=
  let n := codeBytes fmt
  if s.lostIn a n then s.logError 3 (s.unitOf a) a 1
  else s.putBytes a (leBytes n (reduceCode fmt 15 fcs elem (leNat (s.bytes a n)) v))

/-- An atomic's old value and its state. -/
def State.inAtomic (s : State) (a n : Nat) (f : Nat → Option Nat) : List Byte × State :=
  let r := s.inRead a n
  (r.1, match f (leNat r.1) with
    | some v => r.2.inWrite a (leBytes n v)
    | none => r.2)

/-- The value an atomic request writes over an old one. -/
def reqNew (req : InReq) (old : Nat) : Option Nat :=
  match req with
  | .atomic op wide v => some (atomicApply op (if wide then 64 else 32) old v.toNat)
  | .cas wide cmp new => if old = cmp.toNat % (if wide then 2 ^ 64 else 2 ^ 32) then some new.toNat else none
  | _ => none

/-- Whether any page of a range is in motion (05 R146). -/
def State.rangeMoves (s : State) (a n : Nat) : Bool :=
  (List.range ((a % 4096 + n + 4095) / 4096)).any fun k => s.inMotion (a / 4096 * 4096 + k * 4096)

/-- Performs a request on the module's memories: none while it must wait for a page in motion (05 R146) or at the scoreboard (03
R94). `ack` answers posted writes too, as the links do (04 R108). -/
def State.inPerform (s : State) (a : Nat) (req : InReq) (ack : Bool) : Option State :=
  let n := reqLen req
  if s.rangeMoves a n || s.boardWaits a n s.wseq then none
  else some (match req with
    | .read n =>
      let r := s.inRead a n
      r.2.complete true r.1
    | .write bs _ =>
      let s := s.inWrite a bs
      if ack then s.complete true [] else s
    | .reduce f fcs es =>
      let s := es.zipIdx.foldl (fun (s : State) e => s.inAdd (a + e.2 * codeBytes f.toNat) f.toNat fcs e.1.1 e.1.2) s
      if ack then s.complete true [] else s
    | _ =>
      let r := s.inAtomic a n (reqNew req)
      r.2.complete true r.1)

/-- Performs a request on the registers of the aperture. -/
def State.apPerform (s : State) (m off : Nat) (req : InReq) : State :=
  match req with
  | .read n => s.complete true (s.apRead m off n)
  | .write bs _ => s.apWrite m off bs
  | .reduce _ _ _ => s
  | _ =>
    let n := reqLen req
    let old := s.apRead m off n
    let s := match reqNew req (leNat old) with
      | some v => s.apWrite m off (leBytes n v)
      | none => s
    s.complete true old

/-! ## The order of one source's requests (05 R147, R149) -/

/-- Performs an admitted posted request: none while it must wait. -/
def State.inDo (s : State) (x : InAct) : Option State :=
  match x with
  | .mem a req ack dirty => (s.inPerform a req ack).map fun s => s.setDirties dirty
  | .reg m off bs => some (s.apWrite m off bs)
  | .window path off bs ack dirty =>
    let s := (s.windowWrite path off bs).setDirties dirty
    some (if ack then s.complete true [] else s)

/-- Whether a source's earlier posted requests still wait. -/
def State.inBehind (s : State) (src : Nat) : Bool := s.inq.any fun w => w.src == src

/-- Tries the waiting requests in order; one with Relaxed Ordering clear stays behind every earlier one of its source. -/
def State.inFlush (s : State) : (todo kept : List InWait) → State
  | [], kept => { s with inq := kept }
  | w :: rest, kept =>
    if !w.relaxed && kept.any (fun k => k.src == w.src) then s.inFlush rest (kept ++ [w])
    else match s.inDo w.act with
      | none => s.inFlush rest (kept ++ [w])
      | some s => State.inFlush s rest kept
/-- What every inbound event does first: the requests that waited go ahead of it where they can. -/
def State.arrive (s : State) : State := s.inFlush s.inq []

/-- A posted request admitted now: performed, or kept behind its source's earlier ones or until it can be. -/
def State.inPost (s : State) (src : Nat) (relaxed : Bool) (x : InAct) : State :=
  let wait : State := { s with inq := s.inq ++ [⟨src, relaxed, x⟩] }
  if !relaxed && s.inBehind src then wait else (s.inDo x).getD wait

/-- A non-posted request admitted now is performed after every earlier posted one of its source; until then, and while it must wait, nothing
happens, as if it arrived later. -/
def State.inAsk (s : State) (src : Nat) (k : State → Option State) : State := if s.inBehind src then s else (k s).getD s

/-- A request admitted to the module's memories. -/
def State.inMem (s : State) (src a : Nat) (req : InReq) (ack relaxed : Bool) (dirty : List (Nat × Nat)) : State :=
  if reqPosted req then s.inPost src relaxed (.mem a req ack dirty)
  else s.inAsk src fun s => (s.inPerform a req ack).map fun s => s.setDirties dirty

/-- The Relaxed Ordering attribute of a request. -/
def reqRelaxed : InReq → Bool
  | .write _ r => r
  | _ => false

/-- A request to the intake windows, at an offset from the first: a write is a request packet, a read returns zero, and an AtomicOp is a write
that is no packet and reads zero (01 R31; 18 R368). A request packet stays behind every earlier posted write of its port, whatever its
Relaxed Ordering attribute (05 R147). -/
def State.inWindow (s : State) (src : Nat) (path : Path) (off : Nat) (req : InReq) (ack : Bool) (dirty : List (Nat × Nat)) : State :=
  match req with
  | .write bs _ => s.inPost src false (.window path off bs ack dirty)
  | .read n => s.inAsk src fun s => some (s.complete true (List.replicate n 0))
  | _ => s.inAsk src fun s => some (s.rqDrop.complete true (List.replicate (reqLen req) 0))

/-! ## Hosts and management masters (R31) -/

def isWindow (off : Nat) : Bool := decide (0x40000000 ≤ off) && decide (off < 0x44000000)

/-- Whether a master may make a request of the aperture outside the intake windows: the owner any; another reads of the control-die block
and writes of OCLM (01 R30, R31; 20 R414). -/
def State.regRight (s : State) (m off : Nat) (req : InReq) : Bool :=
  let end_ := off + reqLen req
  s.isOwner m || (match req with
    | .read _ => decide (end_ ≤ 0x10000000)
    | .write _ _ => decide (0x138 ≤ off) && decide (end_ ≤ 0x140)
    | _ => false)

/-- A request to the aperture from a master: a hole is refused; the intake windows are open to every host's path, a management path has no
form of request packet (18 R368). -/
def State.masterReg (s : State) (m off : Nat) (window : Option Path) (req : InReq) : State :=
  let a := apertureBase + off
  if !apertureBlock off || !apertureBlock (off + reqLen req - 1) then s.refuseReq m a req
  else if isWindow off then
    match window with
    | some p => s.inWindow m p (off - 0x40000000) req false []
    | none => (match req with
      | .read n => s.complete true (List.replicate n 0)
      | _ => if reqPosted req then s.rqDrop else s.rqDrop.complete true (List.replicate (reqLen req) 0))
  else if !s.regRight m off req then s.refuseReq m a req
  else match req with
    | .write bs r => s.inPost m r (.reg m off bs)
    | _ => s.inAsk m fun s => some (s.apPerform m off req)

/-- A request of the memory BAR: inside the map and an entry of the host filter that admits the master, and a write only the owner's (01
R31). -/
def State.masterMem (s : State) (m off : Nat) (admits : Nat → Bool) (req : InReq) : State :=
  if decide (2 ^ 40 ≤ off) || s.region off == .hole || s.region (off + reqLen req - 1) == .hole then s.refuseReq m off req
  else match s.findEntry 0x20000 off admits with
    | none => s.refuseReq m off req
    | some e =>
      if !e.allows off req || (reqWrites req && !s.isOwner m) then s.refuseReq m off req
      else s.inMem m off req false (reqRelaxed req) (e.dirtyPages off req)

/-- A host's request through a BAR (R31), with recovery's rules while PHASE is 4 (20 R411). -/
def State.hostReq (s : State) (port : Nat) (memBar : Bool) (off : Nat) (req : InReq) : State :=
  let s := s.arrive
  if s.bootPhase = 4 then
    match memBar, req with
    | true, .write bs r => if port = 0 ∧ off + bs.length ≤ 2 ^ 24 then s.inMem port off req false r [] else s
    | false, _ =>
      if port = 0 ∧ 0x140 ≤ off ∧ off + reqLen req ≤ 0x148 ∧ reqRight req < 2 then
        match req with
        | .write bs r => s.inPost port r (.reg 0 off bs)
        | _ => s.inAsk port fun s => some (s.apPerform 0 off req)
      else s.refuseRecovery req
    | _, _ => s.refuseRecovery req
  else if !hostAtomicOk req || (reqRight req = 2 && off % reqLen req ≠ 0) then s.refuseReq port off req
  else if memBar then s.masterMem port off (fun src => src.testBit port) req
  else if off < 2 ^ 32 then s.masterReg port off (some (.host (BitVec.ofNat 1 port))) req
  else s.refuseReq port (apertureBase + off) req

def execHostInboundRead (port : BitVec 1) (memBar : Bool) (off len : Nat) (s : State) : Out :=
  .next (s.hostReq port.toNat memBar off (.read len))
def execHostInboundWrite (port : BitVec 1) (memBar : Bool) (off : Nat) (data : List Byte) (relaxed : Bool) (s : State) : Out :=
  .next (s.hostReq port.toNat memBar off (.write data relaxed))
/-- An AtomicOp; any other request of the row is no AtomicOp and is refused. -/
def execHostInboundAtomic (port : BitVec 1) (memBar : Bool) (off : Nat) (req : InReq) (s : State) : Out :=
  .next (if reqRight req = 2 then s.hostReq port.toNat memBar off req else s.refuseReq port.toNat off req)

/-- A management master's request. It names the aperture, or the memory that the host filter's enabled entries open: their SRC speaks of
host ports alone, and is not asked of it (01 R30; log entry 89). -/
def State.mgmtReq (s0 : State) (m a : Nat) (req : InReq) : State :=
  let s := { s0 with pathFail := s0.pathFail && s0.owner.toNat != m }
  if s.bootPhase = 4 then s.refuseRecovery req
  else if decide (apertureBase ≤ a) && decide (a < apertureBase + 2 ^ 32) then s.masterReg m (a - apertureBase) none req
  else if reqRight req = 2 && a % reqLen req ≠ 0 then s.refuseReq m a req
  else s.masterMem m a (fun _ => true) req

/-- MCTP_MESSAGE: a management master's request arrives on its path, which shows that the path is up (20 R414, R416). The network master
is disabled while MGPORT is 0 (R407). -/
def execMctpMessage (net : Bool) (addr : BitVec 52) (req : InReq) (s : State) : Out :=
  .next (if net && s.mgport = 0 then s else s.arrive.mgmtReq (if net then 3 else 2) addr.toNat req)

/-! ## Peers (R32) -/

/-- Whether a peer may reach an address: a memory of the module, but for the scratchpad of a physical slot that no spare map names: a spare not yet
brought in, the owner's alone (01 R14, R30), or a slot swapped out, which is taken as one (DESIGN CHOICE, log entry 101). -/
def State.peerReach (s : State) (a : Nat) : Bool :=
  match s.region a with
  | .hbm => true
  | .pool _ => true
  | .scratch p => (s.die (p / 36)).spare.toList.any fun b => b.toNat == p % 36
  | _ => false

/-- A peer's request: for this module, inside an entry of the peer window table that admits its device, and at a memory or an intake
window (01 R30). The writes of one device are performed in their order (05 R149). -/
def State.peerReq (s : State) (src dest addr : Nat) (req : InReq) : State :=
  let s := s.arrive
  let port := s.routePort src
  let no (s : State) : State :=
    let s := if reqPosted req then s.logError 1 port addr 1 else s
    s.complete false []
  if s.bootPhase = 4 then s.complete false []
  else if s.devn = 0 ∨ dest ≠ s.devn.toNat then no s
  else match s.findEntry 0x10000 addr fun x => x == 0 || x == src with
    | none => no s
    | some e =>
      let n := reqLen req
      let off := addr - apertureBase
      if !e.allows addr req || (reqRight req = 2 && addr % n ≠ 0) then no s
      else if apertureBase ≤ addr ∧ isWindow off then
        (match req with
        | .reduce _ _ _ => no s
        | _ => s.inWindow src (.peer (BitVec.ofNat 7 src)) (off - 0x40000000) req true (e.dirtyPages addr req))
      else if !s.peerReach addr || s.region (addr + n - 1) ≠ s.region addr then no s
      else s.inMem src addr req true false (e.dirtyPages addr req)

def execPeerInboundRequest (src dest : BitVec 7) (addr : BitVec 44) (req : InReq) (s : State) : Out :=
  .next (s.peerReq src.toNat dest.toNat addr.toNat req)

/-! ## Root ports (20 R408) -/

/-- Whether a leaf lets a device's request through: its right, and the kind check (01 R19). -/
def State.rootAllowed (s : State) (write : Bool) (l : Leaf) : Bool :=
  (if write then l.pte.wr else l.pte.r) && kindOk l.pte.kind (s.region l.addr)

/-- The physical pieces of a root-port request, page by page through the partition's second stage, or how it fails. -/
def State.rootPieces (s : State) (part : Nat) (write : Bool) : List Piece → List (Piece × Leaf) → Except TFail (List (Piece × Leaf))
  | [], got => .ok got
  | p :: rest, got =>
    match stage2 s noDie part p.va with
    | .error f => .error f
    | .ok l => if s.rootAllowed write l then s.rootPieces part write rest (got ++ [(p, l)]) else .error TFail.permission

/-- Marks the leaves a device used, and the dirty bits of its writes. -/
def State.rootMark (s : State) (part : Nat) (write : Bool) (ps : List (Piece × Leaf)) : State :=
  ps.foldl (fun (s : State) p =>
    let s := s.setPte p.2.at_ true write
    if write then s.setDirty noFilter part (p.1.va / 4096) else s) s

/-- The places outside the module that a device's pieces lie at. -/
def State.rootOuts (s : State) (ps : List (Piece × Leaf)) : List (Nat × Nat) :=
  (ps.filter fun p => !(s.region p.2.addr).isLocal).map fun p => (p.2.addr, p.1.n)

/-- The bytes of a device's pieces, in order: from memory, or from the replies; none where one was refused. -/
def State.rootBytes (s : State) (have_ : List OutReq) : List (Piece × Leaf) → List Byte → Option (List Byte × State)
  | [], got => some (got, s)
  | p :: rest, got =>
    let a := p.2.addr
    if (s.region a).isLocal then
      let r := s.inRead a p.1.n
      State.rootBytes r.2 have_ rest (got ++ r.1)
    else match (have_.find? fun o => o.addr == a && o.len == p.1.n).map OutReq.reply with
      | some (.data bs) => s.rootBytes have_ rest (got ++ bs.take p.1.n ++ List.replicate (p.1.n - bs.length) 0)
      | _ => none

/-- A device's read: its pieces in a host or a peer are handed on at the first arrival, and the read is answered once their replies are
there; `no` refuses it. -/
def State.rootRead (s : State) (port : Nat) (ps : List (Piece × Leaf)) (no : State → State) : State :=
  let outs := s.rootOuts ps
  let have_ := s.asked (rootAgent port) none
  let missing := outs.filter fun r => !(have_.any fun o => o.addr == r.1 && o.len == r.2)
  if !missing.isEmpty then
    missing.eraseDups.foldl (fun (s : State) r => s.sendAs (rootAgent port) r.1 r.2 false fun k => .relay port k (s.wire r.1) (.read r.2)) s
  else
    let mine (o : OutReq) : Bool := o.tid == rootAgent port && !o.posted && outs.contains (o.addr, o.len)
    let have_ := have_.filter mine
    if have_.any fun o => o.reply == .none then s
    else
      let s := { s with obs := s.obs.filter fun o => !mine o }
      match s.rootBytes have_ ps [] with
      | some (bs, s) => s.complete true bs
      | none => no s

/-- A device's write of one piece; one to a peer that the links do not reach is dropped and logged. -/
def State.rootWrite (s : State) (port : Nat) (p : Piece × Leaf) (bs : List Byte) : State :=
  let a := p.2.addr
  if (s.region a).isLocal then s.inWrite a bs
  else if s.cutOff a then s.writeFor (rootAgent port) a bs
  else s.sendAs (rootAgent port) a bs.length true fun k => .relay port k (s.wire a) (.write bs false)

def State.rootWrites (s : State) (port : Nat) : List (Piece × Leaf) → List Byte → State
  | [], _ => s
  | p :: rest, bs => State.rootWrites (s.rootWrite port p (bs.take p.1.n)) port rest (bs.drop p.1.n)

/-- ROOT_PORT_INBOUND: a device's read or write; a root port completes no AtomicOps (R407). One that meets a page in motion waits, as if it
arrived later. One that maps to a host or a peer is handed on there (log entry 95). -/
def execRootPortInbound (port : BitVec 2) (gpa : Word) (req : InReq) (s : State) : Out :=
  let r := (s.rpa[port.toNat]?).getD 0
  let part := bits r 5 0
  let unit := 4 + port.toNat
  let a := gpa.toNat
  .next (
    if s.bootPhase = 4 then s.refuseRecovery req
    else if !r.getLsbD 8 || (s.part part).mode == .inactive || decide (2 ≤ reqRight req) then s.refuseReq unit a req
    else match s.rootPieces part (reqWrites req) (pagesOf a (reqLen req)) [] with
      | .error f => (s.ownerTable (walkRec part a (reqWrites req)) f).refuseReq unit a req
      | .ok ps =>
        if ps.any fun p => s.inMotion p.2.addr then s
        else
          let m := s.rootMark part (reqWrites req) ps
          match req with
          | .write bs _ => m.rootWrites port.toNat ps bs
          | _ => m.rootRead port.toNat ps fun s => s.refuseReq unit a req)

/-! ## Packets and frames -/

/-- REQUEST_PACKET: the payload of a datagram sent to RQPORT.PORT, or a write at an offset within the intake windows (18 R368). -/
def execRequestPacket (path : Path) (off : Nat) (bytes : List Byte) (sumsOk : Bool) (s : State) : Out :=
  .next (match path with
    | .ethernet _ => if s.bootPhase = 4 then s else s.datagram path bytes sumsOk
    | .host p => s.hostReq p.toNat false (0x40000000 + off) (.write bytes false)
    | .peer d => s.peerReq d.toNat s.devn.toNat (apertureBase + 0x40000000 + off) (.write bytes false))

/-- A big-endian half-word of a frame. -/
def be16 (bs : List Byte) (o : Nat) : Nat := ((bs[o]?).getD 0).toNat * 256 + ((bs[o + 1]?).getD 0).toNat
/-- The sum of a frame's half-words, the last padded with zero. -/
def sum16 : List Byte → Nat
  | a :: b :: t => a.toNat * 256 + b.toNat + sum16 t
  | [a] => a.toNat * 256
  | [] => 0
/-- Whether a sum of half-words is all ones in ones' complement, as a valid checksum leaves it. -/
def sumHolds (n : Nat) : Bool :=
  let m := n / 65536 + n % 65536
  m / 65536 + m % 65536 == 0xFFFF

/-- A UDP datagram found in a frame: its destination port, its payload, and whether its IP and UDP checksums hold. -/
structure Datagram where
  port : Nat
  payload : List Byte
  sumsOk : Bool
  deriving DecidableEq, Repr

/-- The transport part of an IP packet: its two addresses, whether it is IPv4, the protocol, the bytes, whether the header's sum holds, and,
for a fragment, what names its datagram, its offset and whether more follow. -/
structure IpPart where
  addrs : List Byte
  v4 : Bool
  proto : Nat
  body : List Byte
  ok : Bool
  frag : Option (List Byte × Nat × Bool)
  deriving DecidableEq, Repr

/-- A number of a byte of a packet. -/
def byteAt (bs : List Byte) (o : Nat) : Nat := ((bs[o]?).getD 0).toNat

/-- Passes the extension headers of IPv6 (0, 43, 60, 51), and a fragment header that leaves its packet whole; any other fragment header ends
it. -/
def IpPart.skip : (fuel : Nat) → IpPart → IpPart
  | 0, p => p
  | n + 1, p =>
    let next (len : Nat) : IpPart := { p with proto := byteAt p.body 0, body := p.body.drop len }
    if p.v4 || p.frag.isSome || p.body.length < 8 then p
    else if p.proto = 0 ∨ p.proto = 43 ∨ p.proto = 60 then (next ((byteAt p.body 1 + 1) * 8)).skip n
    else if p.proto = 51 then (next ((byteAt p.body 1 + 2) * 4)).skip n
    else if p.proto = 44 then
      let w := be16 p.body 2
      if w % 2 = 0 ∧ w / 8 = 0 then (next 8).skip n
      else { next 8 with frag := some (p.addrs ++ (p.body.drop 4).take 4, w / 8 * 8, w % 2 == 1) }
    else p

/-- The bytes behind an Ethernet header and its tags: from the type field on. -/
def untagged : (fuel : Nat) → List Byte → List Byte
  | 0, f => f
  | n + 1, f => if be16 f 0 = 0x8100 ∨ be16 f 0 = 0x88A8 then untagged n (f.drop 4) else f

/-- The IP packet of an Ethernet frame; none for any other frame, and one cut short. -/
def ipPart (f : List Byte) : Option IpPart :=
  let f := untagged 4 (f.drop 12)
  let ip := f.drop 2
  if be16 f 0 = 0x0800 ∧ byteAt ip 0 / 16 = 4 then
    let hl := byteAt ip 0 % 16 * 4
    let total := be16 ip 2
    let w := be16 ip 6 % 0x4000
    if hl < 20 ∨ total < hl ∨ ip.length < total then none
    else some {
      addrs := (ip.drop 12).take 8, v4 := true, proto := byteAt ip 9, body := (ip.take total).drop hl, ok := sumHolds (sum16 (ip.take hl))
      frag := if w = 0 then none else some ((ip.drop 12).take 8 ++ (ip.drop 4).take 2 ++ (ip.drop 9).take 1, w % 0x2000 * 8, decide (0x2000 ≤ w)) }
  else if be16 f 0 = 0x86DD ∧ byteAt ip 0 / 16 = 6 then
    if ip.length < 40 + be16 ip 4 then none
    else some (IpPart.skip 8 { addrs := (ip.drop 8).take 32, v4 := false, proto := byteAt ip 6, body := (ip.drop 40).take (be16 ip 4), ok := true, frag := none })
  else none

/-- The UDP datagram of a whole packet; IPv4 allows a segment without checksum. -/
def IpPart.udp (p : IpPart) : Option Datagram :=
  let len := be16 p.body 4
  let u := p.body.take len
  let sum := sum16 p.addrs + 17 + len + sum16 u
  if p.proto ≠ 17 ∨ p.body.length < 8 ∨ p.frag.isSome then none
  else some ⟨be16 p.body 2, u.drop 8,
    p.ok && decide (8 ≤ len) && decide (len ≤ p.body.length) && (if be16 p.body 6 = 0 then p.v4 else sumHolds sum)⟩

/-- The UDP datagram that an Ethernet frame carries whole (20 R407; log entry 96). -/
def udpFrame (f : List Byte) : Option Datagram := (ipPart f).bind IpPart.udp

/-- The packet that fragments of one datagram make, once they cover it (log entry 96). -/
def assemble (ps : List IpPart) : Option IpPart :=
  let off (p : IpPart) : Nat := (p.frag.map (·.2.1)).getD 0
  let last := ps.find? fun p => p.frag.any fun f => !f.2.2
  match last, ps.find? fun p => off p == 0 with
  | some l, some p =>
    let got := (List.range (off l + l.body.length)).map fun i =>
      (ps.find? fun q => decide (off q ≤ i) && decide (i < off q + q.body.length)).map fun q => (q.body[i - off q]?).getD 0
    if got.any Option.isNone then none
    else some (IpPart.skip 8 { p with body := got.filterMap id, ok := ps.all (·.ok), frag := none })
  | _, _ => none

/-- What a datagram, if it is one, and the frames it came in do: one sent to RQPORT.PORT is a request packet (18 R368); every other frame goes
to the owner's firmware (20 R407). -/
def State.deliver (s : State) (port : BitVec 3) (d : Option Datagram) (frames : List (Nat × List Byte)) : State :=
  match d with
  | some d =>
    if s.rqport = 0 ∨ d.port ≠ s.rqport.toNat then { s with frames := s.frames ++ frames }
    else if s.bootPhase = 4 then s
    else s.datagram (.ethernet port) d.payload d.sumsOk
  | none => { s with frames := s.frames ++ frames }

/-- ETHERNET_FRAME: a frame that carries its packet whole is delivered; a fragment waits for the others of its datagram. -/
def execEthernetFrame (port : BitVec 3) (bytes : List Byte) (s : State) : Out :=
  .next (match (ipPart bytes).bind IpPart.frag with
    | none => s.deliver port (udpFrame bytes) [(port.toNat, bytes)]
    | some f =>
      let (same, rest) := (s.frags ++ [(port.toNat, bytes)]).partition fun g => ((ipPart g.2).bind IpPart.frag).any fun o => o.1 == f.1
      match assemble (same.filterMap fun g => ipPart g.2) with
      | some p => { s with frags := rest }.deliver port p.udp same
      | none => { s with frags := rest ++ same })

end Sys2Proof.Machine
end

