-- ==== Sys2Proof/Machine/Dispatch.lean ====
section
/-! DEFINITION. The meaning of every instruction and event: one arm per constructor of Instr. -/

namespace Sys2Proof.Machine

def exec (i : Instr) (s : State) : Host.Outcome State Fault Refusal :=
  match i with
  | .add d n m => Sys2Proof.Machine.execAdd d n m s
  | .sub d n m => Sys2Proof.Machine.execSub d n m s
  | .and d n m => Sys2Proof.Machine.execAnd d n m s
  | .or d n m => Sys2Proof.Machine.execOr d n m s
  | .xor d n m => Sys2Proof.Machine.execXor d n m s
  | .shl d n m => Sys2Proof.Machine.execShl d n m s
  | .shr d n m => Sys2Proof.Machine.execShr d n m s
  | .sra d n m => Sys2Proof.Machine.execSra d n m s
  | .slt d n m => Sys2Proof.Machine.execSlt d n m s
  | .sltu d n m => Sys2Proof.Machine.execSltu d n m s
  | .mul d n m => Sys2Proof.Machine.execMul d n m s
  | .mulh d n m => Sys2Proof.Machine.execMulh d n m s
  | .mulhu d n m => Sys2Proof.Machine.execMulhu d n m s
  | .div d n m => Sys2Proof.Machine.execDiv d n m s
  | .divu d n m => Sys2Proof.Machine.execDivu d n m s
  | .rem d n m => Sys2Proof.Machine.execRem d n m s
  | .remu d n m => Sys2Proof.Machine.execRemu d n m s
  | .min d n m => Sys2Proof.Machine.execMin d n m s
  | .max d n m => Sys2Proof.Machine.execMax d n m s
  | .minu d n m => Sys2Proof.Machine.execMinu d n m s
  | .maxu d n m => Sys2Proof.Machine.execMaxu d n m s
  | .clz d n => Sys2Proof.Machine.execClz d n s
  | .ctz d n => Sys2Proof.Machine.execCtz d n s
  | .popc d n => Sys2Proof.Machine.execPopc d n s
  | .sel d n m x => Sys2Proof.Machine.execSel d n m x s
  | .addsh d n m x => Sys2Proof.Machine.execAddsh d n m x s
  | .addi d n im => Sys2Proof.Machine.execAddi d n im s
  | .andi d n im => Sys2Proof.Machine.execAndi d n im s
  | .ori d n im => Sys2Proof.Machine.execOri d n im s
  | .xori d n im => Sys2Proof.Machine.execXori d n im s
  | .slti d n im => Sys2Proof.Machine.execSlti d n im s
  | .shli d n im => Sys2Proof.Machine.execShli d n im s
  | .shri d n im => Sys2Proof.Machine.execShri d n im s
  | .srai d n im => Sys2Proof.Machine.execSrai d n im s
  | .ldB d n im => Sys2Proof.Machine.execLdB d n im s
  | .ldBu d n im => Sys2Proof.Machine.execLdBu d n im s
  | .ldH d n im => Sys2Proof.Machine.execLdH d n im s
  | .ldHu d n im => Sys2Proof.Machine.execLdHu d n im s
  | .ldW d n im => Sys2Proof.Machine.execLdW d n im s
  | .ldWu d n im => Sys2Proof.Machine.execLdWu d n im s
  | .ldD d n im => Sys2Proof.Machine.execLdD d n im s
  | .stB d n im => Sys2Proof.Machine.execStB d n im s
  | .stH d n im => Sys2Proof.Machine.execStH d n im s
  | .stW d n im => Sys2Proof.Machine.execStW d n im s
  | .stD d n im => Sys2Proof.Machine.execStD d n im s
  | .beq n m o => Sys2Proof.Machine.execBeq n m o s
  | .bne n m o => Sys2Proof.Machine.execBne n m o s
  | .blt n m o => Sys2Proof.Machine.execBlt n m o s
  | .bge n m o => Sys2Proof.Machine.execBge n m o s
  | .bltu n m o => Sys2Proof.Machine.execBltu n m o s
  | .bgeu n m o => Sys2Proof.Machine.execBgeu n m o s
  | .vloop n o => Sys2Proof.Machine.execVloop n o s
  | .jal d im => Sys2Proof.Machine.execJal d im s
  | .jalr d n im => Sys2Proof.Machine.execJalr d n im s
  | .ldhi d im => Sys2Proof.Machine.execLdhi d im s
  | .fadd d n m p => Sys2Proof.Machine.execFadd d n m p s
  | .fsub d n m p => Sys2Proof.Machine.execFsub d n m p s
  | .fmul d n m p => Sys2Proof.Machine.execFmul d n m p s
  | .fdiv d n m p => Sys2Proof.Machine.execFdiv d n m p s
  | .fsqrt d n p => Sys2Proof.Machine.execFsqrt d n p s
  | .fma d n m x p => Sys2Proof.Machine.execFma d n m x p s
  | .fmin d n m p => Sys2Proof.Machine.execFmin d n m p s
  | .fmax d n m p => Sys2Proof.Machine.execFmax d n m p s
  | .fcmp d n m x p => Sys2Proof.Machine.execFcmp d n m x p s
  | .fcvt d n x => Sys2Proof.Machine.execFcvt d n x s
  | .ldOrdered d n w o z => Sys2Proof.Machine.execLdOrdered d n w o z s
  | .stOrdered n m w o z => Sys2Proof.Machine.execStOrdered n m w o z s
  | .amoadd d n m w o z => Sys2Proof.Machine.execAmoadd d n m w o z s
  | .amoand d n m w o z => Sys2Proof.Machine.execAmoand d n m w o z s
  | .amoor d n m w o z => Sys2Proof.Machine.execAmoor d n m w o z s
  | .amoxor d n m w o z => Sys2Proof.Machine.execAmoxor d n m w o z s
  | .amoswap d n m w o z => Sys2Proof.Machine.execAmoswap d n m w o z s
  | .amomin d n m w o z => Sys2Proof.Machine.execAmomin d n m w o z s
  | .amomax d n m w o z => Sys2Proof.Machine.execAmomax d n m w o z s
  | .amominu d n m w o z => Sys2Proof.Machine.execAmominu d n m w o z s
  | .amomaxu d n m w o z => Sys2Proof.Machine.execAmomaxu d n m w o z s
  | .cas d n m x o z f => Sys2Proof.Machine.execCas d n m x o z f s
  | .csrr d r => Sys2Proof.Machine.execCsrr d r s
  | .csrw n r => Sys2Proof.Machine.execCsrw n r s
  | .csrs n r => Sys2Proof.Machine.execCsrs n r s
  | .csrc n r => Sys2Proof.Machine.execCsrc n r s
  | .qpush n q => Sys2Proof.Machine.execQpush n q s
  | .qpop d q => Sys2Proof.Machine.execQpop d q s
  | .trap x => Sys2Proof.Machine.execTrap x s
  | .tret => Sys2Proof.Machine.execTret s
  | .halt => Sys2Proof.Machine.execHalt s
  | .wait x => Sys2Proof.Machine.execWait x s
  | .brk x => Sys2Proof.Machine.execBrk x s
  | .kend => Sys2Proof.Machine.execKend s
  | .tlbiAll => Sys2Proof.Machine.execTlbiAll s
  | .tlbiAsn n => Sys2Proof.Machine.execTlbiAsn n s
  | .tlbiVa n m => Sys2Proof.Machine.execTlbiVa n m s
  | .tlbiGpa n m => Sys2Proof.Machine.execTlbiGpa n m s
  | .tlbiPart m => Sys2Proof.Machine.execTlbiPart m s
  | .fence o z => Sys2Proof.Machine.execFence o z s
  | .lsync => Sys2Proof.Machine.execLsync s
  | .ifence => Sys2Proof.Machine.execIfence s
  | .launch n => Sys2Proof.Machine.execLaunch n s
  | .nop h => Sys2Proof.Machine.execNop h s
  | .illegalInstruction w sub => Sys2Proof.Machine.execIllegalInstruction w sub s
  | .setvl d n => Sys2Proof.Machine.execSetvl d n s
  | .vcfg c => Sys2Proof.Machine.execVcfg c s
  | .vtype n => Sys2Proof.Machine.execVtype n s
  | .vwin d n => Sys2Proof.Machine.execVwin d n s
  | .lpart n => Sys2Proof.Machine.execLpart n s
  | .vadd d a b k => Sys2Proof.Machine.execVadd d a b k s
  | .vsub d a b k => Sys2Proof.Machine.execVsub d a b k s
  | .vmul d a b k => Sys2Proof.Machine.execVmul d a b k s
  | .vmulh d a b k => Sys2Proof.Machine.execVmulh d a b k s
  | .vmadd d a b k => Sys2Proof.Machine.execVmadd d a b k s
  | .vmsub d a b k => Sys2Proof.Machine.execVmsub d a b k s
  | .vdiv d a b k => Sys2Proof.Machine.execVdiv d a b k s
  | .vrem d a b k => Sys2Proof.Machine.execVrem d a b k s
  | .vmin d a b k => Sys2Proof.Machine.execVmin d a b k s
  | .vmax d a b k => Sys2Proof.Machine.execVmax d a b k s
  | .vand d a b k => Sys2Proof.Machine.execVand d a b k s
  | .vor d a b k => Sys2Proof.Machine.execVor d a b k s
  | .vxor d a b k => Sys2Proof.Machine.execVxor d a b k s
  | .vshl d a b k => Sys2Proof.Machine.execVshl d a b k s
  | .vshr d a b k => Sys2Proof.Machine.execVshr d a b k s
  | .vsra d a b k => Sys2Proof.Machine.execVsra d a b k s
  | .vabs d a k => Sys2Proof.Machine.execVabs d a k s
  | .vaddVx d a n q k => Sys2Proof.Machine.execVaddVx d a n q k s
  | .vsubVx d a n q k => Sys2Proof.Machine.execVsubVx d a n q k s
  | .vmulVx d a n q k => Sys2Proof.Machine.execVmulVx d a n q k s
  | .vmulhVx d a n q k => Sys2Proof.Machine.execVmulhVx d a n q k s
  | .vmaddVx d a n q k => Sys2Proof.Machine.execVmaddVx d a n q k s
  | .vmsubVx d a n q k => Sys2Proof.Machine.execVmsubVx d a n q k s
  | .vdivVx d a n q k => Sys2Proof.Machine.execVdivVx d a n q k s
  | .vremVx d a n q k => Sys2Proof.Machine.execVremVx d a n q k s
  | .vminVx d a n q k => Sys2Proof.Machine.execVminVx d a n q k s
  | .vmaxVx d a n q k => Sys2Proof.Machine.execVmaxVx d a n q k s
  | .vandVx d a n q k => Sys2Proof.Machine.execVandVx d a n q k s
  | .vorVx d a n q k => Sys2Proof.Machine.execVorVx d a n q k s
  | .vxorVx d a n q k => Sys2Proof.Machine.execVxorVx d a n q k s
  | .vshlVx d a n q k => Sys2Proof.Machine.execVshlVx d a n q k s
  | .vshrVx d a n q k => Sys2Proof.Machine.execVshrVx d a n q k s
  | .vsraVx d a n q k => Sys2Proof.Machine.execVsraVx d a n q k s
  | .vfadd d a b k => Sys2Proof.Machine.execVfadd d a b k s
  | .vfsub d a b k => Sys2Proof.Machine.execVfsub d a b k s
  | .vfmul d a b k => Sys2Proof.Machine.execVfmul d a b k s
  | .vfdiv d a b k => Sys2Proof.Machine.execVfdiv d a b k s
  | .vfsqrt d a k => Sys2Proof.Machine.execVfsqrt d a k s
  | .vfrsqe d a k => Sys2Proof.Machine.execVfrsqe d a k s
  | .vfma d a b k => Sys2Proof.Machine.execVfma d a b k s
  | .vfms d a b k => Sys2Proof.Machine.execVfms d a b k s
  | .vfnma d a b k => Sys2Proof.Machine.execVfnma d a b k s
  | .vfmin d a b k => Sys2Proof.Machine.execVfmin d a b k s
  | .vfmax d a b k => Sys2Proof.Machine.execVfmax d a b k s
  | .vfabs d a k => Sys2Proof.Machine.execVfabs d a k s
  | .vfneg d a k => Sys2Proof.Machine.execVfneg d a k s
  | .vcvt d a t k => Sys2Proof.Machine.execVcvt d a t k s
  | .vfaddVx d a n q k => Sys2Proof.Machine.execVfaddVx d a n q k s
  | .vfsubVx d a n q k => Sys2Proof.Machine.execVfsubVx d a n q k s
  | .vfmulVx d a n q k => Sys2Proof.Machine.execVfmulVx d a n q k s
  | .vfdivVx d a n q k => Sys2Proof.Machine.execVfdivVx d a n q k s
  | .vfmaVx d a n q k => Sys2Proof.Machine.execVfmaVx d a n q k s
  | .vfmsVx d a n q k => Sys2Proof.Machine.execVfmsVx d a n q k s
  | .vfnmaVx d a n q k => Sys2Proof.Machine.execVfnmaVx d a n q k s
  | .vfminVx d a n q k => Sys2Proof.Machine.execVfminVx d a n q k s
  | .vfmaxVx d a n q k => Sys2Proof.Machine.execVfmaxVx d a n q k s
  | .vcmpEq d a b k => Sys2Proof.Machine.execVcmpEq d a b k s
  | .vcmpNe d a b k => Sys2Proof.Machine.execVcmpNe d a b k s
  | .vcmpLt d a b k => Sys2Proof.Machine.execVcmpLt d a b k s
  | .vcmpLe d a b k => Sys2Proof.Machine.execVcmpLe d a b k s
  | .vcmpLtu d a b k => Sys2Proof.Machine.execVcmpLtu d a b k s
  | .vcmpLeu d a b k => Sys2Proof.Machine.execVcmpLeu d a b k s
  | .vfcmpEq d a b k => Sys2Proof.Machine.execVfcmpEq d a b k s
  | .vfcmpNe d a b k => Sys2Proof.Machine.execVfcmpNe d a b k s
  | .vfcmpLt d a b k => Sys2Proof.Machine.execVfcmpLt d a b k s
  | .vfcmpLe d a b k => Sys2Proof.Machine.execVfcmpLe d a b k s
  | .vfcmpUnord d a b k => Sys2Proof.Machine.execVfcmpUnord d a b k s
  | .vfcmpOrd d a b k => Sys2Proof.Machine.execVfcmpOrd d a b k s
  | .mand d a b k => Sys2Proof.Machine.execMand d a b k s
  | .mor d a b k => Sys2Proof.Machine.execMor d a b k s
  | .mxor d a b k => Sys2Proof.Machine.execMxor d a b k s
  | .mnot d a k => Sys2Proof.Machine.execMnot d a k s
  | .mpopc d a k => Sys2Proof.Machine.execMpopc d a k s
  | .mfirst d a k => Sys2Proof.Machine.execMfirst d a k s
  | .mset d k => Sys2Proof.Machine.execMset d k s
  | .vcmpEqVx d a n q k => Sys2Proof.Machine.execVcmpEqVx d a n q k s
  | .vcmpNeVx d a n q k => Sys2Proof.Machine.execVcmpNeVx d a n q k s
  | .vcmpLtVx d a n q k => Sys2Proof.Machine.execVcmpLtVx d a n q k s
  | .vcmpLeVx d a n q k => Sys2Proof.Machine.execVcmpLeVx d a n q k s
  | .vcmpLtuVx d a n q k => Sys2Proof.Machine.execVcmpLtuVx d a n q k s
  | .vcmpLeuVx d a n q k => Sys2Proof.Machine.execVcmpLeuVx d a n q k s
  | .vfcmpEqVx d a n q k => Sys2Proof.Machine.execVfcmpEqVx d a n q k s
  | .vfcmpNeVx d a n q k => Sys2Proof.Machine.execVfcmpNeVx d a n q k s
  | .vfcmpLtVx d a n q k => Sys2Proof.Machine.execVfcmpLtVx d a n q k s
  | .vfcmpLeVx d a n q k => Sys2Proof.Machine.execVfcmpLeVx d a n q k s
  | .vfcmpUnordVx d a n q k => Sys2Proof.Machine.execVfcmpUnordVx d a n q k s
  | .vfcmpOrdVx d a n q k => Sys2Proof.Machine.execVfcmpOrdVx d a n q k s
  | .vredsum d a n q k => Sys2Proof.Machine.execVredsum d a n q k s
  | .vredmax d a n q k => Sys2Proof.Machine.execVredmax d a n q k s
  | .vredmin d a n q k => Sys2Proof.Machine.execVredmin d a n q k s
  | .vredand d a n q k => Sys2Proof.Machine.execVredand d a n q k s
  | .vredor d a n q k => Sys2Proof.Machine.execVredor d a n q k s
  | .vfredsumO d a n q k => Sys2Proof.Machine.execVfredsumO d a n q k s
  | .vfredsumT d a n q k => Sys2Proof.Machine.execVfredsumT d a n q k s
  | .vfredmax d a n q k => Sys2Proof.Machine.execVfredmax d a n q k s
  | .vfredmin d a n q k => Sys2Proof.Machine.execVfredmin d a n q k s
  | .vslideup d a n q k => Sys2Proof.Machine.execVslideup d a n q k s
  | .vslidedown d a n q k => Sys2Proof.Machine.execVslidedown d a n q k s
  | .vrev d a k => Sys2Proof.Machine.execVrev d a k s
  | .vperm d a b k => Sys2Proof.Machine.execVperm d a b k s
  | .vcompress d a k => Sys2Proof.Machine.execVcompress d a k s
  | .vexpand d a k => Sys2Proof.Machine.execVexpand d a k s
  | .viota d a k => Sys2Proof.Machine.execViota d a k s
  | .vsort d a => Sys2Proof.Machine.execVsort d a s
  | .vdedup d a z => Sys2Proof.Machine.execVdedup d a z s
  | .vscanAdd d a n q k => Sys2Proof.Machine.execVscanAdd d a n q k s
  | .vscanMax d a n q k => Sys2Proof.Machine.execVscanMax d a n q k s
  | .vscanMin d a n q k => Sys2Proof.Machine.execVscanMin d a n q k s
  | .vscanFadd d a n q k => Sys2Proof.Machine.execVscanFadd d a n q k s
  | .vrecur d a n q k => Sys2Proof.Machine.execVrecur d a n q k s
  | .vmv d a k => Sys2Proof.Machine.execVmv d a k s
  | .vbcast d n q k => Sys2Proof.Machine.execVbcast d n q k s
  | .vext d a n q => Sys2Proof.Machine.execVext d a n q s
  | .vins d im n q => Sys2Proof.Machine.execVins d im n q s
  | .vmerge d a b k => Sys2Proof.Machine.execVmerge d a b k s
  | .vtrans d => Sys2Proof.Machine.execVtrans d s
  | .tzero d => Sys2Proof.Machine.execTzero d s
  | .tmmaO d v w n => Sys2Proof.Machine.execTmmaO d v w n s
  | .tmmaF d v w n => Sys2Proof.Machine.execTmmaF d v w n s
  | .tmova d v n => Sys2Proof.Machine.execTmova d v n s
  | .tmovv d v n => Sys2Proof.Machine.execTmovv d v n s
  | .tcolmvOut d v n => Sys2Proof.Machine.execTcolmvOut d v n s
  | .tcolmvIn d v n => Sys2Proof.Machine.execTcolmvIn d v n s
  | .trowmvOut d v n => Sys2Proof.Machine.execTrowmvOut d v n s
  | .trowmvIn d v n => Sys2Proof.Machine.execTrowmvIn d v n s
  | .tscale d n => Sys2Proof.Machine.execTscale d n s
  | .tcvt d v n => Sys2Proof.Machine.execTcvt d v n s
  | .vld d n c k => Sys2Proof.Machine.execVld d n c k s
  | .vlds d n z c k => Sys2Proof.Machine.execVlds d n z c k s
  | .vldx d n im c k => Sys2Proof.Machine.execVldx d n im c k s
  | .wgather d n im c k => Sys2Proof.Machine.execWgather d n im c k s
  | .vst d n c k => Sys2Proof.Machine.execVst d n c k s
  | .vsts d n z c k => Sys2Proof.Machine.execVsts d n z c k s
  | .vstxO d n im c k => Sys2Proof.Machine.execVstxO d n im c k s
  | .vstxU d n im c k => Sys2Proof.Machine.execVstxU d n im c k s
  | .vsadd d n im c k => Sys2Proof.Machine.execVsadd d n im c k s
  | .tload d n t z c k => Sys2Proof.Machine.execTload d n t z c k s
  | .tstore d n t z c k => Sys2Proof.Machine.execTstore d n t z c k s
  | .vbind d n => Sys2Proof.Machine.execVbind d n s
  | .vunbind d => Sys2Proof.Machine.execVunbind d s
  | .vbpos d z => Sys2Proof.Machine.execVbpos d z s
  | .cappend d n c k => Sys2Proof.Machine.execCappend d n c k s
  | .wbload w n z => Sys2Proof.Machine.execWbload w n z s
  | .wbinv w => Sys2Proof.Machine.execWbinv w s
  | .csld d a b => Sys2Proof.Machine.execCsld d a b s
  | .csst d a b => Sys2Proof.Machine.execCsst d a b s
  | .csadd d a b r => Sys2Proof.Machine.execCsadd d a b r s
  | .csmul d a b r => Sys2Proof.Machine.execCsmul d a b r s
  | .csdot d a b r => Sys2Proof.Machine.execCsdot d a b r s
  | .csscale d a n => Sys2Proof.Machine.execCsscale d a n s
  | .cscompact d v n => Sys2Proof.Machine.execCscompact d v n s
  | .csexpand v a n => Sys2Proof.Machine.execCsexpand v a n s
  | .csseek d a n => Sys2Proof.Machine.execCsseek d a n s
  | .cscsr t v n c => Sys2Proof.Machine.execCscsr t v n c s
  | .ebatch v d m c k => Sys2Proof.Machine.execEbatch v d m c k s
  | .ecopy n d => Sys2Proof.Machine.execEcopy n d s
  | .rep n c => Sys2Proof.Machine.execRep n c s
  | .tlsig d => Sys2Proof.Machine.execTlsig d s
  | .tlwait n m => Sys2Proof.Machine.execTlwait n m s
  | .tlwaitChk n m => Sys2Proof.Machine.execTlwaitChk n m s
  | .tlread d n => Sys2Proof.Machine.execTlread d n s
  | .vrred v n f z c k => Sys2Proof.Machine.execVrred v n f z c k s
  | .creduce n d => Sys2Proof.Machine.execCreduce n d s
  | .cgather n d => Sys2Proof.Machine.execCgather n d s
  | .cxpar n d => Sys2Proof.Machine.execCxpar n d s
  | .nmadd v n x c k => Sys2Proof.Machine.execNmadd v n x c k s
  | .nmfadd v n x c k => Sys2Proof.Machine.execNmfadd v n x c k s
  | .nmfence => Sys2Proof.Machine.execNmfence s
  | .nmfenceRel => Sys2Proof.Machine.execNmfenceRel s
  | .nmopt n d => Sys2Proof.Machine.execNmopt n d s
  | .pkcfg n => Sys2Proof.Machine.execPkcfg n s
  | .pklook v n d c k => Sys2Proof.Machine.execPklook v n d c k s
  | .skset n => Sys2Proof.Machine.execSkset n s
  | .sksetG n d => Sys2Proof.Machine.execSksetG n d s
  | .skbuild n d => Sys2Proof.Machine.execSkbuild n d s
  | .skxchg n d => Sys2Proof.Machine.execSkxchg n d s
  | .skpeel n d => Sys2Proof.Machine.execSkpeel n d s
  | .tmode d t => Sys2Proof.Machine.execTmode d t s
  | .tshape k n m => Sys2Proof.Machine.execTshape k n m s
  | .pageWalk tid va acc => Sys2Proof.Machine.execPageWalk tid va acc s
  | .writePerformed seq => Sys2Proof.Machine.execWritePerformed seq s
  | .nearMemoryAdd seq => Sys2Proof.Machine.execNearMemoryAdd seq s
  | .remoteReduceAdd seq => Sys2Proof.Machine.execRemoteReduceAdd seq s
  | .copyCommandPerformed tid n => Sys2Proof.Machine.execCopyCommandPerformed tid n s
  | .threadTimelineSignal tid n => Sys2Proof.Machine.execThreadTimelineSignal tid n s
  | .collectivePerformed tid n members => Sys2Proof.Machine.execCollectivePerformed tid n members s
  | .nmoptPerformed tid n => Sys2Proof.Machine.execNmoptPerformed tid n s
  | .pklookPerformed tid n => Sys2Proof.Machine.execPklookPerformed tid n s
  | .skbuildPerformed tid n => Sys2Proof.Machine.execSkbuildPerformed tid n s
  | .skxchgPerformed tid n peer => Sys2Proof.Machine.execSkxchgPerformed tid n peer s
  | .skpeelPerformed tid n => Sys2Proof.Machine.execSkpeelPerformed tid n s
  | .partitionActivate part => Sys2Proof.Machine.execPartitionActivate part s
  | .partitionQuiesce part => Sys2Proof.Machine.execPartitionQuiesce part s
  | .quiesceComplete => Sys2Proof.Machine.execQuiesceComplete s
  | .partitionDeactivate part => Sys2Proof.Machine.execPartitionDeactivate part s
  | .deactivateComplete => Sys2Proof.Machine.execDeactivateComplete s
  | .reloadCrossbar part => Sys2Proof.Machine.execReloadCrossbar part s
  | .partitionResume part => Sys2Proof.Machine.execPartitionResume part s
  | .pcmdReserved part cmd => Sys2Proof.Machine.execPcmdReserved part cmd s
  | .pageMigration slot ctl => Sys2Proof.Machine.execPageMigration slot ctl s
  | .pageMigrationComplete slot => Sys2Proof.Machine.execPageMigrationComplete slot s
  | .hotnessClear die => Sys2Proof.Machine.execHotnessClear die s
  | .hotnessClearDone die => Sys2Proof.Machine.execHotnessClearDone die s
  | .contextHalt slot ctl => Sys2Proof.Machine.execContextHalt slot ctl s
  | .contextSave slot ctl => Sys2Proof.Machine.execContextSave slot ctl s
  | .contextRestore slot ctl => Sys2Proof.Machine.execContextRestore slot ctl s
  | .contextResume slot ctl => Sys2Proof.Machine.execContextResume slot ctl s
  | .ctxRetry slot ctl => Sys2Proof.Machine.execCtxRetry slot ctl s
  | .abandon slot ctl => Sys2Proof.Machine.execAbandon slot ctl s
  | .exportWalker slot ctl => Sys2Proof.Machine.execExportWalker slot ctl s
  | .importWalker slot ctl => Sys2Proof.Machine.execImportWalker slot ctl s
  | .contextEngineReserved slot ctl => Sys2Proof.Machine.execContextEngineReserved slot ctl s
  | .iterationDispatch part tid => Sys2Proof.Machine.execIterationDispatch part tid s
  | .timeSliceEnd tid cut overrun => Sys2Proof.Machine.execTimeSliceEnd tid cut overrun s
  | .setAsideResume tid => Sys2Proof.Machine.execSetAsideResume tid s
  | .watchdogExpire tid => Sys2Proof.Machine.execWatchdogExpire tid s
  | .replayCommand own part => Sys2Proof.Machine.execReplayCommand own part s
  | .replayConditionMet tid => Sys2Proof.Machine.execReplayConditionMet tid s
  | .deferredFaultPost tid => Sys2Proof.Machine.execDeferredFaultPost tid s
  | .requestPacket path off bytes sumsOk => Sys2Proof.Machine.execRequestPacket path off bytes sumsOk s
  | .hostInboundRead port memBar off len => Sys2Proof.Machine.execHostInboundRead port memBar off len s
  | .hostInboundWrite port memBar off data relaxed => Sys2Proof.Machine.execHostInboundWrite port memBar off data relaxed s
  | .hostInboundAtomic port memBar off req => Sys2Proof.Machine.execHostInboundAtomic port memBar off req s
  | .peerInboundRequest src dest addr req => Sys2Proof.Machine.execPeerInboundRequest src dest addr req s
  | .rootPortInbound port gpa req => Sys2Proof.Machine.execRootPortInbound port gpa req s
  | .ethernetFrame port bytes => Sys2Proof.Machine.execEthernetFrame port bytes s
  | .mctpMessage net addr req => Sys2Proof.Machine.execMctpMessage net addr req s
  | .linkDown port => Sys2Proof.Machine.execLinkDown port s
  | .completionTimeout tid k => Sys2Proof.Machine.execCompletionTimeout tid k s
  | .linkLaneFault port spare => Sys2Proof.Machine.execLinkLaneFault port spare s
  | .claim m => Sys2Proof.Machine.execClaim m s
  | .offer m tgt => Sys2Proof.Machine.execOffer m tgt s
  | .accept m => Sys2Proof.Machine.execAccept m s
  | .acceptComplete => Sys2Proof.Machine.execAcceptComplete s
  | .acceptTimeout => Sys2Proof.Machine.execAcceptTimeout s
  | .offerLapse => Sys2Proof.Machine.execOfferLapse s
  | .ownerPathFailure => Sys2Proof.Machine.execOwnerPathFailure s
  | .ownerLost => Sys2Proof.Machine.execOwnerLost s
  | .attestationRequest => Sys2Proof.Machine.execAttestationRequest s
  | .attestationDone => Sys2Proof.Machine.execAttestationDone s
  | .moduleReset => Sys2Proof.Machine.execModuleReset s
  | .recoveryVerify => Sys2Proof.Machine.execRecoveryVerify s
  | .powerLeaveGrant die => Sys2Proof.Machine.execPowerLeaveGrant die s
  | .powerInputOverlimit => Sys2Proof.Machine.execPowerInputOverlimit s
  | .powerInputRecovered => Sys2Proof.Machine.execPowerInputRecovered s
  | .patrolScrub => Sys2Proof.Machine.execPatrolScrub s
  | .spareMapWrite die slot v => Sys2Proof.Machine.execSpareMapWrite die slot v s
  | .laneMapWrite die slot lane v => Sys2Proof.Machine.execLaneMapWrite die slot lane v s
  | .spareRowReplace unit addr => Sys2Proof.Machine.execSpareRowReplace unit addr s
  | .registerWrite off v => Sys2Proof.Machine.execRegisterWrite off v s
  | .outboundCompletion tid k refused data => Sys2Proof.Machine.execOutboundCompletion tid k refused data s
  | .linkUp port => Sys2Proof.Machine.execLinkUp port s
  | .dataLinkLayerUp port => Sys2Proof.Machine.execDataLinkLayerUp port s
  | .softError site => Sys2Proof.Machine.execSoftError site s
  | .activateComplete => Sys2Proof.Machine.execActivateComplete s
  | .contextEngineDone slot => Sys2Proof.Machine.execContextEngineDone slot s
  | .waitExpire tid => Sys2Proof.Machine.execWaitExpire tid s

end Sys2Proof.Machine
end

