-- ==== Sys2Proof/Machine/VQueue.lean ====
section
/-! DEFINITION. The vector instruction queue while its oldest instruction is held at q0 or q1: the front end runs ahead of it (06 R151 to
R153; log entry 90). -/

namespace Sys2Proof.Machine

/-- Whether a row of the table is an event, which no word encodes. A word that encodes nothing is met by fetching it. -/
def isEvent (i : Instr) : Bool :=
  match i with
  | .illegalInstruction _ _ => false
  | i => (encode i).isNone

/-- What an executed word means: its instruction, or the trap of a word that encodes none (08 R194, R195). -/
noncomputable def execWord (s : State) (w : BitVec 32) : Host.Outcome State Fault Refusal :=
  match decodeWord s.me.tile w with
  | .ok i => exec i s
  | .error sub => exec (.illegalInstruction w sub) s

/-! ## What the front end waits for (06 R152) -/

/-- What a front-end instruction waits for of the instructions queued before it. -/
inductive Await where
  /-- nothing but the scalar registers it reads -/
  | nothing
  /-- it accesses memory, and so comes after every queued access (04 R110 to R113) -/
  | accesses
  /-- the queued instructions are known not to trap or suspend -/
  | known
  /-- both -/
  | both
  /-- the queued instructions have fixed their achieved lengths -/
  | lengths
  /-- the queued instructions have completed -/
  | completion
  deriving DecidableEq, Repr

/-- A front-end instruction's use: the scalar registers it reads and writes, and what it waits for. -/
structure FrontUse where
  reads : List (BitVec 5)
  writes : List (BitVec 5)
  on : Await
  deriving DecidableEq, Repr

/-- R152. A register of level S is the front end's own; `tlwait` and the like stand in the queue as accesses. -/
def frontUse (i : Instr) : FrontUse :=
  match i with
  | .add d n m | .sub d n m | .and d n m | .or d n m | .xor d n m | .shl d n m | .shr d n m | .sra d n m | .slt d n m | .sltu d n m
  | .mul d n m | .mulh d n m | .mulhu d n m | .div d n m | .divu d n m | .rem d n m | .remu d n m | .min d n m | .max d n m
  | .minu d n m | .maxu d n m | .addsh d n m _ => ⟨[n, m], [d], .nothing⟩
  | .clz d n | .ctz d n | .popc d n => ⟨[n], [d], .nothing⟩
  | .sel d n m x => ⟨[n, m, x], [d], .nothing⟩
  | .addi d n _ | .andi d n _ | .ori d n _ | .xori d n _ | .slti d n _ => ⟨[n], [d], .nothing⟩
  | .shli d n _ | .shri d n _ | .srai d n _ => ⟨[n], [d], .nothing⟩
  | .ldB d n _ | .ldBu d n _ | .ldH d n _ | .ldHu d n _ | .ldW d n _ | .ldWu d n _ | .ldD d n _ => ⟨[n], [d], .accesses⟩
  | .ldOrdered d n _ _ _ => ⟨[n], [d], .accesses⟩
  | .beq n m _ | .bne n m _ | .blt n m _ | .bge n m _ | .bltu n m _ | .bgeu n m _ => ⟨[n, m], [], .nothing⟩
  | .vloop n _ => ⟨[n], [n], .lengths⟩
  | .jal d _ | .ldhi d _ => ⟨[], [d], .nothing⟩
  | .jalr d n _ => ⟨[n], [d], .nothing⟩
  | .fadd d n m _ | .fsub d n m _ | .fmul d n m _ | .fdiv d n m _ | .fmin d n m _ | .fmax d n m _ | .fcmp d n m _ _ => ⟨[n, m], [d], .nothing⟩
  | .fsqrt d n _ | .fcvt d n _ => ⟨[n], [d], .nothing⟩
  | .fma d n m x _ => ⟨[n, m, x], [d], .nothing⟩
  | .nop _ | .wait _ => ⟨[], [], .nothing⟩
  | .stB d n _ | .stH d n _ | .stW d n _ | .stD d n _ => ⟨[d, n], [], .both⟩
  | .stOrdered n m _ _ _ => ⟨[n, m], [], .both⟩
  | .amoadd d n m _ _ _ | .amoand d n m _ _ _ | .amoor d n m _ _ _ | .amoxor d n m _ _ _ | .amoswap d n m _ _ _ | .amomin d n m _ _ _
  | .amomax d n m _ _ _ | .amominu d n m _ _ _ | .amomaxu d n m _ _ _ => ⟨[n, m], [d], .both⟩
  | .cas d n m x _ _ _ => ⟨[n, m, x], [d], .both⟩
  | .qpush n q => ⟨[n], [], if q = 0 then .known else .both⟩
  | .qpop d q => ⟨[], [d], if q = 1 then .known else .both⟩
  | .fence _ _ | .lsync | .ifence | .nmfence | .nmfenceRel | .tlbiAll | .halt => ⟨[], [], .both⟩
  | .tlbiAsn n | .tlbiPart n | .launch n => ⟨[n], [], .both⟩
  | .tlbiVa n m | .tlbiGpa n m => ⟨[n, m], [], .both⟩
  | .trap _ | .brk _ | .tret => ⟨[], [], .known⟩
  | .csrr d r => ⟨[], [d], if csrNeedsS r.toNat then .nothing else .completion⟩
  | .csrw n r | .csrs n r | .csrc n r => ⟨[n], [], if csrNeedsS r.toNat then .nothing else .completion⟩
  | _ => ⟨[], [], .completion⟩

/-! ## Queued instructions -/

/-- Entries of the vector instruction queue (R151). -/
def vqSize : Nat := 64

/-- The major and func of a word (08 R183). -/
def majorOf (w : BitVec 32) : Nat := w.toNat / 2 ^ 26
def funcOf (w : BitVec 32) : Nat := w.toNat % 32

/-- Whether a word's instruction enters the vector instruction queue (R151). A near fence waits in the front end, as a fence does (16 R334). -/
def queues (w : BitVec 32) : Bool :=
  ((decide (0x10 ≤ majorOf w) && decide (majorOf w < 0x30)) || majorOf w == 0x3E) && !(majorOf w == 0x2A && (funcOf w == 2 || funcOf w == 3))

/-- The scalar registers a queued instruction writes. -/
def queuedSd (i : Instr) : List (BitVec 5) :=
  match i with
  | .setvl d _ | .mpopc d _ _ | .mfirst d _ _ | .vdedup _ _ d | .vbpos _ d | .ebatch _ d _ _ _ | .ecopy _ d | .tlsig d | .tlread d _
  | .creduce _ d | .cgather _ d | .cxpar _ d | .nmopt _ d | .pklook _ _ d _ _ | .sksetG _ d | .skbuild _ d | .skxchg _ d | .skpeel _ d => [d]
  | .vredsum d _ _ q _ | .vredmax d _ _ q _ | .vredmin d _ _ q _ | .vredand d _ _ q _ | .vredor d _ _ q _ | .vfredsumO d _ _ q _
  | .vfredsumT d _ _ q _ | .vfredmax d _ _ q _ | .vfredmin d _ _ q _ | .vext d _ _ q => if q = 1 then [] else [d]
  | .vscanAdd _ _ n q _ | .vscanMax _ _ n q _ | .vscanMin _ _ n q _ | .vscanFadd _ _ n q _ | .vrecur _ _ n q _ => if q = 1 then [] else [n]
  | .csadd _ _ _ r | .csmul _ _ _ r => [r]
  | .csdot d _ _ r => [d, r]
  | _ => []

/-- The instruction of a queue entry. -/
noncomputable def Queued.instr (q : Queued) : Option Instr :=
  match decodeWord q.tile q.word with
  | .ok i => some i
  | .error _ => none

/-- The scalar registers a queue entry is still to write for the instructions after the queue: those the front end has not overwritten. -/
noncomputable def Queued.owed (q : Queued) : List (BitVec 5) := (((q.instr).map queuedSd).getD []).filter fun d => d != 0 && !q.past.contains d
/-- The scalar registers that queued instructions are still to write. -/
noncomputable def Thread.owed (t : Thread) : List (BitVec 5) := t.vq.flatMap Queued.owed

/-- The mode in which the front end decodes: the one the last queued `tmode` asks for, else the thread's (R162). -/
noncomputable def Thread.frontTile (t : Thread) : Bool :=
  t.vq.foldl (fun m q => match q.instr with
    | some (.tmode _ x) => x == 1
    | _ => m) t.tile

/-- Whether the front end knows its next word: not past a `rep`, whose record decides it (15 R321). -/
def Thread.frontGoes (t : Thread) : Bool := !t.vq.any fun q => majorOf q.word == 0x28 && funcOf q.word == 2

/-- Whether a word names a bound register in one of the fields that may hold a vector register (03 R99; 08 R183). -/
def Thread.namesBound (t : Thread) (w : BitVec 32) : Bool :=
  t.binds.toList.any fun b => match b with
    | some b => [w.extractLsb' 20 6, w.extractLsb' 14 6, w.extractLsb' 8 6, w.extractLsb' 9 6].contains b.reg
    | none => false

/-- Whether a queued word makes accesses or orders them: vector memory, streams, engine commands and timelines. -/
def Thread.touchesMemory (t : Thread) (w : BitVec 32) : Bool :=
  let f := funcOf w
  let m := majorOf w
  (decide (0x1C ≤ m) && decide (m ≤ 0x20)) || (m == 0x21 && f == 0) || (m == 0x24 && decide (f ≤ 1)) ||
  (decide (0x28 ≤ m) && decide (m ≤ 0x2A)) || (m == 0x2B && f != 0) || t.namesBound w
/-- Whether no queued instruction does. -/
def Thread.memoryClear (t : Thread) : Bool := !t.vq.any fun q => t.touchesMemory q.word

/-- Whether a queued word cannot change the vector length (R159). -/
def keepsLength (w : BitVec 32) : Bool :=
  let f := funcOf w
  match majorOf w with
  | 0x28 => f != 0
  | 0x29 => f != 0
  | 0x2A => f == 4 || f == 5
  | 0x2B => f != 3
  | m => m == 0x3E

/-- Whether a word of vector mode computes in floating point, and so may raise an exception (07 R171). -/
def computesFp (w : BitVec 32) : Bool :=
  let f := funcOf w
  match majorOf w with
  | 0x13 => f != 11 && f != 12
  | 0x14 => true
  | 0x15 => decide (8 ≤ f) && decide (f ≤ 13)
  | 0x16 => decide (8 ≤ f)
  | 0x17 => decide (5 ≤ f)
  | 0x19 => f == 3 || f == 4
  | _ => false

/-- Whether an instruction's traps do not depend on the values it is given: vector arithmetic without an enabled exception and without
streams, configuration, timelines and mode changes (log entry 90). -/
def Thread.foreseen (t : Thread) (q : Queued) : Bool :=
  let w := q.word
  let f := funcOf w
  match majorOf w with
  | 0x10 => !q.tile
  | 0x28 => f == 3 || f == 4 || f == 6
  | 0x3E => f == 0
  | m => !q.tile && decide (0x11 ≤ m) && decide (m ≤ 0x19) && (t.ten == 0 || !computesFp w) && !t.namesBound w
/-- Whether they may depend on a scalar register. -/
def readsScalar (w : BitVec 32) : Bool :=
  let f := funcOf w
  match majorOf w with
  | 0x10 => f != 0
  | 0x19 => f == 7 || f == 8
  | 0x28 => f != 3
  | m => m == 0x18

/-! ## The oldest instruction -/

inductive Tried where
  | completed (s : State)
  /-- it trapped or stopped the thread -/
  | left (s : State)
  /-- it waits -/
  | waits (s : State)
  | stop (o : Host.Outcome State Fault Refusal)

/-- Whether a replay's last body word was queued here: the indices overwrite what it writes of their registers (15 R322). -/
def Queued.replayed (q : Queued) (t : Thread) (d : BitVec 5) : Bool :=
  let rps := q.front.rps
  Thread.replaying { t with rps := rps, sup := q.front.sup, tca := q.front.tca } && decide (bits rps 4 0 ≤ bits rps 12 8) &&
  decide (20 ≤ d.toNat) && decide (d.toNat < 20 + bits rps 15 13)

/-- Copies some scalar registers of one file to another. -/
def copyRegs (ds : List (BitVec 5)) (src dst : Vector Word 32) : Vector Word 32 :=
  ds.foldl (fun (v : Vector Word 32) d => v.set d.toNat (src[d.toNat]'d.isLt) d.isLt) dst

/-- Whether a thread has trapped or stopped, from what it was. -/
def Thread.left (t' t : Thread) : Bool := t'.run != .running || t'.tca != t.tca || t'.sup != t.sup
/-- Whether an instruction waits: its thread stands where it stood. -/
def Thread.stays (t' t : Thread) : Bool := t'.pc == t.pc && t'.rps == t.rps && t'.repIx == t.repIx && !t'.left t

/-- The requests a thread's instructions wait for. -/
def State.frontAsked (s : State) (tid : Nat) : List OutReq := s.obs.filter fun o => o.tid == tid && o.cmd.isNone && !o.posted

/-- Tries the oldest instruction, on the front end it found. Requests that are out then are the front end's, unless it makes accesses. -/
noncomputable def State.tryQueued (s : State) : Tried :=
  let t := s.me
  match t.vq with
  | [] => .waits s
  | q :: rest =>
    let f := { q.front with rps := setBits q.front.rps 16 16 0 }
    let own := if t.touchesMemory q.word then [] else s.frontAsked s.tid
    let s0 := { s with obs := s.obs.filter fun o => !own.contains o }
    let t0 := { t.withFront f with vq := [] }
    match (match decodeWord q.tile q.word with
      | .ok i => exec i (s0.setMe t0)
      | .error sub => exec (.illegalInstruction q.word sub) (s0.setMe t0)) with
    | .next s' =>
      let t' := s'.me
      let s' := { s' with obs := own ++ s'.obs }
      let put (ds : List (BitVec 5)) (f : Front) : Front := { f with s := copyRegs ds t'.s f.s, fcs := f.fcs ||| t'.fcs }
      if t'.left t0 then .left ((s'.dropRequests s.tid).setMe { (t'.unmove q) with rps := q.front.rps })
      else if t'.stays t0 then
        .waits (s'.setMe { t'.withFront (put [] t.front) with vq := t.vq.map fun r => { r with front := put [] r.front } })
      else if rest.isEmpty && !t.frontGoes then .completed (s'.setMe t')
      else
        let ds := ((q.instr.map queuedSd).getD []).filter fun d => d != 0 && !q.replayed t d
        let done (ds : List (BitVec 5)) (f : Front) : Front := { put ds f with lastFault := none }
        .completed (s'.setMe { t'.withFront (done (ds.filter fun d => !q.past.contains d) t.front) with
          vq := rest.map fun r => { r with front := done (ds.filter fun d => r.owes.contains d) r.front } })
    | o => .stop o

/-! ## The front end ahead of it -/

/-- The state in which a queued instruction is tried to learn whether it traps: with entries in q0, room in q1, and every lane group its
thread's to take. -/
def State.unheld (s : State) : State :=
  let l := s.myL
  let p := s.pair l
  let mine : BitVec 16 := if s.tid % 2 = 0 then 0x5555 else 0xAAAA
  let p := if s.tid % 2 = 0 then { p with held1 := 0, req := mine } else { p with held0 := 0, req := mine }
  (s.setPair l p).setMe { s.me with q0 := List.replicate 32 0, q1 := [] }

/-- Whether the queued instructions are known not to trap or suspend (R152): each is foreseen, none that may depend on a scalar register comes
after one that is still to write one, and each completes or waits from there on. -/
noncomputable def State.knownFrom (s : State) : Nat → Bool
  | 0 => s.me.vq.isEmpty
  | n + 1 =>
    let t := s.me
    match t.vq with
    | [] => true
    | q :: rest =>
      t.foreseen q && (q.owed.isEmpty || !rest.any fun r => readsScalar r.word) &&
      (match s.unheld.tryQueued with
      | .completed s' => s'.knownFrom n
      | .waits _ => rest.isEmpty || (majorOf q.word != 0x3E && State.knownFrom (s.setMe { t with vq := rest }) n)
      | _ => false)
/-- They are known, with no register byte of the pair failing its parity. -/
noncomputable def State.known (s : State) : Bool :=
  (s.regBad.all fun k => k / 0x400000 != s.physPair s.myL) && s.knownFrom vqSize

/-- Notes in the queue what an instruction of the front end wrote, and moved of the queue registers. -/
def Thread.noteAhead (t t' : Thread) (writes : List (BitVec 5)) : Thread :=
  let gone (a b : List Word) : List Word := a.take (a.length - b.length)
  { t' with vq := t'.vq.map fun q => { q with
      past := q.past ++ writes
      pushed := q.pushed + (t'.q0.length - t.q0.length), popped := q.popped ++ gone t.q1 t'.q1
      poppedE := q.poppedE ++ gone t.fromE t'.fromE, poppedW := q.poppedW ++ gone t.fromW t'.fromW } }

/-- Executes a front-end instruction ahead of the queue. One that would fail does so in its turn: it waits. -/
noncomputable def State.runAhead (s : State) (i : Instr) (u : FrontUse) : Host.Outcome State Fault Refusal :=
  let t := s.me
  match exec i s with
  | .next s' =>
    let t' := s'.me
    let fails : Bool := match i with
      | .trap _ | .brk _ | .tret | .halt => t'.run != .running && t'.run != .stopped
      | .csrw _ _ | .csrs _ _ | .csrc _ _ => t'.run != .running || t'.sup != t.sup || t'.pc != t.pc + 4
      | _ => t'.left t
    if fails then .next s
    else if t'.stays t then .next s'
    else .next (s'.setMe (t.noteAhead t' u.writes))
  | o => o

/-- Whether the end of a replay's pass would overwrite a register still owed to an earlier instruction. -/
noncomputable def Thread.passEnds (t : Thread) : Bool :=
  t.replaying && decide (bits t.rps 4 0 ≤ bits t.rps 12 8) && t.owed.any fun r => decide (20 ≤ r.toNat) && decide (r.toNat < 26)

/-- Whether what a front-end instruction waits for has come about. -/
noncomputable def State.mayGo (s : State) (u : FrontUse) : Bool :=
  let t := s.me
  (u.reads.all fun r => !t.owed.contains r) &&
  (match u.on with
  | .nothing => true
  | .accesses => t.memoryClear
  | .known => s.known
  | .both => t.memoryClear && s.known
  | .lengths => t.vq.all fun q => keepsLength q.word
  | .completion => false)

/-- An instruction that waits enters the vector instruction queue, and the front end goes on; with the queue full it stalls (R151). -/
noncomputable def State.defer (s : State) (w : BitVec 32) : State :=
  let t := s.me
  if vqSize ≤ t.vq.length then s
  else
    let q : Queued := { word := w, tile := t.frontTile, front := t.front, owes := t.owed }
    s.setMe { (if t.replaying then t.advanceReplay else { t with pc := t.pc + 4 }) with vq := t.vq ++ [q] }

/-- The front end's next instruction while the oldest queued one waits. -/
noncomputable def State.frontAhead (s : State) : Host.Outcome State Fault Refusal :=
  let t := s.me
  if t.passEnds || !t.frontGoes then .next s
  else match s.fetch s.tid with
    | (.word w, s) =>
      (match decodeWord t.frontTile w with
      | .error _ => .next s
      | .ok i =>
        if queues w then (if t.replaying && majorOf w == 0x28 && funcOf w == 2 then .next s else .next (s.defer w))
        else
          let u := frontUse i
          if s.mayGo u then s.runAhead i u else .next s)
    | (_, _) => .next s

/-- A move of a thread whose queue holds instructions: the oldest moves, or, while it waits, the front end. -/
noncomputable def State.issueQueued (s : State) : Host.Outcome State Fault Refusal :=
  match s.tryQueued with
  | .completed s => .next s
  | .left s => .next s
  | .waits s => s.frontAhead
  | .stop o => o

/-- An executed word whose instruction waits enters the vector instruction queue, if it is one that does (R151). -/
noncomputable def State.enqueue (s : State) (w : BitVec 32) (o : Host.Outcome State Fault Refusal) : Host.Outcome State Fault Refusal :=
  match o with
  | .next s' => .next (if queues w && s'.me.stays s.me then s'.defer w else s')
  | o => o

/-! ## A front end that a halt has stopped -/

/-- The word of a started operation at a thread whose front end has stopped: one whose requests may not be left, or a vector instruction that a
free choice trims (19 R398; log entry 91). -/
def State.started (s : State) : Bool :=
  let t := s.me
  t.noFetch && Thread.issues { t with noFetch := false } &&
  (s.kept s.tid || (t.cut != 0 && t.vq.isEmpty && (match s.wordAt s.tid with
    | some w => decide (0x10 ≤ w.toNat / 2 ^ 26) && decide (w.toNat / 2 ^ 26 < 0x30)
    | none => false)))

/-- A thread that may not issue lets time pass, but that a started operation goes on to its boundary: an atomic of the front end that is out
takes its reply. -/
noncomputable def State.heldBack (s : State) : Host.Outcome State Fault Refusal :=
  if !s.started then .next s
  else
    let t := s.me
    let o := if !t.vq.isEmpty then (match s.tryQueued with
        | .completed s => .next s
        | .left s => .next s
        | .waits s => if t.memoryClear then s.frontAhead else .next s
        | .stop o => o)
      else match s.fetch s.tid with
        | (.word w, s) => execWord s w
        | (_, _) => .next s
    match o with
    | .next s' =>
      let t' := s'.me
      .next (if t'.pc = t.pc && !t'.left t then s' else s'.setMe { t' with cut := 0 })
    | o => o

end Sys2Proof.Machine
end

