-- ==== Sys2Proof/Machine/Cores.lean ====
section
/-! DEFINITION. The application cores' scalar instructions (20 R410; 01 R30, R36) and the moves of boot and owner code. A core names
system-physical addresses. Which instruction a core executes next is the schedule's choice (log entry 92). -/

namespace Sys2Proof.Machine

def State.core (s : State) (c : Nat) : Core := mapGet Core.reset s.cores c
def State.setCore (s : State) (c : Nat) (x : Core) : State := { s with cores := mapPut c x s.cores }

def Core.sreg (x : Core) (n : BitVec 5) : Word := if n = 0 then 0 else x.s[n.toNat]'n.isLt
def Core.setS (x : Core) (n : BitVec 5) (v : Word) : Core := if n = 0 then x else { x with s := x.s.set n.toNat v n.isLt }
/-- The next instruction. -/
def Core.retire (x : Core) : Core := { x with pc := x.pc + 4 }

/-- A memory access of a core's instruction. -/
inductive CoreAcc where
  | load (d : BitVec 5) (addr : Word) (n : Nat) (signed : Bool)
  | store (addr : Word) (n : Nat) (v : Word)
  | amo (d : BitVec 5) (addr : Word) (n : Nat) (op : AtomicOp) (v : Word)
  | cas (d : BitVec 5) (addr : Word) (cmp new : Word)
  deriving DecidableEq, Repr

/-- What a core does with an instruction: a memory access, an operation on its registers, a read of a register that level 1 does not give it,
a TLB invalidation, a step past a fence, a hint or a write of such a register, an exception, or nothing, where no word encodes it (R410; log
entry 92). -/
inductive CoreUse where
  | access (a : CoreAcc)
  | regs
  | free (d : BitVec 5)
  | tlbi | pass | exception | none
  deriving DecidableEq, Repr

/-- The access of an atomic instruction. -/
def Core.amoUse (x : Core) (op : AtomicOp) (d n m : BitVec 5) (w : BitVec 1) : CoreUse :=
  .access (.amo d (x.sreg n) (if w = 1 then 4 else 8) op (x.sreg m))

def Core.use (x : Core) (i : Instr) : CoreUse :=
  match i with
  | .ldB d n o => .access (.load d (x.sreg n + imm o) 1 true)
  | .ldBu d n o => .access (.load d (x.sreg n + imm o) 1 false)
  | .ldH d n o => .access (.load d (x.sreg n + imm o) 2 true)
  | .ldHu d n o => .access (.load d (x.sreg n + imm o) 2 false)
  | .ldW d n o => .access (.load d (x.sreg n + imm o) 4 true)
  | .ldWu d n o => .access (.load d (x.sreg n + imm o) 4 false)
  | .ldD d n o => .access (.load d (x.sreg n + imm o) 8 false)
  | .ldOrdered d n w _ _ => .access (.load d (x.sreg n) (widthBytes w) (widthSigned w))
  | .stB d n o => .access (.store (x.sreg n + imm o) 1 (x.sreg d))
  | .stH d n o => .access (.store (x.sreg n + imm o) 2 (x.sreg d))
  | .stW d n o => .access (.store (x.sreg n + imm o) 4 (x.sreg d))
  | .stD d n o => .access (.store (x.sreg n + imm o) 8 (x.sreg d))
  | .stOrdered n m w _ _ => .access (.store (x.sreg n) (widthBytes w) (x.sreg m))
  | .amoadd d n m w _ _ => x.amoUse .add d n m w
  | .amoand d n m w _ _ => x.amoUse .and d n m w
  | .amoor d n m w _ _ => x.amoUse .or d n m w
  | .amoxor d n m w _ _ => x.amoUse .xor d n m w
  | .amoswap d n m w _ _ => x.amoUse .swap d n m w
  | .amomin d n m w _ _ => x.amoUse .min d n m w
  | .amomax d n m w _ _ => x.amoUse .max d n m w
  | .amominu d n m w _ _ => x.amoUse .minu d n m w
  | .amomaxu d n m w _ _ => x.amoUse .maxu d n m w
  | .cas d n m a _ _ _ => .access (.cas d (x.sreg a) (x.sreg n) (x.sreg m))
  | .tlbiGpa _ _ | .tlbiPart _ => .tlbi
  | .fence _ _ | .lsync | .ifence | .wait _ | .nop _ => .pass
  | .csrr d r => if r = 0x00C then .regs else .free d
  | .csrw _ r | .csrs _ r | .csrc _ r => if r = 0x00C then .regs else .pass
  | .vloop _ _ => .regs
  | i =>
    if isEvent i then .none
    else match i with
      | .trap _ | .brk _ | .tret => .exception
      | i => if (frontUse i).on = .nothing then .regs else .exception

def CoreAcc.addr : CoreAcc → Nat
  | .load _ a _ _ => a.toNat
  | .store a _ _ => a.toNat
  | .amo _ a _ _ _ => a.toNat
  | .cas _ a _ _ => a.toNat
def CoreAcc.size : CoreAcc → Nat
  | .load _ _ n _ => n
  | .store _ n _ => n
  | .amo _ _ n _ _ => n
  | .cas _ _ _ _ => 8
/-- The request an access makes. -/
def CoreAcc.req : CoreAcc → InReq
  | .load _ _ n _ => .read n
  | .store _ n v => .write (leBytes n v.toNat) false
  | .amo _ _ n op v => .atomic op (n == 8) v
  | .cas _ _ c w => .cas true c w
/-- The register an access writes, from the bytes it read. -/
def CoreAcc.into (a : CoreAcc) (x : Core) (bs : List Byte) : Core :=
  match a with
  | .load d _ n signed => x.setS d (extend signed n bs)
  | .store _ _ _ => x
  | .amo d _ n _ _ => x.setS d (extend true n bs)
  | .cas d _ _ _ => x.setS d (extend true 8 bs)

/-- A core's exception, or its return from one: level 1 gives neither an address, so the program counter is free, a word's (R410; 08 R182;
log entry 92). -/
def State.coreTrap (s : State) (c : Nat) (x : Core) : State :=
  let f := s.fresh
  f.2.setCore c { x with pc := Config.freeWord f.1 &&& ~~~3 }

/-- Completes an access with the bytes it read. -/
def State.coreDone (s : State) (c : Nat) (a : CoreAcc) (bs : List Byte) : State := s.setCore c (a.into (s.core c) bs).retire

/-- The request of a core's access that is out, if one is. -/
def State.coreAsked (s : State) (c : Nat) : Option OutReq := (s.asked (coreAgent c) none).head?

/-- An access outside the module: a store is handed to its port, and one to a peer that no route reaches is dropped and logged; any other
access asks and waits for its reply, a refusal or its loss being an exception (01 R33; 20 R409). -/
def State.coreOut (s : State) (c : Nat) (a : CoreAcc) : State :=
  match a with
  | .store _ n v => (s.writeFor (coreAgent c) a.addr (leBytes n v.toNat)).coreDone c a []
  | a =>
    match s.coreAsked c with
    | none =>
      let dest := s.wire a.addr
      s.sendAs (coreAgent c) a.addr a.size false fun k => match a with
        | .amo _ _ n op v => .atomic (coreAgent c) k dest op (n == 8) v
        | .cas _ _ cmp new => .cas (coreAgent c) k dest cmp new
        | a => .request (coreAgent c) k dest a.size
    | some q =>
      let u := s.dropRequests (coreAgent c)
      match q.reply with
      | .none => s
      | .refused => u.coreTrap c (s.core c)
      | .data bs => u.coreDone c a bs

/-- The completion an access has just been given, as the bytes it read. -/
def State.coreTake (s : State) (c : Nat) (a : CoreAcc) : State :=
  match s.out with
  | .completion _ bs :: rest => { s with out := rest }.coreDone c a bs
  | _ => s.coreDone c a []

/-- A core's access at a system-physical address (01 R30): one to a hole takes a bus-error exception (R36); one to a page in motion or behind a
scoreboard entry waits (05 R146; 03 R94). -/
def State.coreAccess (s : State) (c : Nat) (a : CoreAcc) : State :=
  let addr := a.addr
  if addr % a.size ≠ 0 then s.coreTrap c (s.core c)
  else if 2 ^ 52 ≤ addr then { s with out := .busError c addr :: s.out }.coreTrap c (s.core c)
  else match s.region addr with
    | .hole => { s with out := .busError c addr :: s.out }.coreTrap c (s.core c)
    | .ctl off =>
      if isWindow off then (if reqWrites a.req then s.rqDrop else s).coreDone c a (List.replicate a.size 0)
      else (match a with
        | .store _ n v => (s.apWrite s.owner.toNat off (leBytes n v.toNat)).coreDone c a []
        | a => (s.apPerform s.owner.toNat off a.req).coreTake c a)
    | .hbm | .pool _ | .scratch _ =>
      (match s.inPerform addr a.req true with
      | some s => s.coreTake c a
      | none => s)
    | .peer _ _ | .hostPort _ | .rootPort _ => s.coreOut c a

/-- Executes a register instruction of a core as the scalar front end does, in the place of a thread that is put back. -/
noncomputable def State.coreRegs (s0 : State) (c : Nat) (i : Instr) : State :=
  let x := s0.core c
  -- a core has no vector length: vloop finds a free one
  let f := s0.fresh
  let s := if (match i with
    | .vloop _ _ => true
    | _ => false) then f.2 else s0
  let t : Thread := { Thread.reset with
    run := .running, sup := true, s := x.s, pc := x.pc, fcs := x.fcs, vl := w64 ((Config.freeWord f.1).toNat % 2 ^ 21) }
  match exec i (s.setMe t) with
  | .next s' =>
    let t' := s'.me
    if t'.left t then s.coreTrap c x else { s' with threads := s.threads }.setCore c ⟨t'.s, t'.pc, t'.fcs⟩
  | _ => s

/-- Whether an owner scope of tlbi waits for the partition it names (02 R64). -/
def State.tlbiWaits (s : State) (i : Instr) (r : Vector Word 32) : Bool :=
  let held (m : BitVec 5) : Bool :=
    let part := bits (coreReg r m) 5 0
    match s.drain fun p => !p.isSignal && (s.pair (pairOf p.tid)).part == some part with
    | none => true
    | some s => s.asking part
  match i with
  | .tlbiGpa _ m => held m
  | .tlbiPart m => held m
  | _ => false

/-- Whether a core waits for the reply to an access and is given another instruction. -/
def State.coreBusy (s : State) (c : Nat) (u : CoreUse) : Bool :=
  (s.coreAsked c).any fun q => match u with
    | .access a => a.addr != q.addr
    | _ => true

/-- An application core executes an instruction; it runs stage 2 and the owner code that stage 2 loads, and nothing else (R410, R411). -/
noncomputable def coreMove (s : State) (c : Nat) (i : Instr) : Host.Outcome State Fault Refusal :=
  let x := s.core c
  if (s.bootPhase ≠ 2 ∧ s.bootPhase ≠ 3) || s.coreBusy c (x.use i) then .next s
  else match x.use i with
    | .access a => .next (s.coreAccess c a)
    | .regs => .next (s.coreRegs c i)
    | .free d =>
      let f := s.fresh
      .next (f.2.setCore c (x.setS d (Config.freeWord f.1)).retire)
    | .pass => .next (s.setCore c x.retire)
    | .exception => .next (s.coreTrap c x)
    | .none => .next s
    | .tlbi =>
      if s.tlbiWaits i x.s then .next s
      else match exec i { s with app := some x.s } with
      | .next s => .next ({ s with app := none }.setCore c (s.core c).retire)
      | o => o

/-- Owner code raises an MSI-X vector of a host port (R407). -/
def State.msix (s : State) (port vector : Nat) : State :=
  if s.bootPhase ≠ 2 ∧ s.bootPhase ≠ 3 then s else { s with out := .msix port vector :: s.out }

end Sys2Proof.Machine
end

