-- ==== Sys2Proof/Machine/Step.lean ====
section
/-! DEFINITION. One step of the module, and the placing of an instruction where the next step fetches it (log entries 2 and 10). -/

namespace Sys2Proof.Machine

/-- The moving thread executes the oldest instruction of its vector queue and, while that waits, its front end goes on; with the queue empty
it fetches and executes one word, which enters the queue if it waits. A thread that may not issue lets time pass. -/
noncomputable def issue (s : State) : Host.Outcome State Fault Refusal :=
  if !s.me.issues then s.heldBack
  else if !s.me.vq.isEmpty then s.issueQueued
  else match s.fetch s.tid with
    | (.word w, s) => s.enqueue w (execWord s w)
    | (.fail f, s) => .next (s.fetchFault f)
    | (.wait, s) => .next s

/-- One step: the next move of the agenda, or, when it is empty, the current thread's next instruction. -/
noncomputable def step (s : State) : Host.Outcome State Fault Refusal :=
  match s.agenda with
  | [] => issue s
  | .issue tid :: rest => issue { s with agenda := rest, cur := tid }
  | .event i :: rest => if isEvent i then exec i { s with agenda := rest } else .next { s with agenda := rest }
  | .core c i :: rest => coreMove { s with agenda := rest } c.toNat i
  | .boot :: rest => .next (State.bootNext { s with agenda := rest })
  | .msix port v :: rest => .next (State.msix { s with agenda := rest } port.toNat v.toNat)
  | .inbound :: rest => .next (State.arrive { s with agenda := rest })

/-- Page tables that map the 1 GiB page of a program counter to the first GiB of HBM, in both stages, at a base address: the second stage
at base, the first at base + 0x3000. -/
def State.mapGiB (s : State) (base pc : Nat) : State :=
  let table (a : Nat) : Nat := a + 1
  let leaf : Nat := 0x7F
  let put (s : State) (t level addr v : Nat) : State := s.putWord (t + levelIndex addr level * 8) (w64 v)
  let s := put s base 4 0 (table (base + 0x1000))
  let s := put s (base + 0x1000) 3 0 (table (base + 0x2000))
  let s := put s (base + 0x2000) 2 0 leaf
  let s := put s (base + 0x3000) 4 pc (table (base + 0x4000))
  let s := put s (base + 0x4000) 3 pc (table (base + 0x5000))
  put s (base + 0x5000) 2 pc leaf

/-- A partition of pair 0 alone, whose thread 0 runs with its program counter mapped and a word there. -/
noncomputable def State.withFetchWord (s : State) (_nbits w : Nat) : State :=
  let t := s.th 0
  let pc := t.pc.toNat % 2 ^ 57
  let off := pc % 2 ^ 30
  let base := if off < 2 ^ 29 then 2 ^ 29 else 0x10000
  let tile := !decodesInVector (BitVec.ofNat 32 w)
  let s := { s with agenda := [], cur := 0, app := none, tlb := [], tlb1 := [], wcache := [] }
  let s := (s.mapGiB base pc).putBytes off (leBytes 4 w)
  let s := s.setPair 0 { s.pair 0 with part := some 0, idx := 0 }
  let s := s.setPart 0 { s.part 0 with
    mode := .active, pairs := 1, s2root := w64 base, gplim := w64 (2 ^ 52) }
  s.setTh 0 { (t.setTmd tile) with
    run := .running, toPost := [], ceHalted := false, waiting := false, noFetch := false, vq := [], leave := tile, atb := w64 (base + 0x3000) }

end Sys2Proof.Machine
end

