-- ==== Sys2Proof/Laws/State.lean ====
section
/-! SUPPORT. What each named update of the state and of a thread leaves and sets, one lemma for a field. -/

namespace Sys2Proof.Machine

/-! ## State.setTh -/

@[simp] theorem State.setTh_agenda (s : State) (n : Nat) (t : Thread) : (s.setTh n t).agenda = s.agenda := rfl
@[simp] theorem State.setTh_cur (s : State) (n : Nat) (t : Thread) : (s.setTh n t).cur = s.cur := rfl
@[simp] theorem State.setTh_app (s : State) (n : Nat) (t : Thread) : (s.setTh n t).app = s.app := rfl
@[simp] theorem State.setTh_freeCtr (s : State) (n : Nat) (t : Thread) : (s.setTh n t).freeCtr = s.freeCtr := rfl
@[simp] theorem State.setTh_wseq (s : State) (n : Nat) (t : Thread) : (s.setTh n t).wseq = s.wseq := rfl
@[simp] theorem State.setTh_mem (s : State) (n : Nat) (t : Thread) : (s.setTh n t).mem = s.mem := rfl
@[simp] theorem State.setTh_memLost (s : State) (n : Nat) (t : Thread) : (s.setTh n t).memLost = s.memLost := rfl
@[simp] theorem State.setTh_regs (s : State) (n : Nat) (t : Thread) : (s.setTh n t).regs = s.regs := rfl
@[simp] theorem State.setTh_regBad (s : State) (n : Nat) (t : Thread) : (s.setTh n t).regBad = s.regBad := rfl
@[simp] theorem State.setTh_ctl (s : State) (n : Nat) (t : Thread) : (s.setTh n t).ctl = s.ctl := rfl
@[simp] theorem State.setTh_threads (s : State) (n : Nat) (t : Thread) : (s.setTh n t).threads = mapPut n t s.threads := rfl
@[simp] theorem State.setTh_pairs (s : State) (n : Nat) (t : Thread) : (s.setTh n t).pairs = s.pairs := rfl
@[simp] theorem State.setTh_parts (s : State) (n : Nat) (t : Thread) : (s.setTh n t).parts = s.parts := rfl
@[simp] theorem State.setTh_dies (s : State) (n : Nat) (t : Thread) : (s.setTh n t).dies = s.dies := rfl
@[simp] theorem State.setTh_tlb (s : State) (n : Nat) (t : Thread) : (s.setTh n t).tlb = s.tlb := rfl
@[simp] theorem State.setTh_tlb1 (s : State) (n : Nat) (t : Thread) : (s.setTh n t).tlb1 = s.tlb1 := rfl
@[simp] theorem State.setTh_wcache (s : State) (n : Nat) (t : Thread) : (s.setTh n t).wcache = s.wcache := rfl
@[simp] theorem State.setTh_pend (s : State) (n : Nat) (t : Thread) : (s.setTh n t).pend = s.pend := rfl
@[simp] theorem State.setTh_cmds (s : State) (n : Nat) (t : Thread) : (s.setTh n t).cmds = s.cmds := rfl
@[simp] theorem State.setTh_obs (s : State) (n : Nat) (t : Thread) : (s.setTh n t).obs = s.obs := rfl
@[simp] theorem State.setTh_out (s : State) (n : Nat) (t : Thread) : (s.setTh n t).out = s.out := rfl
@[simp] theorem State.setTh_filt (s : State) (n : Nat) (t : Thread) : (s.setTh n t).filt = s.filt := rfl
@[simp] theorem State.setTh_ptb (s : State) (n : Nat) (t : Thread) : (s.setTh n t).ptb = s.ptb := rfl
@[simp] theorem State.setTh_pcmdCmd (s : State) (n : Nat) (t : Thread) : (s.setTh n t).pcmdCmd = s.pcmdCmd := rfl
@[simp] theorem State.setTh_pcmdPart (s : State) (n : Nat) (t : Thread) : (s.setTh n t).pcmdPart = s.pcmdPart := rfl
@[simp] theorem State.setTh_pcmdRes (s : State) (n : Nat) (t : Thread) : (s.setTh n t).pcmdRes = s.pcmdRes := rfl
@[simp] theorem State.setTh_pcmdJob (s : State) (n : Nat) (t : Thread) : (s.setTh n t).pcmdJob = s.pcmdJob := rfl
@[simp] theorem State.setTh_devn (s : State) (n : Nat) (t : Thread) : (s.setTh n t).devn = s.devn := rfl
@[simp] theorem State.setTh_ofq (s : State) (n : Nat) (t : Thread) : (s.setTh n t).ofq = s.ofq := rfl
@[simp] theorem State.setTh_ownerFq (s : State) (n : Nat) (t : Thread) : (s.setTh n t).ownerFq = s.ownerFq := rfl
@[simp] theorem State.setTh_rqport (s : State) (n : Nat) (t : Thread) : (s.setTh n t).rqport = s.rqport := rfl
@[simp] theorem State.setTh_rqdrop (s : State) (n : Nat) (t : Thread) : (s.setTh n t).rqdrop = s.rqdrop := rfl
@[simp] theorem State.setTh_elig (s : State) (n : Nat) (t : Thread) : (s.setTh n t).elig = s.elig := rfl
@[simp] theorem State.setTh_owState (s : State) (n : Nat) (t : Thread) : (s.setTh n t).owState = s.owState := rfl
@[simp] theorem State.setTh_owner (s : State) (n : Nat) (t : Thread) : (s.setTh n t).owner = s.owner := rfl
@[simp] theorem State.setTh_offerTgt (s : State) (n : Nat) (t : Thread) : (s.setTh n t).offerTgt = s.offerTgt := rfl
@[simp] theorem State.setTh_acceptWait (s : State) (n : Nat) (t : Thread) : (s.setTh n t).acceptWait = s.acceptWait := rfl
@[simp] theorem State.setTh_pathFail (s : State) (n : Nat) (t : Thread) : (s.setTh n t).pathFail = s.pathFail := rfl
@[simp] theorem State.setTh_dllUp (s : State) (n : Nat) (t : Thread) : (s.setTh n t).dllUp = s.dllUp := rfl
@[simp] theorem State.setTh_oclm (s : State) (n : Nat) (t : Thread) : (s.setTh n t).oclm = s.oclm := rfl
@[simp] theorem State.setTh_bootErr (s : State) (n : Nat) (t : Thread) : (s.setTh n t).bootErr = s.bootErr := rfl
@[simp] theorem State.setTh_bootCopy (s : State) (n : Nat) (t : Thread) : (s.setTh n t).bootCopy = s.bootCopy := rfl
@[simp] theorem State.setTh_bootPhase (s : State) (n : Nat) (t : Thread) : (s.setTh n t).bootPhase = s.bootPhase := rfl
@[simp] theorem State.setTh_failedStage (s : State) (n : Nat) (t : Thread) : (s.setTh n t).failedStage = s.failedStage := rfl
@[simp] theorem State.setTh_rgo (s : State) (n : Nat) (t : Thread) : (s.setTh n t).rgo = s.rgo := rfl
@[simp] theorem State.setTh_svn1 (s : State) (n : Nat) (t : Thread) : (s.setTh n t).svn1 = s.svn1 := rfl
@[simp] theorem State.setTh_svn2 (s : State) (n : Nat) (t : Thread) : (s.setTh n t).svn2 = s.svn2 := rfl
@[simp] theorem State.setTh_meas (s : State) (n : Nat) (t : Thread) : (s.setTh n t).meas = s.meas := rfl
@[simp] theorem State.setTh_flash (s : State) (n : Nat) (t : Thread) : (s.setTh n t).flash = s.flash := rfl
@[simp] theorem State.setTh_elog (s : State) (n : Nat) (t : Thread) : (s.setTh n t).elog = s.elog := rfl
@[simp] theorem State.setTh_elogt (s : State) (n : Nat) (t : Thread) : (s.setTh n t).elogt = s.elogt := rfl
@[simp] theorem State.setTh_mgport (s : State) (n : Nat) (t : Thread) : (s.setTh n t).mgport = s.mgport := rfl
@[simp] theorem State.setTh_rpa (s : State) (n : Nat) (t : Thread) : (s.setTh n t).rpa = s.rpa := rfl
@[simp] theorem State.setTh_linkUp (s : State) (n : Nat) (t : Thread) : (s.setTh n t).linkUp = s.linkUp := rfl
@[simp] theorem State.setTh_atctl (s : State) (n : Nat) (t : Thread) : (s.setTh n t).atctl = s.atctl := rfl
@[simp] theorem State.setTh_report (s : State) (n : Nat) (t : Thread) : (s.setTh n t).report = s.report := rfl
@[simp] theorem State.setTh_mig (s : State) (n : Nat) (t : Thread) : (s.setTh n t).mig = s.mig := rfl
@[simp] theorem State.setTh_ce (s : State) (n : Nat) (t : Thread) : (s.setTh n t).ce = s.ce := rfl
@[simp] theorem State.setTh_overPower (s : State) (n : Nat) (t : Thread) : (s.setTh n t).overPower = s.overPower := rfl
@[simp] theorem State.setTh_spares (s : State) (n : Nat) (t : Thread) : (s.setTh n t).spares = s.spares := rfl
@[simp] theorem State.setTh_frames (s : State) (n : Nat) (t : Thread) : (s.setTh n t).frames = s.frames := rfl
@[simp] theorem State.setTh_frags (s : State) (n : Nat) (t : Thread) : (s.setTh n t).frags = s.frags := rfl
@[simp] theorem State.setTh_inq (s : State) (n : Nat) (t : Thread) : (s.setTh n t).inq = s.inq := rfl
@[simp] theorem State.setTh_ownerWait (s : State) (n : Nat) (t : Thread) : (s.setTh n t).ownerWait = s.ownerWait := rfl
@[simp] theorem State.setTh_cores (s : State) (n : Nat) (t : Thread) : (s.setTh n t).cores = s.cores := rfl

/-! ## State.setMe -/

@[simp] theorem State.setMe_agenda (s : State) (t : Thread) : (s.setMe t).agenda = s.agenda := rfl
@[simp] theorem State.setMe_cur (s : State) (t : Thread) : (s.setMe t).cur = s.cur := rfl
@[simp] theorem State.setMe_app (s : State) (t : Thread) : (s.setMe t).app = s.app := rfl
@[simp] theorem State.setMe_freeCtr (s : State) (t : Thread) : (s.setMe t).freeCtr = s.freeCtr := rfl
@[simp] theorem State.setMe_wseq (s : State) (t : Thread) : (s.setMe t).wseq = s.wseq := rfl
@[simp] theorem State.setMe_mem (s : State) (t : Thread) : (s.setMe t).mem = s.mem := rfl
@[simp] theorem State.setMe_memLost (s : State) (t : Thread) : (s.setMe t).memLost = s.memLost := rfl
@[simp] theorem State.setMe_regs (s : State) (t : Thread) : (s.setMe t).regs = s.regs := rfl
@[simp] theorem State.setMe_regBad (s : State) (t : Thread) : (s.setMe t).regBad = s.regBad := rfl
@[simp] theorem State.setMe_ctl (s : State) (t : Thread) : (s.setMe t).ctl = s.ctl := rfl
@[simp] theorem State.setMe_threads (s : State) (t : Thread) : (s.setMe t).threads = mapPut s.tid t s.threads := rfl
@[simp] theorem State.setMe_pairs (s : State) (t : Thread) : (s.setMe t).pairs = s.pairs := rfl
@[simp] theorem State.setMe_parts (s : State) (t : Thread) : (s.setMe t).parts = s.parts := rfl
@[simp] theorem State.setMe_dies (s : State) (t : Thread) : (s.setMe t).dies = s.dies := rfl
@[simp] theorem State.setMe_tlb (s : State) (t : Thread) : (s.setMe t).tlb = s.tlb := rfl
@[simp] theorem State.setMe_tlb1 (s : State) (t : Thread) : (s.setMe t).tlb1 = s.tlb1 := rfl
@[simp] theorem State.setMe_wcache (s : State) (t : Thread) : (s.setMe t).wcache = s.wcache := rfl
@[simp] theorem State.setMe_pend (s : State) (t : Thread) : (s.setMe t).pend = s.pend := rfl
@[simp] theorem State.setMe_cmds (s : State) (t : Thread) : (s.setMe t).cmds = s.cmds := rfl
@[simp] theorem State.setMe_obs (s : State) (t : Thread) : (s.setMe t).obs = s.obs := rfl
@[simp] theorem State.setMe_out (s : State) (t : Thread) : (s.setMe t).out = s.out := rfl
@[simp] theorem State.setMe_filt (s : State) (t : Thread) : (s.setMe t).filt = s.filt := rfl
@[simp] theorem State.setMe_ptb (s : State) (t : Thread) : (s.setMe t).ptb = s.ptb := rfl
@[simp] theorem State.setMe_pcmdCmd (s : State) (t : Thread) : (s.setMe t).pcmdCmd = s.pcmdCmd := rfl
@[simp] theorem State.setMe_pcmdPart (s : State) (t : Thread) : (s.setMe t).pcmdPart = s.pcmdPart := rfl
@[simp] theorem State.setMe_pcmdRes (s : State) (t : Thread) : (s.setMe t).pcmdRes = s.pcmdRes := rfl
@[simp] theorem State.setMe_pcmdJob (s : State) (t : Thread) : (s.setMe t).pcmdJob = s.pcmdJob := rfl
@[simp] theorem State.setMe_devn (s : State) (t : Thread) : (s.setMe t).devn = s.devn := rfl
@[simp] theorem State.setMe_ofq (s : State) (t : Thread) : (s.setMe t).ofq = s.ofq := rfl
@[simp] theorem State.setMe_ownerFq (s : State) (t : Thread) : (s.setMe t).ownerFq = s.ownerFq := rfl
@[simp] theorem State.setMe_rqport (s : State) (t : Thread) : (s.setMe t).rqport = s.rqport := rfl
@[simp] theorem State.setMe_rqdrop (s : State) (t : Thread) : (s.setMe t).rqdrop = s.rqdrop := rfl
@[simp] theorem State.setMe_elig (s : State) (t : Thread) : (s.setMe t).elig = s.elig := rfl
@[simp] theorem State.setMe_owState (s : State) (t : Thread) : (s.setMe t).owState = s.owState := rfl
@[simp] theorem State.setMe_owner (s : State) (t : Thread) : (s.setMe t).owner = s.owner := rfl
@[simp] theorem State.setMe_offerTgt (s : State) (t : Thread) : (s.setMe t).offerTgt = s.offerTgt := rfl
@[simp] theorem State.setMe_acceptWait (s : State) (t : Thread) : (s.setMe t).acceptWait = s.acceptWait := rfl
@[simp] theorem State.setMe_pathFail (s : State) (t : Thread) : (s.setMe t).pathFail = s.pathFail := rfl
@[simp] theorem State.setMe_dllUp (s : State) (t : Thread) : (s.setMe t).dllUp = s.dllUp := rfl
@[simp] theorem State.setMe_oclm (s : State) (t : Thread) : (s.setMe t).oclm = s.oclm := rfl
@[simp] theorem State.setMe_bootErr (s : State) (t : Thread) : (s.setMe t).bootErr = s.bootErr := rfl
@[simp] theorem State.setMe_bootCopy (s : State) (t : Thread) : (s.setMe t).bootCopy = s.bootCopy := rfl
@[simp] theorem State.setMe_bootPhase (s : State) (t : Thread) : (s.setMe t).bootPhase = s.bootPhase := rfl
@[simp] theorem State.setMe_failedStage (s : State) (t : Thread) : (s.setMe t).failedStage = s.failedStage := rfl
@[simp] theorem State.setMe_rgo (s : State) (t : Thread) : (s.setMe t).rgo = s.rgo := rfl
@[simp] theorem State.setMe_svn1 (s : State) (t : Thread) : (s.setMe t).svn1 = s.svn1 := rfl
@[simp] theorem State.setMe_svn2 (s : State) (t : Thread) : (s.setMe t).svn2 = s.svn2 := rfl
@[simp] theorem State.setMe_meas (s : State) (t : Thread) : (s.setMe t).meas = s.meas := rfl
@[simp] theorem State.setMe_flash (s : State) (t : Thread) : (s.setMe t).flash = s.flash := rfl
@[simp] theorem State.setMe_elog (s : State) (t : Thread) : (s.setMe t).elog = s.elog := rfl
@[simp] theorem State.setMe_elogt (s : State) (t : Thread) : (s.setMe t).elogt = s.elogt := rfl
@[simp] theorem State.setMe_mgport (s : State) (t : Thread) : (s.setMe t).mgport = s.mgport := rfl
@[simp] theorem State.setMe_rpa (s : State) (t : Thread) : (s.setMe t).rpa = s.rpa := rfl
@[simp] theorem State.setMe_linkUp (s : State) (t : Thread) : (s.setMe t).linkUp = s.linkUp := rfl
@[simp] theorem State.setMe_atctl (s : State) (t : Thread) : (s.setMe t).atctl = s.atctl := rfl
@[simp] theorem State.setMe_report (s : State) (t : Thread) : (s.setMe t).report = s.report := rfl
@[simp] theorem State.setMe_mig (s : State) (t : Thread) : (s.setMe t).mig = s.mig := rfl
@[simp] theorem State.setMe_ce (s : State) (t : Thread) : (s.setMe t).ce = s.ce := rfl
@[simp] theorem State.setMe_overPower (s : State) (t : Thread) : (s.setMe t).overPower = s.overPower := rfl
@[simp] theorem State.setMe_spares (s : State) (t : Thread) : (s.setMe t).spares = s.spares := rfl
@[simp] theorem State.setMe_frames (s : State) (t : Thread) : (s.setMe t).frames = s.frames := rfl
@[simp] theorem State.setMe_frags (s : State) (t : Thread) : (s.setMe t).frags = s.frags := rfl
@[simp] theorem State.setMe_inq (s : State) (t : Thread) : (s.setMe t).inq = s.inq := rfl
@[simp] theorem State.setMe_ownerWait (s : State) (t : Thread) : (s.setMe t).ownerWait = s.ownerWait := rfl
@[simp] theorem State.setMe_cores (s : State) (t : Thread) : (s.setMe t).cores = s.cores := rfl

/-! ## State.setPair -/

@[simp] theorem State.setPair_agenda (s : State) (n : Nat) (p : Pair) : (s.setPair n p).agenda = s.agenda := rfl
@[simp] theorem State.setPair_cur (s : State) (n : Nat) (p : Pair) : (s.setPair n p).cur = s.cur := rfl
@[simp] theorem State.setPair_app (s : State) (n : Nat) (p : Pair) : (s.setPair n p).app = s.app := rfl
@[simp] theorem State.setPair_freeCtr (s : State) (n : Nat) (p : Pair) : (s.setPair n p).freeCtr = s.freeCtr := rfl
@[simp] theorem State.setPair_wseq (s : State) (n : Nat) (p : Pair) : (s.setPair n p).wseq = s.wseq := rfl
@[simp] theorem State.setPair_mem (s : State) (n : Nat) (p : Pair) : (s.setPair n p).mem = s.mem := rfl
@[simp] theorem State.setPair_memLost (s : State) (n : Nat) (p : Pair) : (s.setPair n p).memLost = s.memLost := rfl
@[simp] theorem State.setPair_regs (s : State) (n : Nat) (p : Pair) : (s.setPair n p).regs = s.regs := rfl
@[simp] theorem State.setPair_regBad (s : State) (n : Nat) (p : Pair) : (s.setPair n p).regBad = s.regBad := rfl
@[simp] theorem State.setPair_ctl (s : State) (n : Nat) (p : Pair) : (s.setPair n p).ctl = s.ctl := rfl
@[simp] theorem State.setPair_threads (s : State) (n : Nat) (p : Pair) : (s.setPair n p).threads = s.threads := rfl
@[simp] theorem State.setPair_pairs (s : State) (n : Nat) (p : Pair) : (s.setPair n p).pairs = mapPut n p s.pairs := rfl
@[simp] theorem State.setPair_parts (s : State) (n : Nat) (p : Pair) : (s.setPair n p).parts = s.parts := rfl
@[simp] theorem State.setPair_dies (s : State) (n : Nat) (p : Pair) : (s.setPair n p).dies = s.dies := rfl
@[simp] theorem State.setPair_tlb (s : State) (n : Nat) (p : Pair) : (s.setPair n p).tlb = s.tlb := rfl
@[simp] theorem State.setPair_tlb1 (s : State) (n : Nat) (p : Pair) : (s.setPair n p).tlb1 = s.tlb1 := rfl
@[simp] theorem State.setPair_wcache (s : State) (n : Nat) (p : Pair) : (s.setPair n p).wcache = s.wcache := rfl
@[simp] theorem State.setPair_pend (s : State) (n : Nat) (p : Pair) : (s.setPair n p).pend = s.pend := rfl
@[simp] theorem State.setPair_cmds (s : State) (n : Nat) (p : Pair) : (s.setPair n p).cmds = s.cmds := rfl
@[simp] theorem State.setPair_obs (s : State) (n : Nat) (p : Pair) : (s.setPair n p).obs = s.obs := rfl
@[simp] theorem State.setPair_out (s : State) (n : Nat) (p : Pair) : (s.setPair n p).out = s.out := rfl
@[simp] theorem State.setPair_filt (s : State) (n : Nat) (p : Pair) : (s.setPair n p).filt = s.filt := rfl
@[simp] theorem State.setPair_ptb (s : State) (n : Nat) (p : Pair) : (s.setPair n p).ptb = s.ptb := rfl
@[simp] theorem State.setPair_pcmdCmd (s : State) (n : Nat) (p : Pair) : (s.setPair n p).pcmdCmd = s.pcmdCmd := rfl
@[simp] theorem State.setPair_pcmdPart (s : State) (n : Nat) (p : Pair) : (s.setPair n p).pcmdPart = s.pcmdPart := rfl
@[simp] theorem State.setPair_pcmdRes (s : State) (n : Nat) (p : Pair) : (s.setPair n p).pcmdRes = s.pcmdRes := rfl
@[simp] theorem State.setPair_pcmdJob (s : State) (n : Nat) (p : Pair) : (s.setPair n p).pcmdJob = s.pcmdJob := rfl
@[simp] theorem State.setPair_devn (s : State) (n : Nat) (p : Pair) : (s.setPair n p).devn = s.devn := rfl
@[simp] theorem State.setPair_ofq (s : State) (n : Nat) (p : Pair) : (s.setPair n p).ofq = s.ofq := rfl
@[simp] theorem State.setPair_ownerFq (s : State) (n : Nat) (p : Pair) : (s.setPair n p).ownerFq = s.ownerFq := rfl
@[simp] theorem State.setPair_rqport (s : State) (n : Nat) (p : Pair) : (s.setPair n p).rqport = s.rqport := rfl
@[simp] theorem State.setPair_rqdrop (s : State) (n : Nat) (p : Pair) : (s.setPair n p).rqdrop = s.rqdrop := rfl
@[simp] theorem State.setPair_elig (s : State) (n : Nat) (p : Pair) : (s.setPair n p).elig = s.elig := rfl
@[simp] theorem State.setPair_owState (s : State) (n : Nat) (p : Pair) : (s.setPair n p).owState = s.owState := rfl
@[simp] theorem State.setPair_owner (s : State) (n : Nat) (p : Pair) : (s.setPair n p).owner = s.owner := rfl
@[simp] theorem State.setPair_offerTgt (s : State) (n : Nat) (p : Pair) : (s.setPair n p).offerTgt = s.offerTgt := rfl
@[simp] theorem State.setPair_acceptWait (s : State) (n : Nat) (p : Pair) : (s.setPair n p).acceptWait = s.acceptWait := rfl
@[simp] theorem State.setPair_pathFail (s : State) (n : Nat) (p : Pair) : (s.setPair n p).pathFail = s.pathFail := rfl
@[simp] theorem State.setPair_dllUp (s : State) (n : Nat) (p : Pair) : (s.setPair n p).dllUp = s.dllUp := rfl
@[simp] theorem State.setPair_oclm (s : State) (n : Nat) (p : Pair) : (s.setPair n p).oclm = s.oclm := rfl
@[simp] theorem State.setPair_bootErr (s : State) (n : Nat) (p : Pair) : (s.setPair n p).bootErr = s.bootErr := rfl
@[simp] theorem State.setPair_bootCopy (s : State) (n : Nat) (p : Pair) : (s.setPair n p).bootCopy = s.bootCopy := rfl
@[simp] theorem State.setPair_bootPhase (s : State) (n : Nat) (p : Pair) : (s.setPair n p).bootPhase = s.bootPhase := rfl
@[simp] theorem State.setPair_failedStage (s : State) (n : Nat) (p : Pair) : (s.setPair n p).failedStage = s.failedStage := rfl
@[simp] theorem State.setPair_rgo (s : State) (n : Nat) (p : Pair) : (s.setPair n p).rgo = s.rgo := rfl
@[simp] theorem State.setPair_svn1 (s : State) (n : Nat) (p : Pair) : (s.setPair n p).svn1 = s.svn1 := rfl
@[simp] theorem State.setPair_svn2 (s : State) (n : Nat) (p : Pair) : (s.setPair n p).svn2 = s.svn2 := rfl
@[simp] theorem State.setPair_meas (s : State) (n : Nat) (p : Pair) : (s.setPair n p).meas = s.meas := rfl
@[simp] theorem State.setPair_flash (s : State) (n : Nat) (p : Pair) : (s.setPair n p).flash = s.flash := rfl
@[simp] theorem State.setPair_elog (s : State) (n : Nat) (p : Pair) : (s.setPair n p).elog = s.elog := rfl
@[simp] theorem State.setPair_elogt (s : State) (n : Nat) (p : Pair) : (s.setPair n p).elogt = s.elogt := rfl
@[simp] theorem State.setPair_mgport (s : State) (n : Nat) (p : Pair) : (s.setPair n p).mgport = s.mgport := rfl
@[simp] theorem State.setPair_rpa (s : State) (n : Nat) (p : Pair) : (s.setPair n p).rpa = s.rpa := rfl
@[simp] theorem State.setPair_linkUp (s : State) (n : Nat) (p : Pair) : (s.setPair n p).linkUp = s.linkUp := rfl
@[simp] theorem State.setPair_atctl (s : State) (n : Nat) (p : Pair) : (s.setPair n p).atctl = s.atctl := rfl
@[simp] theorem State.setPair_report (s : State) (n : Nat) (p : Pair) : (s.setPair n p).report = s.report := rfl
@[simp] theorem State.setPair_mig (s : State) (n : Nat) (p : Pair) : (s.setPair n p).mig = s.mig := rfl
@[simp] theorem State.setPair_ce (s : State) (n : Nat) (p : Pair) : (s.setPair n p).ce = s.ce := rfl
@[simp] theorem State.setPair_overPower (s : State) (n : Nat) (p : Pair) : (s.setPair n p).overPower = s.overPower := rfl
@[simp] theorem State.setPair_spares (s : State) (n : Nat) (p : Pair) : (s.setPair n p).spares = s.spares := rfl
@[simp] theorem State.setPair_frames (s : State) (n : Nat) (p : Pair) : (s.setPair n p).frames = s.frames := rfl
@[simp] theorem State.setPair_frags (s : State) (n : Nat) (p : Pair) : (s.setPair n p).frags = s.frags := rfl
@[simp] theorem State.setPair_inq (s : State) (n : Nat) (p : Pair) : (s.setPair n p).inq = s.inq := rfl
@[simp] theorem State.setPair_ownerWait (s : State) (n : Nat) (p : Pair) : (s.setPair n p).ownerWait = s.ownerWait := rfl
@[simp] theorem State.setPair_cores (s : State) (n : Nat) (p : Pair) : (s.setPair n p).cores = s.cores := rfl

/-! ## State.setPart -/

@[simp] theorem State.setPart_agenda (s : State) (n : Nat) (p : Part) : (s.setPart n p).agenda = s.agenda := rfl
@[simp] theorem State.setPart_cur (s : State) (n : Nat) (p : Part) : (s.setPart n p).cur = s.cur := rfl
@[simp] theorem State.setPart_app (s : State) (n : Nat) (p : Part) : (s.setPart n p).app = s.app := rfl
@[simp] theorem State.setPart_freeCtr (s : State) (n : Nat) (p : Part) : (s.setPart n p).freeCtr = s.freeCtr := rfl
@[simp] theorem State.setPart_wseq (s : State) (n : Nat) (p : Part) : (s.setPart n p).wseq = s.wseq := rfl
@[simp] theorem State.setPart_mem (s : State) (n : Nat) (p : Part) : (s.setPart n p).mem = s.mem := rfl
@[simp] theorem State.setPart_memLost (s : State) (n : Nat) (p : Part) : (s.setPart n p).memLost = s.memLost := rfl
@[simp] theorem State.setPart_regs (s : State) (n : Nat) (p : Part) : (s.setPart n p).regs = s.regs := rfl
@[simp] theorem State.setPart_regBad (s : State) (n : Nat) (p : Part) : (s.setPart n p).regBad = s.regBad := rfl
@[simp] theorem State.setPart_ctl (s : State) (n : Nat) (p : Part) : (s.setPart n p).ctl = s.ctl := rfl
@[simp] theorem State.setPart_threads (s : State) (n : Nat) (p : Part) : (s.setPart n p).threads = s.threads := rfl
@[simp] theorem State.setPart_pairs (s : State) (n : Nat) (p : Part) : (s.setPart n p).pairs = s.pairs := rfl
@[simp] theorem State.setPart_parts (s : State) (n : Nat) (p : Part) : (s.setPart n p).parts = mapPut n p s.parts := rfl
@[simp] theorem State.setPart_dies (s : State) (n : Nat) (p : Part) : (s.setPart n p).dies = s.dies := rfl
@[simp] theorem State.setPart_tlb (s : State) (n : Nat) (p : Part) : (s.setPart n p).tlb = s.tlb := rfl
@[simp] theorem State.setPart_tlb1 (s : State) (n : Nat) (p : Part) : (s.setPart n p).tlb1 = s.tlb1 := rfl
@[simp] theorem State.setPart_wcache (s : State) (n : Nat) (p : Part) : (s.setPart n p).wcache = s.wcache := rfl
@[simp] theorem State.setPart_pend (s : State) (n : Nat) (p : Part) : (s.setPart n p).pend = s.pend := rfl
@[simp] theorem State.setPart_cmds (s : State) (n : Nat) (p : Part) : (s.setPart n p).cmds = s.cmds := rfl
@[simp] theorem State.setPart_obs (s : State) (n : Nat) (p : Part) : (s.setPart n p).obs = s.obs := rfl
@[simp] theorem State.setPart_out (s : State) (n : Nat) (p : Part) : (s.setPart n p).out = s.out := rfl
@[simp] theorem State.setPart_filt (s : State) (n : Nat) (p : Part) : (s.setPart n p).filt = s.filt := rfl
@[simp] theorem State.setPart_ptb (s : State) (n : Nat) (p : Part) : (s.setPart n p).ptb = s.ptb := rfl
@[simp] theorem State.setPart_pcmdCmd (s : State) (n : Nat) (p : Part) : (s.setPart n p).pcmdCmd = s.pcmdCmd := rfl
@[simp] theorem State.setPart_pcmdPart (s : State) (n : Nat) (p : Part) : (s.setPart n p).pcmdPart = s.pcmdPart := rfl
@[simp] theorem State.setPart_pcmdRes (s : State) (n : Nat) (p : Part) : (s.setPart n p).pcmdRes = s.pcmdRes := rfl
@[simp] theorem State.setPart_pcmdJob (s : State) (n : Nat) (p : Part) : (s.setPart n p).pcmdJob = s.pcmdJob := rfl
@[simp] theorem State.setPart_devn (s : State) (n : Nat) (p : Part) : (s.setPart n p).devn = s.devn := rfl
@[simp] theorem State.setPart_ofq (s : State) (n : Nat) (p : Part) : (s.setPart n p).ofq = s.ofq := rfl
@[simp] theorem State.setPart_ownerFq (s : State) (n : Nat) (p : Part) : (s.setPart n p).ownerFq = s.ownerFq := rfl
@[simp] theorem State.setPart_rqport (s : State) (n : Nat) (p : Part) : (s.setPart n p).rqport = s.rqport := rfl
@[simp] theorem State.setPart_rqdrop (s : State) (n : Nat) (p : Part) : (s.setPart n p).rqdrop = s.rqdrop := rfl
@[simp] theorem State.setPart_elig (s : State) (n : Nat) (p : Part) : (s.setPart n p).elig = s.elig := rfl
@[simp] theorem State.setPart_owState (s : State) (n : Nat) (p : Part) : (s.setPart n p).owState = s.owState := rfl
@[simp] theorem State.setPart_owner (s : State) (n : Nat) (p : Part) : (s.setPart n p).owner = s.owner := rfl
@[simp] theorem State.setPart_offerTgt (s : State) (n : Nat) (p : Part) : (s.setPart n p).offerTgt = s.offerTgt := rfl
@[simp] theorem State.setPart_acceptWait (s : State) (n : Nat) (p : Part) : (s.setPart n p).acceptWait = s.acceptWait := rfl
@[simp] theorem State.setPart_pathFail (s : State) (n : Nat) (p : Part) : (s.setPart n p).pathFail = s.pathFail := rfl
@[simp] theorem State.setPart_dllUp (s : State) (n : Nat) (p : Part) : (s.setPart n p).dllUp = s.dllUp := rfl
@[simp] theorem State.setPart_oclm (s : State) (n : Nat) (p : Part) : (s.setPart n p).oclm = s.oclm := rfl
@[simp] theorem State.setPart_bootErr (s : State) (n : Nat) (p : Part) : (s.setPart n p).bootErr = s.bootErr := rfl
@[simp] theorem State.setPart_bootCopy (s : State) (n : Nat) (p : Part) : (s.setPart n p).bootCopy = s.bootCopy := rfl
@[simp] theorem State.setPart_bootPhase (s : State) (n : Nat) (p : Part) : (s.setPart n p).bootPhase = s.bootPhase := rfl
@[simp] theorem State.setPart_failedStage (s : State) (n : Nat) (p : Part) : (s.setPart n p).failedStage = s.failedStage := rfl
@[simp] theorem State.setPart_rgo (s : State) (n : Nat) (p : Part) : (s.setPart n p).rgo = s.rgo := rfl
@[simp] theorem State.setPart_svn1 (s : State) (n : Nat) (p : Part) : (s.setPart n p).svn1 = s.svn1 := rfl
@[simp] theorem State.setPart_svn2 (s : State) (n : Nat) (p : Part) : (s.setPart n p).svn2 = s.svn2 := rfl
@[simp] theorem State.setPart_meas (s : State) (n : Nat) (p : Part) : (s.setPart n p).meas = s.meas := rfl
@[simp] theorem State.setPart_flash (s : State) (n : Nat) (p : Part) : (s.setPart n p).flash = s.flash := rfl
@[simp] theorem State.setPart_elog (s : State) (n : Nat) (p : Part) : (s.setPart n p).elog = s.elog := rfl
@[simp] theorem State.setPart_elogt (s : State) (n : Nat) (p : Part) : (s.setPart n p).elogt = s.elogt := rfl
@[simp] theorem State.setPart_mgport (s : State) (n : Nat) (p : Part) : (s.setPart n p).mgport = s.mgport := rfl
@[simp] theorem State.setPart_rpa (s : State) (n : Nat) (p : Part) : (s.setPart n p).rpa = s.rpa := rfl
@[simp] theorem State.setPart_linkUp (s : State) (n : Nat) (p : Part) : (s.setPart n p).linkUp = s.linkUp := rfl
@[simp] theorem State.setPart_atctl (s : State) (n : Nat) (p : Part) : (s.setPart n p).atctl = s.atctl := rfl
@[simp] theorem State.setPart_report (s : State) (n : Nat) (p : Part) : (s.setPart n p).report = s.report := rfl
@[simp] theorem State.setPart_mig (s : State) (n : Nat) (p : Part) : (s.setPart n p).mig = s.mig := rfl
@[simp] theorem State.setPart_ce (s : State) (n : Nat) (p : Part) : (s.setPart n p).ce = s.ce := rfl
@[simp] theorem State.setPart_overPower (s : State) (n : Nat) (p : Part) : (s.setPart n p).overPower = s.overPower := rfl
@[simp] theorem State.setPart_spares (s : State) (n : Nat) (p : Part) : (s.setPart n p).spares = s.spares := rfl
@[simp] theorem State.setPart_frames (s : State) (n : Nat) (p : Part) : (s.setPart n p).frames = s.frames := rfl
@[simp] theorem State.setPart_frags (s : State) (n : Nat) (p : Part) : (s.setPart n p).frags = s.frags := rfl
@[simp] theorem State.setPart_inq (s : State) (n : Nat) (p : Part) : (s.setPart n p).inq = s.inq := rfl
@[simp] theorem State.setPart_ownerWait (s : State) (n : Nat) (p : Part) : (s.setPart n p).ownerWait = s.ownerWait := rfl
@[simp] theorem State.setPart_cores (s : State) (n : Nat) (p : Part) : (s.setPart n p).cores = s.cores := rfl

/-! ## State.setDie -/

@[simp] theorem State.setDie_agenda (s : State) (n : Nat) (d : Die) : (s.setDie n d).agenda = s.agenda := rfl
@[simp] theorem State.setDie_cur (s : State) (n : Nat) (d : Die) : (s.setDie n d).cur = s.cur := rfl
@[simp] theorem State.setDie_app (s : State) (n : Nat) (d : Die) : (s.setDie n d).app = s.app := rfl
@[simp] theorem State.setDie_freeCtr (s : State) (n : Nat) (d : Die) : (s.setDie n d).freeCtr = s.freeCtr := rfl
@[simp] theorem State.setDie_wseq (s : State) (n : Nat) (d : Die) : (s.setDie n d).wseq = s.wseq := rfl
@[simp] theorem State.setDie_mem (s : State) (n : Nat) (d : Die) : (s.setDie n d).mem = s.mem := rfl
@[simp] theorem State.setDie_memLost (s : State) (n : Nat) (d : Die) : (s.setDie n d).memLost = s.memLost := rfl
@[simp] theorem State.setDie_regs (s : State) (n : Nat) (d : Die) : (s.setDie n d).regs = s.regs := rfl
@[simp] theorem State.setDie_regBad (s : State) (n : Nat) (d : Die) : (s.setDie n d).regBad = s.regBad := rfl
@[simp] theorem State.setDie_ctl (s : State) (n : Nat) (d : Die) : (s.setDie n d).ctl = s.ctl := rfl
@[simp] theorem State.setDie_threads (s : State) (n : Nat) (d : Die) : (s.setDie n d).threads = s.threads := rfl
@[simp] theorem State.setDie_pairs (s : State) (n : Nat) (d : Die) : (s.setDie n d).pairs = s.pairs := rfl
@[simp] theorem State.setDie_parts (s : State) (n : Nat) (d : Die) : (s.setDie n d).parts = s.parts := rfl
@[simp] theorem State.setDie_dies (s : State) (n : Nat) (d : Die) : (s.setDie n d).dies = mapPut n d s.dies := rfl
@[simp] theorem State.setDie_tlb (s : State) (n : Nat) (d : Die) : (s.setDie n d).tlb = s.tlb := rfl
@[simp] theorem State.setDie_tlb1 (s : State) (n : Nat) (d : Die) : (s.setDie n d).tlb1 = s.tlb1 := rfl
@[simp] theorem State.setDie_wcache (s : State) (n : Nat) (d : Die) : (s.setDie n d).wcache = s.wcache := rfl
@[simp] theorem State.setDie_pend (s : State) (n : Nat) (d : Die) : (s.setDie n d).pend = s.pend := rfl
@[simp] theorem State.setDie_cmds (s : State) (n : Nat) (d : Die) : (s.setDie n d).cmds = s.cmds := rfl
@[simp] theorem State.setDie_obs (s : State) (n : Nat) (d : Die) : (s.setDie n d).obs = s.obs := rfl
@[simp] theorem State.setDie_out (s : State) (n : Nat) (d : Die) : (s.setDie n d).out = s.out := rfl
@[simp] theorem State.setDie_filt (s : State) (n : Nat) (d : Die) : (s.setDie n d).filt = s.filt := rfl
@[simp] theorem State.setDie_ptb (s : State) (n : Nat) (d : Die) : (s.setDie n d).ptb = s.ptb := rfl
@[simp] theorem State.setDie_pcmdCmd (s : State) (n : Nat) (d : Die) : (s.setDie n d).pcmdCmd = s.pcmdCmd := rfl
@[simp] theorem State.setDie_pcmdPart (s : State) (n : Nat) (d : Die) : (s.setDie n d).pcmdPart = s.pcmdPart := rfl
@[simp] theorem State.setDie_pcmdRes (s : State) (n : Nat) (d : Die) : (s.setDie n d).pcmdRes = s.pcmdRes := rfl
@[simp] theorem State.setDie_pcmdJob (s : State) (n : Nat) (d : Die) : (s.setDie n d).pcmdJob = s.pcmdJob := rfl
@[simp] theorem State.setDie_devn (s : State) (n : Nat) (d : Die) : (s.setDie n d).devn = s.devn := rfl
@[simp] theorem State.setDie_ofq (s : State) (n : Nat) (d : Die) : (s.setDie n d).ofq = s.ofq := rfl
@[simp] theorem State.setDie_ownerFq (s : State) (n : Nat) (d : Die) : (s.setDie n d).ownerFq = s.ownerFq := rfl
@[simp] theorem State.setDie_rqport (s : State) (n : Nat) (d : Die) : (s.setDie n d).rqport = s.rqport := rfl
@[simp] theorem State.setDie_rqdrop (s : State) (n : Nat) (d : Die) : (s.setDie n d).rqdrop = s.rqdrop := rfl
@[simp] theorem State.setDie_elig (s : State) (n : Nat) (d : Die) : (s.setDie n d).elig = s.elig := rfl
@[simp] theorem State.setDie_owState (s : State) (n : Nat) (d : Die) : (s.setDie n d).owState = s.owState := rfl
@[simp] theorem State.setDie_owner (s : State) (n : Nat) (d : Die) : (s.setDie n d).owner = s.owner := rfl
@[simp] theorem State.setDie_offerTgt (s : State) (n : Nat) (d : Die) : (s.setDie n d).offerTgt = s.offerTgt := rfl
@[simp] theorem State.setDie_acceptWait (s : State) (n : Nat) (d : Die) : (s.setDie n d).acceptWait = s.acceptWait := rfl
@[simp] theorem State.setDie_pathFail (s : State) (n : Nat) (d : Die) : (s.setDie n d).pathFail = s.pathFail := rfl
@[simp] theorem State.setDie_dllUp (s : State) (n : Nat) (d : Die) : (s.setDie n d).dllUp = s.dllUp := rfl
@[simp] theorem State.setDie_oclm (s : State) (n : Nat) (d : Die) : (s.setDie n d).oclm = s.oclm := rfl
@[simp] theorem State.setDie_bootErr (s : State) (n : Nat) (d : Die) : (s.setDie n d).bootErr = s.bootErr := rfl
@[simp] theorem State.setDie_bootCopy (s : State) (n : Nat) (d : Die) : (s.setDie n d).bootCopy = s.bootCopy := rfl
@[simp] theorem State.setDie_bootPhase (s : State) (n : Nat) (d : Die) : (s.setDie n d).bootPhase = s.bootPhase := rfl
@[simp] theorem State.setDie_failedStage (s : State) (n : Nat) (d : Die) : (s.setDie n d).failedStage = s.failedStage := rfl
@[simp] theorem State.setDie_rgo (s : State) (n : Nat) (d : Die) : (s.setDie n d).rgo = s.rgo := rfl
@[simp] theorem State.setDie_svn1 (s : State) (n : Nat) (d : Die) : (s.setDie n d).svn1 = s.svn1 := rfl
@[simp] theorem State.setDie_svn2 (s : State) (n : Nat) (d : Die) : (s.setDie n d).svn2 = s.svn2 := rfl
@[simp] theorem State.setDie_meas (s : State) (n : Nat) (d : Die) : (s.setDie n d).meas = s.meas := rfl
@[simp] theorem State.setDie_flash (s : State) (n : Nat) (d : Die) : (s.setDie n d).flash = s.flash := rfl
@[simp] theorem State.setDie_elog (s : State) (n : Nat) (d : Die) : (s.setDie n d).elog = s.elog := rfl
@[simp] theorem State.setDie_elogt (s : State) (n : Nat) (d : Die) : (s.setDie n d).elogt = s.elogt := rfl
@[simp] theorem State.setDie_mgport (s : State) (n : Nat) (d : Die) : (s.setDie n d).mgport = s.mgport := rfl
@[simp] theorem State.setDie_rpa (s : State) (n : Nat) (d : Die) : (s.setDie n d).rpa = s.rpa := rfl
@[simp] theorem State.setDie_linkUp (s : State) (n : Nat) (d : Die) : (s.setDie n d).linkUp = s.linkUp := rfl
@[simp] theorem State.setDie_atctl (s : State) (n : Nat) (d : Die) : (s.setDie n d).atctl = s.atctl := rfl
@[simp] theorem State.setDie_report (s : State) (n : Nat) (d : Die) : (s.setDie n d).report = s.report := rfl
@[simp] theorem State.setDie_mig (s : State) (n : Nat) (d : Die) : (s.setDie n d).mig = s.mig := rfl
@[simp] theorem State.setDie_ce (s : State) (n : Nat) (d : Die) : (s.setDie n d).ce = s.ce := rfl
@[simp] theorem State.setDie_overPower (s : State) (n : Nat) (d : Die) : (s.setDie n d).overPower = s.overPower := rfl
@[simp] theorem State.setDie_spares (s : State) (n : Nat) (d : Die) : (s.setDie n d).spares = s.spares := rfl
@[simp] theorem State.setDie_frames (s : State) (n : Nat) (d : Die) : (s.setDie n d).frames = s.frames := rfl
@[simp] theorem State.setDie_frags (s : State) (n : Nat) (d : Die) : (s.setDie n d).frags = s.frags := rfl
@[simp] theorem State.setDie_inq (s : State) (n : Nat) (d : Die) : (s.setDie n d).inq = s.inq := rfl
@[simp] theorem State.setDie_ownerWait (s : State) (n : Nat) (d : Die) : (s.setDie n d).ownerWait = s.ownerWait := rfl
@[simp] theorem State.setDie_cores (s : State) (n : Nat) (d : Die) : (s.setDie n d).cores = s.cores := rfl

/-! ## State.putBytes -/

@[simp] theorem State.putBytes_agenda (s : State) (a : Nat) (bs : List Byte) : (s.putBytes a bs).agenda = s.agenda := rfl
@[simp] theorem State.putBytes_cur (s : State) (a : Nat) (bs : List Byte) : (s.putBytes a bs).cur = s.cur := rfl
@[simp] theorem State.putBytes_app (s : State) (a : Nat) (bs : List Byte) : (s.putBytes a bs).app = s.app := rfl
@[simp] theorem State.putBytes_freeCtr (s : State) (a : Nat) (bs : List Byte) : (s.putBytes a bs).freeCtr = s.freeCtr := rfl
@[simp] theorem State.putBytes_wseq (s : State) (a : Nat) (bs : List Byte) : (s.putBytes a bs).wseq = s.wseq := rfl
@[simp] theorem State.putBytes_mem (s : State) (a : Nat) (bs : List Byte) : (s.putBytes a bs).mem = cellsPut s.mem a bs := rfl
@[simp] theorem State.putBytes_regs (s : State) (a : Nat) (bs : List Byte) : (s.putBytes a bs).regs = s.regs := rfl
@[simp] theorem State.putBytes_regBad (s : State) (a : Nat) (bs : List Byte) : (s.putBytes a bs).regBad = s.regBad := rfl
@[simp] theorem State.putBytes_ctl (s : State) (a : Nat) (bs : List Byte) : (s.putBytes a bs).ctl = s.ctl := rfl
@[simp] theorem State.putBytes_threads (s : State) (a : Nat) (bs : List Byte) : (s.putBytes a bs).threads = s.threads := rfl
@[simp] theorem State.putBytes_pairs (s : State) (a : Nat) (bs : List Byte) : (s.putBytes a bs).pairs = s.pairs := rfl
@[simp] theorem State.putBytes_parts (s : State) (a : Nat) (bs : List Byte) : (s.putBytes a bs).parts = s.parts := rfl
@[simp] theorem State.putBytes_dies (s : State) (a : Nat) (bs : List Byte) : (s.putBytes a bs).dies = s.dies := rfl
@[simp] theorem State.putBytes_tlb (s : State) (a : Nat) (bs : List Byte) : (s.putBytes a bs).tlb = s.tlb := rfl
@[simp] theorem State.putBytes_tlb1 (s : State) (a : Nat) (bs : List Byte) : (s.putBytes a bs).tlb1 = s.tlb1 := rfl
@[simp] theorem State.putBytes_wcache (s : State) (a : Nat) (bs : List Byte) : (s.putBytes a bs).wcache = s.wcache := rfl
@[simp] theorem State.putBytes_pend (s : State) (a : Nat) (bs : List Byte) : (s.putBytes a bs).pend = s.pend := rfl
@[simp] theorem State.putBytes_cmds (s : State) (a : Nat) (bs : List Byte) : (s.putBytes a bs).cmds = s.cmds := rfl
@[simp] theorem State.putBytes_obs (s : State) (a : Nat) (bs : List Byte) : (s.putBytes a bs).obs = s.obs := rfl
@[simp] theorem State.putBytes_out (s : State) (a : Nat) (bs : List Byte) : (s.putBytes a bs).out = s.out := rfl
@[simp] theorem State.putBytes_filt (s : State) (a : Nat) (bs : List Byte) : (s.putBytes a bs).filt = s.filt := rfl
@[simp] theorem State.putBytes_ptb (s : State) (a : Nat) (bs : List Byte) : (s.putBytes a bs).ptb = s.ptb := rfl
@[simp] theorem State.putBytes_pcmdCmd (s : State) (a : Nat) (bs : List Byte) : (s.putBytes a bs).pcmdCmd = s.pcmdCmd := rfl
@[simp] theorem State.putBytes_pcmdPart (s : State) (a : Nat) (bs : List Byte) : (s.putBytes a bs).pcmdPart = s.pcmdPart := rfl
@[simp] theorem State.putBytes_pcmdRes (s : State) (a : Nat) (bs : List Byte) : (s.putBytes a bs).pcmdRes = s.pcmdRes := rfl
@[simp] theorem State.putBytes_pcmdJob (s : State) (a : Nat) (bs : List Byte) : (s.putBytes a bs).pcmdJob = s.pcmdJob := rfl
@[simp] theorem State.putBytes_devn (s : State) (a : Nat) (bs : List Byte) : (s.putBytes a bs).devn = s.devn := rfl
@[simp] theorem State.putBytes_ofq (s : State) (a : Nat) (bs : List Byte) : (s.putBytes a bs).ofq = s.ofq := rfl
@[simp] theorem State.putBytes_ownerFq (s : State) (a : Nat) (bs : List Byte) : (s.putBytes a bs).ownerFq = s.ownerFq := rfl
@[simp] theorem State.putBytes_rqport (s : State) (a : Nat) (bs : List Byte) : (s.putBytes a bs).rqport = s.rqport := rfl
@[simp] theorem State.putBytes_rqdrop (s : State) (a : Nat) (bs : List Byte) : (s.putBytes a bs).rqdrop = s.rqdrop := rfl
@[simp] theorem State.putBytes_elig (s : State) (a : Nat) (bs : List Byte) : (s.putBytes a bs).elig = s.elig := rfl
@[simp] theorem State.putBytes_owState (s : State) (a : Nat) (bs : List Byte) : (s.putBytes a bs).owState = s.owState := rfl
@[simp] theorem State.putBytes_owner (s : State) (a : Nat) (bs : List Byte) : (s.putBytes a bs).owner = s.owner := rfl
@[simp] theorem State.putBytes_offerTgt (s : State) (a : Nat) (bs : List Byte) : (s.putBytes a bs).offerTgt = s.offerTgt := rfl
@[simp] theorem State.putBytes_acceptWait (s : State) (a : Nat) (bs : List Byte) : (s.putBytes a bs).acceptWait = s.acceptWait := rfl
@[simp] theorem State.putBytes_pathFail (s : State) (a : Nat) (bs : List Byte) : (s.putBytes a bs).pathFail = s.pathFail := rfl
@[simp] theorem State.putBytes_dllUp (s : State) (a : Nat) (bs : List Byte) : (s.putBytes a bs).dllUp = s.dllUp := rfl
@[simp] theorem State.putBytes_oclm (s : State) (a : Nat) (bs : List Byte) : (s.putBytes a bs).oclm = s.oclm := rfl
@[simp] theorem State.putBytes_bootErr (s : State) (a : Nat) (bs : List Byte) : (s.putBytes a bs).bootErr = s.bootErr := rfl
@[simp] theorem State.putBytes_bootCopy (s : State) (a : Nat) (bs : List Byte) : (s.putBytes a bs).bootCopy = s.bootCopy := rfl
@[simp] theorem State.putBytes_bootPhase (s : State) (a : Nat) (bs : List Byte) : (s.putBytes a bs).bootPhase = s.bootPhase := rfl
@[simp] theorem State.putBytes_failedStage (s : State) (a : Nat) (bs : List Byte) : (s.putBytes a bs).failedStage = s.failedStage := rfl
@[simp] theorem State.putBytes_rgo (s : State) (a : Nat) (bs : List Byte) : (s.putBytes a bs).rgo = s.rgo := rfl
@[simp] theorem State.putBytes_svn1 (s : State) (a : Nat) (bs : List Byte) : (s.putBytes a bs).svn1 = s.svn1 := rfl
@[simp] theorem State.putBytes_svn2 (s : State) (a : Nat) (bs : List Byte) : (s.putBytes a bs).svn2 = s.svn2 := rfl
@[simp] theorem State.putBytes_meas (s : State) (a : Nat) (bs : List Byte) : (s.putBytes a bs).meas = s.meas := rfl
@[simp] theorem State.putBytes_flash (s : State) (a : Nat) (bs : List Byte) : (s.putBytes a bs).flash = s.flash := rfl
@[simp] theorem State.putBytes_elog (s : State) (a : Nat) (bs : List Byte) : (s.putBytes a bs).elog = s.elog := rfl
@[simp] theorem State.putBytes_elogt (s : State) (a : Nat) (bs : List Byte) : (s.putBytes a bs).elogt = s.elogt := rfl
@[simp] theorem State.putBytes_mgport (s : State) (a : Nat) (bs : List Byte) : (s.putBytes a bs).mgport = s.mgport := rfl
@[simp] theorem State.putBytes_rpa (s : State) (a : Nat) (bs : List Byte) : (s.putBytes a bs).rpa = s.rpa := rfl
@[simp] theorem State.putBytes_linkUp (s : State) (a : Nat) (bs : List Byte) : (s.putBytes a bs).linkUp = s.linkUp := rfl
@[simp] theorem State.putBytes_atctl (s : State) (a : Nat) (bs : List Byte) : (s.putBytes a bs).atctl = s.atctl := rfl
@[simp] theorem State.putBytes_report (s : State) (a : Nat) (bs : List Byte) : (s.putBytes a bs).report = s.report := rfl
@[simp] theorem State.putBytes_mig (s : State) (a : Nat) (bs : List Byte) : (s.putBytes a bs).mig = s.mig := rfl
@[simp] theorem State.putBytes_ce (s : State) (a : Nat) (bs : List Byte) : (s.putBytes a bs).ce = s.ce := rfl
@[simp] theorem State.putBytes_overPower (s : State) (a : Nat) (bs : List Byte) : (s.putBytes a bs).overPower = s.overPower := rfl
@[simp] theorem State.putBytes_spares (s : State) (a : Nat) (bs : List Byte) : (s.putBytes a bs).spares = s.spares := rfl
@[simp] theorem State.putBytes_frames (s : State) (a : Nat) (bs : List Byte) : (s.putBytes a bs).frames = s.frames := rfl
@[simp] theorem State.putBytes_frags (s : State) (a : Nat) (bs : List Byte) : (s.putBytes a bs).frags = s.frags := rfl
@[simp] theorem State.putBytes_inq (s : State) (a : Nat) (bs : List Byte) : (s.putBytes a bs).inq = s.inq := rfl
@[simp] theorem State.putBytes_ownerWait (s : State) (a : Nat) (bs : List Byte) : (s.putBytes a bs).ownerWait = s.ownerWait := rfl
@[simp] theorem State.putBytes_cores (s : State) (a : Nat) (bs : List Byte) : (s.putBytes a bs).cores = s.cores := rfl

/-! ## State.putReg -/

@[simp] theorem State.putReg_agenda (s : State) (k : Nat) (bs : List Byte) : (s.putReg k bs).agenda = s.agenda := rfl
@[simp] theorem State.putReg_cur (s : State) (k : Nat) (bs : List Byte) : (s.putReg k bs).cur = s.cur := rfl
@[simp] theorem State.putReg_app (s : State) (k : Nat) (bs : List Byte) : (s.putReg k bs).app = s.app := rfl
@[simp] theorem State.putReg_freeCtr (s : State) (k : Nat) (bs : List Byte) : (s.putReg k bs).freeCtr = s.freeCtr := rfl
@[simp] theorem State.putReg_wseq (s : State) (k : Nat) (bs : List Byte) : (s.putReg k bs).wseq = s.wseq := rfl
@[simp] theorem State.putReg_mem (s : State) (k : Nat) (bs : List Byte) : (s.putReg k bs).mem = s.mem := rfl
@[simp] theorem State.putReg_memLost (s : State) (k : Nat) (bs : List Byte) : (s.putReg k bs).memLost = s.memLost := rfl
@[simp] theorem State.putReg_regs (s : State) (k : Nat) (bs : List Byte) : (s.putReg k bs).regs = cellsPut s.regs k bs := rfl
@[simp] theorem State.putReg_ctl (s : State) (k : Nat) (bs : List Byte) : (s.putReg k bs).ctl = s.ctl := rfl
@[simp] theorem State.putReg_threads (s : State) (k : Nat) (bs : List Byte) : (s.putReg k bs).threads = s.threads := rfl
@[simp] theorem State.putReg_pairs (s : State) (k : Nat) (bs : List Byte) : (s.putReg k bs).pairs = s.pairs := rfl
@[simp] theorem State.putReg_parts (s : State) (k : Nat) (bs : List Byte) : (s.putReg k bs).parts = s.parts := rfl
@[simp] theorem State.putReg_dies (s : State) (k : Nat) (bs : List Byte) : (s.putReg k bs).dies = s.dies := rfl
@[simp] theorem State.putReg_tlb (s : State) (k : Nat) (bs : List Byte) : (s.putReg k bs).tlb = s.tlb := rfl
@[simp] theorem State.putReg_tlb1 (s : State) (k : Nat) (bs : List Byte) : (s.putReg k bs).tlb1 = s.tlb1 := rfl
@[simp] theorem State.putReg_wcache (s : State) (k : Nat) (bs : List Byte) : (s.putReg k bs).wcache = s.wcache := rfl
@[simp] theorem State.putReg_pend (s : State) (k : Nat) (bs : List Byte) : (s.putReg k bs).pend = s.pend := rfl
@[simp] theorem State.putReg_cmds (s : State) (k : Nat) (bs : List Byte) : (s.putReg k bs).cmds = s.cmds := rfl
@[simp] theorem State.putReg_obs (s : State) (k : Nat) (bs : List Byte) : (s.putReg k bs).obs = s.obs := rfl
@[simp] theorem State.putReg_out (s : State) (k : Nat) (bs : List Byte) : (s.putReg k bs).out = s.out := rfl
@[simp] theorem State.putReg_filt (s : State) (k : Nat) (bs : List Byte) : (s.putReg k bs).filt = s.filt := rfl
@[simp] theorem State.putReg_ptb (s : State) (k : Nat) (bs : List Byte) : (s.putReg k bs).ptb = s.ptb := rfl
@[simp] theorem State.putReg_pcmdCmd (s : State) (k : Nat) (bs : List Byte) : (s.putReg k bs).pcmdCmd = s.pcmdCmd := rfl
@[simp] theorem State.putReg_pcmdPart (s : State) (k : Nat) (bs : List Byte) : (s.putReg k bs).pcmdPart = s.pcmdPart := rfl
@[simp] theorem State.putReg_pcmdRes (s : State) (k : Nat) (bs : List Byte) : (s.putReg k bs).pcmdRes = s.pcmdRes := rfl
@[simp] theorem State.putReg_pcmdJob (s : State) (k : Nat) (bs : List Byte) : (s.putReg k bs).pcmdJob = s.pcmdJob := rfl
@[simp] theorem State.putReg_devn (s : State) (k : Nat) (bs : List Byte) : (s.putReg k bs).devn = s.devn := rfl
@[simp] theorem State.putReg_ofq (s : State) (k : Nat) (bs : List Byte) : (s.putReg k bs).ofq = s.ofq := rfl
@[simp] theorem State.putReg_ownerFq (s : State) (k : Nat) (bs : List Byte) : (s.putReg k bs).ownerFq = s.ownerFq := rfl
@[simp] theorem State.putReg_rqport (s : State) (k : Nat) (bs : List Byte) : (s.putReg k bs).rqport = s.rqport := rfl
@[simp] theorem State.putReg_rqdrop (s : State) (k : Nat) (bs : List Byte) : (s.putReg k bs).rqdrop = s.rqdrop := rfl
@[simp] theorem State.putReg_elig (s : State) (k : Nat) (bs : List Byte) : (s.putReg k bs).elig = s.elig := rfl
@[simp] theorem State.putReg_owState (s : State) (k : Nat) (bs : List Byte) : (s.putReg k bs).owState = s.owState := rfl
@[simp] theorem State.putReg_owner (s : State) (k : Nat) (bs : List Byte) : (s.putReg k bs).owner = s.owner := rfl
@[simp] theorem State.putReg_offerTgt (s : State) (k : Nat) (bs : List Byte) : (s.putReg k bs).offerTgt = s.offerTgt := rfl
@[simp] theorem State.putReg_acceptWait (s : State) (k : Nat) (bs : List Byte) : (s.putReg k bs).acceptWait = s.acceptWait := rfl
@[simp] theorem State.putReg_pathFail (s : State) (k : Nat) (bs : List Byte) : (s.putReg k bs).pathFail = s.pathFail := rfl
@[simp] theorem State.putReg_dllUp (s : State) (k : Nat) (bs : List Byte) : (s.putReg k bs).dllUp = s.dllUp := rfl
@[simp] theorem State.putReg_oclm (s : State) (k : Nat) (bs : List Byte) : (s.putReg k bs).oclm = s.oclm := rfl
@[simp] theorem State.putReg_bootErr (s : State) (k : Nat) (bs : List Byte) : (s.putReg k bs).bootErr = s.bootErr := rfl
@[simp] theorem State.putReg_bootCopy (s : State) (k : Nat) (bs : List Byte) : (s.putReg k bs).bootCopy = s.bootCopy := rfl
@[simp] theorem State.putReg_bootPhase (s : State) (k : Nat) (bs : List Byte) : (s.putReg k bs).bootPhase = s.bootPhase := rfl
@[simp] theorem State.putReg_failedStage (s : State) (k : Nat) (bs : List Byte) : (s.putReg k bs).failedStage = s.failedStage := rfl
@[simp] theorem State.putReg_rgo (s : State) (k : Nat) (bs : List Byte) : (s.putReg k bs).rgo = s.rgo := rfl
@[simp] theorem State.putReg_svn1 (s : State) (k : Nat) (bs : List Byte) : (s.putReg k bs).svn1 = s.svn1 := rfl
@[simp] theorem State.putReg_svn2 (s : State) (k : Nat) (bs : List Byte) : (s.putReg k bs).svn2 = s.svn2 := rfl
@[simp] theorem State.putReg_meas (s : State) (k : Nat) (bs : List Byte) : (s.putReg k bs).meas = s.meas := rfl
@[simp] theorem State.putReg_flash (s : State) (k : Nat) (bs : List Byte) : (s.putReg k bs).flash = s.flash := rfl
@[simp] theorem State.putReg_elog (s : State) (k : Nat) (bs : List Byte) : (s.putReg k bs).elog = s.elog := rfl
@[simp] theorem State.putReg_elogt (s : State) (k : Nat) (bs : List Byte) : (s.putReg k bs).elogt = s.elogt := rfl
@[simp] theorem State.putReg_mgport (s : State) (k : Nat) (bs : List Byte) : (s.putReg k bs).mgport = s.mgport := rfl
@[simp] theorem State.putReg_rpa (s : State) (k : Nat) (bs : List Byte) : (s.putReg k bs).rpa = s.rpa := rfl
@[simp] theorem State.putReg_linkUp (s : State) (k : Nat) (bs : List Byte) : (s.putReg k bs).linkUp = s.linkUp := rfl
@[simp] theorem State.putReg_atctl (s : State) (k : Nat) (bs : List Byte) : (s.putReg k bs).atctl = s.atctl := rfl
@[simp] theorem State.putReg_report (s : State) (k : Nat) (bs : List Byte) : (s.putReg k bs).report = s.report := rfl
@[simp] theorem State.putReg_mig (s : State) (k : Nat) (bs : List Byte) : (s.putReg k bs).mig = s.mig := rfl
@[simp] theorem State.putReg_ce (s : State) (k : Nat) (bs : List Byte) : (s.putReg k bs).ce = s.ce := rfl
@[simp] theorem State.putReg_overPower (s : State) (k : Nat) (bs : List Byte) : (s.putReg k bs).overPower = s.overPower := rfl
@[simp] theorem State.putReg_spares (s : State) (k : Nat) (bs : List Byte) : (s.putReg k bs).spares = s.spares := rfl
@[simp] theorem State.putReg_frames (s : State) (k : Nat) (bs : List Byte) : (s.putReg k bs).frames = s.frames := rfl
@[simp] theorem State.putReg_frags (s : State) (k : Nat) (bs : List Byte) : (s.putReg k bs).frags = s.frags := rfl
@[simp] theorem State.putReg_inq (s : State) (k : Nat) (bs : List Byte) : (s.putReg k bs).inq = s.inq := rfl
@[simp] theorem State.putReg_ownerWait (s : State) (k : Nat) (bs : List Byte) : (s.putReg k bs).ownerWait = s.ownerWait := rfl
@[simp] theorem State.putReg_cores (s : State) (k : Nat) (bs : List Byte) : (s.putReg k bs).cores = s.cores := rfl

/-! ## State.zeroReg -/

@[simp] theorem State.zeroReg_agenda (s : State) (k n : Nat) : (s.zeroReg k n).agenda = s.agenda := rfl
@[simp] theorem State.zeroReg_cur (s : State) (k n : Nat) : (s.zeroReg k n).cur = s.cur := rfl
@[simp] theorem State.zeroReg_app (s : State) (k n : Nat) : (s.zeroReg k n).app = s.app := rfl
@[simp] theorem State.zeroReg_freeCtr (s : State) (k n : Nat) : (s.zeroReg k n).freeCtr = s.freeCtr := rfl
@[simp] theorem State.zeroReg_wseq (s : State) (k n : Nat) : (s.zeroReg k n).wseq = s.wseq := rfl
@[simp] theorem State.zeroReg_mem (s : State) (k n : Nat) : (s.zeroReg k n).mem = s.mem := rfl
@[simp] theorem State.zeroReg_memLost (s : State) (k n : Nat) : (s.zeroReg k n).memLost = s.memLost := rfl
@[simp] theorem State.zeroReg_regs (s : State) (k n : Nat) : (s.zeroReg k n).regs = cellsZero s.regs k n := rfl
@[simp] theorem State.zeroReg_ctl (s : State) (k n : Nat) : (s.zeroReg k n).ctl = s.ctl := rfl
@[simp] theorem State.zeroReg_threads (s : State) (k n : Nat) : (s.zeroReg k n).threads = s.threads := rfl
@[simp] theorem State.zeroReg_pairs (s : State) (k n : Nat) : (s.zeroReg k n).pairs = s.pairs := rfl
@[simp] theorem State.zeroReg_parts (s : State) (k n : Nat) : (s.zeroReg k n).parts = s.parts := rfl
@[simp] theorem State.zeroReg_dies (s : State) (k n : Nat) : (s.zeroReg k n).dies = s.dies := rfl
@[simp] theorem State.zeroReg_tlb (s : State) (k n : Nat) : (s.zeroReg k n).tlb = s.tlb := rfl
@[simp] theorem State.zeroReg_tlb1 (s : State) (k n : Nat) : (s.zeroReg k n).tlb1 = s.tlb1 := rfl
@[simp] theorem State.zeroReg_wcache (s : State) (k n : Nat) : (s.zeroReg k n).wcache = s.wcache := rfl
@[simp] theorem State.zeroReg_pend (s : State) (k n : Nat) : (s.zeroReg k n).pend = s.pend := rfl
@[simp] theorem State.zeroReg_cmds (s : State) (k n : Nat) : (s.zeroReg k n).cmds = s.cmds := rfl
@[simp] theorem State.zeroReg_obs (s : State) (k n : Nat) : (s.zeroReg k n).obs = s.obs := rfl
@[simp] theorem State.zeroReg_out (s : State) (k n : Nat) : (s.zeroReg k n).out = s.out := rfl
@[simp] theorem State.zeroReg_filt (s : State) (k n : Nat) : (s.zeroReg k n).filt = s.filt := rfl
@[simp] theorem State.zeroReg_ptb (s : State) (k n : Nat) : (s.zeroReg k n).ptb = s.ptb := rfl
@[simp] theorem State.zeroReg_pcmdCmd (s : State) (k n : Nat) : (s.zeroReg k n).pcmdCmd = s.pcmdCmd := rfl
@[simp] theorem State.zeroReg_pcmdPart (s : State) (k n : Nat) : (s.zeroReg k n).pcmdPart = s.pcmdPart := rfl
@[simp] theorem State.zeroReg_pcmdRes (s : State) (k n : Nat) : (s.zeroReg k n).pcmdRes = s.pcmdRes := rfl
@[simp] theorem State.zeroReg_pcmdJob (s : State) (k n : Nat) : (s.zeroReg k n).pcmdJob = s.pcmdJob := rfl
@[simp] theorem State.zeroReg_devn (s : State) (k n : Nat) : (s.zeroReg k n).devn = s.devn := rfl
@[simp] theorem State.zeroReg_ofq (s : State) (k n : Nat) : (s.zeroReg k n).ofq = s.ofq := rfl
@[simp] theorem State.zeroReg_ownerFq (s : State) (k n : Nat) : (s.zeroReg k n).ownerFq = s.ownerFq := rfl
@[simp] theorem State.zeroReg_rqport (s : State) (k n : Nat) : (s.zeroReg k n).rqport = s.rqport := rfl
@[simp] theorem State.zeroReg_rqdrop (s : State) (k n : Nat) : (s.zeroReg k n).rqdrop = s.rqdrop := rfl
@[simp] theorem State.zeroReg_elig (s : State) (k n : Nat) : (s.zeroReg k n).elig = s.elig := rfl
@[simp] theorem State.zeroReg_owState (s : State) (k n : Nat) : (s.zeroReg k n).owState = s.owState := rfl
@[simp] theorem State.zeroReg_owner (s : State) (k n : Nat) : (s.zeroReg k n).owner = s.owner := rfl
@[simp] theorem State.zeroReg_offerTgt (s : State) (k n : Nat) : (s.zeroReg k n).offerTgt = s.offerTgt := rfl
@[simp] theorem State.zeroReg_acceptWait (s : State) (k n : Nat) : (s.zeroReg k n).acceptWait = s.acceptWait := rfl
@[simp] theorem State.zeroReg_pathFail (s : State) (k n : Nat) : (s.zeroReg k n).pathFail = s.pathFail := rfl
@[simp] theorem State.zeroReg_dllUp (s : State) (k n : Nat) : (s.zeroReg k n).dllUp = s.dllUp := rfl
@[simp] theorem State.zeroReg_oclm (s : State) (k n : Nat) : (s.zeroReg k n).oclm = s.oclm := rfl
@[simp] theorem State.zeroReg_bootErr (s : State) (k n : Nat) : (s.zeroReg k n).bootErr = s.bootErr := rfl
@[simp] theorem State.zeroReg_bootCopy (s : State) (k n : Nat) : (s.zeroReg k n).bootCopy = s.bootCopy := rfl
@[simp] theorem State.zeroReg_bootPhase (s : State) (k n : Nat) : (s.zeroReg k n).bootPhase = s.bootPhase := rfl
@[simp] theorem State.zeroReg_failedStage (s : State) (k n : Nat) : (s.zeroReg k n).failedStage = s.failedStage := rfl
@[simp] theorem State.zeroReg_rgo (s : State) (k n : Nat) : (s.zeroReg k n).rgo = s.rgo := rfl
@[simp] theorem State.zeroReg_svn1 (s : State) (k n : Nat) : (s.zeroReg k n).svn1 = s.svn1 := rfl
@[simp] theorem State.zeroReg_svn2 (s : State) (k n : Nat) : (s.zeroReg k n).svn2 = s.svn2 := rfl
@[simp] theorem State.zeroReg_meas (s : State) (k n : Nat) : (s.zeroReg k n).meas = s.meas := rfl
@[simp] theorem State.zeroReg_flash (s : State) (k n : Nat) : (s.zeroReg k n).flash = s.flash := rfl
@[simp] theorem State.zeroReg_elog (s : State) (k n : Nat) : (s.zeroReg k n).elog = s.elog := rfl
@[simp] theorem State.zeroReg_elogt (s : State) (k n : Nat) : (s.zeroReg k n).elogt = s.elogt := rfl
@[simp] theorem State.zeroReg_mgport (s : State) (k n : Nat) : (s.zeroReg k n).mgport = s.mgport := rfl
@[simp] theorem State.zeroReg_rpa (s : State) (k n : Nat) : (s.zeroReg k n).rpa = s.rpa := rfl
@[simp] theorem State.zeroReg_linkUp (s : State) (k n : Nat) : (s.zeroReg k n).linkUp = s.linkUp := rfl
@[simp] theorem State.zeroReg_atctl (s : State) (k n : Nat) : (s.zeroReg k n).atctl = s.atctl := rfl
@[simp] theorem State.zeroReg_report (s : State) (k n : Nat) : (s.zeroReg k n).report = s.report := rfl
@[simp] theorem State.zeroReg_mig (s : State) (k n : Nat) : (s.zeroReg k n).mig = s.mig := rfl
@[simp] theorem State.zeroReg_ce (s : State) (k n : Nat) : (s.zeroReg k n).ce = s.ce := rfl
@[simp] theorem State.zeroReg_overPower (s : State) (k n : Nat) : (s.zeroReg k n).overPower = s.overPower := rfl
@[simp] theorem State.zeroReg_spares (s : State) (k n : Nat) : (s.zeroReg k n).spares = s.spares := rfl
@[simp] theorem State.zeroReg_frames (s : State) (k n : Nat) : (s.zeroReg k n).frames = s.frames := rfl
@[simp] theorem State.zeroReg_frags (s : State) (k n : Nat) : (s.zeroReg k n).frags = s.frags := rfl
@[simp] theorem State.zeroReg_inq (s : State) (k n : Nat) : (s.zeroReg k n).inq = s.inq := rfl
@[simp] theorem State.zeroReg_ownerWait (s : State) (k n : Nat) : (s.zeroReg k n).ownerWait = s.ownerWait := rfl
@[simp] theorem State.zeroReg_cores (s : State) (k n : Nat) : (s.zeroReg k n).cores = s.cores := rfl

/-! ## Thread.setS -/

@[simp] theorem Thread.setS_run (t : Thread) (n : BitVec 5) (v : Word) : (t.setS n v).run = t.run := by unfold Thread.setS; split <;> rfl
@[simp] theorem Thread.setS_ceHalted (t : Thread) (n : BitVec 5) (v : Word) : (t.setS n v).ceHalted = t.ceHalted := by unfold Thread.setS; split <;> rfl
@[simp] theorem Thread.setS_refused (t : Thread) (n : BitVec 5) (v : Word) : (t.setS n v).refused = t.refused := by unfold Thread.setS; split <;> rfl
@[simp] theorem Thread.setS_refAside (t : Thread) (n : BitVec 5) (v : Word) : (t.setS n v).refAside = t.refAside := by unfold Thread.setS; split <;> rfl
@[simp] theorem Thread.setS_fullSave (t : Thread) (n : BitVec 5) (v : Word) : (t.setS n v).fullSave = t.fullSave := by unfold Thread.setS; split <;> rfl
@[simp] theorem Thread.setS_waiting (t : Thread) (n : BitVec 5) (v : Word) : (t.setS n v).waiting = t.waiting := by unfold Thread.setS; split <;> rfl
@[simp] theorem Thread.setS_noFetch (t : Thread) (n : BitVec 5) (v : Word) : (t.setS n v).noFetch = t.noFetch := by unfold Thread.setS; split <;> rfl
@[simp] theorem Thread.setS_cut (t : Thread) (n : BitVec 5) (v : Word) : (t.setS n v).cut = t.cut := by unfold Thread.setS; split <;> rfl
@[simp] theorem Thread.setS_pc (t : Thread) (n : BitVec 5) (v : Word) : (t.setS n v).pc = t.pc := by unfold Thread.setS; split <;> rfl
@[simp] theorem Thread.setS_sup (t : Thread) (n : BitVec 5) (v : Word) : (t.setS n v).sup = t.sup := by unfold Thread.setS; split <;> rfl
@[simp] theorem Thread.setS_vl (t : Thread) (n : BitVec 5) (v : Word) : (t.setS n v).vl = t.vl := by unfold Thread.setS; split <;> rfl
@[simp] theorem Thread.setS_es (t : Thread) (n : BitVec 5) (v : Word) : (t.setS n v).es = t.es := by unfold Thread.setS; split <;> rfl
@[simp] theorem Thread.setS_trc (t : Thread) (n : BitVec 5) (v : Word) : (t.setS n v).trc = t.trc := by unfold Thread.setS; split <;> rfl
@[simp] theorem Thread.setS_tra (t : Thread) (n : BitVec 5) (v : Word) : (t.setS n v).tra = t.tra := by unfold Thread.setS; split <;> rfl
@[simp] theorem Thread.setS_vty (t : Thread) (n : BitVec 5) (v : Word) : (t.setS n v).vty = t.vty := by unfold Thread.setS; split <;> rfl
@[simp] theorem Thread.setS_tal (t : Thread) (n : BitVec 5) (v : Word) : (t.setS n v).tal = t.tal := by unfold Thread.setS; split <;> rfl
@[simp] theorem Thread.setS_tm (t : Thread) (n : BitVec 5) (v : Word) : (t.setS n v).tm = t.tm := by unfold Thread.setS; split <;> rfl
@[simp] theorem Thread.setS_tn (t : Thread) (n : BitVec 5) (v : Word) : (t.setS n v).tn = t.tn := by unfold Thread.setS; split <;> rfl
@[simp] theorem Thread.setS_tk (t : Thread) (n : BitVec 5) (v : Word) : (t.setS n v).tk = t.tk := by unfold Thread.setS; split <;> rfl
@[simp] theorem Thread.setS_fcs (t : Thread) (n : BitVec 5) (v : Word) : (t.setS n v).fcs = t.fcs := by unfold Thread.setS; split <;> rfl
@[simp] theorem Thread.setS_tcr (t : Thread) (n : BitVec 5) (v : Word) : (t.setS n v).tcr = t.tcr := by unfold Thread.setS; split <;> rfl
@[simp] theorem Thread.setS_rps (t : Thread) (n : BitVec 5) (v : Word) : (t.setS n v).rps = t.rps := by unfold Thread.setS; split <;> rfl
@[simp] theorem Thread.setS_skz (t : Thread) (n : BitVec 5) (v : Word) : (t.setS n v).skz = t.skz := by unfold Thread.setS; split <;> rfl
@[simp] theorem Thread.setS_wsel (t : Thread) (n : BitVec 5) (v : Word) : (t.setS n v).wsel = t.wsel := by unfold Thread.setS; split <;> rfl
@[simp] theorem Thread.setS_ncfg (t : Thread) (n : BitVec 5) (v : Word) : (t.setS n v).ncfg = t.ncfg := by unfold Thread.setS; split <;> rfl
@[simp] theorem Thread.setS_win (t : Thread) (n : BitVec 5) (v : Word) : (t.setS n v).win = t.win := by unfold Thread.setS; split <;> rfl
@[simp] theorem Thread.setS_cl (t : Thread) (n : BitVec 5) (v : Word) : (t.setS n v).cl = t.cl := by unfold Thread.setS; split <;> rfl
@[simp] theorem Thread.setS_tvb (t : Thread) (n : BitVec 5) (v : Word) : (t.setS n v).tvb = t.tvb := by unfold Thread.setS; split <;> rfl
@[simp] theorem Thread.setS_tca (t : Thread) (n : BitVec 5) (v : Word) : (t.setS n v).tca = t.tca := by unfold Thread.setS; split <;> rfl
@[simp] theorem Thread.setS_tpc (t : Thread) (n : BitVec 5) (v : Word) : (t.setS n v).tpc = t.tpc := by unfold Thread.setS; split <;> rfl
@[simp] theorem Thread.setS_tva (t : Thread) (n : BitVec 5) (v : Word) : (t.setS n v).tva = t.tva := by unfold Thread.setS; split <;> rfl
@[simp] theorem Thread.setS_atb (t : Thread) (n : BitVec 5) (v : Word) : (t.setS n v).atb = t.atb := by unfold Thread.setS; split <;> rfl
@[simp] theorem Thread.setS_q0 (t : Thread) (n : BitVec 5) (v : Word) : (t.setS n v).q0 = t.q0 := by unfold Thread.setS; split <;> rfl
@[simp] theorem Thread.setS_q1 (t : Thread) (n : BitVec 5) (v : Word) : (t.setS n v).q1 = t.q1 := by unfold Thread.setS; split <;> rfl
@[simp] theorem Thread.setS_fromE (t : Thread) (n : BitVec 5) (v : Word) : (t.setS n v).fromE = t.fromE := by unfold Thread.setS; split <;> rfl
@[simp] theorem Thread.setS_fromW (t : Thread) (n : BitVec 5) (v : Word) : (t.setS n v).fromW = t.fromW := by unfold Thread.setS; split <;> rfl
@[simp] theorem Thread.setS_binds (t : Thread) (n : BitVec 5) (v : Word) : (t.setS n v).binds = t.binds := by unfold Thread.setS; split <;> rfl
@[simp] theorem Thread.setS_repBound (t : Thread) (n : BitVec 5) (v : Word) : (t.setS n v).repBound = t.repBound := by unfold Thread.setS; split <;> rfl
@[simp] theorem Thread.setS_repIx (t : Thread) (n : BitVec 5) (v : Word) : (t.setS n v).repIx = t.repIx := by unfold Thread.setS; split <;> rfl
@[simp] theorem Thread.setS_lookup (t : Thread) (n : BitVec 5) (v : Word) : (t.setS n v).lookup = t.lookup := by unfold Thread.setS; split <;> rfl
@[simp] theorem Thread.setS_tl (t : Thread) (n : BitVec 5) (v : Word) : (t.setS n v).tl = t.tl := by unfold Thread.setS; split <;> rfl
@[simp] theorem Thread.setS_short (t : Thread) (n : BitVec 5) (v : Word) : (t.setS n v).short = t.short := by unfold Thread.setS; split <;> rfl
@[simp] theorem Thread.setS_lq (t : Thread) (n : BitVec 5) (v : Word) : (t.setS n v).lq = t.lq := by unfold Thread.setS; split <;> rfl
@[simp] theorem Thread.setS_lrec (t : Thread) (n : BitVec 5) (v : Word) : (t.setS n v).lrec = t.lrec := by unfold Thread.setS; split <;> rfl
@[simp] theorem Thread.setS_iter (t : Thread) (n : BitVec 5) (v : Word) : (t.setS n v).iter = t.iter := by unfold Thread.setS; split <;> rfl
@[simp] theorem Thread.setS_debt (t : Thread) (n : BitVec 5) (v : Word) : (t.setS n v).debt = t.debt := by unfold Thread.setS; split <;> rfl
@[simp] theorem Thread.setS_fseq (t : Thread) (n : BitVec 5) (v : Word) : (t.setS n v).fseq = t.fseq := by unfold Thread.setS; split <;> rfl
@[simp] theorem Thread.setS_fOwner (t : Thread) (n : BitVec 5) (v : Word) : (t.setS n v).fOwner = t.fOwner := by unfold Thread.setS; split <;> rfl
@[simp] theorem Thread.setS_lastFault (t : Thread) (n : BitVec 5) (v : Word) : (t.setS n v).lastFault = t.lastFault := by unfold Thread.setS; split <;> rfl
@[simp] theorem Thread.setS_toPost (t : Thread) (n : BitVec 5) (v : Word) : (t.setS n v).toPost = t.toPost := by unfold Thread.setS; split <;> rfl
@[simp] theorem Thread.setS_replay (t : Thread) (n : BitVec 5) (v : Word) : (t.setS n v).replay = t.replay := by unfold Thread.setS; split <;> rfl
@[simp] theorem Thread.setS_leave (t : Thread) (n : BitVec 5) (v : Word) : (t.setS n v).leave = t.leave := by unfold Thread.setS; split <;> rfl
@[simp] theorem Thread.setS_leaveAsked (t : Thread) (n : BitVec 5) (v : Word) : (t.setS n v).leaveAsked = t.leaveAsked := by unfold Thread.setS; split <;> rfl
@[simp] theorem Thread.setS_barrier (t : Thread) (n : BitVec 5) (v : Word) : (t.setS n v).barrier = t.barrier := by unfold Thread.setS; split <;> rfl
@[simp] theorem Thread.setS_fwd (t : Thread) (n : BitVec 5) (v : Word) : (t.setS n v).fwd = t.fwd := by unfold Thread.setS; split <;> rfl
@[simp] theorem Thread.setS_fwdBar (t : Thread) (n : BitVec 5) (v : Word) : (t.setS n v).fwdBar = t.fwdBar := by unfold Thread.setS; split <;> rfl
@[simp] theorem Thread.setS_obNext (t : Thread) (n : BitVec 5) (v : Word) : (t.setS n v).obNext = t.obNext := by unfold Thread.setS; split <;> rfl
@[simp] theorem Thread.setS_vq (t : Thread) (n : BitVec 5) (v : Word) : (t.setS n v).vq = t.vq := by unfold Thread.setS; split <;> rfl

/-! ## Thread.addFlags -/

@[simp] theorem Thread.addFlags_run (t : Thread) (e : Exc) : (t.addFlags e).run = t.run := rfl
@[simp] theorem Thread.addFlags_ceHalted (t : Thread) (e : Exc) : (t.addFlags e).ceHalted = t.ceHalted := rfl
@[simp] theorem Thread.addFlags_refused (t : Thread) (e : Exc) : (t.addFlags e).refused = t.refused := rfl
@[simp] theorem Thread.addFlags_refAside (t : Thread) (e : Exc) : (t.addFlags e).refAside = t.refAside := rfl
@[simp] theorem Thread.addFlags_fullSave (t : Thread) (e : Exc) : (t.addFlags e).fullSave = t.fullSave := rfl
@[simp] theorem Thread.addFlags_waiting (t : Thread) (e : Exc) : (t.addFlags e).waiting = t.waiting := rfl
@[simp] theorem Thread.addFlags_noFetch (t : Thread) (e : Exc) : (t.addFlags e).noFetch = t.noFetch := rfl
@[simp] theorem Thread.addFlags_cut (t : Thread) (e : Exc) : (t.addFlags e).cut = t.cut := rfl
@[simp] theorem Thread.addFlags_pc (t : Thread) (e : Exc) : (t.addFlags e).pc = t.pc := rfl
@[simp] theorem Thread.addFlags_sup (t : Thread) (e : Exc) : (t.addFlags e).sup = t.sup := rfl
@[simp] theorem Thread.addFlags_s (t : Thread) (e : Exc) : (t.addFlags e).s = t.s := rfl
@[simp] theorem Thread.addFlags_vl (t : Thread) (e : Exc) : (t.addFlags e).vl = t.vl := rfl
@[simp] theorem Thread.addFlags_es (t : Thread) (e : Exc) : (t.addFlags e).es = t.es := rfl
@[simp] theorem Thread.addFlags_trc (t : Thread) (e : Exc) : (t.addFlags e).trc = t.trc := rfl
@[simp] theorem Thread.addFlags_tra (t : Thread) (e : Exc) : (t.addFlags e).tra = t.tra := rfl
@[simp] theorem Thread.addFlags_vty (t : Thread) (e : Exc) : (t.addFlags e).vty = t.vty := rfl
@[simp] theorem Thread.addFlags_tal (t : Thread) (e : Exc) : (t.addFlags e).tal = t.tal := rfl
@[simp] theorem Thread.addFlags_tm (t : Thread) (e : Exc) : (t.addFlags e).tm = t.tm := rfl
@[simp] theorem Thread.addFlags_tn (t : Thread) (e : Exc) : (t.addFlags e).tn = t.tn := rfl
@[simp] theorem Thread.addFlags_tk (t : Thread) (e : Exc) : (t.addFlags e).tk = t.tk := rfl
@[simp] theorem Thread.addFlags_fcs (t : Thread) (e : Exc) : (t.addFlags e).fcs = t.fcs ||| (e.zeroExtend 64 <<< 8) := rfl
@[simp] theorem Thread.addFlags_tcr (t : Thread) (e : Exc) : (t.addFlags e).tcr = t.tcr := rfl
@[simp] theorem Thread.addFlags_rps (t : Thread) (e : Exc) : (t.addFlags e).rps = t.rps := rfl
@[simp] theorem Thread.addFlags_skz (t : Thread) (e : Exc) : (t.addFlags e).skz = t.skz := rfl
@[simp] theorem Thread.addFlags_wsel (t : Thread) (e : Exc) : (t.addFlags e).wsel = t.wsel := rfl
@[simp] theorem Thread.addFlags_ncfg (t : Thread) (e : Exc) : (t.addFlags e).ncfg = t.ncfg := rfl
@[simp] theorem Thread.addFlags_win (t : Thread) (e : Exc) : (t.addFlags e).win = t.win := rfl
@[simp] theorem Thread.addFlags_cl (t : Thread) (e : Exc) : (t.addFlags e).cl = t.cl := rfl
@[simp] theorem Thread.addFlags_tvb (t : Thread) (e : Exc) : (t.addFlags e).tvb = t.tvb := rfl
@[simp] theorem Thread.addFlags_tca (t : Thread) (e : Exc) : (t.addFlags e).tca = t.tca := rfl
@[simp] theorem Thread.addFlags_tpc (t : Thread) (e : Exc) : (t.addFlags e).tpc = t.tpc := rfl
@[simp] theorem Thread.addFlags_tva (t : Thread) (e : Exc) : (t.addFlags e).tva = t.tva := rfl
@[simp] theorem Thread.addFlags_atb (t : Thread) (e : Exc) : (t.addFlags e).atb = t.atb := rfl
@[simp] theorem Thread.addFlags_q0 (t : Thread) (e : Exc) : (t.addFlags e).q0 = t.q0 := rfl
@[simp] theorem Thread.addFlags_q1 (t : Thread) (e : Exc) : (t.addFlags e).q1 = t.q1 := rfl
@[simp] theorem Thread.addFlags_fromE (t : Thread) (e : Exc) : (t.addFlags e).fromE = t.fromE := rfl
@[simp] theorem Thread.addFlags_fromW (t : Thread) (e : Exc) : (t.addFlags e).fromW = t.fromW := rfl
@[simp] theorem Thread.addFlags_binds (t : Thread) (e : Exc) : (t.addFlags e).binds = t.binds := rfl
@[simp] theorem Thread.addFlags_repBound (t : Thread) (e : Exc) : (t.addFlags e).repBound = t.repBound := rfl
@[simp] theorem Thread.addFlags_repIx (t : Thread) (e : Exc) : (t.addFlags e).repIx = t.repIx := rfl
@[simp] theorem Thread.addFlags_lookup (t : Thread) (e : Exc) : (t.addFlags e).lookup = t.lookup := rfl
@[simp] theorem Thread.addFlags_tl (t : Thread) (e : Exc) : (t.addFlags e).tl = t.tl := rfl
@[simp] theorem Thread.addFlags_short (t : Thread) (e : Exc) : (t.addFlags e).short = t.short := rfl
@[simp] theorem Thread.addFlags_lq (t : Thread) (e : Exc) : (t.addFlags e).lq = t.lq := rfl
@[simp] theorem Thread.addFlags_lrec (t : Thread) (e : Exc) : (t.addFlags e).lrec = t.lrec := rfl
@[simp] theorem Thread.addFlags_iter (t : Thread) (e : Exc) : (t.addFlags e).iter = t.iter := rfl
@[simp] theorem Thread.addFlags_debt (t : Thread) (e : Exc) : (t.addFlags e).debt = t.debt := rfl
@[simp] theorem Thread.addFlags_fseq (t : Thread) (e : Exc) : (t.addFlags e).fseq = t.fseq := rfl
@[simp] theorem Thread.addFlags_fOwner (t : Thread) (e : Exc) : (t.addFlags e).fOwner = t.fOwner := rfl
@[simp] theorem Thread.addFlags_lastFault (t : Thread) (e : Exc) : (t.addFlags e).lastFault = t.lastFault := rfl
@[simp] theorem Thread.addFlags_toPost (t : Thread) (e : Exc) : (t.addFlags e).toPost = t.toPost := rfl
@[simp] theorem Thread.addFlags_replay (t : Thread) (e : Exc) : (t.addFlags e).replay = t.replay := rfl
@[simp] theorem Thread.addFlags_leave (t : Thread) (e : Exc) : (t.addFlags e).leave = t.leave := rfl
@[simp] theorem Thread.addFlags_leaveAsked (t : Thread) (e : Exc) : (t.addFlags e).leaveAsked = t.leaveAsked := rfl
@[simp] theorem Thread.addFlags_barrier (t : Thread) (e : Exc) : (t.addFlags e).barrier = t.barrier := rfl
@[simp] theorem Thread.addFlags_fwd (t : Thread) (e : Exc) : (t.addFlags e).fwd = t.fwd := rfl
@[simp] theorem Thread.addFlags_fwdBar (t : Thread) (e : Exc) : (t.addFlags e).fwdBar = t.fwdBar := rfl
@[simp] theorem Thread.addFlags_obNext (t : Thread) (e : Exc) : (t.addFlags e).obNext = t.obNext := rfl
@[simp] theorem Thread.addFlags_vq (t : Thread) (e : Exc) : (t.addFlags e).vq = t.vq := rfl

/-! ## Thread.enterTrap -/

@[simp] theorem Thread.enterTrap_run (t : Thread) (c u : Nat) (v : Word) : (t.enterTrap c u v).run = t.run := rfl
@[simp] theorem Thread.enterTrap_ceHalted (t : Thread) (c u : Nat) (v : Word) : (t.enterTrap c u v).ceHalted = t.ceHalted := rfl
@[simp] theorem Thread.enterTrap_refused (t : Thread) (c u : Nat) (v : Word) : (t.enterTrap c u v).refused = t.refused := rfl
@[simp] theorem Thread.enterTrap_refAside (t : Thread) (c u : Nat) (v : Word) : (t.enterTrap c u v).refAside = t.refAside := rfl
@[simp] theorem Thread.enterTrap_fullSave (t : Thread) (c u : Nat) (v : Word) : (t.enterTrap c u v).fullSave = t.fullSave := rfl
@[simp] theorem Thread.enterTrap_waiting (t : Thread) (c u : Nat) (v : Word) : (t.enterTrap c u v).waiting = t.waiting := rfl
@[simp] theorem Thread.enterTrap_noFetch (t : Thread) (c u : Nat) (v : Word) : (t.enterTrap c u v).noFetch = t.noFetch := rfl
@[simp] theorem Thread.enterTrap_cut (t : Thread) (c u : Nat) (v : Word) : (t.enterTrap c u v).cut = t.cut := rfl
@[simp] theorem Thread.enterTrap_pc (t : Thread) (c u : Nat) (v : Word) : (t.enterTrap c u v).pc = t.tvb &&& ~~~3 := rfl
@[simp] theorem Thread.enterTrap_sup (t : Thread) (c u : Nat) (v : Word) : (t.enterTrap c u v).sup = true := rfl
@[simp] theorem Thread.enterTrap_s (t : Thread) (c u : Nat) (v : Word) : (t.enterTrap c u v).s = t.s := rfl
@[simp] theorem Thread.enterTrap_vl (t : Thread) (c u : Nat) (v : Word) : (t.enterTrap c u v).vl = t.vl := rfl
@[simp] theorem Thread.enterTrap_es (t : Thread) (c u : Nat) (v : Word) : (t.enterTrap c u v).es = t.es := rfl
@[simp] theorem Thread.enterTrap_trc (t : Thread) (c u : Nat) (v : Word) : (t.enterTrap c u v).trc = t.trc := rfl
@[simp] theorem Thread.enterTrap_tra (t : Thread) (c u : Nat) (v : Word) : (t.enterTrap c u v).tra = t.tra := rfl
@[simp] theorem Thread.enterTrap_vty (t : Thread) (c u : Nat) (v : Word) : (t.enterTrap c u v).vty = t.vty := rfl
@[simp] theorem Thread.enterTrap_tal (t : Thread) (c u : Nat) (v : Word) : (t.enterTrap c u v).tal = t.tal := rfl
@[simp] theorem Thread.enterTrap_tm (t : Thread) (c u : Nat) (v : Word) : (t.enterTrap c u v).tm = t.tm := rfl
@[simp] theorem Thread.enterTrap_tn (t : Thread) (c u : Nat) (v : Word) : (t.enterTrap c u v).tn = t.tn := rfl
@[simp] theorem Thread.enterTrap_tk (t : Thread) (c u : Nat) (v : Word) : (t.enterTrap c u v).tk = t.tk := rfl
@[simp] theorem Thread.enterTrap_fcs (t : Thread) (c u : Nat) (v : Word) : (t.enterTrap c u v).fcs = t.fcs := rfl
@[simp] theorem Thread.enterTrap_tcr (t : Thread) (c u : Nat) (v : Word) : (t.enterTrap c u v).tcr = t.tcr := rfl
@[simp] theorem Thread.enterTrap_rps (t : Thread) (c u : Nat) (v : Word) : (t.enterTrap c u v).rps = t.rps := rfl
@[simp] theorem Thread.enterTrap_skz (t : Thread) (c u : Nat) (v : Word) : (t.enterTrap c u v).skz = t.skz := rfl
@[simp] theorem Thread.enterTrap_wsel (t : Thread) (c u : Nat) (v : Word) : (t.enterTrap c u v).wsel = t.wsel := rfl
@[simp] theorem Thread.enterTrap_ncfg (t : Thread) (c u : Nat) (v : Word) : (t.enterTrap c u v).ncfg = t.ncfg := rfl
@[simp] theorem Thread.enterTrap_win (t : Thread) (c u : Nat) (v : Word) : (t.enterTrap c u v).win = t.win := rfl
@[simp] theorem Thread.enterTrap_cl (t : Thread) (c u : Nat) (v : Word) : (t.enterTrap c u v).cl = t.cl := rfl
@[simp] theorem Thread.enterTrap_tvb (t : Thread) (c u : Nat) (v : Word) : (t.enterTrap c u v).tvb = t.tvb := rfl
@[simp] theorem Thread.enterTrap_tva (t : Thread) (c u : Nat) (v : Word) : (t.enterTrap c u v).tva = v := rfl
@[simp] theorem Thread.enterTrap_atb (t : Thread) (c u : Nat) (v : Word) : (t.enterTrap c u v).atb = t.atb := rfl
@[simp] theorem Thread.enterTrap_q0 (t : Thread) (c u : Nat) (v : Word) : (t.enterTrap c u v).q0 = t.q0 := rfl
@[simp] theorem Thread.enterTrap_q1 (t : Thread) (c u : Nat) (v : Word) : (t.enterTrap c u v).q1 = t.q1 := rfl
@[simp] theorem Thread.enterTrap_fromE (t : Thread) (c u : Nat) (v : Word) : (t.enterTrap c u v).fromE = t.fromE := rfl
@[simp] theorem Thread.enterTrap_fromW (t : Thread) (c u : Nat) (v : Word) : (t.enterTrap c u v).fromW = t.fromW := rfl
@[simp] theorem Thread.enterTrap_binds (t : Thread) (c u : Nat) (v : Word) : (t.enterTrap c u v).binds = t.binds := rfl
@[simp] theorem Thread.enterTrap_repBound (t : Thread) (c u : Nat) (v : Word) : (t.enterTrap c u v).repBound = t.repBound := rfl
@[simp] theorem Thread.enterTrap_repIx (t : Thread) (c u : Nat) (v : Word) : (t.enterTrap c u v).repIx = t.repIx := rfl
@[simp] theorem Thread.enterTrap_lookup (t : Thread) (c u : Nat) (v : Word) : (t.enterTrap c u v).lookup = t.lookup := rfl
@[simp] theorem Thread.enterTrap_tl (t : Thread) (c u : Nat) (v : Word) : (t.enterTrap c u v).tl = t.tl := rfl
@[simp] theorem Thread.enterTrap_short (t : Thread) (c u : Nat) (v : Word) : (t.enterTrap c u v).short = t.short := rfl
@[simp] theorem Thread.enterTrap_lq (t : Thread) (c u : Nat) (v : Word) : (t.enterTrap c u v).lq = t.lq := rfl
@[simp] theorem Thread.enterTrap_lrec (t : Thread) (c u : Nat) (v : Word) : (t.enterTrap c u v).lrec = t.lrec := rfl
@[simp] theorem Thread.enterTrap_iter (t : Thread) (c u : Nat) (v : Word) : (t.enterTrap c u v).iter = t.iter := rfl
@[simp] theorem Thread.enterTrap_debt (t : Thread) (c u : Nat) (v : Word) : (t.enterTrap c u v).debt = t.debt := rfl
@[simp] theorem Thread.enterTrap_fseq (t : Thread) (c u : Nat) (v : Word) : (t.enterTrap c u v).fseq = t.fseq := rfl
@[simp] theorem Thread.enterTrap_fOwner (t : Thread) (c u : Nat) (v : Word) : (t.enterTrap c u v).fOwner = t.fOwner := rfl
@[simp] theorem Thread.enterTrap_lastFault (t : Thread) (c u : Nat) (v : Word) : (t.enterTrap c u v).lastFault = t.lastFault := rfl
@[simp] theorem Thread.enterTrap_toPost (t : Thread) (c u : Nat) (v : Word) : (t.enterTrap c u v).toPost = t.toPost := rfl
@[simp] theorem Thread.enterTrap_replay (t : Thread) (c u : Nat) (v : Word) : (t.enterTrap c u v).replay = t.replay := rfl
@[simp] theorem Thread.enterTrap_leave (t : Thread) (c u : Nat) (v : Word) : (t.enterTrap c u v).leave = t.leave := rfl
@[simp] theorem Thread.enterTrap_leaveAsked (t : Thread) (c u : Nat) (v : Word) : (t.enterTrap c u v).leaveAsked = t.leaveAsked := rfl
@[simp] theorem Thread.enterTrap_barrier (t : Thread) (c u : Nat) (v : Word) : (t.enterTrap c u v).barrier = t.barrier := rfl
@[simp] theorem Thread.enterTrap_fwd (t : Thread) (c u : Nat) (v : Word) : (t.enterTrap c u v).fwd = t.fwd := rfl
@[simp] theorem Thread.enterTrap_fwdBar (t : Thread) (c u : Nat) (v : Word) : (t.enterTrap c u v).fwdBar = t.fwdBar := rfl
@[simp] theorem Thread.enterTrap_obNext (t : Thread) (c u : Nat) (v : Word) : (t.enterTrap c u v).obNext = t.obNext := rfl
@[simp] theorem Thread.enterTrap_vq (t : Thread) (c u : Nat) (v : Word) : (t.enterTrap c u v).vq = t.vq := rfl

/-! ## Thread.tret -/

@[simp] theorem Thread.tret_run (t : Thread) : t.tret.run = t.run := rfl
@[simp] theorem Thread.tret_ceHalted (t : Thread) : t.tret.ceHalted = t.ceHalted := rfl
@[simp] theorem Thread.tret_refused (t : Thread) : t.tret.refused = t.refused := rfl
@[simp] theorem Thread.tret_refAside (t : Thread) : t.tret.refAside = t.refAside := rfl
@[simp] theorem Thread.tret_fullSave (t : Thread) : t.tret.fullSave = t.fullSave := rfl
@[simp] theorem Thread.tret_waiting (t : Thread) : t.tret.waiting = t.waiting := rfl
@[simp] theorem Thread.tret_noFetch (t : Thread) : t.tret.noFetch = t.noFetch := rfl
@[simp] theorem Thread.tret_cut (t : Thread) : t.tret.cut = t.cut := rfl
@[simp] theorem Thread.tret_pc (t : Thread) : t.tret.pc = t.tpc &&& ~~~3 := rfl
@[simp] theorem Thread.tret_sup (t : Thread) : t.tret.sup = t.tca.getLsbD 16 := rfl
@[simp] theorem Thread.tret_s (t : Thread) : t.tret.s = t.s := rfl
@[simp] theorem Thread.tret_vl (t : Thread) : t.tret.vl = t.vl := rfl
@[simp] theorem Thread.tret_es (t : Thread) : t.tret.es = t.es := rfl
@[simp] theorem Thread.tret_trc (t : Thread) : t.tret.trc = t.trc := rfl
@[simp] theorem Thread.tret_tra (t : Thread) : t.tret.tra = t.tra := rfl
@[simp] theorem Thread.tret_vty (t : Thread) : t.tret.vty = t.vty := rfl
@[simp] theorem Thread.tret_tal (t : Thread) : t.tret.tal = t.tal := rfl
@[simp] theorem Thread.tret_tm (t : Thread) : t.tret.tm = t.tm := rfl
@[simp] theorem Thread.tret_tn (t : Thread) : t.tret.tn = t.tn := rfl
@[simp] theorem Thread.tret_tk (t : Thread) : t.tret.tk = t.tk := rfl
@[simp] theorem Thread.tret_fcs (t : Thread) : t.tret.fcs = t.fcs := rfl
@[simp] theorem Thread.tret_tcr (t : Thread) : t.tret.tcr = t.tcr := rfl
@[simp] theorem Thread.tret_rps (t : Thread) : t.tret.rps = t.rps := rfl
@[simp] theorem Thread.tret_skz (t : Thread) : t.tret.skz = t.skz := rfl
@[simp] theorem Thread.tret_wsel (t : Thread) : t.tret.wsel = t.wsel := rfl
@[simp] theorem Thread.tret_ncfg (t : Thread) : t.tret.ncfg = t.ncfg := rfl
@[simp] theorem Thread.tret_win (t : Thread) : t.tret.win = t.win := rfl
@[simp] theorem Thread.tret_cl (t : Thread) : t.tret.cl = t.cl := rfl
@[simp] theorem Thread.tret_tvb (t : Thread) : t.tret.tvb = t.tvb := rfl
@[simp] theorem Thread.tret_tca (t : Thread) : t.tret.tca = t.tca &&& ~~~(w64 (2 ^ 17)) := rfl
@[simp] theorem Thread.tret_tpc (t : Thread) : t.tret.tpc = t.tpc := rfl
@[simp] theorem Thread.tret_tva (t : Thread) : t.tret.tva = t.tva := rfl
@[simp] theorem Thread.tret_atb (t : Thread) : t.tret.atb = t.atb := rfl
@[simp] theorem Thread.tret_q0 (t : Thread) : t.tret.q0 = t.q0 := rfl
@[simp] theorem Thread.tret_q1 (t : Thread) : t.tret.q1 = t.q1 := rfl
@[simp] theorem Thread.tret_fromE (t : Thread) : t.tret.fromE = t.fromE := rfl
@[simp] theorem Thread.tret_fromW (t : Thread) : t.tret.fromW = t.fromW := rfl
@[simp] theorem Thread.tret_binds (t : Thread) : t.tret.binds = t.binds := rfl
@[simp] theorem Thread.tret_repBound (t : Thread) : t.tret.repBound = t.repBound := rfl
@[simp] theorem Thread.tret_repIx (t : Thread) : t.tret.repIx = t.repIx := rfl
@[simp] theorem Thread.tret_lookup (t : Thread) : t.tret.lookup = t.lookup := rfl
@[simp] theorem Thread.tret_tl (t : Thread) : t.tret.tl = t.tl := rfl
@[simp] theorem Thread.tret_short (t : Thread) : t.tret.short = t.short := rfl
@[simp] theorem Thread.tret_lq (t : Thread) : t.tret.lq = t.lq := rfl
@[simp] theorem Thread.tret_lrec (t : Thread) : t.tret.lrec = t.lrec := rfl
@[simp] theorem Thread.tret_iter (t : Thread) : t.tret.iter = t.iter := rfl
@[simp] theorem Thread.tret_debt (t : Thread) : t.tret.debt = t.debt := rfl
@[simp] theorem Thread.tret_fseq (t : Thread) : t.tret.fseq = t.fseq := rfl
@[simp] theorem Thread.tret_fOwner (t : Thread) : t.tret.fOwner = t.fOwner := rfl
@[simp] theorem Thread.tret_lastFault (t : Thread) : t.tret.lastFault = none := rfl
@[simp] theorem Thread.tret_toPost (t : Thread) : t.tret.toPost = t.toPost := rfl
@[simp] theorem Thread.tret_replay (t : Thread) : t.tret.replay = t.replay := rfl
@[simp] theorem Thread.tret_leave (t : Thread) : t.tret.leave = t.leave := rfl
@[simp] theorem Thread.tret_leaveAsked (t : Thread) : t.tret.leaveAsked = t.leaveAsked := rfl
@[simp] theorem Thread.tret_barrier (t : Thread) : t.tret.barrier = t.barrier := rfl
@[simp] theorem Thread.tret_fwd (t : Thread) : t.tret.fwd = t.fwd := rfl
@[simp] theorem Thread.tret_fwdBar (t : Thread) : t.tret.fwdBar = t.fwdBar := rfl
@[simp] theorem Thread.tret_obNext (t : Thread) : t.tret.obNext = t.obNext := rfl
@[simp] theorem Thread.tret_vq (t : Thread) : t.tret.vq = t.vq := rfl

end Sys2Proof.Machine
end

