-- ==== Sys2Proof/Laws/Store.lean ====
section
/-! SUPPORT. The laws of the sparse stores: reading after writing, and the canonical form that every write keeps. -/

namespace Sys2Proof.Machine

/-! ## Records by key -/

theorem mapGet_mapPut_self {α : Type} (d : α) (k : Nat) (v : α) (l : List (Nat × α)) : mapGet d (mapPut k v l) k = v := by
  induction l with
  | nil => simp [mapPut, mapGet]
  | cons e t ih =>
    obtain ⟨k', v'⟩ := e
    unfold mapPut
    split
    · simp [mapGet]
    · split
      · simp [mapGet]
      · rename_i h; simp [mapGet, h, ih]

theorem mapGet_mapPut_ne {α : Type} (d : α) (k j : Nat) (v : α) (l : List (Nat × α)) (h : j ≠ k) :
    mapGet d (mapPut k v l) j = mapGet d l j := by
  induction l with
  | nil => simp [mapPut, mapGet, h]
  | cons e t ih =>
    obtain ⟨k', v'⟩ := e
    unfold mapPut
    split
    · simp [mapGet, h]
    · split
      · rename_i e; subst e; simp [mapGet, h]
      · simp [mapGet, ih]

theorem mapPut_mapPut {α : Type} (k : Nat) (v w : α) (l : List (Nat × α)) : mapPut k w (mapPut k v l) = mapPut k w l := by
  induction l with
  | nil => simp [mapPut]
  | cons e t ih =>
    obtain ⟨k', v'⟩ := e
    by_cases h : k < k'
    · simp [mapPut, h]
    · by_cases e : k = k'
      · subst e; simp [mapPut]
      · simp [mapPut, h, e, ih]

theorem mapGet_mapDel_self {α : Type} (d : α) (k : Nat) (l : List (Nat × α)) : mapGet d (mapDel k l) k = d := by
  induction l with
  | nil => rfl
  | cons e t ih =>
    obtain ⟨k', v'⟩ := e
    unfold mapDel at *
    by_cases h : k' = k
    · subst h; simpa using ih
    · have h' : ¬ k = k' := fun e => h e.symm
      simp [h, mapGet, h', ih]

theorem mapGet_mapDel_ne {α : Type} (d : α) (k j : Nat) (l : List (Nat × α)) (h : j ≠ k) :
    mapGet d (mapDel k l) j = mapGet d l j := by
  induction l with
  | nil => rfl
  | cons e t ih =>
    obtain ⟨k', v'⟩ := e
    unfold mapDel at *
    by_cases e : k' = k
    · subst e; simp [mapGet, h, ih]
    · simp [e, mapGet, ih]

@[simp] theorem State.th_setTh (s : State) (n : Nat) (t : Thread) : (s.setTh n t).th n = t := mapGet_mapPut_self ..
theorem State.th_setTh_ne (s : State) (n k : Nat) (t : Thread) (h : k ≠ n) : (s.setTh n t).th k = s.th k := mapGet_mapPut_ne _ _ _ _ _ h
@[simp] theorem State.setTh_setTh (s : State) (n : Nat) (t u : Thread) : (s.setTh n t).setTh n u = s.setTh n u := by
  simp [State.setTh, mapPut_mapPut]
@[simp] theorem State.tid_setTh (s : State) (n : Nat) (t : Thread) : (s.setTh n t).tid = s.tid := rfl
@[simp] theorem State.tid_setMe (s : State) (t : Thread) : (s.setMe t).tid = s.tid := rfl
@[simp] theorem State.me_setMe (s : State) (t : Thread) : (s.setMe t).me = t := mapGet_mapPut_self ..
@[simp] theorem State.th_setMe (s : State) (t : Thread) : (s.setMe t).th s.tid = t := mapGet_mapPut_self ..
theorem State.th_setMe_ne (s : State) (k : Nat) (t : Thread) (h : k ≠ s.tid) : (s.setMe t).th k = s.th k := mapGet_mapPut_ne _ _ _ _ _ h
@[simp] theorem State.setMe_setMe (s : State) (t u : Thread) : (s.setMe t).setMe u = s.setMe u := by
  simp [State.setMe]
@[simp] theorem State.pair_setPair (s : State) (n : Nat) (p : Pair) : (s.setPair n p).pair n = p := mapGet_mapPut_self ..
@[simp] theorem State.part_setPart (s : State) (n : Nat) (p : Part) : (s.setPart n p).part n = p := mapGet_mapPut_self ..
@[simp] theorem State.die_setDie (s : State) (n : Nat) (d : Die) : (s.setDie n d).die n = d := mapGet_mapPut_self ..
theorem State.pair_setPair_ne (s : State) (n k : Nat) (p : Pair) (h : k ≠ n) : (s.setPair n p).pair k = s.pair k := mapGet_mapPut_ne _ _ _ _ _ h
theorem State.part_setPart_ne (s : State) (n k : Nat) (p : Part) (h : k ≠ n) : (s.setPart n p).part k = s.part k := mapGet_mapPut_ne _ _ _ _ _ h

/-! What a thread's update leaves as read. -/
@[simp] theorem State.pair_setMe (s : State) (t : Thread) (n : Nat) : (s.setMe t).pair n = s.pair n := rfl
@[simp] theorem State.part_setMe (s : State) (t : Thread) (n : Nat) : (s.setMe t).part n = s.part n := rfl
@[simp] theorem State.die_setMe (s : State) (t : Thread) (n : Nat) : (s.setMe t).die n = s.die n := rfl
@[simp] theorem State.byte_setMe (s : State) (t : Thread) (a : Nat) : (s.setMe t).byte a = s.byte a := rfl
@[simp] theorem State.bytes_setMe (s : State) (t : Thread) (a n : Nat) : (s.setMe t).bytes a n = s.bytes a n := rfl
@[simp] theorem State.word_setMe (s : State) (t : Thread) (a : Nat) : (s.setMe t).word a = s.word a := rfl
@[simp] theorem State.region_setMe (s : State) (t : Thread) (a : Nat) : (s.setMe t).region a = s.region a := rfl
@[simp] theorem State.held_setMe (s : State) (t : Thread) (n : Nat) : (s.setMe t).held n = s.held n := rfl
@[simp] theorem State.lanesOf_setMe (s : State) (t : Thread) (n : Nat) : (s.setMe t).lanesOf n = s.lanesOf n := rfl
@[simp] theorem State.elem_setMe (s : State) (t : Thread) (x : Lanes) (o : Operand) (i : Nat) : (s.setMe t).elem x o i = s.elem x o i := rfl

/-! ## Byte stores -/

theorem cellGet_cellPut_self (m : List Host.Cell) (a : Nat) (b : Byte) : cellGet (cellPut m a b) a = b := by
  unfold cellPut cellGet
  split
  · rename_i h; rw [mapGet_mapDel_self, h]
  · exact mapGet_mapPut_self ..

theorem cellGet_cellPut_ne (m : List Host.Cell) (a c : Nat) (b : Byte) (h : c ≠ a) : cellGet (cellPut m a b) c = cellGet m c := by
  unfold cellPut cellGet
  split
  · exact mapGet_mapDel_ne _ _ _ _ h
  · exact mapGet_mapPut_ne _ _ _ _ _ h

/-- A byte outside the written range reads as before. -/
theorem cellGet_cellsPut_out (bs : List Byte) (m : List Host.Cell) (a c : Nat) (h : c < a ∨ a + bs.length ≤ c) :
    cellGet (cellsPut m a bs) c = cellGet m c := by
  induction bs generalizing m a with
  | nil => rfl
  | cons b t ih =>
    have hl : (b :: t).length = t.length + 1 := rfl
    rw [cellsPut, ih _ _ (by omega), cellGet_cellPut_ne _ _ _ _ (by omega)]

/-- A byte inside the written range reads as written. -/
theorem cellGet_cellsPut_in (bs : List Byte) (m : List Host.Cell) (a i : Nat) (h : i < bs.length) :
    cellGet (cellsPut m a bs) (a + i) = bs[i] := by
  induction bs generalizing m a i with
  | nil => simp at h
  | cons b t ih =>
    rw [cellsPut]
    cases i with
    | zero =>
      rw [cellGet_cellsPut_out _ _ _ _ (by omega)]
      exact cellGet_cellPut_self ..
    | succ i =>
      have h' : i < t.length := by simpa using h
      have e : a + (i + 1) = a + 1 + i := by omega
      rw [e, ih _ _ _ h']
      rfl

theorem cellsGet_length (m : List Host.Cell) (a n : Nat) : (cellsGet m a n).length = n := by simp [cellsGet]

/-- A read of exactly the written range gives the written bytes. -/
theorem cellsGet_cellsPut (bs : List Byte) (m : List Host.Cell) (a : Nat) : cellsGet (cellsPut m a bs) a bs.length = bs := by
  apply List.ext_getElem (by simp [cellsGet])
  intro i h1 h2
  simp only [cellsGet, List.getElem_map, List.getElem_range]
  exact cellGet_cellsPut_in _ _ _ _ h2

/-- A read that no written byte falls into gives what it gave before. -/
theorem cellsGet_cellsPut_out (bs : List Byte) (m : List Host.Cell) (a c n : Nat) (h : c + n ≤ a ∨ a + bs.length ≤ c) :
    cellsGet (cellsPut m a bs) c n = cellsGet m c n := by
  unfold cellsGet
  apply List.map_congr_left
  intro i hi
  have := List.mem_range.mp hi
  exact cellGet_cellsPut_out _ _ _ _ (by omega)

@[simp] theorem State.byte_putBytes_in (s : State) (a i : Nat) (bs : List Byte) (h : i < bs.length) : (s.putBytes a bs).byte (a + i) = bs[i] :=
  cellGet_cellsPut_in _ _ _ _ h
theorem State.byte_putBytes_out (s : State) (a c : Nat) (bs : List Byte) (h : c < a ∨ a + bs.length ≤ c) :
    (s.putBytes a bs).byte c = s.byte c := cellGet_cellsPut_out _ _ _ _ h

/-! ## Little-endian values -/

@[simp] theorem leBytes_length (n v : Nat) : (leBytes n v).length = n := by
  induction n generalizing v with
  | zero => rfl
  | succ n ih => simp [leBytes, ih]

theorem leNat_leBytes (n v : Nat) : leNat (leBytes n v) = v % 256 ^ n := by
  induction n generalizing v with
  | zero => simp [leBytes, leNat, Nat.mod_one]
  | succ n ih =>
    have e : (256 : Nat) ^ (n + 1) = 256 * 256 ^ n := by rw [Nat.pow_succ, Nat.mul_comm]
    rw [leBytes, leNat, ih, BitVec.toNat_ofNat, e, Nat.mod_mul]

/-! ## The canonical form -/

theorem cellsWf_iff (m : List Host.Cell) : cellsWf m = true ↔ m.Pairwise (fun x y => x.1 < y.1) ∧ ∀ c ∈ m, c.2 ≠ 0 := by
  induction m with
  | nil => simp [cellsWf]
  | cons c t ih =>
    obtain ⟨a, b⟩ := c
    cases t with
    | nil => simp [cellsWf]
    | cons c' t =>
      obtain ⟨a', b'⟩ := c'
      simp only [cellsWf, Bool.and_eq_true, ih, bne_iff_ne, ne_eq, decide_eq_true_eq]
      constructor
      · rintro ⟨⟨hb, hlt⟩, hp, hn⟩
        refine ⟨List.pairwise_cons.mpr ⟨?_, hp⟩, ?_⟩
        · intro c hc
          rcases List.mem_cons.mp hc with rfl | hc
          · exact hlt
          · exact Nat.lt_trans hlt ((List.pairwise_cons.mp hp).1 c hc)
        · intro c hc
          rcases List.mem_cons.mp hc with rfl | hc
          · exact hb
          · exact hn c hc
      · rintro ⟨hp, hn⟩
        have hp' := List.pairwise_cons.mp hp
        exact ⟨⟨hn (a, b) (by simp), hp'.1 (a', b') (by simp)⟩, hp'.2, fun c hc => hn c (List.mem_cons_of_mem _ hc)⟩

theorem cellsWf_filter (m : List Host.Cell) (f : Host.Cell → Bool) (h : cellsWf m = true) : cellsWf (m.filter f) = true := by
  rw [cellsWf_iff] at *
  exact ⟨h.1.filter _, fun c hc => h.2 c (List.mem_filter.mp hc).1⟩

theorem mem_mapPut {α : Type} (k : Nat) (v : α) (l : List (Nat × α)) (c : Nat × α) (h : c ∈ mapPut k v l) : c = (k, v) ∨ c ∈ l := by
  induction l with
  | nil => simpa [mapPut] using h
  | cons e t ih =>
    obtain ⟨k', v'⟩ := e
    unfold mapPut at h
    split at h
    · simpa using h
    · split at h
      · rcases List.mem_cons.mp h with h | h
        · exact .inl h
        · exact .inr (List.mem_cons_of_mem _ h)
      · rcases List.mem_cons.mp h with h | h
        · exact .inr (by simp [h])
        · exact (ih h).imp id (List.mem_cons_of_mem _)

theorem pairwise_mapPut {α : Type} (k : Nat) (v : α) (l : List (Nat × α)) (h : l.Pairwise (fun x y => x.1 < y.1)) :
    (mapPut k v l).Pairwise (fun x y => x.1 < y.1) := by
  induction l with
  | nil => simp [mapPut]
  | cons e t ih =>
    obtain ⟨k', v'⟩ := e
    have ⟨h1, h2⟩ := List.pairwise_cons.mp h
    unfold mapPut
    split
    · rename_i hk
      refine List.pairwise_cons.mpr ⟨fun c hc => ?_, h⟩
      rcases List.mem_cons.mp hc with rfl | hc
      · exact hk
      · exact Nat.lt_trans hk (h1 c hc)
    · split
      · rename_i e; subst e
        exact List.pairwise_cons.mpr ⟨h1, h2⟩
      · refine List.pairwise_cons.mpr ⟨fun c hc => ?_, ih h2⟩
        rcases mem_mapPut _ _ _ _ hc with rfl | hc
        · show k' < k; omega
        · exact h1 c hc

theorem cellsWf_cellPut (m : List Host.Cell) (a : Nat) (b : Byte) (h : cellsWf m = true) : cellsWf (cellPut m a b) = true := by
  unfold cellPut
  split
  · exact cellsWf_filter _ _ h
  · rename_i hb
    rw [cellsWf_iff] at *
    refine ⟨pairwise_mapPut _ _ _ h.1, fun c hc => ?_⟩
    rcases mem_mapPut _ _ _ _ hc with rfl | hc
    · exact hb
    · exact h.2 c hc

theorem cellsWf_cellsPut (bs : List Byte) (m : List Host.Cell) (a : Nat) (h : cellsWf m = true) : cellsWf (cellsPut m a bs) = true := by
  induction bs generalizing m a with
  | nil => exact h
  | cons b t ih => exact ih _ _ (cellsWf_cellPut _ _ _ h)

theorem cellsWf_cellsZero (m : List Host.Cell) (a n : Nat) (h : cellsWf m = true) : cellsWf (cellsZero m a n) = true :=
  cellsWf_filter _ _ h

/-- Stores in canonical form that read alike are the same data. -/
theorem cellsWf_ext (m n : List Host.Cell) (hm : cellsWf m = true) (hn : cellsWf n = true)
    (h : ∀ a, cellGet m a = cellGet n a) : m = n := by
  have get_lt (l : List Host.Cell) (hl : cellsWf l = true) (a : Nat) (ha : ∀ c ∈ l, a < c.1) : cellGet l a = 0 := by
    induction l with
    | nil => rfl
    | cons c t ih =>
      obtain ⟨k, v⟩ := c
      have hk : a < k := ha (k, v) (by simp)
      have hne : ¬ a = k := by omega
      have ht : cellsWf t = true := by
        rw [cellsWf_iff] at *
        exact ⟨(List.pairwise_cons.mp hl.1).2, fun c hc => hl.2 c (List.mem_cons_of_mem _ hc)⟩
      simp only [cellGet, mapGet, hne, if_false]
      exact ih ht fun c hc => ha c (List.mem_cons_of_mem _ hc)
  induction m generalizing n with
  | nil =>
    cases n with
    | nil => rfl
    | cons c t =>
      obtain ⟨k, v⟩ := c
      have := h k
      have hv := ((cellsWf_iff _).mp hn).2 (k, v) (by simp)
      simp [cellGet, mapGet] at this
      exact absurd this.symm hv
  | cons c t ih =>
    obtain ⟨k, v⟩ := c
    have hm' := (cellsWf_iff _).mp hm
    have hv := hm'.2 (k, v) (by simp)
    have hp := List.pairwise_cons.mp hm'.1
    have ht : cellsWf t = true := (cellsWf_iff _).mpr ⟨hp.2, fun c hc => hm'.2 c (List.mem_cons_of_mem _ hc)⟩
    cases n with
    | nil =>
      have := h k
      simp [cellGet, mapGet] at this
      exact absurd this hv
    | cons d u =>
      obtain ⟨j, w⟩ := d
      have hn' := (cellsWf_iff _).mp hn
      have hw := hn'.2 (j, w) (by simp)
      have hq := List.pairwise_cons.mp hn'.1
      have hu : cellsWf u = true := (cellsWf_iff _).mpr ⟨hq.2, fun c hc => hn'.2 c (List.mem_cons_of_mem _ hc)⟩
      have hkj : k = j := by
        rcases Nat.lt_trichotomy k j with hlt | heq | hgt
        · have h1 := h k
          rw [get_lt ((j, w) :: u) hn k (by
            intro c hc
            rcases List.mem_cons.mp hc with rfl | hc
            · exact hlt
            · exact Nat.lt_trans hlt (hq.1 c hc))] at h1
          simp [cellGet, mapGet] at h1
          exact absurd h1 hv
        · exact heq
        · have h1 := h j
          rw [get_lt ((k, v) :: t) hm j (by
            intro c hc
            rcases List.mem_cons.mp hc with rfl | hc
            · exact hgt
            · exact Nat.lt_trans hgt (hp.1 c hc))] at h1
          simp [cellGet, mapGet] at h1
          exact absurd h1.symm hw
      subst hkj
      have hvw : v = w := by simpa [cellGet, mapGet] using h k
      subst hvw
      congr 1
      apply ih _ ht hu
      intro a
      by_cases e : a = k
      · subst e
        rw [get_lt t ht a hp.1, get_lt u hu a hq.1]
      · simpa [cellGet, mapGet, e] using h a

end Sys2Proof.Machine
end

