-- ==== Sys2Proof/Safety.lean ====
section
/-! DEFINITION. What claims call a sound state, and the terms they are stated in. -/

namespace Sys2Proof

/-- The instructions of tile mode alone: major 0x10 has another meaning in vector mode (08 R187, R188). -/
def Instr.inTile (i : Instr) : Bool :=
  match i with
  | .tzero _ => true
  | .tmmaO _ _ _ _ => true
  | .tmmaF _ _ _ _ => true
  | .tmova _ _ _ => true
  | .tmovv _ _ _ => true
  | .tcolmvOut _ _ _ => true
  | .tcolmvIn _ _ _ => true
  | .trowmvOut _ _ _ => true
  | .trowmvIn _ _ _ => true
  | .tscale _ _ => true
  | .tcvt _ _ _ => true
  | _ => false

namespace Machine

/-- Every byte store stands in its canonical form, so that equal contents are equal data. -/
abbrev State.Canon (s : State) : Prop := Memory.wf s.mem = true ∧ cellsWf s.regs = true ∧ cellsWf s.ctl = true

/-! ## What an instruction leaves -/

/-- Only the moving thread's registers differ: memory, register storage, every other thread and every table are as before. -/
abbrev State.OnlyMe (s t : State) : Prop := t = s.setMe t.me

/-- Scalar register d receives v, the pc moves to the next word, and nothing else changes: no other register, flag, control register,
exception register, accumulator, queue, and no byte of memory. A write to s0 is discarded. -/
abbrev State.WritesScalar (s t : State) (d : BitVec 5) (v : Word) : Prop :=
  t = s.setMe { s.me with s := t.me.s, lastFault := none, pc := s.me.pc + 4 } ∧
  (∀ k, t.sr k = if k = d ∧ d ≠ 0 then v else s.sr k) ∧ ∀ a, t.byte a = s.byte a

/-- The pc moves to an address, and nothing else changes but the count of repeated faults. -/
abbrev State.GoesTo (s t : State) (pc : Word) : Prop := t = s.setMe { s.me with lastFault := none, pc := pc }

/-- An instruction completes in a state with a property. -/
abbrev Completes (i : Instr) (s : State) (P : State → Prop) : Prop := ∃ t, exec i s = .next t ∧ P t

/-- Entry into the handler of a thread not already in one at level S: the registers of trap entry and the pc, nothing else. -/
abbrev State.TrapsTo (s t : State) (cause sub : Nat) (value ret : Word) : Prop :=
  t = s.setMe { s.me with
    tca := w64 (2 ^ 17 + (if s.me.sup then 2 ^ 16 else 0) + sub * 256 + cause), tva := value, tpc := ret &&& ~~~3,
    sup := true, pc := s.me.tvb &&& ~~~3 }

/-- A scalar floating-point result: the register, the sticky flags of FCS.FLG (bits 12:8), the pc, and nothing else. -/
abbrev State.WritesFloat (s t : State) (d : BitVec 5) (r : Nat × Exc) : Prop :=
  t = s.setMe { s.me with s := t.me.s, fcs := s.me.fcs ||| (r.2.zeroExtend 64 <<< 8), lastFault := none, pc := s.me.pc + 4 } ∧
  (∀ k, t.sr k = if k = d ∧ d ≠ 0 then w64 r.1 else s.sr k) ∧ ∀ a, t.byte a = s.byte a

/-- Nothing is on its way to memory, no word is lost and no engine command holds a scratchpad range. -/
abbrev State.Quiet (s : State) : Prop := s.pend = [] ∧ s.memLost = [] ∧ ∀ a, s.boardAt a = []

/-- An access of the moving thread passes every check of 01 R35 and falls on a memory of the module, on a page hotness does not
sample, within one granule of 64 bytes (04 R110); `u` is the state with the marks of the walk. -/
abbrev State.Reaches (s : State) (va : Word) (n : Nat) (use : Use) (p : Phys) (u : State) : Prop :=
  s.translate (s.who s.tid) va.toNat n use = (.ok p, u) ∧ p.isOutbound = false ∧ p.hs = false ∧ p.pa % 64 + n ≤ 64

/-- A store of the moving thread stands committed, newest of its writes on their way to memory, and the pc moves on: no register, flag or byte of
memory changes before it is performed. -/
abbrev State.Stores (u t : State) (addr : Nat) (bytes : List Byte) (release : Bool) : Prop :=
  ∃ q : Pend, t = { u.setMe { u.me with lastFault := none, pc := u.me.pc + 4 } with pend := u.pend ++ [q], wseq := u.wseq + 1 } ∧
    q.seq = u.wseq ∧ q.tid = u.tid ∧ q.addr = addr ∧ q.op = .store bytes ∧ q.slice = 8 ∧
    q.after = (if release then u.wseq else u.me.barrier) ∧ ∀ a, t.byte a = u.byte a

/-- A fault queue whose capacity is captured, with room, wholly in HBM (19 R391, R392); the owner's, while there is an owner (20 R416). -/
abbrev State.QueueRoom (s : State) (ownerQ : Bool) (part cap tail : Nat) : Prop :=
  let base := s.fqBase ownerQ part
  (if ownerQ then s.ownerFq.cap else (s.part part).fq.cap) = some cap ∧ 1 ≤ cap ∧ cap ≤ 2 ^ 20 ∧ base ≠ 0 ∧
  (ownerQ = true → s.owState ≠ 0) ∧ base + 64 + 64 * cap ≤ 0x9000000000 ∧ leNat (s.bytes (base + 16) 8) = tail ∧ tail + 1 < 2 ^ 64 ∧
  (tail + 2 ^ 64 - leNat (s.bytes (base + 8) 8)) % 2 ^ 64 ≠ cap

/-- A fault queue whose capacity is captured, without room. -/
abbrev State.QueueFull (s : State) (ownerQ : Bool) (part cap : Nat) : Prop :=
  let base := s.fqBase ownerQ part
  (if ownerQ then s.ownerFq.cap else (s.part part).fq.cap) = some cap ∧ 1 ≤ cap ∧ cap ≤ 2 ^ 20 ∧ base ≠ 0 ∧
  (ownerQ = true → s.owState ≠ 0) ∧ (leNat (s.bytes (base + 16) 8) + 2 ^ 64 - leNat (s.bytes (base + 8) 8)) % 2 ^ 64 = cap

/-- The record stands in its slot, the tail counts it, and no byte of memory outside the two differs. -/
abbrev State.Posted (s t : State) (r : FaultRec) (cap tail : Nat) : Prop :=
  let base := s.fqBase r.ownerQ r.part
  t.bytes (base + 64 + tail % cap * 64) 64 = r.bytes (tail + 1) ∧ leNat (t.bytes (base + 16) 8) = tail + 1 ∧
  ∀ a, (a < base + 16 ∨ base + 24 ≤ a) → (a < base + 64 + tail % cap * 64 ∨ base + 64 + tail % cap * 64 + 64 ≤ a) → t.byte a = s.byte a

/-- The moving thread stops with a record: it is `x` but for the record, which is posted where there is room (its SEQ kept with the thread) and
otherwise waits with the thread, as a record to the owner does while there is none (20 R416). -/
abbrev State.StopsWith (s t : State) (x : Thread) (r : FaultRec) : Prop :=
  t.me = { x with fseq := t.me.fseq, fOwner := r.ownerQ, toPost := t.me.toPost } ∧ (∀ k, k ≠ s.tid → t.th k = s.th k) ∧
  (∀ cap tail, s.QueueRoom r.ownerQ r.part cap tail → s.Posted t r cap tail ∧ t.me.fseq = tail + 1 ∧ t.me.toPost = x.toPost) ∧
  (∀ cap, s.QueueFull r.ownerQ r.part cap → t.me.fseq = 0 ∧ t.me.toPost = x.toPost ++ [r]) ∧
  (r.ownerQ = true → s.owState = 0 → t.me.fseq = 0 ∧ t.me.toPost = x.toPost ++ [r])

/-! ## Register storage -/

/-- A register byte of the lanes a thread holds: its main-bank slices, its near-bank registers and, where asked, its masks (03 R77, R88). -/
def State.laneByte (s : State) (masks : Bool) (key : Nat) : Prop :=
  ∃ i, i < s.lanes s.tid ∧
    let pl := s.physLane s.myL (s.laneOf s.tid i)
    let within (off n : Nat) : Prop := regKey (s.physPair s.myL) off ≤ key ∧ key < regKey (s.physPair s.myL) off + n
    within (mainOff pl) 8192 ∨ within (nearOff pl) 2048 ∨ (masks = true ∧ within (maskOff pl) 2048)

/-- The register storage of the lanes the thread holds reads zero, with correct parity; no other register byte and nothing else differs. -/
def State.Zeroes (s z : State) (masks : Bool) : Prop :=
  z = { s with regs := z.regs, regBad := z.regBad } ∧
  (∀ k, (s.laneByte masks k → cellGet z.regs k = 0) ∧ (¬ s.laneByte masks k → cellGet z.regs k = cellGet s.regs k)) ∧
  ∀ k, k ∈ z.regBad ↔ k ∈ s.regBad ∧ ¬ s.laneByte masks k

/-! ## What a vector instruction leaves -/

/-- No binding, no failed parity, no pre-emption mark, no replay, and elements to work on. -/
abbrev State.Plain (s : State) : Prop :=
  s.me.replaying = false ∧ s.regBad = [] ∧ s.me.cut = 0 ∧ (∀ j : Nat, (s.me.binds[j]?).getD none = none) ∧ s.me.vlen ≠ 0

/-- The strip fits: every capacity lies above the element it begins at and holds VL elements (03 R82). -/
abbrev State.Within (s : State) (es : Nat) (caps : List Nat) : Prop := ∀ c ∈ caps, es < c ∧ s.me.vlen ≤ c

/-- Capacity of an operand over the thread's lanes, and that of a mask register. -/
abbrev State.capOf (s : State) (o : Operand) : Nat := o.cap (s.lanesOf s.tid).count
abbrev State.maskRoom (s : State) (k : BitVec 3) : List Nat := if k = 0 then [] else [maskCap (s.lanesOf s.tid).count]

/-- The active elements from es to VL, in ascending order (08 R198). -/
def State.actives (s : State) (es : Nat) (k : BitVec 3) : List Nat :=
  ((List.range (s.me.vlen - es)).map (es + ·)).filter fun i => s.active (s.lanesOf s.tid) k false i

/-- An element of an operand over the thread's lanes. -/
abbrev State.at_ (s : State) (o : Operand) (i : Nat) : Nat := s.elem (s.lanesOf s.tid) o i

/-- What a vector instruction that ends at VL leaves: its flags, what `pre` writes, the destination with its inactive and tail elements and the last-result file
(03 R84; 10 R234), what `fin` does, ES = 0, and the next word. -/
def State.vectorLeaves (s : State) (dst : Dst) (noMp : Bool) (es tail : Nat) (exc : Exc) (els : List Elem) (pre fin : State → State) : State :=
  let x := s.lanesOf s.tid
  let u := fin ((pre (s.setMe (s.me.addFlags exc))).putResult x dst noMp es s.me.vlen tail els)
  u.setMe { u.me with es := 0, lastFault := none, pc := u.me.pc + 4 }

/-- Writes a second destination register with its tail (10 R246, R247). -/
def State.writeSecond (s : State) (o : Operand) (vals : List (Nat × Nat)) (tail : Nat) : State :=
  let x := s.lanesOf s.tid
  let s := vals.foldl (fun (s : State) e => s.setElem x o e.1 e.2) s
  if s.me.tp then (List.range (o.cap x.count - tail)).foldl (fun (s : State) d => s.setElem x o (tail + d) 0) s else s

/-- Destination elements given by index and value. -/
def valuesOf (l : List (Nat × Nat)) : List Elem := l.map fun e => ⟨e.1, some e.2, 0, [], []⟩

/-- The computed elements of a function that gives a value and its exceptions. -/
def elemsOf (l : List Nat) (f : Nat → Nat × Exc) : List Elem := l.map fun i => ⟨i, some (f i).1, (f i).2, [], []⟩

/-- An element-wise instruction without trimming: `f` over the active elements of [ES, VL). -/
abbrev State.elementwise (s : State) (dst : Dst) (k : BitVec 3) (f : Nat → Nat × Exc) (fin : State → State) : State :=
  let els := elemsOf (s.actives s.me.start k) f
  s.vectorLeaves dst false s.me.start s.me.vlen (orExc els) els id fin

/-! ## Vector accesses to memory -/

/-- The active elements from es to VL under a mask or, with C, its complement, in ascending order (08 R198). -/
def State.activesOf (s : State) (es : Nat) (c : BitVec 1) (k : BitVec 3) : List Nat :=
  ((List.range (s.me.vlen - es)).map (es + ·)).filter fun i => s.active (s.lanesOf s.tid) k (c == 1) i

/-- An element's one access, at its address; none where it makes no access. -/
abbrev accessOf (addr : Nat → Option Word) (n : Nat) (use : Use) (i : Nat) : List Acc := (addr i).toList.map fun a => ⟨a, n, n, use⟩
abbrev placedOf (addr : Nat → Option Word) (n : Nat) (use : Use) (at_ : Nat → Phys) (i : Nat) : List Placed :=
  (addr i).toList.map fun a => ⟨⟨a, n, n, use⟩, at_ i⟩

/-- The accesses of elements l, in ascending order, pass every check of 01 R35 within the page budget of 02 R55 and fall on memories of the
module, on pages hotness does not sample: element i at `at_ i`, within one granule of 64 bytes as its alignment has it (04 R110). `u` is the
state with the marks of the walks. -/
abbrev State.Places (s : State) (addr : Nat → Option Word) (n : Nat) (use : Use) (l : List Nat) (at_ : Nat → Phys) (u : State) : Prop :=
  translateElems (s.who s.tid) (accessOf addr n use) l s [] [] = (⟨l.map fun i => (i, placedOf addr n use at_ i), none, false⟩, u) ∧
  ∀ i ∈ l, (at_ i).isOutbound = false ∧ (at_ i).hs = false ∧ (at_ i).pa % 64 + n ≤ 64

/-- A vector instruction that writes memory alone: its writes stand committed in element order, newest of those on their way to memory, behind the
thread's barrier; the flags, ES and the pc change, and no register and no byte of memory before they are performed. -/
abbrev State.Commits (u t : State) (exc : Exc) (ws : List (Nat × PendOp)) : Prop :=
  ∃ qs : List Pend, t = { u.setMe { u.me.addFlags exc with es := 0, lastFault := none, pc := u.me.pc + 4 } with
    pend := u.pend ++ qs, wseq := u.wseq + qs.length } ∧
    qs.map (fun q => (q.addr, q.op)) = ws ∧ ∀ q ∈ qs, q.tid = u.tid ∧ q.after = u.me.barrier ∧ u.wseq ≤ q.seq

/-- No element's exception is enabled (14 R301). -/
abbrev State.NoTrap (s : State) (l : List Nat) (f : Nat → Nat × Exc) : Prop := ∀ i ∈ l, s.me.ten &&& (f i).2 = 0

/-- The scalar of a VX word: a register, or the oldest entry of Q0, which completing removes (08 R184). -/
abbrev State.Scalar (s : State) (n : BitVec 5) (q : BitVec 1) (v : Word) : Prop := if q = 1 then s.me.q0.head? = some v else s.sr n = v
def dropQ0 (q : BitVec 1) (s : State) : State := if q = 1 then s.setMe { s.me with q0 := s.me.q0.drop 1 } else s

/-! ## Engine commands -/

/-- The scoreboard entries a command of a context needs: of a sketch command, those of its own pair alone (03 R92; 17 R429). -/
def State.claims (u : State) (ctx : Nat) (touch : List Touch) : List (Nat × Bool × Nat × Nat) :=
  (u.spans (u.who u.tid) touch).filter fun e => ctx != 4 || e.1 == pairOf u.tid

/-- A command may be accepted: its timeline has a number left, its context has room, and so has every scoreboard it needs (05 R131; 03 R93;
15 R318). -/
abbrev State.Admits (u : State) (ctx : Nat) (touch : List Touch) : Prop :=
  (u.me.timeline ctx).last + 1 < 2 ^ 64 ∧ (∀ n, ctxLimit ctx = some n → u.inFlight u.tid ctx < n) ∧
  u.boardRoom (u.claims ctx touch) = true

/-- The moving thread's command stands accepted under its timeline's next number: it captures the element context, FCS, SKZ, the address
space and the level, goes behind the thread's earlier writes, and its scoreboard entries are registered (05 R131, R135; 03 R92, R93).
Nothing else differs. -/
abbrev State.Accepts (u a : State) (ctx : Nat) (op : CmdOp) (record extra : List Byte) (words : List Word) (touch : List Touch) : Prop :=
  let t := u.me
  let num := (t.timeline ctx).last + 1
  let cmd : Cmd := {
    tid := u.tid, ctx := ctx, num := num, op := op, record := record, extra := extra, words := words, vty := t.vty, fcs := t.fcs, skz := t.skz,
    atb := t.atb, sup := t.sup, pc := t.pc, after := u.wseq, deps := t.fwd, power := none, det := 0 }
  { a with threads := u.threads, pairs := u.pairs, cmds := u.cmds } = u ∧ a.cmds = u.cmds ++ [cmd] ∧
  a.me = t.setTimeline ctx { t.timeline ctx with last := num } ∧ (∀ k, k ≠ u.tid → a.th k = u.th k) ∧
  ∀ l, a.pair l = { u.pair l with board := (u.pair l).board ++
    ((u.claims ctx touch).filter fun e => e.1 == l).map fun e => ⟨e.2.2.1, e.2.2.2, e.2.1, u.tid % 2, ctx, num, u.tid, u.wseq⟩ }

/-- A command has ended: it is gone with its scoreboard entries, its number is performed, a shortfall is noted, and its completion record, if it has
one, stands at an address (15 R314, R315; 03 R94; 05 R134). No scalar register, pc or register storage differs, and no other byte of memory. -/
abbrev State.Ends (u t : State) (c : Cmd) (place : Option Nat) (d : Done) : Prop :=
  let x := u.th c.tid
  let y := t.th c.tid
  t.cmds = u.cmds.filter (fun o => !o.isOf c.tid c.ctx c.num) ∧ y.timeline c.ctx = (x.timeline c.ctx).perform c.num ∧
  (d.short = true → y.short[c.ctx]? = some (((x.short[c.ctx]?).getD ⟨[], false⟩).note c.num)) ∧ (d.short = false → y.short = x.short) ∧
  (∀ k, (t.th k).s = (u.th k).s ∧ (t.th k).pc = (u.th k).pc) ∧
  (∀ l, (t.pair l).board = (u.pair l).board.filter fun r => !r.ofCmd c) ∧ t.regs = u.regs ∧
  match place with
  | none => t.mem = u.mem
  | some p => t.bytes p 32 = d.bytes c.num ∧ ∀ a, a < p ∨ p + 32 ≤ a → t.byte a = u.byte a

/-- A command whose accesses are made, leaving `v`: it is performed, with its completion record at CREC where that is not 0, its address passes every
check and falls on a memory of the module (15 R314). -/
abbrev State.Performs (s v : State) (i : Instr) (c : Cmd) (crec : Nat) (d : Done) : Prop :=
  let waits : Cmd := { c with op := .finish, extra := d.bytes c.num, words := [w64 crec, if d.short then 1 else 0] }
  v.cmdAcked c = true →
  (crec = 0 → Completes i s fun t => v.Ends t c none d) ∧
  ∀ (x : Phys) (w : State), crec ≠ 0 → (v.setCmd waits).translate (v.cmdWho c) crec 32 .store = (.ok x, w) → x.isOutbound = false →
    w.cmdWaits c x.pa 32 = false → w.memLost = [] → Completes i s fun t => w.Ends t c (some x.pa) d

/-- A command whose accesses are made, leaving `v`, and whose writes or contributions to other devices are not acknowledged: it waits for them with
the completion record it will write (05 R133, R143, R144). -/
abbrev State.Awaits (v t : State) (c : Cmd) (crec : Nat) (d : Done) : Prop :=
  t = v.setCmd { c with op := .finish, extra := d.bytes c.num, words := [w64 crec, if d.short then 1 else 0] }

/-- An access of instruction `i` fails at its leading element, where `y` is the state without what the instruction waited for: it traps with the address,
or suspends the thread with a record of kind 1. A repeat of the thread's last fault counts, and from the sixteenth on the record goes to the
owner's queue (02 R56 to R58). -/
abbrev State.FailsAt (s y : State) (i : Instr) (f : TFail) (acc : Nat) (va : Word) : Prop :=
  let page := va.toNat / 4096
  let posts (m : Nat) (z : State) : Prop :=
    y.StopsWith z { y.me with run := .suspended, lastFault := some ⟨y.me.pc, page, f.second, m⟩ }
      { y.recFor y.tid (f.second || m == 16) 1 with
        flg := BitVec.ofNat 8 ((if f.second then 1 else 0) + (if f.malformed then 2 else 0) + (if 0 < m then 4 else 0) + (if m = 16 then 8 else 0))
        lvl := f.lvl, acc := acc, rpt := m, cause := 1, va := va, gpa := if f.second then w64 f.gpa else 0 }
  (f.cause = 2 ∨ f.cause = 3 → ¬ (y.me.sup = true ∧ y.me.tca.getLsbD 17 = true) → Completes i s fun z => y.TrapsTo z f.cause 0 va y.me.pc) ∧
  (f.cause = 1 →
    ((∀ o, y.me.lastFault = some o → o.pc ≠ y.me.pc ∨ o.page ≠ page ∨ o.second ≠ f.second) → Completes i s (posts 0)) ∧
    ∀ m, y.me.lastFault = some ⟨y.me.pc, page, f.second, m⟩ → Completes i s (posts (Nat.min 16 (m + 1))))

/-- Bytes laid over translated pieces, in order. -/
def State.laid (s : State) : List (Piece × Phys) → List Byte → State
  | [], _ => s
  | (p, x) :: rest, bs => State.laid (s.putBytes x.pa (bs.take p.n)) rest (bs.drop p.n)

/-- Pieces that lie in memories of the module, which no other command holds. -/
abbrev State.Free (u : State) (c : Cmd) (ps : List (Piece × Phys)) : Prop :=
  ∀ p ∈ ps, p.2.isOutbound = false ∧ u.cmdWaits c p.2.pa p.1.n = false

/-- A thread at level S that is already in its handler: a further trap is a double trap. -/
abbrev State.InHandler (s : State) : Prop := s.me.sup = true ∧ s.me.tca.getLsbD 17 = true

end Machine

end Sys2Proof
end

