-- ==== Sys2Proof/Laws/Scalar.lean ====
section
/-! SUPPORT. Scalar registers, completing an instruction, and traps: what each shared operation does, said once. -/

namespace Sys2Proof.Machine

@[simp] theorem Thread.sreg_zero (t : Thread) : t.sreg 0 = 0 := by simp [Thread.sreg]

theorem Thread.sreg_setS (t : Thread) (d k : BitVec 5) (v : Word) : (t.setS d v).sreg k = if k = d ∧ d ≠ 0 then v else t.sreg k := by
  unfold Thread.setS Thread.sreg
  by_cases hd : d = 0
  · subst hd; simp
  · rw [if_neg hd]
    by_cases hk : k = d
    · subst hk
      rw [if_neg hd, if_pos ⟨rfl, hd⟩]
      simp
    · have hn : d.toNat ≠ k.toNat := fun e => hk (BitVec.eq_of_toNat_eq e.symm)
      have e : ¬ (k = d ∧ d ≠ 0) := fun h => hk h.1
      rw [if_neg e]
      split
      · rfl
      · exact Vector.getElem_set_ne d.isLt _ hn

/-- A register reads as written; every other one, and s0, as before. -/
theorem State.sr_setS (s : State) (d k : BitVec 5) (v : Word) : (s.setS d v).sr k = if k = d ∧ d ≠ 0 then v else s.sr k := by
  simp [State.setS, State.sr, Thread.sreg_setS]

theorem Thread.setS_eq (t : Thread) (d : BitVec 5) (v : Word) : t.setS d v = { t with s := (t.setS d v).s } := by
  unfold Thread.setS; split <;> rfl

theorem Thread.sreg_of_s {t u : Thread} (h : u.s = t.s) (k : BitVec 5) : u.sreg k = t.sreg k := by simp [Thread.sreg, h]

/-- Outside a replay the pc moves to the next word. -/
theorem Thread.retire_plain (t : Thread) (h : t.replaying = false) : t.retire = { t with lastFault := none, pc := t.pc + 4 } := by
  have h' : ({ t with lastFault := none } : Thread).replaying = false := h
  simp [Thread.retire, h']

theorem Thread.replaying_setS (t : Thread) (d : BitVec 5) (v : Word) : (t.setS d v).replaying = t.replaying := by
  simp [Thread.replaying]

/-- A scalar result: the register, the pc, and nothing else. -/
theorem State.result_writes (s : State) (d : BitVec 5) (v : Word) (h : s.me.replaying = false) : s.WritesScalar (s.result d v) d v := by
  have hr : (s.me.setS d v).replaying = false := by rw [Thread.replaying_setS, h]
  have e : s.result d v = s.setMe { s.me.setS d v with lastFault := none, pc := (s.me.setS d v).pc + 4 } := by
    simp [State.result, State.retire, State.setS, Thread.retire_plain _ hr]
  refine ⟨?_, ?_, ?_⟩
  · rw [e, Thread.setS_eq]; simp
  · intro k
    rw [e]
    simp only [State.sr, State.me_setMe]
    rw [Thread.sreg_of_s (t := s.me.setS d v) (by rfl), Thread.sreg_setS]
  · intro a; rw [e]; rfl

theorem State.retire_goes (s : State) (h : s.me.replaying = false) : s.GoesTo s.retire (s.me.pc + 4) := by
  simp [State.GoesTo, State.retire, Thread.retire_plain _ h]

theorem State.jump_goes (s : State) (target : Word) : s.GoesTo (s.jump target) target := rfl

/-- A trap outside a handler enters it. -/
theorem State.trap_enters (s : State) (cause sub : Nat) (value : Word) (h : ¬ s.InHandler) :
    s.trap cause sub value = s.setMe (s.me.enterTrap cause sub value) := by
  have : (s.me.sup && s.me.tca.getLsbD 17) = false := by
    cases hs : s.me.sup <;> cases ht : s.me.tca.getLsbD 17 <;> simp_all [State.InHandler]
  unfold State.trap
  simp only [this, Bool.false_eq_true, if_false]

/-- Outside a replay a word of the refused kind runs. -/
theorem State.unlessReplay_plain (s : State) (h : s.me.replaying = false) (w : BitVec 32) (k : State → State) :
    s.unlessReplay w k = k s := by
  unfold State.unlessReplay; simp only [h, Bool.false_eq_true, if_false]

theorem State.needS_sup (s : State) (h : s.me.sup = true) (k : State → State) : s.needS k = k s := by
  unfold State.needS; simp only [h, if_true]

theorem State.needS_user (s : State) (h : s.me.sup = false) (k : State → State) : s.needS k = s.trap cPermission 0 0 := by
  unfold State.needS; simp only [h, Bool.false_eq_true, if_false]

end Sys2Proof.Machine
end

