-- ==== Sys2Proof/Laws/Traps.lean ====
section
/-! SUPPORT. Fault records (19 R391 to R393): what posting one does, and stopping a thread with one. -/

namespace Sys2Proof.Machine

/-- Nothing differs but what the module's own writes at system-physical addresses touch: memory, what has been sent, the error log's count, a
fault queue's captured capacities, the records that wait for an owner, and the requests handed to ports and links. -/
abbrev State.OwnWrites (s t : State) : Prop :=
  t = { s with
    mem := t.mem, memLost := t.memLost, out := t.out, elogt := t.elogt, parts := t.parts, ownerFq := t.ownerFq, ownerWait := t.ownerWait,
    wseq := t.wseq, obs := t.obs }
theorem State.OwnWrites.trans {s u t : State} (h : s.OwnWrites u) (g : u.OwnWrites t) : s.OwnWrites t := by
  have k (m l o e p f w q b) : { u with mem := m, memLost := l, out := o, elogt := e, parts := p, ownerFq := f, ownerWait := w, wseq := q, obs := b } =
      { s with mem := m, memLost := l, out := o, elogt := e, parts := p, ownerFq := f, ownerWait := w, wseq := q, obs := b } := by rw [h]
  unfold State.OwnWrites at g ⊢
  rw [k] at g
  exact g
theorem State.sysPut_own (s : State) (a : Nat) (bs : List Byte) : s.OwnWrites (s.sysPut a bs) := by
  unfold State.sysPut State.putFor; split <;> first | rfl | (split <;> rfl)
theorem State.logError_own (s : State) (k u a c : Nat) : s.OwnWrites (s.logError k u a c) := by
  unfold State.logError; dsimp only; split
  · rfl
  · exact (State.sysPut_own ..).trans rfl
theorem State.sysWrite_own (s : State) (a : Nat) (bs : List Byte) : s.OwnWrites (s.sysWrite a bs) := by
  unfold State.sysWrite State.writeFor; split
  · split
    · exact State.logError_own ..
    · rfl
  · exact State.sysPut_own ..
theorem State.bump_own (s : State) (a : Nat) : s.OwnWrites (s.bump a) := by
  unfold State.bump; dsimp only; split
  · exact State.sysWrite_own ..
  · rfl
theorem State.fqCaps_own (s : State) (o : Bool) (p : Nat) : s.OwnWrites (s.fqCaps o p).2.2 := by
  unfold State.fqCaps; dsimp only; split <;> rfl
/-- Posting a record changes nothing but memory and its queue's bookkeeping. -/
theorem State.post_own (s : State) (r : FaultRec) : s.OwnWrites (s.post r).2 := by
  unfold State.post
  dsimp only
  split
  · split <;> rfl
  · split
    · rfl
    · split
      · split
        · dsimp only
          split
          · exact (State.fqCaps_own ..).trans (State.bump_own ..)
          · exact State.fqCaps_own ..
        · exact ((State.fqCaps_own ..).trans (State.sysWrite_own ..)).trans (State.sysWrite_own ..)
      · dsimp only
        split
        · exact (State.fqCaps_own ..).trans (State.bump_own ..)
        · exact State.fqCaps_own ..
theorem State.OwnWrites.threads {s t : State} (h : s.OwnWrites t) : t.threads = s.threads := by rw [h]
theorem State.OwnWrites.cur {s t : State} (h : s.OwnWrites t) : t.cur = s.cur := by rw [h]
theorem State.OwnWrites.pend {s t : State} (h : s.OwnWrites t) : t.pend = s.pend := by rw [h]
theorem State.post_threads (s : State) (r : FaultRec) : (s.post r).2.threads = s.threads := (s.post_own r).threads
theorem State.post_cur (s : State) (r : FaultRec) : (s.post r).2.cur = s.cur := (s.post_own r).cur
theorem State.sysWrite_hbm (s : State) (a : Nat) (bs : List Byte) (h : a < 0x9000000000) : s.sysWrite a bs = s.putBytes a bs := by
  have hr : s.region a = .hbm := by unfold State.region; rw [if_pos h]
  unfold State.sysWrite State.writeFor State.cutOff State.putFor
  simp only [hr, Bool.false_eq_true, if_false]
theorem FaultRec.bytes_length (r : FaultRec) (q : Nat) : (r.bytes q).length = 64 := by
  simp [FaultRec.bytes, Machine.leBytes_length]
theorem State.bytes_putBytes (s : State) (a : Nat) (bs : List Byte) : (s.putBytes a bs).bytes a bs.length = bs := cellsGet_cellsPut ..
theorem State.bytes_putBytes_out (s : State) (a c n : Nat) (bs : List Byte) (h : c + n ≤ a ∨ a + bs.length ≤ c) : (s.putBytes a bs).bytes c n = s.bytes c n := cellsGet_cellsPut_out _ _ _ _ _ h
/-- With room, a record takes its slot and the tail counts it (19 R392). -/
theorem State.post_room (s : State) (r : FaultRec) (cap tail : Nat) (h : s.QueueRoom r.ownerQ r.part cap tail) :
    (s.post r).1 = some (tail + 1) ∧ s.Posted (s.post r).2 r cap tail := by
  obtain ⟨h1, h2, h3, h4, ho, h5, h6, h7, h8⟩ := h
  have hc : (s.fqCaps r.ownerQ r.part).1 = some cap := by
    unfold State.fqCaps
    dsimp only
    have : (if r.ownerQ = true then s.ownerFq else (s.part r.part).fq).cap = some cap := by
      cases hb : r.ownerQ <;> simp only [hb] at h1 <;> simpa using h1
    simp only [this, h2, h3, decide_true, Bool.and_true, if_true]
  have hm : (s.fqCaps r.ownerQ r.part).2.2.mem = s.mem := by unfold State.fqCaps; dsimp only; split <;> rfl
  have hb (a n : Nat) : (s.fqCaps r.ownerQ r.part).2.2.bytes a n = s.bytes a n := by unfold State.bytes; rw [hm]
  unfold State.post State.Posted
  dsimp only
  have hne : (r.ownerQ && decide (s.fqBase r.ownerQ r.part = 0)) = false := by rw [decide_eq_false h4, Bool.and_false]
  have hno : (r.ownerQ && s.owState == 0) = false := by
    cases hb : r.ownerQ
    · rfl
    · rw [Bool.true_and]; exact beq_eq_false_iff_ne.mpr (ho hb)
  rw [hno, hne]
  simp only [Bool.false_eq_true, if_false]
  rw [hc]
  dsimp only
  rw [hb, hb, h6, if_neg h8]
  dsimp only
  generalize s.fqBase r.ownerQ r.part = base at *
  have hlt : tail % cap < cap := Nat.mod_lt _ h2
  rw [State.sysWrite_hbm _ _ _ (by omega), State.sysWrite_hbm _ _ _ (by omega)]
  have l8 : (leBytes 8 (tail + 1)).length = 8 := Machine.leBytes_length ..
  refine ⟨rfl, ?_, ?_, ?_⟩
  · rw [State.bytes_putBytes_out _ _ _ _ _ (by right; rw [l8]; omega)]
    have := State.bytes_putBytes (s.fqCaps r.ownerQ r.part).2.2 (base + 64 + tail % cap * 64) (r.bytes (tail + 1))
    rw [FaultRec.bytes_length] at this
    exact this
  · have := State.bytes_putBytes ((s.fqCaps r.ownerQ r.part).2.2.putBytes (base + 64 + tail % cap * 64) (r.bytes (tail + 1))) (base + 16) (leBytes 8 (tail + 1))
    rw [l8] at this
    rw [this, leNat_leBytes]
    omega
  · intro a ha1 ha2
    rw [State.byte_putBytes_out _ _ _ _ (by rw [l8]; omega), State.byte_putBytes_out _ _ _ _ (by rw [FaultRec.bytes_length]; omega)]
    unfold State.byte; rw [hm]
theorem State.fqCaps_captured (s : State) (o : Bool) (part cap : Nat) (h1 : (if o then s.ownerFq.cap else (s.part part).fq.cap) = some cap) (h2 : 1 ≤ cap) (h3 : cap ≤ 2 ^ 20) :
    (s.fqCaps o part).1 = some cap := by
  unfold State.fqCaps
  dsimp only
  have : (if o = true then s.ownerFq else (s.part part).fq).cap = some cap := by
    cases hb : o <;> simp only [hb] at h1 <;> simpa using h1
  simp only [this, h2, h3, decide_true, Bool.and_true, if_true]
/-- Without room, a record is not posted. -/
theorem State.post_full (s : State) (r : FaultRec) (cap : Nat) (h : s.QueueFull r.ownerQ r.part cap) : (s.post r).1 = none := by
  obtain ⟨h1, h2, h3, h4, ho, h5⟩ := h
  have hc := State.fqCaps_captured s r.ownerQ r.part cap h1 h2 h3
  have hm : (s.fqCaps r.ownerQ r.part).2.2.mem = s.mem := by unfold State.fqCaps; dsimp only; split <;> rfl
  have hb (a n : Nat) : (s.fqCaps r.ownerQ r.part).2.2.bytes a n = s.bytes a n := by unfold State.bytes; rw [hm]
  unfold State.post
  dsimp only
  have hne : (r.ownerQ && decide (s.fqBase r.ownerQ r.part = 0)) = false := by rw [decide_eq_false h4, Bool.and_false]
  have hno : (r.ownerQ && s.owState == 0) = false := by
    cases hb : r.ownerQ
    · rfl
    · rw [Bool.true_and]; exact beq_eq_false_iff_ne.mpr (ho hb)
  rw [hno, hne]
  simp only [Bool.false_eq_true, if_false]
  rw [hc]
  dsimp only
  rw [hb, hb, if_pos h5]
/-- While the module has no owner, a record to it is not posted. -/
theorem State.post_ownerless (s : State) (r : FaultRec) (h1 : r.ownerQ = true) (h2 : s.owState = 0) : (s.post r).1 = none := by
  unfold State.post
  rw [h1, h2]; rfl
theorem State.th_of_threads {s t : State} (h : t.threads = s.threads) (k : Nat) : t.th k = s.th k := by unfold State.th; rw [h]
/-- A thread that stops with a record: the record is posted, or waits with it. -/
theorem State.postStop_stops (s : State) (x : Thread) (r : FaultRec) :
    s.StopsWith ((s.setMe x).postStop s.tid r) x r := by
  have ht : ((s.setMe x).post r).2.threads = (s.setMe x).threads := State.post_threads ..
  have hc : ((s.setMe x).post r).2.cur = s.cur := State.post_cur ..
  have h1 : (s.setMe x).th s.tid = x := State.me_setMe ..
  have hm : ((s.setMe x).post r).2.th s.tid = x := by rw [State.th_of_threads ht]; exact h1
  have hsame : ∀ a : State, a.tid = s.tid → ∀ t, (a.setTh s.tid t).me = t := by
    intro a ha t
    unfold State.me
    have : (a.setTh s.tid t).tid = s.tid := ha
    rw [this]; exact mapGet_mapPut_self ..
  have htid : ((s.setMe x).post r).2.tid = s.tid := by unfold State.tid; rw [hc]
  have hoth (k : Nat) (hk : k ≠ s.tid) : ((s.setMe x).post r).2.th k = s.th k := by
    rw [State.th_of_threads ht]; exact State.th_setMe_ne s k x hk
  unfold State.postStop
  cases hp : (s.setMe x).post r with
  | mk o u =>
    rw [hp] at ht hc hm htid hoth
    simp only [] at ht hc hm htid hoth
    cases o with
    | some q =>
      simp only [hm]
      refine ⟨?_, ?_, ?_, ?_, ?_⟩
      · rw [hsame u htid]
      · intro k hk; rw [State.th_setTh_ne _ _ _ _ hk]; exact hoth k hk
      · intro cap tail hq
        have := State.post_room (s.setMe x) r cap tail hq
        rw [hp] at this
        simp only [Option.some.injEq] at this
        refine ⟨this.2, ?_, ?_⟩
        · rw [hsame u htid]; exact this.1
        · rw [hsame u htid]
      · intro cap hq
        have := State.post_full (s.setMe x) r cap hq
        rw [hp] at this; exact absurd this (by simp)
      · intro h1 h2
        have := State.post_ownerless (s.setMe x) r h1 h2
        rw [hp] at this; exact absurd this (by simp)
    | none =>
      simp only [hm]
      refine ⟨?_, ?_, ?_, ?_, ?_⟩
      · rw [hsame u htid]
      · intro k hk; rw [State.th_setTh_ne _ _ _ _ hk]; exact hoth k hk
      · intro cap tail hq
        have := State.post_room (s.setMe x) r cap tail hq
        rw [hp] at this
        exact absurd this.1 (by simp)
      · intro _ _
        rw [hsame u htid]; exact ⟨rfl, rfl⟩
      · intro _ _
        rw [hsame u htid]; exact ⟨rfl, rfl⟩
theorem State.recFor_of (s u : State) (tid : Nat) (o : Bool) (k : Nat) (hp : u.pairs = s.pairs) (hpc : (u.th tid).pc = (s.th tid).pc) : u.recFor tid o k = s.recFor tid o k := by
  unfold State.recFor State.pair; rw [hp, hpc]

end Sys2Proof.Machine
end

