-- ==== Sys2Proof/Laws/Ordering.lean ====
section
/-! SUPPORT. Writes on their way to memory (04 R106 to R121): what committing, performing and draining do. -/

namespace Sys2Proof.Machine

/-- A committed write is the newest; nothing else changes. -/
theorem State.commit_appends (s : State) (tid slice : Nat) (va : Word) (addr : Nat) (op : PendOp) (release wide : Bool) :
    ∃ q : Pend, s.commit tid slice va addr op release wide = { s with pend := s.pend ++ [q], wseq := s.wseq + 1 } ∧
      q.seq = s.wseq ∧ q.tid = tid ∧ q.addr = addr ∧ q.op = op ∧ q.slice = slice ∧
      q.after = (if release then s.wseq else (s.th tid).barrier) := ⟨_, rfl, rfl, rfl, rfl, rfl, rfl, rfl⟩

theorem State.post_pend (s : State) (r : FaultRec) : (s.post r).2.pend = s.pend := (s.post_own r).pend
theorem State.logError_pend (s : State) (k u a c : Nat) : (s.logError k u a c).pend = s.pend := (s.logError_own k u a c).pend
theorem State.sendPosted_pend (s : State) (tid : Nat) (c : Option (Nat × Nat)) (a n : Nat) (va pc : Word) (acc : Nat) (m : Wire → OutMsg) :
    (s.sendPosted tid c a n va pc acc m).pend = s.pend := by
  unfold State.sendPosted
  split
  · split
    · rfl
    · exact State.logError_pend ..
  · rfl
  · rfl
  · rfl
theorem State.lostAtMemory_pend (s : State) (tid : Nat) (va pc : Word) (acc : Nat) : (s.lostAtMemory tid va pc acc).pend = s.pend := State.post_pend ..
theorem State.putPend_pend (s : State) (p : Pend) : (s.putPend p).pend = s.pend := by unfold State.putPend; split <;> rfl
theorem State.memAdd_pend (s : State) (tid a fmt : Nat) (fcs : Word) (e v : Nat) (va pc : Word) :
    (s.memAdd tid a fmt fcs e v va pc).pend = s.pend := by
  unfold State.memAdd; dsimp only; split
  · exact State.lostAtMemory_pend ..
  · rfl
theorem State.reduceAdd_pend (s : State) (tid a fmt k : Nat) (fcs : Word) (e : Nat) (v va pc : Word) :
    (s.reduceAdd tid a fmt k fcs e v va pc).pend = s.pend := by
  unfold State.reduceAdd; dsimp only; split
  · exact State.lostAtMemory_pend ..
  · rfl
theorem foldl_pend {α : Type} (f : State → α → State) (h : ∀ s a, (f s a).pend = s.pend) (l : List α) (s : State) :
    (l.foldl f s).pend = s.pend := by
  induction l generalizing s with
  | nil => rfl
  | cons a t ih => rw [List.foldl_cons, ih, h]
/-- A store at memory takes no write's place: those on their way are some of those before, for a request that replaces a lost word is performed
whole. -/
theorem State.memWrite_pend (s : State) (p q : Pend) (n : Nat) (h : q ∈ (s.memWrite p n).pend) : q ∈ s.pend := by
  unfold State.memWrite at h
  dsimp only at h
  split at h
  · rw [State.putPend_pend] at h; exact h
  · split at h
    · rw [List.mem_filter] at h
      have := h.1
      rw [foldl_pend State.putPend State.putPend_pend] at this
      exact this
    · rw [State.lostAtMemory_pend] at h; exact h
theorem State.performOp_pend (s : State) (p q : Pend) (h : q ∈ (s.performOp p).pend) : q ∈ s.pend := by
  unfold State.performOp at h
  split at h
  · split at h
    · exact State.memWrite_pend _ _ _ _ h
    · rw [State.sendPosted_pend] at h; exact h
  · split at h
    · exact State.memWrite_pend _ _ _ _ h
    · exact h
  · split at h
    · rw [State.memAdd_pend] at h; exact h
    · rw [State.sendPosted_pend] at h; exact h
  · rw [State.memAdd_pend] at h; exact h
  · split at h
    · rw [foldl_pend (fun (s : State) (e : Nat × Nat × Word) => _) (fun s e => State.reduceAdd_pend ..)] at h; exact h
    · rw [State.sendPosted_pend] at h; exact h
  · exact h

/-- Performing a write takes it off the list of those on their way, and none joins. -/
theorem State.perform_pend (s : State) (p q : Pend) (h : q ∈ (s.perform p).pend) : q ∈ s.pend ∧ q.seq ≠ p.seq := by
  unfold State.perform State.dropPend at h
  rw [List.mem_filter] at h
  exact ⟨State.performOp_pend _ _ _ h.1, bne_iff_ne.mp h.2⟩

theorem performAll_pend (d : List Pend) (s : State) (q : Pend) :
    q ∈ (d.foldl (fun (s : State) p => s.perform p) s).pend → q ∈ s.pend ∧ ∀ p ∈ d, q.seq ≠ p.seq := by
  induction d generalizing s with
  | nil => intro h; exact ⟨h, by simp⟩
  | cons p t ih =>
    intro h
    rw [List.foldl_cons] at h
    have := ih _ h
    have hp := State.perform_pend _ _ _ this.1
    refine ⟨hp.1, ?_⟩
    intro r hr
    rcases List.mem_cons.mp hr with rfl | hr
    · exact hp.2
    · exact this.2 r hr

theorem mem_drainSet (need : Pend → Bool) (l : List Pend) (p : Pend) (h : p ∈ l) (hn : need p = true) : p ∈ drainSet need l := by
  induction l with
  | nil => exact absurd h (by simp)
  | cons q t ih =>
    unfold drainSet
    rw [List.foldr_cons]
    rcases List.mem_cons.mp h with rfl | h
    · rw [hn]; simp
    · have := ih h
      unfold drainSet at this
      split
      · exact List.mem_cons_of_mem _ this
      · exact this

/-- After a drain none of the named writes is on its way, and no write has joined. -/
theorem State.drain_leaves (s t : State) (need : Pend → Bool) (h : s.drain need = some t) :
    ∀ p ∈ t.pend, p ∈ s.pend ∧ need p = false := by
  unfold State.drain at h
  dsimp only at h
  split at h
  · exact absurd h (by simp)
  · injection h with h
    intro p hp
    rw [← h] at hp
    obtain ⟨h1, h2⟩ := performAll_pend _ _ _ hp
    refine ⟨h1, ?_⟩
    cases c : need p with
    | false => rfl
    | true => exact absurd rfl (h2 p (mem_drainSet need _ p h1 c))

/-- With nothing on its way a drain does nothing. -/
theorem State.drain_nil (s : State) (need : Pend → Bool) (h : s.pend = []) : s.drain need = some s := by
  unfold State.drain; simp only [h, drainSet, List.foldr_nil, List.any_nil, Bool.false_eq_true, if_false, List.foldl_nil]

end Sys2Proof.Machine
end

