-- ==== Sys2Proof/Laws/Vector.lean ====
section
/-! SUPPORT. The frames of vector instructions: register storage alone moves with the destination, and what an instruction that ends at VL without
trimming leaves. -/

namespace Sys2Proof.Machine

/-! ## Writes of register storage -/

/-- Only register storage differs. -/
def State.OnlyRegs (s t : State) : Prop := t = { s with regs := t.regs, regBad := t.regBad }

theorem State.OnlyRegs.refl (s : State) : s.OnlyRegs s := rfl
theorem State.OnlyRegs.trans {s t u : State} (h : s.OnlyRegs t) (g : t.OnlyRegs u) : s.OnlyRegs u := by
  unfold State.OnlyRegs at *; rw [h] at g; exact g
theorem State.OnlyRegs.me {s t : State} (h : s.OnlyRegs t) : t.me = s.me := by rw [h]; rfl
theorem State.OnlyRegs.tid {s t : State} (h : s.OnlyRegs t) : t.tid = s.tid := by rw [h]; rfl
theorem onlyRegs_foldl {α : Type} (f : State → α → State) (h : ∀ (s : State) (a : α), s.OnlyRegs (f s a)) (l : List α) (s : State) :
    s.OnlyRegs (l.foldl f s) := by
  induction l generalizing s with
  | nil => exact State.OnlyRegs.refl s
  | cons a t ih => exact (h s a).trans (ih _)

theorem State.putReg_only (s : State) (k : Nat) (bs : List Byte) : s.OnlyRegs (s.putReg k bs) := rfl
theorem State.zeroReg_only (s : State) (k n : Nat) : s.OnlyRegs (s.zeroReg k n) := rfl
theorem State.moveReg_only (s : State) (a b n : Nat) : s.OnlyRegs (s.moveReg a b n) := rfl
theorem State.setElem_only (s : State) (x : Lanes) (o : Operand) (i v : Nat) : s.OnlyRegs (s.setElem x o i v) := by
  unfold State.setElem
  split
  · exact State.OnlyRegs.refl s
  · dsimp only; split <;> rfl
theorem State.setMaskBit_only (s : State) (x : Lanes) (m i : Nat) (v : Bool) : s.OnlyRegs (s.setMaskBit x m i v) := by
  unfold State.setMaskBit
  split
  · exact State.OnlyRegs.refl s
  · rfl
theorem State.rotateY_only (s : State) (x : Lanes) : s.OnlyRegs (s.rotateY x) := onlyRegs_foldl _ (fun s pl => State.moveReg_only ..) _ _
theorem State.keepElem_only (s : State) (x : Lanes) (a b : Operand) (i : Nat) : s.OnlyRegs (s.keepElem x a b i) := by
  have h := State.setElem_only s x b i (s.elem x a i)
  unfold State.keepElem
  dsimp only
  split
  · exact h
  · split
    · exact h.trans rfl
    · exact h
theorem State.resultToY0_only (s : State) (x : Lanes) (o : Operand) (res : Nat → Option Nat) : s.OnlyRegs (s.resultToY0 x o res) := by
  unfold State.resultToY0
  refine onlyRegs_foldl _ (fun s i => ?_) _ _
  split
  · exact State.setElem_only ..
  · exact State.keepElem_only ..
theorem State.writeDst_only (s : State) (x : Lanes) (dst : Dst) (noMp : Bool) (es stop : Nat) (els : List Elem) :
    s.OnlyRegs (s.writeDst x dst noMp es stop els) := by
  unfold State.writeDst
  refine onlyRegs_foldl _ (fun s d => ?_) _ _
  dsimp only
  split
  · exact State.setElem_only ..
  · exact State.setMaskBit_only ..
  · exact State.OnlyRegs.refl s
theorem State.writeTail_only (s : State) (x : Lanes) (dst : Dst) (n : Nat) : s.OnlyRegs (s.writeTail x dst n) := by
  unfold State.writeTail
  split
  · exact State.OnlyRegs.refl s
  · split
    · exact onlyRegs_foldl _ (fun s d => State.setElem_only ..) _ _
    · exact onlyRegs_foldl _ (fun s d => State.setMaskBit_only ..) _ _
    · exact State.OnlyRegs.refl s
/-- Writing a destination with its rotation changes register storage alone. -/
theorem State.rotating_only (s : State) (x : Lanes) (dst : Dst) (res : Nat → Option Nat) (w : State → State) (h : ∀ s : State, s.OnlyRegs (w s)) :
    s.OnlyRegs (s.rotating x dst res w) := by
  unfold State.rotating
  split
  · split
    · exact (State.rotateY_only s x).trans (h _)
    · exact (h s).trans ((State.rotateY_only ..).trans (State.resultToY0_only ..))
  · exact h s
theorem State.putResult_only (s : State) (x : Lanes) (dst : Dst) (noMp : Bool) (es stop tail : Nat) (els : List Elem) :
    s.OnlyRegs (s.putResult x dst noMp es stop tail els) :=
  State.rotating_only _ _ _ _ _ fun _ => (State.writeDst_only ..).trans (State.writeTail_only ..)

/-! ## The element-wise frame -/

theorem Thread.bound_none (t : Thread) (h : ∀ j : Nat, (t.binds[j]?).getD none = none) (c : BitVec 6) (w : Bool) : t.bound c w = none := by
  have : t.boundSlot c = none := by
    unfold Thread.boundSlot
    split
    · rfl
    · rw [List.find?_eq_none]
      intro j _
      rw [h j]; simp
  unfold Thread.bound; rw [this]

theorem VSpec.readBinds_none (sp : VSpec) (t : Thread) (h : ∀ j : Nat, (t.binds[j]?).getD none = none) : sp.readBinds t = [] := by
  unfold VSpec.readBinds
  suffices ∀ l : List (BitVec 6 × Operand), ∀ acc : List (BitVec 6 × Operand × Bind), l.foldl (fun acc e =>
    if acc.any fun o => o.1 == e.1 then acc
    else match t.bound e.1 false with
      | some b => acc ++ [(e.1, e.2, b)]
      | none => acc) acc = acc by exact this _ _
  intro l
  induction l with
  | nil => intro acc; rfl
  | cons e r ih =>
    intro acc
    rw [List.foldl_cons, ih, Thread.bound_none t h]
    split <;> rfl
theorem VSpec.writeBind_none (sp : VSpec) (t : Thread) (h : ∀ j : Nat, (t.binds[j]?).getD none = none) : sp.writeBind t = none := by
  unfold VSpec.writeBind
  split
  · exact Thread.bound_none t h _ _
  · rfl

theorem translateFrom_nil (w : Who) (l : List Nat) (s : State) (got : List (Nat × List Placed)) :
    translateFrom w (fun _ => []) l s [] got = (⟨got ++ l.map fun i => (i, []), none, false⟩, s) := by
  induction l generalizing got with
  | nil => simp [translateFrom]
  | cons i r ih =>
    unfold translateFrom
    unfold translateAccs
    simp only
    rw [ih]
    simp
theorem State.freshen_nil (s : State) (w : Who) : s.freshen w [] = s := by
  simp [State.freshen]
theorem translateElems_nil (w : Who) (l : List Nat) (s : State) (got : List (Nat × List Placed)) :
    translateElems w (fun _ => []) l s [] got = (⟨got ++ l.map fun i => (i, []), none, false⟩, s) := by
  have hl : (l.flatMap fun _ => ([] : List Acc)) = [] := by simp
  unfold translateElems
  rw [hl, State.freshen_nil, translateFrom_nil]

theorem readElems_nil (tid : Nat) (l : List Nat) (v : Seen) (s : State) (got : List (Nat × List (List Byte))) :
    readElems tid (l.map fun i => (i, [])) v got s = (⟨got ++ l.map fun i => (i, []), none, false⟩, v, s) := by
  induction l generalizing got with
  | nil => simp [readElems]
  | cons i r ih =>
    rw [List.map_cons]
    unfold readElems
    unfold readAccs
    simp only
    rw [ih]
    simp
theorem State.loadBeside_nil (s : State) (tid : Nat) (v : Seen) (l : List Nat) (keep last : Bool) :
    s.loadBeside tid v (l.map fun i => (i, [])) keep last = (⟨l.map fun i => (i, []), none, false⟩, { v with reps := [] }, s) := by
  have ho : outboundReqs (l.map fun i => (i, ([] : List Placed))) = [] := by
    have : (l.map fun i => (i, ([] : List Placed))).flatMap (fun e =>
        (e.2.filter fun p => p.loads && p.at_.isOutbound).map fun p => (p.at_.pa, p.acc.n)) = [] := by
      induction l with
      | nil => rfl
      | cons i r ih => simp
    unfold outboundReqs
    rw [this]
    rfl
  unfold State.loadBeside State.replies
  rw [ho]
  simp only [List.isEmpty_nil, if_true]
  rw [readElems_nil]
  simp
theorem State.loadElems_nil (s : State) (tid : Nat) (l : List Nat) :
    s.loadElems tid (l.map fun i => (i, [])) = (⟨l.map fun i => (i, []), none, false⟩, s) := by
  unfold State.loadElems
  rw [State.loadBeside_nil]

theorem State.elemFails_none (s : State) (h : s.regBad = []) (x : Lanes) (o : Operand) (i : Nat) : s.elemFails x o i = false := by
  unfold State.elemFails; rw [h]; rfl
theorem State.maskFails_none (s : State) (h : s.regBad = []) (x : Lanes) (m i : Nat) : s.maskFails x m i = false := by
  unfold State.maskFails; rw [h]; rfl

/-- Without streams nothing is staged. -/
theorem stageAll_nil (t : Thread) (x : Lanes) (l : List Nat) (s : State) (got : List (Nat × Exc × List (List Byte))) :
    stageAll t x [] (l.map fun i => (i, [])) s got = (s, got ++ l.map fun i => (i, 0, []), none) := by
  induction l generalizing got with
  | nil => simp [stageAll]
  | cons i r ih =>
    have he : t.enabled 0 = false := by simp [Thread.enabled]
    rw [List.map_cons]
    unfold stageAll
    simp only [stageStreams, he, Bool.false_eq_true, if_false]
    rw [ih]
    simp

/-- Elements whose exceptions are not enabled are all computed. -/
theorem computeElems_plain (t : Thread) (x : Lanes) (sp : VSpec) (s : State) (hb : s.regBad = []) (hs : sp.bad = fun _ _ _ => false)
    (f : Nat → Nat × Exc) (hf : ∀ pl i bs, sp.value pl s x i bs = (some (f i).1, (f i).2)) (l : List Nat) (pl : List (Nat × List Placed))
    (hpl : ∀ p ∈ pl, p.2 = []) (hn : ∀ i ∈ l, t.ten &&& (f i).2 = 0) (acc : List Elem) :
    computeElems t x sp [] s pl (l.map fun i => ((i, 0, []), [])) acc = (acc ++ elemsOf l f, none) := by
  induction l generalizing acc with
  | nil => simp [computeElems, elemsOf]
  | cons i r ih =>
    rw [List.map_cons]
    unfold computeElems
    have e1 : ∀ l : List (BitVec 6 × Operand), (l.any fun e => !(([] : List (BitVec 6 × Operand × Bind)).any fun b => b.1 == e.1) && s.elemFails x e.2 i) = false := by
      intro l; rw [List.any_eq_false]; intro e _; rw [s.elemFails_none hb]; simp
    have e2 : ∀ l : List Operand, (l.any fun o => s.elemFails x o i) = false := by
      intro l; rw [List.any_eq_false]; intro e _; rw [s.elemFails_none hb]; simp
    have e3 : ∀ l : List Nat, (l.any fun m => s.maskFails x m i) = false := by
      intro l; rw [List.any_eq_false]; intro e _; rw [s.maskFails_none hb]; simp
    rw [e1, e2, e3, hs]
    have hz : (0 : Exc) ||| (sp.value pl s x i []).2 = (f i).2 := by rw [hf]; simp
    have hen : t.enabled ((0 : Exc) ||| (sp.value pl s x i []).2) = false := by
      rw [hz]; unfold Thread.enabled; rw [hn i List.mem_cons_self]; rfl
    have hfind : (match pl.find? fun p => p.1 == i with
        | some p => p.2
        | none => ([] : List Placed)) = [] := by
      split
      · rename_i p hp; exact hpl _ (List.mem_of_find?_eq_some hp)
      · rfl
    have rest : (if t.enabled ((0 : Exc) ||| (sp.value pl s x i []).2) = true then (acc, some (i, Fail.arith (0 ||| (sp.value pl s x i []).2)))
        else computeElems t x sp [] s pl (r.map fun i => ((i, 0, []), [])) (acc ++ [⟨i, (sp.value pl s x i []).1, 0 ||| (sp.value pl s x i []).2,
          (match pl.find? fun p => p.1 == i with
          | some p => p.2
          | none => []), []⟩])) = (acc ++ elemsOf (i :: r) f, none) := by
      rw [hen]
      simp only [Bool.false_eq_true, if_false]
      rw [hfind, hz, hf, ih (fun j hj => hn j (List.mem_cons_of_mem _ hj))]
      simp [elemsOf]
    simp only [Bool.or_false]
    split
    · simp only [s.elemFails_none hb, Bool.and_false, Bool.or_false, Bool.false_eq_true, if_false]; exact rest
    · simp only [Bool.or_false, Bool.false_eq_true, if_false]; exact rest

/-- What the frame needs to know of a specification. -/
structure VSpec.Simple (sp : VSpec) (s : State) (f : Nat → Nat × Exc) : Prop where
  accs : sp.accs = noAccs
  bad : sp.bad = fun _ _ _ => false
  neg : sp.neg = false
  rot : sp.noRot = false
  late : ∀ u els, sp.late u els = none
  comp : ∀ pl i bs, sp.value pl s (s.lanesOf s.tid) i bs = (some (f i).1, (f i).2)
  fin : ∀ u : State, u.me.cut = 0 → u.me.replaying = false → (sp.fin u).me.cut = 0 ∧ (sp.fin u).me.replaying = false
  lead : sp.startOf s.me < sp.capacity s.me (s.lanesOf s.tid)
  room : s.me.vlen ≤ sp.capacity s.me (s.lanesOf s.tid)

theorem filter_lt_range (n es : Nat) : ((List.range (n - es)).map (es + ·)).filter (fun i => decide (i < n)) = (List.range (n - es)).map (es + ·) := by
  rw [List.filter_eq_self]
  intro a ha
  obtain ⟨k, hk, rfl⟩ := List.mem_map.mp ha
  rw [List.mem_range] at hk
  simp; omega

theorem elemsOf_i (l : List Nat) (f : Nat → Nat × Exc) (e : Elem) (h : e ∈ elemsOf l f) : e.i ∈ l ∧ e.placed = [] := by
  obtain ⟨i, hi, rfl⟩ := List.mem_map.mp h
  exact ⟨hi, rfl⟩

/-- The scan finds every active element. -/
theorem State.vscan_plain (s : State) (sp : VSpec) (f : Nat → Nat × Exc) (hp : s.Plain) (h : sp.Simple s f)
    (hn : s.NoTrap (s.actives (sp.startOf s.me) sp.mask) f) :
    s.vscan sp = (some ⟨s.me.vlen, none, elemsOf (s.actives (sp.startOf s.me) sp.mask) f, none, []⟩, s) := by
  obtain ⟨-, hb, hc, hbn, -⟩ := hp
  have hmin : Nat.min s.me.vlen (sp.capacity s.me (s.lanesOf s.tid)) = s.me.vlen := Nat.min_eq_left h.room
  have hrb := sp.readBinds_none s.me hbn
  have hwb := sp.writeBind_none s.me hbn
  have hmask : (if sp.mask = 0 then none else ((List.range (s.me.vlen - sp.startOf s.me)).map (sp.startOf s.me + ·)).find? fun i =>
      s.maskFails (s.lanesOf s.tid) sp.mask.toNat i) = (none : Option Nat) := by
    split
    · rfl
    · rw [List.find?_eq_none]; intro i _; rw [s.maskFails_none hb]; simp
  unfold State.vscan
  simp only [hmin, hmask, hrb, hwb, h.accs, h.neg, if_neg (Nat.not_lt.mpr h.room), Option.getD_none, Option.isSome_none, Bool.false_eq_true,
    if_false, List.flatMap_nil, List.nil_append, List.append_nil, noAccs, filter_lt_range, List.filter_nil, State.lookStreams, List.isEmpty_nil, if_true,
    ite_self]
  have hact : (((List.range (s.me.vlen - sp.startOf s.me)).map (sp.startOf s.me + ·)).filter fun i => s.active (s.lanesOf s.tid) sp.mask false i) =
      s.actives (sp.startOf s.me) sp.mask := rfl
  rw [hact, translateElems_nil]
  simp only [List.nil_append, State.padPlace, ite_self, Option.map_none, Option.toList_none, List.append_nil]
  rw [s.loadBeside_nil]
  have hd : ((s.actives (sp.startOf s.me) sp.mask).map fun i => (i, ([] : List (List Byte)))).filter (fun e => decide (e.1 < s.me.vlen)) =
      (s.actives (sp.startOf s.me) sp.mask).map fun i => (i, []) := by
    rw [List.filter_eq_self]
    intro e he
    obtain ⟨i, hi, rfl⟩ := List.mem_map.mp he
    obtain ⟨k, hk, hk2⟩ := List.mem_map.mp (List.mem_filter.mp hi).1
    rw [List.mem_range] at hk
    simp; omega
  have hq : ((s.actives (sp.startOf s.me) sp.mask).map fun i => (i, ([] : List (List Byte)))).find? (fun e => e.1 == s.me.vlen) = none := by
    rw [List.find?_eq_none]
    intro e he
    obtain ⟨i, hi, rfl⟩ := List.mem_map.mp he
    obtain ⟨k, hk, hk2⟩ := List.mem_map.mp (List.mem_filter.mp hi).1
    rw [List.mem_range] at hk
    simp; omega
  simp only [hd, hq, Option.bind_none, Option.getD_none, Option.filter_none]
  rw [stageAll_nil]
  have hz : ∀ l : List Nat, (l.map fun i => (i, (0 : Exc), ([] : List (List Byte)))).zip ((l.map fun i => (i, ([] : List (List Byte)))).map (·.2)) =
      l.map fun i => ((i, (0 : Exc), ([] : List (List Byte))), ([] : List (List Byte))) := by
    intro l
    induction l with
    | nil => rfl
    | cons i r ih => simp only [List.map_cons, List.zip_cons_cons, ih]
  simp only [List.nil_append, hz]
  have hce := computeElems_plain s.me (s.lanesOf s.tid) sp s hb h.bad f h.comp (s.actives (sp.startOf s.me) sp.mask)
    ((s.actives (sp.startOf s.me) sp.mask).map fun i => (i, [])) (by intro p hp; obtain ⟨i, _, rfl⟩ := List.mem_map.mp hp; rfl) hn []
  simp only [hce, List.nil_append, lower, encodeFails, h.late, hc, bne_self_eq_false, Bool.false_and, Bool.false_eq_true, if_false, blockEnd,
    Option.getD_none, Option.isSome_none, Option.map_none]
  have hfil : ((elemsOf (s.actives (sp.startOf s.me) sp.mask) f).filter fun e => decide (e.i < s.me.vlen)) =
      elemsOf (s.actives (sp.startOf s.me) sp.mask) f := by
    rw [List.filter_eq_self]
    intro e he
    have h1 := (elemsOf_i _ _ e he).1
    have h2 := (List.mem_filter.mp h1).1
    obtain ⟨k, hk, hk2⟩ := List.mem_map.mp h2
    rw [List.mem_range] at hk
    simp; omega
  rw [hfil]

theorem Thread.replaying_of (t u : Thread) (h1 : u.rps = t.rps) (h2 : u.sup = t.sup) (h3 : u.tca = t.tca) : u.replaying = t.replaying := by
  unfold Thread.replaying; rw [h1, h2, h3]

/-- Ending a vector instruction outside a replay and without a pre-emption mark. -/
theorem State.vdone_plain (u : State) (hc : u.me.cut = 0) (hr : u.me.replaying = false) :
    u.vdone = u.setMe { u.me with es := 0, lastFault := none, pc := u.me.pc + 4 } := by
  have e : ({ u.me with es := 0 } : Thread).usedCut = { u.me with es := 0 } := by
    unfold Thread.usedCut; exact if_pos hc
  unfold State.vdone
  rw [e]
  unfold State.retire
  rw [State.me_setMe, Thread.retire_plain _ (by rw [← hr]; exact Thread.replaying_of _ _ rfl rfl rfl)]
  exact State.setMe_setMe ..

theorem State.countParts_nil (s : State) (sp : VSpec) (t : Thread) (hb : ∀ j : Nat, (t.binds[j]?).getD none = none) (els : List Elem)
    (he : ∀ e ∈ els, e.placed = []) : s.countParts sp t els = s := by
  unfold State.countParts
  suffices ∀ l : List Elem, (∀ e ∈ l, e.placed = []) → ∀ u : State,
      l.foldl (fun (s : State) e => s.countElem (s.who s.tid) (sp.hotParts t e.placed)) u = u from
    this els he s
  intro l
  induction l with
  | nil => intro _ u; rfl
  | cons e r ih =>
    intro h u
    rw [List.foldl_cons, h e List.mem_cons_self]
    have hp : sp.hotParts t [] = [(sp.hot, [])] := by
      unfold VSpec.hotParts
      rw [sp.readBinds_none t hb, sp.writeBind_none t hb]
      rfl
    have : u.countElem (u.who u.tid) [(sp.hot, [])] = u := by
      have : hotPages [(sp.hot, [])] = [] := by
        unfold hotPages
        simp only [List.foldl_cons, List.foldl_nil, ite_self]
      unfold State.countElem
      rw [this]; rfl
    rw [hp, this]
    exact ih (fun e he => h e (List.mem_cons_of_mem _ he)) u

/-- An element-wise instruction that ends at VL without trimming. -/
theorem State.vframe_plain (s : State) (sp : VSpec) (f : Nat → Nat × Exc) (hp : s.Plain) (h : sp.Simple s f)
    (hn : s.NoTrap (s.actives (sp.startOf s.me) sp.mask) f) :
    s.vframe sp noExtra =
      let els := elemsOf (s.actives (sp.startOf s.me) sp.mask) f
      s.vectorLeaves sp.dst sp.noMp (sp.startOf s.me) s.me.vlen (orExc els) els id sp.fin := by
  obtain ⟨hr, hb, hc, hbn, hv⟩ := hp
  have hrb := sp.readBinds_none s.me hbn
  have hwb := sp.writeBind_none s.me hbn
  have hmis : sp.misplacedBlock s.me = false := by unfold VSpec.misplacedBlock; rw [hwb]
  have hscan := s.vscan_plain sp f ⟨hr, hb, hc, hbn, hv⟩ h hn
  unfold State.vframe
  simp only [if_neg hv, if_neg (Nat.not_le.mpr h.lead), hmis, Bool.false_eq_true, if_false, hscan]
  have hlead : (Outcome.mk s.me.vlen none (elemsOf (s.actives (sp.startOf s.me) sp.mask) f) none []).atLead (sp.startOf s.me) = none := rfl
  rw [hlead]
  simp only []
  generalize hE : elemsOf (s.actives (sp.startOf s.me) sp.mask) f = els
  have hpl : ∀ e ∈ els, e.placed = [] := by
    intro e he; rw [← hE] at he; exact (elemsOf_i _ _ e he).2
  have hfl : sp.flags s.me els = orExc els := by unfold VSpec.flags; rw [hwb]; simp
  have hsc : sp.streamCodes s.me = [] := by
    unfold VSpec.streamCodes; rw [hrb, hwb]
    split <;> simp_all
  have hbn1 : ∀ j : Nat, ((s.me.addFlags (orExc els)).binds[j]?).getD none = none := hbn
  have hap : s.vapply sp noExtra (s.lanesOf s.tid) s.me.vlen els = s.setMe (s.me.addFlags (orExc els)) := by
    unfold State.vapply
    simp only [hfl, noExtra, hwb]
    exact State.countParts_nil _ sp s.me hbn els hpl
  unfold State.vcommit
  simp only [hsc, hap]
  unfold State.vcomplete State.vectorLeaves
  simp only [h.rot, Bool.false_eq_true, if_false, id, State.advanceBinds, List.foldl_nil]
  have hreg := State.putResult_only (s.setMe (s.me.addFlags (orExc els))) (s.lanesOf s.tid) sp.dst sp.noMp (sp.startOf s.me) s.me.vlen s.me.vlen els
  have hme := hreg.me
  rw [State.me_setMe] at hme
  generalize (s.setMe (s.me.addFlags (orExc els))).putResult (s.lanesOf s.tid) sp.dst sp.noMp _ _ _ els = u at *
  have h1 : u.me.cut = 0 := by rw [hme]; exact hc
  have h2 : u.me.replaying = false := by rw [hme, ← hr]; exact Thread.replaying_of _ _ rfl rfl rfl
  obtain ⟨h3, h4⟩ := h.fin u h1 h2
  exact State.vdone_plain _ h3 h4

/-- A smallest capacity bounds what every capacity bounds. -/
theorem minCap_bounds (l : List Nat) (d es n : Nat) (hd : es < d ∧ n ≤ d) (h : ∀ c ∈ l, es < c ∧ n ≤ c) : es < minCap l d ∧ n ≤ minCap l d := by
  unfold minCap
  induction l generalizing d with
  | nil => exact hd
  | cons c r ih =>
    rw [List.foldl_cons]
    have hc := h c List.mem_cons_self
    refine ih (Nat.min d c) ⟨?_, ?_⟩ fun e he => h e (List.mem_cons_of_mem _ he)
    · exact Nat.lt_min.mpr ⟨hd.1, hc.1⟩
    · exact Nat.le_min.mpr ⟨hd.2, hc.2⟩

/-! ## The whole-strip frame -/

/-- The element an instruction of this frame begins at, and the elements it works on. -/
def WSpec.startOf (sp : WSpec) (t : Thread) : Nat := if sp.whole then 0 else t.start
def WSpec.acts (sp : WSpec) (s : State) : List Nat :=
  ((List.range (s.me.vlen - sp.startOf s.me)).map (sp.startOf s.me + ·)).filter fun i => sp.whole || s.active (s.lanesOf s.tid) sp.mask false i

/-- What writes the second register, if there is one. -/
def WSpec.pre (sp : WSpec) (r : WRes) (s : State) : State :=
  match sp.second with
  | some (_, o) => s.writeSecond o r.vals2 r.tail
  | none => s

/-- What this frame needs to know of a specification: its result at VL, which does not fail. -/
structure WSpec.Simple (sp : WSpec) (s : State) (r : WRes) : Prop where
  run : sp.run s (s.lanesOf s.tid) s.me.vlen (sp.acts s) = r
  ok : r.fail = none
  fin : ∀ (u : State) (v : Option Word), u.me.cut = 0 → u.me.replaying = false → (sp.fin u v).me.cut = 0 ∧ (sp.fin u v).me.replaying = false
  lead : sp.startOf s.me < sp.capacity s.me (s.lanesOf s.tid)
  room : s.me.vlen ≤ sp.capacity s.me (s.lanesOf s.tid)
  few : s.me.vlen ≤ sp.limit

theorem State.idleWindows_nil (s : State) (x : Lanes) (l : List Nat) : s.idleWindows x [] l = s := by
  unfold State.idleWindows
  split
  · induction l with
    | nil => rfl
    | cons i r ih => rw [List.foldl_cons]; exact ih
  · rfl

theorem filter_acts (n es : Nat) (p : Nat → Bool) : (((List.range (n - es)).map (es + ·)).filter p).filter (fun i => decide (i < n)) =
    ((List.range (n - es)).map (es + ·)).filter p := by
  rw [List.filter_eq_self]
  intro a ha
  obtain ⟨k, hk, rfl⟩ := List.mem_map.mp (List.mem_filter.mp ha).1
  rw [List.mem_range] at hk
  simp; omega

theorem WSpec.outlets_none (sp : WSpec) (t : Thread) (h : ∀ j : Nat, (t.binds[j]?).getD none = none) : sp.outlets t = [] := by
  unfold WSpec.outlets
  rw [sp.view.writeBind_none t h]
  cases sp.second with
  | none => split <;> simp_all
  | some c => simp only [Thread.bound_none t h, Option.toList_none, List.map_nil, ite_self]; split <;> simp_all
theorem State.wscan_plain (s : State) (sp : WSpec) (r : WRes) (hp : s.Plain) (h : sp.Simple s r) :
    s.wscan sp = (some ⟨⟨s.me.vlen, none, r, r.vals.map (elemOf [] r.each), []⟩, sp.acts s, [], []⟩, s) := by
  obtain ⟨-, hb, hc, hbn, -⟩ := hp
  have hmin : Nat.min s.me.vlen (sp.capacity s.me (s.lanesOf s.tid)) = s.me.vlen := Nat.min_eq_left h.room
  have hmin2 : Nat.min s.me.vlen sp.limit = s.me.vlen := Nat.min_eq_left h.few
  have hrb := sp.view.readBinds_none s.me hbn
  have hus := sp.outlets_none s.me hbn
  have hmask : ∀ l : List Nat, (if sp.mask = 0 then none else l.find? fun i => s.maskFails (s.lanesOf s.tid) sp.mask.toNat i) = (none : Option Nat) := by
    intro l
    split
    · rfl
    · rw [List.find?_eq_none]; intro i _; rw [s.maskFails_none hb]; simp
  have hact : (((List.range (s.me.vlen - if sp.whole then 0 else s.me.start)).map ((if sp.whole then 0 else s.me.start) + ·)).filter fun i =>
      sp.whole || s.active (s.lanesOf s.tid) sp.mask false i) = sp.acts s := rfl
  have hfil : (sp.acts s).filter (fun i => decide (i < s.me.vlen)) = sp.acts s := filter_acts ..
  have htr := translateElems_nil (s.who s.tid) [] s []
  have hld := s.loadElems_nil s.tid []
  unfold State.wscan
  simp only [hmin, hmin2, hmask, hrb, hus, if_neg (Nat.not_lt.mpr h.room), if_neg (Nat.not_lt.mpr h.few), Option.getD_none, Option.isSome_none,
    Bool.false_eq_true, if_false, filter_lt_range, List.isEmpty_nil, if_true, hact, List.flatMap_nil, List.append_nil, ite_self, Bool.and_true]
  simp only [List.map_nil, List.append_nil] at htr hld
  rw [htr]
  have hpart : (List.partition (fun e : Nat × List (List Byte) => (sp.acts s).contains e.1) []) = ([], []) := rfl
  simp only [hld, hpart, stageAll, List.map_nil, List.append_nil, lower]
  unfold wloop
  simp only [hfil, h.run, h.ok, WStage.outs, List.zipIdx_nil, List.map_nil, List.foldl_nil, encodeFails, blockEnd, Option.map_none, hc, bne_self_eq_false, Bool.false_and, Bool.false_eq_true, if_false]

theorem orExc_values (l : List (Nat × Nat)) : orExc (valuesOf l) = 0 := by
  unfold orExc valuesOf
  suffices ∀ e : Exc, (l.map fun e => (⟨e.1, some e.2, 0, [], []⟩ : Elem)).foldl (fun a e => a ||| e.exc) e = e from this 0
  induction l with
  | nil => intro e; rfl
  | cons a r ih => intro e; rw [List.map_cons, List.foldl_cons, ih]; simp

/-- An element list written to a destination counts by its indexes and values alone. -/
theorem State.putResult_values (s : State) (x : Lanes) (dst : Dst) (noMp : Bool) (es stop tail : Nat) (each : List (Nat × Exc)) (l : List (Nat × Nat)) :
    s.putResult x dst noMp es stop tail (l.map (elemOf [] each)) = s.putResult x dst noMp es stop tail (valuesOf l) := by
  have hw : ∀ t : Thread, t.written noMp es stop tail (l.map (elemOf [] each)) = t.written noMp es stop tail (valuesOf l) := by
    intro t; funext i
    unfold Thread.written valuesOf
    rw [List.find?_map, List.find?_map]
    have e : ((fun e : Elem => e.i == i) ∘ elemOf [] each) = (fun e : Elem => e.i == i) ∘ fun e : Nat × Nat => (⟨e.1, some e.2, 0, [], []⟩ : Elem) := rfl
    rw [e]
    cases l.find? ((fun e : Elem => e.i == i) ∘ fun e : Nat × Nat => (⟨e.1, some e.2, 0, [], []⟩ : Elem)) <;> rfl
  have hd : ∀ u : State, u.writeDst x dst noMp es stop (l.map (elemOf [] each)) = u.writeDst x dst noMp es stop (valuesOf l) := by
    intro u
    unfold State.writeDst valuesOf
    simp only [List.find?_map]
    congr 1
    funext acc d
    have e : ((fun e : Elem => e.i == es + d) ∘ elemOf [] each) = (fun e : Elem => e.i == es + d) ∘ fun e : Nat × Nat => (⟨e.1, some e.2, 0, [], []⟩ : Elem) := rfl
    rw [e]
    cases l.find? ((fun e : Elem => e.i == es + d) ∘ fun e : Nat × Nat => (⟨e.1, some e.2, 0, [], []⟩ : Elem)) <;> rfl
  unfold State.putResult
  rw [hw]
  simp only [hd]

theorem State.writeSecond_only (s : State) (o : Operand) (v : List (Nat × Nat)) (n : Nat) : s.OnlyRegs (s.writeSecond o v n) := by
  unfold State.writeSecond
  dsimp only
  split
  · exact (onlyRegs_foldl _ (fun s e => State.setElem_only ..) _ _).trans (onlyRegs_foldl _ (fun s e => State.setElem_only ..) _ _)
  · exact onlyRegs_foldl _ (fun s e => State.setElem_only ..) _ _

/-- A whole-strip instruction that ends at VL without trimming. -/
theorem State.wframe_plain (s : State) (sp : WSpec) (empty : Option Word) (r : WRes) (hp : s.Plain) (h : sp.Simple s r) (ho : sp.own = false)
    (hx : r.exc ||| orExc (r.vals.map (elemOf [] r.each)) = r.exc) :
    s.wframe sp empty = s.vectorLeaves sp.dst sp.whole (sp.startOf s.me) r.tail r.exc (valuesOf r.vals) (sp.pre r) fun u => sp.fin u r.scalar := by
  obtain ⟨hr, hb, hc, hbn, hv⟩ := hp
  have hrb := sp.view.readBinds_none s.me hbn
  have hwb := sp.view.writeBind_none s.me hbn
  have hmis : sp.misplaced s.me = false := by unfold WSpec.misplaced; rw [sp.outlets_none s.me hbn]; rfl
  have hscan := s.wscan_plain sp r ⟨hr, hb, hc, hbn, hv⟩ h
  have hlead : ¬ sp.capacity s.me (s.lanesOf s.tid) ≤ (if sp.whole = true then 0 else s.me.start) := Nat.not_le.mpr h.lead
  unfold State.wframe
  simp only [if_neg hv, if_neg hlead, hmis, Bool.false_eq_true, if_false, hscan]
  have hz : r.exc ||| 0 ||| orExc (r.vals.map (elemOf [] r.each)) = r.exc := by
    have : r.exc ||| 0 = r.exc := BitVec.or_zero
    rw [this]; exact hx
  unfold State.wcommit State.vectorLeaves
  simp only [hrb, ho, State.countWhole, List.filter_nil, List.map_nil, List.append_nil, List.foldl_nil, State.advanceBinds, Bool.false_eq_true, if_false, hz,
    State.putResult_values]
  generalize hu : s.setMe (s.me.addFlags r.exc) = u0
  have hl : s.lanesOf s.tid = u0.lanesOf u0.tid := by rw [← hu]; rfl
  have hm0 : u0.me = s.me.addFlags r.exc := by rw [← hu]; exact State.me_setMe ..
  have hpre : (match sp.second with
      | some (_, q) =>
        if (r.vals2.foldl (fun (s1 : State) e => s1.setElem (s.lanesOf s.tid) q e.1 e.2) u0).me.tp = true then
          (List.range (q.cap (s.lanesOf s.tid).count - r.tail)).foldl (fun (s1 : State) d => s1.setElem (s.lanesOf s.tid) q (r.tail + d) 0)
            (r.vals2.foldl (fun (s1 : State) e => s1.setElem (s.lanesOf s.tid) q e.1 e.2) u0)
        else r.vals2.foldl (fun (s1 : State) e => s1.setElem (s.lanesOf s.tid) q e.1 e.2) u0
      | none => u0) = sp.pre r u0 := by
    unfold WSpec.pre
    cases sp.second with
    | none => rfl
    | some q => simp only [State.writeSecond, hl]
  refine Eq.trans (congrArg (fun v : State => (sp.fin (v.putResult (s.lanesOf s.tid) sp.dst sp.whole (sp.startOf s.me) s.me.vlen r.tail (valuesOf r.vals))
    r.scalar).vdone) hpre) ?_
  have hpo : u0.OnlyRegs (sp.pre r u0) := by
    unfold WSpec.pre
    split
    · exact State.writeSecond_only ..
    · exact State.OnlyRegs.refl _
  have hreg := State.putResult_only (sp.pre r u0) (s.lanesOf s.tid) sp.dst sp.whole (sp.startOf s.me) s.me.vlen r.tail (valuesOf r.vals)
  have hme := hreg.me
  rw [hpo.me, hm0] at hme
  generalize (sp.pre r u0).putResult (s.lanesOf s.tid) sp.dst sp.whole _ _ _ _ = u at *
  have h1 : u.me.cut = 0 := by rw [hme]; exact hc
  have h2 : u.me.replaying = false := by rw [hme, ← hr]; exact Thread.replaying_of _ _ rfl rfl rfl
  obtain ⟨h3, h4⟩ := h.fin u r.scalar h1 h2
  exact State.vdone_plain _ h3 h4

/-- Elements whose exceptions a result does not list add no flag. -/
theorem orExc_plain (e : Exc) (l : List (Nat × Nat)) : e ||| orExc (l.map (elemOf [] [])) = e := by
  have h : l.map (elemOf [] []) = valuesOf l := List.map_congr_left fun a _ => by simp [elemOf, mapGet]
  rw [h, orExc_values]; simp

end Sys2Proof.Machine
end

