-- ==== Sys2Proof/Laws/Elements.lean ====
section
/-! SUPPORT. Element-wise instructions over a strip that fits: what the shared operations leave. -/

namespace Sys2Proof.Machine

theorem fin_plain : ∀ u : State, u.me.cut = 0 → u.me.replaying = false → ((fun s : State => s) u).me.cut = 0 ∧ ((fun s : State => s) u).me.replaying = false := fun _ a b => ⟨a, b⟩
theorem fin_popQ0 (q : BitVec 1) : ∀ u : State, u.me.cut = 0 → u.me.replaying = false → (u.popQ0 q).me.cut = 0 ∧ (u.popQ0 q).me.replaying = false := by
  intro u a b
  unfold State.popQ0
  split
  · rw [State.me_setMe]; exact ⟨a, b⟩
  · exact ⟨a, b⟩
theorem codeOfInt_eq (w : Nat) (i : Int) : codeOfInt w i = (BitVec.ofInt w i).toNat := by
  unfold codeOfInt; rw [BitVec.toNat_ofInt]
  simp
theorem intOf_toInt (w x : Nat) (hw : 0 < w) : intOf true w x = (BitVec.ofNat w x).toInt := by
  unfold intOf
  rw [BitVec.toInt_eq_toNat_cond]
  simp only [BitVec.toNat_ofNat, Bool.true_and, decide_eq_true_eq]
  have e : 2 ^ w = 2 * 2 ^ (w - 1) := by
    obtain ⟨k, rfl⟩ : ∃ k, w = k + 1 := ⟨w - 1, by omega⟩
    simp [Nat.pow_succ, Nat.mul_comm]
  have : (x % 2 ^ w) < 2 ^ w := Nat.mod_lt _ (Nat.two_pow_pos w)
  by_cases c : 2 ^ (w - 1) ≤ x % 2 ^ w
  · rw [if_pos c, if_neg (by omega)]; simp
  · rw [if_neg c, if_pos (by omega)]
theorem codeNibbles_pos (et : Nat) : 0 < codeNibbles et := by
  unfold codeNibbles; split <;> decide
theorem codeBits_pos (et : Nat) : 0 < codeBits et := by unfold codeBits; have := codeNibbles_pos et; omega
theorem Thread.et_lt (t : Thread) : t.et < 16 := by unfold Thread.et bits; omega
/-- The scalar of a VX word. -/
theorem State.scalarOrQueue_of (s : State) (n : BitVec 5) (q : BitVec 1) (v : Word) (h : s.Scalar n q v) : s.scalarOrQueue n q = some v := by
  unfold State.scalarOrQueue
  unfold State.Scalar at h
  by_cases c : q = 1
  · rw [if_pos c] at h ⊢; exact h
  · rw [if_neg c] at h ⊢; rw [h]
/-- A strip that fits every operand fits the instruction. -/
theorem VSpec.capacity_within (s : State) (sp : VSpec) (hbn : ∀ j : Nat, (s.me.binds[j]?).getD none = none) (hz : sp.fromZero = false) (hl : sp.limit = 2 ^ 64) (hraw : sp.raw = []) (hmo : sp.maskOut = false)
   (caps : List Nat) (h : s.Within s.me.start caps) (hne : caps ≠ [])
   (hs : ∀ e ∈ sp.srcs, s.capOf e.2 ∈ caps) (hd : match sp.dst with | .reg _ o => s.capOf o ∈ caps | .mask _ => maskCap (s.lanesOf s.tid).count ∈ caps | .none => True)
   (hm : sp.mask ≠ 0 → maskCap (s.lanesOf s.tid).count ∈ caps) (hms : sp.maskSrcs ≠ [] → maskCap (s.lanesOf s.tid).count ∈ caps) :
   sp.startOf s.me < sp.capacity s.me (s.lanesOf s.tid) ∧ s.me.vlen ≤ sp.capacity s.me (s.lanesOf s.tid) := by
  have hst : sp.startOf s.me = s.me.start := by unfold VSpec.startOf; rw [hz]; rfl
  rw [hst]
  unfold VSpec.capacity
  rw [sp.readBinds_none _ hbn, sp.writeBind_none _ hbn, hl, hraw, hmo]
  refine minCap_bounds _ _ _ _ ?_ ?_
  · have h1 : s.me.start < 2 ^ 21 := by unfold Thread.start bits; exact Nat.mod_lt _ (by decide)
    have h2 : s.me.vlen < 2 ^ 21 := by unfold Thread.vlen bits; exact Nat.mod_lt _ (by decide)
    constructor <;> omega
  · intro c hc
    apply h
    simp only [List.map_nil, List.append_nil, List.mem_append] at hc
    rcases hc with (hc | hc) | hc
    · obtain ⟨e, he, rfl⟩ := List.mem_map.mp hc; exact hs e he
    · cases hd' : sp.dst with
      | none => rw [hd'] at hc; simp at hc
      | reg c' o => rw [hd'] at hc hd; simp only [List.mem_singleton] at hc; rw [hc]; exact hd
      | mask m => rw [hd'] at hc hd; simp only [List.mem_singleton] at hc; rw [hc]; exact hd
    · split at hc
      · rename_i hcond
        simp only [List.mem_singleton] at hc
        rw [hc]
        by_cases c0 : sp.mask = 0
        · apply hms
          intro e; rw [c0, e] at hcond; simp at hcond
        · exact hm c0
      · simp at hc
theorem State.maskRoom_mem (s : State) (k : BitVec 3) (h : k ≠ 0) : maskCap (s.lanesOf s.tid).count ∈ s.maskRoom k := by
  unfold State.maskRoom; rw [if_neg h]; simp

/-- What an element-wise specification must say. -/
theorem VSpec.simple_of (s : State) (sp : VSpec) (g : Nat → Nat × Exc) (hp : s.Plain)
   (hc : ∀ pl i bs, sp.value pl s (s.lanesOf s.tid) i bs = (some (g i).1, (g i).2))
   (hf : ∀ u : State, u.me.cut = 0 → u.me.replaying = false → (sp.fin u).me.cut = 0 ∧ (sp.fin u).me.replaying = false)
   (caps : List Nat) (h : s.Within s.me.start caps) (hne : caps ≠ [])
   (hs : ∀ e ∈ sp.srcs, s.capOf e.2 ∈ caps) (hd : match sp.dst with | .reg _ o => s.capOf o ∈ caps | .mask _ => maskCap (s.lanesOf s.tid).count ∈ caps | .none => True)
   (hm : sp.mask ≠ 0 → maskCap (s.lanesOf s.tid).count ∈ caps) (hms : sp.maskSrcs ≠ [] → maskCap (s.lanesOf s.tid).count ∈ caps)
   (h1 : sp.accs = noAccs := by rfl) (h2 : sp.bad = (fun _ _ _ => false) := by rfl) (h3 : sp.neg = false := by rfl) (h4 : sp.noRot = false := by rfl)
   (hlt : ∀ u els, sp.late u els = none := by intros; rfl) (hz : sp.fromZero = false := by rfl) (hl : sp.limit = 2 ^ 64 := by rfl)
   (hraw : sp.raw = [] := by rfl) (hmo : sp.maskOut = false := by rfl) : sp.Simple s g :=
  have c := VSpec.capacity_within s sp hp.2.2.2.1 hz hl hraw hmo caps h hne hs hd hm hms
  ⟨h1, h2, h3, h4, hlt, hc, hf, c.1, c.2⟩
/-- A two-register element instruction over a strip that fits. -/
theorem State.velem_reg (s : State) (word : BitVec 32) (d a b : BitVec 6) (k : BitVec 3) (acc : Bool) (dn dg : Nat) (f : ElemFn) (od oa ob : Operand)
   (hp : s.Plain) (hd : s.me.operand d dg dn true = some od) (ha : s.me.operand a s.me.group (codeNibbles s.me.et) false = some oa) (hb : s.me.operand b s.me.group (codeNibbles s.me.et) false = some ob)
   (g : Nat → Nat × Exc) (hg : ∀ i, f i (s.at_ oa i) (s.at_ ob i) (if acc then s.at_ od i else 0) = g i)
   (hw : s.Within s.me.start ([od, oa, ob].map s.capOf ++ s.maskRoom k)) (hn : s.NoTrap (s.actives s.me.start k) g) :
   s.velem word d a (.reg b) k acc dn dg f = s.elementwise (.reg d od) k g id := by
  unfold State.velem
  simp only [hd, ha, hb]
  refine State.vframe_plain s _ g hp (VSpec.simple_of s _ g hp ?_ ?_ _ hw (by simp) ?_ ?_ ?_ ?_) hn
  · intro pl i bs
    unfold VSpec.value
    have := hg i
    simp only [applyElem]
    cases acc with
    | true => simp only [if_true] at this ⊢; rw [this]
    | false => simp only [Bool.false_eq_true, if_false] at this ⊢; rw [this]
  · exact fin_plain
  · intro e he; simp at he; rcases he with rfl | rfl <;> simp
  · simp
  · intro hk; have := State.maskRoom_mem s k hk; simp [this]
  · simp
/-- The same against a scalar or the oldest entry of Q0. -/
theorem State.velem_scalar (s : State) (word : BitVec 32) (d a : BitVec 6) (n : BitVec 5) (q : BitVec 1) (v : Word) (k : BitVec 3) (acc : Bool) (dn dg : Nat) (f : ElemFn) (od oa : Operand)
   (hp : s.Plain) (hd : s.me.operand d dg dn true = some od) (ha : s.me.operand a s.me.group (codeNibbles s.me.et) false = some oa) (hv : s.Scalar n q v)
   (g : Nat → Nat × Exc) (hg : ∀ i, f i (s.at_ oa i) (v.toNat % 2 ^ codeBits s.me.et) (if acc then s.at_ od i else 0) = g i)
   (hw : s.Within s.me.start ([od, oa].map s.capOf ++ s.maskRoom k)) (hn : s.NoTrap (s.actives s.me.start k) g) :
   s.velem word d a (.sca n q) k acc dn dg f = s.elementwise (.reg d od) k g (dropQ0 q) := by
  unfold State.velem
  simp only [hd, ha, State.scalarOrQueue_of s n q v hv]
  refine State.vframe_plain s _ g hp (VSpec.simple_of s _ g hp ?_ ?_ _ hw (by simp) ?_ ?_ ?_ ?_) hn
  · intro pl i bs
    unfold VSpec.value
    have := hg i
    simp only [applyElem]
    cases acc with
    | true => simp only [if_true] at this ⊢; rw [this]
    | false => simp only [Bool.false_eq_true, if_false] at this ⊢; rw [this]
  · exact fin_popQ0 q
  · intro e he; simp at he; rcases he with rfl; simp
  · simp
  · intro hk; have := State.maskRoom_mem s k hk; simp [this]
  · simp
/-- The same with one register. -/
theorem State.velem_one (s : State) (word : BitVec 32) (d a : BitVec 6) (k : BitVec 3) (dn dg : Nat) (f : ElemFn) (od oa : Operand)
   (hp : s.Plain) (hd : s.me.operand d dg dn true = some od) (ha : s.me.operand a s.me.group (codeNibbles s.me.et) false = some oa)
   (g : Nat → Nat × Exc) (hg : ∀ i, f i (s.at_ oa i) 0 0 = g i)
   (hw : s.Within s.me.start ([od, oa].map s.capOf ++ s.maskRoom k)) (hn : s.NoTrap (s.actives s.me.start k) g) :
   s.velem word d a .none k false dn dg f = s.elementwise (.reg d od) k g id := by
  unfold State.velem
  simp only [hd, ha]
  refine State.vframe_plain s _ g hp (VSpec.simple_of s _ g hp ?_ ?_ _ hw (by simp) ?_ ?_ ?_ ?_) hn
  · intro pl i bs
    unfold VSpec.value
    have := hg i
    simp only [applyElem, Bool.false_eq_true, if_false]; rw [this]
  · exact fin_plain
  · intro e he; simp at he; rcases he with rfl; simp
  · simp
  · intro hk; have := State.maskRoom_mem s k hk; simp [this]
  · simp

/-- A compare of two registers over a strip that fits. -/
theorem State.vcompare_reg (s : State) (word : BitVec 32) (d : BitVec 3) (a b : BitVec 6) (k : BitVec 3) (f : Nat → Nat → Bool × Exc) (oa ob : Operand)
    (hp : s.Plain) (ha : s.me.operand a s.me.group (codeNibbles s.me.et) false = some oa)
    (hb : s.me.operand b s.me.group (codeNibbles s.me.et) false = some ob)
    (hw : s.Within s.me.start ([s.capOf oa, s.capOf ob] ++ [maskCap (s.lanesOf s.tid).count]))
    (hn : s.NoTrap (s.actives s.me.start k) fun i => (if (f (s.at_ oa i) (s.at_ ob i)).1 then 1 else 0, (f (s.at_ oa i) (s.at_ ob i)).2)) :
    s.vcompare word d a (.reg b) k f = s.elementwise (.mask d.toNat) k
      (fun i => (if (f (s.at_ oa i) (s.at_ ob i)).1 then 1 else 0, (f (s.at_ oa i) (s.at_ ob i)).2)) id := by
  unfold State.vcompare
  simp only [ha, hb]
  refine State.vframe_plain s _ _ hp (VSpec.simple_of s _ _ hp ?_ ?_ _ hw (by simp) ?_ ?_ ?_ ?_) hn
  · intro pl i bs; rfl
  · exact fin_plain
  · intro e he; simp at he; rcases he with rfl | rfl <;> simp
  · simp
  · intro _; simp
  · simp
/-- The same against a scalar. -/
theorem State.vcompare_scalar (s : State) (word : BitVec 32) (d : BitVec 3) (a : BitVec 6) (n : BitVec 5) (q : BitVec 1) (v : Word) (k : BitVec 3)
    (f : Nat → Nat → Bool × Exc) (oa : Operand)
    (hp : s.Plain) (ha : s.me.operand a s.me.group (codeNibbles s.me.et) false = some oa) (hv : s.Scalar n q v)
    (hw : s.Within s.me.start (s.capOf oa :: [maskCap (s.lanesOf s.tid).count]))
    (hn : s.NoTrap (s.actives s.me.start k) fun i =>
      (if (f (s.at_ oa i) (v.toNat % 2 ^ codeBits s.me.et)).1 then 1 else 0, (f (s.at_ oa i) (v.toNat % 2 ^ codeBits s.me.et)).2)) :
    s.vcompare word d a (.sca n q) k f = s.elementwise (.mask d.toNat) k
      (fun i => (if (f (s.at_ oa i) (v.toNat % 2 ^ codeBits s.me.et)).1 then 1 else 0, (f (s.at_ oa i) (v.toNat % 2 ^ codeBits s.me.et)).2)) (dropQ0 q) := by
  unfold State.vcompare
  simp only [ha, State.scalarOrQueue_of s n q v hv]
  refine State.vframe_plain s _ _ hp (VSpec.simple_of s _ _ hp ?_ ?_ _ hw (by simp) ?_ ?_ ?_ ?_) hn
  · intro pl i bs; rfl
  · exact fin_popQ0 q
  · intro e he; simp at he; rcases he with rfl; simp
  · simp
  · intro _; simp
  · simp
/-- A mask operation over a strip that fits. -/
theorem State.vmaskop_plain (s : State) (d : BitVec 3) (srcs : List (BitVec 3)) (k : BitVec 3) (f : List Bool → Bool) (hp : s.Plain)
    (hw : s.Within s.me.start [maskCap (s.lanesOf s.tid).count]) :
    s.vmaskop d srcs k f = s.elementwise (.mask d.toNat) k
      (fun i => (if f (srcs.map fun m => s.maskBit (s.lanesOf s.tid) m.toNat i) then 1 else 0, 0)) id := by
  unfold State.vmaskop
  refine State.vframe_plain s _ _ hp (VSpec.simple_of s _ _ hp ?_ ?_ _ hw (by simp) ?_ ?_ ?_ ?_) ?_
  · intro pl i bs; rfl
  · exact fin_plain
  · simp
  · simp
  · intro _; simp
  · intro _; simp
  · intro i _; simp

/-! ## Whole-strip instructions -/

/-- A strip that fits every operand fits a whole-strip instruction. -/
theorem WSpec.capacity_within (s : State) (sp : WSpec) (hbn : ∀ j : Nat, (s.me.binds[j]?).getD none = none)
    (caps : List Nat) (h : s.Within (sp.startOf s.me) caps)
    (hs : ∀ e ∈ sp.srcs, s.capOf e.2 ∈ caps)
    (hd : match sp.dst with | .reg _ o => s.capOf o ∈ caps | .mask _ => maskCap (s.lanesOf s.tid).count ∈ caps | .none => True)
    (hm : sp.mask ≠ 0 → maskCap (s.lanesOf s.tid).count ∈ caps) (hms : sp.maskSrcs ≠ [] → maskCap (s.lanesOf s.tid).count ∈ caps)
    (h2 : ∀ o, sp.second = some o → s.capOf o.2 ∈ caps) (h3 : ∀ o ∈ sp.also, s.capOf o ∈ caps) :
    sp.startOf s.me < sp.capacity s.me (s.lanesOf s.tid) ∧ s.me.vlen ≤ sp.capacity s.me (s.lanesOf s.tid) := by
  have hst : sp.startOf s.me < 2 ^ 21 := by
    unfold WSpec.startOf Thread.start bits
    split
    · decide
    · exact Nat.mod_lt _ (by decide)
  have hvl : s.me.vlen < 2 ^ 21 := by unfold Thread.vlen bits; exact Nat.mod_lt _ (by decide)
  have base : sp.startOf s.me < sp.view.capacity s.me (s.lanesOf s.tid) ∧ s.me.vlen ≤ sp.view.capacity s.me (s.lanesOf s.tid) := by
    unfold VSpec.capacity
    rw [sp.view.readBinds_none _ hbn, sp.view.writeBind_none _ hbn]
    refine minCap_bounds _ _ _ _ ?_ ?_
    · have : sp.view.limit = 2 ^ 64 := rfl
      rw [this]; constructor <;> omega
    · intro c hc
      apply h
      have e1 : sp.view.raw = [] := rfl
      have e2 : sp.view.maskOut = false := rfl
      have e3 : sp.view.srcs = sp.srcs := rfl
      have e4 : sp.view.dst = sp.dst := rfl
      have e5 : sp.view.mask = sp.mask := rfl
      have e6 : sp.view.maskSrcs = sp.maskSrcs := rfl
      rw [e1, e2, e3, e4, e5, e6] at hc
      simp only [List.map_nil, List.append_nil, List.mem_append] at hc
      rcases hc with (hc | hc) | hc
      · obtain ⟨e, he, rfl⟩ := List.mem_map.mp hc; exact hs e he
      · cases hd' : sp.dst with
        | none => rw [hd'] at hc; simp at hc
        | reg c' o => rw [hd'] at hc hd; simp only [List.mem_singleton] at hc; rw [hc]; exact hd
        | mask m => rw [hd'] at hc hd; simp only [List.mem_singleton] at hc; rw [hc]; exact hd
      · split at hc
        · rename_i hcond
          simp only [List.mem_singleton] at hc
          rw [hc]
          by_cases c0 : sp.mask = 0
          · apply hms
            intro e; rw [c0, e] at hcond; simp at hcond
          · exact hm c0
        · simp at hc
  unfold WSpec.capacity
  rw [sp.outlets_none _ hbn]
  refine minCap_bounds _ _ _ _ base fun c hc => h c ?_
  simp only [List.map_nil, List.append_nil, List.mem_append, List.mem_map, Option.mem_toList] at hc
  rcases hc with ⟨o, ho, rfl⟩ | ⟨o, ho, rfl⟩
  · exact h2 o ho
  · exact h3 o ho

/-- A scan of a mask register that gives a scalar. -/
theorem State.vmaskscan_plain (s : State) (d : BitVec 5) (a k : BitVec 3) (empty : Word) (f : List Nat → Word) (hp : s.Plain)
    (hw : s.Within s.me.start [maskCap (s.lanesOf s.tid).count]) :
    s.vmaskscan d a k empty f = s.vectorLeaves .none false s.me.start s.me.vlen 0 [] id
      fun u => u.setS d (f ((s.actives s.me.start k).filter fun i => s.maskBit (s.lanesOf s.tid) a.toNat i)) := by
  unfold State.vmaskscan
  refine (State.wframe_plain s _ _ ⟨[], [], s.me.vlen, 0, some (f ((s.actives s.me.start k).filter fun i => s.maskBit (s.lanesOf s.tid) a.toNat i)), none, []⟩
    hp ⟨?_, rfl, ?_, ?_, ?_, ?_⟩ rfl (orExc_plain ..)).trans rfl
  · have hb : ∀ l : List Nat, (l.find? fun i => s.maskFails (s.lanesOf s.tid) a.toNat i) = none := by
      intro l; rw [List.find?_eq_none]; intro i _; rw [s.maskFails_none hp.2.1]; simp
    simp only [hb]
    rfl
  · intro u v h1 h2
    cases v with
    | none => exact ⟨h1, h2⟩
    | some v =>
      have : (u.setS d v).me = u.me.setS d v := State.me_setMe ..
      simp only [this]
      exact ⟨by simpa using h1, by rw [Thread.replaying_setS]; exact h2⟩
  · exact (WSpec.capacity_within s _ hp.2.2.2.1 _ hw (by simp) trivial (by simp) (by simp) (by simp) (by simp)).1
  · exact (WSpec.capacity_within s _ hp.2.2.2.1 _ hw (by simp) trivial (by simp) (by simp) (by simp) (by simp)).2
  · have : s.me.vlen < 2 ^ 21 := by unfold Thread.vlen bits; exact Nat.mod_lt _ (by decide)
    show s.me.vlen ≤ 2 ^ 64; omega

theorem State.readActs_plain (s : State) (hb : s.regBad = []) (x : Lanes) (o : Operand) (l : List Nat) :
    s.readActs x o l = (l.map fun i => (i, s.elem x o i), none) := by
  have e : (l.takeWhile fun i => !s.elemFails x o i) = l := by
    induction l with
    | nil => rfl
    | cons i r ih => rw [List.takeWhile_cons, s.elemFails_none hb]; simp [ih]
  unfold State.readActs
  simp only [e, List.drop_length, List.head?_nil, Option.map_none]
theorem State.elem?_plain (s : State) (hb : s.regBad = []) (x : Lanes) (o : Operand) (i : Nat) : s.elem? x o i = some (s.elem x o i) := by
  unfold State.elem?; rw [s.elemFails_none hb]; rfl
theorem State.me_setS (u : State) (d : BitVec 5) (v : Word) : (u.setS d v).me = u.me.setS d v := State.me_setMe ..
theorem fin_setS (d : BitVec 5) (u : State) (v : Word) (h1 : u.me.cut = 0) (h2 : u.me.replaying = false) :
    (u.setS d v).me.cut = 0 ∧ (u.setS d v).me.replaying = false := by
  rw [State.me_setS]; exact ⟨by simpa using h1, by rw [Thread.replaying_setS]; exact h2⟩
theorem fin_scalar (d : BitVec 5) (q : BitVec 1) (u : State) (v : Option Word) (h1 : u.me.cut = 0) (h2 : u.me.replaying = false) :
    (scalarFin d q u v).me.cut = 0 ∧ (scalarFin d q u v).me.replaying = false := by
  have h := fin_popQ0 q u h1 h2
  unfold scalarFin
  cases v with
  | none => exact h
  | some v =>
    dsimp only
    unfold State.scalarResult
    split
    · rw [State.me_setMe]; exact h
    · exact fin_setS _ _ _ h.1 h.2
theorem WSpec.acts_part (sp : WSpec) (s : State) (h : sp.whole = false) : sp.acts s = s.actives s.me.start sp.mask := by
  unfold WSpec.acts WSpec.startOf State.actives; rw [h]; simp
theorem WSpec.acts_whole (sp : WSpec) (s : State) (h : sp.whole = true) : sp.acts s = List.range s.me.vlen := by
  unfold WSpec.acts WSpec.startOf; rw [h]; simp
theorem Thread.vlen_lt (t : Thread) : t.vlen < 2 ^ 21 := by unfold Thread.vlen bits; exact Nat.mod_lt _ (by decide)

/-- A VX word goes on when its Q0 entry is there and a scalar result has room. -/
theorem State.withScalar_of (s : State) (n : BitVec 5) (q : BitVec 1) (res : Bool) (v : Word) (hv : s.Scalar n q v) (hr : res = true → s.me.q1.length < 32)
    (k : Word → State) : s.withScalar n q res k = k v := by
  unfold State.withScalar
  rw [State.scalarOrQueue_of s n q v hv]
  dsimp only
  cases res with
  | false => simp
  | true =>
    have : s.me.q1Room = true := by unfold Thread.q1Room; simpa using hr rfl
    rw [this]; simp

/-- A reduction over a strip that fits: `g` gives no failure. -/
theorem State.vreduce_plain (s : State) (word : BitVec 32) (d : BitVec 5) (a : BitVec 6) (n : BitVec 5) (q : BitVec 1) (k : BitVec 3) (float : Bool)
    (g : Nat → List (Nat × Nat) → Nat × Exc × Option (Nat × Fail)) (v : Word) (oa : Operand) (r : Nat) (e : Exc) (hp : s.Plain)
    (ha : s.me.operand a s.me.group (codeNibbles s.me.et) false = some oa) (hw : s.Within s.me.start (s.capOf oa :: s.maskRoom k))
    (hv : s.Scalar n q v) (hq : s.me.q1.length < 32)
    (hg : g (v.toNat % 2 ^ codeBits s.me.et) ((s.actives s.me.start k).map fun i => (s.at_ oa i, i)) = (r, e, none)) :
    s.vreduce word d a n q k float g = s.vectorLeaves .none false s.me.start s.me.vlen e [] id
      fun u => scalarFin d q u (some (scalarOut float s.me.et r)) := by
  unfold State.vreduce
  simp only [ha]
  rw [State.withScalar_of s n q true v hv fun _ => hq]
  refine (State.wframe_plain s _ _ ⟨[], [], s.me.vlen, e, some (scalarOut float s.me.et r), none, []⟩ hp ⟨?_, rfl, ?_, ?_, ?_, ?_⟩ rfl (orExc_plain ..)).trans rfl
  · have hm : ∀ l : List Nat, ((l.map fun i => (i, s.elem (s.lanesOf s.tid) oa i)).map fun e => (e.2, e.1)) = l.map fun i => (s.at_ oa i, i) := by
      intro l; rw [List.map_map]; rfl
    rw [WSpec.acts_part _ s rfl]
    simp only [State.readActs_plain s hp.2.1, hm, hg]
  · exact fun u v h1 h2 => fin_scalar d q u v h1 h2
  · exact (WSpec.capacity_within s _ hp.2.2.2.1 _ hw (by simp) trivial (by intro h; have := s.maskRoom_mem k h; simp [this]) (by simp) (by simp) (by simp)).1
  · exact (WSpec.capacity_within s _ hp.2.2.2.1 _ hw (by simp) trivial (by intro h; have := s.maskRoom_mem k h; simp [this]) (by simp) (by simp) (by simp)).2
  · have := s.me.vlen_lt; show s.me.vlen ≤ 2 ^ 64; omega

/-- A permutation over a strip that fits: `val` gives every value. -/
theorem State.vpermute_plain (s : State) (word : BitVec 32) (d : BitVec 6) (srcs : List (BitVec 6)) (ms : List Nat) (k : BitVec 3) (fin : State → State)
    (g : List Operand → State → Lanes → (vl i : Nat) → Option Nat) (od : Operand) (ops : List (BitVec 6 × Operand)) (val : Nat → Nat) (caps : List Nat) (hp : s.Plain)
    (hd : s.me.operand d s.me.group (codeNibbles s.me.et) true = some od)
    (ho : (srcs.filterMap fun c => (s.me.operand c s.me.group (codeNibbles s.me.et) false).map fun o => (c, o)) = ops) (hl : ops.length = srcs.length)
    (hw : s.Within s.me.start caps) (hc : ∀ e ∈ ops, s.capOf e.2 ∈ caps) (hcd : s.capOf od ∈ caps)
    (hm : k ≠ 0 → maskCap (s.lanesOf s.tid).count ∈ caps) (hms : ms ≠ [] → maskCap (s.lanesOf s.tid).count ∈ caps)
    (hg : ∀ i ∈ s.actives s.me.start k, g (ops.map (·.2)) s (s.lanesOf s.tid) s.me.vlen i = some (val i))
    (hf : ∀ u : State, u.me.cut = 0 → u.me.replaying = false → (fin u).me.cut = 0 ∧ (fin u).me.replaying = false) :
    s.vpermute word d srcs ms k fin g =
      s.vectorLeaves (.reg d od) false s.me.start s.me.vlen 0 (valuesOf ((s.actives s.me.start k).map fun i => (i, val i))) id fin := by
  unfold State.vpermute
  simp only [hd, ho]
  rw [if_neg (by simpa using hl)]
  refine (State.wframe_plain s _ _ ⟨(s.actives s.me.start k).map fun i => (i, val i), [], s.me.vlen, 0, none, none, []⟩ hp ⟨?_, rfl, ?_, ?_, ?_, ?_⟩ rfl (orExc_plain ..)).trans rfl
  · have hmap : ∀ l : List Nat, (∀ i ∈ l, g (ops.map (·.2)) s (s.lanesOf s.tid) s.me.vlen i = some (val i)) →
        (l.map fun i => (i, g (ops.map (·.2)) s (s.lanesOf s.tid) s.me.vlen i)) = l.map fun i => (i, some (val i)) := by
      intro l h; exact List.map_congr_left fun i hi => by rw [h i hi]
    have hfm : ∀ l : List Nat, (l.map fun i => (i, some (val i))).filterMap (fun e : Nat × Option Nat => e.2.map fun v => (e.1, v)) = l.map fun i => (i, val i) := by
      intro l
      induction l with
      | nil => rfl
      | cons i r ih => simp [ih]
    have hfi : ∀ l : List Nat, ((l.map fun i => (i, some (val i))).find? fun e : Nat × Option Nat => e.2.isNone) = none := by
      intro l; rw [List.find?_eq_none]; intro e he; obtain ⟨i, _, rfl⟩ := List.mem_map.mp he; simp
    rw [WSpec.acts_part _ s rfl]
    dsimp only
    rw [hmap _ hg, hfm, hfi]
    rfl
  · exact fun u _ h1 h2 => hf u h1 h2
  · exact (WSpec.capacity_within s _ hp.2.2.2.1 _ hw hc hcd hm hms (by simp) (by simp)).1
  · exact (WSpec.capacity_within s _ hp.2.2.2.1 _ hw hc hcd hm hms (by simp) (by simp)).2
  · have := s.me.vlen_lt; show s.me.vlen ≤ 2 ^ 64; omega

end Sys2Proof.Machine
end

