-- ==== Sys2Proof/Laws/Transfers.lean ====
section
/-! SUPPORT. Vector instructions that reach memory: what a translation that succeeds changes, loads of a quiet memory, and the frame of
transfers whose elements all pass their checks. -/

namespace Sys2Proof.Machine

/-! ## The marks of a walk -/

/-- Only the marks of walks differ: memory, cached translations and table pointers, dirty filters, and the count of free values. -/
def State.OnlyMarks (s t : State) : Prop :=
  t = { s with mem := t.mem, memLost := t.memLost, tlb := t.tlb, tlb1 := t.tlb1, wcache := t.wcache, filt := t.filt, freeCtr := t.freeCtr }

theorem State.OnlyMarks.refl (s : State) : s.OnlyMarks s := rfl
theorem State.OnlyMarks.trans {s t u : State} (h : s.OnlyMarks t) (g : t.OnlyMarks u) : s.OnlyMarks u := by
  unfold State.OnlyMarks at *; rw [g, h]
theorem State.OnlyMarks.me {s t : State} (h : s.OnlyMarks t) : t.me = s.me := by rw [h]; rfl
theorem State.OnlyMarks.tid {s t : State} (h : s.OnlyMarks t) : t.tid = s.tid := by rw [h]; rfl
theorem State.OnlyMarks.lanesOf {s t : State} (h : s.OnlyMarks t) (k : Nat) : t.lanesOf k = s.lanesOf k := by rw [h]; rfl
theorem State.OnlyMarks.elem {s t : State} (h : s.OnlyMarks t) (x : Lanes) (o : Operand) (i : Nat) : t.elem x o i = s.elem x o i := by
  rw [h]; rfl
theorem State.OnlyMarks.regBad {s t : State} (h : s.OnlyMarks t) : t.regBad = s.regBad := by rw [h]

theorem State.putBytes_marks (s : State) (a : Nat) (bs : List Byte) : s.OnlyMarks (s.putBytes a bs) := rfl
theorem State.setPte_marks (s : State) (at_ : Nat) (a d : Bool) : s.OnlyMarks (s.setPte at_ a d) := by
  unfold State.setPte
  dsimp only
  exact if h : (s.word at_ ||| (if a = true then (0x20 : Word) else 0) ||| (if d = true then (0x40 : Word) else 0)) = s.word at_
    then by rw [if_pos h]; exact .refl s
    else by rw [if_neg h]; rfl
theorem State.setDirty_marks (s : State) (agent part g : Nat) : s.OnlyMarks (s.setDirty agent part g) := by
  unfold State.setDirty
  dsimp only
  split
  · exact .refl s
  split
  · exact .refl s
  split
  · rfl
  · rfl
theorem marks_foldr {α : Type} (f : α → State → State) (h : ∀ a (s : State), s.OnlyMarks (f a s)) (l : List α) (s : State) :
    s.OnlyMarks (l.foldr f s) := by
  induction l with
  | nil => exact .refl s
  | cons a r ih => exact ih.trans (h a _)
theorem State.markWalk_marks (s : State) (agent part : Nat) (l1 : Leaf) (gat : Nat) (trail : List Leaf) (l2 : Leaf) (w : Bool) :
    s.OnlyMarks (s.markWalk agent part l1 gat trail l2 w) := by
  unfold State.markWalk
  dsimp only
  refine State.OnlyMarks.trans ?_ (State.setPte_marks ..)
  refine State.OnlyMarks.trans ?_ (State.setPte_marks ..)
  refine State.OnlyMarks.trans (marks_foldr (fun (l : Leaf) (s : State) => s.setPte l.at_ true false) (fun l s => State.setPte_marks s _ _ _) trail s) ?_
  split
  · split
    · exact (State.setPte_marks ..).trans (State.setDirty_marks ..)
    · exact .refl _
  · exact .refl _
theorem State.tlbTouch_marks (s : State) (w : Who) (e : Tlb) : s.OnlyMarks (s.tlbTouch w e) := by
  unfold State.tlbTouch
  split <;> rfl
theorem State.tlbInstall_marks (s : State) (w : Who) (e : Tlb) : s.OnlyMarks (s.tlbInstall w e) := by
  unfold State.tlbInstall
  refine State.OnlyMarks.trans ?_ (State.tlbTouch_marks ..)
  dsimp only
  split
  · rfl
  · split <;> rfl
theorem State.ptrInstall_marks (s : State) (p : WalkPtr) : s.OnlyMarks (s.ptrInstall p) := by
  unfold State.ptrInstall
  split
  · rfl
  · dsimp only
    split
    · rfl
    · split <;> rfl
theorem marks_foldl {α : Type} (f : State → α → State) (h : ∀ (s : State) a, s.OnlyMarks (f s a)) (l : List α) (s : State) :
    s.OnlyMarks (l.foldl f s) := by
  induction l generalizing s with
  | nil => exact .refl s
  | cons a r ih => exact (h s a).trans (ih _)

/-- A walk's marks are only marks. -/
theorem State.walk_marks (s : State) (w : Who) (va : Nat) (wr : Bool) (e : Tlb) (m : State → State) (h : s.walk w va wr = .ok (e, m)) (u : State) :
    u.OnlyMarks (m u) := by
  unfold State.walk at h
  split at h
  · cases h
  · split at h
    · cases h
    · injection h with h
      rw [Prod.mk.injEq] at h
      rw [← h.2]
      exact (State.markWalk_marks ..).trans (marks_foldl _ (fun s p => State.ptrInstall_marks s p) _ _)

/-- A translation that succeeds leaves only marks. -/
theorem State.translateIn_marks (s u : State) (used : List Tlb) (w : Who) (va n : Nat) (use : Use) (p : Phys)
    (h : s.translateIn used w va n use = (.ok p, u)) : s.OnlyMarks u := by
  unfold State.translateIn at h
  split at h
  · cases h
  split at h
  · cases h
  split at h
  · split at h
    · injection h with _ h; rw [← h]; exact .refl s
    · cases h
  · cases h
  · dsimp only at h
    split at h
    · split at h <;> cases h
    · rename_i e mark hres
      split at h
      · cases h
      split at h
      · cases h
      split at h
      · cases h
      injection h with _ h
      rw [← h]
      have hm : s.OnlyMarks (mark s) := by
        split at hres
        · injection hres with hres
          rw [Prod.mk.injEq] at hres
          rw [← hres.2]; exact .refl s
        · exact s.walk_marks w _ _ e mark hres s
      have hi (b : Bool) : s.OnlyMarks (if b = true then s.tlbTouch w e else (mark s).tlbInstall w e) := by
        cases b
        · exact hm.trans (State.tlbInstall_marks ..)
        · exact State.tlbTouch_marks ..
      have hd (b : Bool) (u : State) (h : s.OnlyMarks u) (g : Nat) : s.OnlyMarks (if b = true then u.setDirty w.agent w.part g else u) := by
        cases b
        · exact h
        · exact h.trans (State.setDirty_marks ..)
      exact hd _ _ (hi _) _
theorem State.translate_marks (s u : State) (w : Who) (va n : Nat) (use : Use) (p : Phys) (h : s.translate w va n use = (.ok p, u)) :
    s.OnlyMarks u := s.translateIn_marks u [] w va n use p h

theorem translateAccs_marks (w : Who) (s0 : State) (used0 : List Tlb) (l : List Acc) (s : State) (used : List Tlb) (done : List Placed)
    (past : Option Word) (res : State × List Tlb × List Placed) (u : State)
    (h : translateAccs w s0 used0 l (s, used, done) past = (.ok res, u)) : s.OnlyMarks u := by
  induction l generalizing s used done past with
  | nil =>
    unfold translateAccs at h
    split at h
    · injection h with _ h
      rw [← h]; exact .refl s
    · cases h
  | cons a r ih =>
    unfold translateAccs at h
    split at h
    · cases h
    · cases h
    · rename_i p s' ht
      exact (s.translateIn_marks s' _ w _ _ _ p ht).trans (ih _ _ _ _ h)

theorem State.freshen_marks (s : State) (w : Who) (accs : List Acc) : s.OnlyMarks (s.freshen w accs) := by
  unfold State.freshen
  dsimp only
  split <;> rfl

theorem translateFrom_marks (w : Who) (accs : Nat → List Acc) (l : List Nat) (s : State) (used : List Tlb)
    (got got' : List (Nat × List Placed)) (u : State) (h : translateFrom w accs l s used got = (⟨got', none, false⟩, u)) : s.OnlyMarks u := by
  induction l generalizing s used got with
  | nil =>
    unfold translateFrom at h
    injection h with _ h
    rw [← h]; exact .refl s
  | cons i r ih =>
    unfold translateFrom at h
    split at h
    · simp at h
    · simp at h
    · rename_i s0 pg ps s' ht
      exact (translateAccs_marks w s _ _ s used [] _ _ _ ht).trans (ih _ _ _ h)

/-- The elements of a scan that succeeds leave only marks. -/
theorem translateElems_marks (w : Who) (accs : Nat → List Acc) (l : List Nat) (s : State) (used : List Tlb)
    (got got' : List (Nat × List Placed)) (u : State) (h : translateElems w accs l s used got = (⟨got', none, false⟩, u)) : s.OnlyMarks u :=
  (s.freshen_marks w _).trans (translateFrom_marks _ _ _ _ _ _ _ _ h)

theorem State.Places.marks {s u : State} {addr : Nat → Option Word} {n : Nat} {use : Use} {l : List Nat} {at_ : Nat → Phys}
    (h : s.Places addr n use l at_ u) : s.OnlyMarks u := translateElems_marks _ _ _ _ _ _ _ _ h.1

/-! ## Loads of a quiet memory -/

theorem State.boardWaits_quiet (s : State) (h : s.Quiet) (a n seq : Nat) : s.boardWaits a n seq = false := by
  unfold State.boardWaits; rw [h.2.2 a]; rfl
theorem State.siblings_quiet (s : State) (h : s.Quiet) (tid a n : Nat) : s.siblings tid a n = [] := by
  unfold State.siblings; rw [h.1]; rfl
theorem State.loadBytes_quiet (s : State) (h : s.Quiet) (tid a n : Nat) (nf : Bool) : s.loadBytes tid a n nf = some (s.bytes a n, s) := by
  unfold State.loadBytes State.beforeLoad
  rw [s.drain_nil _ h.1]
  have : (if nf = true then [] else s.forwardable tid a n) = [] := by
    split
    · rfl
    · unfold State.forwardable; rw [s.siblings_quiet h]; rfl
  simp only [this]; rfl
theorem State.loadLocal_quiet (s : State) (h : s.Quiet) (tid a n : Nat) (nf : Bool) : s.loadLocal tid a n nf = some (s.bytes a n, s) := by
  unfold State.loadLocal
  rw [s.boardWaits_quiet h, s.loadBytes_quiet h]; rfl
theorem State.lostIn_quiet (s : State) (h : s.Quiet) (a n : Nat) : s.lostIn a n = false := by unfold State.lostIn; rw [h.2.1]; rfl

/-- What an instruction has read agrees with memory. -/
def Seen.true_ (v : Seen) (s : State) : Prop := ∀ g ∈ v.grans, g.2 = s.bytes (g.1 * 64) 64

theorem granule_bytes (s : State) (a n : Nat) (hg : a % 64 + n ≤ 64) : ((s.bytes (a / 64 * 64) 64).drop (a % 64)).take n = s.bytes a n := by
  apply List.ext_getElem
  · simp [State.bytes, cellsGet]; omega
  intro i h1 h2
  simp only [State.bytes, cellsGet, List.getElem_take, List.getElem_drop, List.getElem_map, List.getElem_range]
  congr 1
  omega

/-- A load through what has been read gives memory. -/
theorem State.loadSeen_quiet (s : State) (h : s.Quiet) (tid a n : Nat) (nf : Bool) (hg : a % 64 + n ≤ 64) (v : Seen) (hv : v.true_ s) :
    ∃ w : Seen, w.true_ s ∧ s.loadSeen tid a n nf v = some (s.bytes a n, w, s) := by
  unfold State.loadSeen
  rw [s.boardWaits_quiet h]
  simp only [Bool.false_eq_true, if_false]
  split
  · rename_i g hf
    have h1 := hv g (List.mem_of_find?_eq_some hf)
    have h2 : g.1 = a / 64 := by have := List.find?_some hf; simpa using this
    exact ⟨v, hv, by rw [h1, h2, granule_bytes s a n hg]⟩
  · rw [s.loadBytes_quiet h]
    refine ⟨{ v with grans := (a / 64, s.bytes (a / 64 * 64) 64) :: v.grans }, ?_, by simp only [granule_bytes s a n hg]⟩
    intro g hm
    rcases List.mem_cons.mp hm with rfl | hm
    · rfl
    · exact hv g hm

theorem readPlaced_quiet (s : State) (h : s.Quiet) (tid : Nat) (nf : Bool) (p : Placed) (ho : p.at_.isOutbound = false)
    (hg : p.at_.pa % 64 + p.acc.n ≤ 64) (v : Seen) (hv : v.true_ s) :
    ∃ w : Seen, w.true_ s ∧ readPlaced tid nf p v s = (.ok (s.bytes p.at_.pa p.acc.n, w), s) := by
  obtain ⟨w, hw, e⟩ := s.loadSeen_quiet h tid p.at_.pa p.acc.n nf hg v hv
  refine ⟨w, hw, ?_⟩
  unfold readPlaced
  rw [ho, e]
  simp only [Bool.false_eq_true, if_false, s.lostIn_quiet h]

/-- What an element's accesses load. -/
def loadedOf (s : State) (addr : Nat → Option Word) (n : Nat) (use : Use) (at_ : Nat → Phys) (i : Nat) : List (List Byte) :=
  if use = .load then (addr i).toList.map fun _ => s.bytes (at_ i).pa n else []

theorem readAccs_quiet (s : State) (h : s.Quiet) (tid : Nat) (addr : Nat → Option Word) (n : Nat) (use : Use) (at_ : Nat → Phys) (i : Nat)
    (ho : (at_ i).isOutbound = false) (hg : (at_ i).pa % 64 + n ≤ 64) (v : Seen) (hv : v.true_ s) :
    ∃ w : Seen, w.true_ s ∧ readAccs tid (placedOf addr n use at_ i) v [] s = (.ok (loadedOf s addr n use at_ i, w), s) := by
  unfold loadedOf placedOf
  cases addr i with
  | none => exact ⟨v, hv, by simp [readAccs]⟩
  | some a =>
    simp only [Option.toList_some, List.map_cons, List.map_nil]
    unfold readAccs
    by_cases hu : use = .load
    · subst hu
      obtain ⟨w, hw, e⟩ := readPlaced_quiet s h tid false ⟨⟨a, n, n, .load⟩, at_ i⟩ ho hg v hv
      refine ⟨w, hw, ?_⟩
      simp only [Placed.loads, beq_self_eq_true, Bool.true_or, Bool.not_true, Bool.false_eq_true, if_false, e]
      simp [readAccs]
    · refine ⟨v, hv, ?_⟩
      have : (use == Use.load) = false := by simp [hu]
      simp only [Placed.loads, this, ho, Bool.and_false, Bool.or_false, Bool.not_false, if_true, if_neg hu]
      simp [readAccs]

theorem readElems_quiet (s : State) (h : s.Quiet) (tid : Nat) (addr : Nat → Option Word) (n : Nat) (use : Use) (at_ : Nat → Phys) (l : List Nat)
    (ho : ∀ i ∈ l, (at_ i).isOutbound = false) (hg : ∀ i ∈ l, (at_ i).pa % 64 + n ≤ 64) (v : Seen) (hv : v.true_ s)
    (got : List (Nat × List (List Byte))) :
    ∃ w : Seen, w.true_ s ∧ readElems tid (l.map fun i => (i, placedOf addr n use at_ i)) v got s =
      (⟨got ++ l.map fun i => (i, loadedOf s addr n use at_ i), none, false⟩, w, s) := by
  induction l generalizing got v with
  | nil => exact ⟨v, hv, by simp [readElems]⟩
  | cons i r ih =>
    obtain ⟨w, hw, e⟩ := readAccs_quiet s h tid addr n use at_ i (ho i List.mem_cons_self) (hg i List.mem_cons_self) v hv
    obtain ⟨w', hw', e'⟩ := ih (fun j hj => ho j (List.mem_cons_of_mem _ hj)) (fun j hj => hg j (List.mem_cons_of_mem _ hj)) w hw
      (got ++ [(i, loadedOf s addr n use at_ i)])
    refine ⟨w', hw', ?_⟩
    rw [List.map_cons]
    unfold readElems
    rw [e]
    simp only
    rw [e']
    simp

theorem outboundReqs_none (addr : Nat → Option Word) (n : Nat) (use : Use) (at_ : Nat → Phys) (l : List Nat)
    (ho : ∀ i ∈ l, (at_ i).isOutbound = false) : outboundReqs (l.map fun i => (i, placedOf addr n use at_ i)) = [] := by
  have e : (l.map fun i => (i, placedOf addr n use at_ i)).flatMap (fun e =>
      (e.2.filter fun p => p.loads && p.at_.isOutbound).map fun p => (p.at_.pa, p.acc.n)) = [] := by
    rw [List.flatMap_eq_nil_iff]
    intro e he
    obtain ⟨i, hi, rfl⟩ := List.mem_map.mp he
    unfold placedOf
    cases addr i with
    | none => rfl
    | some a => simp [ho i hi]
  unfold outboundReqs
  rw [e]; rfl

theorem State.loadBeside_quiet (s : State) (h : s.Quiet) (tid : Nat) (addr : Nat → Option Word) (n : Nat) (use : Use) (at_ : Nat → Phys)
    (l : List Nat) (ho : ∀ i ∈ l, (at_ i).isOutbound = false) (hg : ∀ i ∈ l, (at_ i).pa % 64 + n ≤ 64) (keep last : Bool) :
    ∃ w : Seen, s.loadBeside tid ⟨[], []⟩ (l.map fun i => (i, placedOf addr n use at_ i)) keep last =
      (⟨l.map fun i => (i, loadedOf s addr n use at_ i), none, false⟩, w, s) := by
  obtain ⟨w, -, e⟩ := readElems_quiet s h tid addr n use at_ l ho hg ⟨[], []⟩ (fun _ h => nomatch h) []
  refine ⟨w, ?_⟩
  unfold State.loadBeside State.replies
  rw [outboundReqs_none _ _ _ _ _ ho]
  simp only [List.isEmpty_nil, if_true]
  rw [e]
  simp

theorem State.loadElems_quiet (s : State) (h : s.Quiet) (tid : Nat) (addr : Nat → Option Word) (n : Nat) (use : Use) (at_ : Nat → Phys) (l : List Nat)
    (ho : ∀ i ∈ l, (at_ i).isOutbound = false) (hg : ∀ i ∈ l, (at_ i).pa % 64 + n ≤ 64) (keep : Bool) :
    s.loadElems tid (l.map fun i => (i, placedOf addr n use at_ i)) keep =
      (⟨l.map fun i => (i, loadedOf s addr n use at_ i), none, false⟩, s) := by
  obtain ⟨w, e⟩ := s.loadBeside_quiet h tid addr n use at_ l ho hg keep true
  unfold State.loadElems
  rw [e]

/-! ## The scan -/

/-- The accesses recorded for an element. -/
def placedIn (pl : List (Nat × List Placed)) (i : Nat) : List Placed :=
  match pl.find? fun p => p.1 == i with
  | some p => p.2
  | none => []
theorem placedIn_map (g : Nat → List Placed) (l : List Nat) (i : Nat) (h : i ∈ l) : placedIn (l.map fun i => (i, g i)) i = g i := by
  unfold placedIn
  induction l with
  | nil => cases h
  | cons a r ih =>
    rw [List.map_cons, List.find?_cons]
    by_cases c : a = i
    · subst c; simp
    · have : (a == i) = false := by simpa using c
      rw [this]
      exact ih (by simpa [Ne.symm c] using h)

/-- Elements that nothing fails are all computed. -/
theorem computeElems_all (t : Thread) (x : Lanes) (sp : VSpec) (s : State) (hb : s.regBad = []) (hs : sp.bad = fun _ _ _ => false)
    (f : Nat → Option Nat × Exc) (pl : List (Nat × List Placed)) (D : List (Nat × List (List Byte)))
    (hf : ∀ e ∈ D, sp.value pl s x e.1 e.2 = f e.1) (hn : ∀ e ∈ D, t.ten &&& (f e.1).2 = 0) (acc : List Elem) :
    computeElems t x sp [] s pl (D.map fun e => ((e.1, 0, e.2), e.2)) acc =
      (acc ++ D.map fun e => ⟨e.1, (f e.1).1, (f e.1).2, placedIn pl e.1, e.2⟩, none) := by
  induction D generalizing acc with
  | nil => simp [computeElems]
  | cons d r ih =>
    obtain ⟨i, bs⟩ := d
    rw [List.map_cons]
    unfold computeElems
    have e1 : ∀ l : List (BitVec 6 × Operand), (l.any fun e => !(([] : List (BitVec 6 × Operand × Bind)).any fun b => b.1 == e.1) && s.elemFails x e.2 i) = false := by
      intro l; rw [List.any_eq_false]; intro e _; rw [s.elemFails_none hb]; simp
    have e2 : ∀ l : List Operand, (l.any fun o => s.elemFails x o i) = false := by
      intro l; rw [List.any_eq_false]; intro e _; rw [s.elemFails_none hb]; simp
    have e3 : ∀ l : List Nat, (l.any fun m => s.maskFails x m i) = false := by
      intro l; rw [List.any_eq_false]; intro e _; rw [s.maskFails_none hb]; simp
    rw [e1, e2, e3, hs]
    have hv := hf (i, bs) List.mem_cons_self
    have hz : (0 : Exc) ||| (sp.value pl s x i bs).2 = (f i).2 := by rw [hv]; simp
    have hen : t.enabled ((0 : Exc) ||| (sp.value pl s x i bs).2) = false := by
      rw [hz]; unfold Thread.enabled; rw [hn (i, bs) List.mem_cons_self]; rfl
    have rest : (if t.enabled ((0 : Exc) ||| (sp.value pl s x i bs).2) = true then (acc, some (i, Fail.arith (0 ||| (sp.value pl s x i bs).2)))
        else computeElems t x sp [] s pl (r.map fun e => ((e.1, 0, e.2), e.2)) (acc ++ [⟨i, (sp.value pl s x i bs).1, 0 ||| (sp.value pl s x i bs).2,
          (match pl.find? fun p => p.1 == i with
          | some p => p.2
          | none => []), bs⟩])) = (acc ++ ((i, bs) :: r).map fun e => ⟨e.1, (f e.1).1, (f e.1).2, placedIn pl e.1, e.2⟩, none) := by
      rw [hen]
      simp only [Bool.false_eq_true, if_false]
      rw [hz, hv, ih (fun e he => hf e (List.mem_cons_of_mem _ he)) (fun e he => hn e (List.mem_cons_of_mem _ he))]
      simp [placedIn]
    simp only [Bool.or_false]
    split
    · simp only [s.elemFails_none hb, Bool.and_false, Bool.or_false, Bool.false_eq_true, if_false]; exact rest
    · simp only [Bool.or_false, Bool.false_eq_true, if_false]; exact rest

/-- Without streams the bytes read are left for the element itself. -/
theorem stageAll_plain (t : Thread) (x : Lanes) (l : List (Nat × List (List Byte))) (s : State) (got : List (Nat × Exc × List (List Byte))) :
    stageAll t x [] l s got = (s, got ++ l.map fun e => (e.1, 0, e.2), none) := by
  induction l generalizing got with
  | nil => simp [stageAll]
  | cons e r ih =>
    have he : t.enabled 0 = false := by simp [Thread.enabled]
    obtain ⟨i, bs⟩ := e
    unfold stageAll
    simp only [stageStreams, he, Bool.false_eq_true, if_false]
    rw [ih]
    simp

/-- The active elements of a specification. -/
def VSpec.acts (sp : VSpec) (s : State) : List Nat :=
  ((List.range (s.me.vlen - sp.startOf s.me)).map (sp.startOf s.me + ·)).filter fun i => s.active (s.lanesOf s.tid) sp.mask sp.neg i

/-- What a scan that reaches memory finds. -/
def elemsReached (u : State) (addr : Nat → Option Word) (n : Nat) (use : Use) (at_ : Nat → Phys) (f : Nat → Option Nat × Exc) (l : List Nat) : List Elem :=
  l.map fun i => ⟨i, (f i).1, (f i).2, placedOf addr n use at_ i, loadedOf u addr n use at_ i⟩

/-- What the frame needs to know of a specification whose elements reach memory. -/
structure VSpec.Reaching (sp : VSpec) (s u : State) (addr : Nat → Option Word) (n : Nat) (use : Use) (at_ : Nat → Phys) (f : Nat → Option Nat × Exc) :
    Prop where
  accs : sp.accs s (s.lanesOf s.tid) = accessOf addr n use
  bad : sp.bad = fun _ _ _ => false
  late : ∀ v els, sp.late v els = none
  value : ∀ i ∈ sp.acts s, sp.value ((sp.acts s).map fun i => (i, placedOf addr n use at_ i)) u (s.lanesOf s.tid) i (loadedOf u addr n use at_ i) = f i
  ten : ∀ i ∈ sp.acts s, s.me.ten &&& (f i).2 = 0
  places : s.Places addr n use (sp.acts s) at_ u
  quiet : u.Quiet
  lead : sp.startOf s.me < sp.capacity s.me (s.lanesOf s.tid)
  room : s.me.vlen ≤ sp.capacity s.me (s.lanesOf s.tid)

/-- A scan asks for the accesses of its own elements alone. -/
theorem translateElems_congr (w : Who) (a b : Nat → List Acc) (l : List Nat) (s : State) (used : List Tlb) (got : List (Nat × List Placed))
    (h : ∀ i ∈ l, a i = b i) : translateElems w a l s used got = translateElems w b l s used got := by
  have hf : l.flatMap a = l.flatMap b := by
    induction l with
    | nil => rfl
    | cons i r ih => rw [List.flatMap_cons, List.flatMap_cons, h i List.mem_cons_self, ih fun j hj => h j (List.mem_cons_of_mem _ hj)]
  unfold translateElems
  rw [hf]
  generalize s.freshen w (l.flatMap b) = s'
  clear hf
  induction l generalizing s' used got with
  | nil => rfl
  | cons i r ih =>
    unfold translateFrom
    rw [h i List.mem_cons_self]
    split
    · rfl
    · rfl
    · exact ih _ _ (fun j hj => h j (List.mem_cons_of_mem _ hj)) _

theorem State.vscan_reaching (s u : State) (sp : VSpec) (addr : Nat → Option Word) (n : Nat) (use : Use) (at_ : Nat → Phys)
    (f : Nat → Option Nat × Exc) (hp : s.Plain) (h : sp.Reaching s u addr n use at_ f) :
    s.vscan sp = (some ⟨s.me.vlen, none, elemsReached u addr n use at_ f (sp.acts s), none, []⟩, u) := by
  obtain ⟨-, hb, hc, hbn, -⟩ := hp
  have hm := h.places.marks
  have hub : u.regBad = [] := hm.regBad.trans hb
  have hmin : Nat.min s.me.vlen (sp.capacity s.me (s.lanesOf s.tid)) = s.me.vlen := Nat.min_eq_left h.room
  have hrb := sp.readBinds_none s.me hbn
  have hwb := sp.writeBind_none s.me hbn
  have hmask : (if sp.mask = 0 then none else ((List.range (s.me.vlen - sp.startOf s.me)).map (sp.startOf s.me + ·)).find? fun i =>
      s.maskFails (s.lanesOf s.tid) sp.mask.toNat i) = (none : Option Nat) := by
    split
    · rfl
    · rw [List.find?_eq_none]; intro i _; rw [s.maskFails_none hb]; simp
  unfold State.vscan
  simp only [hmin, hmask, hrb, hwb, h.accs, if_neg (Nat.not_lt.mpr h.room), Option.getD_none, Option.isSome_none, Bool.false_eq_true,
    if_false, List.flatMap_nil, List.nil_append, List.append_nil, filter_lt_range, List.filter_nil, State.lookStreams, List.isEmpty_nil, if_true]
  have hact : (((List.range (s.me.vlen - sp.startOf s.me)).map (sp.startOf s.me + ·)).filter fun i => s.active (s.lanesOf s.tid) sp.mask sp.neg i) =
      sp.acts s := rfl
  rw [hact]
  have htr : translateElems (s.who s.tid) (fun i => accessOf addr n use i) (sp.acts s) s [] [] = _ := h.places.1
  have hup : ∀ i ∈ sp.acts s, i < s.me.vlen := by
    intro i hi
    obtain ⟨k, hk, rfl⟩ := List.mem_map.mp (List.mem_filter.mp hi).1
    rw [List.mem_range] at hk
    omega
  obtain ⟨seen, hld⟩ := u.loadBeside_quiet h.quiet u.tid addr n use at_ (sp.acts s) (fun i hi => (h.places.2 i hi).1)
    (fun i hi => (h.places.2 i hi).2.2) false true
  have hacc : translateElems (s.who s.tid) (fun i => if i < 2 ^ 64 then accessOf addr n use i else []) (sp.acts s) s [] [] =
      (⟨(sp.acts s).map fun i => (i, placedOf addr n use at_ i), none, false⟩, u) := by
    rw [← htr]
    refine translateElems_congr _ _ _ _ _ _ _ fun i hi => if_pos ?_
    have := hup i hi; have := s.me.vlen_lt; omega
  rw [hacc]
  simp only [State.padPlace, ite_self, Option.map_none, Option.toList_none, List.append_nil]
  rw [hld]
  simp only []
  have hin : ∀ e ∈ (sp.acts s).map fun i => (i, loadedOf u addr n use at_ i), e.1 < s.me.vlen := by
    intro e he; obtain ⟨i, hi, rfl⟩ := List.mem_map.mp he; exact hup i hi
  have hd : ((sp.acts s).map fun i => (i, loadedOf u addr n use at_ i)).filter (fun e => decide (e.1 < s.me.vlen)) =
      (sp.acts s).map fun i => (i, loadedOf u addr n use at_ i) := by
    rw [List.filter_eq_self]; intro e he; exact decide_eq_true (hin e he)
  have hq : ((sp.acts s).map fun i => (i, loadedOf u addr n use at_ i)).find? (fun e => e.1 == s.me.vlen) = none := by
    rw [List.find?_eq_none]; intro e he; have := hin e he; simp; omega
  simp only [hd, hq, Option.bind_none, Option.getD_none, Option.filter_none]
  rw [stageAll_plain]
  have hz : ∀ l : List (Nat × List (List Byte)), ((l.map fun e => (e.1, (0 : Exc), e.2)).zip (l.map (·.2))) = l.map fun e => ((e.1, (0 : Exc), e.2), e.2) := by
    intro l
    induction l with
    | nil => rfl
    | cons e r ih => simp only [List.map_cons, List.zip_cons_cons, ih]
  simp only [List.nil_append, hz]
  have hce := computeElems_all s.me (s.lanesOf s.tid) sp u hub h.bad f ((sp.acts s).map fun i => (i, placedOf addr n use at_ i))
    ((sp.acts s).map fun i => (i, loadedOf u addr n use at_ i))
    (by intro e he; obtain ⟨i, hi, rfl⟩ := List.mem_map.mp he; exact h.value i hi)
    (by intro e he; obtain ⟨i, hi, rfl⟩ := List.mem_map.mp he; exact h.ten i hi) []
  have hels : ([] : List Elem) ++ ((sp.acts s).map fun i => (i, loadedOf u addr n use at_ i)).map (fun e =>
      (⟨e.1, (f e.1).1, (f e.1).2, placedIn ((sp.acts s).map fun i => (i, placedOf addr n use at_ i)) e.1, e.2⟩ : Elem)) =
      elemsReached u addr n use at_ f (sp.acts s) := by
    rw [List.nil_append, List.map_map]
    apply List.map_congr_left
    intro i hi
    simp only [Function.comp, placedIn_map _ _ _ hi]
  rw [hels] at hce
  simp only [hce, lower, encodeFails, h.late, hc, bne_self_eq_false, Bool.false_and, Bool.false_eq_true, if_false, blockEnd,
    Option.getD_none, Option.isSome_none, Option.map_none]
  have hfil : ((elemsReached u addr n use at_ f (sp.acts s)).filter fun e => decide (e.i < s.me.vlen)) = elemsReached u addr n use at_ f (sp.acts s) := by
    rw [List.filter_eq_self]
    intro e he
    obtain ⟨i, hi, rfl⟩ := List.mem_map.mp he
    have h2 := (List.mem_filter.mp hi).1
    obtain ⟨k, hk, hk2⟩ := List.mem_map.mp h2
    rw [List.mem_range] at hk
    simp; omega
  rw [hfil]

/-! ## Hotness -/

theorem State.countElem_none (s : State) (w : Who) (cls : Nat) (l : List Placed) (h : ∀ p ∈ l, p.at_.hs = false) : s.countElem w [(cls, l)] = s := by
  have hl : ∀ l : List Placed, (∀ p ∈ l, p.at_.hs = false) → l.foldl (fun (l : List (Nat × Phys)) p =>
      if p.at_.hs && !(l.any fun q => q.2.s2base == p.at_.s2base) then l ++ [(cls, p.at_)] else l) [] = [] := by
    intro l
    induction l with
    | nil => intro _; rfl
    | cons p r ih =>
      intro h
      rw [List.foldl_cons, h p List.mem_cons_self]
      exact ih fun q hq => h q (List.mem_cons_of_mem _ hq)
  have : hotPages [(cls, l)] = [] := by
    unfold hotPages
    simp only [List.foldl_cons, List.foldl_nil, hl l h, ite_self]
  unfold State.countElem
  rw [this]; rfl

theorem State.countParts_none (s : State) (sp : VSpec) (t : Thread) (hb : ∀ j : Nat, (t.binds[j]?).getD none = none) (els : List Elem)
    (he : ∀ e ∈ els, ∀ p ∈ e.placed, p.at_.hs = false) : s.countParts sp t els = s := by
  unfold State.countParts
  induction els generalizing s with
  | nil => rfl
  | cons e r ih =>
    rw [List.foldl_cons]
    have hp : sp.hotParts t e.placed = [(sp.hot, e.placed)] := by
      unfold VSpec.hotParts
      rw [sp.readBinds_none t hb, sp.writeBind_none t hb]
      rfl
    rw [hp, State.countElem_none _ _ _ _ (he e List.mem_cons_self)]
    exact ih _ fun e he' => he e (List.mem_cons_of_mem _ he')

/-! ## The frame -/

/-- A vector instruction whose elements all pass their checks. -/
theorem State.vframe_reaching (s u : State) (sp : VSpec) (extra : State → Lanes → Nat → List Elem → State) (addr : Nat → Option Word) (n : Nat)
    (use : Use) (at_ : Nat → Phys) (f : Nat → Option Nat × Exc) (hp : s.Plain) (h : sp.Reaching s u addr n use at_ f) (hrot : sp.noRot = false)
    (hx : ∀ v : State, v.me.cut = 0 → v.me.replaying = false →
      (extra v (s.lanesOf s.tid) s.me.vlen (elemsReached u addr n use at_ f (sp.acts s))).me.cut = 0 ∧
      (extra v (s.lanesOf s.tid) s.me.vlen (elemsReached u addr n use at_ f (sp.acts s))).me.replaying = false)
    (hfin : ∀ v : State, v.me.cut = 0 → v.me.replaying = false → (sp.fin v).me.cut = 0 ∧ (sp.fin v).me.replaying = false) :
    s.vframe sp extra =
      let els := elemsReached u addr n use at_ f (sp.acts s)
      u.vectorLeaves sp.dst sp.noMp (sp.startOf s.me) s.me.vlen (orExc els) els (fun v => extra v (s.lanesOf s.tid) s.me.vlen els) sp.fin := by
  have hscan := s.vscan_reaching u sp addr n use at_ f hp h
  have hm := h.places.marks
  obtain ⟨hr, hb, hc, hbn, hv⟩ := hp
  have hrb := sp.readBinds_none s.me hbn
  have hwb := sp.writeBind_none s.me hbn
  have hmis : sp.misplacedBlock s.me = false := by unfold VSpec.misplacedBlock; rw [hwb]
  unfold State.vframe
  simp only [if_neg hv, if_neg (Nat.not_le.mpr h.lead), hmis, Bool.false_eq_true, if_false, hscan]
  have hhs : ∀ e ∈ elemsReached u addr n use at_ f (sp.acts s), ∀ p ∈ e.placed, p.at_.hs = false := by
    intro e he p hp
    obtain ⟨i, hi, rfl⟩ := List.mem_map.mp he
    obtain ⟨a, -, rfl⟩ := List.mem_map.mp hp
    exact (h.places.2 i hi).2.1
  generalize elemsReached u addr n use at_ f (sp.acts s) = els at *
  have hlead : (Outcome.mk s.me.vlen none els none []).atLead (sp.startOf s.me) = none := rfl
  rw [hlead]
  simp only []
  have hume : u.me = s.me := hm.me
  have hfl : sp.flags u.me els = orExc els := by unfold VSpec.flags; rw [hume, hwb]; simp
  have hsc : sp.streamCodes u.me = [] := by
    unfold VSpec.streamCodes; rw [hume, hrb, hwb]
    split <;> simp_all
  have hap : u.vapply sp extra (s.lanesOf s.tid) s.me.vlen els = extra (u.setMe (u.me.addFlags (orExc els))) (s.lanesOf s.tid) s.me.vlen els := by
    unfold State.vapply
    simp only [hume, hwb]
    rw [← hume, hfl, hume]
    exact State.countParts_none _ sp s.me hbn els hhs
  unfold State.vcommit
  simp only [hsc, hap]
  unfold State.vcomplete State.vectorLeaves
  simp only [hrot, Bool.false_eq_true, if_false, State.advanceBinds, List.foldl_nil, hm.lanesOf, hm.tid, hume]
  have h0 : (u.setMe (s.me.addFlags (orExc els))).me.cut = 0 := by rw [State.me_setMe]; exact hc
  have h1 : (u.setMe (s.me.addFlags (orExc els))).me.replaying = false := by
    rw [State.me_setMe, ← hr]; exact Thread.replaying_of _ _ rfl rfl rfl
  obtain ⟨h2, h3⟩ := hx _ h0 h1
  generalize extra (u.setMe (s.me.addFlags (orExc els))) (s.lanesOf s.tid) s.me.vlen els = v at *
  have hreg := State.putResult_only v (s.lanesOf s.tid) sp.dst sp.noMp (sp.startOf s.me) s.me.vlen s.me.vlen els
  have hme := hreg.me
  generalize v.putResult (s.lanesOf s.tid) sp.dst sp.noMp _ _ _ els = z at *
  obtain ⟨h4, h5⟩ := hfin z (by rw [hme]; exact h2) (by rw [hme]; exact h3)
  exact State.vdone_plain _ h4 h5

/-- A strip that fits its operands fits the capacity of the specification. -/
theorem VSpec.capacity_reaching (s : State) (sp : VSpec) (hbn : ∀ j : Nat, (s.me.binds[j]?).getD none = none) (hz : sp.fromZero = false) (hl : sp.limit = 2 ^ 64) (hraw : sp.raw = [])
   (caps : List Nat) (h : s.Within s.me.start caps) (hs : ∀ e ∈ sp.srcs, s.capOf e.2 ∈ caps) (hne : caps ≠ [])
   (hd : match sp.dst with | .reg _ o => s.capOf o ∈ caps | .mask _ => maskCap (s.lanesOf s.tid).count ∈ caps | .none => True)
   (hm : sp.mask ≠ 0 ∨ sp.maskSrcs ≠ [] ∨ sp.maskOut = true → maskCap (s.lanesOf s.tid).count ∈ caps) :
   sp.startOf s.me < sp.capacity s.me (s.lanesOf s.tid) ∧ s.me.vlen ≤ sp.capacity s.me (s.lanesOf s.tid) := by
  have hst : sp.startOf s.me = s.me.start := by unfold VSpec.startOf; rw [hz]; rfl
  rw [hst]
  unfold VSpec.capacity
  simp only [hraw, sp.readBinds_none s.me hbn, sp.writeBind_none s.me hbn, List.map_nil, List.append_nil, hl]
  refine minCap_bounds _ _ _ _ ⟨?_, ?_⟩ ?_
  · unfold Thread.start bits; omega
  · unfold Thread.vlen bits; omega
  intro c hc
  refine h c ?_
  rw [List.mem_append, List.mem_append] at hc
  rcases hc with (hc | hc) | hc
  · obtain ⟨e, he, rfl⟩ := List.mem_map.mp hc
    exact hs e he
  · split at hc
    · rename_i o hdst; rw [hdst] at hd; simp at hc; rw [hc]; exact hd
    · rename_i hdst; rw [hdst] at hd; simp at hc; rw [hc]; exact hd
    · cases hc
  · split at hc
    · rename_i hcond
      simp at hc
      rw [hc]
      apply hm
      simp only [Bool.or_eq_true, bne_iff_ne, ne_eq, Bool.not_eq_true', List.isEmpty_eq_false_iff] at hcond
      rcases hcond with (h | h) | h
      · exact .inl h
      · exact .inr (.inl h)
      · exact .inr (.inr h)
    · cases hc

/-- A destination takes its elements' indexes and values alone. -/
theorem State.putResult_congr (s : State) (x : Lanes) (dst : Dst) (noMp : Bool) (es stop tail : Nat) (els els' : List Elem)
    (h : ∀ i, (els.find? fun e => e.i == i).map (·.v) = (els'.find? fun e => e.i == i).map (·.v)) :
    s.putResult x dst noMp es stop tail els = s.putResult x dst noMp es stop tail els' := by
  have hw : ∀ t : Thread, t.written noMp es stop tail els = t.written noMp es stop tail els' := by
    intro t; funext i
    have := h i
    unfold Thread.written
    generalize els.find? (fun e => e.i == i) = a at this ⊢
    generalize els'.find? (fun e => e.i == i) = b at this ⊢
    cases a <;> cases b <;> simp_all
  have hd : ∀ u : State, u.writeDst x dst noMp es stop els = u.writeDst x dst noMp es stop els' := by
    intro u
    unfold State.writeDst
    dsimp only
    congr 1
    funext acc d
    have := h (es + d)
    generalize els.find? (fun e => e.i == es + d) = a at this ⊢
    generalize els'.find? (fun e => e.i == es + d) = b at this ⊢
    cases a <;> cases b <;> simp_all
  unfold State.putResult
  rw [hw]
  simp only [hd]

/-- The destination's new elements do not depend on their accesses. -/
theorem reached_find (u : State) (addr : Nat → Option Word) (n : Nat) (use : Use) (at_ : Nat → Phys) (f : Nat → Option Nat × Exc) (l : List Nat) (i : Nat) :
    ((elemsReached u addr n use at_ f l).find? fun e => e.i == i).map (·.v) =
      ((l.map fun i => (⟨i, (f i).1, 0, [], []⟩ : Elem)).find? fun e => e.i == i).map (·.v) := by
  unfold elemsReached
  rw [List.find?_map, List.find?_map, Option.map_map, Option.map_map]
  rfl

/-- Elements without exceptions raise none. -/
theorem orExc_reached (u : State) (addr : Nat → Option Word) (n : Nat) (use : Use) (at_ : Nat → Phys) (f : Nat → Option Nat) (l : List Nat) :
    orExc (elemsReached u addr n use at_ (fun i => (f i, 0)) l) = 0 := by
  unfold orExc elemsReached
  suffices ∀ e : Exc, (l.map fun i => (⟨i, f i, 0, placedOf addr n use at_ i, loadedOf u addr n use at_ i⟩ : Elem)).foldl (fun a e => a ||| e.exc) e = e from this 0
  induction l with
  | nil => intro e; rfl
  | cons a r ih => intro e; rw [List.map_cons, List.foldl_cons, ih]; simp

theorem VSpec.acts_of (s : State) (sp : VSpec) (c : BitVec 1) (k : BitVec 3) (h1 : sp.fromZero = false) (h2 : sp.mask = k) (h3 : sp.neg = (c == 1)) :
    sp.acts s = s.activesOf s.me.start c k := by
  unfold VSpec.acts State.activesOf VSpec.startOf
  simp [h1, h2, h3]


/-- What a vector instruction leaves depends on its elements only through the destination. -/
theorem State.leaves_congr (s : State) (dst : Dst) (noMp : Bool) (es tail : Nat) (exc : Exc) (els els' : List Elem) (pre fin : State → State)
    (h : ∀ i, (els.find? fun e => e.i == i).map (·.v) = (els'.find? fun e => e.i == i).map (·.v)) :
    s.vectorLeaves dst noMp es tail exc els pre fin = s.vectorLeaves dst noMp es tail exc els' pre fin := by
  unfold State.vectorLeaves
  simp only [State.putResult_congr _ _ _ _ _ _ _ els els' h]

end Sys2Proof.Machine
end

