-- ==== Sys2Proof/Certificates/Slice0/Obligations.lean ====
section
/-! DEFINITION. The statements of this row. Each docstring names the rules of spec/ the statement formalises; where a clause rests on a
reading or a choice of the model, it names the log entry. -/

open Sys2Proof Sys2Proof.Machine

/-! ## Encoding and the step -/

/-- 08 R183 to R194: every well-formed instruction's word decodes to it, with every operand at every value the encoding admits. -/
def Obligations.EncodedWordsDecode : Prop :=
  ∀ (i : Instr) (w : BitVec 32), i.wf = true → encode i = some w → decodeWord i.inTile w = .ok i

/-- 08 R183 to R194: a word decodes, in either mode, to one instruction only: one that is well formed and whose word it is. -/
def Obligations.DecodedWordsEncode : Prop :=
  ∀ (tile : Bool) (w : BitVec 32) (i : Instr), decodeWord tile w = .ok i → i.wf = true ∧ encode i = some w

/-- 08 R183 to R188 and the worked encodings of 09 to 17: words written out in the spec decode to the instructions they stand for. -/
def Obligations.DecodesWords : Prop :=
  let v (w : BitVec 32) (i : Instr) : Prop := decodeWord false w = .ok i
  let t (w : BitVec 32) (i : Instr) : Prop := decodeWord true w = .ok i
  v 0x20A12345 (.ldhi 5 0x12345) ∧ v 0x08A61FFD (.addi 5 6 (-3)) ∧ v 0x0CE58010 (.ldW 7 5 16) ∧ v 0x10E6C000 (.stD 7 6 0) ∧
  v 0x14A61FFE (.beq 5 6 (-2)) ∧ v 0x1480DFF9 (.vloop 4 (-7)) ∧ v 0x1820000A (.jal 1 10) ∧ v 0x1C010000 (.jalr 0 1 0) ∧
  v 0x24A63A25 (.fma 5 6 7 8 1) ∧ v 0x28A60198 (.ldOrdered 5 6 6 1 2) ∧ v 0x28A9387A (.amoadd 5 9 7 1 3 2) ∧
  v 0x2CA63A59 (.cas 5 6 7 9 1 2 1) ∧ v 0x31600000 (.csrr 11 0) ∧ v 0x34A02002 (.qpop 5 2) ∧ v 0x38000140 (.trap 5) ∧
  v 0x38000287 (.fence 2 2) ∧ v 0x38000001 (.tret) ∧ v 0x3C000000 (.nop 0) ∧ v 0x40A00800 (.setvl 10 4) ∧ v 0x40001C02 (.vtype 14) ∧
  v 0x4C320940 (.vfadd 3 8 9 2) ∧ v 0x4C40810D (.vcvt 4 2 1 0) ∧ v 0x50412202 (.vfmulVx 4 4 17 0 0) ∧
  v 0x5CD19A06 (.vfredsumT 13 6 13 0 0) ∧ v 0x6480000A (.vtrans 8) ∧ v 0x70428000 (.vld 4 5 0 0) ∧ v 0x70630402 (.vldx 6 6 2 0 0) ∧
  v 0x74428D41 (.vsts 4 5 6 1 2) ∧ v 0x74228622 (.vstxO 2 5 3 0 1) ∧ v 0x78828C00 (.tload 8 5 0 6 0 0) ∧ v 0x7C828000 (.vbind 8 5) ∧
  v 0x80428060 (.cappend 4 5 0 3) ∧ v 0x84328C00 (.wbload 3 5 6) ∧ v 0x90328702 (.csadd 3 1 2 7) ∧ v 0x90104708 (.csseek 1 1 7) ∧
  v 0x90810949 (.cscsr 8 4 9 2) ∧ v 0xA0838440 (.ebatch 8 7 1 0 2) ∧ v 0xA0029C01 (.ecopy 5 7) ∧ v 0xA0028802 (.rep 5 2) ∧
  v 0xA0728006 (.tlread 7 5) ∧ v 0xA4828840 (.vrred 8 5 1 0 0 2) ∧ v 0xA4029C01 (.creduce 5 7) ∧ v 0xA8848000 (.nmadd 8 9 0 0 0) ∧
  v 0xA801A004 (.nmopt 3 8) ∧ v 0xA862B006 (.pklook 6 5 12 0 0) ∧ v 0xAC028000 (.skset 5) ∧ v 0xAC132400 (.sksetG 6 9) ∧
  v 0xAC022801 (.skbuild 4 10) ∧ v 0xF8000400 (.tmode 0 1) ∧ v 0xF8729801 (.tshape 7 5 6) ∧ t 0x40800000 (.tzero 1) ∧
  t 0x41020D21 (.tmmaO 2 8 3 9) ∧ t 0x41840003 (.tmova 3 16 0) ∧ t 0x408100A5 (.tcolmvOut 1 4 5) ∧ t 0x410000A7 (.tscale 2 5) ∧
  t 0x40020008 (.tcvt 0 8 0)

/-- 08 R192, R194, R197: when no move of the schedule is pending, the thread issues and its vector queue is empty, the step fetches the word at the program counter and runs
the instruction it decodes to, or the trap of a word that encodes none. 06 R151: where a vector instruction waits, its word enters the vector
queue and the front end goes on behind it. The steps of the schedule itself are log entry 2. -/
def Obligations.StepRunsDecoded : Prop :=
  ∀ (s t : State) (w : BitVec 32), s.agenda = [] → s.me.issues = true → s.me.vq = [] → s.fetch s.tid = (.word w, t) →
    let waits (o : Host.Outcome State Fault Refusal) (z : State) : Prop := o = .next z ∧ queues w = true ∧ z.me.stays t.me = true
    let runs (o : Host.Outcome State Fault Refusal) : Prop := (∀ z, waits o z → step s = .next (z.defer w)) ∧ ((∀ z, ¬ waits o z) → step s = o)
    (∀ i, decodeWord t.me.tile w = .ok i → runs (exec i t)) ∧
    (∀ sub, decodeWord t.me.tile w = .error sub → runs (exec (.illegalInstruction w sub) t))

/-! ## The canonical form -/

/-- 01 R12; 03 R73, R102: whatever a step does, memory, register storage and the tables of the control dies stay in canonical form, so that equal
contents are equal data (the form itself is the model's, log entry 4). -/
def Obligations.StepKeepsCanonical : Prop := ∀ s t : State, s.Canon → step s = .next t → t.Canon

/-! ## Scalar integers -/

/-- 09 R203, R204, R201: the register forms. Each writes its destination alone, s0 discarding the write. 09 R203, R204: division never traps; its quotient is truncated toward zero, its remainder has the sign of the dividend, and division by zero and
the overflowing quotient give the values of the table. -/
def Obligations.AluRegister : Prop :=
  (∀ (s : State) (d n m x : BitVec 5), s.me.replaying = false →
     let a := s.sr n
     let b := s.sr m
     let gives (i : Instr) (v : Word) : Prop := Completes i s fun t => s.WritesScalar t d v
     gives (.add d n m) (a + b) ∧ gives (.sub d n m) (a - b) ∧
     gives (.and d n m) (a &&& b) ∧ gives (.or d n m) (a ||| b) ∧ gives (.xor d n m) (a ^^^ b) ∧
     gives (.shl d n m) (a <<< (b.toNat % 64)) ∧ gives (.shr d n m) (a >>> (b.toNat % 64)) ∧
     gives (.sra d n m) (a.sshiftRight (b.toNat % 64)) ∧
     gives (.slt d n m) (if a.toInt < b.toInt then 1 else 0) ∧ gives (.sltu d n m) (if a.toNat < b.toNat then 1 else 0) ∧
     gives (.mul d n m) (BitVec.ofNat 64 (a.toNat * b.toNat)) ∧
     gives (.mulh d n m) (BitVec.ofInt 64 (a.toInt * b.toInt / 2 ^ 64)) ∧
     gives (.mulhu d n m) (BitVec.ofNat 64 (a.toNat * b.toNat / 2 ^ 64)) ∧
     gives (.min d n m) (if a.toInt < b.toInt then a else b) ∧ gives (.max d n m) (if a.toInt < b.toInt then b else a) ∧
     gives (.minu d n m) (if a.toNat < b.toNat then a else b) ∧ gives (.maxu d n m) (if a.toNat < b.toNat then b else a) ∧
     gives (.clz d n) (if a = 0 then 64 else BitVec.ofNat 64 (63 - Nat.log2 a.toNat)) ∧
     gives (.ctz d n) (BitVec.ofNat 64 (((List.range 64).find? fun k => a.getLsbD k).getD 64)) ∧
     gives (.popc d n) (BitVec.ofNat 64 ((List.range 64).filter fun k => a.getLsbD k).length) ∧
     gives (.sel d n m x) (if s.sr x ≠ 0 then a else b) ∧ gives (.addsh d n m x) (a + b <<< x.toNat)) ∧
  (∀ (s : State) (d n m : BitVec 5), s.me.replaying = false →
     let a := s.sr n
     let b := s.sr m
     let gives (i : Instr) (v : Word) : Prop := Completes i s fun t => s.WritesScalar t d v
     gives (.div d n m) (if b = 0 then BitVec.allOnes 64 else BitVec.ofInt 64 (a.toInt.tdiv b.toInt)) ∧
     gives (.divu d n m) (if b = 0 then BitVec.allOnes 64 else BitVec.ofNat 64 (a.toNat / b.toNat)) ∧
     gives (.rem d n m) (if b = 0 then a else BitVec.ofInt 64 (a.toInt.tmod b.toInt)) ∧
     gives (.remu d n m) (if b = 0 then a else BitVec.ofNat 64 (a.toNat % b.toNat)))

/-- 09 R205: the immediate forms, the 13-bit immediate sign-extended; ldhi. -/
def Obligations.AluImmediate : Prop :=
  ∀ (s : State) (d n : BitVec 5) (im : BitVec 13) (sh : BitVec 6) (hi : BitVec 21), s.me.replaying = false →
    let a := s.sr n
    let b : Word := BitVec.ofInt 64 im.toInt
    let gives (i : Instr) (v : Word) : Prop := Completes i s fun t => s.WritesScalar t d v
    gives (.addi d n im) (a + b) ∧ gives (.andi d n im) (a &&& b) ∧ gives (.ori d n im) (a ||| b) ∧ gives (.xori d n im) (a ^^^ b) ∧
    gives (.slti d n im) (if a.toInt < im.toInt then 1 else 0) ∧
    gives (.shli d n sh) (a <<< sh.toNat) ∧ gives (.shri d n sh) (a >>> sh.toNat) ∧ gives (.srai d n sh) (a.sshiftRight sh.toNat) ∧
    gives (.ldhi d hi) (BitVec.ofInt 64 (hi.toInt * 4096))

/-! ## Branches and jumps -/

/-- 09 R210: branches compare sn with sm and go to PC + 4 × sext(off13) when the condition holds, else to the next word. 09 R210, R211: jal and jalr write the return
address and jump, jalr reading its base first; a misaligned target of jalr traps (R197) and leaves sd unwritten; vloop subtracts VL, floored at 0, and branches while the
result is not 0. -/
def Obligations.BranchesAndJumps : Prop :=
  (∀ (s : State) (n m : BitVec 5) (o : BitVec 13), s.me.replaying = false →
     let a := s.sr n
     let b := s.sr m
     let goes (i : Instr) (c : Bool) : Prop :=
       Completes i s fun t => s.GoesTo t (if c then s.me.pc + BitVec.ofInt 64 (4 * o.toInt) else s.me.pc + 4)
     goes (.beq n m o) (a == b) ∧ goes (.bne n m o) (a != b) ∧
     goes (.blt n m o) (decide (a.toInt < b.toInt)) ∧ goes (.bge n m o) (decide (b.toInt ≤ a.toInt)) ∧
     goes (.bltu n m o) (decide (a.toNat < b.toNat)) ∧ goes (.bgeu n m o) (decide (b.toNat ≤ a.toNat))) ∧
  (∀ (s : State) (d n : BitVec 5) (im : BitVec 21) (o : BitVec 13), s.me.replaying = false →
     let links (t : State) (target : Word) : Prop :=
       t = s.setMe { s.me with s := t.me.s, lastFault := none, pc := target } ∧
       ∀ k, t.sr k = if k = d ∧ d ≠ 0 then s.me.pc + 4 else s.sr k
     let target := s.sr n + BitVec.ofInt 64 o.toInt
     let left : Word := if s.me.vl.toNat < (s.sr n).toNat then s.sr n - s.me.vl else 0
     Completes (.jal d im) s (fun t => links t (s.me.pc + BitVec.ofInt 64 (4 * im.toInt))) ∧
     (target.toNat % 4 = 0 → Completes (.jalr d n o) s (fun t => links t target)) ∧
     (target.toNat % 4 ≠ 0 → ¬ s.InHandler → Completes (.jalr d n o) s (fun t => s.TrapsTo t 3 0 target s.me.pc)) ∧
     (n ≠ 0 → Completes (.vloop n o) s (fun t =>
       t = s.setMe { s.me with s := t.me.s, lastFault := none
                               pc := if left = 0 then s.me.pc + 4 else s.me.pc + BitVec.ofInt 64 (4 * o.toInt) } ∧
       ∀ k, t.sr k = if k = n then left else s.sr k)))

/-! ## Scalar floating point -/

/-- The value fcmp writes (09 R213): code 0 eq, 1 lt, 2 le, 3 unordered, with NV for a signalling NaN, or for lt and le for any NaN. -/
def fcmpValue (x : BitVec 5) (a b : Val) : Nat × Exc :=
  let un := a.isNan || b.isNan
  let sn := if a.isSnan || b.isSnan then excNV else 0
  let qn := if un then excNV else 0
  match x.toNat with
  | 0 => (if !un && a.cmp b == 0 then 1 else 0, sn)
  | 1 => (if !un && decide (a.cmp b < 0) then 1 else 0, qn)
  | 2 => (if !un && decide (a.cmp b ≤ 0) then 1 else 0, qn)
  | _ => (if un then 1 else 0, sn)

/-- 09 R212 to R215: each rounds its exact value once with element number 0; an exception whose bit in FCS.TEN is 0 sets its flag, one whose bit is 1
traps with cause arithmetic, writes no register and sets no flag. 09 R214: the conversions by code, source and target formats numbered as 03 R97 numbers them (0 FP64, 1 FP32, 2 FP16, 3 BF16, 14 INT64,
15 UINT64); each rounds once. -/
def Obligations.ScalarFloat : Prop :=
  (∀ (s : State) (d n m x : BitVec 5) (p : BitVec 1), s.me.replaying = false →
     let f := if p = 1 then fmt64 else fmt32
     let c := s.me.ctl
     let code (r : BitVec 5) : Nat := (s.sr r).toNat % 2 ^ (if p = 1 then 64 else 32)
     let v (r : BitVec 5) : Val := f.operand c.fz (code r)
     let gives (i : Instr) (r : Nat × Exc) : Prop :=
       (s.me.ten &&& r.2 = 0 → Completes i s fun t => s.WritesFloat t d r) ∧
       (s.me.ten &&& r.2 ≠ 0 → ¬ s.InHandler → Completes i s fun t => s.TrapsTo t 4 0 (w64 r.2.toNat) s.me.pc)
     gives (.fadd d n m p) (roundTo f c 0 0 ((v n).add c.rm (v m))) ∧
     gives (.fsub d n m p) (roundTo f c 0 0 ((v n).add c.rm (v m).negate)) ∧
     gives (.fmul d n m p) (roundTo f c 0 0 ((v n).mul (v m))) ∧
     gives (.fdiv d n m p) ((roundTo f c 0 0 ((v n).div (v m)).1).1, (roundTo f c 0 0 ((v n).div (v m)).1).2 ||| ((v n).div (v m)).2) ∧
     gives (.fsqrt d n p) (roundTo f c 0 0 (v n).sqrt) ∧
     gives (.fma d n m x p) (roundTo f c 0 0 (((v n).mul (v m)).add c.rm (v x))) ∧
     gives (.fmin d n m p) (FOp.min.run f c 0 0 (code n) (code m)) ∧
     gives (.fmax d n m p) (FOp.max.run f c 0 0 (code n) (code m)) ∧
     (x.toNat ≤ 3 → gives (.fcmp d n m x p) (fcmpValue x (v n) (v m)))) ∧
  (∀ (s : State) (d n : BitVec 5), s.me.replaying = false →
     ∀ e ∈ ([(0, 0, 1), (1, 1, 0), (2, 1, 14), (3, 0, 14), (4, 14, 1), (5, 14, 0), (6, 1, 15), (7, 0, 15), (8, 15, 1), (9, 15, 0),
         (10, 1, 2), (11, 2, 1), (12, 1, 3), (13, 3, 1)] : List (Nat × Nat × Nat)),
       let r := convCode e.2.1 e.2.2 s.me.ctl 0 0 ((s.sr n).toNat % 2 ^ codeBits e.2.1)
       (s.me.ten &&& r.2 = 0 → Completes (.fcvt d n (BitVec.ofNat 5 e.1)) s fun t => s.WritesFloat t d r) ∧
       (s.me.ten &&& r.2 ≠ 0 → ¬ s.InHandler →
         Completes (.fcvt d n (BitVec.ofNat 5 e.1)) s fun t => s.TrapsTo t 4 0 (w64 r.2.toNat) s.me.pc))

/-! ## Scalar memory -/

/-- 09 R206, R207: a load of n bytes at sn + sext(imm13) writes them to sd, sign-extended but for the u forms; an ordered load has offset 0 and its
width code in sx. Memory is not changed beyond the marks of the walk. -/
def Obligations.Loads : Prop :=
  ∀ (s u : State) (d n w : BitVec 5) (im : BitVec 13) (o sc : BitVec 2) (p : Phys),
    u.me.replaying = false → u.Quiet →
    let va := s.sr n + BitVec.ofInt 64 im.toInt
    let sx (k : Nat) : Word := (BitVec.ofNat (8 * k) (leNat (u.bytes p.pa k))).signExtend 64
    let zx (k : Nat) : Word := (BitVec.ofNat (8 * k) (leNat (u.bytes p.pa k))).zeroExtend 64
    let loads (i : Instr) (va : Word) (k : Nat) (v : Word) : Prop :=
      s.Reaches va k .load p u → Completes i s fun t => u.WritesScalar t d v
    loads (.ldB d n im) va 1 (sx 1) ∧ loads (.ldBu d n im) va 1 (zx 1) ∧ loads (.ldH d n im) va 2 (sx 2) ∧
    loads (.ldHu d n im) va 2 (zx 2) ∧ loads (.ldW d n im) va 4 (sx 4) ∧ loads (.ldWu d n im) va 4 (zx 4) ∧
    loads (.ldD d n im) va 8 (zx 8) ∧
    (w.toNat ≤ 6 → loads (.ldOrdered d n w o sc) (s.sr n) (2 ^ (w.toNat / 2))
      (if w.toNat % 2 = 0 then sx (2 ^ (w.toNat / 2)) else zx (2 ^ (w.toNat / 2))))

/-- 09 R206, R207; 04 R106, R109, R119: a store commits the low bytes of its register at the translated address, behind its thread's barrier, a release
behind every earlier write; memory itself changes when the write is performed (log entry 6). A release at system scope first has everything
earlier at memory. -/
def Obligations.Stores : Prop :=
  ∀ (s u : State) (d n w : BitVec 5) (im : BitVec 13) (o sc : BitVec 2) (p : Phys),
    u.me.replaying = false →
    let va := s.sr n + BitVec.ofInt 64 im.toInt
    let stores (i : Instr) (va : Word) (k : Nat) (release : Bool) : Prop :=
      s.Reaches va k .store p u → Completes i s fun t => u.Stores t p.pa (leBytes k (s.sr d).toNat) release
    stores (.stB d n im) va 1 false ∧ stores (.stH d n im) va 2 false ∧ stores (.stW d n im) va 4 false ∧
    stores (.stD d n im) va 8 false ∧
    (w = 0 ∨ w = 2 ∨ w = 4 ∨ w = 6 → o = 0 ∨ o = 2 → (o = 2 → sc = 3 → s.pend = [] ∧ s.acked s.tid = true) →
      stores (.stOrdered n d w o sc) (s.sr n) (2 ^ (w.toNat / 2)) (o == 2))

/-- The new value of an atomic (09 R208), from the old value and the operand at a width in bits. -/
def amoNew (op : AtomicOp) (w : Nat) (old v : BitVec w) : BitVec w :=
  match op with
  | .add => old + v
  | .and => old &&& v
  | .or => old ||| v
  | .xor => old ^^^ v
  | .swap => v
  | .min => if old.toInt < v.toInt then old else v
  | .max => if old.toInt < v.toInt then v else old
  | .minu => if old.toNat < v.toNat then old else v
  | .maxu => if old.toNat < v.toNat then v else old

/-- 09 R208; 04 R123, R124: an atomic reads and writes its 4 or 8 bytes at memory in one step and gives the old value, sign-extended; no byte outside them
changes. -/
def Obligations.Atomics : Prop :=
  ∀ (s u : State) (d n m : BitVec 5) (w : BitVec 1) (o sc : BitVec 2) (p : Phys),
    s.kept s.tid = false → u.me.replaying = false → u.Quiet → u.acked u.tid = true →
    let k := if w = 1 then 4 else 8
    let old := BitVec.ofNat (8 * k) (leNat (u.bytes p.pa k))
    let does (i : Instr) (op : AtomicOp) (hostOk : Bool) : Prop :=
      s.Reaches (s.sr n) k (.amo hostOk) p u → Completes i s fun t =>
        let new := leBytes k (amoNew op (8 * k) old (BitVec.ofNat (8 * k) (s.sr m).toNat)).toNat
        (u.putBytes p.pa new).WritesScalar t d (old.signExtend 64) ∧
        t.bytes p.pa k = new ∧ ∀ a, a < p.pa ∨ p.pa + k ≤ a → t.byte a = u.byte a
    does (.amoadd d n m w o sc) .add true ∧ does (.amoand d n m w o sc) .and false ∧ does (.amoor d n m w o sc) .or false ∧
    does (.amoxor d n m w o sc) .xor false ∧ does (.amoswap d n m w o sc) .swap true ∧ does (.amomin d n m w o sc) .min false ∧
    does (.amomax d n m w o sc) .max false ∧ does (.amominu d n m w o sc) .minu false ∧ does (.amomaxu d n m w o sc) .maxu false

/-- 04 R125; 09 R209: cas compares the 8 bytes with sn, writes sm when they are equal, and gives the old value; the sources are read first. -/
def Obligations.CompareAndSwap : Prop :=
  ∀ (s u : State) (d n m x : BitVec 5) (o sc f : BitVec 2) (p : Phys),
    s.kept s.tid = false → u.me.replaying = false → u.Quiet → u.acked u.tid = true → s.Reaches (s.sr x) 8 .cas p u →
    let old := u.word p.pa
    Completes (.cas d n m x o sc f) s fun t =>
      (if old = s.sr n then u.putWord p.pa (s.sr m) else u).WritesScalar t d old ∧
      t.word p.pa = (if old = s.sr n then s.sr m else old) ∧ ∀ a, a < p.pa ∨ p.pa + 8 ≤ a → t.byte a = u.byte a

/-! ## Control registers -/

/-- The control registers of a thread by number (08 R190), as csrr reads them. -/
def csrTable (t : Thread) (p : Pair) : List (Nat × Word) :=
  let wd := (t.win[t.wsel.toNat]?).getD ⟨0, 0⟩
  [(0x000, t.vl), (0x001, t.vty), (0x002, w64 (256 * t.wsel.toNat + t.ncfg.toNat)),
   (0x003, if t.wsel.toNat < 8 * 2 ^ t.ncfg.toNat then w64 (65536 * wd.len.toNat + wd.base.toNat) else 0),
   (0x004, w64 (2 ^ 24 * p.held1.toNat + 2 ^ 16 * p.held0.toNat + p.req.toNat)), (0x005, t.trc), (0x006, t.tra), (0x007, t.es),
   (0x008, t.tal), (0x009, t.tm), (0x00A, t.tn), (0x00B, t.tk), (0x00C, t.fcs), (0x00D, t.tcr), (0x00E, t.rps), (0x00F, t.skz),
   (0x010, w64 (2 ^ 24 * t.fromW.length + 2 ^ 16 * t.fromE.length + 2 ^ 8 * t.q1.length + t.q0.length)),
   (0x018, t.cl[0]), (0x019, t.cl[1]), (0x01A, t.cl[2]), (0x01B, t.cl[3]), (0x01C, t.cl[4]), (0x01D, t.cl[5]), (0x01E, t.cl[6]),
   (0x01F, t.cl[7]), (0x100, t.tvb), (0x101, t.tca), (0x102, t.tpc), (0x103, t.tva), (0x104, t.atb)]

/-- Registers a thread at level U may not write (08 R190). -/
def csrWriteS : List Nat := [0x000, 0x005, 0x006, 0x007, 0x008, 0x009, 0x00A, 0x00B, 0x00E, 0x00F, 0x018, 0x019, 0x01A, 0x01B, 0x01C, 0x01D, 0x01E,
  0x01F, 0x100, 0x101, 0x102, 0x103, 0x104]

/-- 03 R76; 06 R153, R155, R159, R160; 07 R170; 08 R191; 11 R258; 12 R268; 15 R321; 17 R354; 09 R223; 02 R42; 05 R131: at reset every thread's control
registers hold the reset values of their tables, its queues and binding slots are empty and its timelines stand at 0; a pair requests and holds
its lanes as the table says; and the byte stores are in their canonical form (that form, and the timelines, are log entries 3 and 4). -/
def Obligations.Reset : Prop :=
  State.reset.Canon ∧ ∀ n l,
    let t := State.reset.th n
    csrTable t (State.reset.pair l) =
      [(0x000, 0), (0x001, 0x1001), (0x002, 2), (0x003, 0x200000), (0x004, 0xF00FAA55), (0x005, 0), (0x006, 0), (0x007, 0), (0x008, 0), (0x009, 0),
       (0x00A, 0), (0x00B, 0), (0x00C, 0), (0x00D, 0), (0x00E, 0), (0x00F, 0), (0x010, 0), (0x018, 0), (0x019, 0), (0x01A, 0), (0x01B, 0),
       (0x01C, 0), (0x01D, 0), (0x01E, 0), (0x01F, 0), (0x100, 0), (0x101, 0), (0x102, 0), (0x103, 0), (0x104, 0)] ∧
    t.q0 = [] ∧ t.q1 = [] ∧ t.fromE = [] ∧ t.fromW = [] ∧ (∀ k : Fin 8, t.binds[k] = none) ∧ (∀ k : Fin 6, t.tl[k].last = 0) ∧
    ∀ k : Fin 64, k.val < 32 → t.win[k] = ⟨BitVec.ofNat 10 (32 * k.val), 32⟩

/-- 08 R190; 09 R217: csrr writes the register's value to sd; at level U the registers from 0x100 on trap with cause permission. -/
def Obligations.ControlRead : Prop :=
  ∀ (s : State) (d : BitVec 5), s.me.replaying = false → ∀ e ∈ csrTable s.me s.myPair,
    (e.1 < 0x100 ∨ s.me.sup = true → Completes (.csrr d (BitVec.ofNat 12 e.1)) s fun t => s.WritesScalar t d e.2) ∧
    (0x100 ≤ e.1 → s.me.sup = false → Completes (.csrr d (BitVec.ofNat 12 e.1)) s fun t => s.TrapsTo t 2 0 0 s.me.pc)

/-- The registers a write changes, with what the write of a value leaves (00 R7; 03 R76; 07 R160, R170; 11 R258; 12 R268; 15 R321; 17 R354): reserved
bits read 0, and a value outside a field's range leaves the field. -/
def csrWrites (t : Thread) (v : Word) : List (Nat × Thread) :=
  let field (hi lo : Nat) : Nat := v.toNat / 2 ^ lo % 2 ^ (hi + 1 - lo)
  let clip (hi most : Nat) (put : Word → Thread) : Thread := if field hi 0 ≤ most then put (w64 (field hi 0)) else t
  let log (c : Nat) : Prop :=
    let k := field (16 * c + 4) (16 * c)
    let m := field (16 * c + 12) (16 * c + 8)
    field (16 * c + 15) (16 * c) = 0 ∨ (field (16 * c + 15) (16 * c + 13) = 0 ∧ 2 ≤ k ∧ k ≤ m ∧ m ≤ 20)
  [(0x000, clip 20 1048576 fun x => { t with vl := x }), (0x002, { t with wsel := BitVec.ofNat 6 (field 13 8) }), (0x003, t), (0x004, t),
   (0x005, { t with trc := w64 (field 7 0) }), (0x006, { t with tra := v }), (0x007, { t with es := w64 (field 20 0) }),
   (0x008, if field 6 0 ≤ 64 ∧ field 23 16 ≤ 127 then { t with tal := v &&& 0xFF007F } else t),
   (0x009, clip 6 64 fun x => { t with tm := x }), (0x00A, clip 7 128 fun x => { t with tn := x }),
   (0x00B, clip 7 128 fun x => { t with tk := x }),
   (0x00C, { t with fcs := (v &&& 0xFFFFFFFFFF1F1F18) ||| w64 (if field 2 0 ≤ 5 then field 2 0 else t.fcs.toNat % 8) }),
   (0x00D, { t with tcr := (t.tcr &&& ~~~1) ||| (v &&& 1) }), (0x00E, { t with rps := v &&& 0x3FF1F }),
   (0x00F, if log 0 ∧ log 1 ∧ log 2 ∧ log 3 then { t with skz := v } else t), (0x010, t),
   (0x018, clip 17 131072 fun x => { t with cl := t.cl.setIfInBounds 0 x }), (0x019, clip 17 131072 fun x => { t with cl := t.cl.setIfInBounds 1 x }),
   (0x01A, clip 17 131072 fun x => { t with cl := t.cl.setIfInBounds 2 x }), (0x01B, clip 17 131072 fun x => { t with cl := t.cl.setIfInBounds 3 x }),
   (0x01C, clip 17 131072 fun x => { t with cl := t.cl.setIfInBounds 4 x }), (0x01D, clip 17 131072 fun x => { t with cl := t.cl.setIfInBounds 5 x }),
   (0x01E, clip 17 131072 fun x => { t with cl := t.cl.setIfInBounds 6 x }), (0x01F, clip 17 131072 fun x => { t with cl := t.cl.setIfInBounds 7 x }),
   (0x100, { t with tvb := v &&& ~~~3 }), (0x101, { t with tca := v &&& 0x307FF }), (0x102, { t with tpc := v &&& ~~~3 }),
   (0x103, { t with tva := v }), (0x104, { t with atb := v &&& 0x000FFFFFFFFFFFFF })]

/-- 08 R190; 09 R217: csrw writes sn, csrs and csrc set and clear its bits in the old value, at level S and, for a register that level may write, at level U; nothing
else changes. -/
def Obligations.ControlWrite : Prop :=
  ∀ (s : State) (n : BitVec 5) (r : Nat) (old : Word), s.me.sup = true ∨ r ∉ csrWriteS → (r, old) ∈ csrTable s.me s.myPair →
    let does (i : Instr) (v : Word) : Prop := ∀ e ∈ csrWrites s.me v, e.1 = r → e.2.replaying = false →
      Completes i s fun t => t = s.setMe { e.2 with lastFault := none, pc := s.me.pc + 4 }
    does (.csrw n (BitVec.ofNat 12 r)) (s.sr n) ∧ does (.csrs n (BitVec.ofNat 12 r)) (old ||| s.sr n) ∧
    does (.csrc n (BitVec.ofNat 12 r)) (old &&& ~~~(s.sr n))

/-- 08 R190, R191; 09 R217: at level U a write of a register of level S traps with cause permission and writes nothing; a reserved value of VTY traps
as an illegal instruction with sub-cause reserved field, and a legal one is written. -/
def Obligations.ControlWriteChecks : Prop :=
  ∀ (s : State) (n : BitVec 5), s.me.replaying = false → ¬ s.InHandler →
    (∀ r ∈ csrWriteS, s.me.sup = false →
      Completes (.csrw n (BitVec.ofNat 12 r)) s (fun t => s.TrapsTo t 2 0 0 s.me.pc) ∧
      Completes (.csrs n (BitVec.ofNat 12 r)) s (fun t => s.TrapsTo t 2 0 0 s.me.pc) ∧
      Completes (.csrc n (BitVec.ofNat 12 r)) s (fun t => s.TrapsTo t 2 0 0 s.me.pc)) ∧
    (let v := s.sr n
     let bad : Prop := 2 ^ 14 ≤ v.toNat ∨ v.toNat % 16 = 6 ∨ v.toNat / 256 % 16 ∈ [1, 2, 9, 10, 11, 12, 13, 14, 15]
     (bad → ∃ w, encode (.csrw n 1) = some w ∧
       Completes (.csrw n 1) s fun t => s.TrapsTo t 12 3 (w64 (3 * 2 ^ 32 + w.toNat)) s.me.pc) ∧
     (¬ bad → Completes (.csrw n 1) s fun t => t = s.setMe { s.me with vty := v, lastFault := none, pc := s.me.pc + 4 }))

/-! ## Queues -/

/-- 06 R153; 09 R216; 04 R130: qpush appends sn to Q0, to the west queue of the thread of the same index on the pair to the east, or to the east
queue of the one to the west, the last two once nothing the thread's release fence puts first is pending; a full queue (32 entries, or 16) blocks
it, with nothing changed. 06 R153; 09 R216: qpop removes the oldest entry of Q1, of the east queue or of the west queue and writes it to sd; an empty queue blocks it. -/
def Obligations.Queues : Prop :=
  (∀ (s : State) (n : BitVec 5), s.me.replaying = false →
     let v := s.sr n
     let blocked (i : Instr) : Prop := Completes i s fun t => t = s
     let e := s.neighbour true
     let w := s.neighbour false
     let free : Prop := ∀ p ∈ s.pend, (p.ownOrdered s.tid = true → s.me.barrier ≤ p.seq) ∧ s.me.fwdBar.contains p.seq = false
     (s.me.q0.length < 32 → Completes (.qpush n 0) s fun t =>
       t = s.setMe { s.me with q0 := s.me.q0 ++ [v], lastFault := none, pc := s.me.pc + 4 }) ∧
     (32 ≤ s.me.q0.length → blocked (.qpush n 0)) ∧
     ((s.th e).fromW.length < 16 → e ≠ s.tid → free → Completes (.qpush n 2) s fun t =>
       t = (s.setTh e { s.th e with fromW := (s.th e).fromW ++ [v] }).setMe { s.me with lastFault := none, pc := s.me.pc + 4 }) ∧
     (16 ≤ (s.th e).fromW.length → blocked (.qpush n 2)) ∧
     ((s.th w).fromE.length < 16 → w ≠ s.tid → free → Completes (.qpush n 3) s fun t =>
       t = (s.setTh w { s.th w with fromE := (s.th w).fromE ++ [v] }).setMe { s.me with lastFault := none, pc := s.me.pc + 4 }) ∧
     (16 ≤ (s.th w).fromE.length → blocked (.qpush n 3))) ∧
  (∀ (s : State) (d : BitVec 5) (v : Word) (rest : List Word), s.me.replaying = false →
     let pops (q : BitVec 2) (x : Thread) : Prop := Completes (.qpop d q) s fun t => (s.setMe x).WritesScalar t d v
     let blocked (q : BitVec 2) : Prop := Completes (.qpop d q) s fun t => t = s
     (s.me.q1 = v :: rest → pops 1 { s.me with q1 := rest }) ∧ (s.me.q1 = [] → blocked 1) ∧
     (s.me.fromE = v :: rest → pops 2 { s.me with fromE := rest }) ∧ (s.me.fromE = [] → blocked 2) ∧
     (s.me.fromW = v :: rest → pops 3 { s.me with fromW := rest }) ∧ (s.me.fromW = [] → blocked 3))

/-! ## Traps -/

/-- 09 R222, R224; 08 R195: trap and brk enter the handler at TVB, TVA holding the immediate and TPC the next word; a word that encodes no instruction enters it
with cause 12, its sub-cause in TCA and above the word in TVA, and TPC holding its own address. No other register and no byte of memory changes. -/
def Obligations.TrapEntry : Prop :=
  ∀ (s : State) (x : BitVec 5) (w : BitVec 32) (sub : IllegalSub), s.me.replaying = false → ¬ s.InHandler →
    Completes (.trap x) s (fun t => s.TrapsTo t 14 0 (w64 x.toNat) (s.me.pc + 4)) ∧
    Completes (.brk x) s (fun t => s.TrapsTo t 13 0 (w64 x.toNat) (s.me.pc + 4)) ∧
    Completes (.illegalInstruction w sub) s
      (fun t => s.TrapsTo t 12 sub.code.toNat (w64 (sub.code.toNat * 2 ^ 32 + w.toNat)) s.me.pc)

/-- 09 R225: a trap inside the handler stops the thread with a record of kind 5 to the owner, which carries the cause, sub-cause and value; the registers of the
first trap stay. That the record carries the program counter of the instruction that trapped is the model's reading (log entry 28). -/
def Obligations.DoubleTrap : Prop :=
  ∀ (s : State) (x : BitVec 5) (w : BitVec 32) (sub : IllegalSub), s.me.replaying = false → s.InHandler →
    let stops (i : Instr) (cause sub : Nat) (value : Word) : Prop := Completes i s fun t =>
      s.StopsWith t { s.me with run := .doubleTrap } { s.recFor s.tid true 5 with cause := cause, sub := sub, value := value }
    stops (.trap x) 14 0 (w64 x.toNat) ∧ stops (.brk x) 13 0 (w64 x.toNat) ∧
    stops (.illegalInstruction w sub) 12 sub.code.toNat (w64 (sub.code.toNat * 2 ^ 32 + w.toNat))

/-- 09 R218, R226: tret, at level S, goes to TPC, restores the level from TCA and clears TCA's handler bit; at level U it traps with cause permission. -/
def Obligations.TrapReturn : Prop :=
  ∀ (s : State), s.me.replaying = false →
    (s.me.sup = true → Completes .tret s fun t => t = s.setMe { s.me with
      lastFault := none, pc := s.me.tpc &&& ~~~3, sup := s.me.tca.getLsbD 16, tca := s.me.tca &&& ~~~(0x20000 : Word) }) ∧
    (s.me.sup = false → Completes .tret s fun t => s.TrapsTo t 2 0 0 s.me.pc)

/-! ## Fences, waiting and the end of a context -/

/-- 04 R120, R121, R129: nop and an acquire fence only move the pc; a release fence at scope p, d or v puts the thread's later writes behind every
earlier one; a full fence at scope p leaves the thread's earlier writes performed there, where none of them leaves the module; every full fence,
a release fence at scope y, lsync and ifence complete when nothing is pending (and, at scope y, everything is acknowledged). -/
def Obligations.Fences : Prop :=
  ∀ (s : State) (sc : BitVec 2) (h : BitVec 26), s.me.replaying = false →
    let plain (i : Instr) : Prop := Completes i s fun t => s.GoesTo t (s.me.pc + 4)
    let behind (i : Instr) : Prop := Completes i s fun t => t = s.setMe { s.me with
      barrier := s.wseq, fwdBar := if sc = 0 then s.me.fwdBar else s.me.fwd, lastFault := none, pc := s.me.pc + 4 }
    plain (.nop h) ∧ plain (.fence 1 sc) ∧ (sc ≠ 3 → behind (.fence 2 sc)) ∧
    ((∀ p ∈ s.pend, p.ownOrdered s.tid = true → s.outbound p = false) → Completes (.fence 3 0) s fun t =>
      t = { s.setMe { s.me with lastFault := none, pc := s.me.pc + 4 } with
        pend := s.pend.map fun p => if p.ownOrdered s.tid then { p with port := true } else p }) ∧
    (s.pend = [] → (sc = 3 → s.acked s.tid = true) →
      plain (.fence 3 sc) ∧ (sc = 3 → plain (.fence 2 sc)) ∧ plain .lsync ∧ plain .ifence)

/-- 04 R119, R121: past a full fence at scope d or wider, and past lsync, no store or add of the thread is still on its way to memory. -/
def Obligations.FullFenceDrains : Prop :=
  ∀ (s t : State) (sc : BitVec 2), (exec (.fence 3 sc) s = .next t ∧ sc ≠ 0) ∨ exec .lsync s = .next t →
    t.me.pc ≠ s.me.pc → ∀ p ∈ t.pend, p ∈ s.pend ∧ p.ownOrdered s.tid = false

/-- 09 R219: wait moves the pc and the thread issues nothing more until its count has run out. 09 R218, R220: halt, at level S and with everything performed and acknowledged, stops the thread past the word with a record of kind 4 on its partition's queue;
at level U it traps. -/
def Obligations.WaitAndHalt : Prop :=
  (∀ (s : State) (x : BitVec 5) (tid : BitVec 9), s.me.replaying = false →
     Completes (.wait x) s (fun t =>
       t = s.setMe { s.me with waiting := true, lastFault := none, pc := s.me.pc + 4 } ∧ t.me.issues = false) ∧
     Completes (.waitExpire tid) s (fun t => t = s.setTh tid.toNat { s.th tid.toNat with waiting := false })) ∧
  (∀ (s : State), s.me.replaying = false →
     (s.me.sup = true → s.pend = [] → s.acked s.tid = true → Completes .halt s fun t =>
       s.StopsWith t { s.me with run := .stopped, lastFault := none, pc := s.me.pc + 4 } (s.recFor s.tid false 4)) ∧
     (s.me.sup = false → Completes .halt s fun t => s.TrapsTo t 2 0 0 s.me.pc))

/-- 06 R157; 09 R221; 18 R380: kend frees the thread and its lane groups behind a release fence; level, handler bit, replay and records waiting to be posted are cleared,
its iteration no longer holds its record back, and no scalar register or byte of register storage outside the tile changes, nor, with no replay
pending, any byte of memory (a replay that no longer applies is counted, 19 R397). -/
def Obligations.ContextEnds : Prop :=
  ∀ (s : State), s.me.replaying = false → Completes .kend s fun t =>
    let x := t.me
    x.run = .free ∧ x.sup = false ∧ x.tca = s.me.tca &&& ~~~(0x20000 : Word) ∧ x.rps = 0 ∧ x.toPost = [] ∧ x.leave = false ∧ x.tile = false ∧
    t.held s.tid = 0 ∧ t.held (sibling s.tid) = s.held (sibling s.tid) ∧ x.barrier = s.wseq ∧ x.s = s.me.s ∧ (s.me.replay = none → t.mem = s.mem) ∧ t.regs = s.regs ∧
    t.pend = s.pend ∧ (∀ k, k ≠ s.tid → t.th k = s.th k) ∧ (s.me.tile = true → t.myPair.tmu ≠ some s.tid)

/-! ## Cached translations -/

/-- 02 R63, R64: tlbi at level S removes from the TLBs and walk caches the partition's translations and first-stage table pointers: all, those of an
ASN, or the translation of a page with the ASN's pointers, when nothing of the partition is on its way to memory; at level U it traps. An owner scope
traps on every pair and, for owner code on an application core, removes a guest-physical page's translations and pointers, or a partition's, with
the filter entries (DIRTY is read again as it stands, log entry 78). -/
def Obligations.TlbInvalidate : Prop :=
  ∀ (s : State) (n m : BitVec 5), s.me.replaying = false →
    let less (s : State) (gone : Tlb → Bool) (ptr : WalkPtr → Bool) : State := { s with
      tlb := s.tlb.filter fun e => !gone e, tlb1 := s.tlb1.filter fun e => !gone e.2, wcache := s.wcache.filter fun p => !ptr p }
    let p := s.myPart
    let leaves (i : Instr) (gone : Tlb → Bool) (ptr : WalkPtr → Bool) : Prop := Completes i s fun t =>
      t = (less s (fun e => e.part == p && gone e) fun e => e.part == p && (!e.second && ptr e)).setMe
        { s.me with lastFault := none, pc := s.me.pc + 4 }
    let asn (k : BitVec 5) : Nat := (s.sr k).toNat % 4096
    (s.me.sup = true → s.pend = [] → s.asking p = false →
      leaves .tlbiAll (fun _ => true) (fun _ => true) ∧
      leaves (.tlbiAsn n) (fun e => e.asn == asn n) (fun e => e.asn == asn n) ∧
      leaves (.tlbiVa n m) (fun e => e.asn == asn m && (s.sr n).toNat % 2 ^ 57 / classBytes e.size * classBytes e.size == e.vbase)
        (fun e => e.asn == asn m)) ∧
    (s.me.sup = false → ∀ i ∈ [Instr.tlbiAll, .tlbiAsn n, .tlbiVa n m], Completes i s fun t => s.TrapsTo t 2 0 0 s.me.pc) ∧
    (s.app = none → ¬ s.InHandler → ∀ i ∈ [Instr.tlbiGpa n m, .tlbiPart m], Completes i s fun t => s.TrapsTo t 2 0 0 s.me.pc) ∧
    (∀ r, s.app = some r → s.pend = [] →
      let reg (k : BitVec 5) : Word := if k = 0 then 0 else r[k.toNat]'k.isLt
      let gpa := (reg n).toNat
      let part := (reg m).toNat % 64
      s.asking part = false →
      Completes (.tlbiGpa n m) s (fun t =>
        t = { less s (fun e => e.part == part && e.gbase / classBytes e.s2size == gpa / classBytes e.s2size)
            (fun e => e.part == part && (if e.second then e.tag == gpa / 2 ^ (12 + 9 * e.level) else e.gpa / 2 ^ 30 == gpa / 2 ^ 30)) with
          filt := s.filt.filter fun f => !(f.2.1 == part && f.2.2 == gpa / 4096) }) ∧
      Completes (.tlbiPart m) s (fun t =>
        let again := (reg m).getLsbD 8
        t = { { less s (fun e => e.part == part) (fun e => e.part == part) with
              filt := s.filt.filter fun f => !(f.2.1 == part && again), ownerFq := ⟨none, none⟩ }.setPart part
            { s.part part with
              fq := ⟨none, none⟩, dirty := if again then s.word (s.ptb.toNat + 128 * part + 48) else (s.part part).dirty } with cur := s.cur }))

/-! ## Vector configuration -/

/-- 06 R155, R156: the lane group g a thread holds after a setvl: REQ gives it, and the thread already holds it or the other does not. -/
def grantedGroup (s : State) (g : Nat) : Bool :=
  (s.myPair.req.toNat / 4 ^ g % 4 == s.tid % 2 + 1) && ((s.held s.tid).getLsbD g || !(s.held (sibling s.tid)).getLsbD g)

/-- 03 R82, R88; 06 R156, R158; 10 R229: setvl takes the lane groups REQ gives and writes min(sn, VLMAX) to VL and sd, with ES, TRC and TRA cleared;
without lanes a request for elements waits. Where the held set changes, the main slices, near-bank registers and masks of every lane now held read zero,
and CL; where it does not, nothing is zeroed. 03 R77; 10 R230: with no binding to write back, vcfg sets the number of registers, gives the first N
windows the equal layout, and zeroes the main slices and near-bank registers of the thread's lanes and CL; masks stay, and ES (log entry 87). -/
def Obligations.SetVectorLength : Prop :=
  (∀ (s : State) (d n : BitVec 5) (h : Byte), s.me.replaying = false → (∀ g, g < 8 → h.getLsbD g = grantedGroup s g) →
     let vlmax (lanes : Nat) : Nat := lanes * (8192 / (8 * 2 ^ s.me.ncfg.toNat) * 2 / codeNibbles (s.me.vty.toNat % 16)) * 2 ^ (s.me.vty.toNat / 16 % 4)
     let vl (u : State) : Word := w64 (Nat.min (s.sr n).toNat (vlmax (u.lanes s.tid)))
     let gives (z : State) (vl : Word) (t : State) : Prop :=
       (z.setMe { z.me with vl := vl, trc := 0, tra := 0, es := 0 }).WritesScalar t d vl
     (h = s.held s.tid → (s.sr n = 0 ∨ s.lanes s.tid ≠ 0) → Completes (.setvl d n) s fun t => gives s (vl s) t) ∧
     (h = s.held s.tid → s.sr n ≠ 0 → s.lanes s.tid = 0 → Completes (.setvl d n) s fun t => t = s) ∧
     (h ≠ s.held s.tid → s.pend = [] →
       let u := s.setHeld s.tid h
       let none (z : State) : State := z.setMe { z.me with cl := Vector.replicate 8 0 }
       ((s.sr n = 0 ∨ u.lanes s.tid ≠ 0) → Completes (.setvl d n) s fun t => ∃ z, u.Zeroes z true ∧ gives (none z) (vl u) t) ∧
       (s.sr n ≠ 0 → u.lanes s.tid = 0 → Completes (.setvl d n) s fun t => ∃ z, u.Zeroes z true ∧ t = none z))) ∧
  (∀ (s : State) (c : BitVec 2), s.me.replaying = false → (∀ j : Nat, (s.me.binds[j]?).getD none = none) →
     let n := 8 * 2 ^ c.toNat
     Completes (.vcfg c) s fun t => ∃ z win, s.Zeroes z false ∧
       (∀ k (h : k < 64), win[k] = if k < n then ⟨BitVec.ofNat 10 (k * (1024 / n)), BitVec.ofNat 11 (1024 / n)⟩ else s.me.win[k]) ∧
       t = z.setMe { s.me with ncfg := c, win := win, cl := Vector.replicate 8 0, lastFault := none, pc := s.me.pc + 4 })

/-- 08 R191; 10 R231, R232: vtype writes VTY, vwin a window of base and length in units of 8 bytes, lpart the lane request; a value outside its range is a reserved
field, and a window of a register that the layout does not have an absent register. That they keep ES is the model's choice (log entry 87). -/
def Obligations.VectorSetup : Prop :=
  ∀ (s : State) (d : BitVec 6) (n : BitVec 5), s.me.replaying = false →
    let v := s.sr n
    let illegal (i : Instr) (sub : Nat) : Prop := ¬ s.InHandler → ∃ w, encode i = some w ∧
      Completes i s fun t => s.TrapsTo t 12 sub (w64 (sub * 2 ^ 32 + w.toNat)) s.me.pc
    let sets (i : Instr) (x : Thread) : Prop := Completes i s fun t => t = s.setMe { x with lastFault := none, pc := s.me.pc + 4 }
    let badType : Prop := 2 ^ 14 ≤ v.toNat ∨ v.toNat % 16 = 6 ∨ v.toNat / 256 % 16 ∈ [1, 2, 9, 10, 11, 12, 13, 14, 15]
    let base := v.toNat % 1024
    let len := v.toNat / 65536 % 2048
    let badWin : Prop := 2 ^ 27 ≤ v.toNat ∨ v.toNat / 1024 % 64 ≠ 0 ∨ len = 0 ∨ 1024 < base + len
    let badPart : Prop := 2 ^ 16 ≤ v.toNat ∨ ∃ g, g < 8 ∧ v.toNat / 4 ^ g % 4 = 3
    (badType → illegal (.vtype n) 3) ∧ (¬ badType → sets (.vtype n) { s.me with vty := v }) ∧
    (badWin → illegal (.vwin d n) 3) ∧ (¬ badWin → 8 * 2 ^ s.me.ncfg.toNat ≤ d.toNat → illegal (.vwin d n) 4) ∧
    (¬ badWin → d.toNat < 8 * 2 ^ s.me.ncfg.toNat →
      sets (.vwin d n) { s.me with win := s.me.win.setIfInBounds d.toNat ⟨BitVec.ofNat 10 base, BitVec.ofNat 11 len⟩ }) ∧
    (badPart → illegal (.lpart n) 3) ∧
    (¬ badPart → Completes (.lpart n) s fun t =>
      t = (s.setPair s.myL { s.myPair with req := BitVec.ofNat 16 v.toNat }).setMe { s.me with lastFault := none, pc := s.me.pc + 4 })

/-! ## Element-wise vector instructions

Each statement is over strips that fit their operands, with no binding, no failed parity and no enabled exception among the elements; the frame is that of
`State.vectorLeaves`: the destination, its inactive and tail elements, the last-result file, the flags, ES and the pc, and nothing else. -/

/-- An element as an integer: two's complement for the INT and floating-point types, else unsigned (10 R233). -/
def elemInt (et x : Nat) : Int :=
  if et < 6 ∨ et ∈ [7, 8, 10, 12, 14] then (BitVec.ofNat (codeBits et) x).toInt else ((x % 2 ^ codeBits et : Nat) : Int)

/-- 10 R233, R234, R238; 08 R184, R198: the integer operations, against a second register or a scalar; wrapping at the element width, the shift count taken modulo it,
the multiply-adds into the destination's own elements. What y0 keeps beyond a shorter destination, here and in the statements below, is log entry 79. -/
def Obligations.VectorIntegers : Prop :=
  ∀ (s : State) (d a b : BitVec 6) (n : BitVec 5) (q : BitVec 1) (k : BitVec 3) (v : Word) (od oa ob : Operand),
    let t := s.me
    let et := t.et
    let w := codeBits et
    let nib := codeNibbles et
    s.Plain → t.operand d t.group nib true = some od → t.operand a t.group nib false = some oa → t.operand b t.group nib false = some ob →
    let caps (l : List Operand) : List Nat := l.map s.capOf ++ s.maskRoom k
    let int (x : Nat) : Int := elemInt et x
    let code (i : Int) : Nat := (BitVec.ofInt w i).toNat
    let gives (iv ix : Instr) (f : Nat → Nat → Nat → Int) : Prop :=
      (s.Within t.start (caps [od, oa, ob]) → Completes iv s fun u =>
        u = s.elementwise (.reg d od) k (fun i => (code (f (s.at_ oa i) (s.at_ ob i) (s.at_ od i)), 0)) id) ∧
      (s.Within t.start (caps [od, oa]) → s.Scalar n q v → Completes ix s fun u =>
        u = s.elementwise (.reg d od) k (fun i => (code (f (s.at_ oa i) (v.toNat % 2 ^ w) (s.at_ od i)), 0)) (dropQ0 q))
    gives (.vadd d a b k) (.vaddVx d a n q k) (fun x y _ => int x + int y) ∧
    gives (.vsub d a b k) (.vsubVx d a n q k) (fun x y _ => int x - int y) ∧
    gives (.vmul d a b k) (.vmulVx d a n q k) (fun x y _ => int x * int y) ∧
    gives (.vmulh d a b k) (.vmulhVx d a n q k) (fun x y _ => int x * int y / 2 ^ w) ∧
    gives (.vmadd d a b k) (.vmaddVx d a n q k) (fun x y z => int z + int x * int y) ∧
    gives (.vmsub d a b k) (.vmsubVx d a n q k) (fun x y z => int z - int x * int y) ∧
    gives (.vdiv d a b k) (.vdivVx d a n q k) (fun x y _ => if int y = 0 then -1 else (int x).tdiv (int y)) ∧
    gives (.vrem d a b k) (.vremVx d a n q k) (fun x y _ => if int y = 0 then int x else (int x).tmod (int y)) ∧
    gives (.vmin d a b k) (.vminVx d a n q k) (fun x y _ => if int x < int y then int x else int y) ∧
    gives (.vmax d a b k) (.vmaxVx d a n q k) (fun x y _ => if int x < int y then int y else int x) ∧
    gives (.vand d a b k) (.vandVx d a n q k) (fun x y _ => ((x &&& y : Nat) : Int)) ∧
    gives (.vor d a b k) (.vorVx d a n q k) (fun x y _ => ((x ||| y : Nat) : Int)) ∧
    gives (.vxor d a b k) (.vxorVx d a n q k) (fun x y _ => ((x ^^^ y : Nat) : Int)) ∧
    gives (.vshl d a b k) (.vshlVx d a n q k) (fun x y _ => ((x * 2 ^ (y % w) : Nat) : Int)) ∧
    gives (.vshr d a b k) (.vshrVx d a n q k) (fun x y _ => ((x % 2 ^ w / 2 ^ (y % w) : Nat) : Int)) ∧
    gives (.vsra d a b k) (.vsraVx d a n q k) (fun x y _ => (BitVec.ofNat w x).toInt / ((2 ^ (y % w) : Nat) : Int)) ∧
    (s.Within t.start (caps [od, oa]) → Completes (.vabs d a k) s fun u =>
      u = s.elementwise (.reg d od) k (fun i => (code (if int (s.at_ oa i) < 0 then -int (s.at_ oa i) else int (s.at_ oa i)), 0)) id)

/-- 10 R233, R239, R240; 07 R170: the floating-point operations, each rounding its exact value once with its own element number; vcvt
converts each active element from ET to the target format with one rounding, into a destination of the target's width and a group of
min(8, g × max(1, w_d / w)). What vfrsqe gives of a zero under SATN is log entry 88. -/
def Obligations.VectorFloats : Prop :=
  (∀ (s : State) (d a b : BitVec 6) (n : BitVec 5) (q : BitVec 1) (k : BitVec 3) (v : Word) (od oa ob : Operand) (f : Fmt),
     let t := s.me
     let et := t.et
     let nib := codeNibbles et
     s.Plain → codeFmt et = some f →
     t.operand d t.group nib true = some od → t.operand a t.group nib false = some oa → t.operand b t.group nib false = some ob →
     let c := t.ctl
     let caps (l : List Operand) : List Nat := l.map s.capOf ++ s.maskRoom k
     let num (x : Nat) : Val := f.operand c.fz x
     let does (i : Instr) (g : Nat → Nat × Exc) (fin : State → State) : Prop :=
       s.NoTrap (s.actives t.start k) g → Completes i s fun u => u = s.elementwise (.reg d od) k g fin
     let gives (iv ix : Instr) (g : Nat → Nat → Nat → Nat → Nat × Exc) : Prop :=
       (s.Within t.start (caps [od, oa, ob]) → does iv (fun i => g i (s.at_ oa i) (s.at_ ob i) (s.at_ od i)) id) ∧
       (s.Within t.start (caps [od, oa]) → s.Scalar n q v →
         does ix (fun i => g i (s.at_ oa i) (v.toNat % 2 ^ codeBits et) (s.at_ od i)) (dropQ0 q))
     let one (i : Instr) (g : Nat → Nat → Nat × Exc) : Prop := s.Within t.start (caps [od, oa]) → does i (fun j => g j (s.at_ oa j)) id
     gives (.vfadd d a b k) (.vfaddVx d a n q k) (fun i x y _ => roundTo f c i 0 ((num x).add c.rm (num y))) ∧
     gives (.vfsub d a b k) (.vfsubVx d a n q k) (fun i x y _ => roundTo f c i 0 ((num x).add c.rm (num y).negate)) ∧
     gives (.vfmul d a b k) (.vfmulVx d a n q k) (fun i x y _ => roundTo f c i 0 ((num x).mul (num y))) ∧
     gives (.vfdiv d a b k) (.vfdivVx d a n q k) (fun i x y _ =>
       ((roundTo f c i 0 ((num x).div (num y)).1).1, (roundTo f c i 0 ((num x).div (num y)).1).2 ||| ((num x).div (num y)).2)) ∧
     gives (.vfma d a b k) (.vfmaVx d a n q k) (fun i x y z => roundTo f c i 0 (((num x).mul (num y)).add c.rm (num z))) ∧
     gives (.vfms d a b k) (.vfmsVx d a n q k) (fun i x y z => roundTo f c i 0 (((num x).mul (num y)).add c.rm (num z).negate)) ∧
     gives (.vfnma d a b k) (.vfnmaVx d a n q k) (fun i x y z => roundTo f c i 0 (((num x).mul (num y)).negate.add c.rm (num z))) ∧
     gives (.vfmin d a b k) (.vfminVx d a n q k) (fun _ x y _ => FOp.min.run f c 0 0 x y) ∧
     gives (.vfmax d a b k) (.vfmaxVx d a n q k) (fun _ x y _ => FOp.max.run f c 0 0 x y) ∧
     one (.vfsqrt d a k) (fun i x => roundTo f c i 0 (num x).sqrt) ∧
     one (.vfrsqe d a k) (fun _ x => rsqe f c x) ∧
     one (.vfabs d a k) (fun _ x => signOp f c.fz x fun _ => false) ∧
     one (.vfneg d a k) (fun _ x => signOp f c.fz x fun neg => !neg)) ∧
  (∀ (s : State) (d a : BitVec 6) (ty : BitVec 4) (k : BitVec 3) (od oa : Operand),
     let t := s.me
     let et := t.et
     let wd := codeNibbles ty.toNat
     s.Plain → t.operand d (Nat.min 8 (t.group * Nat.max 1 (wd / codeNibbles et))) wd true = some od →
     t.operand a t.group (codeNibbles et) false = some oa → s.Within t.start ([s.capOf od, s.capOf oa] ++ s.maskRoom k) →
     let g (i : Nat) : Nat × Exc := convCode et ty.toNat t.ctl i 0 (s.at_ oa i)
     s.NoTrap (s.actives t.start k) g → Completes (.vcvt d a ty k) s fun u => u = s.elementwise (.reg d od) k g id)

/-- 10 R241; 08 R198: compares write a bit per active element into a mask register; the integer conditions are exact, and the floating-point ones signal as fcmp does. -/
def Obligations.VectorCompares : Prop :=
  ∀ (s : State) (d : BitVec 3) (a b : BitVec 6) (n : BitVec 5) (q : BitVec 1) (k : BitVec 3) (v : Word) (oa ob : Operand),
    let t := s.me
    let et := t.et
    let w := codeBits et
    s.Plain → t.operand a t.group (codeNibbles et) false = some oa → t.operand b t.group (codeNibbles et) false = some ob →
    let room := [maskCap (s.lanesOf s.tid).count]
    let does (i : Instr) (g : Nat → Bool × Exc) (fin : State → State) : Prop :=
      let g (i : Nat) : Nat × Exc := (if (g i).1 then 1 else 0, (g i).2)
      s.NoTrap (s.actives t.start k) g → Completes i s fun u => u = s.elementwise (.mask d.toNat) k g fin
    let gives (iv ix : Instr) (c : Nat → Nat → Bool × Exc) : Prop :=
      (s.Within t.start ([s.capOf oa, s.capOf ob] ++ room) → does iv (fun i => c (s.at_ oa i) (s.at_ ob i)) id) ∧
      (s.Within t.start (s.capOf oa :: room) → s.Scalar n q v → does ix (fun i => c (s.at_ oa i) (v.toNat % 2 ^ w)) (dropQ0 q))
    let sgn (x : Nat) : Int := (BitVec.ofNat w x).toInt
    gives (.vcmpEq d a b k) (.vcmpEqVx d a n q k) (fun x y => (x == y, 0)) ∧
    gives (.vcmpNe d a b k) (.vcmpNeVx d a n q k) (fun x y => (x != y, 0)) ∧
    gives (.vcmpLt d a b k) (.vcmpLtVx d a n q k) (fun x y => (decide (sgn x < sgn y), 0)) ∧
    gives (.vcmpLe d a b k) (.vcmpLeVx d a n q k) (fun x y => (decide (sgn x ≤ sgn y), 0)) ∧
    gives (.vcmpLtu d a b k) (.vcmpLtuVx d a n q k) (fun x y => (decide (x < y), 0)) ∧
    gives (.vcmpLeu d a b k) (.vcmpLeuVx d a n q k) (fun x y => (decide (x ≤ y), 0)) ∧
    ∀ f, codeFmt et = some f →
      let num (x : Nat) : Val := f.operand t.ctl.fz x
      let un (x y : Nat) : Bool := (num x).isNan || (num y).isNan
      let quiet (x y : Nat) : Exc := if (num x).isSnan || (num y).isSnan then excNV else 0
      let signal (x y : Nat) : Exc := if un x y then excNV else 0
      let ord (x y : Nat) : Int := (num x).cmp (num y)
      gives (.vfcmpEq d a b k) (.vfcmpEqVx d a n q k) (fun x y => (!un x y && ord x y == 0, quiet x y)) ∧
      gives (.vfcmpNe d a b k) (.vfcmpNeVx d a n q k) (fun x y => (un x y || ord x y != 0, quiet x y)) ∧
      gives (.vfcmpLt d a b k) (.vfcmpLtVx d a n q k) (fun x y => (!un x y && decide (ord x y < 0), signal x y)) ∧
      gives (.vfcmpLe d a b k) (.vfcmpLeVx d a n q k) (fun x y => (!un x y && decide (ord x y ≤ 0), signal x y)) ∧
      gives (.vfcmpUnord d a b k) (.vfcmpUnordVx d a n q k) (fun x y => (un x y, quiet x y)) ∧
      gives (.vfcmpOrd d a b k) (.vfcmpOrdVx d a n q k) (fun x y => (!un x y, quiet x y))

/-- 10 R242: the mask operations, and the two that give a scalar: the number of set bits among the active elements, and the first of them or all ones. -/
def Obligations.MaskOperations : Prop :=
  ∀ (s : State) (d a b k : BitVec 3) (sd : BitVec 5), s.Plain → s.Within s.me.start [maskCap (s.lanesOf s.tid).count] →
    let bit (m : BitVec 3) (i : Nat) : Bool := s.maskBit (s.lanesOf s.tid) m.toNat i
    let does (i : Instr) (g : Nat → Bool) : Prop := Completes i s fun u =>
      u = s.elementwise (.mask d.toNat) k (fun i => (if g i then 1 else 0, 0)) id
    let scalar (i : Instr) (v : Word) : Prop := Completes i s fun u =>
      u = s.vectorLeaves .none false s.me.start s.me.vlen 0 [] id fun u => u.setS sd v
    let l := (s.actives s.me.start k).filter fun i => bit a i
    does (.mand d a b k) (fun i => bit a i && bit b i) ∧ does (.mor d a b k) (fun i => bit a i || bit b i) ∧
    does (.mxor d a b k) (fun i => bit a i != bit b i) ∧ does (.mnot d a k) (fun i => !bit a i) ∧ does (.mset d k) (fun _ => true) ∧
    scalar (.mpopc sd a k) (w64 l.length) ∧ scalar (.mfirst sd a k) (match l with
      | i :: _ => w64 i
      | [] => BitVec.allOnes 64)

/-! ## Whole-strip vector instructions -/

/-- A scalar result goes to its register, or to Q1 when Q is 1, with the Q0 entry removed. -/
def giveScalar (d : BitVec 5) (q : BitVec 1) (v : Word) (s : State) : State :=
  let s := dropQ0 q s
  if q = 1 then s.setMe { s.me with q1 := s.me.q1 ++ [v] } else s.setS d v

/-- A running combination with its exceptions. -/
def chain (step : Nat → Nat → Nat → Nat × Exc) (l : List (Nat × Nat)) (c : Nat) : Nat × Exc :=
  l.foldl (fun a e => ((step e.1 a.1 e.2).1, a.2 ||| (step e.1 a.1 e.2).2)) (c, 0)

/-- 10 R243; 07 R179, R180: a reduction combines the scalar with the active elements in ascending order (the tree sum pairwise) and gives a scalar; nothing else
changes but the flags, ES, the pc and the queues of a Q form. -/
def Obligations.Reductions : Prop :=
  ∀ (s : State) (d : BitVec 5) (a : BitVec 6) (n : BitVec 5) (q : BitVec 1) (k : BitVec 3) (v : Word) (oa : Operand),
    let t := s.me
    let et := t.et
    let w := codeBits et
    s.Plain → t.operand a t.group (codeNibbles et) false = some oa → s.Within t.start (s.capOf oa :: s.maskRoom k) →
    s.Scalar n q v → t.q1.length < 32 →
    let l := (s.actives t.start k).map fun i => (i, s.at_ oa i)
    let carry := v.toNat % 2 ^ w
    let leaves (i : Instr) (r : Word) (e : Exc) : Prop := Completes i s fun u =>
      u = s.vectorLeaves .none false t.start t.vlen e [] id (giveScalar d q r)
    let int (x : Nat) : Int := elemInt et x
    let ints (i : Instr) (f : Nat → Nat → Int) : Prop :=
      leaves i (BitVec.ofInt 64 (int (chain (fun _ r x => ((BitVec.ofInt w (f r x)).toNat, 0)) l carry).1)) 0
    ints (.vredsum d a n q k) (fun r x => int r + int x) ∧
    ints (.vredmax d a n q k) (fun r x => if int r < int x then int x else int r) ∧
    ints (.vredmin d a n q k) (fun r x => if int r < int x then int r else int x) ∧
    ints (.vredand d a n q k) (fun r x => ((r &&& x : Nat) : Int)) ∧
    ints (.vredor d a n q k) (fun r x => ((r ||| x : Nat) : Int)) ∧
    ∀ f, codeFmt et = some f →
      let c := t.ctl
      let num (x : Nat) : Val := f.operand c.fz x
      let floats (i : Instr) (step : Nat → Nat → Nat → Nat × Exc) : Prop :=
        let r := chain step l carry
        t.ten &&& r.2 = 0 → leaves i (w64 (r.1 % 2 ^ w)) r.2
      floats (.vfredsumO d a n q k) (fun i r x => roundTo f c i 0 ((num r).add c.rm (num x))) ∧
      floats (.vfredmax d a n q k) (fun _ r x => FOp.max.run f c 0 0 r x) ∧
      floats (.vfredmin d a n q k) (fun _ r x => FOp.min.run f c 0 0 r x) ∧
      (∀ r e, treeSum t f c carry l.length (l.map fun e => (e.2, e.1)) 0 = (r, e, none) → leaves (.vfredsumT d a n q k) (w64 (r % 2 ^ w)) e)

/-- 10 R244, R245: the permutations read the source as it was before the instruction; a slide's missing elements and a vperm index outside [0, VL) give 0; compress and
expand take the mask as their selection and ignore ES. -/
def Obligations.Permutations : Prop :=
  ∀ (s : State) (d a b : BitVec 6) (n : BitVec 5) (q : BitVec 1) (k m : BitVec 3) (v : Word) (od oa ob : Operand),
    let t := s.me
    let et := t.et
    let nib := codeNibbles et
    s.Plain → t.operand d t.group nib true = some od → t.operand a t.group nib false = some oa → t.operand b t.group nib false = some ob →
    let vl := t.vlen
    let caps (l : List Operand) : List Nat := l.map s.capOf ++ s.maskRoom k
    let mroom := maskCap (s.lanesOf s.tid).count
    let does (i : Instr) (val : Nat → Nat) (fin : State → State) : Prop := Completes i s fun u =>
      u = s.vectorLeaves (.reg d od) false t.start vl 0 (valuesOf ((s.actives t.start k).map fun i => (i, val i))) id fin
    let sel := (List.range vl).filter fun i => s.maskBit (s.lanesOf s.tid) k.toNat i
    let picks (i : Instr) (l : List (Nat × Nat)) (tail : Nat) : Prop := Completes i s fun u =>
      u = s.vectorLeaves (.reg d od) true 0 tail 0 (valuesOf l) id id
    (s.Within t.start (caps [od, oa]) →
      (s.Scalar n q v →
        does (.vslideup d a n q k) (fun i => if v.toNat ≤ i then s.at_ oa (i - v.toNat) else 0) (dropQ0 q) ∧
        does (.vslidedown d a n q k) (fun i => if i + v.toNat < vl then s.at_ oa (i + v.toNat) else 0) (dropQ0 q)) ∧
      does (.vrev d a k) (fun i => s.at_ oa (vl - 1 - i)) id) ∧
    (s.Within t.start (caps [od, oa, ob]) →
      does (.vperm d a b k) (fun i => if s.at_ ob i < vl then s.at_ oa (s.at_ ob i) else 0) id) ∧
    (s.Within t.start [s.capOf od, mroom] →
      does (.viota d m k) (fun i => ((List.range i).filter fun j => s.maskBit (s.lanesOf s.tid) m.toNat j).length % 2 ^ codeBits et) id) ∧
    (k ≠ 0 → s.Within 0 [s.capOf od, s.capOf oa, mroom] →
      picks (.vcompress d a k) (sel.zipIdx.map fun e => (e.2, s.at_ oa e.1)) sel.length ∧
      picks (.vexpand d a k) (sel.zipIdx.map fun e => (e.1, s.at_ oa e.2)) vl)

/-- The order of sort keys (10 R246): signed for the INT types, by code otherwise. -/
def keyOrder (et x : Nat) : Int := if codeSigned et then (BitVec.ofNat (codeBits et) x).toInt else (x : Int)

/-- 10 R246 to R248: vsort leaves the keys in order, equal keys in their old order, with each one's old index; vdedup keeps one key of each run with the sum of its values
and counts the runs; the scans and vrecur leave every partial result, the last one going to Q1 under Q. -/
def Obligations.SortsAndScans : Prop :=
  ∀ (s : State) (d a : BitVec 6) (sd n : BitVec 5) (q : BitVec 1) (k : BitVec 3) (v : Word) (od oa : Operand),
    let t := s.me
    let et := t.et
    let w := codeBits et
    let nib := codeNibbles et
    s.Plain → t.operand d t.group nib true = some od →
    let vl := t.vlen
    let all := List.range vl
    (t.operand a t.group nib true = some oa → s.Within 0 [s.capOf od, s.capOf oa] →
      (vl ≤ 2 ^ w → Completes (.vsort d a) s fun u => ∃ l : List (Nat × Nat),
        l.Perm (all.map fun i => (i, s.at_ od i)) ∧
        l.Pairwise (fun x y => keyOrder et x.2 < keyOrder et y.2 ∨ (keyOrder et x.2 = keyOrder et y.2 ∧ x.1 < y.1)) ∧
        u = s.vectorLeaves (.reg d od) true 0 vl 0 (valuesOf (l.zipIdx.map fun e => (e.2, e.1.2)))
          (fun u => u.writeSecond oa (l.zipIdx.map fun e => (e.2, e.1.1)) vl) id) ∧
      (∀ runs e, dedupRuns t t.ctl et (all.map fun i => (i, s.at_ od i, s.at_ oa i)) [] 0 = (runs, e, none) →
        Completes (.vdedup d a sd) s fun u =>
          u = s.vectorLeaves (.reg d od) true 0 runs.length e (valuesOf (runs.zipIdx.map fun r => (r.2, r.1.1)))
            (fun u => u.writeSecond oa (runs.zipIdx.map fun r => (r.2, r.1.2)) runs.length) fun u => u.setS sd (w64 runs.length))) ∧
    (t.operand a t.group nib false = some oa → s.Within t.start ([s.capOf od, s.capOf oa] ++ s.maskRoom k) → s.Scalar n q v → t.q1.length < 32 →
      let l := (s.actives t.start k).map fun i => (i, s.at_ oa i)
      let carry := v.toNat % 2 ^ w
      let leaves (i : Instr) (step : Nat → Nat → Nat → Nat × Exc) (out : Nat → Word) : Prop :=
        t.ten &&& (chain step l carry).2 = 0 → Completes i s fun u =>
          u = s.vectorLeaves (.reg d od) false t.start vl (chain step l carry).2
            (valuesOf (l.zipIdx.map fun e => (e.1.1, (chain step (l.take (e.2 + 1)) carry).1))) id
            fun u => if q = 1 then giveScalar 0 q (out (chain step l carry).1) u else u
      let int (x : Nat) : Int := elemInt et x
      let ints (i : Instr) (f : Nat → Nat → Int) : Prop := leaves i (fun _ r x => ((BitVec.ofInt w (f r x)).toNat, 0)) fun r => BitVec.ofInt 64 (int r)
      ints (.vscanAdd d a n q k) (fun r x => int r + int x) ∧
      ints (.vscanMax d a n q k) (fun r x => if int r < int x then int x else int r) ∧
      ints (.vscanMin d a n q k) (fun r x => if int r < int x then int r else int x) ∧
      (codeFmt et = none → leaves (.vrecur d a n q k) (fun i r x => ((x * r + s.at_ od i) % 2 ^ w, 0)) fun r => BitVec.ofInt 64 (int r)) ∧
      ∀ f, codeFmt et = some f →
        let c := t.ctl
        let num (x : Nat) : Val := f.operand c.fz x
        leaves (.vscanFadd d a n q k) (fun i r x => roundTo f c i 0 ((num r).add c.rm (num x))) (fun r => w64 (r % 2 ^ w)) ∧
        leaves (.vrecur d a n q k) (fun i r x => roundTo f c i 0 (((num x).mul (num r)).add c.rm (num (s.at_ od i)))) fun r => w64 (r % 2 ^ w))

/-- 10 R248, R249: moves. vmv and vbcast are element-wise; vmerge takes each element of [ES, VL) from one source or the other by the mask; vext and vins reach one element,
whatever VL and ES are: an index outside the register reads 0 and writes nothing; ES is cleared (06 R160). -/
def Obligations.VectorMoves : Prop :=
  ∀ (s : State) (d a b : BitVec 6) (sd im n : BitVec 5) (q : BitVec 1) (k : BitVec 3) (v : Word) (od oa ob : Operand),
    let t := s.me
    let et := t.et
    let w := codeBits et
    let nib := codeNibbles et
    let x := s.lanesOf s.tid
    t.operand d t.group nib true = some od → t.operand a t.group nib false = some oa → t.operand b t.group nib false = some ob →
    let caps (l : List Operand) : List Nat := l.map s.capOf ++ s.maskRoom k
    (s.Plain →
      (s.Within t.start (caps [od, oa]) → Completes (.vmv d a k) s fun u => u = s.elementwise (.reg d od) k (fun i => (s.at_ oa i, 0)) id) ∧
      (s.Within t.start (caps [od]) → s.Scalar n q v → Completes (.vbcast d n q k) s fun u =>
        u = s.elementwise (.reg d od) k (fun _ => (v.toNat % 2 ^ w, 0)) (dropQ0 q)) ∧
      (s.Within t.start [s.capOf od, s.capOf oa, s.capOf ob, maskCap x.count] → Completes (.vmerge d a b k) s fun u =>
        u = s.vectorLeaves (.reg d od) true t.start t.vlen 0 (valuesOf (((List.range (t.vlen - t.start)).map (t.start + ·)).map fun i =>
          (i, if s.maskBit x k.toNat i then s.at_ oa i else s.at_ ob i))) id id)) ∧
    (t.replaying = false → s.regBad = [] → t.cut = 0 → (∀ j : Nat, (t.binds[j]?).getD none = none) → s.Scalar n q v →
      let next (u : State) : State := u.setMe { u.me with es := 0, lastFault := none, pc := u.me.pc + 4 }
      (t.q1.length < 32 → Completes (.vext sd a n q) s fun u =>
        u = next (giveScalar sd q (if v.toNat < s.capOf oa then
          (if codeSigned et then BitVec.ofInt 64 (elemInt et (s.at_ oa v.toNat)) else w64 (s.at_ oa v.toNat % 2 ^ w)) else 0) s)) ∧
      Completes (.vins d im n q) s fun u =>
        u = next (dropQ0 q (if (s.sr im).toNat < s.capOf od then s.setElem x od (s.sr im).toNat (v.toNat % 2 ^ w) else s)))

/-! ## Vector memory -/

/-- 11 R251, R254, R255, R257: a vector load moves w bytes from each active element's address to the destination, at sn + i × w, sn + i × sx, or sn + zext(vx[i]) × w; a 4-bit
element is the nibble of its index in byte i div 2, at unit stride alone. wgather serves the elements whose index is below VL, leaves the others as inactive ones and
marks them in m0. -/
def Obligations.VectorLoads : Prop :=
  ∀ (s u : State) (d ix : BitVec 6) (n st : BitVec 5) (c : BitVec 1) (k : BitVec 3) (od oi : Operand) (at_ : Nat → Phys),
    let t := s.me
    let et := t.et
    let w := codeBytes et
    let nib := codeNibbles et
    let vl := t.vlen
    let x := s.lanesOf s.tid
    s.Plain → u.Quiet → t.operand d t.group nib true = some od →
    let act := s.activesOf t.start c k
    let caps (l : List Operand) : List Nat := l.map s.capOf ++ s.maskRoom k
    let got (i : Nat) : Nat :=
      let v := leNat (u.bytes (at_ i).pa w)
      if et = 7 then (if i % 2 = 0 then v % 16 else v / 16 % 16) else v
    let loads (i : Instr) (addr : Nat → Word) : Prop := s.Places (fun i => some (addr i)) w .load act at_ u → Completes i s fun v =>
      v = u.vectorLeaves (.reg d od) false t.start vl 0 (valuesOf (act.map fun i => (i, got i))) id id
    (s.Within t.start (caps [od]) →
      loads (.vld d n c k) (fun i => s.sr n + w64 (if et = 7 then i / 2 else i * w)) ∧
      (et ≠ 7 → loads (.vlds d n st c k) fun i => s.sr n + w64 i * s.sr st)) ∧
    (et ≠ 7 → t.operand ix t.group nib false = some oi → s.Within t.start (caps [od, oi]) →
      loads (.vldx d n ix c k) (fun i => s.sr n + w64 (s.at_ oi i * w)) ∧
      (s.Within t.start [maskCap x.count] →
        s.Places (fun i => if s.at_ oi i < vl then some (s.sr n + w64 (s.at_ oi i * w)) else none) w .load act at_ u →
        Completes (.wgather d n ix c k) s fun v =>
          let left (i : Nat) : Nat := if i ∈ act ∧ vl ≤ s.at_ oi i then 1 else 0
          v = u.vectorLeaves (.reg d od) false t.start vl 0
            (act.map fun i => ⟨i, if s.at_ oi i < vl then some (got i) else none, 0, [], []⟩)
            (fun z => z.writeDst x (.mask 0) true t.start vl (valuesOf (((List.range (vl - t.start)).map (t.start + ·)).map fun i => (i, left i))))
            fun z => z.writeTail x (.mask 0) vl)) ∧
    (et = 7 → ¬ s.InHandler → ∀ i ∈ [Instr.vlds d n st c k, .vldx d n ix c k, .wgather d n ix c k], ∃ w, encode i = some w ∧
      Completes i s fun v => s.TrapsTo v 12 3 (w64 (3 * 2 ^ 32 + w.toNat)) t.pc)

/-- 04 R126 to R128; 11 R251 to R256: a vector store commits one write for each distinct location, in element order: the highest element's (vst, vsts, vstx.o), that of any
one element (vstx.u), or for vsadd an add of the sum of the location's elements, in ascending order, through the lowest of them. A 4-bit element's write changes its own nibble alone (03 R99). -/
def Obligations.VectorStores : Prop :=
  ∀ (s u : State) (d ix : BitVec 6) (n st : BitVec 5) (c : BitVec 1) (k : BitVec 3) (od oi : Operand) (at_ : Nat → Phys),
    let t := s.me
    let et := t.et
    let w := codeBytes et
    let nib := codeNibbles et
    s.Plain → u.Quiet → t.operand d t.group nib false = some od →
    let act := s.activesOf t.start c k
    let caps (l : List Operand) : List Nat := l.map s.capOf ++ s.maskRoom k
    let pa (i : Nat) : Nat := (at_ i).pa
    let write (i : Nat) : Nat × PendOp := (pa i, .store (leBytes w (s.at_ od i)))
    let places (addr : Nat → Word) (use : Use) : Prop := s.Places (fun i => some (addr i)) w use act at_ u
    let stores (i : Instr) (addr : Nat → Word) : Prop := places addr .store → Completes i s fun v =>
      u.Commits v 0 ((act.filter fun i => act.all fun j => decide (j ≤ i) || pa j != pa i).map write)
    let indexed (i : Nat) : Word := s.sr n + w64 (s.at_ oi i * w)
    (et ≠ 7 →
      (s.Within t.start (caps [od]) →
        stores (.vst d n c k) (fun i => s.sr n + w64 (i * w)) ∧ stores (.vsts d n st c k) (fun i => s.sr n + w64 i * s.sr st)) ∧
      (t.operand ix t.group nib false = some oi → s.Within t.start (caps [od, oi]) →
        stores (.vstxO d n ix c k) indexed ∧
        (places indexed .store → Completes (.vstxU d n ix c k) s fun v => ∃ stands : List Nat,
          stands.Sublist act ∧ stands.Pairwise (fun i j => pa i ≠ pa j) ∧ (∀ i ∈ act, ∃ j ∈ stands, pa j = pa i) ∧
          { u with freeCtr := u.freeCtr + act.length }.Commits v 0 (stands.map write)) ∧
        (et < 4 ∨ 10 ≤ et → places indexed .scatterAdd →
          let same (i : Nat) : List Nat := act.filter fun j => pa j == pa i
          let sum (i : Nat) : Nat × Exc := chain (fun j r x => addCode et t.ctl j 0 r x) ((same i).tail.map fun j => (j, s.at_ od j)) (s.at_ od i)
          let first := act.filter fun i => (same i).head? == some i
          (∀ i ∈ first, t.ten &&& (sum i).2 = 0) → Completes (.vsadd d n ix c k) s fun v =>
            u.Commits v (first.foldl (fun e i => e ||| (sum i).2) 0)
              (first.map fun i => (pa i, .add (BitVec.ofNat 4 et) t.fcs i (w64 (sum i).1)))))) ∧
    (et = 7 → s.Within t.start (caps [od]) → places (fun i => s.sr n + w64 (i / 2)) .rewrite → Completes (.vst d n c k) s fun v =>
      u.Commits v 0 (act.map fun i => (pa i, .nib (i % 2 == 1) (BitVec.ofNat 4 (s.at_ od i)))))

/-- 02 R53, R56 to R58; 06 R161; 07 R172; 09 R222; 14 R300, R301: what a cause leaves. A scalar access that fails its checks traps or suspends the thread, and a load of a lost word traps.
A strip longer than the smallest capacity ends there, in either mode, and traps where nothing fits. An element whose exception is enabled, or whose access fails, ends the strip: on the leading
element nothing is committed, and the thread traps or is suspended; above it, in trim mode VL becomes its index and the instruction completes over the elements below, and in resume mode
those are written, ES becomes its index, and the thread traps or is suspended there. -/
def Obligations.TrimsAndFailures : Prop :=
  (∀ (s u : State) (d n : BitVec 5) (im : BitVec 13) (f : TFail) (p : Phys),
     let va := s.sr n + BitVec.ofInt 64 im.toInt
     let y := u.dropRequests u.tid
     let fails (i : Instr) (k : Nat) (use : Use) (acc : Nat) : Prop :=
       s.translate (s.who s.tid) va.toNat k use = (.fail f, u) → s.FailsAt y i f acc va
     let lost (i : Instr) (k : Nat) : Prop :=
       s.translate (s.who s.tid) va.toNat k .load = (.ok p, u) → p.isOutbound = false → p.pa % 64 + k ≤ 64 → u.pend = [] → (∀ a, u.boardAt a = []) →
         u.lostIn p.pa k = true → ¬ y.InHandler → Completes i s fun z => y.TrapsTo z 8 0 va y.me.pc
     let loads (i : Instr) (k : Nat) : Prop := fails i k .load 0 ∧ lost i k
     loads (.ldB d n im) 1 ∧ loads (.ldBu d n im) 1 ∧ loads (.ldH d n im) 2 ∧ loads (.ldHu d n im) 2 ∧ loads (.ldW d n im) 4 ∧
     loads (.ldWu d n im) 4 ∧ loads (.ldD d n im) 8 ∧
     fails (.stB d n im) 1 .store 1 ∧ fails (.stH d n im) 2 .store 1 ∧ fails (.stW d n im) 4 .store 1 ∧ fails (.stD d n im) 8 .store 1) ∧
  (∀ (s : State) (d a b : BitVec 6) (k : BitVec 3) (od oa ob : Operand) (f : Fmt) (j : Nat),
     let t := s.me
     let nib := codeNibbles t.et
     let c := t.ctl
     let caps := [od, oa, ob].map s.capOf ++ s.maskRoom k
     let x (i : Nat) : Val := f.operand c.fz (s.at_ oa i)
     let y (i : Nat) : Val := f.operand c.fz (s.at_ ob i)
     s.Plain → codeFmt t.et = some f → ¬ s.InHandler →
     t.operand d t.group nib true = some od → t.operand a t.group nib false = some oa → t.operand b t.group nib false = some ob →
     let act := s.actives t.start k
     let below := act.filter fun i => decide (i < j)
     let meets (i : Instr) (g : Nat → Nat × Exc) : Prop :=
       -- capacity
       (j ∈ caps → (∀ m ∈ caps, j ≤ m) →
         (j ≤ t.start → Completes i s fun z => s.TrapsTo z 5 0 0 t.pc) ∧
         (t.start < j → j < t.vlen →
           let v := s.setMe { t with vl := w64 j, trc := 5, tra := 0 }
           s.NoTrap (v.actives t.start k) g → Completes i s fun z => z = v.elementwise (.reg d od) k g id)) ∧
       -- arithmetic
       (s.Within t.start caps → j ∈ act → t.ten &&& (g j).2 ≠ 0 → s.NoTrap below g →
         let value := w64 (g j).2.toNat
         (below = [] → Completes i s fun z => (s.dropRequests s.tid).TrapsTo z 4 0 value t.pc) ∧
         (below ≠ [] → t.resume = false → Completes i s fun z =>
           z = (s.setMe { t with vl := w64 j, trc := 4, tra := 0 }).elementwise (.reg d od) k g id) ∧
         (below ≠ [] → t.resume = true → Completes i s fun z =>
           let els := elemsOf below g
           let v := (s.setMe (t.addFlags (orExc els))).writeDst (s.lanesOf s.tid) (.reg d od) false t.start j els
           let v := v.setMe { v.me with es := w64 j, trc := 4, tra := 0, lastFault := none }
           (v.dropRequests v.tid).TrapsTo z 4 0 value t.pc))
     meets (.vfadd d a b k) (fun i => roundTo f c i 0 ((x i).add c.rm (y i))) ∧
     meets (.vfsub d a b k) (fun i => roundTo f c i 0 ((x i).add c.rm (y i).negate)) ∧
     meets (.vfmul d a b k) (fun i => roundTo f c i 0 ((x i).mul (y i)))) ∧
  (∀ (s u : State) (d : BitVec 6) (n : BitVec 5) (c : BitVec 1) (k : BitVec 3) (od : Operand) (at_ : Nat → Phys) (j : Nat) (f : TFail),
     let t := s.me
     let w := codeBytes t.et
     let addr (i : Nat) : Word := s.sr n + w64 (i * w)
     let act := s.activesOf t.start c k
     let below := act.filter fun i => decide (i < j)
     let els := valuesOf (below.map fun i => (i, leNat (u.bytes (at_ i).pa w)))
     s.Plain → u.Quiet → t.et ≠ 7 → t.operand d t.group (codeNibbles t.et) true = some od → s.Within t.start (s.capOf od :: s.maskRoom k) →
     translateElems (s.who s.tid) (accessOf (fun i => some (addr i)) w .load) act s [] [] =
       (⟨below.map fun i => (i, placedOf (fun i => some (addr i)) w .load at_ i), some (j, Fail.ofT f (addr j) .load), false⟩, u) →
     (∀ i ∈ below, (at_ i).isOutbound = false ∧ (at_ i).hs = false ∧ (at_ i).pa % 64 + w ≤ 64) → f.cause = 1 ∨ f.cause = 2 ∨ f.cause = 3 →
     (below = [] → s.FailsAt (u.dropRequests u.tid) (.vld d n c k) f 0 (addr j)) ∧
     (below ≠ [] → t.resume = false → Completes (.vld d n c k) s fun z =>
       z = (u.setMe { u.me with vl := w64 j, trc := w64 f.cause, tra := addr j }).vectorLeaves (.reg d od) false t.start j 0 els id id) ∧
     (below ≠ [] → t.resume = true →
       let v := u.writeDst (s.lanesOf s.tid) (.reg d od) false t.start j els
       let v := v.setMe { v.me with es := w64 j, trc := w64 f.cause, tra := addr j, lastFault := none }
       s.FailsAt (v.dropRequests v.tid) (.vld d n c k) f 0 (addr j)))

/-- 11 R258 to R260: a tile transfer of T rows and TK or TN columns moves element e to or from sn + (e div C) × sx + (e mod C) × w over T × C elements, whatever VL holds
beyond them; one that completes sets TAL to T rows and 0 columns. -/
def Obligations.TileTransfers : Prop :=
  ∀ (s u : State) (d : BitVec 6) (n st : BitVec 5) (b c : BitVec 1) (k : BitVec 3) (od : Operand) (at_ : Nat → Phys),
    let t := s.me
    let et := t.et
    let w := codeBytes et
    let rows := t.tm.toNat
    let cols := (if b = 1 then t.tn else t.tk).toNat
    let addr (e : Nat) : Word := s.sr n + w64 (e / cols) * s.sr st + w64 (e % cols * w)
    let whole := s.setMe { t with vl := w64 (rows * cols) }
    s.Plain → et ≠ 7 → t.start < rows * cols → rows * cols ≤ t.vlen → u.Quiet →
    whole.Within t.start (s.capOf od :: s.maskRoom k) →
    let act := whole.activesOf t.start c k
    let ended (z : State) : State := z.setMe { z.me with vl := t.vl, tal := w64 (rows % 128) }
    (t.operand d t.group (codeNibbles et) true = some od → whole.Places (fun e => some (addr e)) w .load act at_ u →
      Completes (.tload d n b st c k) s fun v => v = ended (u.vectorLeaves (.reg d od) false t.start (rows * cols) 0
        (valuesOf (act.map fun e => (e, leNat (u.bytes (at_ e).pa w)))) id id)) ∧
    (t.operand d t.group (codeNibbles et) false = some od → whole.Places (fun e => some (addr e)) w .store act at_ u →
      Completes (.tstore d n b st c k) s fun v => (ended u).Commits v 0
        ((act.filter fun i => act.all fun j => decide (j ≤ i) || (at_ j).pa != (at_ i).pa).map fun i =>
          ((at_ i).pa, .store (leBytes w (s.at_ od i)))))

/-- 03 R97; 11 R261, R262: vbind reads a 64-byte record and, where it passes the checks, binds it in a free slot; vunbind writes POS back to the record and frees the slot;
vbpos gives the position, or all ones. That they keep ES is log entry 87, and the free slot log entry 20. -/
def Obligations.Streams : Prop :=
  ∀ (s u : State) (d : BitVec 6) (n : BitVec 5) (p : Phys) (j : Nat) (b : Bind), s.me.replaying = false → ¬ s.InHandler →
    let absent : Prop := s.me.nregs ≤ d.toNat ∧ d.toNat < 56
    let va := s.sr n
    let r := u.bytes p.pa 64
    let illegal (i : Instr) (sub : Nat) : Prop := ∃ w, encode i = some w ∧
      Completes i s fun t => s.TrapsTo t 12 sub (w64 (sub * 2 ^ 32 + w.toNat)) s.me.pc
    (d.toNat < s.me.nregs → s.me.boundSlot d = none → s.Reaches va 64 .load p u → u.Quiet → bindBad r = false →
      (∃ j < 8, (s.me.binds[j]?).getD none = none) → Completes (.vbind d n) s fun t => ∃ j < 8, (s.me.binds[j]?).getD none = none ∧
        t = { u with freeCtr := u.freeCtr + 1 }.setMe { u.me with
          binds := u.me.binds.setIfInBounds j (some (Bind.ofRecord r va d)), lastFault := none, pc := u.me.pc + 4 }) ∧
    (s.me.boundSlot d = some j → (s.me.binds[j]?).getD none = some b →
      (s.Reaches (b.recAddr + 0x18) 8 .store p u → Completes (.vunbind d) s fun t =>
        (u.setMe { u.me with binds := u.me.binds.setIfInBounds j none }).Stores t p.pa (leBytes 8 b.pos.toNat) false) ∧
      Completes (.vbpos d n) s fun t => s.WritesScalar t n b.pos) ∧
    (¬ absent → s.me.boundSlot d = none → Completes (.vunbind d) s (fun t => s.GoesTo t (s.me.pc + 4)) ∧
      Completes (.vbpos d n) s fun t => s.WritesScalar t n (BitVec.allOnes 64)) ∧
    (absent → illegal (.vbind d n) 4 ∧ illegal (.vunbind d) 4 ∧ illegal (.vbpos d n) 4)

/-- 11 R263, R264: cappend advances the record's TAIL by the number of active elements, writes each at the next entry of the ring, and gives the new TAIL to Q1 when it
passed a multiple of VLMAX; a record without room traps with cause capacity. -/
def Obligations.CompressAppend : Prop :=
  ∀ (s u v z : State) (d : BitVec 6) (n : BitVec 5) (c : BitVec 1) (k : BitVec 3) (od : Operand) (p : Phys),
    let t := s.me
    let w := codeBytes t.et
    let x := s.lanesOf s.tid
    let act := s.activesOf t.start c k
    s.Plain → t.et ≠ 7 → t.operand d t.group (codeNibbles t.et) false = some od → s.Within t.start (s.capOf od :: s.maskRoom k) → act ≠ [] →
    t.q1.length < 32 → s.Reaches (s.sr n) 32 .cas p u → u.Quiet → (u.region p.pa).isLocal = true →
    let base := u.word p.pa
    let cap := leNat (u.bytes (p.pa + 8) 4)
    let head := leNat (u.bytes (p.pa + 0x10) 8)
    let tail := leNat (u.bytes (p.pa + 0x18) 8)
    leNat (u.bytes (p.pa + 12) 4) = 0 → 0 < cap → cap ≤ 2 ^ 31 → base.toNat % w = 0 →
    u.ringPages (s.who s.tid) base (List.range ((base.toNat % 4096 + cap * w + 4095) / 4096)) = (.ok (), v) → v.Quiet →
    v.word (p.pa + 0x10) = u.word (p.pa + 0x10) → v.word (p.pa + 0x18) = u.word (p.pa + 0x18) →
    let m := act.length
    let new := tail + m
    let written := (v.putWord (p.pa + 0x18) (w64 new)).appendEntries x od ⟨p.pa, base, cap⟩ w tail (valuesOf (act.map fun i => (i, s.at_ od i)))
    (head ≤ tail → new - head ≤ cap → new < 2 ^ 64 → written.drain (fun q => decide (v.wseq ≤ q.seq)) = some z → Completes (.cappend d n c k) s fun a =>
      a = z.setMe { z.me with
        q1 := if tail / t.vlmax x.count < new / t.vlmax x.count then z.me.q1 ++ [w64 new] else z.me.q1
        es := 0, lastFault := none, pc := z.me.pc + 4 }) ∧
    ((tail + 2 ^ 64 - head) % 2 ^ 64 = cap → ¬ s.InHandler → Completes (.cappend d n c k) s fun a =>
      ∃ y : State, y.me = t ∧ (∀ b, y.byte b = v.byte b) ∧ y.TrapsTo a 5 0 0 t.pc)

/-! ## Tiles -/

/-- A whole-strip or tile instruction that completes: ES = 0 and the next word. -/
def ended (u : State) : State := u.setMe { u.me with es := 0, lastFault := none, pc := u.me.pc + 4 }

/-- 06 R162; 12 R266: tmode enters tile mode with the unit free and leave held, taking the unit and zeroing y0 and y1; leaves it, clearing the shape and releasing unit and
leave; and with D zeroes a0 to a7 and invalidates the weight buffer. It waits for the unit, and asks once for leave, a request that cannot be granted at once counting as
one that waited (18 R389). No byte of memory changes. -/
def Obligations.TileMode : Prop :=
  ∀ (s : State) (d : BitVec 1), s.me.replaying = false →
    let pp := s.physPair s.myL
    let next (t : State) (x : Thread) : Prop := t.me = { x with lastFault := none, pc := s.me.pc + 4 } ∧ t.mem = s.mem ∧
      (d = 1 → t.myPair.wb = Vector.replicate 16 0 ∧ ∀ o < 8 * 40960, cellGet t.regs (regKey pp (accOff 0) + o) = 0) ∧
      (d = 0 → t.myPair.wb = s.myPair.wb ∧ ∀ o < 8 * 40960, cellGet t.regs (regKey pp (accOff 0) + o) = cellGet s.regs (regKey pp (accOff 0) + o))
    (∀ m : BitVec 1, s.me.tile = (m == 1) → Completes (.tmode d m) s fun t => next t s.me) ∧
    (s.me.tile = true → Completes (.tmode d 0) s fun t =>
      next t { s.me with tcr := s.me.tcr &&& ~~~2, tm := 0, tn := 0, tk := 0, leave := false, leaveAsked := false } ∧
      t.myPair.tmu = if s.myPair.tmu = some s.tid then none else s.myPair.tmu) ∧
    (s.me.tile = false →
      (s.myPair.tmu = none → s.me.leave = true → (∀ pl ∈ (s.lanesOf s.tid).phys, pl < 68) → Completes (.tmode d 1) s fun t =>
        next t { s.me with tcr := s.me.tcr ||| 2 } ∧ t.myPair.tmu = some s.tid ∧
        ∀ pl ∈ (s.lanesOf s.tid).phys, ∀ o < 512, cellGet t.regs (regKey pp (nearOff pl + 0x600) + o) = 0) ∧
      (s.myPair.tmu ≠ none → Completes (.tmode d 1) s fun t => t = s) ∧
      (s.myPair.tmu = none → s.me.leave = false → s.me.leaveAsked = true → Completes (.tmode d 1) s fun t => t = s) ∧
      (s.myPair.tmu = none → s.me.leave = false → s.me.leaveAsked = false → Completes (.tmode d 1) s fun t =>
        let die := s.die (s.myL / 32)
        let now := die.waiting.isEmpty && (die.used == 0 || decide (die.used + 18 ≤ s.budget (s.myL / 32)))
        t.me = { s.me with leaveAsked := true } ∧ (t.die (s.myL / 32)).waiting = die.waiting ++ [⟨s.tid, true, 0, 0, 18, !now⟩] ∧
        t.myPair.paw = if now then s.myPair.paw else w64 (Nat.min (s.myPair.paw.toNat + 1) (2 ^ 64 - 1))))

/-- 12 R269 to R273, R277, R278, R288: tshape grants a shape; wbload and wbinv set a weight slot; tzero and tscale write a whole accumulator; vtrans transposes the 8 × 8
blocks of eight registers, every element read before any is written (03 R87). That tshape keeps ES is log entry 87. -/
def Obligations.TileStorage : Prop :=
  ∀ (s u : State) (d : BitVec 3) (w : BitVec 4) (n m k : BitVec 5) (v : BitVec 6) (at_ : Nat → Phys) (os : List Operand),
    let t := s.me
    let et := t.et
    let pp := s.physPair s.myL
    let c := t.ctl
    t.replaying = false → s.regBad = [] → t.cut = 0 →
    let p := passDepth et t.slc
    let next (u : State) : State := u.setMe { u.me with lastFault := none, pc := u.me.pc + 4 }
    Completes (.tshape k n m) s (fun z => z = next (s.setMe { t with
      tm := w64 (Nat.min (s.sr n).toNat 64), tn := w64 (Nat.min (s.sr m).toNat (if et = 0 ∧ 3 ≤ t.slc then 64 else 128))
      tk := w64 (Nat.min (s.sr k).toNat 128 / p * p) })) ∧
    Completes (.wbinv w) s (fun z => z = next (s.setPair s.myL { s.myPair with wb := s.myPair.wb.set w.toNat 0 })) ∧
    (let desc := s.sr m
     let va := s.sr n
     let count := (wdBytes desc + 63) / 64
     wdBad desc = false → va.toNat % 64 = 0 → s.Places (fun i => some (va + w64 (64 * i))) 64 .load (List.range count) at_ u → u.Quiet →
     Completes (.wbload w n m) s fun z => z = next
      ((u.putReg (regKey pp (weightOff w.toNat)) (((List.range count).flatMap fun i => u.bytes (at_ i).pa 64).take (wdBytes desc))).setPair s.myL
        { s.myPair with wb := s.myPair.wb.set w.toNat (desc ||| 0x8000000000000000) })) ∧
    Completes (.tzero d) s (fun z => z = ended { s with regs := cellsZero s.regs (regKey pp (accOff d.toNat)) 40960 }) ∧
    (let cells := (List.range 64).flatMap fun i => (List.range (if et = 0 then 64 else 128)).map fun j => (i, j)
     let f := accFmt et
     let factor := if et = 0 then fmt64.operand c.fz (s.sr n).toNat else fmt32.operand c.fz ((s.sr n).toNat % 2 ^ 32)
     let g (e : Nat × Nat) : Nat × Exc := roundTo f c.nearest 0 0 ((f.operand c.fz (s.accGet pp d.toNat et e.1 e.2)).mul factor)
     (∀ e ∈ cells, t.ten &&& (g e).2 = 0) → Completes (.tscale d n) s fun z =>
       let y := cells.foldl (fun (y : State) e => y.accPut pp d.toNat et e.1 e.2 (g e).1) s
       z = ended (y.setMe (y.me.addFlags (cells.foldl (fun x e => x ||| (g e).2) 0)))) ∧
    (t.eight v = some os → t.vlen ≠ 0 → (∀ o ∈ os, t.vlen ≤ s.capOf o) → (∀ j : Nat, (t.binds[j]?).getD none = none) → Completes (.vtrans v) s fun z =>
      z = ended ((List.range ((t.vlen + 7) / 8)).foldl (fun (y : State) b => y.transBlock s (s.lanesOf s.tid) os b (transSide t.vlen b)) s))

/-- 12 R279 to R287; 07 R181, R175: tmma adds its chunk sums, each exact and rounded once, into the accumulator in the order of its form; the moves convert each element with one
rounding, out of an accumulator to the element type and into it to FP40; tcvt writes the codes and scale bytes of blocks of 32. No other register changes but flags, ES,
the tail under TP and the pc. -/
def Obligations.TileArithmetic : Prop :=
  ∀ (s : State) (d : BitVec 3) (v : BitVec 6) (w : BitVec 4) (n : BitVec 5) (od : Operand),
    let t := s.me
    let et := t.et
    let x := s.lanesOf s.tid
    let pp := x.pp
    let c := t.ctl
    let f := accFmt et
    let tm := t.tm.toNat
    let tn := t.tn.toNat
    let tk := t.tk.toNat
    let a := d.toNat
    let o := s.sr n
    t.replaying = false → s.regBad = [] → t.cut = 0 → (∀ j : Nat, (t.binds[j]?).getD none = none) →
    let acc (i j : Nat) : Nat := s.accGet pp a et i j
    let flags (l : List (Nat × Exc)) (u : State) : State := u.setMe (u.me.addFlags (l.foldl (fun e r => e ||| r.2) 0))
    let desc := s.myPair.wb[w.toNat]'w.isLt
    let p := passDepth et t.slc
    let k0 := bits o 10 0
    let row0 := bits o 21 16
    let mma (i : Instr) (halves : Bool) (osc : Option Operand) : Prop :=
      let m : Mma := ⟨a, od, osc, regKey (s.physPair s.myL) (weightOff w.toNat), desc, k0, row0, halves⟩
      let chunk (i j q : Nat) : Nat × Exc :=
        let as := (List.range p).map fun k => (s.mmaA x m et tk c i (q * p + k)).1
        let bs := (List.range p).map fun k => (s.weight m.key desc et c (k0 + (q * p + k)) j).1
        roundTo f c.nearest 0 0 (if et = 0 then splitSum t.slc as bs else exactSum as bs)
      let cell (e : Nat × Nat) : Nat × Exc := accChunks f c halves (acc (row0 + e.1) e.2) ((List.range (tk / p)).map fun q => chunk e.1 e.2 q)
      let cells := (List.range tm).flatMap fun i => (List.range tn).map fun j => (i, j)
      (∀ e ∈ cells, t.ten &&& (cell e).2 = 0) → Completes i s fun z =>
        let u := s.setMe (t.addFlags (s.weightExc t m ||| cells.foldl (fun e r => e ||| (cell r).2) 0))
        z = ended (cells.foldl (fun (u : State) e => u.accPut pp a et (row0 + e.1) e.2 (cell e).1) u)
    (o &&& ~~~0x3F07FF = 0 → wdFmt desc ∈ slotFmts et t.slc → wdValid desc = true → tk % p = 0 → k0 % p = 0 → k0 + tk ≤ wdK desc → tn ≤ wdN desc →
      row0 + tm ≤ 64 → (et = 0 → tn ≤ 64) → tm ≠ 0 → tn ≠ 0 → tk ≠ 0 → t.operand v t.group (codeNibbles et) false = some od → tm * tk ≤ s.capOf od →
      (et ≠ 7 → mma (.tmmaO d v w n) false none ∧ mma (.tmmaF d v w n) true none) ∧
      (et = 7 → ∀ osc, t.scaleReg v = some osc → tm * (tk / 32) ≤ s.capOf osc →
        mma (.tmmaO d v w n) false (some osc) ∧ mma (.tmmaF d v w n) true (some osc))) ∧
    (let out (i : Instr) (len : Nat) (place : Nat → Nat × Nat) : Prop :=
       let g (e : Nat) : Nat × Exc := accToElem et c e (acc (place e).1 (place e).2)
       len ≠ 0 → len ≤ s.capOf od → s.NoTrap (List.range len) g → Completes i s fun z => z = ended
         (((List.range len).foldl (fun (u : State) e => u.setElem x od e (g e).1) (flags ((List.range len).map g) s)).writeTail x (.reg v od) len)
     let into (i : Instr) (len : Nat) (place : Nat → Nat × Nat) : Prop :=
       let g (e : Nat) : Nat × Exc := elemToAcc et c (s.elem x od e)
       len ≠ 0 → len ≤ s.capOf od → s.NoTrap (List.range len) g → Completes i s fun z => z = ended
         ((List.range len).foldl (fun (u : State) e => u.accPut pp a et (place e).1 (place e).2 (g e).1) (flags ((List.range len).map g) s))
     let block (e : Nat) : Nat × Nat := (o.toNat + e / tn, e % tn)
     (et ≠ 7 → o.toNat < 64 → o.toNat + tm ≤ 64 → (et = 0 → tn ≤ 64) →
       (t.operand v t.group (codeNibbles et) true = some od → out (.tmova d v n) (tm * tn) block) ∧
       (t.operand v t.group (codeNibbles et) false = some od → into (.tmovv d v n) (tm * tn) block)) ∧
     (o.toNat < accCols et →
       (t.operand v 1 (codeNibbles et) true = some od → out (.tcolmvOut d v n) tm fun e => (e, o.toNat)) ∧
       (t.operand v 1 (codeNibbles et) false = some od → into (.tcolmvIn d v n) tm fun e => (e, o.toNat))) ∧
     (o.toNat < 64 → (et = 0 → tn ≤ 64) →
       (t.operand v 1 (codeNibbles et) true = some od → out (.trowmvOut d v n) tn fun e => (o.toNat, e)) ∧
       (t.operand v 1 (codeNibbles et) false = some od → into (.trowmvIn d v n) tn fun e => (o.toNat, e)))) ∧
    (et = 7 → tn % 32 = 0 → o.toNat < 64 → o.toNat + tm ≤ 64 → tm * tn ≠ 0 → t.operand v t.group 1 true = some od →
      ∀ osc, t.scaleReg v = some osc → tm * tn ≤ s.capOf od → tm * (tn / 32) ≤ s.capOf osc →
        let val (e : Nat) : Val := fmt40.operand c.fz (acc (o.toNat + e / tn) (e % tn))
        let ex (b : Nat) : Nat := blockExp (scaleMax true t.bt false) ((List.range 32).map fun j => val (32 * b + j))
        let g (e : Nat) : Nat × Exc := convB4 t.bt (ex (e / 32)) c e 0 (val e)
        s.NoTrap (List.range (tm * tn)) g → Completes (.tcvt d v n) s fun z =>
          let u := (List.range (tm * tn)).foldl (fun (u : State) e => u.setElem x od e (g e).1) (flags ((List.range (tm * tn)).map g) s)
          z = ended (((List.range (tm * (tn / 32))).foldl (fun (u : State) b => u.setElem x osc b (t.bt * 64 + ex b)) u).writeTail x (.reg v od) (tm * tn)))

/-! ## Sparse registers -/

/-- The walk of 13 R294 over two ascending lists of (coordinate, value): each coordinate with the first list's value and index there, and the second's value. -/
def meet : Nat → Nat → List (Nat × Nat) → List (Nat × Nat) → List (Nat × Option (Nat × Nat) × Option Nat)
  | 0, _, _, _ => []
  | _ + 1, _, [], [] => []
  | f + 1, i, a :: as, [] => (a.1, some (i, a.2), none) :: meet f (i + 1) as []
  | f + 1, i, [], b :: bs => (b.1, none, some b.2) :: meet f i [] bs
  | f + 1, i, a :: as, b :: bs =>
    if a.1 < b.1 then (a.1, some (i, a.2), none) :: meet f (i + 1) as (b :: bs)
    else if b.1 < a.1 then (b.1, none, some b.2) :: meet f i (a :: as) bs
    else (a.1, some (i, a.2), some b.2) :: meet f (i + 1) as bs

/-- 13 R290 to R298, over sources that fit and with no cause met: csld and csst move coordinates and values; csadd, csmul and csdot walk two lists by coordinate, adding or copying,
multiplying where both hold one, or accumulating the products; csscale and csseek copy entries; cscompact appends the non-zero elements, csexpand spreads entries, cscsr
compresses rows. Each sets its destination's length, and the resume coordinate to all ones. -/
def Obligations.SparseRegisters : Prop :=
  ∀ (s u : State) (d a b : BitVec 3) (n m r : BitVec 5) (v vt : BitVec 6) (cd ca cb : Sparse) (ov ot : Operand) (pc pv : Nat → Phys),
    let t := s.me
    let et := t.et
    let w := codeBytes et
    let x := s.lanesOf s.tid
    let vl := t.vlen
    let c := t.ctl
    s.Plain → et ≠ 7 → t.sparse d = some cd → t.sparse a = some ca → t.sparse b = some cb →
    let fits (c : Sparse) : Prop := t.slen c.j ≤ c.cap x.count
    let list (c : Sparse) : List (Nat × Nat) := (List.range (t.slen c.j)).map fun i => (s.at_ c.co i, s.at_ c.va i)
    let flags (e : Exc) (u : State) : State := u.setMe (u.me.addFlags e)
    let all (l : List (Nat × Exc)) : Exc := l.foldl (fun e r => e ||| r.2) 0
    let put (u : State) (c : Sparse) (start : Nat) (l : List (Nat × Nat)) : State := (u.putEntries x c start l).closeSparse x c (start + l.length)
    let reach (s : State) (use : Use) (l : List Nat) : Prop :=
      let accs (i : Nat) : Acc × Acc := (⟨s.sr n + w64 (4 * i), 4, 4, use⟩, ⟨s.sr m + w64 (i * w), w, w, use⟩)
      translateElems (s.who s.tid) (fun i => [(accs i).1, (accs i).2]) l s [] [] =
        (⟨l.map fun i => (i, [⟨(accs i).1, pc i⟩, ⟨(accs i).2, pv i⟩]), none, false⟩, u) ∧
      u.Quiet ∧ ∀ i ∈ l, (pc i).isOutbound = false ∧ (pc i).hs = false ∧ (pv i).isOutbound = false ∧ (pv i).hs = false ∧
        (pc i).pa % 64 + 4 ≤ 64 ∧ (pv i).pa % 64 + w ≤ 64
    (let l := (List.range (vl - t.start)).map (t.start + ·)
     t.start < cd.cap x.count → vl ≤ cd.cap x.count → reach s .load l → Completes (.csld d n m) s fun z =>
       z = ended ((l.foldl (fun (u : State) i => (u.setElem x cd.co i (leNat (u.bytes (pc i).pa 4))).setElem x cd.va i (leNat (u.bytes (pv i).pa w))) u).closeSparse
         x cd vl)) ∧
    (let len := Nat.min vl (t.slen d)
     let l := (List.range (len - t.start)).map (t.start + ·)
     t.start < len → fits cd → reach (s.setMe { t with vl := w64 len }) .store l → Completes (.csst d n m) s fun z =>
       (u.setMe { u.me with vl := t.vl }).Commits z 0 (l.flatMap fun i =>
         [((pc i).pa, .store (leBytes 4 (s.at_ cd.co i))), ((pv i).pa, .store (leBytes w (s.at_ cd.va i)))])) ∧
    (fits ca → fits cb →
      let walk := meet (t.slen a + t.slen b) 0 (list ca) (list cb)
      let both := walk.filterMap fun e => match e with
        | (y, some (i, p), some q) => some (y, i, p, q)
        | _ => none
      (let out := walk.zipIdx.map fun e => (e.1.1, match e.1.2 with
          | (some (_, p), some q) => addCode et c e.2 0 p q
          | (some (_, p), none) => (p, 0)
          | (none, some q) => (q, 0)
          | (none, none) => (0, 0))
       out.length ≤ cd.cap x.count → (∀ e ∈ out, t.ten &&& e.2.2 = 0) → Completes (.csadd d a b r) s fun z =>
         z = ended (put ((flags (all (out.map (·.2))) s).setS r (BitVec.allOnes 64)) cd 0 (out.map fun e => (e.1, e.2.1)))) ∧
      (let out := both.zipIdx.map fun e => (e.1.1, MergeOp.mul.both et c e.2 0 e.1.2.2.1 e.1.2.2.2)
       out.length ≤ cd.cap x.count → (∀ e ∈ out, t.ten &&& e.2.2 = 0) → Completes (.csmul d a b r) s fun z =>
         z = ended (put ((flags (all (out.map (·.2))) s).setS r (BitVec.allOnes 64)) cd 0 (out.map fun e => (e.1, e.2.1)))) ∧
      (let sum := both.foldl (fun (z : Nat × Exc) e =>
          let y := MergeOp.dot.both et c e.2.1 z.1 e.2.2.1 e.2.2.2
          (y.1, z.2 ||| y.2)) ((s.sr n).toNat % 2 ^ codeBits et, 0)
       t.ten &&& sum.2 = 0 → Completes (.csdot n a b r) s fun z =>
         z = ended (((flags sum.2 s).setS r (BitVec.allOnes 64)).setS n (scalarOfElem et sum.1)))) ∧
    (fits ca →
      (let out := (list ca).zipIdx.map fun e => (e.1.1, MergeOp.mul.both et c e.2 0 e.1.2 ((s.sr n).toNat % 2 ^ codeBits et))
       out.length ≤ cd.cap x.count → (∀ e ∈ out, t.ten &&& e.2.2 = 0) → Completes (.csscale d a n) s fun z =>
         z = ended (put (flags (all (out.map (·.2))) s) cd 0 (out.map fun e => (e.1, e.2.1)))) ∧
      (let out := if 2 ^ 32 ≤ (s.sr n).toNat then [] else (list ca).dropWhile fun e => decide (e.1 < (s.sr n).toNat)
       out.length ≤ cd.cap x.count → Completes (.csseek d a n) s fun z => z = ended (put s cd 0 out))) ∧
    (let base := (s.sr n).toNat % 2 ^ 32
     let have_ := if t.start = 0 then 0 else t.slen d
     let out := (((List.range (vl - t.start)).map (t.start + ·)).filter fun i => nonZero et (s.at_ ov i)).map fun i => ((base + i) % 2 ^ 32, s.at_ ov i)
     (t.operand v t.group (codeNibbles et) false = some ov → t.start < s.capOf ov → vl ≤ s.capOf ov → have_ + out.length ≤ cd.cap x.count →
       Completes (.cscompact d v n) s fun z => z = ended (put s cd have_ out)) ∧
     (t.operand v t.group (codeNibbles et) true = some ov → vl ≤ s.capOf ov → fits ca → Completes (.csexpand v a n) s fun z =>
       z = ended ((s.writeDst x (.reg v ov) true 0 vl (valuesOf ((List.range vl).map fun i =>
         (i, ((((list ca).filter fun e => e.1 == base + i).getLast?).map (·.2)).getD 0)))).writeTail x (.reg v ov) vl))) ∧
    (let cols := (s.sr n).toNat / 2 ^ 32
     let o := (s.sr n).toNat % 2 ^ 32
     let rows := (vl + cols - 1) / cols
     let row (q : Nat) : List (Nat × Nat) := ((List.range (Nat.min cols (vl - q * cols))).map fun k => (k, s.at_ ov (q * cols + k))).filter fun e => nonZero et e.2
     let off (q : Nat) : Nat := o + ((List.range q).flatMap row).length
     0 < cols → cols ≤ 65536 → t.operand v t.group (codeNibbles et) false = some ov → vl ≤ s.capOf ov → t.operand vt t.group 16 true = some ot →
     rows ≤ s.capOf ot → ((List.range rows).flatMap row).length ≤ cd.cap x.count → (∀ q < rows, (row q).length ≤ 65535 ∧ off q < 2 ^ 32) →
     Completes (.cscsr vt v n d) s fun z =>
       let y := (s.putEntries x cd 0 ((List.range rows).flatMap row))
       let y := (List.range rows).foldl (fun (y : State) q => y.setElem x ot q (off q + (row q).length * 2 ^ 32)) y
       z = ended ((y.closeSparse x cd ((List.range rows).flatMap row).length).writeTail x (.reg vt ot) rows))

/-! ## Replay and timelines -/

/-- 15 R320 to R323: rep reads a nest record and either starts a replay of its body, the held indices 0 and s20 up written with them, or skips the body of a bound of 0; inside a
replay it is illegal; a nop executed as a body word advances POS, and as the last one the indices; at the end of the last pass every held index has wrapped, while s20 up hold
the last pass's. 05 R136, R138; 15 R313, R315: tlsig takes a number, which its counter reaches when
the thread's earlier accesses are performed; tlwait, tlwait.chk and tlread read a timeline by name, tlwait.chk reporting the thread's shortfalls one by one. -/
def Obligations.ReplayAndTimelines : Prop :=
  ∀ (s u : State) (p : Phys) (n m d c : BitVec 5), ¬ s.InHandler →
    let t := s.me
    let illegal (i : Instr) (sub : Nat) : Prop := ∃ w, encode i = some w ∧ Completes i s fun z => s.TrapsTo z 12 sub (w64 (sub * 2 ^ 32 + w.toNat)) t.pc
    let v := s.sr n
    (t.rps.getLsbD 16 = true → illegal (.rep n c) 5) ∧
    (t.rps.getLsbD 16 = false → s.Reaches v 32 .load p u → u.Quiet →
      let r := u.bytes p.pa 32
      let dims := recField r 0 1
      let bound (l : Nat) : Nat := recField r (8 + 4 * l) 4
      1 ≤ dims → dims ≤ 6 → recZero r 1 7 = true → (∀ l < 6, dims ≤ l → bound l = 0) →
      ((∃ l < dims, bound l = 0) → Completes (.rep n c) s fun z => u.GoesTo z (t.pc + 4 + w64 (4 * (c.toNat + 1)))) ∧
      ((∀ l < dims, bound l ≠ 0) → Completes (.rep n c) s fun z =>
        z = u.setMe { u.me with
          s := z.me.s, repBound := z.me.repBound, repIx := z.me.repIx, lastFault := none, pc := t.pc + 4,
          rps := w64 ((if t.sup then 2 ^ 17 else 0) + 2 ^ 16 + dims * 2 ^ 13 + c.toNat) } ∧
        (∀ l < 6, z.me.repBound[l]? = some (BitVec.ofNat 32 (bound l)) ∧ z.me.repIx[l]? = some 0) ∧
        ∀ k, z.sr k = if 20 ≤ k.toNat ∧ k.toNat < 20 + dims then 0 else s.sr k)) ∧
    (∀ h : BitVec 26, t.replaying = true →
      let pos := bits t.rps 12 8
      let len := bits t.rps 4 0
      let dims := bits t.rps 15 13
      let next := advanceIx t.repBound t.repIx dims
      let w : Thread := { t with lastFault := none }
      (pos < len → Completes (.nop h) s fun z => z = s.setMe { w with rps := setBits t.rps 12 8 (pos + 1), pc := t.pc + 4 }) ∧
      (len ≤ pos → next.2 = false → Completes (.nop h) s fun z =>
        z = s.setMe { { w with repIx := next.1 }.loadIx next.1 dims with rps := setBits t.rps 12 8 0, pc := t.pc - w64 (4 * len) }) ∧
      (len ≤ pos → next.2 = true → Completes (.nop h) s fun z =>
        z = s.setMe { w.loadIx t.repIx dims with repIx := next.1, rps := setBits (setBits t.rps 16 16 0) 12 8 (pos + 1), pc := t.pc + 4 })) ∧
    (t.replaying = false →
      let own := t.timeline 5
      let num := own.last + 1
      (num < 2 ^ 64 → Completes (.tlsig d) s fun z => ∃ q : Pend,
        { s.setMe (t.setTimeline 5 { own with last := num }) with pend := s.pend ++ [q], wseq := s.wseq + 1 }.WritesScalar z d (w64 num) ∧
        q.op = .signal num ∧ q.tid = s.tid ∧ q.seq = s.wseq ∧ q.after = s.wseq) ∧
      (2 ^ 64 ≤ num → Completes (.tlsig d) s fun z => s.TrapsTo z 5 0 0 t.pc) ∧
      (bits v 63 12 ≠ 0 ∨ 6 ≤ bits v 11 9 → illegal (.tlwait n m) 3 ∧ illegal (.tlwaitChk n m) 3 ∧ illegal (.tlread d n) 3) ∧
      (bits v 63 12 = 0 → bits v 11 9 < 6 → s.pairAt s.myPart (bits v 7 0) = none →
        ∀ i ∈ [Instr.tlwait n m, .tlwaitChk n m, .tlread d n], Completes i s fun z => s.TrapsTo z 2 0 0 t.pc) ∧
      (∀ l, bits v 63 12 = 0 → bits v 11 9 < 6 → s.pairAt s.myPart (bits v 7 0) = some l →
        let ctx := bits v 11 9
        let who := 2 * l + bits v 8 8
        let ctr := ((s.th who).timeline ctx).ctr
        let k := (s.sr m).toNat
        let x := (t.short[ctx]?).getD ⟨[], false⟩
        let shorts := x.nums.filter fun q => decide (q ≤ k)
        let noted (y : Short) : State := s.setMe { t with short := t.short.setIfInBounds ctx y }
        Completes (.tlread d n) s (fun z => s.WritesScalar z d (w64 ctr)) ∧
        (k ≤ ctr → Completes (.tlwait n m) s fun z => s.GoesTo z (t.pc + 4)) ∧
        (ctr < k → Completes (.tlwait n m) s (fun z => z = s) ∧ (ctx = 5 ∨ who = s.tid → Completes (.tlwaitChk n m) s fun z => z = s)) ∧
        (ctx ≠ 5 → who ≠ s.tid → illegal (.tlwaitChk n m) 3) ∧
        (ctx = 5 → k ≤ ctr → Completes (.tlwaitChk n m) s fun z => s.GoesTo z (t.pc + 4)) ∧
        (ctx ≠ 5 → who = s.tid → k ≤ ctr →
          (shorts = [] → x.loss = false → Completes (.tlwaitChk n m) s fun z => s.GoesTo z (t.pc + 4)) ∧
          (∀ q rest, shorts = q :: rest → Completes (.tlwaitChk n m) s fun z =>
            (noted { x with nums := x.nums.filter fun q => decide (k < q) }).TrapsTo z 11 0 (w64 q) t.pc) ∧
          (shorts = [] → x.loss = true → Completes (.tlwaitChk n m) s fun z =>
            (noted { x with loss := false }).TrapsTo z 11 0 (BitVec.allOnes 64) t.pc)))) ∧
    ∀ (tid : BitVec 9) (k : Nat) (q : Pend), q ∈ s.pend → q.tid = tid.toNat → q.op = .signal k →
      (s.pend.filter fun e => e.seq == q.seq) = [q] → (∀ e ∈ s.pend, e.tid = tid.toNat → e.op = .signal k → e = q) →
      let x := (s.th tid.toNat).timeline 5
      (s.ready q = true → Completes (.threadTimelineSignal tid k) s fun z =>
        z = { s.setTh tid.toNat ((s.th tid.toNat).setTimeline 5 (x.perform k)) with pend := s.pend.filter fun e => e.seq != q.seq } ∧
        (x.ahead = [] → k = x.ctr + 1 → ((z.th tid.toNat).timeline 5).ctr = k)) ∧
      (s.ready q = false → Completes (.threadTimelineSignal tid k) s fun z => z = s)

/-! ## Engine commands -/

/-- The bytes a copy command touches, from its record and the NEST record it names, as the command will find it (15 R316, R317). -/
def copyTouch (r : List Byte) (nest : Option (List Byte)) : List Touch :=
  if cpBad r then recTouch (cpRec r)
  else match nest with
    | some m => if nestBad (cpDims r) m then nestTouch r ++ recTouch (cpRec r) else cpTouch r (cpAllDims r m)
    | none => nestTouch r ++ recTouch (cpRec r)

/-- Whether a copy moves nothing: it is performed at once (15 R317). -/
def copyEmpty (r : List Byte) (nest : Option (List Byte)) : Bool :=
  !cpBad r && (match nest with
    | some m => !nestBad (cpDims r) m && cpTotal r (cpAllDims r m) == 0
    | none => false)

/-- The copy commands of a batch offered one after another, up to the first that finds no room: those accepted, an empty one performed at
once, and the state they leave (15 R319). -/
def Offers (record : Nat → List Byte) : List Nat → State → List Nat → State → Prop
  | [], y, done, z => done = [] ∧ z = y
  | c :: rest, y, done, z =>
    let r := record c
    let nest := y.peekNest (y.who y.tid) r
    (¬ y.Admits 0 (copyTouch r nest) ∧ done = [] ∧ z = y) ∨
    (y.Admits 0 (copyTouch r nest) ∧ ∃ a b more, y.Accepts a 0 .copy r (if y.nestReads r = some [] then [] else nest.getD []) [] (copyTouch r nest) ∧
      (if copyEmpty r nest then exec (.copyCommandPerformed y.cur ((y.me.timeline 0).last + 1)) a = .next b else b = a) ∧
      done = c :: more ∧ Offers record rest b more z)

/-- 05 R131, R135; 03 R92, R93; 15 R312, R316 to R318, R325; 16 R336; 17 R357, R358, R429: each engine instruction reads its record (skbuild its set-class
record too), is accepted behind the thread's earlier writes under the next number of its timeline, registers the scratchpad ranges the command
touches, and writes the number to sd; a copy or an optimiser command over nothing is performed at once. -/
def Obligations.CommandsAccepted : Prop :=
  ∀ (s w u : State) (n d : BitVec 5) (p q : Phys), s.me.replaying = false → u.Quiet →
    let va := s.sr n
    let issued (i : Instr) (y : State) (ctx : Nat) (op : CmdOp) (record extra : List Byte) (touch : List Touch) : Prop :=
      y.Admits ctx touch → Completes i s fun z =>
        ∃ a, y.Accepts a ctx op record extra [] touch ∧ a.WritesScalar z d (w64 ((y.me.timeline ctx).last + 1))
    let atOnce (i : Instr) (y : State) (ctx : Nat) (op : CmdOp) (record extra : List Byte) (run : BitVec 9 → Nat → Instr) : Prop :=
      y.Admits ctx [] → Completes i s fun z =>
        let num := (y.me.timeline ctx).last + 1
        ∃ a b, y.Accepts a ctx op record extra [] [] ∧ a.WritesScalar b d (w64 num) ∧ exec (run s.cur num) b = .next z
    (s.Reaches va 64 .load p u →
      let r := u.bytes p.pa 64
      (let gives (h : State) (nest : Option (List Byte)) (extra : List Byte) : Prop :=
         let v := h.dropRequests h.tid
         (copyEmpty r nest = false → issued (.ecopy n d) v 0 .copy r extra (copyTouch r nest)) ∧
         (copyEmpty r nest = true → atOnce (.ecopy n d) v 0 .copy r extra .copyCommandPerformed)
       let found := (u.plan (u.who u.tid) .load (pagesOf (cpNest r) (24 * cpDims r)) []).1
       (cpBad r = true → gives u none []) ∧
       (∀ got, found = ⟨got, none, false⟩ → (∀ g ∈ got, g.2.isOutbound = false) → gives u (some (got.flatMap fun g => u.bytes g.2.pa g.1.n)) []) ∧
       (∀ got f, found = ⟨got, some f, false⟩ → gives u none []) ∧
       (∀ h, u.askNests [r] = (true, h) → Completes (.ecopy n d) s fun z => z = h) ∧
       (∀ h nest, u.askNests [r] = (false, h) → h.nestReads r ≠ some [] → h.peekNest (h.who h.tid) r = some nest → gives h (some nest) nest)) ∧
      (let touch (op : CmdOp) : List Touch :=
         if coRec r % 32 ≠ 0 ∨ u.collBad op r = true then recTouch (coRec r) else if coN r = 0 then [] else collTouch op r
       issued (.creduce n d) u 1 .creduce r [] (touch .creduce) ∧ issued (.cgather n d) u 1 .cgather r [] (touch .cgather) ∧
       issued (.cxpar n d) u 1 .cxpar r [] (touch .cxpar)) ∧
      (let touch (op : CmdOp) : List Touch := if skK u.me.skz (skCls r) = 0 then [] else skTouch op (skK u.me.skz (skCls r)) r []
       issued (.skxchg n d) (u.dropRequests u.tid) 4 .skxchg r [] (touch .skxchg) ∧
       issued (.skpeel n d) (u.dropRequests u.tid) 4 .skpeel r [] (touch .skpeel))) ∧
    (s.Reaches va 64 .load p w → w.Quiet →
      let r := w.bytes p.pa 64
      w.Reaches (w64 (skSet r)) 32 .load q u →
      let set := u.bytes q.pa 32
      let k := skK u.me.skz (skCls r)
      issued (.skbuild n d) (u.dropRequests u.tid) 4 .skbuild r set (if k = 0 then [] else skTouch .skbuild k r set)) ∧
    (s.Reaches va 64 .load p w → w.Reaches (va + 64) 64 .load q u →
      let r := u.bytes p.pa 64 ++ u.bytes q.pa 64
      (opBad r = true ∨ opN r ≠ 0 → issued (.nmopt n d) u 2 .nmopt r [] (recTouch (opRec r))) ∧
      (opBad r = false → opN r = 0 → atOnce (.nmopt n d) u 2 .nmopt r [] .nmoptPerformed))

/-- 15 R319; 05 R131: ebatch, over a strip that fits its registers, offers the active commands of the strip in ascending order, each one the copy command of
its eight elements, once it has asked for the NEST records that lie outside the module; it accepts them up to the first that finds no room, marks the accepted ones in the mask and gives the last number. Where
it accepts none, it takes a number that is performed at once, or traps where none is left. -/
def Obligations.BatchesAccepted : Prop :=
  ∀ (s : State) (v : BitVec 6) (d : BitVec 5) (b : BitVec 3) (c : BitVec 1) (k : BitVec 3) (o : Operand), s.me.replaying = false → ¬ s.InHandler →
    s.me.operand v s.me.group 16 false = some o → s.regBad = [] → s.me.cut = 0 → (∀ j : Nat, (s.me.binds[j]?).getD none = none) →
    let x := s.lanesOf s.tid
    let vl := s.me.vlen
    let num := (s.me.timeline 0).last + 1
    8 * vl ≤ s.capOf o → vl ≤ maskCap x.count →
    let marks (done : List Nat) (y : State) : State :=
      let y := (List.range vl).foldl (fun (y : State) i => y.setMaskBit x b.toNat i (done.contains i)) y
      if s.me.tp = true ∧ vl ≠ 0 then (List.range (maskCap x.count - vl)).foldl (fun (y : State) i => y.setMaskBit x b.toNat (vl + i) false) y else y
    let leaves (done : List Nat) (y : State) (last : Nat) : State := ended ((marks done (y.dropRequests y.tid)).setS d (w64 last))
    let record (i : Nat) : List Byte := (List.range 8).flatMap fun j => leBytes 8 (s.at_ o (8 * i + j))
    let act := s.activesOf 0 c k
    (∀ h, s.askNests (act.map record) = (true, h) → Completes (.ebatch v d b c k) s fun z => z = h) ∧
    (∀ h, s.askNests (act.map record) = (false, h) → Completes (.ebatch v d b c k) s fun z => ∃ done y, Offers record act h done y ∧
      (done ≠ [] → z = leaves done y (y.me.timeline 0).last) ∧
      (done = [] → num < 2 ^ 64 → z = leaves [] (h.setMe (h.me.setTimeline 0 ({ h.me.timeline 0 with last := num }.perform num))) num) ∧
      (done = [] → 2 ^ 64 ≤ num → h.TrapsTo z 5 0 0 s.me.pc))

/-- 16 R340 to R343, R346, R348; 17 R354, R355; 18 R372, R374 to R376: pkcfg loads the lookup configuration; pklook, with VL = 0, is performed at once, asks once for leave, and with leave
scores its queries and is accepted under its number; skset and skset.g set and grow the class sizes; launch appends a record to the queue of its priority. A malformed record or
value is illegal. -/
def Obligations.LookupSketchAndLaunch : Prop :=
  ∀ (s w u : State) (n d : BitVec 5) (v : BitVec 6) (c : BitVec 1) (k : BitVec 3) (p q : Phys), s.me.replaying = false → ¬ s.InHandler →
    let t := s.me
    let va := s.sr n
    let illegal (y : State) (i : Instr) : Prop := ∃ e, encode i = some e ∧ Completes i s fun z => y.TrapsTo z 12 3 (w64 (3 * 2 ^ 32 + e.toNat)) t.pc
    let next (y : Thread) : Thread := { y with lastFault := none, pc := t.pc + 4 }
    (s.Reaches va 64 .load p u → u.Quiet →
      let r := u.bytes p.pa 64
      (pkBad r = false → Completes (.pkcfg n) s fun z => z = u.setMe (next { u.me with lookup := r })) ∧
      (pkBad r = true → illegal u (.pkcfg n))) ∧
    (skzOk va = true → Completes (.skset n) s fun z => z = s.setMe (next { t with skz := va })) ∧
    (skzOk va = false → illegal s (.skset n)) ∧
    (let g := bits va 1 0
     let size := skK t.skz g + skStep t.skz g
     (bits va 63 2 ≠ 0 ∨ skK t.skz g = 0 → illegal s (.sksetG n d)) ∧
     (bits va 63 2 = 0 → skK t.skz g ≠ 0 →
       (skStep t.skz g = 0 ∨ skMax t.skz g < size → Completes (.sksetG n d) s fun z => s.WritesScalar z d 0) ∧
       (skStep t.skz g ≠ 0 → size ≤ skMax t.skz g → Completes (.sksetG n d) s fun z =>
         (s.setMe { t with skz := setBits t.skz (16 * g + 4) (16 * g) size }).WritesScalar z d (w64 size)))) ∧
    (∀ o : Operand, t.et = 3 → t.lookup ≠ [] → t.operand v t.group 4 false = some o → t.cut = 0 → u.me.cut = 0 →
      let x := s.lanesOf s.tid
      let last := t.timeline 3
      let num := last.last + 1
      let r := t.lookup
      let area := va.toNat
      let vl := Nat.min (Nat.min t.vlen 64) (Nat.min (o.cap x.count) (((t.bound v false).map Bind.left).getD (2 ^ 64)) / pkD r)
      let touch : List Touch := [⟨area, 64 + vl * pkRs r, false⟩]
      num < 2 ^ 64 →
      (t.vlen = 0 → Completes (.pklook v n d c k) s fun z =>
        z = ended ((s.setMe (t.setTimeline 3 ({ last with last := num }.perform num))).setS d (w64 num))) ∧
      (t.vlen ≠ 0 → vl ≠ 0 → area % 64 = 0 → localWin ≤ area → area + (64 + vl * pkRs r) ≤ localWin + 0x3000000 → s.Admits 3 touch →
        (s.cmdLeave s.tid 3 num = false → s.cmdAsked s.tid 3 num = false → Completes (.pklook v n d c k) s fun z =>
          z = s.askLeave ⟨s.tid, false, 3, num, 12, false⟩) ∧
        (s.cmdLeave s.tid 3 num = false → s.cmdAsked s.tid 3 num = true → Completes (.pklook v n d c k) s fun z => z = s) ∧
        (s.cmdLeave s.tid 3 num = true → s.Quiet → s.regBad = [] → (∀ j : Nat, (t.binds[j]?).getD none = none) →
          let act := (List.range vl).filter fun i => s.active x k (c == 1) i
          let accepted (u : State) (b : PkRun) (z : State) : Prop := ∃ a,
            let outs := b.outs.filter fun e => decide (e.1 < vl)
            u.Accepts a 3 .pklook r (outs.flatMap (·.2))
              ([w64 area, w64 vl, 0, b.exc.zeroExtend 64, 0, w64 vl] ++ outs.map fun e => w64 e.1) touch ∧
            let a := a.dropRequests u.tid
            let a := if vl < t.vlen then a.setMe (a.me.noteTrim vl Fail.capacity) else a
            z = ended (a.setS d (w64 ((u.me.timeline 3).last + 1)))
          (act = [] → Completes (.pklook v n d c k) s (accepted s PkRun.start)) ∧
          ∀ (t1 t2 : List Byte) (b : PkRun), act ≠ [] → s.pkTables r = (.ok (t1, t2), w) →
            w.pkAll (w.who w.tid) ⟨x, v, o, r, t1, t2, k, c == 1⟩ PkRun.start act = (b, u) → b.wait = false → b.fail = none → b.lost = none →
            u.Admits 3 touch → Completes (.pklook v n d c k) s (accepted u b)))) ∧
    (s.Reaches va 64 .load p w → w.Reaches (va + 64) 64 .load q u → u.Quiet →
      let r := u.bytes p.pa 64 ++ u.bytes q.pa 64
      let part := u.myPart
      let prio := Nat.min (lrPrio r) (u.part part).prio
      let lq := (u.part part).queue prio
      let slot := lq.base.toNat + lq.tail % Nat.max 1 lq.cap * 128
      (lrBad (u.pairCount part) r = true → illegal u (.launch n)) ∧
      (lrBad (u.pairCount part) r = false →
        (lq.cap = 0 → Completes (.launch n) s fun z => u.TrapsTo z 2 0 0 t.pc) ∧
        (lq.cap ≠ 0 → lq.tail - lq.head = lq.cap → Completes (.launch n) s fun z => z = s) ∧
        (lq.cap ≠ 0 → lq.tail - lq.head ≠ lq.cap → (u.region slot).isLocal = true → Completes (.launch n) s fun z =>
          z = ((u.putBytes slot (r.take 0x19 ++ leBytes 1 prio ++ r.drop 0x1A)).setPart part
            ((u.part part).setQueue prio { lq with tail := lq.tail + 1 })).setMe (next u.me))))

/-! ## Operations at memory -/

/-- 15 R324; 16 R331 to R334; 05 R139 to R141; 04 R106, R110 to R112, R121, R128: vrred sends its elements to one memory as one packet of adds; nmadd commits one add for each active element,
adds of one location in element order; nmfadd makes its adds and gives each element the value it found. A near fence lets no near-memory operation of the thread stay behind, and with
release puts later writes behind earlier ones. A committed write, add or packet is performed once everything before it is, and until then nothing changes. -/
def Obligations.MemoryOperations : Prop :=
  ∀ (s u : State) (v : BitVec 6) (n : BitVec 5) (f : BitVec 4) (sc x c : BitVec 1) (k : BitVec 3) (ov : Operand) (at_ : Nat → Phys),
    let t := s.me
    let et := t.et
    let w := codeBytes et
    let act := s.activesOf t.start c k
    (s.Plain → u.Quiet → s.Within t.start (s.capOf ov :: s.maskRoom k) →
      (∀ osc : Operand, t.operand v t.group (codeNibbles et) false = some ov → rredOk et f.toNat (sc == 1) = true →
        (sc = 1 → t.scaleReg v = some osc ∧ t.vlen ≤ 32 * s.capOf osc) → act ≠ [] →
        s.Places (fun i => some (s.sr n + w64 (i * codeBytes f.toNat))) (codeBytes f.toNat) .reduce act at_ u →
        (∀ i ∈ act, ∀ j ∈ act, u.region (at_ i).pa = u.region (at_ j).pa) → Completes (.vrred v n f sc c k) s fun z =>
          let word (i : Nat) : Word := w64 (packetWord et t.ctl.fz (s.at_ ov i) (if sc = 1 then some (s.at_ osc (i / 32)) else none)).toNat
          u.Commits z 0 [((act.head?.map fun i => (at_ i).pa).getD 0, .packet f t.fcs (act.map fun i => ((at_ i).pa, i, word i)) (BitVec.ofNat 4 et))]) ∧
      (∀ oi : Operand, et ∈ [1, 3, 12, 13, 14, 15] →
        (x = 1 → v.toNat < t.nregs ∧ v.toNat + t.group < t.nregs ∧ t.operand (v + BitVec.ofNat 6 t.group) t.group (codeNibbles et) false = some oi ∧
          s.Within t.start [s.capOf oi]) →
        s.Places (fun i => some (if x = 0 then s.sr n + w64 (i * w) else s.sr n + w64 (s.at_ oi i * w))) w .near act at_ u →
        (t.operand v t.group (codeNibbles et) false = some ov → Completes (.nmadd v n x c k) s fun z => ∃ qs : List Pend,
          z = { u.setMe { u.me.addFlags 0 with es := 0, lastFault := none, pc := u.me.pc + 4 } with pend := u.pend ++ qs, wseq := u.wseq + qs.length } ∧
          qs.map (fun q => (q.addr, q.op)) = act.map (fun i => ((at_ i).pa, .near (BitVec.ofNat 4 et) t.fcs i (w64 (s.at_ ov i)))) ∧
          ∀ q ∈ qs, q.tid = s.tid ∧ q.after = 0 ∧ ∀ e ∈ qs, e.addr = q.addr → e.seq < q.seq → e.seq ∈ q.deps) ∧
        (t.operand v t.group (codeNibbles et) true = some ov → Completes (.nmfadd v n x c k) s fun z =>
          let made := act.foldl (fun (y : State × List (Nat × Nat)) i =>
            let old := leNat (y.1.bytes (at_ i).pa w)
            (y.1.putBytes (at_ i).pa (leBytes w (addCode et t.ctl i 0 old (s.at_ ov i)).1), y.2 ++ [(i, old)])) (u, [])
          z = made.1.vectorLeaves (.reg v ov) false t.start t.vlen 0 (valuesOf made.2) id id))) ∧
    (t.replaying = false →
      (s.pend = [] → Completes .nmfence s (fun z => s.GoesTo z (t.pc + 4)) ∧ Completes .nmfenceRel s fun z =>
        z = s.setMe { t with barrier := s.wseq, fwdBar := t.fwd, lastFault := none, pc := t.pc + 4 }) ∧
      ∀ z, exec .nmfence s = .next z ∨ exec .nmfenceRel s = .next z → z.me.pc ≠ t.pc →
        ∀ q ∈ z.pend, q ∈ s.pend ∧ (q.tid = s.tid → q.isNear = false)) ∧
    ∀ q : Pend, s.pend.find? (fun e => e.seq == q.seq) = some q →
      let performs (i : Instr) (y : State) : Prop :=
        (s.ready q = true → Completes i s fun z => z = { y with pend := s.pend.filter fun e => e.seq != q.seq }) ∧
        (s.ready q = false → Completes i s fun z => z = s)
      s.memLost = [] → (s.region q.addr).isLocal = true →
      (∀ bs, q.op = .store bs → performs (.writePerformed q.seq) (s.putBytes q.addr bs)) ∧
      (∀ hi a, q.op = .nib hi a → performs (.writePerformed q.seq)
        (let old := (s.byte q.addr).toNat
         s.putBytes q.addr [BitVec.ofNat 8 (if hi then a.toNat * 16 + old % 16 else old / 16 * 16 + a.toNat)])) ∧
      (∀ g fcs i a, q.op = .add g fcs i a → performs (.writePerformed q.seq)
        (let m := codeBytes g.toNat
         s.putBytes q.addr (leBytes m (addCode g.toNat (Ctl.of fcs) i 0 (leNat (s.bytes q.addr m)) a.toNat).1))) ∧
      (∀ g fcs i a, q.op = .near g fcs i a → performs (.nearMemoryAdd q.seq)
        (let m := codeBytes g.toNat
         s.putBytes q.addr (leBytes m (addCode g.toNat (Ctl.of fcs) i 0 (leNat (s.bytes q.addr m)) a.toNat).1))) ∧
      ∀ g fcs es from_, q.op = .packet g fcs es from_ → performs (.remoteReduceAdd q.seq)
        (let m := codeBytes g.toNat
         let ctl := Ctl.of fcs
         es.foldl (fun (y : State) e =>
           let old := leNat (y.bytes e.1 m)
           y.putBytes e.1 (leBytes m (match codeFmt g.toNat with
             | some h => (roundTo h ctl e.2.1 0 ((h.operand ctl.fz old).add ctl.rm (fmt64.decode e.2.2.toNat))).1
             | none => (old + codeOfInt (8 * m) (intOf (codeSigned from_.toNat) 64 e.2.2.toNat)) % 2 ^ (8 * m)))) s)

/-- 15 R314, R315, R317, R326 to R328; 16 R336 to R338, R345, R346; 17 R358 to R361; 05 R134, R143, R144: what each engine command leaves when it is performed with no cause met: a copy its
bytes at their destinations; a collective its result, its contribution sent to the ranks that consume it; an optimiser step over one block the new weights and momenta; a lookup its
query records; a sketch the cells of the set; an exchange the peer's sketch, the local one sent; a peel the queue of its elements, complete or not. Then the command ends, once what it
sent is acknowledged. -/
def Obligations.CommandsPerformed : Prop :=
  (∀ (s u : State) (tid : BitVec 9) (n : Nat) (c : Cmd), s.pend = [] → u.memLost = [] →
     s.cmds.find? (fun o => o.isOf tid.toNat c.ctx n) = some c → c.op ≠ .finish → c.op ≠ .final →
     let r := c.record
     (c.ctx = 0 →
       (cpBad r = true → s.Performs s (.copyCommandPerformed tid n) c (if cpRec r % 32 = 0 then cpRec r else 0) (Done.malformed 1)) ∧
       ∀ (nest : List Byte) (m : State) (gs : List SegT), cpBad r = false →
         (if cpDims r = 0 then nest = [] ∧ m = s else if c.extra ≠ [] then nest = c.extra ∧ m = s else s.engineRead c (cpNest r) (24 * cpDims r) = (.ok nest, m)) → nestBad (cpDims r) nest = false →
         let ds := cpAllDims r nest
         let total := cpTotal r ds
         ∀ b, m.boardFor c (cpTouch r ds) = some b → b.planSegs (b.cmdWho c) (cpSegs r ds) [] = ((gs, none, false), u) → (2 ^ 20 < total → u.cmdLeave c.tid c.ctx c.num = true) →
         segsOverlap gs = false → u.Free c (gs.flatMap fun g => [(⟨g.seg.src, g.seg.n⟩, g.sp), (⟨g.seg.dst, g.seg.n⟩, g.dp)]) →
         s.Performs (gs.foldl (fun (y : State) g => y.putBytes g.dp.pa (u.bytes g.sp.pa g.seg.n)) u) (.copyCommandPerformed tid n) c (cpRec r) (Done.ok total)) ∧
     (c.ctx = 1 → ∀ (ms : List CollMember) (m : State) (src dst : List (Piece × Phys)), coRec r % 32 = 0 → s.collBad c.op r = false →
       membersCover r ms = true → (∀ x ∈ ms, x.agrees = true ∧ x.fail = 0) → s.cmdLeave c.tid c.ctx c.num = true →
       s.plan (s.cmdWho c) .load (pagesOf (coSrc r) (coN r * collWidth c.op r)) [] = (⟨src, none, false⟩, m) →
       m.planWrite c (coDst r) (collSpan c.op r) = (⟨dst, none, false⟩, u) → u.Free c (src ++ dst) →
       let own := src.flatMap fun p => u.bytes p.2.pa p.1.n
       let out := collOut c.op r (ranksOf r ⟨own, c.fcs⟩ ms)
       let done : Done := { Done.ok (collCount c.op r) with flg := out.2 }
       let peers := (consumers c.op r).map (coMem r)
       (∀ dev ∈ peers, u.reaches dev = true) →
       let v := (peers.foldl (fun (y : State) dev => y.share c dev (recField r 0x20 4) own) u).laid dst (out.1.take (collWrites c.op r))
       (peers = [] → s.Performs v (.collectivePerformed tid n ms) c (coRec r) done) ∧
       (peers ≠ [] → Completes (.collectivePerformed tid n ms) s fun t => v.Awaits t c (coRec r) done)) ∧
     (c.ctx = 2 →
       (opBad r = false → opN r = 0 → s.Performs s (.nmoptPerformed tid n) c (opRec r) (Done.ok 0)) ∧
       ∀ (v w : State) (wt gr mo : OptArr), opBad r = false → opN r ≠ 0 → opN r ≤ 1024 → opMoment r = false → opWb r = 0 →
         s.optPlan c .near (opW r) 4 (opN r) = ((wt, none, false), v) → v.optPlan c .near (opG r) 4 (opN r) = ((gr, none, false), w) →
         w.optPlan c .near (opM r) 4 (opN r) = ((mo, none, false), u) →
         let js := List.range (opN r)
         let codes (a : OptArr) : List Nat := js.map fun j => leNat (u.bytes (a.at_ j) 4)
         let step := optBlock r (codes gr) (codes wt) (codes mo) []
         let put (y : State) (a : OptArr) (l : List Nat) : State := (List.zip js l).foldl (fun (y : State) e => y.putBytes (a.at_ e.1) (leBytes 4 e.2)) y
         let y := put (put u wt (step.1.map fun x => code32 x.w)) mo (step.1.map fun x => code32 x.m)
         s.Performs (if opGz r then put y gr (js.map fun _ => 0) else y) (.nmoptPerformed tid n) c (opRec r) { Done.ok (opN r) with flg := step.2 }) ∧
     (c.ctx = 3 → s.memLost = [] →
       let f (j : Nat) : Nat := ((c.words[j]?).getD 0).toNat
       let base := scratchBase (s.physPair (pairOf c.tid)) + (f 0 - localWin)
       let size := 4 * pkDv r + 8 * pkKn r
       s.cmdWaits c base (64 + f 5 * pkRs r) = false →
       s.Performs ((c.words.drop 6).zipIdx.foldl (fun (y : State) e =>
         y.putBytes (base + 64 + e.1.toNat * pkRs r) ((c.extra.drop (e.2 * size)).take size)) s)
         (.pklookPerformed tid n) c (f 0) ⟨f 1, f 2, 0, 0, BitVec.ofNat 5 (f 3), f 4, f 5⟩) ∧
     (c.ctx = 4 →
       let k := c.skSize
       let bytes := skBytes k
       (∀ (m y : State) (loc : Area) (ps : List (Piece × Phys)) (e : Nat), c.op = .skbuild → skRecBad .skbuild r = false → k ≠ 0 → setBad c.extra = false →
         s.planArea c .store (skLoc r) bytes = ((loc, none, false), m) →
         m.plan (m.cmdWho c) .load (pagesOf (setBase c.extra) (setCount c.extra * setEsz c.extra)) [] = (⟨ps, none, false⟩, u) → u.Free c ps →
         ((List.range (skCells k)).foldl (fun (y : State) i => y.areaPut loc (32 + 24 * i) (leBytes 24 0)) u).skInsertAll c loc k ps []
           (setCount c.extra) 0 0 = (y, setCount c.extra, e, none) →
         s.Performs (y.areaPut loc 0 (skHeader k (setTag c.extra) e)) (.skbuildPerformed tid n) c (skRec r) (Done.ok (setCount c.extra))) ∧
       (∀ (m w : State) (hd loc rem : Area) (h b x : List Byte), c.op = .skxchg → skRecBad .skxchg r = false → k ≠ 0 → s.skReaches (skPeer r) = true →
         s.planArea c .load (skLoc r) 32 = ((hd, none, false), m) → m.areaRead hd = .ok h → hdrBad h = false → recField h 0 1 = k →
         hdrBad b = false → recField b 0 1 = k → recField b 4 4 = recField h 4 4 → b.length = bytes →
         m.skBehind c (recField h 4 4) = false →
         m.planArea c .load (skLoc r) bytes = ((loc, none, false), w) → w.planArea c .store (skRem r) bytes = ((rem, none, false), u) →
         u.areaRead loc = .ok x →
         Completes (.skxchgPerformed tid n (.sketch b)) s fun t =>
           ((u.share c (skPeer r) (recField x 4 4) x).laid rem.ps b).Awaits t c (skRec r) (Done.ok bytes)) ∧
       (∀ (a m v w z : State) (h1 h2 loc lo rem dq : Area) (b1 b2 lb rb : List Byte), c.op = .skpeel → skRecBad .skpeel r = false → k ≠ 0 →
         s.cmdLeave c.tid c.ctx c.num = true →
         s.planArea c .load (skLoc r) 32 = ((h1, none, false), a) → a.planArea c .load (skRem r) 32 = ((h2, none, false), m) →
         m.areaRead h1 = .ok b1 → m.areaRead h2 = .ok b2 → hdrBad b1 = false → hdrBad b2 = false → recField b1 0 1 = k → recField b2 0 1 = k →
         recField b1 4 4 = recField b2 4 4 →
         m.planArea c .load (skLoc r) bytes = ((lo, none, false), v) → v.planArea c .store (skLoc r) bytes = ((loc, none, false), w) →
         w.planArea c .load (skRem r) bytes = ((rem, none, false), z) → z.planArea c .store (skDq r) (24 * skCells k) = ((dq, none, false), u) →
         u.areaRead loc = .ok lb → u.areaRead rem = .ok rb →
         let p := peelOf k lb rb
         let y := p.2.zipIdx.foldl (fun (y : State) e =>
           y.areaPut dq (24 * e.2) (leBytes 8 e.1.1.toNat ++ leBytes 8 e.1.2.1.toNat ++ leBytes 8 e.1.2.2)) u
         let y := p.1.zipIdx.foldl (fun (y : State) e => y.areaPut loc (32 + 24 * e.2) e.1.bytes) y
         s.Performs y (.skpeelPerformed tid n) c (skRec r) (match p.1.findIdx? fun x => !x.isEmpty with
           | none => Done.ok p.2.length
           | some i => ⟨p.2.length, 10, 0, 0, 0, (skLoc r + 32 + 24 * i) % 2 ^ 64, p.2.length + 1⟩)))) ∧
  (∀ (s : State) (tid : BitVec 9) (n : Nat) (c : Cmd) (crec : Nat) (d : Done) (ms : List CollMember) (peer : SkPeer),
     s.cmds.find? (fun o => o.isOf tid.toNat c.ctx n) = some c → c.op = .finish → c.extra = d.bytes c.num →
     c.words = [w64 crec, if d.short then 1 else 0] → crec < 2 ^ 64 → s.cmdAcked c = true →
     let ends (i : Instr) : Prop :=
       (crec = 0 → Completes i s fun t => s.Ends t c none d) ∧
       ∀ (x : Phys) (w : State), crec ≠ 0 → s.translate (s.cmdWho c) crec 32 .store = (.ok x, w) → x.isOutbound = false →
         w.cmdWaits c x.pa 32 = false → w.memLost = [] → Completes i s fun t => w.Ends t c (some x.pa) d
     (c.ctx = 0 → ends (.copyCommandPerformed tid n)) ∧ (c.ctx = 1 → ends (.collectivePerformed tid n ms)) ∧
     (c.ctx = 2 → ends (.nmoptPerformed tid n)) ∧ (c.ctx = 3 → ends (.pklookPerformed tid n)) ∧
     (c.ctx = 4 → ends (.skbuildPerformed tid n) ∧ ends (.skxchgPerformed tid n peer) ∧ ends (.skpeelPerformed tid n)))

/-! ## Partitions and pages -/

/-- 01 R25 to R28: activation reads the descriptor and the crossbar masks, refuses with its result code, and in the end zeroes the scratchpads and registers of the pairs and gives them to the
partition; quiescing ends when every context is halted; resuming, deactivating and reloading follow the mode; a reserved command gives result 3; a write while one runs is ignored. What counts as unreadable is log entry 84, and RES 0 while a command
runs log entry 85. That quiescing also waits until the partition has no set-aside context is the model's reading (log entry 57). -/
def Obligations.PartitionCommands : Prop :=
  ∀ (s : State) (part : BitVec 6) (cmd : BitVec 3),
    let n := part.toNat
    let p := s.part n
    let named (y : State) (k : BitVec 3) : State := { y with pcmdCmd := k, pcmdPart := part }
    let ends (i : Instr) (k : BitVec 3) (res : BitVec 3) : Prop := Completes i s fun t => t = { named s k with pcmdRes := res, pcmdJob := .idle }
    let masks (t : State) (ls : List Nat) (table : Nat) : Prop :=
      t.mem = s.mem ∧ t.threads = s.threads ∧ ∀ e ∈ ls.zipIdx, t.pair e.1 = { s.pair e.1 with xbar := maskOf (s.bytes (table + 32 * e.2) 32) }
    (s.pcmdJob ≠ .idle → ∀ i ∈ [Instr.partitionActivate part, .partitionQuiesce part, .partitionDeactivate part, .reloadCrossbar part,
      .partitionResume part, .pcmdReserved part cmd], Completes i s fun t => t = s) ∧
    (s.pcmdJob = .idle →
      ends (.pcmdReserved part cmd) (if cmd = 7 then 7 else 6) 3 ∧
      (p.mode ≠ .inactive → ends (.partitionActivate part) 1 2) ∧
      (p.mode = .inactive →
        let at_ := s.ptb.toNat + 128 * n
        let d := s.bytes at_ 128
        let ls := pairsIn (maskOf d)
        let table := recField d 0x40 8
        let good : Prop := s.readable at_ 128 = true ∧ s.descBad d = false ∧ s.readable table (32 * ls.length) = true ∧ p.lq.toList.any s.queueBad = false
        (¬ good → ends (.partitionActivate part) 1 4) ∧
        (good → (∃ l ∈ ls, (s.pair l).part.isSome) → ends (.partitionActivate part) 1 1) ∧
        (good → (∀ l ∈ ls, (s.pair l).part = none) → Completes (.partitionActivate part) s fun t =>
          t.pcmdJob = .activate (p.describe d) ∧ t.pcmdRes = 0 ∧ t.pcmdPart = part ∧ t.parts = s.parts ∧ masks t ls table)) ∧
      (p.mode = .active → Completes (.partitionQuiesce part) s fun t => t = { named s 2 with pcmdRes := 0, pcmdJob := .quiesce }) ∧
      (p.mode ≠ .active → ends (.partitionQuiesce part) 2 2) ∧
      (p.mode = .quiesced →
        (Completes (.partitionResume part) s fun t => t = { (named s 5).setPart n { p with mode := .active } with pcmdRes := 0, pcmdJob := .idle }) ∧
        Completes (.partitionDeactivate part) s fun t => t.pcmdJob = .deactivate ∧ t.pcmdRes = 0 ∧
          (∀ l ∈ s.partPairs n, (t.th (2 * l)).run = .free ∧ (t.th (2 * l + 1)).run = .free) ∧ (t.part n).mode = .quiesced) ∧
      (p.mode ≠ .quiesced → ends (.partitionResume part) 5 2 ∧ ends (.partitionDeactivate part) 3 2) ∧
      (p.mode = .inactive → ends (.reloadCrossbar part) 4 2) ∧
      (p.mode ≠ .inactive → s.readable p.xbarAddr.toNat (32 * (s.partPairs n).length) = true → Completes (.reloadCrossbar part) s fun t =>
        t.pcmdRes = 0 ∧ t.pcmdJob = .idle ∧ masks t (s.partPairs n) p.xbarAddr.toNat)) ∧
    (s.pcmdPart = part →
      (∀ d : Part, s.pcmdJob = .activate d → Completes .activateComplete s fun t =>
        t.pcmdJob = .idle ∧ t.pcmdRes = 0 ∧ t.part n = { d with tsl := p.tsl, cesav := p.cesav } ∧ ∀ e ∈ (pairsIn d.pairs).zipIdx,
          let old := s.pair e.1
          t.pair e.1 = { Pair.reset with xbar := old.xbar, part := some n, idx := e.2, paw := old.paw, pac := old.pac } ∧
          t.th (2 * e.1) = (s.th (2 * e.1)).activated d.atb0 ∧ t.th (2 * e.1 + 1) = (s.th (2 * e.1 + 1)).activated d.atb0 ∧
          (∀ a < 0x3000000, t.byte (scratchBase (s.physPair e.1) + a) = 0) ∧ ∀ a < 0x400000, cellGet t.regs (regKey (s.physPair e.1) a) = 0) ∧
      (s.pcmdJob = .quiesce →
        let halted := ∀ l ∈ s.partPairs n, ∀ k ∈ [2 * l, 2 * l + 1], (s.th k).run = .free ∨ (s.th k).ceHalted = true
        (p.aside = [] ∧ halted → Completes .quiesceComplete s fun t => t = { s.setPart n { p with mode := .quiesced } with pcmdRes := 0, pcmdJob := .idle }) ∧
        (¬ (p.aside = [] ∧ halted) → Completes .quiesceComplete s fun t => t = s)) ∧
      (s.pcmdJob = .deactivate → (∀ c ∈ s.cmds, (s.pair (pairOf c.tid)).part ≠ some n) → s.pend = [] → Completes .deactivateComplete s fun t =>
        t.pcmdJob = .idle ∧ t.pcmdRes = 0 ∧ t.part n = { p with mode := .inactive, walk := [], aside := [] } ∧ t.mem = s.mem ∧ t.threads = s.threads ∧
        ∀ l ∈ s.partPairs n, t.pair l = { s.pair l with part := none, idx := 0, tmu := none }))

/-- 02 R60, R64, R67 to R72; 05 R146: a walk marks entries and caches the translation, changing no register and no thread; a migration command is checked, its page marked and its cached
translations removed, and in the end the page's bytes stand at the destination and its entries name it, or, where one was changed in any bit meanwhile, all stay and the move reports it; clearing empties the
hotness table; a scalar access of a sampled page counts once in its entry's unit-stride counter, which saturates, or, where another page stands there, as a miss.
The order of STAT codes is log entry 86. -/
def Obligations.PagesMoveAndCount : Prop :=
  ∀ (s u : State) (slot die : BitVec 3) (ctl va : Word) (tid : BitVec 9) (acc : Access) (q : Phys),
    let n := slot.toNat
    let x := s.migSlot n
    let c := setBits ctl 11 11 1 &&& 0x6FF
    let y : MigSlot := { x with ctl := c }
    let moves (x : MigSlot) (e : Tlb) : Bool := e.part == migPart x.ctl && overlaps e.s2base (classBytes e.s2size) x.src.toNat (classBytes (migSize x.ctl))
    let gone (x : MigSlot) (l : List Tlb) : List Tlb := l.filter fun e => !moves x e
    let gone1 (x : MigSlot) (l : List (Nat × Tlb)) : List (Nat × Tlb) := l.filter fun e => !moves x e.2
    (x.busy = true → Completes (.pageMigration slot ctl) s fun t => t = s) ∧
    (x.busy = false → s.migStat n y ≠ 0 → Completes (.pageMigration slot ctl) s fun t => t = s.setMig n { y with stat := s.migStat n y }) ∧
    (x.busy = false → s.migStat n y = 0 → Completes (.pageMigration slot ctl) s fun t =>
      t = { s.setMig n { y with busy := true, stat := 0, moving := (List.range (migCount c)).map fun k => s.word (x.ptea.toNat + 8 * k) } with
        tlb := gone y s.tlb, tlb1 := gone1 y s.tlb1 }) ∧
    (x.busy = false → Completes (.pageMigrationComplete slot) s fun t => t = s) ∧
    (x.busy = true → s.pend = [] → s.asking (migPart x.ctl) = false → s.Canon →
      let size := classBytes (migSize x.ctl)
      let dst := x.dst.toNat
      let at_ := x.ptea.toNat
      let count := migCount x.ctl
      let same := ((List.range count).map fun k => s.word (at_ + 8 * k)) = x.moving
      (at_ + 8 * count ≤ dst ∨ dst + size ≤ at_) → Completes (.pageMigrationComplete slot) s fun t =>
        (same → ∀ a < size, t.byte (dst + a) = s.byte (x.src.toNat + a)) ∧
        (∀ k < count, t.word (at_ + 8 * k) = if same then pteMoved (s.word (at_ + 8 * k)) (dst + 4096 * k) (bits x.ctl 10 9) else s.word (at_ + 8 * k)) ∧
        (∀ a, (a < dst ∨ dst + size ≤ a) → (a < at_ ∨ at_ + 8 * count ≤ a) → t.byte a = s.byte a) ∧
        t.migSlot n = { x with busy := false, stat := if same then 0 else 3, moving := [] } ∧ t.tlb = gone x s.tlb ∧ t.tlb1 = gone1 x s.tlb1 ∧ t.wcache = s.wcache ∧
        t.threads = s.threads ∧ t.regs = s.regs) ∧
    Completes (.hotnessClear die) s (fun t => t = s.setDie die.toNat { s.die die.toNat with hctlClr := true }) ∧
    ((s.die die.toNat).hctlClr = true → Completes (.hotnessClearDone die) s fun t =>
      t = s.setDie die.toNat { s.die die.toNat with hctlClr := false, hot := [] }) ∧
    ((s.die die.toNat).hctlClr = false → Completes (.hotnessClearDone die) s fun t => t = s) ∧
    ((s.pair (pairOf tid.toNat)).part ≠ none → s.translate (s.who tid.toNat) va.toNat 1 (useOf acc) = (.ok q, u) → Completes (.pageWalk tid va acc) s fun t =>
      t = u ∧ t.threads = s.threads ∧ t.regs = s.regs ∧ t.pend = s.pend) ∧
    ((∀ q, (s.translate (s.who tid.toNat) va.toNat 1 (useOf acc)).1 ≠ .ok q) → Completes (.pageWalk tid va acc) s fun t => t = s) ∧
    ∀ (d m : BitVec 5) (im : BitVec 13), u.me.replaying = false → u.Quiet → q.isOutbound = false → q.hs = true → q.pa % 64 + 8 ≤ 64 →
      let at_ := s.sr m + BitVec.ofInt 64 im.toInt
      let home := u.myL / 32
      let y := u.die home
      let f := q.s2base / 4096
      let idx := (f ^^^ (f / 65536)) % 65536
      let tag := w64 (1 + q.s2size * 2 + u.myPart * 8 + q.s2base)
      let e := mapGet ((0 : Word), (0 : BitVec 32), (0 : BitVec 32), (0 : BitVec 32)) y.hot idx
      let counted (z : State) : Prop :=
        (y.hctlEn = false ∨ y.hctlClr = true → z = u) ∧
        (y.hctlEn = true → y.hctlClr = false →
          (e.1.getLsbD 0 = false → z = u.setDie home { y with hot := mapPut idx (tag, 1, 0, 0) y.hot }) ∧
          (e.1.getLsbD 0 = true → e.1 = tag → z = u.setDie home { y with
            hot := mapPut idx (tag, BitVec.ofNat 32 (Nat.min (e.2.1.toNat + 1) 0xFFFFFFFF), e.2.2.1, e.2.2.2) y.hot }) ∧
          (e.1.getLsbD 0 = true → e.1 ≠ tag → z = u.setDie home { y with hmiss := w64 (Nat.min (y.hmiss.toNat + 1) 0xFFFFFFFF) }))
      (s.translate (s.who s.tid) at_.toNat 8 .load = (.ok q, u) → Completes (.ldD d m im) s fun t =>
        ∃ z, counted z ∧ z.WritesScalar t d (w64 (leNat (u.bytes q.pa 8)))) ∧
      (s.translate (s.who s.tid) at_.toNat 8 .store = (.ok q, u) → Completes (.stD d m im) s fun t =>
        ∃ z, counted z ∧ z.Stores t q.pa (leBytes 8 (s.sr d).toNat) false)

/-! ## Scheduling, replays and the context engine -/

/-- 18 R378 to R387; 19 R392, R394 to R399: a free thread is given the iteration R385 grants it, with the registers of R382; a set-aside context is resumed from its image; the end of a slice
lets the context run on, marks where it is cut, or sets it aside and gives the thread on; the watchdog ends the context; a replay record resumes the context it fits, is held for its
condition, or is ignored and counted; a record that waited is posted when there is room, one to the owner once there is one (20 R416). That a dispatch
clears the low bits of ENTRY and TRAPV is log entry 100. -/
def Obligations.Scheduling : Prop :=
  ∀ (s u : State) (part : BitVec 6) (tid : BitVec 9) (cut debt : Nat),
    let n := part.toNat
    let k := tid.toNat
    let t := s.th k
    ((s.isFree k = false → Completes (.iterationDispatch part tid) s fun z => z = s) ∧
     (∀ h prio j e, (s.pair (pairOf k)).part = some n → s.isFree k = true → s.choose n k = some (h, .iter prio j e) → s.pend = [] →
       let r := s.queued ((s.part n).queue prio) j
       Completes (.iterationDispatch part tid) s fun z =>
         let x := z.th k
         x.run = .running ∧ x.pc = w64 (recField r 0 8) &&& ~~~3 ∧ x.sup = false ∧ x.tvb = w64 (recField r 0x10 8) &&& ~~~3 ∧
         (∀ i : Nat, i < 6 → x.s[20 + i]? = some (w64 (lrIndex r e i))) ∧ x.s[26]? = some (w64 (recField r 8 8)) ∧ x.s[27]? = some (w64 e) ∧
         x.s[28]? = some (w64 (s.pair (pairOf k)).idx) ∧ x.s[29]? = some (w64 (k % 2)) ∧ (∀ i : Nat, i < 20 → x.s[i]? = some 0) ∧
         x.vl = 0 ∧ x.rps = 0 ∧ x.fcs = t.fcs &&& 0x1F00 ∧ x.lq = prio ∧ x.lrec = j ∧ x.iter = e ∧ x.q0 = t.q0 ∧ x.tl = t.tl ∧
         z.part n = { (s.part n).noteDispatch prio j e (lrTotal r) with aging := s.granted n k h } ∧
         (∀ m, m ≠ k → z.th m = s.th m) ∧ z.mem = s.mem ∧ z.regs = s.regs)) ∧
    (∀ (h : Nat) (a : Aside) (img : List Host.Cell) (p : Nat), (s.pair (pairOf k)).part = some p → s.isFree k = true → s.choose p k = some (h, .aside a) →
      s.readImage k p false (s.slotOf p k) = (.ok img, u) → Completes (.setAsideResume tid) s fun z =>
        (z.th k).run = .running ∧ (z.th k).pc = imgW img 0x140 ∧ (∀ i : Nat, i < 32 → (z.th k).s[i]? = some (imgW img (0x40 + 8 * i))) ∧ (z.th k).tl = t.tl ∧
        (z.part p).aside = (s.part p).aside.filter (fun o => o != a) ∧ (z.part p).aging = s.granted p k h) ∧
    (∀ p, (s.pair (pairOf k)).part = some p → t.run = .running → t.ceHalted = false → s.running k = none → s.halting k = false → s.kept k = false →
      (s.callsAside p k = false → bits (s.part p).cesav 51 12 ≠ 0 → Completes (.timeSliceEnd tid cut debt) s fun z =>
        z = s.setTh k { t with noFetch := false, cut := 0, debt := t.debt + debt - (s.part p).slice }) ∧
      (s.callsAside p k = true → cut ≠ 0 → t.noFetch = false → Completes (.timeSliceEnd tid cut debt) s fun z => z = s.setTh k { t with cut := cut }) ∧
      (s.callsAside p k = true → cut = 0 → s.pend = [] → s.acked k = true → ∀ (size : Nat) (y z : State),
        let q := (s.squash k).setTh k { (s.squash k).th k with debt := t.debt + debt, noFetch := false }
        q.saveImage k p false (q.slotOf p k) false false = .done size y →
        let y := y.dropTileLeave k
        ((y.setTh k { y.th k with run := .free, debt := 0 }).setHeld k 0).grantNext p k = some z →
        Completes (.timeSliceEnd tid cut debt) s fun v => v = z.setPart p { z.part p with
          aside := (z.part p).aside ++ [⟨k, (q.th k).lq, q.held k, false, (q.th k).fseq, (q.th k).fOwner, (q.th k).tile, (q.th k).recs⟩] })) ∧
    ((s.watched k = none → Completes (.watchdogExpire tid) s fun z => z = s) ∧
     (∀ value, s.watched k = some (none, value) → t.vq = [] → Completes (.watchdogExpire tid) s fun z =>
       (z.th k).run = .free ∧ (z.th k).s = t.s ∧ (z.th k).q0 = t.q0 ∧ (z.th k).tl = t.tl ∧ z.held k = 0 ∧ z.regs = s.regs)) ∧
    (∀ (own : Bool) (cap rcap : Nat),
      let base := s.fqBase own n
      let head := leNat (s.bytes (base + 0x20) 8)
      let r := s.bytes (base + 0x40 + cap * 64 + head % rcap * 32) 32
      let fq := if own then s.ownerFq else (s.part n).fq
      let p := if own then recField r 3 1 else n
      let who (l : Nat) : Nat := 2 * l + recField r 2 1
      let taken : State := (s.fqCaps own n).2.2.sysWrite (base + 0x20) (leBytes 8 (head + 1))
      (if own then base ≠ 0 else (s.part n).mode ≠ .inactive) →
      (head = leNat (s.bytes (base + 0x28) 8) → Completes (.replayCommand own part) s fun z => z = s) ∧
      (head ≠ leNat (s.bytes (base + 0x28) 8) → fq.cap = some cap → fq.rcap = some rcap → 1 ≤ cap → cap ≤ 2 ^ 20 → 1 ≤ rcap → rcap ≤ 2 ^ 20 →
        (taken.replayBad own p r = true → Completes (.replayCommand own part) s fun z => z = taken.bump (base + 0x30)) ∧
        (∀ l, taken.replayBad own p r = false → recField r 4 1 = 0 → taken.pairAt p (recField r 1 1) = some l →
          let x := taken.th (who l)
          x.replay = none → x.run = .suspended ∨ x.run = .stopped → x.toPost = [] → x.fOwner = own → x.fseq = recField r 0x18 8 → x.ceHalted = false →
          Completes (.replayCommand own part) s fun z => z = taken.setTh (who l) { x with run := .running, replay := none }) ∧
        (∀ l, taken.replayBad own p r = false → recField r 4 1 = 1 → taken.pairAt p (recField r 1 1) = some l →
          let x := taken.th (who l)
          let nm := w64 (recField r 8 8)
          let num := w64 (recField r 0x10 8)
          x.replay = none → x.run = .suspended ∨ x.run = .stopped → x.toPost = [] → x.fOwner = own → x.fseq = recField r 0x18 8 → x.ceHalted = false →
          (taken.reached p nm num.toNat = true → Completes (.replayCommand own part) s fun z =>
            z = taken.setTh (who l) { x with run := .running, replay := none }) ∧
          (taken.reached p nm num.toNat = false → Completes (.replayCommand own part) s fun z =>
            z = taken.setTh (who l) { x with replay := some ⟨some (nm, num), recField r 0x18 8, own⟩ })))) ∧
    (∀ (rp : Replay) (nm num : Word) (p : Nat), t.replay = some rp → (s.pair (pairOf k)).part = some p → rp.cond = some (nm, num) →
      (s.reached p nm num.toNat = false → Completes (.replayConditionMet tid) s fun z => z = s) ∧
      (s.reached p nm num.toNat = true → t.run = .suspended ∨ t.run = .stopped → t.toPost = [] → t.fOwner = rp.ownerQ → t.fseq = rp.token →
        t.ceHalted = false → Completes (.replayConditionMet tid) s fun z => z = s.setTh k { t with run := .running, replay := none })) ∧
    let waits : Prop := Completes (.deferredFaultPost tid) s fun z => z.th k = t ∧ (∀ m, m ≠ k → z.th m = s.th m) ∧ z.mem = s.mem
    (t.toPost = [] → waits) ∧
    ∀ r : FaultRec, t.toPost = [r] → r.kind ∈ [1, 4, 5] →
      (∀ cap tail, s.QueueRoom r.ownerQ r.part cap tail → Completes (.deferredFaultPost tid) s fun z =>
        s.Posted z r cap tail ∧ z.th k = { t with toPost := [], fseq := tail + 1, fOwner := r.ownerQ }) ∧
      (∀ cap, s.QueueFull r.ownerQ r.part cap → waits) ∧ (r.ownerQ = true → s.owState = 0 → waits)

/-- 19 R400 to R404; 05 R145: a command whose preconditions do not hold, and a reserved one, is refused with STAT 1, and a busy slot takes none; otherwise it starts, a halt stopping the front end (where an
instruction in progress is cut is free, log entry 91), and when it is done: halt leaves the context halted with its registers, save and its repetition leave the image and its size, restore the image's registers, resume lets the context run, abandon frees the thread, and
the walker's block is written or read. -/
def Obligations.ContextEngine : Prop :=
  ∀ (s u : State) (slot : BitVec 3) (ctl : Word),
    let n := slot.toNat
    let x := s.ceSlot n
    let asked (op : Nat) : Word := setBits (setBits ctl 35 32 op) 42 42 1
    let starts (i : Instr) (op : Nat) : Prop :=
      (x.busy = true → Completes i s fun t => t = s) ∧
      -- a command that names a context ends the save that a map may rest on (20 R420)
      let v := s.ceNamed (asked op)
      (x.busy = false → v.ceReady (asked op) = false → Completes i s fun t =>
        t = v.setCe n { x with ctl := ctlKeep (asked op), busy := false, stat := 1, res := 0 }) ∧
      (x.busy = false → v.ceReady (asked op) = true → s.cmds = [] → Completes i s fun t =>
        let y := v.setCe n { x with ctl := ctlKeep (asked op), busy := true, stat := 0, res := 0 }
        t = match v.ceThread (asked op) with
          | some tid =>
            if op = 1 then { y with freeCtr := v.freeCtr + 1 }.setTh tid { v.th tid with noFetch := true, cut := (t.th tid).cut } else y
          | none => y)
    starts (.contextHalt slot ctl) 1 ∧ starts (.contextSave slot ctl) 2 ∧ starts (.contextRestore slot ctl) 3 ∧ starts (.contextResume slot ctl) 4 ∧
    starts (.ctxRetry slot ctl) 5 ∧ starts (.abandon slot ctl) 6 ∧ starts (.exportWalker slot ctl) 7 ∧ starts (.importWalker slot ctl) 8 ∧
    (x.busy = true → Completes (.contextEngineReserved slot ctl) s fun t => t = s) ∧
    (x.busy = false → Completes (.contextEngineReserved slot ctl) s fun t => (t.ceSlot n).stat = 1 ∧ (t.ceSlot n).busy = false ∧
      (∀ k, t.th k = s.th k ∨ t.th k = { s.th k with fullSave := false }) ∧ t.mem = s.mem) ∧
    (x.busy = false → Completes (.contextEngineDone slot) s fun t => t = s) ∧
    (x.busy = true →
      let c := x.ctl
      let p := ctlPart c
      let op := ctlOp c
      let done (t : State) (stat : Nat) (res : Word) : Prop := t.ceSlot n = { x with busy := false, stat := stat, res := res }
      (s.ceReady c = false → Completes (.contextEngineDone slot) s fun t => t = s.setCe n { x with busy := false, stat := 1, res := 0 }) ∧
      (s.ceReady c = true → ∀ tid, s.ceThread c = some tid →
        let y := s.th tid
        (op = 1 → (∀ o ∈ s.cmds, o.tid ≠ tid) → s.kept tid = false → y.vq = [] → s.pend = [] → s.acked tid = true → Completes (.contextEngineDone slot) s fun t =>
          done t 0 0 ∧ (t.th tid).ceHalted = true ∧ (t.th tid).noFetch = false ∧ (t.th tid).s = y.s ∧ (t.th tid).pc = y.pc ∧ (t.th tid).run = y.run ∧
          t.mem = s.mem ∧ t.regs = s.regs ∧ ∀ k, k ≠ tid → t.th k = s.th k) ∧
        (op = 2 → ∀ size, s.saveImage tid p (ctlSpa c) x.addr.toNat (ctlPrt c) (ctlScr c) = .done size u → Completes (.contextEngineDone slot) s fun t =>
          done t 0 (w64 size) ∧ t.mem = u.mem ∧ (t.th tid).refused = none ∧ ∀ k, k ≠ tid → t.th k = u.th k) ∧
        (op = 3 → ∀ img, s.readImage tid p (ctlSpa c) x.addr.toNat = (.ok img, u) → Completes (.contextEngineDone slot) s fun t =>
          done t 0 0 ∧ (t.th tid).ceHalted = true ∧ (t.th tid).pc = imgW img 0x140 ∧ (∀ i : Nat, i < 32 → (t.th tid).s[i]? = some (imgW img (0x40 + 8 * i))) ∧
          t.held tid = imgHeld img ∧ ∀ k, k ≠ tid → t.th k = s.th k) ∧
        (op = 4 → y.run = .suspended → y.toPost = [] → y.replay = none → Completes (.contextEngineDone slot) s fun t =>
          done t 0 0 ∧ (t.th tid).run = .running ∧ (t.th tid).ceHalted = false ∧ (t.th tid).pc = y.pc ∧ (t.th tid).s = y.s ∧ t.mem = s.mem) ∧
        (op = 5 → y.refAside = false → ∀ addr k size, y.refused = some (addr, k) →
          s.saveImage tid (ctlPart (setBits k 35 32 2)) (ctlSpa (setBits k 35 32 2)) addr.toNat (ctlPrt (setBits k 35 32 2)) (ctlScr (setBits k 35 32 2)) =
            .done size u → Completes (.contextEngineDone slot) s fun t => done t 0 (w64 size) ∧ t.mem = u.mem ∧ (t.th tid).refused = none) ∧
        (op = 6 → Completes (.contextEngineDone slot) s fun t =>
          done t 0 0 ∧ (t.th tid).run = .free ∧ t.held tid = 0 ∧ (y.replay = none → t.mem = s.mem) ∧ ∀ k, k ≠ tid → t.th k = s.th k)) ∧
      (s.ceReady c = true → ∀ pas,
        (op = 7 → s.imageRange p (ctlSpa c) x.addr.toNat 0x8000 true = (.ok pas, u) → Completes (.contextEngineDone slot) s fun t =>
          t = (u.putImagePages pas (s.part p).walkerBlock).setCe n { x with busy := false, stat := 0, res := 0 }) ∧
        (op = 8 → s.imageRange p (ctlSpa c) x.addr.toNat 0x8000 false = (.ok pas, u) → u.memLost = [] →
          let img := u.getImagePages pas
          wkBad (u.part p) img = false → Completes (.contextEngineDone slot) s fun t =>
            done t 0 0 ∧ t.mem = u.mem ∧ ∀ prio : Nat, prio < 4 →
              ((t.part p).queue prio).head = imgN img (prio * 0x2000) 8 ∧ ((t.part p).queue prio).tail = imgN img (prio * 0x2000 + 8) 8)))

/-! ## Requests from outside -/

/-- 01 R31 to R33; 18 R368, R370, R371; 20 R407, R408, R411: an inbound request is answered when an entry of its table, the owner's right to write and the map allow it, and refused otherwise; a matched
request packet is appended to its partition's launch queue, and one that does not match is counted; other frames go to the owner's firmware. Which
frames carry a datagram, and that fragments wait for each other, is the model's reading (log entry 96); that a management master is held to no SRC is log entry 89. -/
def Obligations.InboundRequests : Prop :=
  ∀ (s : State) (port : BitVec 1) (rp : BitVec 2) (off len : Nat) (data : List Byte) (relaxed : Bool) (src : BitVec 7) (addr : BitVec 44)
    (e : InEntry) (op : AtomicOp) (v : Word),
    let answered (y t : State) (ok : Bool) (bs : List Byte) : Prop := t = { y with out := .completion ok bs :: y.out }
    let calm (a n : Nat) : Prop := s.rangeMoves a n = false ∧ s.boardWaits a n s.wseq = false
    let inMap (n : Nat) : Prop := off < 2 ^ 40 ∧ s.region off ≠ .hole ∧ s.region (off + n - 1) ≠ .hole
    let admitted (n : Nat) (req : InReq) : Prop :=
      inMap n ∧ s.findEntry 0x20000 off (fun x => x.testBit port.toNat) = some e ∧ e.allows off req = true ∧ e.dpart.testBit 7 = false
    let owns : Prop := s.isOwner port.toNat = true
    let inBlock (n : Nat) : Prop := off < 2 ^ 32 ∧ apertureBlock off = true ∧ apertureBlock (off + n - 1) = true
    let claiming : Prop := 0x138 ≤ off ∧ off + data.length ≤ 0x140
    s.bootPhase ≠ 4 → s.memLost = [] → s.inq = [] →
    -- the memory BAR
    (admitted len (.read len) → calm off len → Completes (.hostInboundRead port true off len) s fun t => answered s t true (s.bytes off len)) ∧
    (admitted data.length (.write data relaxed) →
      (owns → calm off data.length → Completes (.hostInboundWrite port true off data relaxed) s fun t => t = s.putBytes off data) ∧
      (owns → ¬ calm off data.length → Completes (.hostInboundWrite port true off data relaxed) s fun t =>
        t = { s with inq := [⟨port.toNat, relaxed, .mem off (.write data relaxed) false []⟩] }) ∧
      (¬ owns → Completes (.hostInboundWrite port true off data relaxed) s fun t => t = s.logError 1 port.toNat off 1)) ∧
    (admitted 8 (.atomic .add true v) → owns → calm off 8 → off % 8 = 0 → Completes (.hostInboundAtomic port true off (.atomic .add true v)) s fun t =>
      answered (s.putBytes off (leBytes 8 (atomicApply .add 64 (leNat (s.bytes off 8)) v.toNat))) t true (s.bytes off 8)) ∧
    (s.findEntry 0x20000 off (fun x => x.testBit port.toNat) = none →
      (Completes (.hostInboundRead port true off len) s fun t => answered s t false []) ∧
      (Completes (.hostInboundWrite port true off data relaxed) s fun t => t = s.logError 1 port.toNat off 1)) ∧
    (op ≠ .add → op ≠ .swap → Completes (.hostInboundAtomic port true off (.atomic op true v)) s fun t => answered s t false []) ∧
    -- the register BAR
    (inBlock len → isWindow off = false →
      (owns ∨ off + len ≤ 0x10000000 → Completes (.hostInboundRead port false off len) s fun t => answered s t true (s.apRead port.toNat off len)) ∧
      (¬ owns → 0x10000000 < off + len → Completes (.hostInboundRead port false off len) s fun t => answered s t false [])) ∧
    (inBlock len → isWindow off = true → Completes (.hostInboundRead port false off len) s fun t => answered s t true (List.replicate len 0)) ∧
    (inBlock data.length → isWindow off = false →
      (owns ∨ claiming → Completes (.hostInboundWrite port false off data relaxed) s fun t => t = s.apWrite port.toNat off data) ∧
      (¬ owns → ¬ claiming → Completes (.hostInboundWrite port false off data relaxed) s fun t => t = s.logError 1 port.toNat (apertureBase + off) 1)) ∧
    -- management masters
    (∀ (net : Bool) (a : BitVec 52), (net = true → s.mgport ≠ 0) →
      let m := if net then 3 else 2
      let y := { s with pathFail := s.pathFail && s.owner.toNat != m }
      (a.toNat = apertureBase + off → inBlock len → isWindow off = false → y.isOwner m = true ∨ off + len ≤ 0x10000000 →
        Completes (.mctpMessage net a (.read len)) s fun t => answered y t true (y.apRead m off len)) ∧
      -- whatever the entry's SRC (log entry 89)
      (a.toNat = off → inMap len → s.findEntry 0x20000 off (fun _ => true) = some e → e.allows off (.read len) = true → calm off len →
        Completes (.mctpMessage net a (.read len)) s fun t => answered y t true (y.bytes off len))) ∧
    (∀ a req, s.mgport = 0 → Completes (.mctpMessage true a req) s fun t => t = s) ∧
    -- peers
    (let a := addr.toNat
     let found := s.findEntry 0x10000 a fun x => x == 0 || x == src.toNat
     (s.devn ≠ 0 → found = some e → e.allows a (.read len) = true → s.peerReach a = true → s.region (a + len - 1) = s.region a → calm a len →
       Completes (.peerInboundRequest src s.devn addr (.read len)) s fun t => answered s t true (s.bytes a len)) ∧
     (s.devn ≠ 0 → found = some e → e.allows a (.write data relaxed) = true → e.dpart.testBit 7 = false → s.peerReach a = true →
       s.region (a + data.length - 1) = s.region a → calm a data.length →
       Completes (.peerInboundRequest src s.devn addr (.write data relaxed)) s fun t => answered (s.putBytes a data) t true []) ∧
     (found = none → Completes (.peerInboundRequest src s.devn addr (.read len)) s fun t => answered s t false [])) ∧
    -- root ports
    (let r := (s.rpa[rp.toNat]?).getD 0
     let part := bits r 5 0
     (r.getLsbD 8 = false → Completes (.rootPortInbound rp v (.read len)) s fun t => answered s t false []) ∧
     (∀ l : Leaf, r.getLsbD 8 = true → (s.part part).mode ≠ .inactive → 0 < len → v.toNat % 4096 + len ≤ 4096 → stage2 s noDie part v.toNat = .ok l → l.pte.r = true →
       kindOk l.pte.kind (s.region l.addr) = true → (s.region l.addr).isLocal = true → s.inMotion l.addr = false → Completes (.rootPortInbound rp v (.read len)) s fun t =>
         let y := s.setPte l.at_ true false
         answered y t true (y.bytes l.addr len))) ∧
    -- packets and frames
    (∀ eth : BitVec 3,
      let packet (bs : List Byte) (sums : Bool) : Instr := .requestPacket (.ethernet eth) 0 bs sums
      let dropped (t : State) : Prop := t = { s with rqdrop := w64 (Nat.min (s.rqdrop.toNat + 1) (2 ^ 64 - 1)) }
      let at_ := 0x80000 + recField data 0 4 % 4096 * 32
      let f := cellsGet s.ctl at_ 32
      let p := recField f 5 1 % 64
      let r := data.drop 16
      let prio := Nat.min (Nat.min (lrPrio r) (recField f 6 1 % 4)) (s.part p).prio
      let q := (s.part p).queue prio
      let slot := q.base.toNat + q.tail % Nat.max 1 q.cap * 128
      let fits : Prop := (recField f 4 1).testBit 7 = true ∧ recField f 0 4 = recField data 0 4 ∧ (recField f 4 1).testBit 0 = true ∧ recField data 4 1 = 1
      (s.rqport = 0 → Completes (packet data true) s fun t => t = s) ∧
      (s.rqport ≠ 0 → data.length ≠ 144 → Completes (packet data true) s dropped) ∧
      (s.rqport ≠ 0 → Completes (packet data false) s dropped) ∧
      (s.rqport ≠ 0 → data.length = 144 → ¬ fits → Completes (packet data true) s dropped) ∧
      (s.rqport ≠ 0 → data.length = 144 → fits → recZero data 5 11 = true → lrBad (s.pairCount p) r = false → (s.part p).mode = .active → q.cap ≠ 0 →
        q.tail - q.head ≠ q.cap → (s.region slot).isLocal = true → Completes (packet data true) s fun t =>
          t = ((s.ctlBump (at_ + 8)).putBytes slot (r.take 0x19 ++ leBytes 1 prio ++ r.drop 0x1A)).setPart p
            ((s.part p).setQueue prio { q with tail := q.tail + 1 })) ∧
      (s.rqport ≠ 0 → data.length = 144 → fits → (s.part p).mode ≠ .active → Completes (packet data true) s fun t => t = s.ctlBump (at_ + 0x10)) ∧
      let framed (t : State) : Prop := t = { s with frames := s.frames ++ [(eth.toNat, data)] }
      ((ipPart data).bind IpPart.frag = none → udpFrame data = none → Completes (.ethernetFrame eth data) s framed) ∧
      (∀ d, udpFrame data = some d →
        (s.rqport = 0 ∨ d.port ≠ s.rqport.toNat → Completes (.ethernetFrame eth data) s framed) ∧
        (s.rqport ≠ 0 → d.port = s.rqport.toNat → Completes (.ethernetFrame eth data) s fun t => exec (packet d.payload d.sumsOk) s = .next t)) ∧
      -- a fragment waits for the others of its datagram, which then goes the same way
      (∀ f, (ipPart data).bind IpPart.frag = some f →
        let mine (g : Nat × List Byte) : Bool := ((ipPart g.2).bind IpPart.frag).any fun o => o.1 == f.1
        let all := s.frags ++ [(eth.toNat, data)]
        let same := all.filter mine
        let rest := all.filter fun g => !mine g
        (assemble (same.filterMap fun g => ipPart g.2) = none → Completes (.ethernetFrame eth data) s fun t => t = { s with frags := rest ++ same }) ∧
        ∀ q d, assemble (same.filterMap fun g => ipPart g.2) = some q → q.udp = some d → s.rqport ≠ 0 → d.port = s.rqport.toNat →
          Completes (.ethernetFrame eth data) s fun t => exec (packet d.payload d.sumsOk) { s with frags := rest } = .next t))

/-- 20 R411, R414 to R416: claim, offer and accept are taken under the conditions of R415 and refused otherwise, and in recovery dropped; a claim posts the records that waited for an owner; a pending accept
completes once nothing is busy or is refused after its time; an offer lapses; a lost path vacates the ownership, and is logged. -/
def Obligations.Ownership : Prop :=
  ∀ (s : State) (m : BitVec 2) (tgt : BitVec 3) (port : BitVec 1),
    let k := m.toNat
    let old := s.oclmOf k
    let result (y : State) (cmd : BitVec 2) (t : BitVec 3) (res : BitVec 3) : State := { y with oclm := y.oclm.setIfInBounds k ⟨cmd, t, res⟩ }
    let target := s.offerTgt.toNat
    let waiting := s.oclmOf target
    let settled (y : State) (res : BitVec 3) : State :=
      { y with acceptWait := false, owState := 1, oclm := s.oclm.setIfInBounds target ⟨waiting.cmd, waiting.tgt, res⟩ }
    let may : Prop := s.bootPhase = 3 ∧ s.owState = 0 ∧ s.elig.getLsbD k = true
    (s.bootPhase = 4 → ∀ i ∈ [Instr.claim m, .offer m tgt, .accept m], Completes i s fun t => t = s) ∧
    (may → s.ownerWait = [] → Completes (.claim m) s fun t => t = result { s with owner := m.zeroExtend 3, owState := 1 } 1 old.tgt 0) ∧
    (∀ r cap tail, let y : State := { s with owner := m.zeroExtend 3, owState := 1, ownerWait := [] }
      may → s.ownerWait = [r] → r.ownerQ = true → y.QueueRoom true r.part cap tail → Completes (.claim m) s fun t =>
        y.Posted t r cap tail ∧ t.ownerWait = [] ∧ t.owner = m.zeroExtend 3 ∧ t.owState = 1 ∧ t.threads = s.threads) ∧
    (s.bootPhase ≠ 4 → ¬ may → Completes (.claim m) s fun t => t = result s 1 old.tgt 1) ∧
    (s.bootPhase ≠ 4 → s.isOwner k = true → s.acceptWait = false →
      (tgt = m.zeroExtend 3 → Completes (.offer m tgt) s fun t => t = result { s with owState := 1 } 2 tgt 0) ∧
      (tgt ≠ m.zeroExtend 3 → s.owState = 1 → s.eligible tgt.toNat = true → Completes (.offer m tgt) s fun t =>
        t = result { s with owState := 2, offerTgt := tgt } 2 tgt 0) ∧
      (tgt ≠ m.zeroExtend 3 → s.owState ≠ 1 ∨ s.eligible tgt.toNat = false → Completes (.offer m tgt) s fun t => t = result s 2 tgt 1)) ∧
    (s.bootPhase ≠ 4 → s.isOwner k = false → Completes (.offer m tgt) s fun t => t = result s 2 tgt 1) ∧
    (s.bootPhase ≠ 4 → s.owState = 2 → target = k → Completes (.accept m) s fun t => t = result { s with acceptWait := true } 3 old.tgt 2) ∧
    (s.bootPhase ≠ 4 → s.owState ≠ 2 ∨ target ≠ k → Completes (.accept m) s fun t => t = result s 3 old.tgt 1) ∧
    (s.acceptWait = true →
      (s.anyBusy = false → Completes .acceptComplete s (fun t => t = settled { s with owner := s.offerTgt, pathFail := false } 0) ∧
        Completes .acceptTimeout s fun t => t = s) ∧
      (s.anyBusy = true → Completes .acceptComplete s (fun t => t = s) ∧ Completes .acceptTimeout s fun t => t = settled s 1) ∧
      Completes .offerLapse s fun t => t = s) ∧
    (s.acceptWait = false → Completes .acceptComplete s (fun t => t = s) ∧ Completes .acceptTimeout s (fun t => t = s) ∧
      (s.owState = 2 → Completes .offerLapse s fun t => t = { s with owState := 1 })) ∧
    (s.owState = 0 → Completes .ownerPathFailure s fun t => t = s) ∧
    (s.owState ≠ 0 → Completes .ownerPathFailure s fun t => t = { s with
      pathFail := true, dllUp := if s.owner.toNat < 2 then s.dllUp.setIfInBounds s.owner.toNat false else s.dllUp }) ∧
    (s.pathFail = true → s.acceptWait = false → Completes .ownerLost s fun t =>
      t = State.logError { s with owState := 0, owner := 7, pathFail := false } 6 s.owner.toNat 0 1) ∧
    (s.pathFail = false → Completes .ownerLost s fun t => t = s) ∧
    Completes (.dataLinkLayerUp port) s fun t => t = { s with
      dllUp := s.dllUp.setIfInBounds port.toNat true, pathFail := s.pathFail && s.owner.toNat != port.toNat }

/-- 01 R33; 04 R108; 20 R409, R421: a link that goes down refuses the requests handed to it and not answered, and drops the writes in flight over it, each logged; a completion gives its request the data or the refusal;
a link request without completion is refused; a lane fault brings in the port's spare lane once, and is logged; a posted write of a thread's instruction that is refused is reported by a
record of kind 3, whose CAUSE, address and program counter are the model's reading (log entry 28). -/
def Obligations.Links : Prop :=
  ∀ (s : State) (port : BitVec 4) (tid : BitVec 10) (k : Nat) (data : List Byte) (o : OutReq),
    let p := port.toNat
    let via (o : OutReq) : Bool := o.link == some p
    let isIt (o : OutReq) : Bool := o.tid == tid.toNat && o.k == k
    let replied (test : OutReq → Bool) (r : Reply) : List OutReq := s.obs.map fun o => if test o then { o with reply := r } else o
    (s.obs.all (fun o => !(via o && o.posted)) = true → Completes (.linkDown port) s fun t =>
      t = { s with linkUp := s.linkUp.setIfInBounds p false, obs := replied (fun o => via o && o.reply == .none) .refused }) ∧
    Completes (.linkDown port) s (fun t => t.linkUp = s.linkUp.setIfInBounds p false ∧ ∀ o ∈ t.obs, via o = true → o.posted = false ∧ o.reply ≠ .none) ∧
    (s.obs = [o] → via o = true → o.posted = true → o.share = false → Completes (.linkDown port) s fun t =>
      t = State.logError { s with linkUp := s.linkUp.setIfInBounds p false, obs := [] } 7 p o.addr 1) ∧
    Completes (.linkUp port) s (fun t => t = { s with linkUp := s.linkUp.setIfInBounds p true }) ∧
    (s.spares.contains (p, 0) = false → Completes (.linkLaneFault port true) s fun t => t = State.logError { s with spares := s.spares ++ [(p, 0)] } 4 p 0 1) ∧
    Completes (.linkLaneFault port false) s (fun t => t = State.logError { s with spares := s.spares ++ [(p, 1)] } 5 p 0 1) ∧
    Completes (.completionTimeout tid k) s (fun t =>
      t = { s with obs := replied (fun o => isIt o && !o.posted && o.reply == .none && o.link.isSome) .refused }) ∧
    (s.obs.find? isIt = none → Completes (.outboundCompletion tid k false data) s fun t => t = s) ∧
    (s.obs.find? isIt = some o → o.posted = false → o.reply = .none →
      Completes (.outboundCompletion tid k false data) s (fun t => t = { s with obs := replied isIt (.data data) }) ∧
      Completes (.outboundCompletion tid k true data) s fun t => t = { s with obs := replied isIt .refused }) ∧
    (s.obs.find? isIt = some o → o.posted = true →
      Completes (.outboundCompletion tid k false data) s (fun t => t = { s with obs := s.obs.filter fun o => !isIt o }) ∧
      (o.cmd.isSome → Completes (.outboundCompletion tid k true data) s fun t => t = { s with obs := s.obs.filter fun o => !isIt o }) ∧
      ∀ cap tail, tid.toNat < 512 → o.cmd = none → s.QueueRoom false ((s.pair (pairOf tid.toNat)).part.getD 0) cap tail →
        Completes (.outboundCompletion tid k true data) s fun t =>
          s.Posted t { s.recFor tid.toNat false 3 with acc := o.acc, value := w64 o.addr, va := o.va, pc := o.pc } cap tail)

/-- 20 R411 to R413, R418 to R421; 00 R7; 01 R15: reset and the moves of boot run each stage from flash, copy A first, or enter recovery; a recovery image that passes runs as the stage that failed; attestation signs the report; the governor grants its oldest request
when the budget allows; soft errors, scrubbing, spares and the maps of lanes and slots; and a register write by the owner. The moves of boot are log entry 93, and that a soft error names an
entry of a cache by its place is the model's choice (log entry 94). -/
def Obligations.ModuleEvents : Prop :=
  ∀ (s : State) (die : BitVec 3) (slot : BitVec 5) (lane : BitVec 6) (v : Byte) (a x : Word) (off : BitVec 32),
    let d := die.toNat
    let y := s.die d
    -- boot
    (let im (j : Nat) : List Byte := (s.flash.images[j]?).getD []
     let err (stage copy : Nat) : Nat := s.flash.check stage (im (2 * (stage - 1) + copy))
     let ok (stage : Nat) : Bool := err stage 0 == 0 || err stage 1 == 0
     let copy (stage : Nat) : Nat := if err stage 0 = 0 then 0 else 1
     let fails (stage : Nat) (t : State) : Prop := t.bootPhase = 4 ∧ t.failedStage = stage ∧ t.bootErr = BitVec.ofNat 8 (err stage 1) ∧ t.mem = s.mem
     let boots (z : State → Prop) : Prop := s.agenda = [.boot] → ∃ t, step s = .next t ∧ t.agenda = [] ∧ t.threads = s.threads ∧ z t
     Completes .moduleReset s (fun t =>
       t.owState = 0 ∧ t.owner = 7 ∧ t.threads = [] ∧ t.parts = [] ∧ t.flash = s.flash ∧
       (ok 1 = true → t.bootPhase = 1 ∧ t.failedStage = 0 ∧ t.bootCopy = BitVec.ofNat 1 (copy 1) ∧ t.svn1 = BitVec.ofNat 32 (recField (im (copy 1)) 8 4)) ∧
       (ok 1 = false → fails 1 t)) ∧
     (s.bootPhase = 1 → boots fun t =>
       (ok 2 = true → t.bootPhase = 2 ∧ t.bootCopy = BitVec.ofNat 1 (copy 2) ∧ t.elig = s.flash.elig ∧ t.svn2 = BitVec.ofNat 32 (recField (im (2 + copy 2)) 8 4)) ∧
       (ok 2 = false → fails 2 t)) ∧
     (s.bootPhase = 2 → boots fun t => t = { s with agenda := [], bootPhase := 3 }) ∧
     (let e := s.flash.check s.failedStage s.recoveryImage
      (s.bootPhase ≠ 4 → Completes .recoveryVerify s fun t => t = s) ∧
      (s.bootPhase = 4 → Completes .recoveryVerify s fun t => t.threads = s.threads ∧
        (e ≠ 0 → t = { s with bootErr := BitVec.ofNat 8 e }) ∧
        (e = 0 → s.failedStage = 1 → t.bootPhase = 1 ∧ t.failedStage = 0 ∧ t.svn1 = BitVec.ofNat 32 (recField s.recoveryImage 8 4)) ∧
        (e = 0 → s.failedStage = 2 → t.bootPhase = 2 ∧ t.failedStage = 0 ∧ t.svn2 = BitVec.ofNat 32 (recField s.recoveryImage 8 4) ∧ t.elig = s.flash.elig)))) ∧
    (s.owState = 0 → Completes .attestationRequest s fun t => t = s) ∧
    (s.atctl.getLsbD 1 = false → (s.owState ≠ 0 → Completes .attestationRequest s fun t => t = { s with atctl := 2 }) ∧ Completes .attestationDone s fun t => t = s) ∧
    (s.atctl.getLsbD 1 = true → Completes .attestationRequest s (fun t => t = s) ∧ Completes .attestationDone s fun t =>
      ∃ r : List Byte,
        t = { s with atctl := 0, freeCtr := s.freeCtr + 2, report := s.reportHead ++ identity.sign r s.reportHead }) ∧
    -- power
    (y.waiting = [] → Completes (.powerLeaveGrant die) s fun t => t = s) ∧
    (∀ r rest, y.waiting = r :: rest →
      (y.used ≠ 0 → s.budget d < y.used + r.weight → Completes (.powerLeaveGrant die) s fun t => t = s) ∧
      (y.used = 0 ∨ y.used + r.weight ≤ s.budget d → Completes (.powerLeaveGrant die) s fun t =>
        t.die d = { y with waiting := rest, granted := y.granted ++ [r] } ∧ (r.waited = false → ∀ l, t.pair l = s.pair l) ∧ t.mem = s.mem ∧ (∀ j, j ≠ r.tid → t.th j = s.th j) ∧
        t.th r.tid = if r.tile then { s.th r.tid with leave := true, leaveAsked := false } else s.th r.tid)) ∧
    Completes .powerInputOverlimit s (fun t => t = { s with overPower := true } ∧ t.budget d = (s.die d).budget / 2) ∧
    Completes .powerInputRecovered s (fun t => t = { s with overPower := false } ∧ t.budget d = (s.die d).budget) ∧
    -- soft errors and spares
    ((s.region a.toNat).isLocal = true →
      Completes (.softError (.mem a.toNat true)) s (fun t => t = s.logError 2 (s.unitOf a.toNat) (a.toNat / 8 * 8) 1) ∧
      Completes (.softError (.mem a.toNat false)) s fun t => t.lostIn a.toNat 1 = true ∧ t.mem = s.mem ∧ t.threads = s.threads) ∧
    (∀ k : Nat, Completes (.softError (.l1 k)) s (fun t => t = { s with tlb1 := s.tlb1.eraseIdx k }) ∧
      Completes (.softError (.l2 k)) s (fun t => t = { s with tlb := s.tlb.eraseIdx k }) ∧
      Completes (.softError (.walkCache k)) s fun t => t = { s with wcache := s.wcache.eraseIdx k }) ∧
    Completes .patrolScrub s (fun t => t.memLost.length ≤ s.memLost.length ∧ t.threads = s.threads ∧ (s.memLost = [] → t = s)) ∧
    (∀ w, s.memLost = [w] → Completes .patrolScrub s fun t => t = s.logError 3 (s.unitOf w) w 1) ∧
    Completes (.spareRowReplace v a) s (fun t => t = State.logError { s with spares := s.spares ++ [(16 + v.toNat, a.toNat)] } 4 v.toNat a.toNat 1) ∧
    (let l := d * 32 + slot.toNat
     let free : Prop := (s.th (2 * l)).run = .free ∧ (s.th (2 * l + 1)).run = .free
     (35 < v.toNat ∨ y.spare.toList.any (fun b => b == v) = true → Completes (.spareMapWrite die slot v) s fun t => t = s) ∧
     (free → v.toNat ≤ 35 → y.spare.toList.any (fun b => b == v) = false → Completes (.spareMapWrite die slot v) s fun t =>
       t.die d = { y with spare := y.spare.setIfInBounds slot.toNat v } ∧ t.physPair l = d * 36 + v.toNat ∧ t.threads = s.threads ∧ t.mem = s.mem) ∧
     (67 < v.toNat ∨ (∃ j < 64, s.physLane l j = v.toNat) → Completes (.laneMapWrite die slot lane v) s fun t => t = s) ∧
     (free → v.toNat ≤ 67 → (∀ j < 64, s.physLane l j ≠ v.toNat) → Completes (.laneMapWrite die slot lane v) s fun t =>
       t.physLane l lane.toNat = v.toNat ∧ (∀ j < 64, j ≠ lane.toNat → t.physLane l j = s.physLane l j) ∧ t.threads = s.threads ∧ t.mem = s.mem ∧ t.regs = s.regs)) ∧
    -- registers
    (let o := off.toNat / 8 * 8
     (s.owState = 0 → Completes (.registerWrite off x) s fun t => t = s) ∧
     (s.owState ≠ 0 →
       (apertureBlock o = false → Completes (.registerWrite off x) s fun t => t = s.logError 1 s.owner.toNat (apertureBase + o) 1) ∧
       (o = 0x100 → Completes (.registerWrite off x) s fun t => t = { s with ptb := x &&& ~~~0xFFF }) ∧
       (o = 0x148 → Completes (.registerWrite off x) s fun t => t = { s with elog := x &&& 0x000FFFFFFFFFF00F }) ∧
       (o = 0x128 → Completes (.registerWrite off x) s fun t => t = { s with rqdrop := x }) ∧
       (o = 0x108 → Completes (.registerWrite off x) s fun t => exec (.partitionQuiesce (BitVec.ofNat 6 (bits x 5 0))) s = .next t ∨ bits x 10 8 ≠ 2) ∧
       (o = 0x10000000 + d * 0x1000000 + 0x7F0000 →
         (100 ≤ bits x 15 0 → bits x 15 0 ≤ 1000 → Completes (.registerWrite off x) s fun t => t = s.setDie d { y with budget := bits x 15 0 }) ∧
         (bits x 15 0 < 100 ∨ 1000 < bits x 15 0 → Completes (.registerWrite off x) s fun t => t = s))))
end

