-- ==== Sys2Proof/Laws/PerInstr.lean ====
section
/-! SUPPORT. Every instruction's word decodes to it: one lemma for each constructor. -/

section

set_option Elab.async false
set_option linter.unusedSimpArgs false

namespace Sys2Proof

/-! ## Fields of a word -/

theorem cat_left {n m : Nat} (k : Nat) (a : BitVec n) (b : BitVec m) (s l : Nat) (h1 : m ≤ s) (h2 : s + l ≤ k) :
    (cat k a b).extractLsb' s l = a.extractLsb' (s - m) l := by
  apply BitVec.eq_of_getLsbD_eq
  intro i hi
  have e : ((a.toNat <<< m) ||| b.toNat).testBit (s + i) = a.toNat.testBit (s - m + i) := by
    have hb : b.toNat.testBit (s + i) = false :=
      Nat.testBit_lt_two_pow (Nat.lt_of_lt_of_le b.isLt (Nat.pow_le_pow_right (by decide) (by omega)))
    rw [Nat.testBit_or, hb, Nat.testBit_shiftLeft, Bool.or_false]
    have : decide (s + i ≥ m) = true := by simp; omega
    rw [this, Bool.true_and]
    congr 1
    omega
  have d : decide (s + i < k) = true := by simp; omega
  simp only [BitVec.getLsbD_extractLsb', cat, BitVec.getLsbD_ofNat, e, d, Bool.true_and]
  rfl

theorem cat_right {n m : Nat} (k : Nat) (a : BitVec n) (b : BitVec m) (s l : Nat) (h1 : s + l ≤ m) (h2 : s + l ≤ k) :
    (cat k a b).extractLsb' s l = b.extractLsb' s l := by
  apply BitVec.eq_of_getLsbD_eq
  intro i hi
  have e : ((a.toNat <<< m) ||| b.toNat).testBit (s + i) = b.toNat.testBit (s + i) := by
    rw [Nat.testBit_or, Nat.testBit_shiftLeft]
    have : decide (s + i ≥ m) = false := by simp; omega
    rw [this, Bool.false_and, Bool.false_or]
  have d : decide (s + i < k) = true := by simp; omega
  simp only [BitVec.getLsbD_extractLsb', cat, BitVec.getLsbD_ofNat, e, d, Bool.true_and]
  rfl

theorem ex_self {n : Nat} (a : BitVec n) : a.extractLsb' 0 n = a := by
  apply BitVec.eq_of_getLsbD_eq
  intro i hi
  simp [hi]

namespace Laws.Encodes

/-- A well-formed instruction's word decodes to it, in tile mode for the instructions of that mode alone, else in vector mode. -/
def Statement (i : Instr) : Prop := i.wf = true → ∀ w, encode i = some w → decodeWord i.inTile w = .ok i

theorem add (d : BitVec 5) (n : BitVec 5) (m : BitVec 5) : Statement (.add d n m) := by
  intro h w e
  cases e
  simp (disch := decide) only [Instr.inTile, decodeWord, decodeVector, decodeMajor01, row, Enc.add, cat_left, cat_right, ex_self, Nat.reduceSub, Nat.reduceAdd, BitVec.reduceToNat, BitVec.reduceExtractLsb', BitVec.reduceBEq, Bool.and_self, beq_self_eq_true, Bool.true_and, Bool.false_eq_true, ite_false, reduceIte, h]
theorem sub (d : BitVec 5) (n : BitVec 5) (m : BitVec 5) : Statement (.sub d n m) := by
  intro h w e
  cases e
  simp (disch := decide) only [Instr.inTile, decodeWord, decodeVector, decodeMajor01, row, Enc.sub, cat_left, cat_right, ex_self, Nat.reduceSub, Nat.reduceAdd, BitVec.reduceToNat, BitVec.reduceExtractLsb', BitVec.reduceBEq, Bool.and_self, beq_self_eq_true, Bool.true_and, Bool.false_eq_true, ite_false, reduceIte, h]
theorem and (d : BitVec 5) (n : BitVec 5) (m : BitVec 5) : Statement (.and d n m) := by
  intro h w e
  cases e
  simp (disch := decide) only [Instr.inTile, decodeWord, decodeVector, decodeMajor01, row, Enc.and, cat_left, cat_right, ex_self, Nat.reduceSub, Nat.reduceAdd, BitVec.reduceToNat, BitVec.reduceExtractLsb', BitVec.reduceBEq, Bool.and_self, beq_self_eq_true, Bool.true_and, Bool.false_eq_true, ite_false, reduceIte, h]
theorem or (d : BitVec 5) (n : BitVec 5) (m : BitVec 5) : Statement (.or d n m) := by
  intro h w e
  cases e
  simp (disch := decide) only [Instr.inTile, decodeWord, decodeVector, decodeMajor01, row, Enc.or, cat_left, cat_right, ex_self, Nat.reduceSub, Nat.reduceAdd, BitVec.reduceToNat, BitVec.reduceExtractLsb', BitVec.reduceBEq, Bool.and_self, beq_self_eq_true, Bool.true_and, Bool.false_eq_true, ite_false, reduceIte, h]
theorem xor (d : BitVec 5) (n : BitVec 5) (m : BitVec 5) : Statement (.xor d n m) := by
  intro h w e
  cases e
  simp (disch := decide) only [Instr.inTile, decodeWord, decodeVector, decodeMajor01, row, Enc.xor, cat_left, cat_right, ex_self, Nat.reduceSub, Nat.reduceAdd, BitVec.reduceToNat, BitVec.reduceExtractLsb', BitVec.reduceBEq, Bool.and_self, beq_self_eq_true, Bool.true_and, Bool.false_eq_true, ite_false, reduceIte, h]
theorem shl (d : BitVec 5) (n : BitVec 5) (m : BitVec 5) : Statement (.shl d n m) := by
  intro h w e
  cases e
  simp (disch := decide) only [Instr.inTile, decodeWord, decodeVector, decodeMajor01, row, Enc.shl, cat_left, cat_right, ex_self, Nat.reduceSub, Nat.reduceAdd, BitVec.reduceToNat, BitVec.reduceExtractLsb', BitVec.reduceBEq, Bool.and_self, beq_self_eq_true, Bool.true_and, Bool.false_eq_true, ite_false, reduceIte, h]
theorem shr (d : BitVec 5) (n : BitVec 5) (m : BitVec 5) : Statement (.shr d n m) := by
  intro h w e
  cases e
  simp (disch := decide) only [Instr.inTile, decodeWord, decodeVector, decodeMajor01, row, Enc.shr, cat_left, cat_right, ex_self, Nat.reduceSub, Nat.reduceAdd, BitVec.reduceToNat, BitVec.reduceExtractLsb', BitVec.reduceBEq, Bool.and_self, beq_self_eq_true, Bool.true_and, Bool.false_eq_true, ite_false, reduceIte, h]
theorem sra (d : BitVec 5) (n : BitVec 5) (m : BitVec 5) : Statement (.sra d n m) := by
  intro h w e
  cases e
  simp (disch := decide) only [Instr.inTile, decodeWord, decodeVector, decodeMajor01, row, Enc.sra, cat_left, cat_right, ex_self, Nat.reduceSub, Nat.reduceAdd, BitVec.reduceToNat, BitVec.reduceExtractLsb', BitVec.reduceBEq, Bool.and_self, beq_self_eq_true, Bool.true_and, Bool.false_eq_true, ite_false, reduceIte, h]
theorem slt (d : BitVec 5) (n : BitVec 5) (m : BitVec 5) : Statement (.slt d n m) := by
  intro h w e
  cases e
  simp (disch := decide) only [Instr.inTile, decodeWord, decodeVector, decodeMajor01, row, Enc.slt, cat_left, cat_right, ex_self, Nat.reduceSub, Nat.reduceAdd, BitVec.reduceToNat, BitVec.reduceExtractLsb', BitVec.reduceBEq, Bool.and_self, beq_self_eq_true, Bool.true_and, Bool.false_eq_true, ite_false, reduceIte, h]
theorem sltu (d : BitVec 5) (n : BitVec 5) (m : BitVec 5) : Statement (.sltu d n m) := by
  intro h w e
  cases e
  simp (disch := decide) only [Instr.inTile, decodeWord, decodeVector, decodeMajor01, row, Enc.sltu, cat_left, cat_right, ex_self, Nat.reduceSub, Nat.reduceAdd, BitVec.reduceToNat, BitVec.reduceExtractLsb', BitVec.reduceBEq, Bool.and_self, beq_self_eq_true, Bool.true_and, Bool.false_eq_true, ite_false, reduceIte, h]
theorem mul (d : BitVec 5) (n : BitVec 5) (m : BitVec 5) : Statement (.mul d n m) := by
  intro h w e
  cases e
  simp (disch := decide) only [Instr.inTile, decodeWord, decodeVector, decodeMajor01, row, Enc.mul, cat_left, cat_right, ex_self, Nat.reduceSub, Nat.reduceAdd, BitVec.reduceToNat, BitVec.reduceExtractLsb', BitVec.reduceBEq, Bool.and_self, beq_self_eq_true, Bool.true_and, Bool.false_eq_true, ite_false, reduceIte, h]
theorem mulh (d : BitVec 5) (n : BitVec 5) (m : BitVec 5) : Statement (.mulh d n m) := by
  intro h w e
  cases e
  simp (disch := decide) only [Instr.inTile, decodeWord, decodeVector, decodeMajor01, row, Enc.mulh, cat_left, cat_right, ex_self, Nat.reduceSub, Nat.reduceAdd, BitVec.reduceToNat, BitVec.reduceExtractLsb', BitVec.reduceBEq, Bool.and_self, beq_self_eq_true, Bool.true_and, Bool.false_eq_true, ite_false, reduceIte, h]
theorem mulhu (d : BitVec 5) (n : BitVec 5) (m : BitVec 5) : Statement (.mulhu d n m) := by
  intro h w e
  cases e
  simp (disch := decide) only [Instr.inTile, decodeWord, decodeVector, decodeMajor01, row, Enc.mulhu, cat_left, cat_right, ex_self, Nat.reduceSub, Nat.reduceAdd, BitVec.reduceToNat, BitVec.reduceExtractLsb', BitVec.reduceBEq, Bool.and_self, beq_self_eq_true, Bool.true_and, Bool.false_eq_true, ite_false, reduceIte, h]
theorem div (d : BitVec 5) (n : BitVec 5) (m : BitVec 5) : Statement (.div d n m) := by
  intro h w e
  cases e
  simp (disch := decide) only [Instr.inTile, decodeWord, decodeVector, decodeMajor01, row, Enc.div, cat_left, cat_right, ex_self, Nat.reduceSub, Nat.reduceAdd, BitVec.reduceToNat, BitVec.reduceExtractLsb', BitVec.reduceBEq, Bool.and_self, beq_self_eq_true, Bool.true_and, Bool.false_eq_true, ite_false, reduceIte, h]
theorem divu (d : BitVec 5) (n : BitVec 5) (m : BitVec 5) : Statement (.divu d n m) := by
  intro h w e
  cases e
  simp (disch := decide) only [Instr.inTile, decodeWord, decodeVector, decodeMajor01, row, Enc.divu, cat_left, cat_right, ex_self, Nat.reduceSub, Nat.reduceAdd, BitVec.reduceToNat, BitVec.reduceExtractLsb', BitVec.reduceBEq, Bool.and_self, beq_self_eq_true, Bool.true_and, Bool.false_eq_true, ite_false, reduceIte, h]
theorem rem (d : BitVec 5) (n : BitVec 5) (m : BitVec 5) : Statement (.rem d n m) := by
  intro h w e
  cases e
  simp (disch := decide) only [Instr.inTile, decodeWord, decodeVector, decodeMajor01, row, Enc.rem, cat_left, cat_right, ex_self, Nat.reduceSub, Nat.reduceAdd, BitVec.reduceToNat, BitVec.reduceExtractLsb', BitVec.reduceBEq, Bool.and_self, beq_self_eq_true, Bool.true_and, Bool.false_eq_true, ite_false, reduceIte, h]
theorem remu (d : BitVec 5) (n : BitVec 5) (m : BitVec 5) : Statement (.remu d n m) := by
  intro h w e
  cases e
  simp (disch := decide) only [Instr.inTile, decodeWord, decodeVector, decodeMajor01, row, Enc.remu, cat_left, cat_right, ex_self, Nat.reduceSub, Nat.reduceAdd, BitVec.reduceToNat, BitVec.reduceExtractLsb', BitVec.reduceBEq, Bool.and_self, beq_self_eq_true, Bool.true_and, Bool.false_eq_true, ite_false, reduceIte, h]
theorem min (d : BitVec 5) (n : BitVec 5) (m : BitVec 5) : Statement (.min d n m) := by
  intro h w e
  cases e
  simp (disch := decide) only [Instr.inTile, decodeWord, decodeVector, decodeMajor01, row, Enc.min, cat_left, cat_right, ex_self, Nat.reduceSub, Nat.reduceAdd, BitVec.reduceToNat, BitVec.reduceExtractLsb', BitVec.reduceBEq, Bool.and_self, beq_self_eq_true, Bool.true_and, Bool.false_eq_true, ite_false, reduceIte, h]
theorem max (d : BitVec 5) (n : BitVec 5) (m : BitVec 5) : Statement (.max d n m) := by
  intro h w e
  cases e
  simp (disch := decide) only [Instr.inTile, decodeWord, decodeVector, decodeMajor01, row, Enc.max, cat_left, cat_right, ex_self, Nat.reduceSub, Nat.reduceAdd, BitVec.reduceToNat, BitVec.reduceExtractLsb', BitVec.reduceBEq, Bool.and_self, beq_self_eq_true, Bool.true_and, Bool.false_eq_true, ite_false, reduceIte, h]
theorem minu (d : BitVec 5) (n : BitVec 5) (m : BitVec 5) : Statement (.minu d n m) := by
  intro h w e
  cases e
  simp (disch := decide) only [Instr.inTile, decodeWord, decodeVector, decodeMajor01, row, Enc.minu, cat_left, cat_right, ex_self, Nat.reduceSub, Nat.reduceAdd, BitVec.reduceToNat, BitVec.reduceExtractLsb', BitVec.reduceBEq, Bool.and_self, beq_self_eq_true, Bool.true_and, Bool.false_eq_true, ite_false, reduceIte, h]
theorem maxu (d : BitVec 5) (n : BitVec 5) (m : BitVec 5) : Statement (.maxu d n m) := by
  intro h w e
  cases e
  simp (disch := decide) only [Instr.inTile, decodeWord, decodeVector, decodeMajor01, row, Enc.maxu, cat_left, cat_right, ex_self, Nat.reduceSub, Nat.reduceAdd, BitVec.reduceToNat, BitVec.reduceExtractLsb', BitVec.reduceBEq, Bool.and_self, beq_self_eq_true, Bool.true_and, Bool.false_eq_true, ite_false, reduceIte, h]
theorem clz (d : BitVec 5) (n : BitVec 5) : Statement (.clz d n) := by
  intro h w e
  cases e
  simp (disch := decide) only [Instr.inTile, decodeWord, decodeVector, decodeMajor01, row, Enc.clz, cat_left, cat_right, ex_self, Nat.reduceSub, Nat.reduceAdd, BitVec.reduceToNat, BitVec.reduceExtractLsb', BitVec.reduceBEq, Bool.and_self, beq_self_eq_true, Bool.true_and, Bool.false_eq_true, ite_false, reduceIte, h]
theorem ctz (d : BitVec 5) (n : BitVec 5) : Statement (.ctz d n) := by
  intro h w e
  cases e
  simp (disch := decide) only [Instr.inTile, decodeWord, decodeVector, decodeMajor01, row, Enc.ctz, cat_left, cat_right, ex_self, Nat.reduceSub, Nat.reduceAdd, BitVec.reduceToNat, BitVec.reduceExtractLsb', BitVec.reduceBEq, Bool.and_self, beq_self_eq_true, Bool.true_and, Bool.false_eq_true, ite_false, reduceIte, h]
theorem popc (d : BitVec 5) (n : BitVec 5) : Statement (.popc d n) := by
  intro h w e
  cases e
  simp (disch := decide) only [Instr.inTile, decodeWord, decodeVector, decodeMajor01, row, Enc.popc, cat_left, cat_right, ex_self, Nat.reduceSub, Nat.reduceAdd, BitVec.reduceToNat, BitVec.reduceExtractLsb', BitVec.reduceBEq, Bool.and_self, beq_self_eq_true, Bool.true_and, Bool.false_eq_true, ite_false, reduceIte, h]
theorem sel (d : BitVec 5) (n : BitVec 5) (m : BitVec 5) (x : BitVec 5) : Statement (.sel d n m x) := by
  intro h w e
  cases e
  simp (disch := decide) only [Instr.inTile, decodeWord, decodeVector, decodeMajor01, row, Enc.sel, cat_left, cat_right, ex_self, Nat.reduceSub, Nat.reduceAdd, BitVec.reduceToNat, BitVec.reduceExtractLsb', BitVec.reduceBEq, Bool.and_self, beq_self_eq_true, Bool.true_and, Bool.false_eq_true, ite_false, reduceIte, h]
theorem addsh (d : BitVec 5) (n : BitVec 5) (m : BitVec 5) (x : BitVec 5) : Statement (.addsh d n m x) := by
  intro h w e
  cases e
  simp (disch := decide) only [Instr.inTile, decodeWord, decodeVector, decodeMajor01, row, Enc.addsh, cat_left, cat_right, ex_self, Nat.reduceSub, Nat.reduceAdd, BitVec.reduceToNat, BitVec.reduceExtractLsb', BitVec.reduceBEq, Bool.and_self, beq_self_eq_true, Bool.true_and, Bool.false_eq_true, ite_false, reduceIte, h]
theorem addi (d : BitVec 5) (n : BitVec 5) (i : BitVec 13) : Statement (.addi d n i) := by
  intro h w e
  cases e
  simp (disch := decide) only [Instr.inTile, decodeWord, decodeVector, decodeMajor02, row, Enc.addi, cat_left, cat_right, ex_self, Nat.reduceSub, Nat.reduceAdd, BitVec.reduceToNat, BitVec.reduceExtractLsb', BitVec.reduceBEq, Bool.and_self, beq_self_eq_true, Bool.true_and, Bool.false_eq_true, ite_false, reduceIte, h]
theorem andi (d : BitVec 5) (n : BitVec 5) (i : BitVec 13) : Statement (.andi d n i) := by
  intro h w e
  cases e
  simp (disch := decide) only [Instr.inTile, decodeWord, decodeVector, decodeMajor02, row, Enc.andi, cat_left, cat_right, ex_self, Nat.reduceSub, Nat.reduceAdd, BitVec.reduceToNat, BitVec.reduceExtractLsb', BitVec.reduceBEq, Bool.and_self, beq_self_eq_true, Bool.true_and, Bool.false_eq_true, ite_false, reduceIte, h]
theorem ori (d : BitVec 5) (n : BitVec 5) (i : BitVec 13) : Statement (.ori d n i) := by
  intro h w e
  cases e
  simp (disch := decide) only [Instr.inTile, decodeWord, decodeVector, decodeMajor02, row, Enc.ori, cat_left, cat_right, ex_self, Nat.reduceSub, Nat.reduceAdd, BitVec.reduceToNat, BitVec.reduceExtractLsb', BitVec.reduceBEq, Bool.and_self, beq_self_eq_true, Bool.true_and, Bool.false_eq_true, ite_false, reduceIte, h]
theorem xori (d : BitVec 5) (n : BitVec 5) (i : BitVec 13) : Statement (.xori d n i) := by
  intro h w e
  cases e
  simp (disch := decide) only [Instr.inTile, decodeWord, decodeVector, decodeMajor02, row, Enc.xori, cat_left, cat_right, ex_self, Nat.reduceSub, Nat.reduceAdd, BitVec.reduceToNat, BitVec.reduceExtractLsb', BitVec.reduceBEq, Bool.and_self, beq_self_eq_true, Bool.true_and, Bool.false_eq_true, ite_false, reduceIte, h]
theorem slti (d : BitVec 5) (n : BitVec 5) (i : BitVec 13) : Statement (.slti d n i) := by
  intro h w e
  cases e
  simp (disch := decide) only [Instr.inTile, decodeWord, decodeVector, decodeMajor02, row, Enc.slti, cat_left, cat_right, ex_self, Nat.reduceSub, Nat.reduceAdd, BitVec.reduceToNat, BitVec.reduceExtractLsb', BitVec.reduceBEq, Bool.and_self, beq_self_eq_true, Bool.true_and, Bool.false_eq_true, ite_false, reduceIte, h]
theorem shli (d : BitVec 5) (n : BitVec 5) (i : BitVec 6) : Statement (.shli d n i) := by
  intro h w e
  cases e
  simp (disch := decide) only [Instr.inTile, decodeWord, decodeVector, decodeMajor02, row, Enc.shli, cat_left, cat_right, ex_self, Nat.reduceSub, Nat.reduceAdd, BitVec.reduceToNat, BitVec.reduceExtractLsb', BitVec.reduceBEq, Bool.and_self, beq_self_eq_true, Bool.true_and, Bool.false_eq_true, ite_false, reduceIte, h]
theorem shri (d : BitVec 5) (n : BitVec 5) (i : BitVec 6) : Statement (.shri d n i) := by
  intro h w e
  cases e
  simp (disch := decide) only [Instr.inTile, decodeWord, decodeVector, decodeMajor02, row, Enc.shri, cat_left, cat_right, ex_self, Nat.reduceSub, Nat.reduceAdd, BitVec.reduceToNat, BitVec.reduceExtractLsb', BitVec.reduceBEq, Bool.and_self, beq_self_eq_true, Bool.true_and, Bool.false_eq_true, ite_false, reduceIte, h]
theorem srai (d : BitVec 5) (n : BitVec 5) (i : BitVec 6) : Statement (.srai d n i) := by
  intro h w e
  cases e
  simp (disch := decide) only [Instr.inTile, decodeWord, decodeVector, decodeMajor02, row, Enc.srai, cat_left, cat_right, ex_self, Nat.reduceSub, Nat.reduceAdd, BitVec.reduceToNat, BitVec.reduceExtractLsb', BitVec.reduceBEq, Bool.and_self, beq_self_eq_true, Bool.true_and, Bool.false_eq_true, ite_false, reduceIte, h]
theorem ldB (d : BitVec 5) (n : BitVec 5) (i : BitVec 13) : Statement (.ldB d n i) := by
  intro h w e
  cases e
  simp (disch := decide) only [Instr.inTile, decodeWord, decodeVector, decodeMajor03, row, Enc.ldB, cat_left, cat_right, ex_self, Nat.reduceSub, Nat.reduceAdd, BitVec.reduceToNat, BitVec.reduceExtractLsb', BitVec.reduceBEq, Bool.and_self, beq_self_eq_true, Bool.true_and, Bool.false_eq_true, ite_false, reduceIte, h]
theorem ldBu (d : BitVec 5) (n : BitVec 5) (i : BitVec 13) : Statement (.ldBu d n i) := by
  intro h w e
  cases e
  simp (disch := decide) only [Instr.inTile, decodeWord, decodeVector, decodeMajor03, row, Enc.ldBu, cat_left, cat_right, ex_self, Nat.reduceSub, Nat.reduceAdd, BitVec.reduceToNat, BitVec.reduceExtractLsb', BitVec.reduceBEq, Bool.and_self, beq_self_eq_true, Bool.true_and, Bool.false_eq_true, ite_false, reduceIte, h]
theorem ldH (d : BitVec 5) (n : BitVec 5) (i : BitVec 13) : Statement (.ldH d n i) := by
  intro h w e
  cases e
  simp (disch := decide) only [Instr.inTile, decodeWord, decodeVector, decodeMajor03, row, Enc.ldH, cat_left, cat_right, ex_self, Nat.reduceSub, Nat.reduceAdd, BitVec.reduceToNat, BitVec.reduceExtractLsb', BitVec.reduceBEq, Bool.and_self, beq_self_eq_true, Bool.true_and, Bool.false_eq_true, ite_false, reduceIte, h]
theorem ldHu (d : BitVec 5) (n : BitVec 5) (i : BitVec 13) : Statement (.ldHu d n i) := by
  intro h w e
  cases e
  simp (disch := decide) only [Instr.inTile, decodeWord, decodeVector, decodeMajor03, row, Enc.ldHu, cat_left, cat_right, ex_self, Nat.reduceSub, Nat.reduceAdd, BitVec.reduceToNat, BitVec.reduceExtractLsb', BitVec.reduceBEq, Bool.and_self, beq_self_eq_true, Bool.true_and, Bool.false_eq_true, ite_false, reduceIte, h]
theorem ldW (d : BitVec 5) (n : BitVec 5) (i : BitVec 13) : Statement (.ldW d n i) := by
  intro h w e
  cases e
  simp (disch := decide) only [Instr.inTile, decodeWord, decodeVector, decodeMajor03, row, Enc.ldW, cat_left, cat_right, ex_self, Nat.reduceSub, Nat.reduceAdd, BitVec.reduceToNat, BitVec.reduceExtractLsb', BitVec.reduceBEq, Bool.and_self, beq_self_eq_true, Bool.true_and, Bool.false_eq_true, ite_false, reduceIte, h]
theorem ldWu (d : BitVec 5) (n : BitVec 5) (i : BitVec 13) : Statement (.ldWu d n i) := by
  intro h w e
  cases e
  simp (disch := decide) only [Instr.inTile, decodeWord, decodeVector, decodeMajor03, row, Enc.ldWu, cat_left, cat_right, ex_self, Nat.reduceSub, Nat.reduceAdd, BitVec.reduceToNat, BitVec.reduceExtractLsb', BitVec.reduceBEq, Bool.and_self, beq_self_eq_true, Bool.true_and, Bool.false_eq_true, ite_false, reduceIte, h]
theorem ldD (d : BitVec 5) (n : BitVec 5) (i : BitVec 13) : Statement (.ldD d n i) := by
  intro h w e
  cases e
  simp (disch := decide) only [Instr.inTile, decodeWord, decodeVector, decodeMajor03, row, Enc.ldD, cat_left, cat_right, ex_self, Nat.reduceSub, Nat.reduceAdd, BitVec.reduceToNat, BitVec.reduceExtractLsb', BitVec.reduceBEq, Bool.and_self, beq_self_eq_true, Bool.true_and, Bool.false_eq_true, ite_false, reduceIte, h]
theorem stB (d : BitVec 5) (n : BitVec 5) (i : BitVec 13) : Statement (.stB d n i) := by
  intro h w e
  cases e
  simp (disch := decide) only [Instr.inTile, decodeWord, decodeVector, decodeMajor04, row, Enc.stB, cat_left, cat_right, ex_self, Nat.reduceSub, Nat.reduceAdd, BitVec.reduceToNat, BitVec.reduceExtractLsb', BitVec.reduceBEq, Bool.and_self, beq_self_eq_true, Bool.true_and, Bool.false_eq_true, ite_false, reduceIte, h]
theorem stH (d : BitVec 5) (n : BitVec 5) (i : BitVec 13) : Statement (.stH d n i) := by
  intro h w e
  cases e
  simp (disch := decide) only [Instr.inTile, decodeWord, decodeVector, decodeMajor04, row, Enc.stH, cat_left, cat_right, ex_self, Nat.reduceSub, Nat.reduceAdd, BitVec.reduceToNat, BitVec.reduceExtractLsb', BitVec.reduceBEq, Bool.and_self, beq_self_eq_true, Bool.true_and, Bool.false_eq_true, ite_false, reduceIte, h]
theorem stW (d : BitVec 5) (n : BitVec 5) (i : BitVec 13) : Statement (.stW d n i) := by
  intro h w e
  cases e
  simp (disch := decide) only [Instr.inTile, decodeWord, decodeVector, decodeMajor04, row, Enc.stW, cat_left, cat_right, ex_self, Nat.reduceSub, Nat.reduceAdd, BitVec.reduceToNat, BitVec.reduceExtractLsb', BitVec.reduceBEq, Bool.and_self, beq_self_eq_true, Bool.true_and, Bool.false_eq_true, ite_false, reduceIte, h]
theorem stD (d : BitVec 5) (n : BitVec 5) (i : BitVec 13) : Statement (.stD d n i) := by
  intro h w e
  cases e
  simp (disch := decide) only [Instr.inTile, decodeWord, decodeVector, decodeMajor04, row, Enc.stD, cat_left, cat_right, ex_self, Nat.reduceSub, Nat.reduceAdd, BitVec.reduceToNat, BitVec.reduceExtractLsb', BitVec.reduceBEq, Bool.and_self, beq_self_eq_true, Bool.true_and, Bool.false_eq_true, ite_false, reduceIte, h]
theorem beq (n : BitVec 5) (m : BitVec 5) (o : BitVec 13) : Statement (.beq n m o) := by
  intro h w e
  cases e
  simp (disch := decide) only [Instr.inTile, decodeWord, decodeVector, decodeMajor05, row, Enc.beq, cat_left, cat_right, ex_self, Nat.reduceSub, Nat.reduceAdd, BitVec.reduceToNat, BitVec.reduceExtractLsb', BitVec.reduceBEq, Bool.and_self, beq_self_eq_true, Bool.true_and, Bool.false_eq_true, ite_false, reduceIte, h]
theorem bne (n : BitVec 5) (m : BitVec 5) (o : BitVec 13) : Statement (.bne n m o) := by
  intro h w e
  cases e
  simp (disch := decide) only [Instr.inTile, decodeWord, decodeVector, decodeMajor05, row, Enc.bne, cat_left, cat_right, ex_self, Nat.reduceSub, Nat.reduceAdd, BitVec.reduceToNat, BitVec.reduceExtractLsb', BitVec.reduceBEq, Bool.and_self, beq_self_eq_true, Bool.true_and, Bool.false_eq_true, ite_false, reduceIte, h]
theorem blt (n : BitVec 5) (m : BitVec 5) (o : BitVec 13) : Statement (.blt n m o) := by
  intro h w e
  cases e
  simp (disch := decide) only [Instr.inTile, decodeWord, decodeVector, decodeMajor05, row, Enc.blt, cat_left, cat_right, ex_self, Nat.reduceSub, Nat.reduceAdd, BitVec.reduceToNat, BitVec.reduceExtractLsb', BitVec.reduceBEq, Bool.and_self, beq_self_eq_true, Bool.true_and, Bool.false_eq_true, ite_false, reduceIte, h]
theorem bge (n : BitVec 5) (m : BitVec 5) (o : BitVec 13) : Statement (.bge n m o) := by
  intro h w e
  cases e
  simp (disch := decide) only [Instr.inTile, decodeWord, decodeVector, decodeMajor05, row, Enc.bge, cat_left, cat_right, ex_self, Nat.reduceSub, Nat.reduceAdd, BitVec.reduceToNat, BitVec.reduceExtractLsb', BitVec.reduceBEq, Bool.and_self, beq_self_eq_true, Bool.true_and, Bool.false_eq_true, ite_false, reduceIte, h]
theorem bltu (n : BitVec 5) (m : BitVec 5) (o : BitVec 13) : Statement (.bltu n m o) := by
  intro h w e
  cases e
  simp (disch := decide) only [Instr.inTile, decodeWord, decodeVector, decodeMajor05, row, Enc.bltu, cat_left, cat_right, ex_self, Nat.reduceSub, Nat.reduceAdd, BitVec.reduceToNat, BitVec.reduceExtractLsb', BitVec.reduceBEq, Bool.and_self, beq_self_eq_true, Bool.true_and, Bool.false_eq_true, ite_false, reduceIte, h]
theorem bgeu (n : BitVec 5) (m : BitVec 5) (o : BitVec 13) : Statement (.bgeu n m o) := by
  intro h w e
  cases e
  simp (disch := decide) only [Instr.inTile, decodeWord, decodeVector, decodeMajor05, row, Enc.bgeu, cat_left, cat_right, ex_self, Nat.reduceSub, Nat.reduceAdd, BitVec.reduceToNat, BitVec.reduceExtractLsb', BitVec.reduceBEq, Bool.and_self, beq_self_eq_true, Bool.true_and, Bool.false_eq_true, ite_false, reduceIte, h]
theorem vloop (n : BitVec 5) (o : BitVec 13) : Statement (.vloop n o) := by
  intro h w e
  cases e
  simp (disch := decide) only [Instr.inTile, decodeWord, decodeVector, decodeMajor05, row, Enc.vloop, cat_left, cat_right, ex_self, Nat.reduceSub, Nat.reduceAdd, BitVec.reduceToNat, BitVec.reduceExtractLsb', BitVec.reduceBEq, Bool.and_self, beq_self_eq_true, Bool.true_and, Bool.false_eq_true, ite_false, reduceIte, h]
theorem jal (d : BitVec 5) (i : BitVec 21) : Statement (.jal d i) := by
  intro h w e
  cases e
  simp (disch := decide) only [Instr.inTile, decodeWord, decodeVector, decodeMajor06, row, Enc.jal, cat_left, cat_right, ex_self, Nat.reduceSub, Nat.reduceAdd, BitVec.reduceToNat, BitVec.reduceExtractLsb', BitVec.reduceBEq, Bool.and_self, beq_self_eq_true, Bool.true_and, Bool.false_eq_true, ite_false, reduceIte, h]
theorem jalr (d : BitVec 5) (n : BitVec 5) (i : BitVec 13) : Statement (.jalr d n i) := by
  intro h w e
  cases e
  simp (disch := decide) only [Instr.inTile, decodeWord, decodeVector, decodeMajor07, row, Enc.jalr, cat_left, cat_right, ex_self, Nat.reduceSub, Nat.reduceAdd, BitVec.reduceToNat, BitVec.reduceExtractLsb', BitVec.reduceBEq, Bool.and_self, beq_self_eq_true, Bool.true_and, Bool.false_eq_true, ite_false, reduceIte, h]
theorem ldhi (d : BitVec 5) (i : BitVec 21) : Statement (.ldhi d i) := by
  intro h w e
  cases e
  simp (disch := decide) only [Instr.inTile, decodeWord, decodeVector, decodeMajor08, row, Enc.ldhi, cat_left, cat_right, ex_self, Nat.reduceSub, Nat.reduceAdd, BitVec.reduceToNat, BitVec.reduceExtractLsb', BitVec.reduceBEq, Bool.and_self, beq_self_eq_true, Bool.true_and, Bool.false_eq_true, ite_false, reduceIte, h]
theorem fadd (d : BitVec 5) (n : BitVec 5) (m : BitVec 5) (p : BitVec 1) : Statement (.fadd d n m p) := by
  intro h w e
  cases e
  simp (disch := decide) only [Instr.inTile, decodeWord, decodeVector, decodeMajor09, row, Enc.fadd, cat_left, cat_right, ex_self, Nat.reduceSub, Nat.reduceAdd, BitVec.reduceToNat, BitVec.reduceExtractLsb', BitVec.reduceBEq, Bool.and_self, beq_self_eq_true, Bool.true_and, Bool.false_eq_true, ite_false, reduceIte, h]
theorem fsub (d : BitVec 5) (n : BitVec 5) (m : BitVec 5) (p : BitVec 1) : Statement (.fsub d n m p) := by
  intro h w e
  cases e
  simp (disch := decide) only [Instr.inTile, decodeWord, decodeVector, decodeMajor09, row, Enc.fsub, cat_left, cat_right, ex_self, Nat.reduceSub, Nat.reduceAdd, BitVec.reduceToNat, BitVec.reduceExtractLsb', BitVec.reduceBEq, Bool.and_self, beq_self_eq_true, Bool.true_and, Bool.false_eq_true, ite_false, reduceIte, h]
theorem fmul (d : BitVec 5) (n : BitVec 5) (m : BitVec 5) (p : BitVec 1) : Statement (.fmul d n m p) := by
  intro h w e
  cases e
  simp (disch := decide) only [Instr.inTile, decodeWord, decodeVector, decodeMajor09, row, Enc.fmul, cat_left, cat_right, ex_self, Nat.reduceSub, Nat.reduceAdd, BitVec.reduceToNat, BitVec.reduceExtractLsb', BitVec.reduceBEq, Bool.and_self, beq_self_eq_true, Bool.true_and, Bool.false_eq_true, ite_false, reduceIte, h]
theorem fdiv (d : BitVec 5) (n : BitVec 5) (m : BitVec 5) (p : BitVec 1) : Statement (.fdiv d n m p) := by
  intro h w e
  cases e
  simp (disch := decide) only [Instr.inTile, decodeWord, decodeVector, decodeMajor09, row, Enc.fdiv, cat_left, cat_right, ex_self, Nat.reduceSub, Nat.reduceAdd, BitVec.reduceToNat, BitVec.reduceExtractLsb', BitVec.reduceBEq, Bool.and_self, beq_self_eq_true, Bool.true_and, Bool.false_eq_true, ite_false, reduceIte, h]
theorem fsqrt (d : BitVec 5) (n : BitVec 5) (p : BitVec 1) : Statement (.fsqrt d n p) := by
  intro h w e
  cases e
  simp (disch := decide) only [Instr.inTile, decodeWord, decodeVector, decodeMajor09, row, Enc.fsqrt, cat_left, cat_right, ex_self, Nat.reduceSub, Nat.reduceAdd, BitVec.reduceToNat, BitVec.reduceExtractLsb', BitVec.reduceBEq, Bool.and_self, beq_self_eq_true, Bool.true_and, Bool.false_eq_true, ite_false, reduceIte, h]
theorem fma (d : BitVec 5) (n : BitVec 5) (m : BitVec 5) (x : BitVec 5) (p : BitVec 1) : Statement (.fma d n m x p) := by
  intro h w e
  cases e
  simp (disch := decide) only [Instr.inTile, decodeWord, decodeVector, decodeMajor09, row, Enc.fma, cat_left, cat_right, ex_self, Nat.reduceSub, Nat.reduceAdd, BitVec.reduceToNat, BitVec.reduceExtractLsb', BitVec.reduceBEq, Bool.and_self, beq_self_eq_true, Bool.true_and, Bool.false_eq_true, ite_false, reduceIte, h]
theorem fmin (d : BitVec 5) (n : BitVec 5) (m : BitVec 5) (p : BitVec 1) : Statement (.fmin d n m p) := by
  intro h w e
  cases e
  simp (disch := decide) only [Instr.inTile, decodeWord, decodeVector, decodeMajor09, row, Enc.fmin, cat_left, cat_right, ex_self, Nat.reduceSub, Nat.reduceAdd, BitVec.reduceToNat, BitVec.reduceExtractLsb', BitVec.reduceBEq, Bool.and_self, beq_self_eq_true, Bool.true_and, Bool.false_eq_true, ite_false, reduceIte, h]
theorem fmax (d : BitVec 5) (n : BitVec 5) (m : BitVec 5) (p : BitVec 1) : Statement (.fmax d n m p) := by
  intro h w e
  cases e
  simp (disch := decide) only [Instr.inTile, decodeWord, decodeVector, decodeMajor09, row, Enc.fmax, cat_left, cat_right, ex_self, Nat.reduceSub, Nat.reduceAdd, BitVec.reduceToNat, BitVec.reduceExtractLsb', BitVec.reduceBEq, Bool.and_self, beq_self_eq_true, Bool.true_and, Bool.false_eq_true, ite_false, reduceIte, h]
theorem fcmp (d : BitVec 5) (n : BitVec 5) (m : BitVec 5) (x : BitVec 5) (p : BitVec 1) : Statement (.fcmp d n m x p) := by
  intro h w e
  cases e
  simp (disch := decide) only [Instr.inTile, decodeWord, decodeVector, decodeMajor09, row, Enc.fcmp, cat_left, cat_right, ex_self, Nat.reduceSub, Nat.reduceAdd, BitVec.reduceToNat, BitVec.reduceExtractLsb', BitVec.reduceBEq, Bool.and_self, beq_self_eq_true, Bool.true_and, Bool.false_eq_true, ite_false, reduceIte, h]
theorem fcvt (d : BitVec 5) (n : BitVec 5) (x : BitVec 5) : Statement (.fcvt d n x) := by
  intro h w e
  cases e
  simp (disch := decide) only [Instr.inTile, decodeWord, decodeVector, decodeMajor09, row, Enc.fcvt, cat_left, cat_right, ex_self, Nat.reduceSub, Nat.reduceAdd, BitVec.reduceToNat, BitVec.reduceExtractLsb', BitVec.reduceBEq, Bool.and_self, beq_self_eq_true, Bool.true_and, Bool.false_eq_true, ite_false, reduceIte, h]
theorem ldOrdered (d : BitVec 5) (n : BitVec 5) (w : BitVec 5) (o : BitVec 2) (s : BitVec 2) : Statement (.ldOrdered d n w o s) := by
  intro h w e
  cases e
  simp (disch := decide) only [Instr.inTile, decodeWord, decodeVector, decodeMajor0A, row, Enc.ldOrdered, cat_left, cat_right, ex_self, Nat.reduceSub, Nat.reduceAdd, BitVec.reduceToNat, BitVec.reduceExtractLsb', BitVec.reduceBEq, Bool.and_self, beq_self_eq_true, Bool.true_and, Bool.false_eq_true, ite_false, reduceIte, h]
theorem stOrdered (n : BitVec 5) (m : BitVec 5) (w : BitVec 5) (o : BitVec 2) (s : BitVec 2) : Statement (.stOrdered n m w o s) := by
  intro h w e
  cases e
  simp (disch := decide) only [Instr.inTile, decodeWord, decodeVector, decodeMajor0A, row, Enc.stOrdered, cat_left, cat_right, ex_self, Nat.reduceSub, Nat.reduceAdd, BitVec.reduceToNat, BitVec.reduceExtractLsb', BitVec.reduceBEq, Bool.and_self, beq_self_eq_true, Bool.true_and, Bool.false_eq_true, ite_false, reduceIte, h]
theorem amoadd (d : BitVec 5) (n : BitVec 5) (m : BitVec 5) (w : BitVec 1) (o : BitVec 2) (s : BitVec 2) : Statement (.amoadd d n m w o s) := by
  intro h w e
  cases e
  simp (disch := decide) only [Instr.inTile, decodeWord, decodeVector, decodeMajor0A, row, Enc.amoadd, cat_left, cat_right, ex_self, Nat.reduceSub, Nat.reduceAdd, BitVec.reduceToNat, BitVec.reduceExtractLsb', BitVec.reduceBEq, Bool.and_self, beq_self_eq_true, Bool.true_and, Bool.false_eq_true, ite_false, reduceIte, h]
theorem amoand (d : BitVec 5) (n : BitVec 5) (m : BitVec 5) (w : BitVec 1) (o : BitVec 2) (s : BitVec 2) : Statement (.amoand d n m w o s) := by
  intro h w e
  cases e
  simp (disch := decide) only [Instr.inTile, decodeWord, decodeVector, decodeMajor0A, row, Enc.amoand, cat_left, cat_right, ex_self, Nat.reduceSub, Nat.reduceAdd, BitVec.reduceToNat, BitVec.reduceExtractLsb', BitVec.reduceBEq, Bool.and_self, beq_self_eq_true, Bool.true_and, Bool.false_eq_true, ite_false, reduceIte, h]
theorem amoor (d : BitVec 5) (n : BitVec 5) (m : BitVec 5) (w : BitVec 1) (o : BitVec 2) (s : BitVec 2) : Statement (.amoor d n m w o s) := by
  intro h w e
  cases e
  simp (disch := decide) only [Instr.inTile, decodeWord, decodeVector, decodeMajor0A, row, Enc.amoor, cat_left, cat_right, ex_self, Nat.reduceSub, Nat.reduceAdd, BitVec.reduceToNat, BitVec.reduceExtractLsb', BitVec.reduceBEq, Bool.and_self, beq_self_eq_true, Bool.true_and, Bool.false_eq_true, ite_false, reduceIte, h]
theorem amoxor (d : BitVec 5) (n : BitVec 5) (m : BitVec 5) (w : BitVec 1) (o : BitVec 2) (s : BitVec 2) : Statement (.amoxor d n m w o s) := by
  intro h w e
  cases e
  simp (disch := decide) only [Instr.inTile, decodeWord, decodeVector, decodeMajor0A, row, Enc.amoxor, cat_left, cat_right, ex_self, Nat.reduceSub, Nat.reduceAdd, BitVec.reduceToNat, BitVec.reduceExtractLsb', BitVec.reduceBEq, Bool.and_self, beq_self_eq_true, Bool.true_and, Bool.false_eq_true, ite_false, reduceIte, h]
theorem amoswap (d : BitVec 5) (n : BitVec 5) (m : BitVec 5) (w : BitVec 1) (o : BitVec 2) (s : BitVec 2) : Statement (.amoswap d n m w o s) := by
  intro h w e
  cases e
  simp (disch := decide) only [Instr.inTile, decodeWord, decodeVector, decodeMajor0A, row, Enc.amoswap, cat_left, cat_right, ex_self, Nat.reduceSub, Nat.reduceAdd, BitVec.reduceToNat, BitVec.reduceExtractLsb', BitVec.reduceBEq, Bool.and_self, beq_self_eq_true, Bool.true_and, Bool.false_eq_true, ite_false, reduceIte, h]
theorem amomin (d : BitVec 5) (n : BitVec 5) (m : BitVec 5) (w : BitVec 1) (o : BitVec 2) (s : BitVec 2) : Statement (.amomin d n m w o s) := by
  intro h w e
  cases e
  simp (disch := decide) only [Instr.inTile, decodeWord, decodeVector, decodeMajor0A, row, Enc.amomin, cat_left, cat_right, ex_self, Nat.reduceSub, Nat.reduceAdd, BitVec.reduceToNat, BitVec.reduceExtractLsb', BitVec.reduceBEq, Bool.and_self, beq_self_eq_true, Bool.true_and, Bool.false_eq_true, ite_false, reduceIte, h]
theorem amomax (d : BitVec 5) (n : BitVec 5) (m : BitVec 5) (w : BitVec 1) (o : BitVec 2) (s : BitVec 2) : Statement (.amomax d n m w o s) := by
  intro h w e
  cases e
  simp (disch := decide) only [Instr.inTile, decodeWord, decodeVector, decodeMajor0A, row, Enc.amomax, cat_left, cat_right, ex_self, Nat.reduceSub, Nat.reduceAdd, BitVec.reduceToNat, BitVec.reduceExtractLsb', BitVec.reduceBEq, Bool.and_self, beq_self_eq_true, Bool.true_and, Bool.false_eq_true, ite_false, reduceIte, h]
theorem amominu (d : BitVec 5) (n : BitVec 5) (m : BitVec 5) (w : BitVec 1) (o : BitVec 2) (s : BitVec 2) : Statement (.amominu d n m w o s) := by
  intro h w e
  cases e
  simp (disch := decide) only [Instr.inTile, decodeWord, decodeVector, decodeMajor0A, row, Enc.amominu, cat_left, cat_right, ex_self, Nat.reduceSub, Nat.reduceAdd, BitVec.reduceToNat, BitVec.reduceExtractLsb', BitVec.reduceBEq, Bool.and_self, beq_self_eq_true, Bool.true_and, Bool.false_eq_true, ite_false, reduceIte, h]
theorem amomaxu (d : BitVec 5) (n : BitVec 5) (m : BitVec 5) (w : BitVec 1) (o : BitVec 2) (s : BitVec 2) : Statement (.amomaxu d n m w o s) := by
  intro h w e
  cases e
  simp (disch := decide) only [Instr.inTile, decodeWord, decodeVector, decodeMajor0A, row, Enc.amomaxu, cat_left, cat_right, ex_self, Nat.reduceSub, Nat.reduceAdd, BitVec.reduceToNat, BitVec.reduceExtractLsb', BitVec.reduceBEq, Bool.and_self, beq_self_eq_true, Bool.true_and, Bool.false_eq_true, ite_false, reduceIte, h]
theorem cas (d : BitVec 5) (n : BitVec 5) (m : BitVec 5) (x : BitVec 5) (o : BitVec 2) (s : BitVec 2) (f : BitVec 2) : Statement (.cas d n m x o s f) := by
  intro h w e
  cases e
  simp (disch := decide) only [Instr.inTile, decodeWord, decodeVector, decodeMajor0B, row, Enc.cas, cat_left, cat_right, ex_self, Nat.reduceSub, Nat.reduceAdd, BitVec.reduceToNat, BitVec.reduceExtractLsb', BitVec.reduceBEq, Bool.and_self, beq_self_eq_true, Bool.true_and, Bool.false_eq_true, ite_false, reduceIte, h]
theorem csrr (d : BitVec 5) (r : BitVec 12) : Statement (.csrr d r) := by
  intro h w e
  cases e
  have hc : csrListed r = true := h
  simp (disch := decide) only [Instr.inTile, decodeWord, decodeVector, decodeMajor0C, row, Enc.csrr, cat_left, cat_right, ex_self, Nat.reduceSub, Nat.reduceAdd, BitVec.reduceToNat, BitVec.reduceExtractLsb', BitVec.reduceBEq, Bool.and_self, beq_self_eq_true, Bool.true_and, Bool.false_eq_true, ite_false, reduceIte, h, hc, Bool.not_true, Nat.reduceLeDiff]
theorem csrw (n : BitVec 5) (r : BitVec 12) : Statement (.csrw n r) := by
  intro h w e
  cases e
  have hc : csrListed r = true := h
  simp (disch := decide) only [Instr.inTile, decodeWord, decodeVector, decodeMajor0C, row, Enc.csrw, cat_left, cat_right, ex_self, Nat.reduceSub, Nat.reduceAdd, BitVec.reduceToNat, BitVec.reduceExtractLsb', BitVec.reduceBEq, Bool.and_self, beq_self_eq_true, Bool.true_and, Bool.false_eq_true, ite_false, reduceIte, h, hc, Bool.not_true, Nat.reduceLeDiff]
theorem csrs (n : BitVec 5) (r : BitVec 12) : Statement (.csrs n r) := by
  intro h w e
  cases e
  have hc : csrListed r = true := h
  simp (disch := decide) only [Instr.inTile, decodeWord, decodeVector, decodeMajor0C, row, Enc.csrs, cat_left, cat_right, ex_self, Nat.reduceSub, Nat.reduceAdd, BitVec.reduceToNat, BitVec.reduceExtractLsb', BitVec.reduceBEq, Bool.and_self, beq_self_eq_true, Bool.true_and, Bool.false_eq_true, ite_false, reduceIte, h, hc, Bool.not_true, Nat.reduceLeDiff]
theorem csrc (n : BitVec 5) (r : BitVec 12) : Statement (.csrc n r) := by
  intro h w e
  cases e
  have hc : csrListed r = true := h
  simp (disch := decide) only [Instr.inTile, decodeWord, decodeVector, decodeMajor0C, row, Enc.csrc, cat_left, cat_right, ex_self, Nat.reduceSub, Nat.reduceAdd, BitVec.reduceToNat, BitVec.reduceExtractLsb', BitVec.reduceBEq, Bool.and_self, beq_self_eq_true, Bool.true_and, Bool.false_eq_true, ite_false, reduceIte, h, hc, Bool.not_true, Nat.reduceLeDiff]
theorem qpush (n : BitVec 5) (q : BitVec 2) : Statement (.qpush n q) := by
  intro h w e
  cases e
  simp (disch := decide) only [Instr.inTile, decodeWord, decodeVector, decodeMajor0D, row, Enc.qpush, cat_left, cat_right, ex_self, Nat.reduceSub, Nat.reduceAdd, BitVec.reduceToNat, BitVec.reduceExtractLsb', BitVec.reduceBEq, Bool.and_self, beq_self_eq_true, Bool.true_and, Bool.false_eq_true, ite_false, reduceIte, h]
theorem qpop (d : BitVec 5) (q : BitVec 2) : Statement (.qpop d q) := by
  intro h w e
  cases e
  simp (disch := decide) only [Instr.inTile, decodeWord, decodeVector, decodeMajor0D, row, Enc.qpop, cat_left, cat_right, ex_self, Nat.reduceSub, Nat.reduceAdd, BitVec.reduceToNat, BitVec.reduceExtractLsb', BitVec.reduceBEq, Bool.and_self, beq_self_eq_true, Bool.true_and, Bool.false_eq_true, ite_false, reduceIte, h]
theorem trap (x : BitVec 5) : Statement (.trap x) := by
  intro h w e
  cases e
  simp (disch := decide) only [Instr.inTile, decodeWord, decodeVector, decodeMajor0E, row, Enc.trap, cat_left, cat_right, ex_self, Nat.reduceSub, Nat.reduceAdd, BitVec.reduceToNat, BitVec.reduceExtractLsb', BitVec.reduceBEq, Bool.and_self, beq_self_eq_true, Bool.true_and, Bool.false_eq_true, ite_false, reduceIte, h]
theorem tret : Statement (.tret) := by
  intro h w e
  cases e
  simp (disch := decide) only [Instr.inTile, decodeWord, decodeVector, decodeMajor0E, row, Enc.tret, cat_left, cat_right, ex_self, Nat.reduceSub, Nat.reduceAdd, BitVec.reduceToNat, BitVec.reduceExtractLsb', BitVec.reduceBEq, Bool.and_self, beq_self_eq_true, Bool.true_and, Bool.false_eq_true, ite_false, reduceIte, h]
theorem halt : Statement (.halt) := by
  intro h w e
  cases e
  simp (disch := decide) only [Instr.inTile, decodeWord, decodeVector, decodeMajor0E, row, Enc.halt, cat_left, cat_right, ex_self, Nat.reduceSub, Nat.reduceAdd, BitVec.reduceToNat, BitVec.reduceExtractLsb', BitVec.reduceBEq, Bool.and_self, beq_self_eq_true, Bool.true_and, Bool.false_eq_true, ite_false, reduceIte, h]
theorem wait (x : BitVec 5) : Statement (.wait x) := by
  intro h w e
  cases e
  simp (disch := decide) only [Instr.inTile, decodeWord, decodeVector, decodeMajor0E, row, Enc.wait, cat_left, cat_right, ex_self, Nat.reduceSub, Nat.reduceAdd, BitVec.reduceToNat, BitVec.reduceExtractLsb', BitVec.reduceBEq, Bool.and_self, beq_self_eq_true, Bool.true_and, Bool.false_eq_true, ite_false, reduceIte, h]
theorem brk (x : BitVec 5) : Statement (.brk x) := by
  intro h w e
  cases e
  simp (disch := decide) only [Instr.inTile, decodeWord, decodeVector, decodeMajor0E, row, Enc.brk, cat_left, cat_right, ex_self, Nat.reduceSub, Nat.reduceAdd, BitVec.reduceToNat, BitVec.reduceExtractLsb', BitVec.reduceBEq, Bool.and_self, beq_self_eq_true, Bool.true_and, Bool.false_eq_true, ite_false, reduceIte, h]
theorem kend : Statement (.kend) := by
  intro h w e
  cases e
  simp (disch := decide) only [Instr.inTile, decodeWord, decodeVector, decodeMajor0E, row, Enc.kend, cat_left, cat_right, ex_self, Nat.reduceSub, Nat.reduceAdd, BitVec.reduceToNat, BitVec.reduceExtractLsb', BitVec.reduceBEq, Bool.and_self, beq_self_eq_true, Bool.true_and, Bool.false_eq_true, ite_false, reduceIte, h]
theorem tlbiAll : Statement (.tlbiAll) := by
  intro h w e
  cases e
  simp (disch := decide) only [Instr.inTile, decodeWord, decodeVector, decodeMajor0E, row, Enc.tlbiAll, cat_left, cat_right, ex_self, Nat.reduceSub, Nat.reduceAdd, BitVec.reduceToNat, BitVec.reduceExtractLsb', BitVec.reduceBEq, Bool.and_self, beq_self_eq_true, Bool.true_and, Bool.false_eq_true, ite_false, reduceIte, h]
theorem tlbiAsn (n : BitVec 5) : Statement (.tlbiAsn n) := by
  intro h w e
  cases e
  simp (disch := decide) only [Instr.inTile, decodeWord, decodeVector, decodeMajor0E, row, Enc.tlbiAsn, cat_left, cat_right, ex_self, Nat.reduceSub, Nat.reduceAdd, BitVec.reduceToNat, BitVec.reduceExtractLsb', BitVec.reduceBEq, Bool.and_self, beq_self_eq_true, Bool.true_and, Bool.false_eq_true, ite_false, reduceIte, h]
theorem tlbiVa (n : BitVec 5) (m : BitVec 5) : Statement (.tlbiVa n m) := by
  intro h w e
  cases e
  simp (disch := decide) only [Instr.inTile, decodeWord, decodeVector, decodeMajor0E, row, Enc.tlbiVa, cat_left, cat_right, ex_self, Nat.reduceSub, Nat.reduceAdd, BitVec.reduceToNat, BitVec.reduceExtractLsb', BitVec.reduceBEq, Bool.and_self, beq_self_eq_true, Bool.true_and, Bool.false_eq_true, ite_false, reduceIte, h]
theorem tlbiGpa (n : BitVec 5) (m : BitVec 5) : Statement (.tlbiGpa n m) := by
  intro h w e
  cases e
  simp (disch := decide) only [Instr.inTile, decodeWord, decodeVector, decodeMajor0E, row, Enc.tlbiGpa, cat_left, cat_right, ex_self, Nat.reduceSub, Nat.reduceAdd, BitVec.reduceToNat, BitVec.reduceExtractLsb', BitVec.reduceBEq, Bool.and_self, beq_self_eq_true, Bool.true_and, Bool.false_eq_true, ite_false, reduceIte, h]
theorem tlbiPart (m : BitVec 5) : Statement (.tlbiPart m) := by
  intro h w e
  cases e
  simp (disch := decide) only [Instr.inTile, decodeWord, decodeVector, decodeMajor0E, row, Enc.tlbiPart, cat_left, cat_right, ex_self, Nat.reduceSub, Nat.reduceAdd, BitVec.reduceToNat, BitVec.reduceExtractLsb', BitVec.reduceBEq, Bool.and_self, beq_self_eq_true, Bool.true_and, Bool.false_eq_true, ite_false, reduceIte, h]
theorem fence (o : BitVec 2) (s : BitVec 2) : Statement (.fence o s) := by
  intro h w e
  cases e
  simp (disch := decide) only [Instr.inTile, decodeWord, decodeVector, decodeMajor0E, row, Enc.fence, cat_left, cat_right, ex_self, Nat.reduceSub, Nat.reduceAdd, BitVec.reduceToNat, BitVec.reduceExtractLsb', BitVec.reduceBEq, Bool.and_self, beq_self_eq_true, Bool.true_and, Bool.false_eq_true, ite_false, reduceIte, h]
theorem lsync : Statement (.lsync) := by
  intro h w e
  cases e
  simp (disch := decide) only [Instr.inTile, decodeWord, decodeVector, decodeMajor0E, row, Enc.lsync, cat_left, cat_right, ex_self, Nat.reduceSub, Nat.reduceAdd, BitVec.reduceToNat, BitVec.reduceExtractLsb', BitVec.reduceBEq, Bool.and_self, beq_self_eq_true, Bool.true_and, Bool.false_eq_true, ite_false, reduceIte, h]
theorem ifence : Statement (.ifence) := by
  intro h w e
  cases e
  simp (disch := decide) only [Instr.inTile, decodeWord, decodeVector, decodeMajor0E, row, Enc.ifence, cat_left, cat_right, ex_self, Nat.reduceSub, Nat.reduceAdd, BitVec.reduceToNat, BitVec.reduceExtractLsb', BitVec.reduceBEq, Bool.and_self, beq_self_eq_true, Bool.true_and, Bool.false_eq_true, ite_false, reduceIte, h]
theorem launch (n : BitVec 5) : Statement (.launch n) := by
  intro h w e
  cases e
  simp (disch := decide) only [Instr.inTile, decodeWord, decodeVector, decodeMajor0E, row, Enc.launch, cat_left, cat_right, ex_self, Nat.reduceSub, Nat.reduceAdd, BitVec.reduceToNat, BitVec.reduceExtractLsb', BitVec.reduceBEq, Bool.and_self, beq_self_eq_true, Bool.true_and, Bool.false_eq_true, ite_false, reduceIte, h]
theorem nop (h : BitVec 26) : Statement (.nop h) := by
  intro h w e
  cases e
  simp (disch := decide) only [Instr.inTile, decodeWord, decodeVector, decodeMajor0F, row, Enc.nop, cat_left, cat_right, ex_self, Nat.reduceSub, Nat.reduceAdd, BitVec.reduceToNat, BitVec.reduceExtractLsb', BitVec.reduceBEq, Bool.and_self, beq_self_eq_true, Bool.true_and, Bool.false_eq_true, ite_false, reduceIte, h]
theorem illegalInstruction (w : BitVec 32) (sub : IllegalSub) : Statement (.illegalInstruction w sub) := fun _ _ h => nomatch h
theorem setvl (d : BitVec 5) (n : BitVec 5) : Statement (.setvl d n) := by
  intro h w e
  cases e
  simp (disch := decide) only [Instr.inTile, decodeWord, decodeVector, decodeMajor10, row, Enc.setvl, cat_left, cat_right, ex_self, Nat.reduceSub, Nat.reduceAdd, BitVec.reduceToNat, BitVec.reduceExtractLsb', BitVec.reduceBEq, Bool.and_self, beq_self_eq_true, Bool.true_and, Bool.false_eq_true, ite_false, reduceIte, h]
theorem vcfg (c : BitVec 2) : Statement (.vcfg c) := by
  intro h w e
  cases e
  simp (disch := decide) only [Instr.inTile, decodeWord, decodeVector, decodeMajor10, row, Enc.vcfg, cat_left, cat_right, ex_self, Nat.reduceSub, Nat.reduceAdd, BitVec.reduceToNat, BitVec.reduceExtractLsb', BitVec.reduceBEq, Bool.and_self, beq_self_eq_true, Bool.true_and, Bool.false_eq_true, ite_false, reduceIte, h]
theorem vtype (n : BitVec 5) : Statement (.vtype n) := by
  intro h w e
  cases e
  simp (disch := decide) only [Instr.inTile, decodeWord, decodeVector, decodeMajor10, row, Enc.vtype, cat_left, cat_right, ex_self, Nat.reduceSub, Nat.reduceAdd, BitVec.reduceToNat, BitVec.reduceExtractLsb', BitVec.reduceBEq, Bool.and_self, beq_self_eq_true, Bool.true_and, Bool.false_eq_true, ite_false, reduceIte, h]
theorem vwin (d : BitVec 6) (n : BitVec 5) : Statement (.vwin d n) := by
  intro h w e
  cases e
  simp (disch := decide) only [Instr.inTile, decodeWord, decodeVector, decodeMajor10, row, Enc.vwin, cat_left, cat_right, ex_self, Nat.reduceSub, Nat.reduceAdd, BitVec.reduceToNat, BitVec.reduceExtractLsb', BitVec.reduceBEq, Bool.and_self, beq_self_eq_true, Bool.true_and, Bool.false_eq_true, ite_false, reduceIte, h]
theorem lpart (n : BitVec 5) : Statement (.lpart n) := by
  intro h w e
  cases e
  simp (disch := decide) only [Instr.inTile, decodeWord, decodeVector, decodeMajor10, row, Enc.lpart, cat_left, cat_right, ex_self, Nat.reduceSub, Nat.reduceAdd, BitVec.reduceToNat, BitVec.reduceExtractLsb', BitVec.reduceBEq, Bool.and_self, beq_self_eq_true, Bool.true_and, Bool.false_eq_true, ite_false, reduceIte, h]
theorem vadd (d : BitVec 6) (a : BitVec 6) (b : BitVec 6) (k : BitVec 3) : Statement (.vadd d a b k) := by
  intro h w e
  cases e
  simp (disch := decide) only [Instr.inTile, decodeWord, decodeVector, decodeMajor11, row, Enc.vadd, cat_left, cat_right, ex_self, Nat.reduceSub, Nat.reduceAdd, BitVec.reduceToNat, BitVec.reduceExtractLsb', BitVec.reduceBEq, Bool.and_self, beq_self_eq_true, Bool.true_and, Bool.false_eq_true, ite_false, reduceIte, h]
theorem vsub (d : BitVec 6) (a : BitVec 6) (b : BitVec 6) (k : BitVec 3) : Statement (.vsub d a b k) := by
  intro h w e
  cases e
  simp (disch := decide) only [Instr.inTile, decodeWord, decodeVector, decodeMajor11, row, Enc.vsub, cat_left, cat_right, ex_self, Nat.reduceSub, Nat.reduceAdd, BitVec.reduceToNat, BitVec.reduceExtractLsb', BitVec.reduceBEq, Bool.and_self, beq_self_eq_true, Bool.true_and, Bool.false_eq_true, ite_false, reduceIte, h]
theorem vmul (d : BitVec 6) (a : BitVec 6) (b : BitVec 6) (k : BitVec 3) : Statement (.vmul d a b k) := by
  intro h w e
  cases e
  simp (disch := decide) only [Instr.inTile, decodeWord, decodeVector, decodeMajor11, row, Enc.vmul, cat_left, cat_right, ex_self, Nat.reduceSub, Nat.reduceAdd, BitVec.reduceToNat, BitVec.reduceExtractLsb', BitVec.reduceBEq, Bool.and_self, beq_self_eq_true, Bool.true_and, Bool.false_eq_true, ite_false, reduceIte, h]
theorem vmulh (d : BitVec 6) (a : BitVec 6) (b : BitVec 6) (k : BitVec 3) : Statement (.vmulh d a b k) := by
  intro h w e
  cases e
  simp (disch := decide) only [Instr.inTile, decodeWord, decodeVector, decodeMajor11, row, Enc.vmulh, cat_left, cat_right, ex_self, Nat.reduceSub, Nat.reduceAdd, BitVec.reduceToNat, BitVec.reduceExtractLsb', BitVec.reduceBEq, Bool.and_self, beq_self_eq_true, Bool.true_and, Bool.false_eq_true, ite_false, reduceIte, h]
theorem vmadd (d : BitVec 6) (a : BitVec 6) (b : BitVec 6) (k : BitVec 3) : Statement (.vmadd d a b k) := by
  intro h w e
  cases e
  simp (disch := decide) only [Instr.inTile, decodeWord, decodeVector, decodeMajor11, row, Enc.vmadd, cat_left, cat_right, ex_self, Nat.reduceSub, Nat.reduceAdd, BitVec.reduceToNat, BitVec.reduceExtractLsb', BitVec.reduceBEq, Bool.and_self, beq_self_eq_true, Bool.true_and, Bool.false_eq_true, ite_false, reduceIte, h]
theorem vmsub (d : BitVec 6) (a : BitVec 6) (b : BitVec 6) (k : BitVec 3) : Statement (.vmsub d a b k) := by
  intro h w e
  cases e
  simp (disch := decide) only [Instr.inTile, decodeWord, decodeVector, decodeMajor11, row, Enc.vmsub, cat_left, cat_right, ex_self, Nat.reduceSub, Nat.reduceAdd, BitVec.reduceToNat, BitVec.reduceExtractLsb', BitVec.reduceBEq, Bool.and_self, beq_self_eq_true, Bool.true_and, Bool.false_eq_true, ite_false, reduceIte, h]
theorem vdiv (d : BitVec 6) (a : BitVec 6) (b : BitVec 6) (k : BitVec 3) : Statement (.vdiv d a b k) := by
  intro h w e
  cases e
  simp (disch := decide) only [Instr.inTile, decodeWord, decodeVector, decodeMajor11, row, Enc.vdiv, cat_left, cat_right, ex_self, Nat.reduceSub, Nat.reduceAdd, BitVec.reduceToNat, BitVec.reduceExtractLsb', BitVec.reduceBEq, Bool.and_self, beq_self_eq_true, Bool.true_and, Bool.false_eq_true, ite_false, reduceIte, h]
theorem vrem (d : BitVec 6) (a : BitVec 6) (b : BitVec 6) (k : BitVec 3) : Statement (.vrem d a b k) := by
  intro h w e
  cases e
  simp (disch := decide) only [Instr.inTile, decodeWord, decodeVector, decodeMajor11, row, Enc.vrem, cat_left, cat_right, ex_self, Nat.reduceSub, Nat.reduceAdd, BitVec.reduceToNat, BitVec.reduceExtractLsb', BitVec.reduceBEq, Bool.and_self, beq_self_eq_true, Bool.true_and, Bool.false_eq_true, ite_false, reduceIte, h]
theorem vmin (d : BitVec 6) (a : BitVec 6) (b : BitVec 6) (k : BitVec 3) : Statement (.vmin d a b k) := by
  intro h w e
  cases e
  simp (disch := decide) only [Instr.inTile, decodeWord, decodeVector, decodeMajor11, row, Enc.vmin, cat_left, cat_right, ex_self, Nat.reduceSub, Nat.reduceAdd, BitVec.reduceToNat, BitVec.reduceExtractLsb', BitVec.reduceBEq, Bool.and_self, beq_self_eq_true, Bool.true_and, Bool.false_eq_true, ite_false, reduceIte, h]
theorem vmax (d : BitVec 6) (a : BitVec 6) (b : BitVec 6) (k : BitVec 3) : Statement (.vmax d a b k) := by
  intro h w e
  cases e
  simp (disch := decide) only [Instr.inTile, decodeWord, decodeVector, decodeMajor11, row, Enc.vmax, cat_left, cat_right, ex_self, Nat.reduceSub, Nat.reduceAdd, BitVec.reduceToNat, BitVec.reduceExtractLsb', BitVec.reduceBEq, Bool.and_self, beq_self_eq_true, Bool.true_and, Bool.false_eq_true, ite_false, reduceIte, h]
theorem vand (d : BitVec 6) (a : BitVec 6) (b : BitVec 6) (k : BitVec 3) : Statement (.vand d a b k) := by
  intro h w e
  cases e
  simp (disch := decide) only [Instr.inTile, decodeWord, decodeVector, decodeMajor11, row, Enc.vand, cat_left, cat_right, ex_self, Nat.reduceSub, Nat.reduceAdd, BitVec.reduceToNat, BitVec.reduceExtractLsb', BitVec.reduceBEq, Bool.and_self, beq_self_eq_true, Bool.true_and, Bool.false_eq_true, ite_false, reduceIte, h]
theorem vor (d : BitVec 6) (a : BitVec 6) (b : BitVec 6) (k : BitVec 3) : Statement (.vor d a b k) := by
  intro h w e
  cases e
  simp (disch := decide) only [Instr.inTile, decodeWord, decodeVector, decodeMajor11, row, Enc.vor, cat_left, cat_right, ex_self, Nat.reduceSub, Nat.reduceAdd, BitVec.reduceToNat, BitVec.reduceExtractLsb', BitVec.reduceBEq, Bool.and_self, beq_self_eq_true, Bool.true_and, Bool.false_eq_true, ite_false, reduceIte, h]
theorem vxor (d : BitVec 6) (a : BitVec 6) (b : BitVec 6) (k : BitVec 3) : Statement (.vxor d a b k) := by
  intro h w e
  cases e
  simp (disch := decide) only [Instr.inTile, decodeWord, decodeVector, decodeMajor11, row, Enc.vxor, cat_left, cat_right, ex_self, Nat.reduceSub, Nat.reduceAdd, BitVec.reduceToNat, BitVec.reduceExtractLsb', BitVec.reduceBEq, Bool.and_self, beq_self_eq_true, Bool.true_and, Bool.false_eq_true, ite_false, reduceIte, h]
theorem vshl (d : BitVec 6) (a : BitVec 6) (b : BitVec 6) (k : BitVec 3) : Statement (.vshl d a b k) := by
  intro h w e
  cases e
  simp (disch := decide) only [Instr.inTile, decodeWord, decodeVector, decodeMajor11, row, Enc.vshl, cat_left, cat_right, ex_self, Nat.reduceSub, Nat.reduceAdd, BitVec.reduceToNat, BitVec.reduceExtractLsb', BitVec.reduceBEq, Bool.and_self, beq_self_eq_true, Bool.true_and, Bool.false_eq_true, ite_false, reduceIte, h]
theorem vshr (d : BitVec 6) (a : BitVec 6) (b : BitVec 6) (k : BitVec 3) : Statement (.vshr d a b k) := by
  intro h w e
  cases e
  simp (disch := decide) only [Instr.inTile, decodeWord, decodeVector, decodeMajor11, row, Enc.vshr, cat_left, cat_right, ex_self, Nat.reduceSub, Nat.reduceAdd, BitVec.reduceToNat, BitVec.reduceExtractLsb', BitVec.reduceBEq, Bool.and_self, beq_self_eq_true, Bool.true_and, Bool.false_eq_true, ite_false, reduceIte, h]
theorem vsra (d : BitVec 6) (a : BitVec 6) (b : BitVec 6) (k : BitVec 3) : Statement (.vsra d a b k) := by
  intro h w e
  cases e
  simp (disch := decide) only [Instr.inTile, decodeWord, decodeVector, decodeMajor11, row, Enc.vsra, cat_left, cat_right, ex_self, Nat.reduceSub, Nat.reduceAdd, BitVec.reduceToNat, BitVec.reduceExtractLsb', BitVec.reduceBEq, Bool.and_self, beq_self_eq_true, Bool.true_and, Bool.false_eq_true, ite_false, reduceIte, h]
theorem vabs (d : BitVec 6) (a : BitVec 6) (k : BitVec 3) : Statement (.vabs d a k) := by
  intro h w e
  cases e
  simp (disch := decide) only [Instr.inTile, decodeWord, decodeVector, decodeMajor11, row, Enc.vabs, cat_left, cat_right, ex_self, Nat.reduceSub, Nat.reduceAdd, BitVec.reduceToNat, BitVec.reduceExtractLsb', BitVec.reduceBEq, Bool.and_self, beq_self_eq_true, Bool.true_and, Bool.false_eq_true, ite_false, reduceIte, h]
theorem vaddVx (d : BitVec 6) (a : BitVec 6) (n : BitVec 5) (q : BitVec 1) (k : BitVec 3) : Statement (.vaddVx d a n q k) := by
  intro h w e
  cases e
  simp (disch := decide) only [Instr.inTile, decodeWord, decodeVector, decodeMajor12, row, Enc.vaddVx, cat_left, cat_right, ex_self, Nat.reduceSub, Nat.reduceAdd, BitVec.reduceToNat, BitVec.reduceExtractLsb', BitVec.reduceBEq, Bool.and_self, beq_self_eq_true, Bool.true_and, Bool.false_eq_true, ite_false, reduceIte, h]
theorem vsubVx (d : BitVec 6) (a : BitVec 6) (n : BitVec 5) (q : BitVec 1) (k : BitVec 3) : Statement (.vsubVx d a n q k) := by
  intro h w e
  cases e
  simp (disch := decide) only [Instr.inTile, decodeWord, decodeVector, decodeMajor12, row, Enc.vsubVx, cat_left, cat_right, ex_self, Nat.reduceSub, Nat.reduceAdd, BitVec.reduceToNat, BitVec.reduceExtractLsb', BitVec.reduceBEq, Bool.and_self, beq_self_eq_true, Bool.true_and, Bool.false_eq_true, ite_false, reduceIte, h]
theorem vmulVx (d : BitVec 6) (a : BitVec 6) (n : BitVec 5) (q : BitVec 1) (k : BitVec 3) : Statement (.vmulVx d a n q k) := by
  intro h w e
  cases e
  simp (disch := decide) only [Instr.inTile, decodeWord, decodeVector, decodeMajor12, row, Enc.vmulVx, cat_left, cat_right, ex_self, Nat.reduceSub, Nat.reduceAdd, BitVec.reduceToNat, BitVec.reduceExtractLsb', BitVec.reduceBEq, Bool.and_self, beq_self_eq_true, Bool.true_and, Bool.false_eq_true, ite_false, reduceIte, h]
theorem vmulhVx (d : BitVec 6) (a : BitVec 6) (n : BitVec 5) (q : BitVec 1) (k : BitVec 3) : Statement (.vmulhVx d a n q k) := by
  intro h w e
  cases e
  simp (disch := decide) only [Instr.inTile, decodeWord, decodeVector, decodeMajor12, row, Enc.vmulhVx, cat_left, cat_right, ex_self, Nat.reduceSub, Nat.reduceAdd, BitVec.reduceToNat, BitVec.reduceExtractLsb', BitVec.reduceBEq, Bool.and_self, beq_self_eq_true, Bool.true_and, Bool.false_eq_true, ite_false, reduceIte, h]
theorem vmaddVx (d : BitVec 6) (a : BitVec 6) (n : BitVec 5) (q : BitVec 1) (k : BitVec 3) : Statement (.vmaddVx d a n q k) := by
  intro h w e
  cases e
  simp (disch := decide) only [Instr.inTile, decodeWord, decodeVector, decodeMajor12, row, Enc.vmaddVx, cat_left, cat_right, ex_self, Nat.reduceSub, Nat.reduceAdd, BitVec.reduceToNat, BitVec.reduceExtractLsb', BitVec.reduceBEq, Bool.and_self, beq_self_eq_true, Bool.true_and, Bool.false_eq_true, ite_false, reduceIte, h]
theorem vmsubVx (d : BitVec 6) (a : BitVec 6) (n : BitVec 5) (q : BitVec 1) (k : BitVec 3) : Statement (.vmsubVx d a n q k) := by
  intro h w e
  cases e
  simp (disch := decide) only [Instr.inTile, decodeWord, decodeVector, decodeMajor12, row, Enc.vmsubVx, cat_left, cat_right, ex_self, Nat.reduceSub, Nat.reduceAdd, BitVec.reduceToNat, BitVec.reduceExtractLsb', BitVec.reduceBEq, Bool.and_self, beq_self_eq_true, Bool.true_and, Bool.false_eq_true, ite_false, reduceIte, h]
theorem vdivVx (d : BitVec 6) (a : BitVec 6) (n : BitVec 5) (q : BitVec 1) (k : BitVec 3) : Statement (.vdivVx d a n q k) := by
  intro h w e
  cases e
  simp (disch := decide) only [Instr.inTile, decodeWord, decodeVector, decodeMajor12, row, Enc.vdivVx, cat_left, cat_right, ex_self, Nat.reduceSub, Nat.reduceAdd, BitVec.reduceToNat, BitVec.reduceExtractLsb', BitVec.reduceBEq, Bool.and_self, beq_self_eq_true, Bool.true_and, Bool.false_eq_true, ite_false, reduceIte, h]
theorem vremVx (d : BitVec 6) (a : BitVec 6) (n : BitVec 5) (q : BitVec 1) (k : BitVec 3) : Statement (.vremVx d a n q k) := by
  intro h w e
  cases e
  simp (disch := decide) only [Instr.inTile, decodeWord, decodeVector, decodeMajor12, row, Enc.vremVx, cat_left, cat_right, ex_self, Nat.reduceSub, Nat.reduceAdd, BitVec.reduceToNat, BitVec.reduceExtractLsb', BitVec.reduceBEq, Bool.and_self, beq_self_eq_true, Bool.true_and, Bool.false_eq_true, ite_false, reduceIte, h]
theorem vminVx (d : BitVec 6) (a : BitVec 6) (n : BitVec 5) (q : BitVec 1) (k : BitVec 3) : Statement (.vminVx d a n q k) := by
  intro h w e
  cases e
  simp (disch := decide) only [Instr.inTile, decodeWord, decodeVector, decodeMajor12, row, Enc.vminVx, cat_left, cat_right, ex_self, Nat.reduceSub, Nat.reduceAdd, BitVec.reduceToNat, BitVec.reduceExtractLsb', BitVec.reduceBEq, Bool.and_self, beq_self_eq_true, Bool.true_and, Bool.false_eq_true, ite_false, reduceIte, h]
theorem vmaxVx (d : BitVec 6) (a : BitVec 6) (n : BitVec 5) (q : BitVec 1) (k : BitVec 3) : Statement (.vmaxVx d a n q k) := by
  intro h w e
  cases e
  simp (disch := decide) only [Instr.inTile, decodeWord, decodeVector, decodeMajor12, row, Enc.vmaxVx, cat_left, cat_right, ex_self, Nat.reduceSub, Nat.reduceAdd, BitVec.reduceToNat, BitVec.reduceExtractLsb', BitVec.reduceBEq, Bool.and_self, beq_self_eq_true, Bool.true_and, Bool.false_eq_true, ite_false, reduceIte, h]
theorem vandVx (d : BitVec 6) (a : BitVec 6) (n : BitVec 5) (q : BitVec 1) (k : BitVec 3) : Statement (.vandVx d a n q k) := by
  intro h w e
  cases e
  simp (disch := decide) only [Instr.inTile, decodeWord, decodeVector, decodeMajor12, row, Enc.vandVx, cat_left, cat_right, ex_self, Nat.reduceSub, Nat.reduceAdd, BitVec.reduceToNat, BitVec.reduceExtractLsb', BitVec.reduceBEq, Bool.and_self, beq_self_eq_true, Bool.true_and, Bool.false_eq_true, ite_false, reduceIte, h]
theorem vorVx (d : BitVec 6) (a : BitVec 6) (n : BitVec 5) (q : BitVec 1) (k : BitVec 3) : Statement (.vorVx d a n q k) := by
  intro h w e
  cases e
  simp (disch := decide) only [Instr.inTile, decodeWord, decodeVector, decodeMajor12, row, Enc.vorVx, cat_left, cat_right, ex_self, Nat.reduceSub, Nat.reduceAdd, BitVec.reduceToNat, BitVec.reduceExtractLsb', BitVec.reduceBEq, Bool.and_self, beq_self_eq_true, Bool.true_and, Bool.false_eq_true, ite_false, reduceIte, h]
theorem vxorVx (d : BitVec 6) (a : BitVec 6) (n : BitVec 5) (q : BitVec 1) (k : BitVec 3) : Statement (.vxorVx d a n q k) := by
  intro h w e
  cases e
  simp (disch := decide) only [Instr.inTile, decodeWord, decodeVector, decodeMajor12, row, Enc.vxorVx, cat_left, cat_right, ex_self, Nat.reduceSub, Nat.reduceAdd, BitVec.reduceToNat, BitVec.reduceExtractLsb', BitVec.reduceBEq, Bool.and_self, beq_self_eq_true, Bool.true_and, Bool.false_eq_true, ite_false, reduceIte, h]
theorem vshlVx (d : BitVec 6) (a : BitVec 6) (n : BitVec 5) (q : BitVec 1) (k : BitVec 3) : Statement (.vshlVx d a n q k) := by
  intro h w e
  cases e
  simp (disch := decide) only [Instr.inTile, decodeWord, decodeVector, decodeMajor12, row, Enc.vshlVx, cat_left, cat_right, ex_self, Nat.reduceSub, Nat.reduceAdd, BitVec.reduceToNat, BitVec.reduceExtractLsb', BitVec.reduceBEq, Bool.and_self, beq_self_eq_true, Bool.true_and, Bool.false_eq_true, ite_false, reduceIte, h]
theorem vshrVx (d : BitVec 6) (a : BitVec 6) (n : BitVec 5) (q : BitVec 1) (k : BitVec 3) : Statement (.vshrVx d a n q k) := by
  intro h w e
  cases e
  simp (disch := decide) only [Instr.inTile, decodeWord, decodeVector, decodeMajor12, row, Enc.vshrVx, cat_left, cat_right, ex_self, Nat.reduceSub, Nat.reduceAdd, BitVec.reduceToNat, BitVec.reduceExtractLsb', BitVec.reduceBEq, Bool.and_self, beq_self_eq_true, Bool.true_and, Bool.false_eq_true, ite_false, reduceIte, h]
theorem vsraVx (d : BitVec 6) (a : BitVec 6) (n : BitVec 5) (q : BitVec 1) (k : BitVec 3) : Statement (.vsraVx d a n q k) := by
  intro h w e
  cases e
  simp (disch := decide) only [Instr.inTile, decodeWord, decodeVector, decodeMajor12, row, Enc.vsraVx, cat_left, cat_right, ex_self, Nat.reduceSub, Nat.reduceAdd, BitVec.reduceToNat, BitVec.reduceExtractLsb', BitVec.reduceBEq, Bool.and_self, beq_self_eq_true, Bool.true_and, Bool.false_eq_true, ite_false, reduceIte, h]
theorem vfadd (d : BitVec 6) (a : BitVec 6) (b : BitVec 6) (k : BitVec 3) : Statement (.vfadd d a b k) := by
  intro h w e
  cases e
  simp (disch := decide) only [Instr.inTile, decodeWord, decodeVector, decodeMajor13, row, Enc.vfadd, cat_left, cat_right, ex_self, Nat.reduceSub, Nat.reduceAdd, BitVec.reduceToNat, BitVec.reduceExtractLsb', BitVec.reduceBEq, Bool.and_self, beq_self_eq_true, Bool.true_and, Bool.false_eq_true, ite_false, reduceIte, h]
theorem vfsub (d : BitVec 6) (a : BitVec 6) (b : BitVec 6) (k : BitVec 3) : Statement (.vfsub d a b k) := by
  intro h w e
  cases e
  simp (disch := decide) only [Instr.inTile, decodeWord, decodeVector, decodeMajor13, row, Enc.vfsub, cat_left, cat_right, ex_self, Nat.reduceSub, Nat.reduceAdd, BitVec.reduceToNat, BitVec.reduceExtractLsb', BitVec.reduceBEq, Bool.and_self, beq_self_eq_true, Bool.true_and, Bool.false_eq_true, ite_false, reduceIte, h]
theorem vfmul (d : BitVec 6) (a : BitVec 6) (b : BitVec 6) (k : BitVec 3) : Statement (.vfmul d a b k) := by
  intro h w e
  cases e
  simp (disch := decide) only [Instr.inTile, decodeWord, decodeVector, decodeMajor13, row, Enc.vfmul, cat_left, cat_right, ex_self, Nat.reduceSub, Nat.reduceAdd, BitVec.reduceToNat, BitVec.reduceExtractLsb', BitVec.reduceBEq, Bool.and_self, beq_self_eq_true, Bool.true_and, Bool.false_eq_true, ite_false, reduceIte, h]
theorem vfdiv (d : BitVec 6) (a : BitVec 6) (b : BitVec 6) (k : BitVec 3) : Statement (.vfdiv d a b k) := by
  intro h w e
  cases e
  simp (disch := decide) only [Instr.inTile, decodeWord, decodeVector, decodeMajor13, row, Enc.vfdiv, cat_left, cat_right, ex_self, Nat.reduceSub, Nat.reduceAdd, BitVec.reduceToNat, BitVec.reduceExtractLsb', BitVec.reduceBEq, Bool.and_self, beq_self_eq_true, Bool.true_and, Bool.false_eq_true, ite_false, reduceIte, h]
theorem vfsqrt (d : BitVec 6) (a : BitVec 6) (k : BitVec 3) : Statement (.vfsqrt d a k) := by
  intro h w e
  cases e
  simp (disch := decide) only [Instr.inTile, decodeWord, decodeVector, decodeMajor13, row, Enc.vfsqrt, cat_left, cat_right, ex_self, Nat.reduceSub, Nat.reduceAdd, BitVec.reduceToNat, BitVec.reduceExtractLsb', BitVec.reduceBEq, Bool.and_self, beq_self_eq_true, Bool.true_and, Bool.false_eq_true, ite_false, reduceIte, h]
theorem vfrsqe (d : BitVec 6) (a : BitVec 6) (k : BitVec 3) : Statement (.vfrsqe d a k) := by
  intro h w e
  cases e
  simp (disch := decide) only [Instr.inTile, decodeWord, decodeVector, decodeMajor13, row, Enc.vfrsqe, cat_left, cat_right, ex_self, Nat.reduceSub, Nat.reduceAdd, BitVec.reduceToNat, BitVec.reduceExtractLsb', BitVec.reduceBEq, Bool.and_self, beq_self_eq_true, Bool.true_and, Bool.false_eq_true, ite_false, reduceIte, h]
theorem vfma (d : BitVec 6) (a : BitVec 6) (b : BitVec 6) (k : BitVec 3) : Statement (.vfma d a b k) := by
  intro h w e
  cases e
  simp (disch := decide) only [Instr.inTile, decodeWord, decodeVector, decodeMajor13, row, Enc.vfma, cat_left, cat_right, ex_self, Nat.reduceSub, Nat.reduceAdd, BitVec.reduceToNat, BitVec.reduceExtractLsb', BitVec.reduceBEq, Bool.and_self, beq_self_eq_true, Bool.true_and, Bool.false_eq_true, ite_false, reduceIte, h]
theorem vfms (d : BitVec 6) (a : BitVec 6) (b : BitVec 6) (k : BitVec 3) : Statement (.vfms d a b k) := by
  intro h w e
  cases e
  simp (disch := decide) only [Instr.inTile, decodeWord, decodeVector, decodeMajor13, row, Enc.vfms, cat_left, cat_right, ex_self, Nat.reduceSub, Nat.reduceAdd, BitVec.reduceToNat, BitVec.reduceExtractLsb', BitVec.reduceBEq, Bool.and_self, beq_self_eq_true, Bool.true_and, Bool.false_eq_true, ite_false, reduceIte, h]
theorem vfnma (d : BitVec 6) (a : BitVec 6) (b : BitVec 6) (k : BitVec 3) : Statement (.vfnma d a b k) := by
  intro h w e
  cases e
  simp (disch := decide) only [Instr.inTile, decodeWord, decodeVector, decodeMajor13, row, Enc.vfnma, cat_left, cat_right, ex_self, Nat.reduceSub, Nat.reduceAdd, BitVec.reduceToNat, BitVec.reduceExtractLsb', BitVec.reduceBEq, Bool.and_self, beq_self_eq_true, Bool.true_and, Bool.false_eq_true, ite_false, reduceIte, h]
theorem vfmin (d : BitVec 6) (a : BitVec 6) (b : BitVec 6) (k : BitVec 3) : Statement (.vfmin d a b k) := by
  intro h w e
  cases e
  simp (disch := decide) only [Instr.inTile, decodeWord, decodeVector, decodeMajor13, row, Enc.vfmin, cat_left, cat_right, ex_self, Nat.reduceSub, Nat.reduceAdd, BitVec.reduceToNat, BitVec.reduceExtractLsb', BitVec.reduceBEq, Bool.and_self, beq_self_eq_true, Bool.true_and, Bool.false_eq_true, ite_false, reduceIte, h]
theorem vfmax (d : BitVec 6) (a : BitVec 6) (b : BitVec 6) (k : BitVec 3) : Statement (.vfmax d a b k) := by
  intro h w e
  cases e
  simp (disch := decide) only [Instr.inTile, decodeWord, decodeVector, decodeMajor13, row, Enc.vfmax, cat_left, cat_right, ex_self, Nat.reduceSub, Nat.reduceAdd, BitVec.reduceToNat, BitVec.reduceExtractLsb', BitVec.reduceBEq, Bool.and_self, beq_self_eq_true, Bool.true_and, Bool.false_eq_true, ite_false, reduceIte, h]
theorem vfabs (d : BitVec 6) (a : BitVec 6) (k : BitVec 3) : Statement (.vfabs d a k) := by
  intro h w e
  cases e
  simp (disch := decide) only [Instr.inTile, decodeWord, decodeVector, decodeMajor13, row, Enc.vfabs, cat_left, cat_right, ex_self, Nat.reduceSub, Nat.reduceAdd, BitVec.reduceToNat, BitVec.reduceExtractLsb', BitVec.reduceBEq, Bool.and_self, beq_self_eq_true, Bool.true_and, Bool.false_eq_true, ite_false, reduceIte, h]
theorem vfneg (d : BitVec 6) (a : BitVec 6) (k : BitVec 3) : Statement (.vfneg d a k) := by
  intro h w e
  cases e
  simp (disch := decide) only [Instr.inTile, decodeWord, decodeVector, decodeMajor13, row, Enc.vfneg, cat_left, cat_right, ex_self, Nat.reduceSub, Nat.reduceAdd, BitVec.reduceToNat, BitVec.reduceExtractLsb', BitVec.reduceBEq, Bool.and_self, beq_self_eq_true, Bool.true_and, Bool.false_eq_true, ite_false, reduceIte, h]
theorem vcvt (d : BitVec 6) (a : BitVec 6) (t : BitVec 4) (k : BitVec 3) : Statement (.vcvt d a t k) := by
  intro h w e
  cases e
  simp (disch := decide) only [Instr.inTile, decodeWord, decodeVector, decodeMajor13, row, Enc.vcvt, cat_left, cat_right, ex_self, Nat.reduceSub, Nat.reduceAdd, BitVec.reduceToNat, BitVec.reduceExtractLsb', BitVec.reduceBEq, Bool.and_self, beq_self_eq_true, Bool.true_and, Bool.false_eq_true, ite_false, reduceIte, h]
theorem vfaddVx (d : BitVec 6) (a : BitVec 6) (n : BitVec 5) (q : BitVec 1) (k : BitVec 3) : Statement (.vfaddVx d a n q k) := by
  intro h w e
  cases e
  simp (disch := decide) only [Instr.inTile, decodeWord, decodeVector, decodeMajor14, row, Enc.vfaddVx, cat_left, cat_right, ex_self, Nat.reduceSub, Nat.reduceAdd, BitVec.reduceToNat, BitVec.reduceExtractLsb', BitVec.reduceBEq, Bool.and_self, beq_self_eq_true, Bool.true_and, Bool.false_eq_true, ite_false, reduceIte, h]
theorem vfsubVx (d : BitVec 6) (a : BitVec 6) (n : BitVec 5) (q : BitVec 1) (k : BitVec 3) : Statement (.vfsubVx d a n q k) := by
  intro h w e
  cases e
  simp (disch := decide) only [Instr.inTile, decodeWord, decodeVector, decodeMajor14, row, Enc.vfsubVx, cat_left, cat_right, ex_self, Nat.reduceSub, Nat.reduceAdd, BitVec.reduceToNat, BitVec.reduceExtractLsb', BitVec.reduceBEq, Bool.and_self, beq_self_eq_true, Bool.true_and, Bool.false_eq_true, ite_false, reduceIte, h]
theorem vfmulVx (d : BitVec 6) (a : BitVec 6) (n : BitVec 5) (q : BitVec 1) (k : BitVec 3) : Statement (.vfmulVx d a n q k) := by
  intro h w e
  cases e
  simp (disch := decide) only [Instr.inTile, decodeWord, decodeVector, decodeMajor14, row, Enc.vfmulVx, cat_left, cat_right, ex_self, Nat.reduceSub, Nat.reduceAdd, BitVec.reduceToNat, BitVec.reduceExtractLsb', BitVec.reduceBEq, Bool.and_self, beq_self_eq_true, Bool.true_and, Bool.false_eq_true, ite_false, reduceIte, h]
theorem vfdivVx (d : BitVec 6) (a : BitVec 6) (n : BitVec 5) (q : BitVec 1) (k : BitVec 3) : Statement (.vfdivVx d a n q k) := by
  intro h w e
  cases e
  simp (disch := decide) only [Instr.inTile, decodeWord, decodeVector, decodeMajor14, row, Enc.vfdivVx, cat_left, cat_right, ex_self, Nat.reduceSub, Nat.reduceAdd, BitVec.reduceToNat, BitVec.reduceExtractLsb', BitVec.reduceBEq, Bool.and_self, beq_self_eq_true, Bool.true_and, Bool.false_eq_true, ite_false, reduceIte, h]
theorem vfmaVx (d : BitVec 6) (a : BitVec 6) (n : BitVec 5) (q : BitVec 1) (k : BitVec 3) : Statement (.vfmaVx d a n q k) := by
  intro h w e
  cases e
  simp (disch := decide) only [Instr.inTile, decodeWord, decodeVector, decodeMajor14, row, Enc.vfmaVx, cat_left, cat_right, ex_self, Nat.reduceSub, Nat.reduceAdd, BitVec.reduceToNat, BitVec.reduceExtractLsb', BitVec.reduceBEq, Bool.and_self, beq_self_eq_true, Bool.true_and, Bool.false_eq_true, ite_false, reduceIte, h]
theorem vfmsVx (d : BitVec 6) (a : BitVec 6) (n : BitVec 5) (q : BitVec 1) (k : BitVec 3) : Statement (.vfmsVx d a n q k) := by
  intro h w e
  cases e
  simp (disch := decide) only [Instr.inTile, decodeWord, decodeVector, decodeMajor14, row, Enc.vfmsVx, cat_left, cat_right, ex_self, Nat.reduceSub, Nat.reduceAdd, BitVec.reduceToNat, BitVec.reduceExtractLsb', BitVec.reduceBEq, Bool.and_self, beq_self_eq_true, Bool.true_and, Bool.false_eq_true, ite_false, reduceIte, h]
theorem vfnmaVx (d : BitVec 6) (a : BitVec 6) (n : BitVec 5) (q : BitVec 1) (k : BitVec 3) : Statement (.vfnmaVx d a n q k) := by
  intro h w e
  cases e
  simp (disch := decide) only [Instr.inTile, decodeWord, decodeVector, decodeMajor14, row, Enc.vfnmaVx, cat_left, cat_right, ex_self, Nat.reduceSub, Nat.reduceAdd, BitVec.reduceToNat, BitVec.reduceExtractLsb', BitVec.reduceBEq, Bool.and_self, beq_self_eq_true, Bool.true_and, Bool.false_eq_true, ite_false, reduceIte, h]
theorem vfminVx (d : BitVec 6) (a : BitVec 6) (n : BitVec 5) (q : BitVec 1) (k : BitVec 3) : Statement (.vfminVx d a n q k) := by
  intro h w e
  cases e
  simp (disch := decide) only [Instr.inTile, decodeWord, decodeVector, decodeMajor14, row, Enc.vfminVx, cat_left, cat_right, ex_self, Nat.reduceSub, Nat.reduceAdd, BitVec.reduceToNat, BitVec.reduceExtractLsb', BitVec.reduceBEq, Bool.and_self, beq_self_eq_true, Bool.true_and, Bool.false_eq_true, ite_false, reduceIte, h]
theorem vfmaxVx (d : BitVec 6) (a : BitVec 6) (n : BitVec 5) (q : BitVec 1) (k : BitVec 3) : Statement (.vfmaxVx d a n q k) := by
  intro h w e
  cases e
  simp (disch := decide) only [Instr.inTile, decodeWord, decodeVector, decodeMajor14, row, Enc.vfmaxVx, cat_left, cat_right, ex_self, Nat.reduceSub, Nat.reduceAdd, BitVec.reduceToNat, BitVec.reduceExtractLsb', BitVec.reduceBEq, Bool.and_self, beq_self_eq_true, Bool.true_and, Bool.false_eq_true, ite_false, reduceIte, h]
theorem vcmpEq (d : BitVec 3) (a : BitVec 6) (b : BitVec 6) (k : BitVec 3) : Statement (.vcmpEq d a b k) := by
  intro h w e
  cases e
  simp (disch := decide) only [Instr.inTile, decodeWord, decodeVector, decodeMajor15, row, Enc.vcmpEq, cat_left, cat_right, ex_self, Nat.reduceSub, Nat.reduceAdd, BitVec.reduceToNat, BitVec.reduceExtractLsb', BitVec.reduceBEq, Bool.and_self, beq_self_eq_true, Bool.true_and, Bool.false_eq_true, ite_false, reduceIte, h]
theorem vcmpNe (d : BitVec 3) (a : BitVec 6) (b : BitVec 6) (k : BitVec 3) : Statement (.vcmpNe d a b k) := by
  intro h w e
  cases e
  simp (disch := decide) only [Instr.inTile, decodeWord, decodeVector, decodeMajor15, row, Enc.vcmpNe, cat_left, cat_right, ex_self, Nat.reduceSub, Nat.reduceAdd, BitVec.reduceToNat, BitVec.reduceExtractLsb', BitVec.reduceBEq, Bool.and_self, beq_self_eq_true, Bool.true_and, Bool.false_eq_true, ite_false, reduceIte, h]
theorem vcmpLt (d : BitVec 3) (a : BitVec 6) (b : BitVec 6) (k : BitVec 3) : Statement (.vcmpLt d a b k) := by
  intro h w e
  cases e
  simp (disch := decide) only [Instr.inTile, decodeWord, decodeVector, decodeMajor15, row, Enc.vcmpLt, cat_left, cat_right, ex_self, Nat.reduceSub, Nat.reduceAdd, BitVec.reduceToNat, BitVec.reduceExtractLsb', BitVec.reduceBEq, Bool.and_self, beq_self_eq_true, Bool.true_and, Bool.false_eq_true, ite_false, reduceIte, h]
theorem vcmpLe (d : BitVec 3) (a : BitVec 6) (b : BitVec 6) (k : BitVec 3) : Statement (.vcmpLe d a b k) := by
  intro h w e
  cases e
  simp (disch := decide) only [Instr.inTile, decodeWord, decodeVector, decodeMajor15, row, Enc.vcmpLe, cat_left, cat_right, ex_self, Nat.reduceSub, Nat.reduceAdd, BitVec.reduceToNat, BitVec.reduceExtractLsb', BitVec.reduceBEq, Bool.and_self, beq_self_eq_true, Bool.true_and, Bool.false_eq_true, ite_false, reduceIte, h]
theorem vcmpLtu (d : BitVec 3) (a : BitVec 6) (b : BitVec 6) (k : BitVec 3) : Statement (.vcmpLtu d a b k) := by
  intro h w e
  cases e
  simp (disch := decide) only [Instr.inTile, decodeWord, decodeVector, decodeMajor15, row, Enc.vcmpLtu, cat_left, cat_right, ex_self, Nat.reduceSub, Nat.reduceAdd, BitVec.reduceToNat, BitVec.reduceExtractLsb', BitVec.reduceBEq, Bool.and_self, beq_self_eq_true, Bool.true_and, Bool.false_eq_true, ite_false, reduceIte, h]
theorem vcmpLeu (d : BitVec 3) (a : BitVec 6) (b : BitVec 6) (k : BitVec 3) : Statement (.vcmpLeu d a b k) := by
  intro h w e
  cases e
  simp (disch := decide) only [Instr.inTile, decodeWord, decodeVector, decodeMajor15, row, Enc.vcmpLeu, cat_left, cat_right, ex_self, Nat.reduceSub, Nat.reduceAdd, BitVec.reduceToNat, BitVec.reduceExtractLsb', BitVec.reduceBEq, Bool.and_self, beq_self_eq_true, Bool.true_and, Bool.false_eq_true, ite_false, reduceIte, h]
theorem vfcmpEq (d : BitVec 3) (a : BitVec 6) (b : BitVec 6) (k : BitVec 3) : Statement (.vfcmpEq d a b k) := by
  intro h w e
  cases e
  simp (disch := decide) only [Instr.inTile, decodeWord, decodeVector, decodeMajor15, row, Enc.vfcmpEq, cat_left, cat_right, ex_self, Nat.reduceSub, Nat.reduceAdd, BitVec.reduceToNat, BitVec.reduceExtractLsb', BitVec.reduceBEq, Bool.and_self, beq_self_eq_true, Bool.true_and, Bool.false_eq_true, ite_false, reduceIte, h]
theorem vfcmpNe (d : BitVec 3) (a : BitVec 6) (b : BitVec 6) (k : BitVec 3) : Statement (.vfcmpNe d a b k) := by
  intro h w e
  cases e
  simp (disch := decide) only [Instr.inTile, decodeWord, decodeVector, decodeMajor15, row, Enc.vfcmpNe, cat_left, cat_right, ex_self, Nat.reduceSub, Nat.reduceAdd, BitVec.reduceToNat, BitVec.reduceExtractLsb', BitVec.reduceBEq, Bool.and_self, beq_self_eq_true, Bool.true_and, Bool.false_eq_true, ite_false, reduceIte, h]
theorem vfcmpLt (d : BitVec 3) (a : BitVec 6) (b : BitVec 6) (k : BitVec 3) : Statement (.vfcmpLt d a b k) := by
  intro h w e
  cases e
  simp (disch := decide) only [Instr.inTile, decodeWord, decodeVector, decodeMajor15, row, Enc.vfcmpLt, cat_left, cat_right, ex_self, Nat.reduceSub, Nat.reduceAdd, BitVec.reduceToNat, BitVec.reduceExtractLsb', BitVec.reduceBEq, Bool.and_self, beq_self_eq_true, Bool.true_and, Bool.false_eq_true, ite_false, reduceIte, h]
theorem vfcmpLe (d : BitVec 3) (a : BitVec 6) (b : BitVec 6) (k : BitVec 3) : Statement (.vfcmpLe d a b k) := by
  intro h w e
  cases e
  simp (disch := decide) only [Instr.inTile, decodeWord, decodeVector, decodeMajor15, row, Enc.vfcmpLe, cat_left, cat_right, ex_self, Nat.reduceSub, Nat.reduceAdd, BitVec.reduceToNat, BitVec.reduceExtractLsb', BitVec.reduceBEq, Bool.and_self, beq_self_eq_true, Bool.true_and, Bool.false_eq_true, ite_false, reduceIte, h]
theorem vfcmpUnord (d : BitVec 3) (a : BitVec 6) (b : BitVec 6) (k : BitVec 3) : Statement (.vfcmpUnord d a b k) := by
  intro h w e
  cases e
  simp (disch := decide) only [Instr.inTile, decodeWord, decodeVector, decodeMajor15, row, Enc.vfcmpUnord, cat_left, cat_right, ex_self, Nat.reduceSub, Nat.reduceAdd, BitVec.reduceToNat, BitVec.reduceExtractLsb', BitVec.reduceBEq, Bool.and_self, beq_self_eq_true, Bool.true_and, Bool.false_eq_true, ite_false, reduceIte, h]
theorem vfcmpOrd (d : BitVec 3) (a : BitVec 6) (b : BitVec 6) (k : BitVec 3) : Statement (.vfcmpOrd d a b k) := by
  intro h w e
  cases e
  simp (disch := decide) only [Instr.inTile, decodeWord, decodeVector, decodeMajor15, row, Enc.vfcmpOrd, cat_left, cat_right, ex_self, Nat.reduceSub, Nat.reduceAdd, BitVec.reduceToNat, BitVec.reduceExtractLsb', BitVec.reduceBEq, Bool.and_self, beq_self_eq_true, Bool.true_and, Bool.false_eq_true, ite_false, reduceIte, h]
theorem mand (d : BitVec 3) (a : BitVec 3) (b : BitVec 3) (k : BitVec 3) : Statement (.mand d a b k) := by
  intro h w e
  cases e
  simp (disch := decide) only [Instr.inTile, decodeWord, decodeVector, decodeMajor15, row, Enc.mand, cat_left, cat_right, ex_self, Nat.reduceSub, Nat.reduceAdd, BitVec.reduceToNat, BitVec.reduceExtractLsb', BitVec.reduceBEq, Bool.and_self, beq_self_eq_true, Bool.true_and, Bool.false_eq_true, ite_false, reduceIte, h]
theorem mor (d : BitVec 3) (a : BitVec 3) (b : BitVec 3) (k : BitVec 3) : Statement (.mor d a b k) := by
  intro h w e
  cases e
  simp (disch := decide) only [Instr.inTile, decodeWord, decodeVector, decodeMajor15, row, Enc.mor, cat_left, cat_right, ex_self, Nat.reduceSub, Nat.reduceAdd, BitVec.reduceToNat, BitVec.reduceExtractLsb', BitVec.reduceBEq, Bool.and_self, beq_self_eq_true, Bool.true_and, Bool.false_eq_true, ite_false, reduceIte, h]
theorem mxor (d : BitVec 3) (a : BitVec 3) (b : BitVec 3) (k : BitVec 3) : Statement (.mxor d a b k) := by
  intro h w e
  cases e
  simp (disch := decide) only [Instr.inTile, decodeWord, decodeVector, decodeMajor15, row, Enc.mxor, cat_left, cat_right, ex_self, Nat.reduceSub, Nat.reduceAdd, BitVec.reduceToNat, BitVec.reduceExtractLsb', BitVec.reduceBEq, Bool.and_self, beq_self_eq_true, Bool.true_and, Bool.false_eq_true, ite_false, reduceIte, h]
theorem mnot (d : BitVec 3) (a : BitVec 3) (k : BitVec 3) : Statement (.mnot d a k) := by
  intro h w e
  cases e
  simp (disch := decide) only [Instr.inTile, decodeWord, decodeVector, decodeMajor15, row, Enc.mnot, cat_left, cat_right, ex_self, Nat.reduceSub, Nat.reduceAdd, BitVec.reduceToNat, BitVec.reduceExtractLsb', BitVec.reduceBEq, Bool.and_self, beq_self_eq_true, Bool.true_and, Bool.false_eq_true, ite_false, reduceIte, h]
theorem mpopc (d : BitVec 5) (a : BitVec 3) (k : BitVec 3) : Statement (.mpopc d a k) := by
  intro h w e
  cases e
  simp (disch := decide) only [Instr.inTile, decodeWord, decodeVector, decodeMajor15, row, Enc.mpopc, cat_left, cat_right, ex_self, Nat.reduceSub, Nat.reduceAdd, BitVec.reduceToNat, BitVec.reduceExtractLsb', BitVec.reduceBEq, Bool.and_self, beq_self_eq_true, Bool.true_and, Bool.false_eq_true, ite_false, reduceIte, h]
theorem mfirst (d : BitVec 5) (a : BitVec 3) (k : BitVec 3) : Statement (.mfirst d a k) := by
  intro h w e
  cases e
  simp (disch := decide) only [Instr.inTile, decodeWord, decodeVector, decodeMajor15, row, Enc.mfirst, cat_left, cat_right, ex_self, Nat.reduceSub, Nat.reduceAdd, BitVec.reduceToNat, BitVec.reduceExtractLsb', BitVec.reduceBEq, Bool.and_self, beq_self_eq_true, Bool.true_and, Bool.false_eq_true, ite_false, reduceIte, h]
theorem mset (d : BitVec 3) (k : BitVec 3) : Statement (.mset d k) := by
  intro h w e
  cases e
  simp (disch := decide) only [Instr.inTile, decodeWord, decodeVector, decodeMajor15, row, Enc.mset, cat_left, cat_right, ex_self, Nat.reduceSub, Nat.reduceAdd, BitVec.reduceToNat, BitVec.reduceExtractLsb', BitVec.reduceBEq, Bool.and_self, beq_self_eq_true, Bool.true_and, Bool.false_eq_true, ite_false, reduceIte, h]
theorem vcmpEqVx (d : BitVec 3) (a : BitVec 6) (n : BitVec 5) (q : BitVec 1) (k : BitVec 3) : Statement (.vcmpEqVx d a n q k) := by
  intro h w e
  cases e
  simp (disch := decide) only [Instr.inTile, decodeWord, decodeVector, decodeMajor16, row, Enc.vcmpEqVx, cat_left, cat_right, ex_self, Nat.reduceSub, Nat.reduceAdd, BitVec.reduceToNat, BitVec.reduceExtractLsb', BitVec.reduceBEq, Bool.and_self, beq_self_eq_true, Bool.true_and, Bool.false_eq_true, ite_false, reduceIte, h]
theorem vcmpNeVx (d : BitVec 3) (a : BitVec 6) (n : BitVec 5) (q : BitVec 1) (k : BitVec 3) : Statement (.vcmpNeVx d a n q k) := by
  intro h w e
  cases e
  simp (disch := decide) only [Instr.inTile, decodeWord, decodeVector, decodeMajor16, row, Enc.vcmpNeVx, cat_left, cat_right, ex_self, Nat.reduceSub, Nat.reduceAdd, BitVec.reduceToNat, BitVec.reduceExtractLsb', BitVec.reduceBEq, Bool.and_self, beq_self_eq_true, Bool.true_and, Bool.false_eq_true, ite_false, reduceIte, h]
theorem vcmpLtVx (d : BitVec 3) (a : BitVec 6) (n : BitVec 5) (q : BitVec 1) (k : BitVec 3) : Statement (.vcmpLtVx d a n q k) := by
  intro h w e
  cases e
  simp (disch := decide) only [Instr.inTile, decodeWord, decodeVector, decodeMajor16, row, Enc.vcmpLtVx, cat_left, cat_right, ex_self, Nat.reduceSub, Nat.reduceAdd, BitVec.reduceToNat, BitVec.reduceExtractLsb', BitVec.reduceBEq, Bool.and_self, beq_self_eq_true, Bool.true_and, Bool.false_eq_true, ite_false, reduceIte, h]
theorem vcmpLeVx (d : BitVec 3) (a : BitVec 6) (n : BitVec 5) (q : BitVec 1) (k : BitVec 3) : Statement (.vcmpLeVx d a n q k) := by
  intro h w e
  cases e
  simp (disch := decide) only [Instr.inTile, decodeWord, decodeVector, decodeMajor16, row, Enc.vcmpLeVx, cat_left, cat_right, ex_self, Nat.reduceSub, Nat.reduceAdd, BitVec.reduceToNat, BitVec.reduceExtractLsb', BitVec.reduceBEq, Bool.and_self, beq_self_eq_true, Bool.true_and, Bool.false_eq_true, ite_false, reduceIte, h]
theorem vcmpLtuVx (d : BitVec 3) (a : BitVec 6) (n : BitVec 5) (q : BitVec 1) (k : BitVec 3) : Statement (.vcmpLtuVx d a n q k) := by
  intro h w e
  cases e
  simp (disch := decide) only [Instr.inTile, decodeWord, decodeVector, decodeMajor16, row, Enc.vcmpLtuVx, cat_left, cat_right, ex_self, Nat.reduceSub, Nat.reduceAdd, BitVec.reduceToNat, BitVec.reduceExtractLsb', BitVec.reduceBEq, Bool.and_self, beq_self_eq_true, Bool.true_and, Bool.false_eq_true, ite_false, reduceIte, h]
theorem vcmpLeuVx (d : BitVec 3) (a : BitVec 6) (n : BitVec 5) (q : BitVec 1) (k : BitVec 3) : Statement (.vcmpLeuVx d a n q k) := by
  intro h w e
  cases e
  simp (disch := decide) only [Instr.inTile, decodeWord, decodeVector, decodeMajor16, row, Enc.vcmpLeuVx, cat_left, cat_right, ex_self, Nat.reduceSub, Nat.reduceAdd, BitVec.reduceToNat, BitVec.reduceExtractLsb', BitVec.reduceBEq, Bool.and_self, beq_self_eq_true, Bool.true_and, Bool.false_eq_true, ite_false, reduceIte, h]
theorem vfcmpEqVx (d : BitVec 3) (a : BitVec 6) (n : BitVec 5) (q : BitVec 1) (k : BitVec 3) : Statement (.vfcmpEqVx d a n q k) := by
  intro h w e
  cases e
  simp (disch := decide) only [Instr.inTile, decodeWord, decodeVector, decodeMajor16, row, Enc.vfcmpEqVx, cat_left, cat_right, ex_self, Nat.reduceSub, Nat.reduceAdd, BitVec.reduceToNat, BitVec.reduceExtractLsb', BitVec.reduceBEq, Bool.and_self, beq_self_eq_true, Bool.true_and, Bool.false_eq_true, ite_false, reduceIte, h]
theorem vfcmpNeVx (d : BitVec 3) (a : BitVec 6) (n : BitVec 5) (q : BitVec 1) (k : BitVec 3) : Statement (.vfcmpNeVx d a n q k) := by
  intro h w e
  cases e
  simp (disch := decide) only [Instr.inTile, decodeWord, decodeVector, decodeMajor16, row, Enc.vfcmpNeVx, cat_left, cat_right, ex_self, Nat.reduceSub, Nat.reduceAdd, BitVec.reduceToNat, BitVec.reduceExtractLsb', BitVec.reduceBEq, Bool.and_self, beq_self_eq_true, Bool.true_and, Bool.false_eq_true, ite_false, reduceIte, h]
theorem vfcmpLtVx (d : BitVec 3) (a : BitVec 6) (n : BitVec 5) (q : BitVec 1) (k : BitVec 3) : Statement (.vfcmpLtVx d a n q k) := by
  intro h w e
  cases e
  simp (disch := decide) only [Instr.inTile, decodeWord, decodeVector, decodeMajor16, row, Enc.vfcmpLtVx, cat_left, cat_right, ex_self, Nat.reduceSub, Nat.reduceAdd, BitVec.reduceToNat, BitVec.reduceExtractLsb', BitVec.reduceBEq, Bool.and_self, beq_self_eq_true, Bool.true_and, Bool.false_eq_true, ite_false, reduceIte, h]
theorem vfcmpLeVx (d : BitVec 3) (a : BitVec 6) (n : BitVec 5) (q : BitVec 1) (k : BitVec 3) : Statement (.vfcmpLeVx d a n q k) := by
  intro h w e
  cases e
  simp (disch := decide) only [Instr.inTile, decodeWord, decodeVector, decodeMajor16, row, Enc.vfcmpLeVx, cat_left, cat_right, ex_self, Nat.reduceSub, Nat.reduceAdd, BitVec.reduceToNat, BitVec.reduceExtractLsb', BitVec.reduceBEq, Bool.and_self, beq_self_eq_true, Bool.true_and, Bool.false_eq_true, ite_false, reduceIte, h]
theorem vfcmpUnordVx (d : BitVec 3) (a : BitVec 6) (n : BitVec 5) (q : BitVec 1) (k : BitVec 3) : Statement (.vfcmpUnordVx d a n q k) := by
  intro h w e
  cases e
  simp (disch := decide) only [Instr.inTile, decodeWord, decodeVector, decodeMajor16, row, Enc.vfcmpUnordVx, cat_left, cat_right, ex_self, Nat.reduceSub, Nat.reduceAdd, BitVec.reduceToNat, BitVec.reduceExtractLsb', BitVec.reduceBEq, Bool.and_self, beq_self_eq_true, Bool.true_and, Bool.false_eq_true, ite_false, reduceIte, h]
theorem vfcmpOrdVx (d : BitVec 3) (a : BitVec 6) (n : BitVec 5) (q : BitVec 1) (k : BitVec 3) : Statement (.vfcmpOrdVx d a n q k) := by
  intro h w e
  cases e
  simp (disch := decide) only [Instr.inTile, decodeWord, decodeVector, decodeMajor16, row, Enc.vfcmpOrdVx, cat_left, cat_right, ex_self, Nat.reduceSub, Nat.reduceAdd, BitVec.reduceToNat, BitVec.reduceExtractLsb', BitVec.reduceBEq, Bool.and_self, beq_self_eq_true, Bool.true_and, Bool.false_eq_true, ite_false, reduceIte, h]
theorem vredsum (d : BitVec 5) (a : BitVec 6) (n : BitVec 5) (q : BitVec 1) (k : BitVec 3) : Statement (.vredsum d a n q k) := by
  intro h w e
  cases e
  simp (disch := decide) only [Instr.inTile, decodeWord, decodeVector, decodeMajor17, row, Enc.vredsum, cat_left, cat_right, ex_self, Nat.reduceSub, Nat.reduceAdd, BitVec.reduceToNat, BitVec.reduceExtractLsb', BitVec.reduceBEq, Bool.and_self, beq_self_eq_true, Bool.true_and, Bool.false_eq_true, ite_false, reduceIte, h]
theorem vredmax (d : BitVec 5) (a : BitVec 6) (n : BitVec 5) (q : BitVec 1) (k : BitVec 3) : Statement (.vredmax d a n q k) := by
  intro h w e
  cases e
  simp (disch := decide) only [Instr.inTile, decodeWord, decodeVector, decodeMajor17, row, Enc.vredmax, cat_left, cat_right, ex_self, Nat.reduceSub, Nat.reduceAdd, BitVec.reduceToNat, BitVec.reduceExtractLsb', BitVec.reduceBEq, Bool.and_self, beq_self_eq_true, Bool.true_and, Bool.false_eq_true, ite_false, reduceIte, h]
theorem vredmin (d : BitVec 5) (a : BitVec 6) (n : BitVec 5) (q : BitVec 1) (k : BitVec 3) : Statement (.vredmin d a n q k) := by
  intro h w e
  cases e
  simp (disch := decide) only [Instr.inTile, decodeWord, decodeVector, decodeMajor17, row, Enc.vredmin, cat_left, cat_right, ex_self, Nat.reduceSub, Nat.reduceAdd, BitVec.reduceToNat, BitVec.reduceExtractLsb', BitVec.reduceBEq, Bool.and_self, beq_self_eq_true, Bool.true_and, Bool.false_eq_true, ite_false, reduceIte, h]
theorem vredand (d : BitVec 5) (a : BitVec 6) (n : BitVec 5) (q : BitVec 1) (k : BitVec 3) : Statement (.vredand d a n q k) := by
  intro h w e
  cases e
  simp (disch := decide) only [Instr.inTile, decodeWord, decodeVector, decodeMajor17, row, Enc.vredand, cat_left, cat_right, ex_self, Nat.reduceSub, Nat.reduceAdd, BitVec.reduceToNat, BitVec.reduceExtractLsb', BitVec.reduceBEq, Bool.and_self, beq_self_eq_true, Bool.true_and, Bool.false_eq_true, ite_false, reduceIte, h]
theorem vredor (d : BitVec 5) (a : BitVec 6) (n : BitVec 5) (q : BitVec 1) (k : BitVec 3) : Statement (.vredor d a n q k) := by
  intro h w e
  cases e
  simp (disch := decide) only [Instr.inTile, decodeWord, decodeVector, decodeMajor17, row, Enc.vredor, cat_left, cat_right, ex_self, Nat.reduceSub, Nat.reduceAdd, BitVec.reduceToNat, BitVec.reduceExtractLsb', BitVec.reduceBEq, Bool.and_self, beq_self_eq_true, Bool.true_and, Bool.false_eq_true, ite_false, reduceIte, h]
theorem vfredsumO (d : BitVec 5) (a : BitVec 6) (n : BitVec 5) (q : BitVec 1) (k : BitVec 3) : Statement (.vfredsumO d a n q k) := by
  intro h w e
  cases e
  simp (disch := decide) only [Instr.inTile, decodeWord, decodeVector, decodeMajor17, row, Enc.vfredsumO, cat_left, cat_right, ex_self, Nat.reduceSub, Nat.reduceAdd, BitVec.reduceToNat, BitVec.reduceExtractLsb', BitVec.reduceBEq, Bool.and_self, beq_self_eq_true, Bool.true_and, Bool.false_eq_true, ite_false, reduceIte, h]
theorem vfredsumT (d : BitVec 5) (a : BitVec 6) (n : BitVec 5) (q : BitVec 1) (k : BitVec 3) : Statement (.vfredsumT d a n q k) := by
  intro h w e
  cases e
  simp (disch := decide) only [Instr.inTile, decodeWord, decodeVector, decodeMajor17, row, Enc.vfredsumT, cat_left, cat_right, ex_self, Nat.reduceSub, Nat.reduceAdd, BitVec.reduceToNat, BitVec.reduceExtractLsb', BitVec.reduceBEq, Bool.and_self, beq_self_eq_true, Bool.true_and, Bool.false_eq_true, ite_false, reduceIte, h]
theorem vfredmax (d : BitVec 5) (a : BitVec 6) (n : BitVec 5) (q : BitVec 1) (k : BitVec 3) : Statement (.vfredmax d a n q k) := by
  intro h w e
  cases e
  simp (disch := decide) only [Instr.inTile, decodeWord, decodeVector, decodeMajor17, row, Enc.vfredmax, cat_left, cat_right, ex_self, Nat.reduceSub, Nat.reduceAdd, BitVec.reduceToNat, BitVec.reduceExtractLsb', BitVec.reduceBEq, Bool.and_self, beq_self_eq_true, Bool.true_and, Bool.false_eq_true, ite_false, reduceIte, h]
theorem vfredmin (d : BitVec 5) (a : BitVec 6) (n : BitVec 5) (q : BitVec 1) (k : BitVec 3) : Statement (.vfredmin d a n q k) := by
  intro h w e
  cases e
  simp (disch := decide) only [Instr.inTile, decodeWord, decodeVector, decodeMajor17, row, Enc.vfredmin, cat_left, cat_right, ex_self, Nat.reduceSub, Nat.reduceAdd, BitVec.reduceToNat, BitVec.reduceExtractLsb', BitVec.reduceBEq, Bool.and_self, beq_self_eq_true, Bool.true_and, Bool.false_eq_true, ite_false, reduceIte, h]
theorem vslideup (d : BitVec 6) (a : BitVec 6) (n : BitVec 5) (q : BitVec 1) (k : BitVec 3) : Statement (.vslideup d a n q k) := by
  intro h w e
  cases e
  simp (disch := decide) only [Instr.inTile, decodeWord, decodeVector, decodeMajor18, row, Enc.vslideup, cat_left, cat_right, ex_self, Nat.reduceSub, Nat.reduceAdd, BitVec.reduceToNat, BitVec.reduceExtractLsb', BitVec.reduceBEq, Bool.and_self, beq_self_eq_true, Bool.true_and, Bool.false_eq_true, ite_false, reduceIte, h]
theorem vslidedown (d : BitVec 6) (a : BitVec 6) (n : BitVec 5) (q : BitVec 1) (k : BitVec 3) : Statement (.vslidedown d a n q k) := by
  intro h w e
  cases e
  simp (disch := decide) only [Instr.inTile, decodeWord, decodeVector, decodeMajor18, row, Enc.vslidedown, cat_left, cat_right, ex_self, Nat.reduceSub, Nat.reduceAdd, BitVec.reduceToNat, BitVec.reduceExtractLsb', BitVec.reduceBEq, Bool.and_self, beq_self_eq_true, Bool.true_and, Bool.false_eq_true, ite_false, reduceIte, h]
theorem vrev (d : BitVec 6) (a : BitVec 6) (k : BitVec 3) : Statement (.vrev d a k) := by
  intro h w e
  cases e
  simp (disch := decide) only [Instr.inTile, decodeWord, decodeVector, decodeMajor18, row, Enc.vrev, cat_left, cat_right, ex_self, Nat.reduceSub, Nat.reduceAdd, BitVec.reduceToNat, BitVec.reduceExtractLsb', BitVec.reduceBEq, Bool.and_self, beq_self_eq_true, Bool.true_and, Bool.false_eq_true, ite_false, reduceIte, h]
theorem vperm (d : BitVec 6) (a : BitVec 6) (b : BitVec 6) (k : BitVec 3) : Statement (.vperm d a b k) := by
  intro h w e
  cases e
  simp (disch := decide) only [Instr.inTile, decodeWord, decodeVector, decodeMajor18, row, Enc.vperm, cat_left, cat_right, ex_self, Nat.reduceSub, Nat.reduceAdd, BitVec.reduceToNat, BitVec.reduceExtractLsb', BitVec.reduceBEq, Bool.and_self, beq_self_eq_true, Bool.true_and, Bool.false_eq_true, ite_false, reduceIte, h]
theorem vcompress (d : BitVec 6) (a : BitVec 6) (k : BitVec 3) : Statement (.vcompress d a k) := by
  intro h w e
  cases e
  simp (disch := decide) only [Instr.inTile, decodeWord, decodeVector, decodeMajor18, row, Enc.vcompress, cat_left, cat_right, ex_self, Nat.reduceSub, Nat.reduceAdd, BitVec.reduceToNat, BitVec.reduceExtractLsb', BitVec.reduceBEq, Bool.and_self, beq_self_eq_true, Bool.true_and, Bool.false_eq_true, ite_false, reduceIte, h]
theorem vexpand (d : BitVec 6) (a : BitVec 6) (k : BitVec 3) : Statement (.vexpand d a k) := by
  intro h w e
  cases e
  simp (disch := decide) only [Instr.inTile, decodeWord, decodeVector, decodeMajor18, row, Enc.vexpand, cat_left, cat_right, ex_self, Nat.reduceSub, Nat.reduceAdd, BitVec.reduceToNat, BitVec.reduceExtractLsb', BitVec.reduceBEq, Bool.and_self, beq_self_eq_true, Bool.true_and, Bool.false_eq_true, ite_false, reduceIte, h]
theorem viota (d : BitVec 6) (a : BitVec 3) (k : BitVec 3) : Statement (.viota d a k) := by
  intro h w e
  cases e
  simp (disch := decide) only [Instr.inTile, decodeWord, decodeVector, decodeMajor18, row, Enc.viota, cat_left, cat_right, ex_self, Nat.reduceSub, Nat.reduceAdd, BitVec.reduceToNat, BitVec.reduceExtractLsb', BitVec.reduceBEq, Bool.and_self, beq_self_eq_true, Bool.true_and, Bool.false_eq_true, ite_false, reduceIte, h]
theorem vsort (d : BitVec 6) (a : BitVec 6) : Statement (.vsort d a) := by
  intro h w e
  cases e
  simp (disch := decide) only [Instr.inTile, decodeWord, decodeVector, decodeMajor18, row, Enc.vsort, cat_left, cat_right, ex_self, Nat.reduceSub, Nat.reduceAdd, BitVec.reduceToNat, BitVec.reduceExtractLsb', BitVec.reduceBEq, Bool.and_self, beq_self_eq_true, Bool.true_and, Bool.false_eq_true, ite_false, reduceIte, h]
theorem vdedup (d : BitVec 6) (a : BitVec 6) (s : BitVec 5) : Statement (.vdedup d a s) := by
  intro h w e
  cases e
  simp (disch := decide) only [Instr.inTile, decodeWord, decodeVector, decodeMajor18, row, Enc.vdedup, cat_left, cat_right, ex_self, Nat.reduceSub, Nat.reduceAdd, BitVec.reduceToNat, BitVec.reduceExtractLsb', BitVec.reduceBEq, Bool.and_self, beq_self_eq_true, Bool.true_and, Bool.false_eq_true, ite_false, reduceIte, h]
theorem vscanAdd (d : BitVec 6) (a : BitVec 6) (n : BitVec 5) (q : BitVec 1) (k : BitVec 3) : Statement (.vscanAdd d a n q k) := by
  intro h w e
  cases e
  simp (disch := decide) only [Instr.inTile, decodeWord, decodeVector, decodeMajor19, row, Enc.vscanAdd, cat_left, cat_right, ex_self, Nat.reduceSub, Nat.reduceAdd, BitVec.reduceToNat, BitVec.reduceExtractLsb', BitVec.reduceBEq, Bool.and_self, beq_self_eq_true, Bool.true_and, Bool.false_eq_true, ite_false, reduceIte, h]
theorem vscanMax (d : BitVec 6) (a : BitVec 6) (n : BitVec 5) (q : BitVec 1) (k : BitVec 3) : Statement (.vscanMax d a n q k) := by
  intro h w e
  cases e
  simp (disch := decide) only [Instr.inTile, decodeWord, decodeVector, decodeMajor19, row, Enc.vscanMax, cat_left, cat_right, ex_self, Nat.reduceSub, Nat.reduceAdd, BitVec.reduceToNat, BitVec.reduceExtractLsb', BitVec.reduceBEq, Bool.and_self, beq_self_eq_true, Bool.true_and, Bool.false_eq_true, ite_false, reduceIte, h]
theorem vscanMin (d : BitVec 6) (a : BitVec 6) (n : BitVec 5) (q : BitVec 1) (k : BitVec 3) : Statement (.vscanMin d a n q k) := by
  intro h w e
  cases e
  simp (disch := decide) only [Instr.inTile, decodeWord, decodeVector, decodeMajor19, row, Enc.vscanMin, cat_left, cat_right, ex_self, Nat.reduceSub, Nat.reduceAdd, BitVec.reduceToNat, BitVec.reduceExtractLsb', BitVec.reduceBEq, Bool.and_self, beq_self_eq_true, Bool.true_and, Bool.false_eq_true, ite_false, reduceIte, h]
theorem vscanFadd (d : BitVec 6) (a : BitVec 6) (n : BitVec 5) (q : BitVec 1) (k : BitVec 3) : Statement (.vscanFadd d a n q k) := by
  intro h w e
  cases e
  simp (disch := decide) only [Instr.inTile, decodeWord, decodeVector, decodeMajor19, row, Enc.vscanFadd, cat_left, cat_right, ex_self, Nat.reduceSub, Nat.reduceAdd, BitVec.reduceToNat, BitVec.reduceExtractLsb', BitVec.reduceBEq, Bool.and_self, beq_self_eq_true, Bool.true_and, Bool.false_eq_true, ite_false, reduceIte, h]
theorem vrecur (d : BitVec 6) (a : BitVec 6) (n : BitVec 5) (q : BitVec 1) (k : BitVec 3) : Statement (.vrecur d a n q k) := by
  intro h w e
  cases e
  simp (disch := decide) only [Instr.inTile, decodeWord, decodeVector, decodeMajor19, row, Enc.vrecur, cat_left, cat_right, ex_self, Nat.reduceSub, Nat.reduceAdd, BitVec.reduceToNat, BitVec.reduceExtractLsb', BitVec.reduceBEq, Bool.and_self, beq_self_eq_true, Bool.true_and, Bool.false_eq_true, ite_false, reduceIte, h]
theorem vmv (d : BitVec 6) (a : BitVec 6) (k : BitVec 3) : Statement (.vmv d a k) := by
  intro h w e
  cases e
  simp (disch := decide) only [Instr.inTile, decodeWord, decodeVector, decodeMajor19, row, Enc.vmv, cat_left, cat_right, ex_self, Nat.reduceSub, Nat.reduceAdd, BitVec.reduceToNat, BitVec.reduceExtractLsb', BitVec.reduceBEq, Bool.and_self, beq_self_eq_true, Bool.true_and, Bool.false_eq_true, ite_false, reduceIte, h]
theorem vbcast (d : BitVec 6) (n : BitVec 5) (q : BitVec 1) (k : BitVec 3) : Statement (.vbcast d n q k) := by
  intro h w e
  cases e
  simp (disch := decide) only [Instr.inTile, decodeWord, decodeVector, decodeMajor19, row, Enc.vbcast, cat_left, cat_right, ex_self, Nat.reduceSub, Nat.reduceAdd, BitVec.reduceToNat, BitVec.reduceExtractLsb', BitVec.reduceBEq, Bool.and_self, beq_self_eq_true, Bool.true_and, Bool.false_eq_true, ite_false, reduceIte, h]
theorem vext (d : BitVec 5) (a : BitVec 6) (n : BitVec 5) (q : BitVec 1) : Statement (.vext d a n q) := by
  intro h w e
  cases e
  simp (disch := decide) only [Instr.inTile, decodeWord, decodeVector, decodeMajor19, row, Enc.vext, cat_left, cat_right, ex_self, Nat.reduceSub, Nat.reduceAdd, BitVec.reduceToNat, BitVec.reduceExtractLsb', BitVec.reduceBEq, Bool.and_self, beq_self_eq_true, Bool.true_and, Bool.false_eq_true, ite_false, reduceIte, h]
theorem vins (d : BitVec 6) (i : BitVec 5) (n : BitVec 5) (q : BitVec 1) : Statement (.vins d i n q) := by
  intro h w e
  cases e
  simp (disch := decide) only [Instr.inTile, decodeWord, decodeVector, decodeMajor19, row, Enc.vins, cat_left, cat_right, ex_self, Nat.reduceSub, Nat.reduceAdd, BitVec.reduceToNat, BitVec.reduceExtractLsb', BitVec.reduceBEq, Bool.and_self, beq_self_eq_true, Bool.true_and, Bool.false_eq_true, ite_false, reduceIte, h]
theorem vmerge (d : BitVec 6) (a : BitVec 6) (b : BitVec 6) (k : BitVec 3) : Statement (.vmerge d a b k) := by
  intro h w e
  cases e
  simp (disch := decide) only [Instr.inTile, decodeWord, decodeVector, decodeMajor19, row, Enc.vmerge, cat_left, cat_right, ex_self, Nat.reduceSub, Nat.reduceAdd, BitVec.reduceToNat, BitVec.reduceExtractLsb', BitVec.reduceBEq, Bool.and_self, beq_self_eq_true, Bool.true_and, Bool.false_eq_true, ite_false, reduceIte, h]
theorem vtrans (d : BitVec 6) : Statement (.vtrans d) := by
  intro h w e
  cases e
  simp (disch := decide) only [Instr.inTile, decodeWord, decodeVector, decodeMajor19, row, Enc.vtrans, cat_left, cat_right, ex_self, Nat.reduceSub, Nat.reduceAdd, BitVec.reduceToNat, BitVec.reduceExtractLsb', BitVec.reduceBEq, Bool.and_self, beq_self_eq_true, Bool.true_and, Bool.false_eq_true, ite_false, reduceIte, h]
theorem tzero (d : BitVec 3) : Statement (.tzero d) := by
  intro h w e
  cases e
  simp (disch := decide) only [Instr.inTile, decodeWord, decodeTile, decodeTile10, row, Enc.tzero, cat_left, cat_right, ex_self, Nat.reduceSub, Nat.reduceAdd, BitVec.reduceToNat, BitVec.reduceExtractLsb', BitVec.reduceBEq, Bool.and_self, beq_self_eq_true, Bool.true_and, Bool.false_eq_true, ite_false, reduceIte, h]
theorem tmmaO (d : BitVec 3) (v : BitVec 6) (w : BitVec 4) (n : BitVec 5) : Statement (.tmmaO d v w n) := by
  intro h w e
  cases e
  simp (disch := decide) only [Instr.inTile, decodeWord, decodeTile, decodeTile10, row, Enc.tmmaO, cat_left, cat_right, ex_self, Nat.reduceSub, Nat.reduceAdd, BitVec.reduceToNat, BitVec.reduceExtractLsb', BitVec.reduceBEq, Bool.and_self, beq_self_eq_true, Bool.true_and, Bool.false_eq_true, ite_false, reduceIte, h]
theorem tmmaF (d : BitVec 3) (v : BitVec 6) (w : BitVec 4) (n : BitVec 5) : Statement (.tmmaF d v w n) := by
  intro h w e
  cases e
  simp (disch := decide) only [Instr.inTile, decodeWord, decodeTile, decodeTile10, row, Enc.tmmaF, cat_left, cat_right, ex_self, Nat.reduceSub, Nat.reduceAdd, BitVec.reduceToNat, BitVec.reduceExtractLsb', BitVec.reduceBEq, Bool.and_self, beq_self_eq_true, Bool.true_and, Bool.false_eq_true, ite_false, reduceIte, h]
theorem tmova (d : BitVec 3) (v : BitVec 6) (n : BitVec 5) : Statement (.tmova d v n) := by
  intro h w e
  cases e
  simp (disch := decide) only [Instr.inTile, decodeWord, decodeTile, decodeTile10, row, Enc.tmova, cat_left, cat_right, ex_self, Nat.reduceSub, Nat.reduceAdd, BitVec.reduceToNat, BitVec.reduceExtractLsb', BitVec.reduceBEq, Bool.and_self, beq_self_eq_true, Bool.true_and, Bool.false_eq_true, ite_false, reduceIte, h]
theorem tmovv (d : BitVec 3) (v : BitVec 6) (n : BitVec 5) : Statement (.tmovv d v n) := by
  intro h w e
  cases e
  simp (disch := decide) only [Instr.inTile, decodeWord, decodeTile, decodeTile10, row, Enc.tmovv, cat_left, cat_right, ex_self, Nat.reduceSub, Nat.reduceAdd, BitVec.reduceToNat, BitVec.reduceExtractLsb', BitVec.reduceBEq, Bool.and_self, beq_self_eq_true, Bool.true_and, Bool.false_eq_true, ite_false, reduceIte, h]
theorem tcolmvOut (d : BitVec 3) (v : BitVec 6) (n : BitVec 5) : Statement (.tcolmvOut d v n) := by
  intro h w e
  cases e
  simp (disch := decide) only [Instr.inTile, decodeWord, decodeTile, decodeTile10, row, Enc.tcolmvOut, cat_left, cat_right, ex_self, Nat.reduceSub, Nat.reduceAdd, BitVec.reduceToNat, BitVec.reduceExtractLsb', BitVec.reduceBEq, Bool.and_self, beq_self_eq_true, Bool.true_and, Bool.false_eq_true, ite_false, reduceIte, h]
theorem tcolmvIn (d : BitVec 3) (v : BitVec 6) (n : BitVec 5) : Statement (.tcolmvIn d v n) := by
  intro h w e
  cases e
  simp (disch := decide) only [Instr.inTile, decodeWord, decodeTile, decodeTile10, row, Enc.tcolmvIn, cat_left, cat_right, ex_self, Nat.reduceSub, Nat.reduceAdd, BitVec.reduceToNat, BitVec.reduceExtractLsb', BitVec.reduceBEq, Bool.and_self, beq_self_eq_true, Bool.true_and, Bool.false_eq_true, ite_false, reduceIte, h]
theorem trowmvOut (d : BitVec 3) (v : BitVec 6) (n : BitVec 5) : Statement (.trowmvOut d v n) := by
  intro h w e
  cases e
  simp (disch := decide) only [Instr.inTile, decodeWord, decodeTile, decodeTile10, row, Enc.trowmvOut, cat_left, cat_right, ex_self, Nat.reduceSub, Nat.reduceAdd, BitVec.reduceToNat, BitVec.reduceExtractLsb', BitVec.reduceBEq, Bool.and_self, beq_self_eq_true, Bool.true_and, Bool.false_eq_true, ite_false, reduceIte, h]
theorem trowmvIn (d : BitVec 3) (v : BitVec 6) (n : BitVec 5) : Statement (.trowmvIn d v n) := by
  intro h w e
  cases e
  simp (disch := decide) only [Instr.inTile, decodeWord, decodeTile, decodeTile10, row, Enc.trowmvIn, cat_left, cat_right, ex_self, Nat.reduceSub, Nat.reduceAdd, BitVec.reduceToNat, BitVec.reduceExtractLsb', BitVec.reduceBEq, Bool.and_self, beq_self_eq_true, Bool.true_and, Bool.false_eq_true, ite_false, reduceIte, h]
theorem tscale (d : BitVec 3) (n : BitVec 5) : Statement (.tscale d n) := by
  intro h w e
  cases e
  simp (disch := decide) only [Instr.inTile, decodeWord, decodeTile, decodeTile10, row, Enc.tscale, cat_left, cat_right, ex_self, Nat.reduceSub, Nat.reduceAdd, BitVec.reduceToNat, BitVec.reduceExtractLsb', BitVec.reduceBEq, Bool.and_self, beq_self_eq_true, Bool.true_and, Bool.false_eq_true, ite_false, reduceIte, h]
theorem tcvt (d : BitVec 3) (v : BitVec 6) (n : BitVec 5) : Statement (.tcvt d v n) := by
  intro h w e
  cases e
  simp (disch := decide) only [Instr.inTile, decodeWord, decodeTile, decodeTile10, row, Enc.tcvt, cat_left, cat_right, ex_self, Nat.reduceSub, Nat.reduceAdd, BitVec.reduceToNat, BitVec.reduceExtractLsb', BitVec.reduceBEq, Bool.and_self, beq_self_eq_true, Bool.true_and, Bool.false_eq_true, ite_false, reduceIte, h]
theorem vld (d : BitVec 6) (n : BitVec 5) (c : BitVec 1) (k : BitVec 3) : Statement (.vld d n c k) := by
  intro h w e
  cases e
  simp (disch := decide) only [Instr.inTile, decodeWord, decodeVector, decodeMajor1C, row, Enc.vld, cat_left, cat_right, ex_self, Nat.reduceSub, Nat.reduceAdd, BitVec.reduceToNat, BitVec.reduceExtractLsb', BitVec.reduceBEq, Bool.and_self, beq_self_eq_true, Bool.true_and, Bool.false_eq_true, ite_false, reduceIte, h]
theorem vlds (d : BitVec 6) (n : BitVec 5) (s : BitVec 5) (c : BitVec 1) (k : BitVec 3) : Statement (.vlds d n s c k) := by
  intro h w e
  cases e
  simp (disch := decide) only [Instr.inTile, decodeWord, decodeVector, decodeMajor1C, row, Enc.vlds, cat_left, cat_right, ex_self, Nat.reduceSub, Nat.reduceAdd, BitVec.reduceToNat, BitVec.reduceExtractLsb', BitVec.reduceBEq, Bool.and_self, beq_self_eq_true, Bool.true_and, Bool.false_eq_true, ite_false, reduceIte, h]
theorem vldx (d : BitVec 6) (n : BitVec 5) (i : BitVec 6) (c : BitVec 1) (k : BitVec 3) : Statement (.vldx d n i c k) := by
  intro h w e
  cases e
  simp (disch := decide) only [Instr.inTile, decodeWord, decodeVector, decodeMajor1C, row, Enc.vldx, cat_left, cat_right, ex_self, Nat.reduceSub, Nat.reduceAdd, BitVec.reduceToNat, BitVec.reduceExtractLsb', BitVec.reduceBEq, Bool.and_self, beq_self_eq_true, Bool.true_and, Bool.false_eq_true, ite_false, reduceIte, h]
theorem wgather (d : BitVec 6) (n : BitVec 5) (i : BitVec 6) (c : BitVec 1) (k : BitVec 3) : Statement (.wgather d n i c k) := by
  intro h w e
  cases e
  simp (disch := decide) only [Instr.inTile, decodeWord, decodeVector, decodeMajor1C, row, Enc.wgather, cat_left, cat_right, ex_self, Nat.reduceSub, Nat.reduceAdd, BitVec.reduceToNat, BitVec.reduceExtractLsb', BitVec.reduceBEq, Bool.and_self, beq_self_eq_true, Bool.true_and, Bool.false_eq_true, ite_false, reduceIte, h]
theorem vst (d : BitVec 6) (n : BitVec 5) (c : BitVec 1) (k : BitVec 3) : Statement (.vst d n c k) := by
  intro h w e
  cases e
  simp (disch := decide) only [Instr.inTile, decodeWord, decodeVector, decodeMajor1D, row, Enc.vst, cat_left, cat_right, ex_self, Nat.reduceSub, Nat.reduceAdd, BitVec.reduceToNat, BitVec.reduceExtractLsb', BitVec.reduceBEq, Bool.and_self, beq_self_eq_true, Bool.true_and, Bool.false_eq_true, ite_false, reduceIte, h]
theorem vsts (d : BitVec 6) (n : BitVec 5) (s : BitVec 5) (c : BitVec 1) (k : BitVec 3) : Statement (.vsts d n s c k) := by
  intro h w e
  cases e
  simp (disch := decide) only [Instr.inTile, decodeWord, decodeVector, decodeMajor1D, row, Enc.vsts, cat_left, cat_right, ex_self, Nat.reduceSub, Nat.reduceAdd, BitVec.reduceToNat, BitVec.reduceExtractLsb', BitVec.reduceBEq, Bool.and_self, beq_self_eq_true, Bool.true_and, Bool.false_eq_true, ite_false, reduceIte, h]
theorem vstxO (d : BitVec 6) (n : BitVec 5) (i : BitVec 6) (c : BitVec 1) (k : BitVec 3) : Statement (.vstxO d n i c k) := by
  intro h w e
  cases e
  simp (disch := decide) only [Instr.inTile, decodeWord, decodeVector, decodeMajor1D, row, Enc.vstxO, cat_left, cat_right, ex_self, Nat.reduceSub, Nat.reduceAdd, BitVec.reduceToNat, BitVec.reduceExtractLsb', BitVec.reduceBEq, Bool.and_self, beq_self_eq_true, Bool.true_and, Bool.false_eq_true, ite_false, reduceIte, h]
theorem vstxU (d : BitVec 6) (n : BitVec 5) (i : BitVec 6) (c : BitVec 1) (k : BitVec 3) : Statement (.vstxU d n i c k) := by
  intro h w e
  cases e
  simp (disch := decide) only [Instr.inTile, decodeWord, decodeVector, decodeMajor1D, row, Enc.vstxU, cat_left, cat_right, ex_self, Nat.reduceSub, Nat.reduceAdd, BitVec.reduceToNat, BitVec.reduceExtractLsb', BitVec.reduceBEq, Bool.and_self, beq_self_eq_true, Bool.true_and, Bool.false_eq_true, ite_false, reduceIte, h]
theorem vsadd (d : BitVec 6) (n : BitVec 5) (i : BitVec 6) (c : BitVec 1) (k : BitVec 3) : Statement (.vsadd d n i c k) := by
  intro h w e
  cases e
  simp (disch := decide) only [Instr.inTile, decodeWord, decodeVector, decodeMajor1D, row, Enc.vsadd, cat_left, cat_right, ex_self, Nat.reduceSub, Nat.reduceAdd, BitVec.reduceToNat, BitVec.reduceExtractLsb', BitVec.reduceBEq, Bool.and_self, beq_self_eq_true, Bool.true_and, Bool.false_eq_true, ite_false, reduceIte, h]
theorem tload (d : BitVec 6) (n : BitVec 5) (t : BitVec 1) (s : BitVec 5) (c : BitVec 1) (k : BitVec 3) : Statement (.tload d n t s c k) := by
  intro h w e
  cases e
  simp (disch := decide) only [Instr.inTile, decodeWord, decodeVector, decodeMajor1E, row, Enc.tload, cat_left, cat_right, ex_self, Nat.reduceSub, Nat.reduceAdd, BitVec.reduceToNat, BitVec.reduceExtractLsb', BitVec.reduceBEq, Bool.and_self, beq_self_eq_true, Bool.true_and, Bool.false_eq_true, ite_false, reduceIte, h]
theorem tstore (d : BitVec 6) (n : BitVec 5) (t : BitVec 1) (s : BitVec 5) (c : BitVec 1) (k : BitVec 3) : Statement (.tstore d n t s c k) := by
  intro h w e
  cases e
  simp (disch := decide) only [Instr.inTile, decodeWord, decodeVector, decodeMajor1E, row, Enc.tstore, cat_left, cat_right, ex_self, Nat.reduceSub, Nat.reduceAdd, BitVec.reduceToNat, BitVec.reduceExtractLsb', BitVec.reduceBEq, Bool.and_self, beq_self_eq_true, Bool.true_and, Bool.false_eq_true, ite_false, reduceIte, h]
theorem vbind (d : BitVec 6) (n : BitVec 5) : Statement (.vbind d n) := by
  intro h w e
  cases e
  simp (disch := decide) only [Instr.inTile, decodeWord, decodeVector, decodeMajor1F, row, Enc.vbind, cat_left, cat_right, ex_self, Nat.reduceSub, Nat.reduceAdd, BitVec.reduceToNat, BitVec.reduceExtractLsb', BitVec.reduceBEq, Bool.and_self, beq_self_eq_true, Bool.true_and, Bool.false_eq_true, ite_false, reduceIte, h]
theorem vunbind (d : BitVec 6) : Statement (.vunbind d) := by
  intro h w e
  cases e
  simp (disch := decide) only [Instr.inTile, decodeWord, decodeVector, decodeMajor1F, row, Enc.vunbind, cat_left, cat_right, ex_self, Nat.reduceSub, Nat.reduceAdd, BitVec.reduceToNat, BitVec.reduceExtractLsb', BitVec.reduceBEq, Bool.and_self, beq_self_eq_true, Bool.true_and, Bool.false_eq_true, ite_false, reduceIte, h]
theorem vbpos (d : BitVec 6) (s : BitVec 5) : Statement (.vbpos d s) := by
  intro h w e
  cases e
  simp (disch := decide) only [Instr.inTile, decodeWord, decodeVector, decodeMajor1F, row, Enc.vbpos, cat_left, cat_right, ex_self, Nat.reduceSub, Nat.reduceAdd, BitVec.reduceToNat, BitVec.reduceExtractLsb', BitVec.reduceBEq, Bool.and_self, beq_self_eq_true, Bool.true_and, Bool.false_eq_true, ite_false, reduceIte, h]
theorem cappend (d : BitVec 6) (n : BitVec 5) (c : BitVec 1) (k : BitVec 3) : Statement (.cappend d n c k) := by
  intro h w e
  cases e
  simp (disch := decide) only [Instr.inTile, decodeWord, decodeVector, decodeMajor20, row, Enc.cappend, cat_left, cat_right, ex_self, Nat.reduceSub, Nat.reduceAdd, BitVec.reduceToNat, BitVec.reduceExtractLsb', BitVec.reduceBEq, Bool.and_self, beq_self_eq_true, Bool.true_and, Bool.false_eq_true, ite_false, reduceIte, h]
theorem wbload (w : BitVec 4) (n : BitVec 5) (s : BitVec 5) : Statement (.wbload w n s) := by
  intro h w e
  cases e
  simp (disch := decide) only [Instr.inTile, decodeWord, decodeVector, decodeMajor21, row, Enc.wbload, cat_left, cat_right, ex_self, Nat.reduceSub, Nat.reduceAdd, BitVec.reduceToNat, BitVec.reduceExtractLsb', BitVec.reduceBEq, Bool.and_self, beq_self_eq_true, Bool.true_and, Bool.false_eq_true, ite_false, reduceIte, h]
theorem wbinv (w : BitVec 4) : Statement (.wbinv w) := by
  intro h w e
  cases e
  simp (disch := decide) only [Instr.inTile, decodeWord, decodeVector, decodeMajor21, row, Enc.wbinv, cat_left, cat_right, ex_self, Nat.reduceSub, Nat.reduceAdd, BitVec.reduceToNat, BitVec.reduceExtractLsb', BitVec.reduceBEq, Bool.and_self, beq_self_eq_true, Bool.true_and, Bool.false_eq_true, ite_false, reduceIte, h]
theorem csld (d : BitVec 3) (a : BitVec 5) (b : BitVec 5) : Statement (.csld d a b) := by
  intro h w e
  cases e
  simp (disch := decide) only [Instr.inTile, decodeWord, decodeVector, decodeMajor24, row, Enc.csld, cat_left, cat_right, ex_self, Nat.reduceSub, Nat.reduceAdd, BitVec.reduceToNat, BitVec.reduceExtractLsb', BitVec.reduceBEq, Bool.and_self, beq_self_eq_true, Bool.true_and, Bool.false_eq_true, ite_false, reduceIte, h]
theorem csst (d : BitVec 3) (a : BitVec 5) (b : BitVec 5) : Statement (.csst d a b) := by
  intro h w e
  cases e
  simp (disch := decide) only [Instr.inTile, decodeWord, decodeVector, decodeMajor24, row, Enc.csst, cat_left, cat_right, ex_self, Nat.reduceSub, Nat.reduceAdd, BitVec.reduceToNat, BitVec.reduceExtractLsb', BitVec.reduceBEq, Bool.and_self, beq_self_eq_true, Bool.true_and, Bool.false_eq_true, ite_false, reduceIte, h]
theorem csadd (d : BitVec 3) (a : BitVec 3) (b : BitVec 3) (r : BitVec 5) : Statement (.csadd d a b r) := by
  intro h w e
  cases e
  simp (disch := decide) only [Instr.inTile, decodeWord, decodeVector, decodeMajor24, row, Enc.csadd, cat_left, cat_right, ex_self, Nat.reduceSub, Nat.reduceAdd, BitVec.reduceToNat, BitVec.reduceExtractLsb', BitVec.reduceBEq, Bool.and_self, beq_self_eq_true, Bool.true_and, Bool.false_eq_true, ite_false, reduceIte, h]
theorem csmul (d : BitVec 3) (a : BitVec 3) (b : BitVec 3) (r : BitVec 5) : Statement (.csmul d a b r) := by
  intro h w e
  cases e
  simp (disch := decide) only [Instr.inTile, decodeWord, decodeVector, decodeMajor24, row, Enc.csmul, cat_left, cat_right, ex_self, Nat.reduceSub, Nat.reduceAdd, BitVec.reduceToNat, BitVec.reduceExtractLsb', BitVec.reduceBEq, Bool.and_self, beq_self_eq_true, Bool.true_and, Bool.false_eq_true, ite_false, reduceIte, h]
theorem csdot (d : BitVec 5) (a : BitVec 3) (b : BitVec 3) (r : BitVec 5) : Statement (.csdot d a b r) := by
  intro h w e
  cases e
  simp (disch := decide) only [Instr.inTile, decodeWord, decodeVector, decodeMajor24, row, Enc.csdot, cat_left, cat_right, ex_self, Nat.reduceSub, Nat.reduceAdd, BitVec.reduceToNat, BitVec.reduceExtractLsb', BitVec.reduceBEq, Bool.and_self, beq_self_eq_true, Bool.true_and, Bool.false_eq_true, ite_false, reduceIte, h]
theorem csscale (d : BitVec 3) (a : BitVec 3) (n : BitVec 5) : Statement (.csscale d a n) := by
  intro h w e
  cases e
  simp (disch := decide) only [Instr.inTile, decodeWord, decodeVector, decodeMajor24, row, Enc.csscale, cat_left, cat_right, ex_self, Nat.reduceSub, Nat.reduceAdd, BitVec.reduceToNat, BitVec.reduceExtractLsb', BitVec.reduceBEq, Bool.and_self, beq_self_eq_true, Bool.true_and, Bool.false_eq_true, ite_false, reduceIte, h]
theorem cscompact (d : BitVec 3) (v : BitVec 6) (n : BitVec 5) : Statement (.cscompact d v n) := by
  intro h w e
  cases e
  simp (disch := decide) only [Instr.inTile, decodeWord, decodeVector, decodeMajor24, row, Enc.cscompact, cat_left, cat_right, ex_self, Nat.reduceSub, Nat.reduceAdd, BitVec.reduceToNat, BitVec.reduceExtractLsb', BitVec.reduceBEq, Bool.and_self, beq_self_eq_true, Bool.true_and, Bool.false_eq_true, ite_false, reduceIte, h]
theorem csexpand (v : BitVec 6) (a : BitVec 3) (n : BitVec 5) : Statement (.csexpand v a n) := by
  intro h w e
  cases e
  simp (disch := decide) only [Instr.inTile, decodeWord, decodeVector, decodeMajor24, row, Enc.csexpand, cat_left, cat_right, ex_self, Nat.reduceSub, Nat.reduceAdd, BitVec.reduceToNat, BitVec.reduceExtractLsb', BitVec.reduceBEq, Bool.and_self, beq_self_eq_true, Bool.true_and, Bool.false_eq_true, ite_false, reduceIte, h]
theorem csseek (d : BitVec 3) (a : BitVec 3) (n : BitVec 5) : Statement (.csseek d a n) := by
  intro h w e
  cases e
  simp (disch := decide) only [Instr.inTile, decodeWord, decodeVector, decodeMajor24, row, Enc.csseek, cat_left, cat_right, ex_self, Nat.reduceSub, Nat.reduceAdd, BitVec.reduceToNat, BitVec.reduceExtractLsb', BitVec.reduceBEq, Bool.and_self, beq_self_eq_true, Bool.true_and, Bool.false_eq_true, ite_false, reduceIte, h]
theorem cscsr (t : BitVec 6) (v : BitVec 6) (n : BitVec 5) (c : BitVec 3) : Statement (.cscsr t v n c) := by
  intro h w e
  cases e
  simp (disch := decide) only [Instr.inTile, decodeWord, decodeVector, decodeMajor24, row, Enc.cscsr, cat_left, cat_right, ex_self, Nat.reduceSub, Nat.reduceAdd, BitVec.reduceToNat, BitVec.reduceExtractLsb', BitVec.reduceBEq, Bool.and_self, beq_self_eq_true, Bool.true_and, Bool.false_eq_true, ite_false, reduceIte, h]
theorem ebatch (v : BitVec 6) (d : BitVec 5) (m : BitVec 3) (c : BitVec 1) (k : BitVec 3) : Statement (.ebatch v d m c k) := by
  intro h w e
  cases e
  simp (disch := decide) only [Instr.inTile, decodeWord, decodeVector, decodeMajor28, row, Enc.ebatch, cat_left, cat_right, ex_self, Nat.reduceSub, Nat.reduceAdd, BitVec.reduceToNat, BitVec.reduceExtractLsb', BitVec.reduceBEq, Bool.and_self, beq_self_eq_true, Bool.true_and, Bool.false_eq_true, ite_false, reduceIte, h]
theorem ecopy (n : BitVec 5) (d : BitVec 5) : Statement (.ecopy n d) := by
  intro h w e
  cases e
  simp (disch := decide) only [Instr.inTile, decodeWord, decodeVector, decodeMajor28, row, Enc.ecopy, cat_left, cat_right, ex_self, Nat.reduceSub, Nat.reduceAdd, BitVec.reduceToNat, BitVec.reduceExtractLsb', BitVec.reduceBEq, Bool.and_self, beq_self_eq_true, Bool.true_and, Bool.false_eq_true, ite_false, reduceIte, h]
theorem rep (n : BitVec 5) (c : BitVec 5) : Statement (.rep n c) := by
  intro h w e
  cases e
  simp (disch := decide) only [Instr.inTile, decodeWord, decodeVector, decodeMajor28, row, Enc.rep, cat_left, cat_right, ex_self, Nat.reduceSub, Nat.reduceAdd, BitVec.reduceToNat, BitVec.reduceExtractLsb', BitVec.reduceBEq, Bool.and_self, beq_self_eq_true, Bool.true_and, Bool.false_eq_true, ite_false, reduceIte, h]
theorem tlsig (d : BitVec 5) : Statement (.tlsig d) := by
  intro h w e
  cases e
  simp (disch := decide) only [Instr.inTile, decodeWord, decodeVector, decodeMajor28, row, Enc.tlsig, cat_left, cat_right, ex_self, Nat.reduceSub, Nat.reduceAdd, BitVec.reduceToNat, BitVec.reduceExtractLsb', BitVec.reduceBEq, Bool.and_self, beq_self_eq_true, Bool.true_and, Bool.false_eq_true, ite_false, reduceIte, h]
theorem tlwait (n : BitVec 5) (m : BitVec 5) : Statement (.tlwait n m) := by
  intro h w e
  cases e
  simp (disch := decide) only [Instr.inTile, decodeWord, decodeVector, decodeMajor28, row, Enc.tlwait, cat_left, cat_right, ex_self, Nat.reduceSub, Nat.reduceAdd, BitVec.reduceToNat, BitVec.reduceExtractLsb', BitVec.reduceBEq, Bool.and_self, beq_self_eq_true, Bool.true_and, Bool.false_eq_true, ite_false, reduceIte, h]
theorem tlwaitChk (n : BitVec 5) (m : BitVec 5) : Statement (.tlwaitChk n m) := by
  intro h w e
  cases e
  simp (disch := decide) only [Instr.inTile, decodeWord, decodeVector, decodeMajor28, row, Enc.tlwaitChk, cat_left, cat_right, ex_self, Nat.reduceSub, Nat.reduceAdd, BitVec.reduceToNat, BitVec.reduceExtractLsb', BitVec.reduceBEq, Bool.and_self, beq_self_eq_true, Bool.true_and, Bool.false_eq_true, ite_false, reduceIte, h]
theorem tlread (d : BitVec 5) (n : BitVec 5) : Statement (.tlread d n) := by
  intro h w e
  cases e
  simp (disch := decide) only [Instr.inTile, decodeWord, decodeVector, decodeMajor28, row, Enc.tlread, cat_left, cat_right, ex_self, Nat.reduceSub, Nat.reduceAdd, BitVec.reduceToNat, BitVec.reduceExtractLsb', BitVec.reduceBEq, Bool.and_self, beq_self_eq_true, Bool.true_and, Bool.false_eq_true, ite_false, reduceIte, h]
theorem vrred (v : BitVec 6) (n : BitVec 5) (f : BitVec 4) (s : BitVec 1) (c : BitVec 1) (k : BitVec 3) : Statement (.vrred v n f s c k) := by
  intro h w e
  cases e
  simp (disch := decide) only [Instr.inTile, decodeWord, decodeVector, decodeMajor29, row, Enc.vrred, cat_left, cat_right, ex_self, Nat.reduceSub, Nat.reduceAdd, BitVec.reduceToNat, BitVec.reduceExtractLsb', BitVec.reduceBEq, Bool.and_self, beq_self_eq_true, Bool.true_and, Bool.false_eq_true, ite_false, reduceIte, h]
theorem creduce (n : BitVec 5) (d : BitVec 5) : Statement (.creduce n d) := by
  intro h w e
  cases e
  simp (disch := decide) only [Instr.inTile, decodeWord, decodeVector, decodeMajor29, row, Enc.creduce, cat_left, cat_right, ex_self, Nat.reduceSub, Nat.reduceAdd, BitVec.reduceToNat, BitVec.reduceExtractLsb', BitVec.reduceBEq, Bool.and_self, beq_self_eq_true, Bool.true_and, Bool.false_eq_true, ite_false, reduceIte, h]
theorem cgather (n : BitVec 5) (d : BitVec 5) : Statement (.cgather n d) := by
  intro h w e
  cases e
  simp (disch := decide) only [Instr.inTile, decodeWord, decodeVector, decodeMajor29, row, Enc.cgather, cat_left, cat_right, ex_self, Nat.reduceSub, Nat.reduceAdd, BitVec.reduceToNat, BitVec.reduceExtractLsb', BitVec.reduceBEq, Bool.and_self, beq_self_eq_true, Bool.true_and, Bool.false_eq_true, ite_false, reduceIte, h]
theorem cxpar (n : BitVec 5) (d : BitVec 5) : Statement (.cxpar n d) := by
  intro h w e
  cases e
  simp (disch := decide) only [Instr.inTile, decodeWord, decodeVector, decodeMajor29, row, Enc.cxpar, cat_left, cat_right, ex_self, Nat.reduceSub, Nat.reduceAdd, BitVec.reduceToNat, BitVec.reduceExtractLsb', BitVec.reduceBEq, Bool.and_self, beq_self_eq_true, Bool.true_and, Bool.false_eq_true, ite_false, reduceIte, h]
theorem nmadd (v : BitVec 6) (n : BitVec 5) (x : BitVec 1) (c : BitVec 1) (k : BitVec 3) : Statement (.nmadd v n x c k) := by
  intro h w e
  cases e
  simp (disch := decide) only [Instr.inTile, decodeWord, decodeVector, decodeMajor2A, row, Enc.nmadd, cat_left, cat_right, ex_self, Nat.reduceSub, Nat.reduceAdd, BitVec.reduceToNat, BitVec.reduceExtractLsb', BitVec.reduceBEq, Bool.and_self, beq_self_eq_true, Bool.true_and, Bool.false_eq_true, ite_false, reduceIte, h]
theorem nmfadd (v : BitVec 6) (n : BitVec 5) (x : BitVec 1) (c : BitVec 1) (k : BitVec 3) : Statement (.nmfadd v n x c k) := by
  intro h w e
  cases e
  simp (disch := decide) only [Instr.inTile, decodeWord, decodeVector, decodeMajor2A, row, Enc.nmfadd, cat_left, cat_right, ex_self, Nat.reduceSub, Nat.reduceAdd, BitVec.reduceToNat, BitVec.reduceExtractLsb', BitVec.reduceBEq, Bool.and_self, beq_self_eq_true, Bool.true_and, Bool.false_eq_true, ite_false, reduceIte, h]
theorem nmfence : Statement (.nmfence) := by
  intro h w e
  cases e
  simp (disch := decide) only [Instr.inTile, decodeWord, decodeVector, decodeMajor2A, row, Enc.nmfence, cat_left, cat_right, ex_self, Nat.reduceSub, Nat.reduceAdd, BitVec.reduceToNat, BitVec.reduceExtractLsb', BitVec.reduceBEq, Bool.and_self, beq_self_eq_true, Bool.true_and, Bool.false_eq_true, ite_false, reduceIte, h]
theorem nmfenceRel : Statement (.nmfenceRel) := by
  intro h w e
  cases e
  simp (disch := decide) only [Instr.inTile, decodeWord, decodeVector, decodeMajor2A, row, Enc.nmfenceRel, cat_left, cat_right, ex_self, Nat.reduceSub, Nat.reduceAdd, BitVec.reduceToNat, BitVec.reduceExtractLsb', BitVec.reduceBEq, Bool.and_self, beq_self_eq_true, Bool.true_and, Bool.false_eq_true, ite_false, reduceIte, h]
theorem nmopt (n : BitVec 5) (d : BitVec 5) : Statement (.nmopt n d) := by
  intro h w e
  cases e
  simp (disch := decide) only [Instr.inTile, decodeWord, decodeVector, decodeMajor2A, row, Enc.nmopt, cat_left, cat_right, ex_self, Nat.reduceSub, Nat.reduceAdd, BitVec.reduceToNat, BitVec.reduceExtractLsb', BitVec.reduceBEq, Bool.and_self, beq_self_eq_true, Bool.true_and, Bool.false_eq_true, ite_false, reduceIte, h]
theorem pkcfg (n : BitVec 5) : Statement (.pkcfg n) := by
  intro h w e
  cases e
  simp (disch := decide) only [Instr.inTile, decodeWord, decodeVector, decodeMajor2A, row, Enc.pkcfg, cat_left, cat_right, ex_self, Nat.reduceSub, Nat.reduceAdd, BitVec.reduceToNat, BitVec.reduceExtractLsb', BitVec.reduceBEq, Bool.and_self, beq_self_eq_true, Bool.true_and, Bool.false_eq_true, ite_false, reduceIte, h]
theorem pklook (v : BitVec 6) (n : BitVec 5) (d : BitVec 5) (c : BitVec 1) (k : BitVec 3) : Statement (.pklook v n d c k) := by
  intro h w e
  cases e
  simp (disch := decide) only [Instr.inTile, decodeWord, decodeVector, decodeMajor2A, row, Enc.pklook, cat_left, cat_right, ex_self, Nat.reduceSub, Nat.reduceAdd, BitVec.reduceToNat, BitVec.reduceExtractLsb', BitVec.reduceBEq, Bool.and_self, beq_self_eq_true, Bool.true_and, Bool.false_eq_true, ite_false, reduceIte, h]
theorem skset (n : BitVec 5) : Statement (.skset n) := by
  intro h w e
  cases e
  simp (disch := decide) only [Instr.inTile, decodeWord, decodeVector, decodeMajor2B, row, Enc.skset, cat_left, cat_right, ex_self, Nat.reduceSub, Nat.reduceAdd, BitVec.reduceToNat, BitVec.reduceExtractLsb', BitVec.reduceBEq, Bool.and_self, beq_self_eq_true, Bool.true_and, Bool.false_eq_true, ite_false, reduceIte, h]
theorem sksetG (n : BitVec 5) (d : BitVec 5) : Statement (.sksetG n d) := by
  intro h w e
  cases e
  simp (disch := decide) only [Instr.inTile, decodeWord, decodeVector, decodeMajor2B, row, Enc.sksetG, cat_left, cat_right, ex_self, Nat.reduceSub, Nat.reduceAdd, BitVec.reduceToNat, BitVec.reduceExtractLsb', BitVec.reduceBEq, Bool.and_self, beq_self_eq_true, Bool.true_and, Bool.false_eq_true, ite_false, reduceIte, h]
theorem skbuild (n : BitVec 5) (d : BitVec 5) : Statement (.skbuild n d) := by
  intro h w e
  cases e
  simp (disch := decide) only [Instr.inTile, decodeWord, decodeVector, decodeMajor2B, row, Enc.skbuild, cat_left, cat_right, ex_self, Nat.reduceSub, Nat.reduceAdd, BitVec.reduceToNat, BitVec.reduceExtractLsb', BitVec.reduceBEq, Bool.and_self, beq_self_eq_true, Bool.true_and, Bool.false_eq_true, ite_false, reduceIte, h]
theorem skxchg (n : BitVec 5) (d : BitVec 5) : Statement (.skxchg n d) := by
  intro h w e
  cases e
  simp (disch := decide) only [Instr.inTile, decodeWord, decodeVector, decodeMajor2B, row, Enc.skxchg, cat_left, cat_right, ex_self, Nat.reduceSub, Nat.reduceAdd, BitVec.reduceToNat, BitVec.reduceExtractLsb', BitVec.reduceBEq, Bool.and_self, beq_self_eq_true, Bool.true_and, Bool.false_eq_true, ite_false, reduceIte, h]
theorem skpeel (n : BitVec 5) (d : BitVec 5) : Statement (.skpeel n d) := by
  intro h w e
  cases e
  simp (disch := decide) only [Instr.inTile, decodeWord, decodeVector, decodeMajor2B, row, Enc.skpeel, cat_left, cat_right, ex_self, Nat.reduceSub, Nat.reduceAdd, BitVec.reduceToNat, BitVec.reduceExtractLsb', BitVec.reduceBEq, Bool.and_self, beq_self_eq_true, Bool.true_and, Bool.false_eq_true, ite_false, reduceIte, h]
theorem tmode (d : BitVec 1) (t : BitVec 1) : Statement (.tmode d t) := by
  intro h w e
  cases e
  simp (disch := decide) only [Instr.inTile, decodeWord, decodeVector, decodeMajor3E, row, Enc.tmode, cat_left, cat_right, ex_self, Nat.reduceSub, Nat.reduceAdd, BitVec.reduceToNat, BitVec.reduceExtractLsb', BitVec.reduceBEq, Bool.and_self, beq_self_eq_true, Bool.true_and, Bool.false_eq_true, ite_false, reduceIte, h]
theorem tshape (k : BitVec 5) (n : BitVec 5) (m : BitVec 5) : Statement (.tshape k n m) := by
  intro h w e
  cases e
  simp (disch := decide) only [Instr.inTile, decodeWord, decodeVector, decodeMajor3E, row, Enc.tshape, cat_left, cat_right, ex_self, Nat.reduceSub, Nat.reduceAdd, BitVec.reduceToNat, BitVec.reduceExtractLsb', BitVec.reduceBEq, Bool.and_self, beq_self_eq_true, Bool.true_and, Bool.false_eq_true, ite_false, reduceIte, h]
theorem pageWalk (tid : BitVec 9) (va : Word) (acc : Access) : Statement (.pageWalk tid va acc) := fun _ _ h => nomatch h
theorem writePerformed (seq : Nat) : Statement (.writePerformed seq) := fun _ _ h => nomatch h
theorem nearMemoryAdd (seq : Nat) : Statement (.nearMemoryAdd seq) := fun _ _ h => nomatch h
theorem remoteReduceAdd (seq : Nat) : Statement (.remoteReduceAdd seq) := fun _ _ h => nomatch h
theorem copyCommandPerformed (tid : BitVec 9) (n : Nat) : Statement (.copyCommandPerformed tid n) := fun _ _ h => nomatch h
theorem threadTimelineSignal (tid : BitVec 9) (n : Nat) : Statement (.threadTimelineSignal tid n) := fun _ _ h => nomatch h
theorem collectivePerformed (tid : BitVec 9) (n : Nat) (members : List CollMember) : Statement (.collectivePerformed tid n members) := fun _ _ h => nomatch h
theorem nmoptPerformed (tid : BitVec 9) (n : Nat) : Statement (.nmoptPerformed tid n) := fun _ _ h => nomatch h
theorem pklookPerformed (tid : BitVec 9) (n : Nat) : Statement (.pklookPerformed tid n) := fun _ _ h => nomatch h
theorem skbuildPerformed (tid : BitVec 9) (n : Nat) : Statement (.skbuildPerformed tid n) := fun _ _ h => nomatch h
theorem skxchgPerformed (tid : BitVec 9) (n : Nat) (peer : SkPeer) : Statement (.skxchgPerformed tid n peer) := fun _ _ h => nomatch h
theorem skpeelPerformed (tid : BitVec 9) (n : Nat) : Statement (.skpeelPerformed tid n) := fun _ _ h => nomatch h
theorem partitionActivate (part : BitVec 6) : Statement (.partitionActivate part) := fun _ _ h => nomatch h
theorem partitionQuiesce (part : BitVec 6) : Statement (.partitionQuiesce part) := fun _ _ h => nomatch h
theorem quiesceComplete : Statement (.quiesceComplete) := fun _ _ h => nomatch h
theorem partitionDeactivate (part : BitVec 6) : Statement (.partitionDeactivate part) := fun _ _ h => nomatch h
theorem deactivateComplete : Statement (.deactivateComplete) := fun _ _ h => nomatch h
theorem reloadCrossbar (part : BitVec 6) : Statement (.reloadCrossbar part) := fun _ _ h => nomatch h
theorem partitionResume (part : BitVec 6) : Statement (.partitionResume part) := fun _ _ h => nomatch h
theorem pcmdReserved (part : BitVec 6) (cmd : BitVec 3) : Statement (.pcmdReserved part cmd) := fun _ _ h => nomatch h
theorem pageMigration (slot : BitVec 3) (ctl : Word) : Statement (.pageMigration slot ctl) := fun _ _ h => nomatch h
theorem pageMigrationComplete (slot : BitVec 3) : Statement (.pageMigrationComplete slot) := fun _ _ h => nomatch h
theorem hotnessClear (die : BitVec 3) : Statement (.hotnessClear die) := fun _ _ h => nomatch h
theorem hotnessClearDone (die : BitVec 3) : Statement (.hotnessClearDone die) := fun _ _ h => nomatch h
theorem contextHalt (slot : BitVec 3) (ctl : Word) : Statement (.contextHalt slot ctl) := fun _ _ h => nomatch h
theorem contextSave (slot : BitVec 3) (ctl : Word) : Statement (.contextSave slot ctl) := fun _ _ h => nomatch h
theorem contextRestore (slot : BitVec 3) (ctl : Word) : Statement (.contextRestore slot ctl) := fun _ _ h => nomatch h
theorem contextResume (slot : BitVec 3) (ctl : Word) : Statement (.contextResume slot ctl) := fun _ _ h => nomatch h
theorem ctxRetry (slot : BitVec 3) (ctl : Word) : Statement (.ctxRetry slot ctl) := fun _ _ h => nomatch h
theorem abandon (slot : BitVec 3) (ctl : Word) : Statement (.abandon slot ctl) := fun _ _ h => nomatch h
theorem exportWalker (slot : BitVec 3) (ctl : Word) : Statement (.exportWalker slot ctl) := fun _ _ h => nomatch h
theorem importWalker (slot : BitVec 3) (ctl : Word) : Statement (.importWalker slot ctl) := fun _ _ h => nomatch h
theorem contextEngineReserved (slot : BitVec 3) (ctl : Word) : Statement (.contextEngineReserved slot ctl) := fun _ _ h => nomatch h
theorem iterationDispatch (part : BitVec 6) (tid : BitVec 9) : Statement (.iterationDispatch part tid) := fun _ _ h => nomatch h
theorem timeSliceEnd (tid : BitVec 9) (cut : Nat) (overrun : Nat) : Statement (.timeSliceEnd tid cut overrun) := fun _ _ h => nomatch h
theorem setAsideResume (tid : BitVec 9) : Statement (.setAsideResume tid) := fun _ _ h => nomatch h
theorem watchdogExpire (tid : BitVec 9) : Statement (.watchdogExpire tid) := fun _ _ h => nomatch h
theorem replayCommand (own : Bool) (part : BitVec 6) : Statement (.replayCommand own part) := fun _ _ h => nomatch h
theorem replayConditionMet (tid : BitVec 9) : Statement (.replayConditionMet tid) := fun _ _ h => nomatch h
theorem deferredFaultPost (tid : BitVec 9) : Statement (.deferredFaultPost tid) := fun _ _ h => nomatch h
theorem requestPacket (path : Path) (off : Nat) (bytes : List Byte) (sumsOk : Bool) : Statement (.requestPacket path off bytes sumsOk) := fun _ _ h => nomatch h
theorem hostInboundRead (port : BitVec 1) (memBar : Bool) (off : Nat) (len : Nat) : Statement (.hostInboundRead port memBar off len) := fun _ _ h => nomatch h
theorem hostInboundWrite (port : BitVec 1) (memBar : Bool) (off : Nat) (data : List Byte) (relaxed : Bool) : Statement (.hostInboundWrite port memBar off data relaxed) := fun _ _ h => nomatch h
theorem hostInboundAtomic (port : BitVec 1) (memBar : Bool) (off : Nat) (req : InReq) : Statement (.hostInboundAtomic port memBar off req) := fun _ _ h => nomatch h
theorem peerInboundRequest (src : BitVec 7) (dest : BitVec 7) (addr : BitVec 44) (req : InReq) : Statement (.peerInboundRequest src dest addr req) := fun _ _ h => nomatch h
theorem rootPortInbound (port : BitVec 2) (gpa : Word) (req : InReq) : Statement (.rootPortInbound port gpa req) := fun _ _ h => nomatch h
theorem ethernetFrame (port : BitVec 3) (bytes : List Byte) : Statement (.ethernetFrame port bytes) := fun _ _ h => nomatch h
theorem mctpMessage (net : Bool) (addr : BitVec 52) (req : InReq) : Statement (.mctpMessage net addr req) := fun _ _ h => nomatch h
theorem linkDown (port : BitVec 4) : Statement (.linkDown port) := fun _ _ h => nomatch h
theorem completionTimeout (tid : BitVec 10) (k : Nat) : Statement (.completionTimeout tid k) := fun _ _ h => nomatch h
theorem linkLaneFault (port : BitVec 4) (spare : Bool) : Statement (.linkLaneFault port spare) := fun _ _ h => nomatch h
theorem claim (m : BitVec 2) : Statement (.claim m) := fun _ _ h => nomatch h
theorem offer (m : BitVec 2) (tgt : BitVec 3) : Statement (.offer m tgt) := fun _ _ h => nomatch h
theorem accept (m : BitVec 2) : Statement (.accept m) := fun _ _ h => nomatch h
theorem acceptComplete : Statement (.acceptComplete) := fun _ _ h => nomatch h
theorem acceptTimeout : Statement (.acceptTimeout) := fun _ _ h => nomatch h
theorem offerLapse : Statement (.offerLapse) := fun _ _ h => nomatch h
theorem ownerPathFailure : Statement (.ownerPathFailure) := fun _ _ h => nomatch h
theorem ownerLost : Statement (.ownerLost) := fun _ _ h => nomatch h
theorem attestationRequest : Statement (.attestationRequest) := fun _ _ h => nomatch h
theorem attestationDone : Statement (.attestationDone) := fun _ _ h => nomatch h
theorem moduleReset : Statement (.moduleReset) := fun _ _ h => nomatch h
theorem recoveryVerify : Statement (.recoveryVerify) := fun _ _ h => nomatch h
theorem powerLeaveGrant (die : BitVec 3) : Statement (.powerLeaveGrant die) := fun _ _ h => nomatch h
theorem powerInputOverlimit : Statement (.powerInputOverlimit) := fun _ _ h => nomatch h
theorem powerInputRecovered : Statement (.powerInputRecovered) := fun _ _ h => nomatch h
theorem patrolScrub : Statement (.patrolScrub) := fun _ _ h => nomatch h
theorem spareMapWrite (die : BitVec 3) (slot : BitVec 5) (v : Byte) : Statement (.spareMapWrite die slot v) := fun _ _ h => nomatch h
theorem laneMapWrite (die : BitVec 3) (slot : BitVec 5) (lane : BitVec 6) (v : Byte) : Statement (.laneMapWrite die slot lane v) := fun _ _ h => nomatch h
theorem spareRowReplace (unit : Byte) (addr : Word) : Statement (.spareRowReplace unit addr) := fun _ _ h => nomatch h
theorem registerWrite (off : BitVec 32) (v : Word) : Statement (.registerWrite off v) := fun _ _ h => nomatch h
theorem outboundCompletion (tid : BitVec 10) (k : Nat) (refused : Bool) (data : List Byte) : Statement (.outboundCompletion tid k refused data) := fun _ _ h => nomatch h
theorem linkUp (port : BitVec 4) : Statement (.linkUp port) := fun _ _ h => nomatch h
theorem dataLinkLayerUp (port : BitVec 1) : Statement (.dataLinkLayerUp port) := fun _ _ h => nomatch h
theorem softError (site : Site) : Statement (.softError site) := fun _ _ h => nomatch h
theorem activateComplete : Statement (.activateComplete) := fun _ _ h => nomatch h
theorem contextEngineDone (slot : BitVec 3) : Statement (.contextEngineDone slot) := fun _ _ h => nomatch h
theorem waitExpire (tid : BitVec 9) : Statement (.waitExpire tid) := fun _ _ h => nomatch h

end Laws.Encodes

end Sys2Proof

end
end

