-- ==== Sys2Proof/Tests/Slice0.lean ====
section
/-! SUPPORT. Tests: ill-formed terms, words written out from the encodings, one step of an instruction against values worked out from the spec,
and for each statement a state and operands that meet its hypotheses. -/

section

set_option Elab.async false

namespace Sys2Proof.Tests
open Sys2Proof Sys2Proof.Machine

/-! ## Well-formedness and decoding (08 R183 to R194) -/

theorem test_ill_formed_1 : (
  [.vloop 0 1, .fcmp 1 1 1 4 1, .fcvt 1 1 14, .ldOrdered 1 1 7 1 1, .ldOrdered 1 1 6 2 1, .stOrdered 1 1 1 2 1, .stOrdered 1 1 8 2 1,
   .stOrdered 1 1 6 1 1, .cas 1 1 1 1 1 1 2, .csrr 1 17, .csrr 1 32, .csrr 1 261, .csrw 1 17, .csrs 1 17, .csrc 1 17, .qpush 1 1,
   .qpop 1 0, .fence 0 1, .vaddVx 1 1 1 1 1, .vsubVx 1 1 1 1 1, .vmulVx 1 1 1 1 1, .vmulhVx 1 1 1 1 1, .vmaddVx 1 1 1 1 1,
   .vmsubVx 1 1 1 1 1, .vdivVx 1 1 1 1 1, .vremVx 1 1 1 1 1, .vminVx 1 1 1 1 1, .vmaxVx 1 1 1 1 1, .vandVx 1 1 1 1 1, .vorVx 1 1 1 1 1,
   .vxorVx 1 1 1 1 1, .vshlVx 1 1 1 1 1, .vshrVx 1 1 1 1 1, .vsraVx 1 1 1 1 1, .vcvt 1 1 6 1, .vfaddVx 1 1 1 1 1, .vfsubVx 1 1 1 1 1,
   .vfmulVx 1 1 1 1 1, .vfdivVx 1 1 1 1 1, .vfmaVx 1 1 1 1 1, .vfmsVx 1 1 1 1 1, .vfnmaVx 1 1 1 1 1, .vfminVx 1 1 1 1 1,
   .vfmaxVx 1 1 1 1 1, .vcmpEqVx 1 1 1 1 1, .vcmpNeVx 1 1 1 1 1, .vcmpLtVx 1 1 1 1 1, .vcmpLeVx 1 1 1 1 1, .vcmpLtuVx 1 1 1 1 1,
   .vcmpLeuVx 1 1 1 1 1, .vfcmpEqVx 1 1 1 1 1, .vfcmpNeVx 1 1 1 1 1, .vfcmpLtVx 1 1 1 1 1, .vfcmpLeVx 1 1 1 1 1, .vfcmpUnordVx 1 1 1 1 1,
   .vfcmpOrdVx 1 1 1 1 1, .vredsum 0 1 1 1 1, .vredsum 1 1 0 1 1, .vredmax 0 1 1 1 1, .vredmax 1 1 0 1 1] : List Instr).all (fun i => !i.wf) = true := by decide

theorem test_ill_formed_2 : (
  [.vredmin 0 1 1 1 1, .vredmin 1 1 0 1 1, .vredand 0 1 1 1 1, .vredand 1 1 0 1 1, .vredor 0 1 1 1 1, .vredor 1 1 0 1 1,
   .vfredsumO 0 1 1 1 1, .vfredsumO 1 1 0 1 1, .vfredsumT 0 1 1 1 1, .vfredsumT 1 1 0 1 1, .vfredmax 0 1 1 1 1, .vfredmax 1 1 0 1 1,
   .vfredmin 0 1 1 1 1, .vfredmin 1 1 0 1 1, .vslideup 1 1 1 1 1, .vslidedown 1 1 1 1 1, .vcompress 1 1 0, .vexpand 1 1 0,
   .vscanAdd 1 1 1 1 1, .vscanMax 1 1 1 1 1, .vscanMin 1 1 1 1 1, .vscanFadd 1 1 1 1 1, .vrecur 1 1 1 1 1, .vbcast 1 1 1 1, .vext 0 1 1 1,
   .vext 1 1 0 1, .vins 1 1 1 1, .vmerge 1 1 1 0, .vld 1 1 1 0, .vlds 1 1 1 1 0, .vldx 1 1 1 1 0, .wgather 1 1 1 1 0, .vst 1 1 1 0,
   .vsts 1 1 1 1 0, .vstxO 1 1 1 1 0, .vstxU 1 1 1 1 0, .vsadd 1 1 1 1 0, .tload 1 1 1 1 1 0, .tstore 1 1 1 1 1 0, .cappend 1 1 1 0,
   .ebatch 1 1 1 1 0, .vrred 1 1 1 1 1 0, .nmadd 1 1 1 1 0, .nmfadd 1 1 1 1 0, .pklook 1 1 1 1 0, .pcmdReserved 1 5] : List Instr).all (fun i => !i.wf) = true := by decide

theorem test_decode_major_01 :
  decodeWord false 0x06265800 = .ok (.add 17 6 11) ∧
  decodeWord false 0x06265801 = .ok (.sub 17 6 11) ∧
  decodeWord false 0x06265802 = .ok (.and 17 6 11) ∧
  decodeWord false 0x06265803 = .ok (.or 17 6 11) ∧
  decodeWord false 0x06265804 = .ok (.xor 17 6 11) ∧
  decodeWord false 0x06265805 = .ok (.shl 17 6 11) ∧
  decodeWord false 0x06265806 = .ok (.shr 17 6 11) ∧
  decodeWord false 0x06265807 = .ok (.sra 17 6 11) ∧
  decodeWord false 0x06265808 = .ok (.slt 17 6 11) ∧
  decodeWord false 0x06265809 = .ok (.sltu 17 6 11) ∧
  decodeWord false 0x0626580A = .ok (.mul 17 6 11) ∧
  decodeWord false 0x0626580B = .ok (.mulh 17 6 11) ∧
  decodeWord false 0x0626580C = .ok (.mulhu 17 6 11) ∧
  decodeWord false 0x0626580D = .ok (.div 17 6 11) ∧
  decodeWord false 0x0626580E = .ok (.divu 17 6 11) ∧
  decodeWord false 0x0626580F = .ok (.rem 17 6 11) ∧
  decodeWord false 0x06265810 = .ok (.remu 17 6 11) ∧
  decodeWord false 0x06265811 = .ok (.min 17 6 11) ∧
  decodeWord false 0x06265812 = .ok (.max 17 6 11) ∧
  decodeWord false 0x06265813 = .ok (.minu 17 6 11) ∧
  decodeWord false 0x06265814 = .ok (.maxu 17 6 11) ∧
  decodeWord false 0x06260015 = .ok (.clz 17 6) ∧
  decodeWord false 0x06260016 = .ok (.ctz 17 6) ∧
  decodeWord false 0x06260017 = .ok (.popc 17 6) ∧
  decodeWord false 0x06265B58 = .ok (.sel 17 6 11 13) ∧
  decodeWord false 0x06265B59 = .ok (.addsh 17 6 11 13) := by and_intros <;> rfl

theorem test_decode_major_02 :
  decodeWord false 0x0A261007 = .ok (.addi 17 6 4103) ∧
  decodeWord false 0x0A263007 = .ok (.andi 17 6 4103) ∧
  decodeWord false 0x0A265007 = .ok (.ori 17 6 4103) ∧
  decodeWord false 0x0A267007 = .ok (.xori 17 6 4103) ∧
  decodeWord false 0x0A269007 = .ok (.slti 17 6 4103) ∧
  decodeWord false 0x0A26A00B = .ok (.shli 17 6 11) ∧
  decodeWord false 0x0A26C00B = .ok (.shri 17 6 11) ∧
  decodeWord false 0x0A26E00B = .ok (.srai 17 6 11) := by and_intros <;> rfl

theorem test_decode_major_03 :
  decodeWord false 0x0E261007 = .ok (.ldB 17 6 4103) ∧
  decodeWord false 0x0E263007 = .ok (.ldBu 17 6 4103) ∧
  decodeWord false 0x0E265007 = .ok (.ldH 17 6 4103) ∧
  decodeWord false 0x0E267007 = .ok (.ldHu 17 6 4103) ∧
  decodeWord false 0x0E269007 = .ok (.ldW 17 6 4103) ∧
  decodeWord false 0x0E26B007 = .ok (.ldWu 17 6 4103) ∧
  decodeWord false 0x0E26D007 = .ok (.ldD 17 6 4103) := by and_intros <;> rfl

theorem test_decode_major_04 :
  decodeWord false 0x12261007 = .ok (.stB 17 6 4103) ∧
  decodeWord false 0x12265007 = .ok (.stH 17 6 4103) ∧
  decodeWord false 0x12269007 = .ok (.stW 17 6 4103) ∧
  decodeWord false 0x1226D007 = .ok (.stD 17 6 4103) := by and_intros <;> rfl

theorem test_decode_major_05 :
  decodeWord false 0x16261007 = .ok (.beq 17 6 4103) ∧
  decodeWord false 0x16263007 = .ok (.bne 17 6 4103) ∧
  decodeWord false 0x16265007 = .ok (.blt 17 6 4103) ∧
  decodeWord false 0x16267007 = .ok (.bge 17 6 4103) ∧
  decodeWord false 0x16269007 = .ok (.bltu 17 6 4103) ∧
  decodeWord false 0x1626B007 = .ok (.bgeu 17 6 4103) ∧
  decodeWord false 0x1620D006 = .ok (.vloop 17 4102) := by and_intros <;> rfl

theorem test_decode_major_06 :
  decodeWord false 0x1A300006 = .ok (.jal 17 1048582) := rfl

theorem test_decode_major_07 :
  decodeWord false 0x1E261007 = .ok (.jalr 17 6 4103) := rfl

theorem test_decode_major_08 :
  decodeWord false 0x22300006 = .ok (.ldhi 17 1048582) := rfl

theorem test_decode_major_09 :
  decodeWord false 0x26265820 = .ok (.fadd 17 6 11 1) ∧
  decodeWord false 0x26265821 = .ok (.fsub 17 6 11 1) ∧
  decodeWord false 0x26265822 = .ok (.fmul 17 6 11 1) ∧
  decodeWord false 0x26265823 = .ok (.fdiv 17 6 11 1) ∧
  decodeWord false 0x26260024 = .ok (.fsqrt 17 6 1) ∧
  decodeWord false 0x26265B65 = .ok (.fma 17 6 11 13 1) ∧
  decodeWord false 0x26265826 = .ok (.fmin 17 6 11 1) ∧
  decodeWord false 0x26265827 = .ok (.fmax 17 6 11 1) ∧
  decodeWord false 0x262658A8 = .ok (.fcmp 17 6 11 2 1) ∧
  decodeWord false 0x26260249 = .ok (.fcvt 17 6 9) := by and_intros <;> rfl

theorem test_decode_major_0A :
  decodeWord false 0x2A260154 = .ok (.ldOrdered 17 6 5 1 1) ∧
  decodeWord false 0x28113125 = .ok (.stOrdered 17 6 4 2 1) ∧
  decodeWord false 0x2A26585A = .ok (.amoadd 17 6 11 1 1 2) ∧
  decodeWord false 0x2A2658DA = .ok (.amoand 17 6 11 1 1 2) ∧
  decodeWord false 0x2A26595A = .ok (.amoor 17 6 11 1 1 2) ∧
  decodeWord false 0x2A2659DA = .ok (.amoxor 17 6 11 1 1 2) ∧
  decodeWord false 0x2A265A5A = .ok (.amoswap 17 6 11 1 1 2) ∧
  decodeWord false 0x2A265ADA = .ok (.amomin 17 6 11 1 1 2) ∧
  decodeWord false 0x2A265B5A = .ok (.amomax 17 6 11 1 1 2) ∧
  decodeWord false 0x2A265BDA = .ok (.amominu 17 6 11 1 1 2) ∧
  decodeWord false 0x2A265C5A = .ok (.amomaxu 17 6 11 1 1 2) := by and_intros <;> rfl

theorem test_decode_major_0B :
  decodeWord false 0x2E265B59 = .ok (.cas 17 6 11 13 1 2 1) := rfl

theorem test_decode_major_0C :
  decodeWord false 0x32200103 = .ok (.csrr 17 259) ∧
  decodeWord false 0x30112103 = .ok (.csrw 17 259) ∧
  decodeWord false 0x30114103 = .ok (.csrs 17 259) ∧
  decodeWord false 0x30116103 = .ok (.csrc 17 259) := by and_intros <;> rfl

theorem test_decode_major_0D :
  decodeWord false 0x34110003 = .ok (.qpush 17 3) ∧
  decodeWord false 0x36202002 = .ok (.qpop 17 2) := by and_intros <;> rfl

theorem test_decode_major_0E :
  decodeWord false 0x38000440 = .ok (.trap 17) ∧
  decodeWord false 0x38000001 = .ok (.tret) ∧
  decodeWord false 0x38000002 = .ok (.halt) ∧
  decodeWord false 0x38000443 = .ok (.wait 17) ∧
  decodeWord false 0x38000444 = .ok (.brk 17) ∧
  decodeWord false 0x38000005 = .ok (.kend) ∧
  decodeWord false 0x38000006 = .ok (.tlbiAll) ∧
  decodeWord false 0x38110046 = .ok (.tlbiAsn 17) ∧
  decodeWord false 0x38113086 = .ok (.tlbiVa 17 6) ∧
  decodeWord false 0x381130C6 = .ok (.tlbiGpa 17 6) ∧
  decodeWord false 0x38008906 = .ok (.tlbiPart 17) ∧
  decodeWord false 0x38000287 = .ok (.fence 2 2) ∧
  decodeWord false 0x38000008 = .ok (.lsync) ∧
  decodeWord false 0x38000009 = .ok (.ifence) ∧
  decodeWord false 0x3811000A = .ok (.launch 17) := by and_intros <;> rfl

theorem test_decode_major_0F :
  decodeWord false 0x3E000005 = .ok (.nop 33554437) := rfl

theorem test_decode_major_10 :
  decodeWord false 0x41100C00 = .ok (.setvl 17 6) ∧
  decodeWord false 0x40004001 = .ok (.vcfg 1) ∧
  decodeWord false 0x40002202 = .ok (.vtype 17) ∧
  decodeWord false 0x42100C03 = .ok (.vwin 33 6) ∧
  decodeWord false 0x40002204 = .ok (.lpart 17) ∧
  decodeWord true 0x42800000 = .ok (.tzero 5) ∧
  decodeWord true 0x4281ADA1 = .ok (.tmmaO 5 6 11 13) ∧
  decodeWord true 0x4281ADA2 = .ok (.tmmaF 5 6 11 13) ∧
  decodeWord true 0x42818163 = .ok (.tmova 5 6 11) ∧
  decodeWord true 0x42818164 = .ok (.tmovv 5 6 11) ∧
  decodeWord true 0x42818165 = .ok (.tcolmvOut 5 6 11) ∧
  decodeWord true 0x42818565 = .ok (.tcolmvIn 5 6 11) ∧
  decodeWord true 0x42818166 = .ok (.trowmvOut 5 6 11) ∧
  decodeWord true 0x42818566 = .ok (.trowmvIn 5 6 11) ∧
  decodeWord true 0x428000C7 = .ok (.tscale 5 6) ∧
  decodeWord true 0x42818168 = .ok (.tcvt 5 6 11) := by and_intros <;> rfl

theorem test_decode_major_11 :
  decodeWord false 0x46118BA0 = .ok (.vadd 33 6 11 5) ∧
  decodeWord false 0x46118BA1 = .ok (.vsub 33 6 11 5) ∧
  decodeWord false 0x46118BA2 = .ok (.vmul 33 6 11 5) ∧
  decodeWord false 0x46118BA3 = .ok (.vmulh 33 6 11 5) ∧
  decodeWord false 0x46118BA4 = .ok (.vmadd 33 6 11 5) ∧
  decodeWord false 0x46118BA5 = .ok (.vmsub 33 6 11 5) ∧
  decodeWord false 0x46118BA6 = .ok (.vdiv 33 6 11 5) ∧
  decodeWord false 0x46118BA7 = .ok (.vrem 33 6 11 5) ∧
  decodeWord false 0x46118BA8 = .ok (.vmin 33 6 11 5) ∧
  decodeWord false 0x46118BA9 = .ok (.vmax 33 6 11 5) ∧
  decodeWord false 0x46118BAA = .ok (.vand 33 6 11 5) ∧
  decodeWord false 0x46118BAB = .ok (.vor 33 6 11 5) ∧
  decodeWord false 0x46118BAC = .ok (.vxor 33 6 11 5) ∧
  decodeWord false 0x46118BAD = .ok (.vshl 33 6 11 5) ∧
  decodeWord false 0x46118BAE = .ok (.vshr 33 6 11 5) ∧
  decodeWord false 0x46118BAF = .ok (.vsra 33 6 11 5) ∧
  decodeWord false 0x461180D0 = .ok (.vabs 33 6 6) := by and_intros <;> rfl

theorem test_decode_major_12 :
  decodeWord false 0x4A119660 = .ok (.vaddVx 33 6 11 0 3) ∧
  decodeWord false 0x4A119661 = .ok (.vsubVx 33 6 11 0 3) ∧
  decodeWord false 0x4A119662 = .ok (.vmulVx 33 6 11 0 3) ∧
  decodeWord false 0x4A119663 = .ok (.vmulhVx 33 6 11 0 3) ∧
  decodeWord false 0x4A119664 = .ok (.vmaddVx 33 6 11 0 3) ∧
  decodeWord false 0x4A119665 = .ok (.vmsubVx 33 6 11 0 3) ∧
  decodeWord false 0x4A119666 = .ok (.vdivVx 33 6 11 0 3) ∧
  decodeWord false 0x4A119667 = .ok (.vremVx 33 6 11 0 3) ∧
  decodeWord false 0x4A119668 = .ok (.vminVx 33 6 11 0 3) ∧
  decodeWord false 0x4A119669 = .ok (.vmaxVx 33 6 11 0 3) ∧
  decodeWord false 0x4A11966A = .ok (.vandVx 33 6 11 0 3) ∧
  decodeWord false 0x4A11966B = .ok (.vorVx 33 6 11 0 3) ∧
  decodeWord false 0x4A11966C = .ok (.vxorVx 33 6 11 0 3) ∧
  decodeWord false 0x4A11966D = .ok (.vshlVx 33 6 11 0 3) ∧
  decodeWord false 0x4A11966E = .ok (.vshrVx 33 6 11 0 3) ∧
  decodeWord false 0x4A11966F = .ok (.vsraVx 33 6 11 0 3) := by and_intros <;> rfl

theorem test_decode_major_13 :
  decodeWord false 0x4E118BA0 = .ok (.vfadd 33 6 11 5) ∧
  decodeWord false 0x4E118BA1 = .ok (.vfsub 33 6 11 5) ∧
  decodeWord false 0x4E118BA2 = .ok (.vfmul 33 6 11 5) ∧
  decodeWord false 0x4E118BA3 = .ok (.vfdiv 33 6 11 5) ∧
  decodeWord false 0x4E1180C4 = .ok (.vfsqrt 33 6 6) ∧
  decodeWord false 0x4E1180C5 = .ok (.vfrsqe 33 6 6) ∧
  decodeWord false 0x4E118BA6 = .ok (.vfma 33 6 11 5) ∧
  decodeWord false 0x4E118BA7 = .ok (.vfms 33 6 11 5) ∧
  decodeWord false 0x4E118BA8 = .ok (.vfnma 33 6 11 5) ∧
  decodeWord false 0x4E118BA9 = .ok (.vfmin 33 6 11 5) ∧
  decodeWord false 0x4E118BAA = .ok (.vfmax 33 6 11 5) ∧
  decodeWord false 0x4E1180CB = .ok (.vfabs 33 6 6) ∧
  decodeWord false 0x4E1180CC = .ok (.vfneg 33 6 6) ∧
  decodeWord false 0x4E118BAD = .ok (.vcvt 33 6 11 5) := by and_intros <;> rfl

theorem test_decode_major_14 :
  decodeWord false 0x52119660 = .ok (.vfaddVx 33 6 11 0 3) ∧
  decodeWord false 0x52119661 = .ok (.vfsubVx 33 6 11 0 3) ∧
  decodeWord false 0x52119662 = .ok (.vfmulVx 33 6 11 0 3) ∧
  decodeWord false 0x52119663 = .ok (.vfdivVx 33 6 11 0 3) ∧
  decodeWord false 0x52119666 = .ok (.vfmaVx 33 6 11 0 3) ∧
  decodeWord false 0x52119667 = .ok (.vfmsVx 33 6 11 0 3) ∧
  decodeWord false 0x52119668 = .ok (.vfnmaVx 33 6 11 0 3) ∧
  decodeWord false 0x52119669 = .ok (.vfminVx 33 6 11 0 3) ∧
  decodeWord false 0x5211966A = .ok (.vfmaxVx 33 6 11 0 3) := by and_intros <;> rfl

theorem test_decode_major_15 :
  decodeWord false 0x54518BA0 = .ok (.vcmpEq 5 6 11 5) ∧
  decodeWord false 0x54518BA1 = .ok (.vcmpNe 5 6 11 5) ∧
  decodeWord false 0x54518BA2 = .ok (.vcmpLt 5 6 11 5) ∧
  decodeWord false 0x54518BA3 = .ok (.vcmpLe 5 6 11 5) ∧
  decodeWord false 0x54518BA4 = .ok (.vcmpLtu 5 6 11 5) ∧
  decodeWord false 0x54518BA5 = .ok (.vcmpLeu 5 6 11 5) ∧
  decodeWord false 0x54518BA8 = .ok (.vfcmpEq 5 6 11 5) ∧
  decodeWord false 0x54518BA9 = .ok (.vfcmpNe 5 6 11 5) ∧
  decodeWord false 0x54518BAA = .ok (.vfcmpLt 5 6 11 5) ∧
  decodeWord false 0x54518BAB = .ok (.vfcmpLe 5 6 11 5) ∧
  decodeWord false 0x54518BAC = .ok (.vfcmpUnord 5 6 11 5) ∧
  decodeWord false 0x54518BAD = .ok (.vfcmpOrd 5 6 11 5) ∧
  decodeWord false 0x5450C6B0 = .ok (.mand 5 3 6 5) ∧
  decodeWord false 0x5450C6B1 = .ok (.mor 5 3 6 5) ∧
  decodeWord false 0x5450C6B2 = .ok (.mxor 5 3 6 5) ∧
  decodeWord false 0x5450C0D3 = .ok (.mnot 5 3 6) ∧
  decodeWord false 0x5510C0D4 = .ok (.mpopc 17 3 6) ∧
  decodeWord false 0x5510C0D5 = .ok (.mfirst 17 3 6) ∧
  decodeWord false 0x54500076 = .ok (.mset 5 3) := by and_intros <;> rfl

theorem test_decode_major_16 :
  decodeWord false 0x58519660 = .ok (.vcmpEqVx 5 6 11 0 3) ∧
  decodeWord false 0x58519661 = .ok (.vcmpNeVx 5 6 11 0 3) ∧
  decodeWord false 0x58519662 = .ok (.vcmpLtVx 5 6 11 0 3) ∧
  decodeWord false 0x58519663 = .ok (.vcmpLeVx 5 6 11 0 3) ∧
  decodeWord false 0x58519664 = .ok (.vcmpLtuVx 5 6 11 0 3) ∧
  decodeWord false 0x58519665 = .ok (.vcmpLeuVx 5 6 11 0 3) ∧
  decodeWord false 0x58519668 = .ok (.vfcmpEqVx 5 6 11 0 3) ∧
  decodeWord false 0x58519669 = .ok (.vfcmpNeVx 5 6 11 0 3) ∧
  decodeWord false 0x5851966A = .ok (.vfcmpLtVx 5 6 11 0 3) ∧
  decodeWord false 0x5851966B = .ok (.vfcmpLeVx 5 6 11 0 3) ∧
  decodeWord false 0x5851966C = .ok (.vfcmpUnordVx 5 6 11 0 3) ∧
  decodeWord false 0x5851966D = .ok (.vfcmpOrdVx 5 6 11 0 3) := by and_intros <;> rfl

theorem test_decode_major_17 :
  decodeWord false 0x5D119660 = .ok (.vredsum 17 6 11 0 3) ∧
  decodeWord false 0x5D119661 = .ok (.vredmax 17 6 11 0 3) ∧
  decodeWord false 0x5D119662 = .ok (.vredmin 17 6 11 0 3) ∧
  decodeWord false 0x5D119663 = .ok (.vredand 17 6 11 0 3) ∧
  decodeWord false 0x5D119664 = .ok (.vredor 17 6 11 0 3) ∧
  decodeWord false 0x5D119665 = .ok (.vfredsumO 17 6 11 0 3) ∧
  decodeWord false 0x5D119666 = .ok (.vfredsumT 17 6 11 0 3) ∧
  decodeWord false 0x5D119667 = .ok (.vfredmax 17 6 11 0 3) ∧
  decodeWord false 0x5D119668 = .ok (.vfredmin 17 6 11 0 3) := by and_intros <;> rfl

theorem test_decode_major_18 :
  decodeWord false 0x62119660 = .ok (.vslideup 33 6 11 0 3) ∧
  decodeWord false 0x62119661 = .ok (.vslidedown 33 6 11 0 3) ∧
  decodeWord false 0x621180C2 = .ok (.vrev 33 6 6) ∧
  decodeWord false 0x62118BA3 = .ok (.vperm 33 6 11 5) ∧
  decodeWord false 0x621180C4 = .ok (.vcompress 33 6 6) ∧
  decodeWord false 0x621180C5 = .ok (.vexpand 33 6 6) ∧
  decodeWord false 0x6210C0C6 = .ok (.viota 33 3 6) ∧
  decodeWord false 0x62118007 = .ok (.vsort 33 6) ∧
  decodeWord false 0x62118B08 = .ok (.vdedup 33 6 11) := by and_intros <;> rfl

theorem test_decode_major_19 :
  decodeWord false 0x66119660 = .ok (.vscanAdd 33 6 11 0 3) ∧
  decodeWord false 0x66119661 = .ok (.vscanMax 33 6 11 0 3) ∧
  decodeWord false 0x66119662 = .ok (.vscanMin 33 6 11 0 3) ∧
  decodeWord false 0x66119663 = .ok (.vscanFadd 33 6 11 0 3) ∧
  decodeWord false 0x66119664 = .ok (.vrecur 33 6 11 0 3) ∧
  decodeWord false 0x661180C5 = .ok (.vmv 33 6 6) ∧
  decodeWord false 0x66100CA6 = .ok (.vbcast 33 6 0 5) ∧
  decodeWord false 0x65119607 = .ok (.vext 17 6 11 0) ∧
  decodeWord false 0x66119608 = .ok (.vins 33 6 11 0) ∧
  decodeWord false 0x66118BA9 = .ok (.vmerge 33 6 11 5) ∧
  decodeWord false 0x6610000A = .ok (.vtrans 33) := by and_intros <;> rfl

theorem test_decode_major_1C :
  decodeWord false 0x721301A0 = .ok (.vld 33 6 1 5) ∧
  decodeWord false 0x72131761 = .ok (.vlds 33 6 11 1 3) ∧
  decodeWord false 0x72131762 = .ok (.vldx 33 6 11 1 3) ∧
  decodeWord false 0x72131763 = .ok (.wgather 33 6 11 1 3) := by and_intros <;> rfl

theorem test_decode_major_1D :
  decodeWord false 0x761301A0 = .ok (.vst 33 6 1 5) ∧
  decodeWord false 0x76131761 = .ok (.vsts 33 6 11 1 3) ∧
  decodeWord false 0x76131762 = .ok (.vstxO 33 6 11 1 3) ∧
  decodeWord false 0x76131763 = .ok (.vstxU 33 6 11 1 3) ∧
  decodeWord false 0x76131764 = .ok (.vsadd 33 6 11 1 3) := by and_intros <;> rfl

theorem test_decode_major_1E :
  decodeWord false 0x7A135BC0 = .ok (.tload 33 6 1 13 1 6) ∧
  decodeWord false 0x7A135BC1 = .ok (.tstore 33 6 1 13 1 6) := by and_intros <;> rfl

theorem test_decode_major_1F :
  decodeWord false 0x7E130000 = .ok (.vbind 33 6) ∧
  decodeWord false 0x7E100001 = .ok (.vunbind 33) ∧
  decodeWord false 0x7E100C02 = .ok (.vbpos 33 6) := by and_intros <;> rfl

theorem test_decode_major_20 :
  decodeWord false 0x821301A0 = .ok (.cappend 33 6 1 5) := rfl

theorem test_decode_major_21 :
  decodeWord false 0x84931600 = .ok (.wbload 9 6 11) ∧
  decodeWord false 0x84900001 = .ok (.wbinv 9) := by and_intros <;> rfl

theorem test_decode_major_24 :
  decodeWord false 0x90518B00 = .ok (.csld 5 6 11) ∧
  decodeWord false 0x90518B01 = .ok (.csst 5 6 11) ∧
  decodeWord false 0x90578D02 = .ok (.csadd 5 3 6 13) ∧
  decodeWord false 0x90578D03 = .ok (.csmul 5 3 6 13) ∧
  decodeWord false 0x91178D04 = .ok (.csdot 17 3 6 13) ∧
  decodeWord false 0x9050CB05 = .ok (.csscale 5 3 11) ∧
  decodeWord false 0x90518B06 = .ok (.cscompact 5 6 11) ∧
  decodeWord false 0x9210CB07 = .ok (.csexpand 33 3 11) ∧
  decodeWord false 0x9050CB08 = .ok (.csseek 5 3 11) ∧
  decodeWord false 0x92118BA9 = .ok (.cscsr 33 6 11 5) := by and_intros <;> rfl

theorem test_decode_major_28 :
  decodeWord false 0xA2131960 = .ok (.ebatch 33 6 6 1 3) ∧
  decodeWord false 0xA0089801 = .ok (.ecopy 17 6) ∧
  decodeWord false 0xA0089802 = .ok (.rep 17 6) ∧
  decodeWord false 0xA0004403 = .ok (.tlsig 17) ∧
  decodeWord false 0xA0089804 = .ok (.tlwait 17 6) ∧
  decodeWord false 0xA0089805 = .ok (.tlwaitChk 17 6) ∧
  decodeWord false 0xA1130006 = .ok (.tlread 17 6) := by and_intros <;> rfl

theorem test_decode_major_29 :
  decodeWord false 0xA6135DC0 = .ok (.vrred 33 6 11 1 1 6) ∧
  decodeWord false 0xA4089801 = .ok (.creduce 17 6) ∧
  decodeWord false 0xA4089802 = .ok (.cgather 17 6) ∧
  decodeWord false 0xA4089803 = .ok (.cxpar 17 6) := by and_intros <;> rfl

theorem test_decode_major_2A :
  decodeWord false 0xAA130560 = .ok (.nmadd 33 6 1 1 3) ∧
  decodeWord false 0xAA130561 = .ok (.nmfadd 33 6 1 1 3) ∧
  decodeWord false 0xA8000002 = .ok (.nmfence) ∧
  decodeWord false 0xA8000003 = .ok (.nmfenceRel) ∧
  decodeWord false 0xA8089804 = .ok (.nmopt 17 6) ∧
  decodeWord false 0xA8088005 = .ok (.pkcfg 17) ∧
  decodeWord false 0xAA132D66 = .ok (.pklook 33 6 11 1 3) := by and_intros <;> rfl

theorem test_decode_major_2B :
  decodeWord false 0xAC088000 = .ok (.skset 17) ∧
  decodeWord false 0xAC189800 = .ok (.sksetG 17 6) ∧
  decodeWord false 0xAC089801 = .ok (.skbuild 17 6) ∧
  decodeWord false 0xAC089802 = .ok (.skxchg 17 6) ∧
  decodeWord false 0xAC089803 = .ok (.skpeel 17 6) := by and_intros <;> rfl

theorem test_decode_major_3E :
  decodeWord false 0xF8000C00 = .ok (.tmode 1 1) ∧
  decodeWord false 0xF9132C01 = .ok (.tshape 17 6 11) := by and_intros <;> rfl

/-! ## Rigs: small states for the tests and the witnesses -/

/-- Partition 0 is pair 0, whose thread 0 runs at level U. -/
def rig : State := { State.reset with
  pairs := [(0, { Pair.reset with part := some 0 })]
  parts := [(0, { Part.reset with mode := .active, pairs := 1, s2root := 0x20000000, gplim := 0x10000000000000 })]
  threads := [(0, { Thread.reset with run := .running, atb := 0x20003000 })] }

/-- The rig with its thread changed. -/
def rigT (f : Thread → Thread) : State := rig.setMe (f rig.me)
/-- The rig with scalar registers. -/
def rigS (l : List (BitVec 5 × Word)) : State := l.foldl (fun (s : State) e => s.setS e.1 e.2) rig
/-- The rig at level S. -/
def rigSup : State := rigT fun t => { t with sup := true }
/-- The first byte of the scratchpad's window (01 R21). -/
def local0 : Word := 0x00FF000000000000
/-- The state an instruction leaves. -/
def after (i : Instr) (s : State) : State :=
  match exec i s with
  | .next t => t
  | _ => s

theorem quiet_of (s : State) (hp : s.pend = []) (hm : s.memLost = []) (hb : ∀ e ∈ s.pairs, e.2.board = []) : s.Quiet := by
  refine ⟨hp, hm, fun a => ?_⟩
  unfold State.boardAt
  split
  · rw [List.filter_eq_nil_iff.2]
    · rfl
    · intro e he; simp [hb e he]
  · rfl

/-- A state whose pair table is the rig's is quiet where nothing is pending and nothing lost. -/
theorem quiet_rig (s : State) (hp : s.pend = []) (hm : s.memLost = []) (hb : s.pairs = rig.pairs) : s.Quiet :=
  quiet_of s hp hm (by rw [hb]; decide)

theorem unbound_of (s : State) (h : s.me.binds = Vector.replicate 8 none) : ∀ j : Nat, (s.me.binds[j]?).getD none = none := by
  intro j
  rw [h]
  by_cases hj : j < 8
  · simp [hj]
  · simp [Nat.le_of_not_lt hj]

/-! ## Scalar integers: 09 R203 to R205 -/

theorem test_add_wraps : (after (.add 3 1 2) (rigS [(1, 0xFFFFFFFFFFFFFFFF), (2, 3)])).sr 3 = 2 := by decide +kernel
theorem test_sub_borrow : (after (.sub 3 1 2) (rigS [(1, 2), (2, 3)])).sr 3 = 0xFFFFFFFFFFFFFFFF := by decide +kernel
theorem test_and : (after (.and 3 1 2) (rigS [(1, 0xF0F), (2, 0xFF0)])).sr 3 = 0xF00 := by decide +kernel
theorem test_or : (after (.or 3 1 2) (rigS [(1, 0xF0F), (2, 0xFF0)])).sr 3 = 0xFFF := by decide +kernel
theorem test_xor : (after (.xor 3 1 2) (rigS [(1, 0xF0F), (2, 0xFF0)])).sr 3 = 0x0FF := by decide +kernel
theorem test_shl_takes_six_bits : (after (.shl 3 1 2) (rigS [(1, 3), (2, 65)])).sr 3 = 6 := by decide +kernel
theorem test_shr : (after (.shr 3 1 2) (rigS [(1, 0x8000000000000000), (2, 63)])).sr 3 = 1 := by decide +kernel
theorem test_sra : (after (.sra 3 1 2) (rigS [(1, 0x8000000000000000), (2, 63)])).sr 3 = 0xFFFFFFFFFFFFFFFF := by decide +kernel
theorem test_slt : (after (.slt 3 1 2) (rigS [(1, 0xFFFFFFFFFFFFFFFF), (2, 0)])).sr 3 = 1 := by decide +kernel
theorem test_sltu : (after (.sltu 3 1 2) (rigS [(1, 0xFFFFFFFFFFFFFFFF), (2, 0)])).sr 3 = 0 := by decide +kernel
theorem test_mul : (after (.mul 3 1 2) (rigS [(1, 0xFFFFFFFFFFFFFFFF), (2, 2)])).sr 3 = 0xFFFFFFFFFFFFFFFE := by decide +kernel
theorem test_mulh : (after (.mulh 3 1 2) (rigS [(1, 0xFFFFFFFFFFFFFFFF), (2, 2)])).sr 3 = 0xFFFFFFFFFFFFFFFF := by decide +kernel
theorem test_mulhu : (after (.mulhu 3 1 2) (rigS [(1, 0xFFFFFFFFFFFFFFFF), (2, 2)])).sr 3 = 1 := by decide +kernel
theorem test_div_truncates : (after (.div 3 1 2) (rigS [(1, 0xFFFFFFFFFFFFFFF9), (2, 2)])).sr 3 = 0xFFFFFFFFFFFFFFFD := by decide +kernel
theorem test_div_by_zero : (after (.div 3 1 2) (rigS [(1, 7)])).sr 3 = 0xFFFFFFFFFFFFFFFF := by decide +kernel
theorem test_div_overflow : (after (.div 3 1 2) (rigS [(1, 0x8000000000000000), (2, 0xFFFFFFFFFFFFFFFF)])).sr 3 = 0x8000000000000000 := by
  decide +kernel
theorem test_divu : (after (.divu 3 1 2) (rigS [(1, 0xFFFFFFFFFFFFFFFF), (2, 2)])).sr 3 = 0x7FFFFFFFFFFFFFFF := by decide +kernel
theorem test_rem_sign : (after (.rem 3 1 2) (rigS [(1, 0xFFFFFFFFFFFFFFF9), (2, 2)])).sr 3 = 0xFFFFFFFFFFFFFFFF := by decide +kernel
theorem test_rem_overflow : (after (.rem 3 1 2) (rigS [(1, 0x8000000000000000), (2, 0xFFFFFFFFFFFFFFFF)])).sr 3 = 0 := by decide +kernel
theorem test_remu_by_zero : (after (.remu 3 1 2) (rigS [(1, 7)])).sr 3 = 7 := by decide +kernel
theorem test_min : (after (.min 3 1 2) (rigS [(1, 0xFFFFFFFFFFFFFFFF), (2, 1)])).sr 3 = 0xFFFFFFFFFFFFFFFF := by decide +kernel
theorem test_max : (after (.max 3 1 2) (rigS [(1, 0xFFFFFFFFFFFFFFFF), (2, 1)])).sr 3 = 1 := by decide +kernel
theorem test_minu : (after (.minu 3 1 2) (rigS [(1, 0xFFFFFFFFFFFFFFFF), (2, 1)])).sr 3 = 1 := by decide +kernel
theorem test_maxu : (after (.maxu 3 1 2) (rigS [(1, 0xFFFFFFFFFFFFFFFF), (2, 1)])).sr 3 = 0xFFFFFFFFFFFFFFFF := by decide +kernel
theorem test_clz : (after (.clz 3 1) (rigS [(1, 0x100)])).sr 3 = 55 := by decide +kernel
theorem test_clz_zero : (after (.clz 3 1) rig).sr 3 = 64 := by decide +kernel
theorem test_ctz : (after (.ctz 3 1) (rigS [(1, 0x100)])).sr 3 = 8 := by decide +kernel
theorem test_ctz_zero : (after (.ctz 3 1) rig).sr 3 = 64 := by decide +kernel
theorem test_popc : (after (.popc 3 1) (rigS [(1, 0x8001)])).sr 3 = 2 := by decide +kernel
theorem test_sel : (after (.sel 3 1 2 4) (rigS [(1, 5), (2, 6)])).sr 3 = 6 := by decide +kernel
theorem test_addsh : (after (.addsh 3 1 2 4) (rigS [(1, 5), (2, 3)])).sr 3 = 53 := by decide +kernel
theorem test_s0_discards : (after (.addi 0 1 7) rig).sr 0 = 0 := by decide +kernel
theorem test_addi_sign : (after (.addi 3 1 (-3)) (rigS [(1, 1)])).sr 3 = 0xFFFFFFFFFFFFFFFE := by decide +kernel
theorem test_andi_sign : (after (.andi 3 1 (-1)) (rigS [(1, 0xABC)])).sr 3 = 0xABC := by decide +kernel
theorem test_srai : (after (.srai 3 1 4) (rigS [(1, 0x8000000000000000)])).sr 3 = 0xF800000000000000 := by decide +kernel
theorem test_ldhi_sign : (after (.ldhi 3 0x100000) rig).sr 3 = 0xFFFFFFFF00000000 := by decide +kernel
theorem test_add_moves_pc : (after (.add 3 1 2) rig).me.pc = 4 := by decide +kernel

theorem witness_AluRegister : rig.me.replaying = false := by decide +kernel
theorem witness_AluImmediate : rig.me.replaying = false := by decide +kernel

/-! ## Branches and jumps: 09 R210, R211 -/

theorem test_beq_back : (after (.beq 1 2 (-2)) (rigT fun t => { t with pc := 0x100 })).me.pc = 0xF8 := by decide +kernel
theorem test_bne_not_taken : (after (.bne 1 2 8) rig).me.pc = 4 := by decide +kernel
theorem test_blt_signed : (after (.blt 1 2 8) (rigS [(1, 0xFFFFFFFFFFFFFFFF)])).me.pc = 32 := by decide +kernel
theorem test_bltu_unsigned : (after (.bltu 1 2 8) (rigS [(1, 0xFFFFFFFFFFFFFFFF)])).me.pc = 4 := by decide +kernel
theorem test_bge : (after (.bge 1 2 8) rig).me.pc = 32 := by decide +kernel
theorem test_bgeu : (after (.bgeu 1 2 8) (rigS [(2, 1)])).me.pc = 4 := by decide +kernel
theorem test_jal_links : (after (.jal 1 10) rig).me.pc = 40 ∧ (after (.jal 1 10) rig).sr 1 = 4 := by decide +kernel
theorem test_jalr_source_is_destination : (after (.jalr 1 1 4) (rigS [(1, 0x100)])).me.pc = 0x104 := by decide +kernel
theorem test_jalr_misaligned : (after (.jalr 1 1 2) (rigS [(1, 0x100)])).me.tva = 0x102 := by decide +kernel
theorem test_vloop : (after (.vloop 4 (-7)) ((rigT fun t => { t with vl := 3, pc := 0x100 }).setS 4 5)).sr 4 = 2 := by decide +kernel
theorem test_vloop_ends : (after (.vloop 4 (-7)) ((rigT fun t => { t with vl := 8, pc := 0x100 }).setS 4 5)).me.pc = 0x104 := by decide +kernel

/-! ## Scalar floating point: 09 R212 to R215 -/

theorem test_fadd_s : (after (.fadd 3 1 2 0) (rigS [(1, 0x3F800000), (2, 0x40000000)])).sr 3 = 0x40400000 := by decide +kernel
theorem test_fsub_d : (after (.fsub 3 1 2 1) (rigS [(1, 0x3FF0000000000000), (2, 0x3FF0000000000000)])).sr 3 = 0 := by decide +kernel
theorem test_fmul_s_inexact : (after (.fmul 3 1 2 0) (rigS [(1, 0x3F800001), (2, 0x3F800001)])).sr 3 = 0x3F800002 ∧
    (after (.fmul 3 1 2 0) (rigS [(1, 0x3F800001), (2, 0x3F800001)])).me.fcs = 0x1000 := by decide +kernel
theorem test_fdiv_by_zero : (after (.fdiv 3 1 2 0) (rigS [(1, 0x3F800000)])).sr 3 = 0x7F800000 ∧
    (after (.fdiv 3 1 2 0) (rigS [(1, 0x3F800000)])).me.fcs = 0x200 := by decide +kernel
theorem test_fsqrt_s : (after (.fsqrt 3 1 0) (rigS [(1, 0x41100000)])).sr 3 = 0x40400000 := by decide +kernel
theorem test_fma_one_rounding : (after (.fma 3 1 1 2 0) (rigS [(1, 0x3F800001), (2, 0xBF800002)])).sr 3 = 0x28800000 := by decide +kernel
theorem test_fmin_s : (after (.fmin 3 1 2 0) (rigS [(1, 0x80000000)])).sr 3 = 0x80000000 := by decide +kernel
theorem test_fmax_s : (after (.fmax 3 1 2 0) (rigS [(1, 0x3F800000), (2, 0xC0000000)])).sr 3 = 0x3F800000 := by decide +kernel
theorem test_fcmp_lt : (after (.fcmp 3 1 2 1 0) (rigS [(1, 0xBF800000)])).sr 3 = 1 := by decide +kernel
theorem test_fcvt_to_int : (after (.fcvt 3 1 2) (rigS [(1, 0xC0200000)])).sr 3 = 0xFFFFFFFFFFFFFFFE := by decide +kernel
theorem test_fadd_traps : (after (.fdiv 3 1 2 0) ((rigT fun t => { t with fcs := 0x20000 }).setS 1 0x3F800000)).me.tva = 2 := by decide +kernel

/-- Operands of every scalar floating-point statement: no exception is enabled, in either precision; and one whose division traps. -/
theorem witness_ScalarFloat : rig.me.replaying = false ∧ ¬ rig.InHandler ∧ (∀ e : Exc, rig.me.ten &&& e = 0) ∧
    (let s := rigT fun t => { t with fcs := 0x1F0000 }
     s.me.replaying = false ∧ ¬ s.InHandler ∧ s.me.ten &&& 2 ≠ 0) := by decide +kernel

/-! ## Scalar memory: 09 R206 to R209 -/

/-- The rig with bytes at the start of its scratchpad and registers. -/
def rigM (bs : List Byte) (l : List (BitVec 5 × Word)) : State := (rigS ((1, local0) :: l)).putBytes (scratchBase 0) bs

theorem test_ldB_sign : (after (.ldB 3 1 0) (rigM [0x80] [])).sr 3 = 0xFFFFFFFFFFFFFF80 := by decide +kernel
theorem test_ldBu : (after (.ldBu 3 1 1) (rigM [0, 0x80] [])).sr 3 = 0x80 := by decide +kernel
theorem test_ldH_little_endian : (after (.ldH 3 1 0) (rigM [0x34, 0x92] [])).sr 3 = 0xFFFFFFFFFFFF9234 := by decide +kernel
theorem test_ldHu : (after (.ldHu 3 1 2) (rigM [0, 0, 0x34, 0x92] [])).sr 3 = 0x9234 := by decide +kernel
theorem test_ldW_sign : (after (.ldW 3 1 0) (rigM [1, 0, 0, 0x80] [])).sr 3 = 0xFFFFFFFF80000001 := by decide +kernel
theorem test_ldWu : (after (.ldWu 3 1 0) (rigM [1, 0, 0, 0x80] [])).sr 3 = 0x80000001 := by decide +kernel
theorem test_ldD : (after (.ldD 3 1 0) (rigM [1, 2, 3, 4, 5, 6, 7, 8] [])).sr 3 = 0x0807060504030201 := by decide +kernel
theorem test_ld_misaligned : (after (.ldW 3 1 2) (rigM [] [])).me.tca = 0x20003 := by decide +kernel
theorem test_ldOrdered : (after (.ldOrdered 3 1 4 1 2) (rigM [1, 0, 0, 0x80] [])).sr 3 = 0xFFFFFFFF80000001 := by decide +kernel

/-- A store and its performing. -/
noncomputable def stored (i : Instr) (s : State) : State := after (.writePerformed 0) (after i s)

theorem test_stB : (stored (.stB 2 1 1) (rigM [7, 7, 7] [(2, 0x1234)])).bytes (scratchBase 0) 3 = [7, 0x34, 7] := by decide +kernel
theorem test_stH : (stored (.stH 2 1 0) (rigM [7, 7, 7] [(2, 0x1234)])).bytes (scratchBase 0) 3 = [0x34, 0x12, 7] := by decide +kernel
theorem test_stW : (stored (.stW 2 1 0) (rigM [] [(2, 0x1122334455667788)])).word (scratchBase 0) = 0x55667788 := by decide +kernel
theorem test_stD : (stored (.stD 2 1 0) (rigM [] [(2, 0x1122334455667788)])).word (scratchBase 0) = 0x1122334455667788 := by decide +kernel
theorem test_store_waits : (after (.stD 2 1 0) (rigM [] [(2, 5)])).word (scratchBase 0) = 0 := by decide +kernel
theorem test_stOrdered : (stored (.stOrdered 1 2 4 2 0) (rigM [] [(2, 0x1122334455667788)])).word (scratchBase 0) = 0x55667788 := by decide +kernel
theorem test_amoadd_w : (after (.amoadd 3 1 2 1 0 0) (rigM [0xFF, 0xFF, 0xFF, 0xFF, 9] [(2, 2)])).sr 3 = 0xFFFFFFFFFFFFFFFF ∧
    (after (.amoadd 3 1 2 1 0 0) (rigM [0xFF, 0xFF, 0xFF, 0xFF, 9] [(2, 2)])).bytes (scratchBase 0) 5 = [1, 0, 0, 0, 9] := by decide +kernel
theorem test_amoand : (after (.amoand 3 1 2 0 0 0) (rigM [0x0F] [(2, 0x3C)])).word (scratchBase 0) = 0x0C := by decide +kernel
theorem test_amoor : (after (.amoor 3 1 2 0 0 0) (rigM [0x0F] [(2, 0x3C)])).word (scratchBase 0) = 0x3F := by decide +kernel
theorem test_amoxor : (after (.amoxor 3 1 2 0 0 0) (rigM [0x0F] [(2, 0x3C)])).word (scratchBase 0) = 0x33 := by decide +kernel
theorem test_amoswap : (after (.amoswap 2 1 2 0 0 0) (rigM [0x0F] [(2, 0x3C)])).word (scratchBase 0) = 0x3C ∧
    (after (.amoswap 2 1 2 0 0 0) (rigM [0x0F] [(2, 0x3C)])).sr 2 = 0x0F := by decide +kernel
theorem test_amomin_signed : (after (.amomin 3 1 2 1 0 0) (rigM [1] [(2, 0xFFFFFFFF)])).word (scratchBase 0) = 0xFFFFFFFF := by decide +kernel
theorem test_amomax_signed : (after (.amomax 3 1 2 1 0 0) (rigM [1] [(2, 0xFFFFFFFF)])).word (scratchBase 0) = 1 := by decide +kernel
theorem test_amominu : (after (.amominu 3 1 2 1 0 0) (rigM [1] [(2, 0xFFFFFFFF)])).word (scratchBase 0) = 1 := by decide +kernel
theorem test_amomaxu : (after (.amomaxu 3 1 2 1 0 0) (rigM [1] [(2, 0xFFFFFFFF)])).word (scratchBase 0) = 0xFFFFFFFF := by decide +kernel
theorem test_cas_equal : (after (.cas 3 2 4 1 0 0 0) (rigM [5] [(2, 5), (4, 9)])).word (scratchBase 0) = 9 := by decide +kernel
theorem test_cas_differs : (after (.cas 3 2 4 1 0 0 0) (rigM [6] [(2, 5), (4, 9)])).word (scratchBase 0) = 6 := by decide +kernel

/-- The scratchpad's first and last words are reached for every use of the statements on scalar memory, and the state is quiet. -/
theorem reaches_local (s : State) (va : Word) (n : Nat) (use : Use) (p : Phys) (h : s.translate (s.who s.tid) va.toNat n use = (.ok p, s))
    (ho : p.isOutbound = false) (hh : p.hs = false) (hg : p.pa % 64 + n ≤ 64) : s.Reaches va n use p s := ⟨h, ho, hh, hg⟩

theorem witness_Loads : ∃ p q, let s := rigM [1] []
    s.me.replaying = false ∧ s.Quiet ∧ s.Reaches (s.sr 1 + BitVec.ofInt 64 (0 : BitVec 13).toInt) 8 .load p s ∧ s.Reaches (s.sr 1) 4 .load p s ∧
    (let s := rigM [1] [(1, local0 + 0x2FFFFF8)]; s.Reaches (s.sr 1) 8 .load q s) :=
  ⟨⟨scratchBase 0, 4, false, false, 0, 0, none⟩, ⟨scratchBase 0 + 0x2FFFFF8, 4, false, false, 0, 0, none⟩, by decide +kernel,
    quiet_rig _ rfl rfl (by decide +kernel), by decide +kernel, by decide +kernel, by decide +kernel⟩
theorem witness_Stores : ∃ p q, let s := rigM [1] []
    s.me.replaying = false ∧ s.pend = [] ∧ s.acked s.tid = true ∧ s.Reaches (s.sr 1 + BitVec.ofInt 64 (0 : BitVec 13).toInt) 8 .store p s ∧
    s.Reaches (s.sr 1) 4 .store p s ∧ (let s := rigM [1] [(1, local0 + 0x2FFFFFF)]; s.Reaches (s.sr 1) 1 .store q s) :=
  ⟨⟨scratchBase 0, 4, false, false, 0, 0, none⟩, ⟨scratchBase 0 + 0x2FFFFFF, 4, false, false, 0, 0, none⟩, by decide +kernel, rfl, by decide +kernel,
    by decide +kernel, by decide +kernel, by decide +kernel⟩
theorem witness_Atomics : ∃ p, let s := rigM [1] []
    s.me.replaying = false ∧ s.kept s.tid = false ∧ s.Quiet ∧ s.acked s.tid = true ∧ s.Reaches (s.sr 1) 8 (.amo true) p s ∧ s.Reaches (s.sr 1) 4 (.amo false) p s :=
  ⟨⟨scratchBase 0, 4, false, false, 0, 0, none⟩, by decide +kernel, by decide +kernel, quiet_rig _ rfl rfl (by decide +kernel), by decide +kernel,
    by decide +kernel, by decide +kernel⟩
theorem witness_CompareAndSwap : ∃ p, let s := rigM [1] []
    s.me.replaying = false ∧ s.kept s.tid = false ∧ s.Quiet ∧ s.acked s.tid = true ∧ s.Reaches (s.sr 1) 8 .cas p s :=
  ⟨⟨scratchBase 0, 4, false, false, 0, 0, none⟩, by decide +kernel, by decide +kernel, quiet_rig _ rfl rfl (by decide +kernel), by decide +kernel,
    by decide +kernel⟩

/-! ## Control registers and queues: 08 R190; 09 R216, R217 -/

theorem test_csrr_vty : (after (.csrr 3 1) rig).sr 3 = 0x1001 := by decide +kernel
theorem test_csrr_level : (after (.csrr 3 0x100) rig).me.tca = 0x20002 := by decide +kernel
theorem test_csrw_fcs_reserved_bits : (after (.csrw 1 0x00C) (rigS [(1, 0xFFFFFFFFFFFFFFFB)])).me.fcs = 0xFFFFFFFFFF1F1F1B := by decide +kernel
theorem test_csrw_fcs_mode : (after (.csrw 1 0x00C) (rigS [(1, 7)])).me.fcs = 0 := by decide +kernel
theorem test_csrs : (after (.csrs 1 0x00C) ((rigT fun t => { t with fcs := 0x100 }).setS 1 0x200)).me.fcs = 0x300 := by decide +kernel
theorem test_csrc : (after (.csrc 1 0x00C) ((rigT fun t => { t with fcs := 0x300 }).setS 1 0x200)).me.fcs = 0x100 := by decide +kernel
theorem test_csrw_vl_level : (after (.csrw 1 0x000) (rigS [(1, 7)])).me.tca = 0x20002 := by decide +kernel
theorem test_csrw_vty_bad : (after (.csrw 1 0x001) (rigS [(1, 6)])).me.tca = 0x2030C := by decide +kernel
theorem test_qpush_q0 : (after (.qpush 1 0) (rigS [(1, 7)])).me.q0 = [7] := by decide +kernel
theorem test_qpush_own_neighbour : (after (.qpush 1 2) (rigS [(1, 7)])).me.fromW = [7] := by decide +kernel
theorem test_qpop : (after (.qpop 3 1) (rigT fun t => { t with q1 := [5, 6] })).sr 3 = 5 ∧
    (after (.qpop 3 1) (rigT fun t => { t with q1 := [5, 6] })).me.q1 = [6] := by decide +kernel
theorem test_qpop_blocks : (after (.qpop 3 1) rig).me.pc = 0 := by decide +kernel

/-- Two pairs of partition 0, thread 0 moving. -/
def rig2 : State := { (rig.setPart 0 { rig.part 0 with pairs := 3 }) with
  pairs := [(0, { Pair.reset with part := some 0 }), (1, { Pair.reset with part := some 0, idx := 1 })] }

theorem witness_ControlRead : rig.me.replaying = false ∧ rig.me.sup = false ∧ rigSup.me.replaying = false ∧ rigSup.me.sup = true := by decide +kernel
theorem witness_ControlWrite : rigSup.me.sup = true ∧ (0x00C, 0) ∈ csrTable rigSup.me rigSup.myPair ∧
    (0x104, 0x20003000) ∈ csrTable rigSup.me rigSup.myPair ∧ ∀ e ∈ csrWrites rigSup.me 0, e.2.replaying = false := by decide +kernel
theorem witness_ControlWriteChecks : rig.me.replaying = false ∧ ¬ rig.InHandler ∧ rig.me.sup = false ∧
    (rigS [(1, 6)]).sr 1 = 6 ∧ (rigS [(1, 0x3FF7)]).sr 1 = 0x3FF7 ∧ (rigS [(1, 0x4000)]).sr 1 = 0x4000 := by decide +kernel
theorem witness_Queues : rig2.me.replaying = false ∧ rig2.neighbour true ≠ rig2.tid ∧ rig2.neighbour false ≠ rig2.tid ∧
    rig2.me.q0.length < 32 ∧ 32 ≤ (rigT fun t => { t with q0 := List.replicate 32 0 }).me.q0.length ∧
    (rig2.th (rig2.neighbour true)).fromW.length < 16 ∧ (rig2.th (rig2.neighbour false)).fromE.length < 16 ∧
    (let s := rig2.setTh 2 { rig2.th 2 with fromW := List.replicate 16 0, fromE := List.replicate 16 0 }
     16 ≤ (s.th (s.neighbour true)).fromW.length ∧ 16 ≤ (s.th (s.neighbour false)).fromE.length) ∧
    (rigT fun t => { t with q1 := [1], fromE := [1], fromW := [1] }).me.q1 = 1 :: [] := by decide +kernel

/-! ## Traps, fences and the end of a context: 09 R218 to R226 -/

theorem test_trap : let t := (after (.trap 5) (rigT fun t => { t with tvb := 0x1000 })).me
    t.pc = 0x1000 ∧ t.tpc = 4 ∧ t.tva = 5 ∧ t.tca = 0x2000E ∧ t.sup = true := by decide +kernel
theorem test_brk : (after (.brk 31) rig).me.tca = 0x2000D := by decide +kernel
theorem test_illegal : let t := (after (.illegalInstruction 0 .permanent) rig).me
    t.tca = 0x2010C ∧ t.tva = 0x100000000 ∧ t.tpc = 0 := by decide +kernel
theorem test_tret : let t := (after .tret (rigT fun t => { t with sup := true, tca := 0x2000E, tpc := 0x44 })).me
    t.pc = 0x44 ∧ t.sup = false ∧ t.tca = 0xE := by decide +kernel
theorem test_double_trap : (after (.trap 5) (rigT fun t => { t with sup := true, tca := 0x2000E })).me.run = .doubleTrap := by decide +kernel
theorem test_halt_level : (after .halt rig).me.tca = 0x20002 := by decide +kernel
theorem test_wait : (after (.wait 3) rig).me.issues = false := by decide +kernel
theorem test_waitExpire : (after (.waitExpire 0) (after (.wait 3) rig)).me.issues = true := by decide +kernel
theorem test_kend : (after .kend rig).me.run = .free ∧ (after .kend rig).held 0 = 0 := by decide +kernel
theorem test_full_fence_performs : (after (.fence 3 1) (after (.stD 2 1 0) (rigM [] [(2, 6)]))).word (scratchBase 0) = 6 := by decide +kernel
theorem test_fence_rel : (after (.fence 2 0) (after (.stD 2 1 0) (rigM [] []))).me.barrier = 1 := by decide +kernel
theorem test_nop : (after (.nop 0) rig).me.pc = 4 := by decide +kernel
theorem test_tlbi_level : (after .tlbiAll rig).me.tca = 0x20002 := by decide +kernel

/-- The rig at level S inside its handler. -/
def rigIn : State := rigT fun t => { t with sup := true, tca := 0x2000E }
/-- A fault queue of one entry with room for partition 0, at 0x100000. -/
def rigQ (s : State) : State := s.setPart 0 { s.part 0 with faultq := 0x100000, fq := ⟨some 1, some 1⟩ }

theorem witness_TrapEntry : rig.me.replaying = false ∧ ¬ rig.InHandler ∧ ¬ rigSup.InHandler := by decide +kernel
theorem witness_DoubleTrap : rigIn.me.replaying = false ∧ rigIn.InHandler := by decide +kernel
theorem witness_TrapReturn : rigIn.me.replaying = false ∧ rigIn.me.sup = true ∧ rig.me.sup = false := by decide +kernel
theorem witness_Fences : rig.me.replaying = false ∧ rig.pend = [] ∧ rig.acked rig.tid = true := by decide +kernel
theorem witness_WaitAndHalt : let s := rigQ rigSup
    s.me.replaying = false ∧ s.me.sup = true ∧ s.pend = [] ∧ s.acked s.tid = true ∧ rig.me.sup = false ∧ s.QueueRoom false 0 1 0 ∧
    (s.putWord 0x100010 1).QueueFull false 0 1 := by decide +kernel
theorem witness_ContextEnds : rig.me.replaying = false ∧ (rigT fun t => { t with tcr := 2 }).me.tile = true := by decide +kernel
theorem witness_TlbInvalidate : rigSup.me.replaying = false ∧ rigSup.me.sup = true ∧ rigSup.pend = [] ∧ rigSup.asking rigSup.myPart = false ∧
    rig.me.sup = false ∧ rig.app = none ∧ rig.asking 0 = false ∧
    ¬ rig.InHandler ∧ ({ rig with app := some (Vector.replicate 32 0x100) } : State).app = some (Vector.replicate 32 0x100) := by decide +kernel
theorem witness_FullFenceDrains : ∃ t, exec (.fence 3 1) rig = .next t ∧ t.me.pc ≠ rig.me.pc := ⟨_, rfl, by decide +kernel⟩

/-! ## Vectors: 10 R228 to R250 -/

/-- A main register of 8 bytes in each lane, at a width in half bytes. -/
def reg (k nib : Nat) : Operand := ⟨[⟨false, 8 * k, 8⟩], nib⟩
def vset (s : State) (k nib : Nat) (l : List Nat) : State := l.zipIdx.foldl (fun (s : State) e => s.setElem (s.lanesOf 0) (reg k nib) e.2 e.1) s
def vget (s : State) (k nib n : Nat) : List Nat := (List.range n).map fun i => s.elem (s.lanesOf 0) (reg k nib) i
def mset (s : State) (k : Nat) (l : List Bool) : State := l.zipIdx.foldl (fun (s : State) e => s.setMaskBit (s.lanesOf 0) k e.2 e.1) s
def mget (s : State) (k n : Nat) : List Bool := (List.range n).map fun i => s.maskBit (s.lanesOf 0) k i
/-- The rig with one lane group, registers of 8 bytes in each lane, an element type and a vector length. -/
def rigE (et vl : Nat) : State :=
  (rigT fun t => { t with vty := w64 (0x1000 + et), vl := w64 vl, win := Vector.ofFn fun k => ⟨BitVec.ofNat 10 k.val, 1⟩ }).setHeld 0 1

/-- INT32: v1 = 7, -8; v2 = 3, 5; v3 = 10, 20; m1 = 1, 0; m2 = 1, 1; m3 = 0, 1; s4 = 3; s5 = 1. -/
def rigI : State :=
  mset (mset (mset (vset (vset (vset (((rigE 12 2).setS 4 3).setS 5 1) 1 8 [7, 0xFFFFFFF8]) 2 8 [3, 5]) 3 8 [10, 20]) 1 [true, false]) 2 [true, true]) 3
    [false, true]
/-- FP32: v1 = 1, -2; v2 = 2, 0.5; v3 = 4, 1; s4 = 1. -/
def rigF : State := vset (vset (vset ((rigE 1 2).setS 4 0x3F800000) 1 8 [0x3F800000, 0xC0000000]) 2 8 [0x40000000, 0x3F000000]) 3 8 [0x40800000, 0x3F800000]

theorem test_vector_integers : (
    [(.vadd 3 1 2 0, [10, 0xFFFFFFFD]), (.vsub 3 1 2 0, [4, 0xFFFFFFF3]), (.vmul 3 1 2 0, [21, 0xFFFFFFD8]), (.vmulh 3 1 2 0, [0, 0xFFFFFFFF]),
     (.vmadd 3 1 2 0, [31, 0xFFFFFFEC]), (.vmsub 3 1 2 0, [0xFFFFFFF5, 60]), (.vdiv 3 1 2 0, [2, 0xFFFFFFFF]), (.vrem 3 1 2 0, [1, 0xFFFFFFFD]),
     (.vmin 3 1 2 0, [3, 0xFFFFFFF8]), (.vmax 3 1 2 0, [7, 5]), (.vand 3 1 2 0, [3, 0]), (.vor 3 1 2 0, [7, 0xFFFFFFFD]),
     (.vxor 3 1 2 0, [4, 0xFFFFFFFD]), (.vshl 3 1 2 0, [56, 0xFFFFFF00]), (.vshr 3 1 2 0, [0, 0x07FFFFFF]), (.vsra 3 1 2 0, [0, 0xFFFFFFFF]),
     (.vabs 3 1 0, [7, 8])] : List (Instr × List Nat)).all (fun e => vget (after e.1 rigI) 3 8 2 == e.2) = true := by decide +kernel
theorem test_vector_integers_by_scalar : (
    [(.vaddVx 3 1 4 0 0, [10, 0xFFFFFFFB]), (.vsubVx 3 1 4 0 0, [4, 0xFFFFFFF5]), (.vmulVx 3 1 4 0 0, [21, 0xFFFFFFE8]),
     (.vmulhVx 3 1 4 0 0, [0, 0xFFFFFFFF]), (.vmaddVx 3 1 4 0 0, [31, 0xFFFFFFFC]), (.vmsubVx 3 1 4 0 0, [0xFFFFFFF5, 44]),
     (.vdivVx 3 1 4 0 0, [2, 0xFFFFFFFE]), (.vremVx 3 1 4 0 0, [1, 0xFFFFFFFE]), (.vminVx 3 1 4 0 0, [3, 0xFFFFFFF8]), (.vmaxVx 3 1 4 0 0, [7, 3]),
     (.vandVx 3 1 4 0 0, [3, 0]), (.vorVx 3 1 4 0 0, [7, 0xFFFFFFFB]), (.vxorVx 3 1 4 0 0, [4, 0xFFFFFFFB]), (.vshlVx 3 1 4 0 0, [56, 0xFFFFFFC0]),
     (.vshrVx 3 1 4 0 0, [0, 0x1FFFFFFF]), (.vsraVx 3 1 4 0 0, [0, 0xFFFFFFFF])] : List (Instr × List Nat)).all
    (fun e => vget (after e.1 rigI) 3 8 2 == e.2) = true := by decide +kernel
theorem test_masked_keeps : vget (after (.vadd 3 1 2 1) rigI) 3 8 2 = [10, 20] ∧ (after (.vadd 3 1 2 1) rigI).me.es = 0 := by decide +kernel
theorem test_vector_floats : (
    [(.vfadd 3 1 2 0, [0x40400000, 0xBFC00000]), (.vfsub 3 1 2 0, [0xBF800000, 0xC0200000]), (.vfmul 3 1 2 0, [0x40000000, 0xBF800000]),
     (.vfdiv 3 1 2 0, [0x3F000000, 0xC0800000]), (.vfma 3 1 2 0, [0x40C00000, 0]), (.vfms 3 1 2 0, [0xC0000000, 0xC0000000]),
     (.vfnma 3 1 2 0, [0x40000000, 0x40000000]), (.vfmin 3 1 2 0, [0x3F800000, 0xC0000000]), (.vfmax 3 1 2 0, [0x40000000, 0x3F000000]),
     (.vfsqrt 3 3 0, [0x40000000, 0x3F800000]), (.vfabs 3 1 0, [0x3F800000, 0x40000000]), (.vfneg 3 1 0, [0xBF800000, 0x40000000]),
     (.vcvt 3 1 12 0, [1, 0xFFFFFFFE])] : List (Instr × List Nat)).all (fun e => vget (after e.1 rigF) 3 8 2 == e.2) = true := by decide +kernel
theorem test_vector_floats_by_scalar : (
    [(.vfaddVx 3 1 4 0 0, [0x40000000, 0xBF800000]), (.vfsubVx 3 1 4 0 0, [0, 0xC0400000]), (.vfmulVx 3 1 4 0 0, [0x3F800000, 0xC0000000]),
     (.vfdivVx 3 1 4 0 0, [0x3F800000, 0xC0000000]), (.vfmaVx 3 1 4 0 0, [0x40A00000, 0xBF800000]), (.vfmsVx 3 1 4 0 0, [0xC0400000, 0xC0400000]),
     (.vfnmaVx 3 1 4 0 0, [0x40400000, 0x40400000]), (.vfminVx 3 1 4 0 0, [0x3F800000, 0xC0000000]), (.vfmaxVx 3 1 4 0 0, [0x3F800000, 0x3F800000])] :
    List (Instr × List Nat)).all (fun e => vget (after e.1 rigF) 3 8 2 == e.2) = true := by decide +kernel
theorem test_vector_compares : (
    [(.vcmpEq 4 1 2 0, [false, false]), (.vcmpNe 4 1 2 0, [true, true]), (.vcmpLt 4 1 2 0, [false, true]), (.vcmpLe 4 1 2 0, [false, true]),
     (.vcmpLtu 4 1 2 0, [false, false]), (.vcmpLeu 4 1 2 0, [false, false]), (.vcmpEqVx 4 2 4 0 0, [true, false]), (.vcmpNeVx 4 2 4 0 0, [false, true]),
     (.vcmpLtVx 4 2 4 0 0, [false, false]), (.vcmpLeVx 4 2 4 0 0, [true, false]), (.vcmpLtuVx 4 2 4 0 0, [false, false]),
     (.vcmpLeuVx 4 2 4 0 0, [true, false]), (.mand 4 1 2 0, [true, false]), (.mor 4 1 3 0, [true, true]), (.mxor 4 1 2 0, [false, true]),
     (.mnot 4 1 0, [false, true]), (.mset 4 0, [true, true])] : List (Instr × List Bool)).all (fun e => mget (after e.1 rigI) 4 2 == e.2) = true := by
  decide +kernel
theorem test_vector_float_compares : (
    [(.vfcmpEq 4 1 2 0, [false, false]), (.vfcmpNe 4 1 2 0, [true, true]), (.vfcmpLt 4 1 2 0, [true, true]), (.vfcmpLe 4 1 2 0, [true, true]),
     (.vfcmpUnord 4 1 2 0, [false, false]), (.vfcmpOrd 4 1 2 0, [true, true]), (.vfcmpEqVx 4 1 4 0 0, [true, false]),
     (.vfcmpNeVx 4 1 4 0 0, [false, true]), (.vfcmpLtVx 4 1 4 0 0, [false, true]), (.vfcmpLeVx 4 1 4 0 0, [true, true]),
     (.vfcmpUnordVx 4 1 4 0 0, [false, false]), (.vfcmpOrdVx 4 1 4 0 0, [true, true])] : List (Instr × List Bool)).all
    (fun e => mget (after e.1 rigF) 4 2 == e.2) = true := by decide +kernel
theorem test_scalar_results : (
    [(.mpopc 6 1 0, 1), (.mfirst 6 3 0, 1), (.vredsum 6 1 4 0 0, 2), (.vredmax 6 1 4 0 0, 7), (.vredmin 6 1 4 0 0, 0xFFFFFFFFFFFFFFF8),
     (.vredand 6 1 4 0 0, 0), (.vredor 6 1 4 0 0, 0xFFFFFFFFFFFFFFFF), (.vext 6 1 5 0, 0xFFFFFFFFFFFFFFF8)] : List (Instr × Word)).all
    (fun e => (after e.1 rigI).sr 6 == e.2) = true := by decide +kernel
theorem test_float_reductions : (
    [(.vfredsumO 6 1 4 0 0, 0), (.vfredsumT 6 1 4 0 0, 0), (.vfredmax 6 1 4 0 0, 0x3F800000), (.vfredmin 6 1 4 0 0, 0xC0000000)] :
    List (Instr × Word)).all (fun e => (after e.1 rigF).sr 6 == e.2) = true := by decide +kernel
theorem test_permutations : (
    [(.vslideup 3 1 5 0 0, [0, 7]), (.vslidedown 3 1 5 0 0, [0xFFFFFFF8, 0]), (.vrev 3 1 0, [0xFFFFFFF8, 7]), (.vperm 3 1 2 0, [0, 0]),
     (.viota 3 1 0, [0, 1]), (.vcompress 3 1 3, [0xFFFFFFF8, 20]), (.vexpand 3 1 3, [10, 7]), (.vscanAdd 3 1 4 0 0, [10, 2]),
     (.vscanMax 3 1 4 0 0, [7, 7]), (.vscanMin 3 1 4 0 0, [3, 0xFFFFFFF8]), (.vrecur 3 1 4 0 0, [31, 0xFFFFFF1C]), (.vmv 3 1 0, [7, 0xFFFFFFF8]),
     (.vbcast 3 4 0 0, [3, 3]), (.vmerge 3 1 2 1, [7, 5]), (.vins 3 5 4 0, [10, 3])] : List (Instr × List Nat)).all
    (fun e => vget (after e.1 rigI) 3 8 2 == e.2) = true := by decide +kernel
theorem test_vsort : vget (after (.vsort 1 2) rigI) 1 8 2 = [0xFFFFFFF8, 7] ∧ vget (after (.vsort 1 2) rigI) 2 8 2 = [1, 0] := by decide +kernel
theorem test_vdedup : let s := vset rigI 1 8 [7, 7]
    vget (after (.vdedup 1 2 6) s) 2 8 1 = [8] ∧ (after (.vdedup 1 2 6) s).sr 6 = 1 := by decide +kernel
theorem test_vscanFadd : vget (after (.vscanFadd 3 1 4 0 0) rigF) 3 8 2 = [0x40000000, 0] := by decide +kernel
theorem test_setvl : (after (.setvl 3 4) (rigS [(4, 2000)])).sr 3 = 2000 ∧ (after (.setvl 3 4) (rigS [(4, 3000)])).me.vl = 2048 := by decide +kernel
theorem test_vtype_reserved : (after (.vtype 4) (rigS [(4, 6)])).me.tca = 0x2030C := by decide +kernel
theorem test_vcfg : let t := (after (.vcfg 0) rigI).me
    t.ncfg = 0 ∧ t.win[7] = ⟨896, 128⟩ ∧ vget (after (.vcfg 0) rigI) 1 8 2 = [0, 0] := by decide +kernel
theorem test_vwin : (after (.vwin 3 4) (rigS [(4, 0x400010)])).me.win[3] = ⟨16, 64⟩ := by decide +kernel
theorem test_lpart : (after (.lpart 4) (rigS [(4, 0x5555)])).myPair.req = 0x5555 := by decide +kernel

/-- Operands of the element-wise and whole-strip statements, at both ends of the strip: VL elements exactly and one more element than ES. -/
theorem plain_of (s : State) (h1 : s.me.replaying = false) (h2 : s.regBad = []) (h3 : s.me.cut = 0) (h4 : s.me.binds = Vector.replicate 8 none)
    (h5 : s.me.vlen ≠ 0) : s.Plain := ⟨h1, h2, h3, unbound_of s h4, h5⟩

theorem within_rigI : rigI.Plain ∧ rigI.me.operand 3 1 8 true = some (reg 3 8) ∧ rigI.me.operand 1 1 8 false = some (reg 1 8) ∧
    rigI.me.operand 2 1 8 false = some (reg 2 8) ∧
    rigI.Within rigI.me.start ([reg 3 8, reg 1 8, reg 2 8].map rigI.capOf ++ rigI.maskRoom 1) :=
  ⟨plain_of _ (by decide +kernel) (by decide +kernel) (by decide +kernel) (by decide +kernel) (by decide +kernel), by decide +kernel, by decide +kernel, by decide +kernel,
    by decide +kernel⟩
theorem witness_VectorIntegers : rigI.me.et = 12 ∧ rigI.Scalar 4 0 3 ∧ (rigI.setMe { rigI.me with q0 := [9] }).Scalar 0 1 9 := by decide +kernel
theorem witness_VectorFloats : codeFmt rigF.me.et = some fmt32 ∧ rigF.Plain ∧ rigF.me.operand 3 1 8 true = some (reg 3 8) ∧
    rigF.me.operand 1 1 8 false = some (reg 1 8) ∧ rigF.me.operand 2 1 8 false = some (reg 2 8) ∧
    rigF.Within rigF.me.start ([reg 3 8, reg 1 8, reg 2 8].map rigF.capOf) ∧ rigF.Scalar 4 0 0x3F800000 ∧
    ∀ g, rigF.NoTrap (rigF.actives 0 0) g :=
  ⟨by decide +kernel, plain_of _ (by decide +kernel) (by decide +kernel) (by decide +kernel) (by decide +kernel) (by decide +kernel), (by decide +kernel), (by decide +kernel),
    by decide +kernel, by decide +kernel, (by decide +kernel), fun g i _ => by
      have h : rigF.me.ten = 0 := by decide +kernel
      simp [h]⟩
theorem witness_VectorFloats_convert : (rigF.me.operand 4 2 16 true).isSome ∧ rigF.Within 0 [rigF.capOf ⟨[Thread.reset.mainReg 4, Thread.reset.mainReg 5], 16⟩] := by
  decide +kernel
theorem witness_VectorCompares : rigI.Within rigI.me.start ([rigI.capOf (reg 1 8), rigI.capOf (reg 2 8)] ++ [maskCap (rigI.lanesOf rigI.tid).count]) := by
  decide +kernel
theorem witness_MaskOperations : rigI.Within rigI.me.start [maskCap (rigI.lanesOf rigI.tid).count] := by decide +kernel
theorem witness_Reductions : rigI.Scalar 4 0 3 ∧ rigI.me.q1.length < 32 ∧ codeFmt rigF.me.et = some fmt32 ∧
    treeSum rigF.me fmt32 rigF.me.ctl 0 0 [] 0 = (0, 0, none) := by decide +kernel
theorem witness_Permutations : rigI.Within rigI.me.start [rigI.capOf (reg 3 8), maskCap (rigI.lanesOf rigI.tid).count] ∧
    rigI.Within 0 [rigI.capOf (reg 3 8), rigI.capOf (reg 1 8), maskCap (rigI.lanesOf rigI.tid).count] := by decide +kernel
theorem witness_SortsAndScans : rigI.me.operand 2 1 8 true = some (reg 2 8) ∧ rigI.me.vlen ≤ 2 ^ codeBits rigI.me.et ∧
    rigI.Within 0 [rigI.capOf (reg 1 8), rigI.capOf (reg 2 8)] ∧
    (dedupRuns rigI.me rigI.me.ctl 12 [(0, 7, 3), (1, 7, 5)] [] 0).2.2 = none ∧
    codeFmt rigI.me.et = none ∧ codeFmt rigF.me.et = some fmt32 ∧ rigF.me.ten = 0 := by decide +kernel
theorem witness_VectorMoves : rigI.me.replaying = false ∧ rigI.regBad = [] ∧ rigI.me.cut = 0 ∧ rigI.Scalar 5 0 1 ∧ rigI.me.q1.length < 32 ∧
    rigI.Within rigI.me.start [rigI.capOf (reg 3 8), rigI.capOf (reg 1 8), rigI.capOf (reg 2 8), maskCap (rigI.lanesOf 0).count] := by decide +kernel
/-- The rig with a request in s4. -/
def rigL : State := rigS [(4, 100)]
theorem witness_SetVectorLength : rigL.me.replaying = false ∧ (∀ j : Nat, (rigL.me.binds[j]?).getD none = none) ∧ rigL.sr 4 ≠ 0 ∧
    (∀ g, g < 8 → (0x0F : Byte).getLsbD g = grantedGroup rigL g) ∧ 0x0F = rigL.held rigL.tid ∧ rigL.lanes rigL.tid ≠ 0 ∧
    (let s := rigL.setHeld 0 1
     (∀ g, g < 8 → (0x0F : Byte).getLsbD g = grantedGroup s g) ∧ 0x0F ≠ s.held s.tid ∧ s.pend = [] ∧ (s.setHeld s.tid 0x0F).lanes s.tid ≠ 0) ∧
    (let s := rigL.setPair 0 { rigL.myPair with req := 0 }
     (∀ g, g < 8 → (0 : Byte).getLsbD g = grantedGroup s g) ∧ 0 ≠ s.held s.tid ∧ s.pend = [] ∧ (s.setHeld s.tid 0).lanes s.tid = 0 ∧
     (let z := s.setHeld 0 0
      (∀ g, g < 8 → (0 : Byte).getLsbD g = grantedGroup z g) ∧ 0 = z.held z.tid ∧ z.lanes z.tid = 0)) :=
  ⟨by decide +kernel, unbound_of _ (by decide +kernel), (by decide +kernel), (by decide +kernel), by decide +kernel, by decide +kernel, (by decide +kernel),
    by decide +kernel⟩
/-- 10 R229; 03 R88: the lanes newly held read zero, and so do the ones kept. -/
theorem test_setvl_zeroes : vget (after (.setvl 5 4) (vset (rigE 12 2) 1 8 [7, 8])) 1 8 2 = [0, 0] := by decide +kernel
theorem witness_VectorSetup : rig.me.replaying = false ∧ ¬ rig.InHandler ∧ rig.me.ncfg = 2 := by decide +kernel

/-! ## Vector memory: 11 R251 to R264 -/

/-- INT32, two elements, the scratchpad's first words 1 to 4: v1 = 7, -8; v2 = 2, 0; v3 = 10, 20; s1 the scratchpad, s4 = 8. -/
def rigV : State :=
  (vset (vset (vset (((rigE 12 2).setS 1 local0).setS 4 8) 1 8 [7, 0xFFFFFFF8]) 2 8 [2, 0]) 3 8 [10, 20]).putBytes (scratchBase 0)
    [1, 0, 0, 0, 2, 0, 0, 0, 3, 0, 0, 0, 4]
/-- Two writes performed after an instruction. -/
noncomputable def settled (i : Instr) (s : State) : State := after (.writePerformed 1) (after (.writePerformed 0) (after i s))

theorem test_vector_loads : (
    [(.vld 3 1 0 0, [1, 2]), (.vlds 3 1 4 0 0, [1, 3]), (.vldx 3 1 2 0 0, [3, 1]), (.wgather 3 1 2 0 0, [10, 1])] : List (Instr × List Nat)).all
    (fun e => vget (after e.1 rigV) 3 8 2 == e.2) = true := by decide +kernel
theorem test_wgather_marks : mget (after (.wgather 3 1 2 0 0) rigV) 0 2 = [true, false] := by decide +kernel
theorem test_vst : (settled (.vst 1 1 0 0) rigV).bytes (scratchBase 0) 8 = [7, 0, 0, 0, 0xF8, 0xFF, 0xFF, 0xFF] := by decide +kernel
theorem test_vsts : (settled (.vsts 1 1 4 0 0) rigV).bytes (scratchBase 0 + 8) 4 = [0xF8, 0xFF, 0xFF, 0xFF] := by decide +kernel
theorem test_vstxO_last_wins : (settled (.vstxO 1 1 2 0 0) (vset rigV 2 8 [1, 1])).bytes (scratchBase 0 + 4) 4 = [0xF8, 0xFF, 0xFF, 0xFF] := by decide +kernel
theorem test_vsadd_sums : (settled (.vsadd 1 1 2 0 0) (vset rigV 2 8 [1, 1])).bytes (scratchBase 0 + 4) 4 = [1, 0, 0, 0] := by decide +kernel
theorem test_tload : let s := after (.tload 3 1 0 4 0 0) (rigV.setMe { rigV.me with tm := 2, tk := 1 })
    vget s 3 8 2 = [1, 3] ∧ s.me.tal = 2 := by decide +kernel
theorem test_tstore : (settled (.tstore 1 1 0 4 0 0) (rigV.setMe { rigV.me with tm := 2, tk := 1 })).bytes (scratchBase 0 + 8) 4 =
    [0xF8, 0xFF, 0xFF, 0xFF] := by decide +kernel

/-- The rig with a stream's record in the scratchpad: INT32, base 0x40 above, stride 4, POS 0, FINAL 2 (11 R261). -/
def rigB : State := rigV.putBytes (scratchBase 0)
  (leBytes 8 (local0.toNat + 0x40) ++ leBytes 8 4 ++ leBytes 8 0 ++ leBytes 8 0 ++ leBytes 8 2 ++ [12] ++ List.replicate 23 0)
theorem test_vbind_absent : (after (.vbind 40 1) rigB).me.tca = 0x2040C := by decide +kernel
theorem test_vbpos : (after (.vbpos 5 6) rigB).sr 6 = 0xFFFFFFFFFFFFFFFF := by decide +kernel
/-- The rig with a ring of four words: BASE 0x40 above, CAP 4, HEAD 0, TAIL 3 (11 R263). -/
def rigR : State := rigV.putBytes (scratchBase 0) (leBytes 8 (local0.toNat + 0x40) ++ leBytes 8 4 ++ leBytes 8 0 ++ leBytes 8 3)
theorem test_cappend_wraps : let s := after (.cappend 1 1 0 1) (mset rigR 1 [true, false])
    s.word (scratchBase 0 + 0x18) = 4 ∧ s.bytes (scratchBase 0 + 0x4C) 4 = [7, 0, 0, 0] := by decide +kernel
theorem test_cappend_full : (after (.cappend 1 1 0 0) (rigR.putWord (scratchBase 0 + 0x18) 4)).me.tca = 0x20005 := by decide +kernel

/-- The place of a word of the scratchpad. -/
def inScratch (o : Nat) : Phys := ⟨scratchBase 0 + o, 4, false, false, 0, 0, none⟩
theorem quiet_rigV : rigV.Quiet := quiet_of _ (by decide +kernel) (by decide +kernel) (by decide +kernel)
theorem plain_rigV : rigV.Plain := plain_of _ (by decide +kernel) (by decide +kernel) (by decide +kernel) (by decide +kernel) (by decide +kernel)

theorem witness_VectorLoads : rigV.Plain ∧ rigV.Quiet ∧ rigV.me.operand 3 1 8 true = some (reg 3 8) ∧ rigV.me.operand 2 1 8 false = some (reg 2 8) ∧
    rigV.Within 0 [rigV.capOf (reg 3 8), rigV.capOf (reg 2 8)] ∧
    rigV.Places (fun i => some (rigV.sr 1 + w64 (i * 4))) 4 .load (rigV.activesOf 0 0 0) (fun i => inScratch (4 * i)) rigV ∧
    rigV.Places (fun i => some (rigV.sr 1 + w64 i * rigV.sr 4)) 4 .load (rigV.activesOf 0 0 0) (fun i => inScratch (8 * i)) rigV ∧
    rigV.Places (fun i => some (rigV.sr 1 + w64 (rigV.at_ (reg 2 8) i * 4))) 4 .load (rigV.activesOf 0 0 0) (fun i => inScratch (8 - 8 * i)) rigV ∧
    rigV.Places (fun i => if rigV.at_ (reg 2 8) i < 2 then some (rigV.sr 1 + w64 (rigV.at_ (reg 2 8) i * 4)) else none) 4 .load
      (rigV.activesOf 0 0 0) (fun _ => inScratch 0) rigV ∧ ¬ rigV.InHandler :=
  ⟨plain_rigV, quiet_rigV, by decide +kernel, (by decide +kernel), (by decide +kernel), by decide +kernel,
    by decide +kernel, (by decide +kernel), by decide +kernel, by decide +kernel⟩
theorem witness_VectorStores : rigV.me.operand 1 1 8 false = some (reg 1 8) ∧
    rigV.Places (fun i => some (rigV.sr 1 + w64 (i * 4))) 4 .store (rigV.activesOf 0 0 0) (fun i => inScratch (4 * i)) rigV ∧
    rigV.Places (fun i => some (rigV.sr 1 + w64 (rigV.at_ (reg 2 8) i * 4))) 4 .scatterAdd (rigV.activesOf 0 0 0) (fun i => inScratch (8 - 8 * i)) rigV ∧
    (let s := rigV.setMe { rigV.me with vty := 0x1007 }
     s.me.et = 7 ∧ s.me.operand 1 1 1 false = some (reg 1 1) ∧ s.Within 0 [s.capOf (reg 1 1)] ∧
     s.Places (fun i => some (s.sr 1 + w64 (i / 2))) 1 .rewrite (s.activesOf 0 0 0) (fun i => inScratch (i / 2)) s) :=
  ⟨by decide +kernel, (by decide +kernel), (by decide +kernel), by decide +kernel, by decide +kernel,
    (by decide +kernel), by decide +kernel⟩
theorem witness_TileTransfers : let s := rigV.setMe { rigV.me with tm := 1, tk := 2, tn := 2 }
    s.me.start < 1 * 2 ∧ 1 * 2 ≤ s.me.vlen ∧ (s.setMe { s.me with vl := 2 }).Within 0 [s.capOf (reg 3 8)] ∧
    (s.setMe { s.me with vl := 2 }).Places (fun e => some (s.sr 1 + w64 (e / 2) * s.sr 4 + w64 (e % 2 * 4))) 4 .load
      ((s.setMe { s.me with vl := 2 }).activesOf 0 0 0) (fun e => inScratch (4 * e)) (s.setMe { s.me with vl := 2 }) :=
  ⟨by decide +kernel, by decide +kernel, by decide +kernel, by decide +kernel⟩
theorem witness_Streams : rigB.me.replaying = false ∧ ¬ rigB.InHandler ∧ rigB.me.boundSlot 5 = none ∧ rigB.Reaches (rigB.sr 1) 64 .load (inScratch 0) rigB ∧
    rigB.Quiet ∧ bindBad (rigB.bytes (scratchBase 0) 64) = false ∧ (∃ j < 8, (rigB.me.binds[j]?).getD none = none) ∧
    (let s := rigB.setMe { rigB.me with binds := rigB.me.binds.setIfInBounds 7 (some (Bind.ofRecord (rigB.bytes (scratchBase 0) 64) local0 31)) }
     s.me.boundSlot 31 = some 7 ∧ s.Reaches (local0 + 0x18) 8 .store (inScratch 0x18) s) ∧
    (rigB.me.nregs ≤ (32 : BitVec 6).toNat ∧ (55 : BitVec 6).toNat < 56) :=
  ⟨by decide +kernel, (by decide +kernel), (by decide +kernel), by decide +kernel,
    quiet_of _ (by decide +kernel) (by decide +kernel) (by decide +kernel), by decide +kernel, ⟨0, by decide +kernel⟩,
    ⟨(by decide +kernel), by decide +kernel⟩, by decide +kernel⟩
/-- A pair whose first part is not an error. -/
theorem ok_of {α : Type} (r : Except α Unit × State) (s : State) (h : (match r.1 with
    | .ok _ => true
    | .error _ => false) = true) (h2 : r.2 = s) : r = (.ok (), s) := by
  obtain ⟨a, b⟩ := r
  cases a with
  | ok _ => simp only at h2; rw [h2]
  | error _ => simp at h
theorem witness_CompressAppend : let s := mset rigR 1 [true, false]
    s.Plain ∧ s.Quiet ∧ s.activesOf 0 0 1 ≠ [] ∧ s.Reaches (s.sr 1) 32 .cas (inScratch 0) s ∧ (s.region (scratchBase 0)).isLocal = true ∧
    s.ringPages (s.who s.tid) (s.word (scratchBase 0)) (List.range 1) = (.ok (), s) ∧
    (((s.putWord (scratchBase 0 + 0x18) 4).appendEntries (s.lanesOf 0) (reg 1 8) ⟨scratchBase 0, s.word (scratchBase 0), 4⟩ 4 3
      (valuesOf [(0, 7)])).drain (fun q => decide (s.wseq ≤ q.seq))).isSome :=
  ⟨plain_of _ (by decide +kernel) (by decide +kernel) (by decide +kernel) (by decide +kernel) (by decide +kernel),
    quiet_of _ (by decide +kernel) (by decide +kernel) (by decide +kernel), by decide +kernel, by decide +kernel, by decide +kernel,
    ok_of _ _ (by decide +kernel) (by decide +kernel), by decide +kernel⟩

/-! ## Tiles: 12 R266 to R288 -/

/-- Tile mode, FP16: v1 = 1, 2 and v8 upward as listed; slot 3 holds K = 16, N = 1 of FP16, B = 3, 4; s5 = 2.0; M = 1, N = 1, K = 16. -/
def rigT2 : State :=
  let s := vset (((rigE 2 2).setS 5 0x40000000).setS 7 7) 1 4 [0x3C00, 0x4000]
  let s := s.setMe { s.me with tcr := 2, leave := true, tm := 1, tn := 1, tk := 16 }
  (s.setPair 0 { s.myPair with tmu := some 0, wb := s.myPair.wb.set 3 0x8000000000100102 }).putReg (regKey 0 (weightOff 3)) [0, 0x42, 0, 0x44]
/-- What an accumulator's first element is, moved out as FP16. -/
def out0 (s : State) : List Nat := vget (after (.tmova 0 3 0) s) 3 4 1

theorem test_tmmaO : out0 (after (.tmmaO 0 1 3 9) rigT2) = [0x4980] := by decide +kernel
theorem test_tmmaF : out0 (after (.tmmaF 0 1 3 9) rigT2) = [0x4980] := by decide +kernel
theorem test_tmma_invalid_slot : (after (.tmmaO 0 1 2 9) rigT2).me.pc = rigT2.me.tvb := by decide +kernel
theorem test_tmovv : out0 (after (.tmovv 0 1 0) rigT2) = [0x3C00] := by decide +kernel
theorem test_tzero : out0 (after (.tzero 0) (after (.tmovv 0 1 0) rigT2)) = [0] := by decide +kernel
theorem test_tshape_depth : (after (.tshape 7 7 7) rigT2).me.tk = 0 := by decide +kernel
theorem test_tcolmv : vget (after (.tcolmvOut 0 3 0) (after (.tcolmvIn 0 1 0) rigT2)) 3 4 1 = [0x3C00] := by decide +kernel
theorem test_trowmv : vget (after (.trowmvOut 0 3 0) (after (.trowmvIn 0 1 0) rigT2)) 3 4 1 = [0x3C00] := by decide +kernel
theorem test_tshape_clips : let t := (after (.tshape 1 2 3) (rigS [(1, 129), (2, 65), (3, 200)])).me
    t.tm = 64 ∧ t.tn = 128 ∧ t.tk = 128 := by decide +kernel
theorem test_tmode_waits : (after (.tmode 0 1) (rigT fun t => { t with leaveAsked := true })).me.pc = 0 := by decide +kernel
theorem test_tmode_enters : let s := after (.tmode 0 1) (rigT fun t => { t with leave := true })
    s.me.tile = true ∧ s.myPair.tmu = some 0 ∧ s.me.pc = 4 := by decide +kernel
theorem test_tmode_leaves : let s := after (.tmode 0 0) rigT2
    s.me.tile = false ∧ s.myPair.tmu = none ∧ s.me.tm = 0 := by decide +kernel
theorem test_wbinv : (after (.wbinv 3) rigT2).myPair.wb[3] = 0 := by decide +kernel
theorem test_wbload : let s := after (.wbload 2 1 2) (((rigT2.setS 1 local0).setS 2 0x100102).putBytes (scratchBase 0) [5, 6])
    s.myPair.wb[2] = 0x8000000000100102 ∧ cellsGet s.regs (regKey 0 (weightOff 2)) 3 = [5, 6, 0] := by decide +kernel
theorem test_vtrans : let s := after (.vtrans 8) (vset (vset rigT2 8 4 [1, 2]) 9 4 [3, 4])
    vget s 8 4 2 = [1, 3] ∧ vget s 9 4 2 = [2, 4] := by decide +kernel

theorem witness_TileMode : rig.me.replaying = false ∧ rigT2.me.replaying = false ∧ rig.me.tile = ((0 : BitVec 1) == 1) ∧ rigT2.me.tile = ((1 : BitVec 1) == 1) ∧
    (let s := rigT fun t => { t with leave := true }
     s.me.tile = false ∧ s.myPair.tmu = none ∧ s.me.leave = true ∧ ∀ pl ∈ (s.lanesOf s.tid).phys, pl < 68) ∧
    (rig.setPair 0 { rig.myPair with tmu := some 1 }).myPair.tmu ≠ none ∧ rig.me.leave = false ∧ rig.me.leaveAsked = false ∧
    (rigT fun t => { t with leaveAsked := true }).me.leaveAsked = true := by decide +kernel
theorem witness_TileStorage : rigT2.me.replaying = false ∧ rigT2.regBad = [] ∧ rigT2.me.cut = 0 ∧ wdBad 0x100102 = false ∧ wdBad 0x4008002 = true ∧
    wdBad 0x2008004 = false ∧
    (let s := (rigT2.setS 1 local0).setS 2 0x100102
     s.Places (fun i => some (s.sr 1 + w64 (64 * i))) 64 .load (List.range 1) (fun i => inScratch (64 * i)) s ∧ s.Quiet) ∧
    (rigT2.me.eight 8).isSome ∧ ((rigT2.me.eight 8).getD []).all (fun o => decide (rigT2.me.vlen ≤ rigT2.capOf o)) = true ∧
    (∀ j : Nat, (rigT2.me.binds[j]?).getD none = none) ∧ rigT2.me.vlen ≠ 0 ∧ rigT2.me.ten = 0 :=
  ⟨by decide +kernel, (by decide +kernel), (by decide +kernel), by decide +kernel, by decide +kernel, (by decide +kernel),
    ⟨by decide +kernel, quiet_of _ (by decide +kernel) (by decide +kernel) (by decide +kernel)⟩, by decide +kernel, by decide +kernel,
    unbound_of _ (by decide +kernel), by decide +kernel⟩
theorem witness_TileArithmetic : (let s := rigT2
     (∀ j : Nat, (s.me.binds[j]?).getD none = none) ∧ s.me.ten = 0 ∧ s.sr 9 &&& ~~~0x3F07FF = 0 ∧ wdFmt (s.myPair.wb[3]) ∈ slotFmts 2 0 ∧
     wdValid (s.myPair.wb[3]) = true ∧ 16 % passDepth 2 0 = 0 ∧ 16 ≤ wdK (s.myPair.wb[3]) ∧ 1 ≤ wdN (s.myPair.wb[3]) ∧
     s.me.operand 1 1 4 false = some (reg 1 4) ∧ 1 * 16 ≤ s.capOf (reg 1 4) ∧ (s.sr 0).toNat < 64 ∧ (s.sr 0).toNat < accCols 2) ∧
    (let s := rigT2.setMe { rigT2.me with vty := 0x1007, tn := 32 }
     s.me.et = 7 ∧ s.me.operand 0 1 1 true = some (reg 0 1) ∧ (s.me.scaleReg 0).isSome ∧ 32 ≤ s.capOf (reg 0 1) ∧ wdFmt 0x8000000000400106 ∈ slotFmts 7 0) :=
  ⟨⟨unbound_of _ (by decide +kernel), by decide +kernel⟩, by decide +kernel⟩

/-! ## Sparse registers: 13 R289 to R298 -/

/-- INT32: c0 holds 1: 10, 3: 20; c1 holds 3: 7, 5: 9; s4 = 3; s5 = 1; s7 = 1; s1 and s2 two areas of the scratchpad. -/
def rigC : State :=
  let s := ((((((rigE 12 2).setS 1 local0).setS 2 (local0 + 0x40)).setS 4 3).setS 5 1).setS 7 1).putBytes (scratchBase 0) [6, 0, 0, 0, 8]
  let s := vset (vset (vset (vset (s.putBytes (scratchBase 0 + 0x40) [60, 0, 0, 0, 80]) 0 8 [1, 3]) 1 8 [10, 20]) 2 8 [3, 5]) 3 8 [7, 9]
  s.setMe { s.me with cl := (s.me.cl.set 0 2).set 1 2 }
def cget (s : State) (n : Nat) : Word × List Nat × List Nat := (s.me.cl[2], vget s 4 8 n, vget s 5 8 n)

theorem test_csadd : cget (after (.csadd 2 0 1 6) rigC) 3 = (3, [1, 3, 5], [10, 27, 9]) ∧ (after (.csadd 2 0 1 6) rigC).sr 6 = 0xFFFFFFFFFFFFFFFF := by
  decide +kernel
theorem test_csmul : cget (after (.csmul 2 0 1 6) rigC) 1 = (1, [3], [140]) := by decide +kernel
theorem test_csdot : (after (.csdot 7 0 1 6) rigC).sr 7 = 141 := by decide +kernel
theorem test_csscale : cget (after (.csscale 2 0 4) rigC) 2 = (2, [1, 3], [30, 60]) := by decide +kernel
theorem test_csseek : cget (after (.csseek 2 0 4) rigC) 1 = (1, [3], [20]) := by decide +kernel
theorem test_cscompact : cget (after (.cscompact 2 1 4) (vset rigC 1 8 [0, 20])) 1 = (1, [4], [20]) := by decide +kernel
theorem test_csexpand : vget (after (.csexpand 6 0 5) rigC) 6 8 2 = [10, 0] := by decide +kernel
theorem test_cscsr : let s := after (.cscsr 6 1 4 2) (vset (rigC.setS 4 0x200000000) 1 8 [0, 20])
    vget s 6 16 1 = [0x100000000] ∧ cget s 1 = (1, [1], [20]) := by decide +kernel
theorem test_csld : cget (after (.csld 2 1 2) rigC) 2 = (2, [6, 8], [60, 80]) := by decide +kernel
theorem test_csst : (settled (.csst 0 1 2) rigC).bytes (scratchBase 0 + 0x40) 1 = [10] := by decide +kernel

theorem witness_SparseRegisters : rigC.Plain ∧ rigC.Quiet ∧ rigC.me.sparse 2 = some ⟨2, reg 4 8, reg 5 8⟩ ∧ rigC.me.sparse 0 = some ⟨0, reg 0 8, reg 1 8⟩ ∧
    rigC.me.sparse 1 = some ⟨1, reg 2 8, reg 3 8⟩ ∧ (rigC.me.slen 0 = 2 ∧ 2 ≤ (⟨0, reg 0 8, reg 1 8⟩ : Sparse).cap (rigC.lanesOf 0).count) ∧
    (let acc (b : Word) (i : Nat) : Acc := ⟨rigC.sr 1 + b + w64 (4 * i), 4, 4, .load⟩
     translateElems (rigC.who rigC.tid) (fun i => [acc 0 i, acc 0x40 i]) [0, 1] rigC [] [] =
       (⟨[0, 1].map fun i => (i, [⟨acc 0 i, inScratch (4 * i)⟩, ⟨acc 0x40 i, inScratch (0x40 + 4 * i)⟩]), none, false⟩, rigC)) ∧
    rigC.me.ten = 0 ∧ (0 < (0x200000000 : Word).toNat / 2 ^ 32 ∧ (0x1000000000000 : Word).toNat / 2 ^ 32 ≤ 65536) :=
  ⟨plain_of _ (by decide +kernel) (by decide +kernel) (by decide +kernel) (by decide +kernel) (by decide +kernel),
    quiet_of _ (by decide +kernel) (by decide +kernel) (by decide +kernel), by decide +kernel, (by decide +kernel), (by decide +kernel), by decide +kernel,
    by decide +kernel, (by decide +kernel), by decide +kernel⟩

/-! ## The step: 08 R192 to R197 -/

/-- The rig with page tables of one GiB and a word at its program counter. -/
def rigW (w : Nat) : State := (rig.mapGiB 0x20000000 0).putBytes 0 (leBytes 4 w)

theorem test_step_runs : (match step (State.reset.withFetchWord 32 0x08A61FFD) with
    | .next t => t.sr 5 == 0xFFFFFFFFFFFFFFFD && t.me.pc == 4
    | _ => false) = true := by decide +kernel
theorem test_table_word : decodeTableWord 32 0x08A61FFD = some (.addi 5 6 (-3)) := rfl
theorem witness_EncodedWordsDecode : Instr.wf (.addi 5 6 (-3)) = true ∧ encode (.addi 5 6 (-3)) = some 0x08A61FFD ∧
    Instr.wf (.tmmaO 2 8 3 9) = true ∧ encode (.tmmaO 2 8 3 9) = some 0x41020D21 ∧ encode (.add 31 31 31) = some 0x07FFF800 := by decide +kernel
theorem witness_DecodedWordsEncode : decodeWord false 0x08A61FFD = .ok (.addi 5 6 (-3)) ∧ decodeWord true 0x41020D21 = .ok (.tmmaO 2 8 3 9) := ⟨rfl, rfl⟩
theorem witness_StepRunsDecoded : (rigW 0x08A61FFD).agenda = [] ∧ (rigW 0x08A61FFD).me.vq = [] ∧ (rigW 0x08A61FFD).me.issues = true ∧
    ((rigW 0x08A61FFD).fetch (rigW 0x08A61FFD).tid).1 = .word 0x08A61FFD ∧ ((rigW 0x08A61FFD).fetch (rigW 0x08A61FFD).tid).2.me.tile = false ∧
    ((rigW 0).fetch (rigW 0).tid).1 = .word 0 ∧ (match decodeWord false 0 with
      | .error sub => sub == .permanent
      | .ok _ => false) = true := by decide +kernel
theorem witness_StepKeepsCanonical : State.reset.Canon ∧ (match step State.reset with
    | .next t => t.agenda == []
    | _ => false) = true := by decide +kernel

/-! ## Replay and timelines: 15 R313 to R323; 05 R136 -/

/-- A nest of one level of bound 2 in the scratchpad. -/
def rigN : State := rigM (1 :: List.replicate 7 0 ++ [2]) [(2, 5)]
theorem test_rep : let t := (after (.rep 1 3) rigN).me
    t.rps = 0x12003 ∧ t.pc = 4 ∧ t.sreg 20 = 0 ∧ t.repBound[0] = 2 := by decide +kernel
theorem test_rep_skips : (after (.rep 1 3) (rigM [1] [])).me.pc = 20 := by decide +kernel
theorem test_replay_loops : let s := rigT fun t => { t with rps := 0x12101, pc := 8, repBound := t.repBound.set 0 2 }
    (after (.nop 0) s).me.pc = 4 ∧ (after (.nop 0) s).sr 20 = 1 := by decide +kernel
theorem test_tlsig : (after (.tlsig 3) rig).sr 3 = 1 ∧ ((after (.threadTimelineSignal 0 1) (after (.tlsig 3) rig)).me.timeline 5).ctr = 1 := by decide +kernel
theorem test_tlread : (after (.tlread 3 1) (rigS [(1, 0xA00)])).sr 3 = 0 := by decide +kernel
theorem test_tlwait_waits : (after (.tlwait 1 2) (rigS [(1, 0xA00), (2, 1)])).me.pc = 0 := by decide +kernel
theorem test_tlwait_reached : (after (.tlwait 1 2) (rigS [(1, 0xA00)])).me.pc = 4 := by decide +kernel
theorem test_tlwait_name : (after (.tlwait 1 2) (rigS [(1, 0xC00)])).me.tca = 0x2030C := by decide +kernel
theorem test_tlwaitChk_shortfall : let s := (rigS [(2, 4)]).setMe { (rigS [(2, 4)]).me with
      tl := rig.me.tl.set 0 ⟨4, 4, []⟩, short := rig.me.short.set 0 ⟨[3], false⟩ }
    (after (.tlwaitChk 1 2) s).me.tca = 0x2000B ∧ (after (.tlwaitChk 1 2) s).me.tva = 3 := by decide +kernel

theorem witness_ReplayAndTimelines : ¬ rigN.InHandler ∧ rigN.me.rps.getLsbD 16 = false ∧ rigN.Reaches (rigN.sr 1) 32 .load (inScratch 0) rigN ∧ rigN.Quiet ∧
    (let r := rigN.bytes (scratchBase 0) 32
     recField r 0 1 = 1 ∧ recZero r 1 7 = true ∧ ∀ l < 6, 1 ≤ l → recField r (8 + 4 * l) 4 = 0) ∧
    (rigT fun t => { t with rps := 0x10000 }).me.rps.getLsbD 16 = true ∧
    (let s := rigT fun t => { t with rps := 0x12101, repBound := t.repBound.set 0 2 }
     s.me.replaying = true ∧ bits s.me.rps 4 0 ≤ bits s.me.rps 12 8 ∧ (advanceIx s.me.repBound s.me.repIx 1).2 = false ∧
     (advanceIx (s.me.repBound.set 0 1) s.me.repIx 1).2 = true ∧ bits (0x12001 : Word) 12 8 < bits (0x12001 : Word) 4 0) ∧
    (rigN.me.replaying = false ∧ (rigN.me.timeline 5).last + 1 < 2 ^ 64 ∧ bits (0xC00 : Word) 63 12 = 0 ∧ 6 ≤ bits (0xC00 : Word) 11 9 ∧
     bits (0xA00 : Word) 11 9 < 6 ∧ rigN.pairAt rigN.myPart 0 = some 0 ∧ rigN.pairAt rigN.myPart 1 = none) ∧
    (let s := after (.tlsig 3) rig
     ∃ q ∈ s.pend, q.tid = 0 ∧ q.op = .signal 1 ∧ (s.pend.filter fun e => e.seq == q.seq) = [q] ∧ s.ready q = true) :=
  ⟨by decide +kernel, (by decide +kernel), (by decide +kernel), quiet_of _ (by decide +kernel) (by decide +kernel) (by decide +kernel),
    by decide +kernel, by decide +kernel, (by decide +kernel), by decide +kernel, by decide +kernel⟩

/-! ## Engine commands: 05 R131; 15 R312 to R319 -/

/-- A copy of 4 bytes from 0x40 to 0x80 of the scratchpad, without a completion record (15 R317). -/
def copyRec : List Byte := leBytes 8 (local0.toNat + 0x40) ++ leBytes 8 (local0.toNat + 0x80) ++ leBytes 8 0 ++ leBytes 8 0 ++ leBytes 4 4 ++ leBytes 4 1 ++
  List.replicate 24 0
/-- The rig with that record, and 9 at the source. -/
def rigK : State := (rigM copyRec []).putBytes (scratchBase 0 + 0x40) [9]

theorem test_ecopy_number : (after (.ecopy 1 3) rigK).sr 3 = 1 ∧ ((after (.ecopy 1 3) rigK).me.timeline 0).last = 1 := by decide +kernel
theorem test_ecopy_performs : let s := after (.copyCommandPerformed 0 1) (after (.ecopy 1 3) rigK)
    s.bytes (scratchBase 0 + 0x80) 1 = [9] ∧ (s.me.timeline 0).ctr = 1 ∧ s.cmds = [] := by decide +kernel

/-- The same copy in two dimensions, its NEST record at an address. -/
def nestRec (nest : Nat) : List Byte := leBytes 8 (local0.toNat + 0x40) ++ leBytes 8 (local0.toNat + 0x80) ++ leBytes 8 0 ++ leBytes 8 nest ++ leBytes 4 4 ++
  leBytes 4 1 ++ List.replicate 16 0 ++ [1] ++ List.replicate 7 0
/-- Device 16, whose link 0 reaches device 17. -/
def netted (s : State) : State := { s with devn := 16, ctl := cellsPut s.ctl (0x70000 + 17) [0x80], linkUp := s.linkUp.set 0 true }
/-- A collective of the devices 16 and 17 over one element: B, W and the masks by function (15 R325). -/
def collRec (b w msk : Nat) : List Byte := leBytes 8 (local0.toNat + 0x40) ++ leBytes 8 (local0.toNat + 0x80) ++ leBytes 8 0 ++ leBytes 8 1 ++ leBytes 4 0 ++
  leBytes 1 2 ++ leBytes 1 0 ++ leBytes 1 b ++ leBytes 1 w ++ leBytes 2 msk ++ leBytes 1 0 ++ leBytes 5 0 ++ [16, 17] ++ List.replicate 14 0
/-- A sketch command of class 0: SET, LOC, REM and DQ in the scratchpad, its peer device 17 (17 R357). -/
def skRecord : List Byte := leBytes 8 (local0.toNat + 0x80) ++ leBytes 8 (local0.toNat + 0x1000) ++ leBytes 8 (local0.toNat + 0x2000) ++
  leBytes 8 (local0.toNat + 0x3000) ++ leBytes 8 0 ++ [17] ++ List.replicate 23 0
/-- A set of two entries of 16 bytes: key at 0, version at 8, TAG 7 (17 R349). -/
def setRecord : List Byte := leBytes 8 (local0.toNat + 0x4000) ++ leBytes 4 2 ++ leBytes 2 16 ++ leBytes 2 0 ++ leBytes 2 8 ++ leBytes 2 0 ++ leBytes 4 7 ++
  leBytes 8 0
def rigSk : State := ((rigM skRecord []).putBytes (scratchBase 0 + 0x80) setRecord).setMe { rigM skRecord [] |>.me with skz := 0x0A02 }
theorem quiet_rigM (bs : List Byte) : (rigM bs []).Quiet := quiet_rig _ rfl rfl rfl

theorem test_commands_numbered : (after (.creduce 1 3) (rigM (collRec 1 1 0) [])).sr 3 = 1 ∧ (after (.cgather 1 3) (rigM (collRec 1 1 0) [])).sr 3 = 1 ∧
    (after (.cxpar 1 3) (rigM (collRec 0 0 2) [])).sr 3 = 1 ∧ (after (.skxchg 1 3) rigSk).sr 3 = 1 ∧ (after (.skpeel 1 3) rigSk).sr 3 = 1 ∧
    (after (.skbuild 1 3) rigSk).sr 3 = 1 ∧ (after (.nmopt 1 3) (rigM [] [])).sr 3 = 1 := by decide +kernel

theorem witness_CommandsAccepted_copy : rigK.me.replaying = false ∧ rigK.Quiet ∧ rigK.Reaches (rigK.sr 1) 64 .load (inScratch 0) rigK ∧
    (let r := rigK.bytes (scratchBase 0) 64
     cpDims r = 0 ∧ copyEmpty r (some []) = false ∧ rigK.Admits 0 (copyTouch r (some []))) ∧
    (let s := rigM [] []
     copyEmpty (s.bytes (scratchBase 0) 64) (some []) = true ∧ s.Admits 0 []) ∧ cpBad (List.replicate 64 255) = true ∧
    (let s := rigM (nestRec (local0.toNat + 0x100)) []
     let r := s.bytes (scratchBase 0) 64
     pagesOf (cpNest r) (24 * cpDims r) = [⟨local0.toNat + 0x100, 24⟩] ∧
     (s.plan (s.who s.tid) .load (pagesOf (cpNest r) (24 * cpDims r)) []).1 = ⟨[(⟨local0.toNat + 0x100, 24⟩, inScratch 0x100)], none, false⟩ ∧
     (inScratch 0x100).isOutbound = false ∧
     copyEmpty r (some (List.replicate 24 0)) = true ∧ copyEmpty r (some (1 :: List.replicate 23 0)) = false ∧
     s.Admits 0 (copyTouch r (some (1 :: List.replicate 23 0)))) ∧
    (let s := rigM (nestRec 0) []
     let r := s.bytes (scratchBase 0) 64
     (s.plan (s.who s.tid) .load (pagesOf (cpNest r) (24 * cpDims r)) []).1 = ⟨[], some (0, ⟨1, true, 4, false, 0x20003000, none⟩), false⟩ ∧ copyEmpty r none = false ∧
     s.Admits 0 (copyTouch r none)) :=
  ⟨by decide +kernel, quiet_of _ (by decide +kernel) (by decide +kernel) (by decide +kernel), (by decide +kernel), (by decide +kernel), by decide +kernel,
    by decide +kernel, (by decide +kernel), by decide +kernel⟩
theorem witness_CommandsAccepted :
    (let s := netted (rigM (collRec 1 1 0) [])
     let r := s.bytes (scratchBase 0) 64
     s.Reaches (s.sr 1) 64 .load (inScratch 0) s ∧ coRec r % 32 = 0 ∧ s.collBad .creduce r = false ∧ s.collBad .cgather r = false ∧ coN r ≠ 0 ∧
     s.Admits 1 (collTouch .creduce r) ∧ s.Admits 1 (collTouch .cgather r) ∧ s.Admits 1 (recTouch (coRec r))) ∧
    (let s := netted (rigM (collRec 0 0 2) [])
     s.collBad .cxpar (s.bytes (scratchBase 0) 64) = false ∧ s.Admits 1 (collTouch .cxpar (s.bytes (scratchBase 0) 64))) ∧
    (let r := rigSk.bytes (scratchBase 0) 64
     let set := rigSk.bytes (scratchBase 0 + 0x80) 32
     let y := rigSk.dropRequests rigSk.tid
     rigSk.Reaches (rigSk.sr 1) 64 .load (inScratch 0) rigSk ∧ rigSk.Reaches (w64 (skSet r)) 32 .load (inScratch 0x80) rigSk ∧ skK rigSk.me.skz (skCls r) = 2 ∧
     y.Admits 4 (skTouch .skxchg 2 r []) ∧ y.Admits 4 (skTouch .skpeel 2 r []) ∧ y.Admits 4 (skTouch .skbuild 2 r set) ∧ y.Admits 4 []) ∧
    skK 0 0 = 0 ∧ rigSk.Quiet ∧
    (let s := rigM (leBytes 8 0 ++ List.replicate 40 0 ++ [1]) []
     let r := s.bytes (scratchBase 0) 64 ++ s.bytes (scratchBase 0 + 64) 64
     s.Reaches (s.sr 1) 64 .load (inScratch 0) s ∧ s.Reaches (s.sr 1 + 64) 64 .load (inScratch 64) s ∧ opN r ≠ 0 ∧ s.Admits 2 (recTouch (opRec r)) ∧
     s.Admits 2 [] ∧ opBad (List.replicate 128 0) = false ∧ opN (List.replicate 128 0) = 0 ∧ opBad (List.replicate 128 255) = true) :=
  ⟨by decide +kernel, (by decide +kernel), (by decide +kernel), by decide +kernel,
    quiet_of _ (by decide +kernel) (by decide +kernel) (by decide +kernel), by decide +kernel⟩
/-- One active command of a batch: the copy of `copyRec`, its words the 64-bit elements of v1. -/
def rigBatch : State := (List.range 8).foldl (fun (s : State) j => s.setElem (s.lanesOf 0) (reg 1 16) j (recField copyRec (8 * j) 8)) (rigE 15 1)
theorem test_ebatch : let s := after (.ebatch 1 3 1 0 0) rigBatch
    s.sr 3 = 1 ∧ mget s 1 2 = [true, false] ∧ s.cmds.length = 1 := by decide +kernel
theorem witness_BatchesAccepted : rigBatch.me.replaying = false ∧ ¬ rigBatch.InHandler ∧ rigBatch.me.operand 1 rigBatch.me.group 16 false = some (reg 1 16) ∧
    rigBatch.regBad = [] ∧ rigBatch.me.cut = 0 ∧ (∀ j : Nat, (rigBatch.me.binds[j]?).getD none = none) ∧ 8 * rigBatch.me.vlen ≤ rigBatch.capOf (reg 1 16) ∧
    rigBatch.me.vlen ≤ maskCap (rigBatch.lanesOf rigBatch.tid).count ∧ rigBatch.activesOf 0 0 0 = [0] ∧
    rigBatch.askNests [copyRec] = (false, rigBatch) ∧
    rigBatch.Admits 0 (copyTouch copyRec (rigBatch.peekNest (rigBatch.who rigBatch.tid) copyRec)) ∧
    (let s := mset rigBatch 1 [false]
     s.activesOf 0 0 1 = [] ∧ (s.me.timeline 0).last + 1 < 2 ^ 64) ∧
    (let s := rigBatch.setMe (rigBatch.me.setTimeline 0 ⟨0, 2 ^ 64 - 1, []⟩)
     2 ^ 64 ≤ (s.me.timeline 0).last + 1 ∧ ¬ s.Admits 0 (copyTouch copyRec (s.peekNest (s.who s.tid) copyRec))) :=
  ⟨by decide +kernel, (by decide +kernel), (by decide +kernel), by decide +kernel, by decide +kernel, unbound_of _ (by decide +kernel), (by decide +kernel),
    by decide +kernel, by decide +kernel, by decide +kernel, (by decide +kernel), by decide +kernel⟩

/-- A launch record: start 0x100, one level of bound 3 (18 R374). -/
def launchRec : List Byte := leBytes 8 0x100 ++ List.replicate 16 0 ++ [1] ++ List.replicate 7 0 ++ [3] ++ List.replicate 95 0
/-- The rig with that record and a launch queue of four records at 0x10000. -/
def rigJ : State := (rigM launchRec []).setPart 0 { rig.part 0 with lq := (rig.part 0).lq.set 0 ⟨0x10000, 4, 0, 0⟩ }
theorem test_launch : let s := after (.launch 1) rigJ
    ((s.part 0).queue 0).tail = 1 ∧ s.bytes 0x10000 2 = [0, 1] ∧ s.me.pc = 4 := by decide +kernel
theorem test_launch_no_queue : (after (.launch 1) (rigM launchRec [])).me.tca = 0x20002 := by decide +kernel
theorem test_skset : (after (.skset 1) (rigS [(1, 0x0A25)])).me.skz = 0x0A25 := by decide +kernel
theorem test_sksetG : let s := after (.sksetG 2 3) (rigT fun t => { t with skz := 0x0A25 })
    s.sr 3 = 6 ∧ s.me.skz = 0x0A26 := by decide +kernel

theorem witness_LookupSketchAndLaunch : rigJ.me.replaying = false ∧ ¬ rigJ.InHandler ∧ rigJ.Reaches (rigJ.sr 1) 64 .load (inScratch 0) rigJ ∧
    rigJ.Reaches (rigJ.sr 1 + 64) 64 .load (inScratch 64) rigJ ∧
    lrBad (rigJ.pairCount 0) (rigJ.bytes (scratchBase 0) 128) = false ∧ lrBad 1 (List.replicate 128 0) = true ∧ ((rigJ.part 0).queue 0).cap ≠ 0 ∧
    (rigJ.region 0x10000).isLocal = true ∧ skzOk 0x0A25 = true ∧ skzOk 1 = false ∧ bits (0 : Word) 63 2 = 0 ∧ skK 0x0A25 0 ≠ 0 ∧
    skK 0x0A25 0 + skStep 0x0A25 0 ≤ skMax 0x0A25 0 :=
  ⟨by decide +kernel, by decide +kernel, by decide +kernel, by decide +kernel⟩

/-! ## Operations at memory: 15 R324; 16 R331 to R334 -/

/-- A cached translation of the first GiB of HBM, near-memory allowed. -/
def giB : Tlb := ⟨0, 0, 0, 0, 3, 0, 0, 0, 3, true, true, true, true, true, 0, true, false⟩
/-- The FP32 rig with that translation, s1 = 0x1000 and bytes there. -/
def rigH : State := { (rigF.setS 1 0x1000).putBytes 0x1000 (leBytes 4 0x3F800000 ++ leBytes 4 0x3F800000) with tlb := [giB], tlb1 := [(0, giB)] }
def inHbm (o : Nat) : Phys := ⟨0x1000 + o, 0, true, false, 0, 3, some giB⟩

theorem test_vrred : (after (.remoteReduceAdd 0) (after (.vrred 1 1 1 0 0 0) rigH)).bytes 0x1000 8 =
    leBytes 4 0x40000000 ++ leBytes 4 0xBF800000 := by decide +kernel
theorem test_nmadd : (after (.nearMemoryAdd 1) (after (.nearMemoryAdd 0) (after (.nmadd 1 1 0 0 0) rigH))).bytes 0x1000 8 =
    leBytes 4 0x40000000 ++ leBytes 4 0xBF800000 := by decide +kernel
theorem test_nmfadd : let s := after (.nmfadd 1 1 0 0 0) rigH
    vget s 1 8 2 = [0x3F800000, 0x3F800000] ∧ s.bytes 0x1000 8 = leBytes 4 0x40000000 ++ leBytes 4 0xBF800000 := by decide +kernel
theorem test_nmfence : (after .nmfence rig).me.pc = 4 ∧ (after .nmfenceRel rig).me.barrier = rig.wseq := by decide +kernel

theorem witness_MemoryOperations : rigH.Plain ∧ rigH.Quiet ∧ rigH.Within 0 [rigH.capOf (reg 1 8)] ∧ rigH.me.operand 1 1 8 false = some (reg 1 8) ∧
    rigH.me.operand 1 1 8 true = some (reg 1 8) ∧ rredOk 1 1 false = true ∧ rigH.activesOf 0 0 0 ≠ [] ∧
    rigH.Places (fun i => some (rigH.sr 1 + w64 (i * 4))) 4 .reduce (rigH.activesOf 0 0 0) (fun i => inHbm (4 * i)) rigH ∧
    rigH.Places (fun i => some (rigH.sr 1 + w64 (i * 4))) 4 .near (rigH.activesOf 0 0 0) (fun i => inHbm (4 * i)) rigH ∧
    (∀ i ∈ rigH.activesOf 0 0 0, ∀ j ∈ rigH.activesOf 0 0 0, rigH.region (inHbm (4 * i)).pa = rigH.region (inHbm (4 * j)).pa) ∧
    (let v := (1 : BitVec 6)
     v.toNat < rigH.me.nregs ∧ v.toNat + rigH.me.group < rigH.me.nregs ∧ rigH.me.operand (v + BitVec.ofNat 6 rigH.me.group) 1 8 false = some (reg 2 8)) ∧
    rigH.me.replaying = false ∧ rigH.pend = [] ∧
    (let s := after (.nmadd 1 1 0 0 0) rigH
     ∃ q ∈ s.pend, s.pend.find? (fun e => e.seq == q.seq) = some q ∧ s.ready q = true ∧ s.memLost = [] ∧ (s.region q.addr).isLocal = true) :=
  ⟨plain_of _ (by decide +kernel) (by decide +kernel) (by decide +kernel) (by decide +kernel) (by decide +kernel),
    quiet_of _ (by decide +kernel) (by decide +kernel) (by decide +kernel), by decide +kernel, (by decide +kernel), (by decide +kernel), by decide +kernel,
    by decide +kernel, (by decide +kernel), by decide +kernel, by decide +kernel, by decide +kernel,
    (by decide +kernel), (by decide +kernel), by decide +kernel⟩

/-! ## Engine commands performed -/

/-- The rig with a command accepted. -/
def rigCmd (ctx : Nat) (op : CmdOp) (record extra : List Byte) (words : List Word) (s : State) : State :=
  { s.setMe (s.me.setTimeline ctx ⟨0, 1, []⟩) with
    cmds := [⟨0, ctx, 1, op, record, extra, words, s.me.vty, s.me.fcs, 0x0A02, s.me.atb, s.me.sup, s.me.pc, 0, [], none, 0⟩] }
/-- A command's own copy of the pending one. -/
def theCmd (s : State) : Cmd := (s.cmds.head?).getD ⟨0, 0, 0, .copy, [], [], [], 0, 0, 0, 0, false, 0, 0, [], none, 0⟩

theorem test_pklook_record : let s := rigCmd 3 .pklook [] [] [local0, 1, 0, 0, 0, 1] rig
    let t := after (.pklookPerformed 0 1) s
    (t.me.timeline 3).ctr = 1 ∧ t.bytes (scratchBase 0) 1 = [1] := by decide +kernel
theorem test_copy_malformed_reports : (after (.copyCommandPerformed 0 1) (rigCmd 0 .copy (List.replicate 64 255) [] [] rig)).me.short[0] = ⟨[1], false⟩ := by
  decide +kernel

theorem witness_CommandsPerformed_copy :
    let s := rigCmd 0 .copy copyRec [] [] (rigM [] [])
    let c := theCmd s
    let gs : List SegT := [⟨⟨local0.toNat + 0x40, local0.toNat + 0x80, 4⟩, inScratch 0x40, inScratch 0x80⟩]
    s.pend = [] ∧ s.memLost = [] ∧ s.cmds.find? (fun o => o.isOf 0 c.ctx 1) = some c ∧ c.op ≠ .finish ∧ c.op ≠ .final ∧ c.ctx = 0 ∧ cpBad copyRec = false ∧
    cpDims copyRec = 0 ∧ cpTotal copyRec (cpAllDims copyRec []) ≤ 2 ^ 20 ∧
    let b := (s.boardFor c (cpTouch copyRec (cpAllDims copyRec []))).getD s
    s.boardFor c (cpTouch copyRec (cpAllDims copyRec [])) = some b ∧
    b.planSegs (b.cmdWho c) (cpSegs copyRec (cpAllDims copyRec [])) [] = ((gs, none, false), b) ∧ segsOverlap gs = false ∧
    b.Free c [(⟨local0.toNat + 0x40, 4⟩, inScratch 0x40), (⟨local0.toNat + 0x80, 4⟩, inScratch 0x80)] ∧ b.cmdAcked c = true := by decide +kernel
/-- An optimiser step over one element of three pages of HBM. -/
def optRec : List Byte := leBytes 8 0x4000 ++ leBytes 8 0x5000 ++ leBytes 8 0x6000 ++ List.replicate 24 0 ++ leBytes 8 1 ++ List.replicate 72 0
theorem witness_CommandsPerformed_optimiser :
    (let s := rigCmd 2 .nmopt (List.replicate 128 0) [] [] rig
     opBad (theCmd s).record = false ∧ opN (theCmd s).record = 0 ∧ s.cmds.find? (fun o => o.isOf 0 2 1) = some (theCmd s)) ∧
    opBad optRec = false ∧ opN optRec = 1 ∧ opMoment optRec = false ∧ opWb optRec = 0 ∧
    (let s : State := { rigCmd 2 .nmopt optRec [] [] rig with tlb := [giB], tlb1 := [(0, giB)] }
     (s.optPlan (theCmd s) .near (opW optRec) 4 1).1 = (⟨0x4000, 4, [(⟨0x4000, 4⟩, ⟨0x4000, 0, true, false, 0, 3, some giB⟩)]⟩, none, false)) := by
  decide +kernel
theorem witness_CommandsPerformed_lookup : let s := rigCmd 3 .pklook [] [] [local0, 1, 0, 0, 0, 1] rig
    s.cmdWaits (theCmd s) (scratchBase 0) 64 = false := by decide +kernel
/-- A piece of the scratchpad. -/
def piece (o n : Nat) : Piece × Phys := (⟨local0.toNat + o, n⟩, inScratch o)
def areaAt (o n : Nat) : Area := ⟨local0.toNat + o, [piece o n]⟩
/-- The rig with a command accepted that holds leave of 8 W at its die. -/
def rigGo (ctx : Nat) (op : CmdOp) (record extra : List Byte) (s : State) : State :=
  let s := rigCmd ctx op record extra [] (netted s)
  s.setDie 0 { s.die 0 with granted := [⟨0, false, ctx, 1, 8, false⟩] }
theorem witness_CommandsPerformed_collective :
    (let s := rigGo 1 .creduce (collRec 1 1 0) [] rig
     let c := theCmd s
     let r := c.record
     coRec r % 32 = 0 ∧ s.collBad c.op r = false ∧ membersCover r [⟨1, true, 0, [0, 0, 0, 0], 0, false⟩] = true ∧ s.cmdLeave c.tid c.ctx c.num = true ∧
     s.plan (s.cmdWho c) .load (pagesOf (coSrc r) (coN r * collWidth c.op r)) [] = (⟨[piece 0x40 4], none, false⟩, s) ∧
     s.planWrite c (coDst r) (collSpan c.op r) = (⟨[piece 0x80 4], none, false⟩, s) ∧ s.Free c ([piece 0x40 4] ++ [piece 0x80 4]) ∧
     (consumers c.op r).map (coMem r) = [17] ∧ s.reaches 17 = true) ∧
    (let s := rigGo 1 .cxpar (collRec 0 0 2) [] rig
     let c := theCmd s
     s.collBad c.op c.record = false ∧ (consumers c.op c.record).map (coMem c.record) = [] ∧
     s.plan (s.cmdWho c) .load (pagesOf (coSrc c.record) (coN c.record * collWidth c.op c.record)) [] = (⟨[piece 0x40 1], none, false⟩, s) ∧
     s.planWrite c (coDst c.record) (collSpan c.op c.record) = (⟨[piece 0x80 1], none, false⟩, s) ∧ s.Free c ([piece 0x40 1] ++ [piece 0x80 1])) := by
  decide +kernel
theorem witness_CommandsPerformed_build :
    (let s := rigGo 4 .skbuild skRecord setRecord (rig.putBytes (scratchBase 0 + 0x4000) (leBytes 8 1 ++ leBytes 8 5 ++ leBytes 8 2 ++ leBytes 8 6))
     let c := theCmd s
     c.skSize = 2 ∧ skRecBad .skbuild c.record = false ∧ setBad c.extra = false ∧
     s.planArea c .store (skLoc c.record) 320 = ((areaAt 0x1000 320, none, false), s) ∧
     s.plan (s.cmdWho c) .load (pagesOf (setBase c.extra) (setCount c.extra * setEsz c.extra)) [] = (⟨[piece 0x4000 32], none, false⟩, s) ∧
     s.Free c [piece 0x4000 32] ∧
     (((List.range 12).foldl (fun (y : State) i => y.areaPut (areaAt 0x1000 320) (32 + 24 * i) (leBytes 24 0)) s).skInsertAll c (areaAt 0x1000 320) 2
       [piece 0x4000 32] [] (setCount c.extra) 0 0).2 = (2, 2, none)) := by decide +kernel
theorem witness_CommandsPerformed_exchange :
    (let b := skHeader 2 7 0 ++ List.replicate 288 0
     let s := rigGo 4 .skxchg skRecord [] (rig.putBytes (scratchBase 0 + 0x1000) (skHeader 2 7 0))
     let c := theCmd s
     skRecBad .skxchg c.record = false ∧ s.skReaches (skPeer c.record) = true ∧
     s.planArea c .load (skLoc c.record) 32 = ((areaAt 0x1000 32, none, false), s) ∧
     (s.areaRead (areaAt 0x1000 32)).isOk = true ∧ hdrBad (skHeader 2 7 0) = false ∧ recField (skHeader 2 7 0) 0 1 = 2 ∧
     hdrBad b = false ∧ recField b 0 1 = 2 ∧ recField b 4 4 = recField (skHeader 2 7 0) 4 4 ∧ b.length = skBytes 2 ∧ s.skBehind c 7 = false ∧
     s.planArea c .load (skLoc c.record) 320 = ((areaAt 0x1000 320, none, false), s) ∧
     s.planArea c .store (skRem c.record) 320 = ((areaAt 0x2000 320, none, false), s) ∧ (s.areaRead (areaAt 0x1000 320)).isOk = true) :=
  ⟨by decide +kernel, (by decide +kernel), (by decide +kernel), by decide +kernel, by decide +kernel, (by decide +kernel), by decide +kernel,
    by decide +kernel, by decide +kernel, (by decide +kernel), (by decide +kernel), by decide +kernel, by decide +kernel, by decide +kernel⟩
theorem witness_CommandsPerformed_peel :
    (let s := rigGo 4 .skpeel skRecord []
       ((rig.putBytes (scratchBase 0 + 0x1000) (skHeader 2 7 0)).putBytes (scratchBase 0 + 0x2000) (skHeader 2 7 0))
     let c := theCmd s
     skRecBad .skpeel c.record = false ∧ s.cmdLeave c.tid c.ctx c.num = true ∧
     s.planArea c .load (skRem c.record) 32 = ((areaAt 0x2000 32, none, false), s) ∧
     s.planArea c .store (skLoc c.record) 320 = ((areaAt 0x1000 320, none, false), s) ∧
     s.planArea c .load (skRem c.record) 320 = ((areaAt 0x2000 320, none, false), s) ∧
     s.planArea c .store (skDq c.record) (24 * skCells 2) = ((areaAt 0x3000 288, none, false), s) ∧
     (s.areaRead (areaAt 0x2000 320)).isOk = true) :=
  ⟨by decide +kernel, (by decide +kernel), (by decide +kernel), by decide +kernel, by decide +kernel, (by decide +kernel), by decide +kernel⟩
theorem witness_CommandsPerformed_finish : ∀ crec ∈ [0, local0.toNat],
    let s := rigCmd 0 .finish [] ((Done.ok 4).bytes 1) [w64 crec, 0] rig
    let c := theCmd s
    s.cmds.find? (fun o => o.isOf 0 c.ctx 1) = some c ∧ c.op = .finish ∧ c.extra = (Done.ok 4).bytes c.num ∧
    c.words = [w64 crec, if (Done.ok 4).short then 1 else 0] ∧ crec < 2 ^ 64 ∧ s.cmdAcked c = true ∧
    (crec ≠ 0 → s.translate (s.cmdWho c) crec 32 .store = (.ok (inScratch 0), s) ∧ s.cmdWaits c (scratchBase 0) 32 = false ∧ s.memLost = []) := by
  decide +kernel

/-! ## Partitions and pages -/

/-- A well-formed descriptor of partition 1, pair 1, in the table at 0x10000, its crossbar masks at 0x20000. -/
def rigD : State := ({ rig with ptb := 0x10000 } : State).putBytes 0x10080
  ([2] ++ List.replicate 31 0 ++ leBytes 8 0x30000 ++ leBytes 8 0x100000 ++ leBytes 8 0 ++ leBytes 8 0x40000 ++ leBytes 8 0x20000)
theorem test_activate : let s := after .activateComplete (after (.partitionActivate 1) rigD)
    (s.part 1).mode = .active ∧ (s.pair 1).part = some 1 ∧ s.pcmdRes = 0 := by decide +kernel
theorem test_activate_malformed : (after (.partitionActivate 2) rigD).pcmdRes = 4 := by decide +kernel
theorem test_quiesce : (after (.partitionQuiesce 0) rig).pcmdJob = .quiesce ∧ (after (.partitionQuiesce 1) rig).pcmdRes = 2 := by decide +kernel
theorem test_pcmd_reserved : (after (.pcmdReserved 0 7) rig).pcmdRes = 3 := by decide +kernel

theorem witness_PartitionCommands : rigD.pcmdJob = .idle ∧ (rigD.part 0).mode = .active ∧ (rigD.part 1).mode = .inactive ∧
    (let d := rigD.bytes 0x10080 128
     rigD.readable 0x10080 128 = true ∧ rigD.descBad d = false ∧ rigD.readable 0x20000 32 = true ∧ (rigD.part 1).lq.toList.any rigD.queueBad = false ∧
     pairsIn (maskOf d) = [1] ∧ (rigD.pair 1).part = none ∧ (rigD.pair 0).part.isSome) ∧
    (let s := after (.partitionActivate 1) rigD
     s.pcmdJob ≠ .idle ∧ s.pcmdPart = 1) ∧
    (let s := rig.setPart 0 { rig.part 0 with mode := .quiesced }
     (s.part 0).mode = .quiesced ∧ s.readable (s.part 0).xbarAddr.toNat 32 = true ∧ (s.part 0).aside = [] ∧ s.cmds = [] ∧ s.pend = []) ∧
    (∃ l ∈ rig.partPairs 0, ∃ k ∈ [2 * l, 2 * l + 1], ¬ ((rig.th k).run = .free ∨ (rig.th k).ceHalted = true)) := by decide +kernel

/-- A page entry at 0x8000 that names the frame 0x100000, and a slot that moves it to 0x200000. -/
def rigMig : State := (rig.putWord 0x8000 0x100067).setMig 0 ⟨0x100000, 0x200000, 0x8000, 0, false, 0, []⟩
theorem test_migration_starts : ((after (.pageMigration 0 0) rigMig).migSlot 0).busy = true ∧ ((after (.pageMigration 0 0) rigMig).migSlot 0).stat = 0 := by
  decide +kernel
theorem test_migration_refuses : ((after (.pageMigration 0 3) rigMig).migSlot 0).stat = 1 := by decide +kernel
theorem test_hotness_clear : ((after (.hotnessClear 0) rig).die 0).hctlClr = true := by decide +kernel

theorem witness_PagesMoveAndCount : (rigMig.migSlot 0).busy = false ∧
    rigMig.migStat 0 { rigMig.migSlot 0 with ctl := setBits 0 11 11 1 &&& 0x6FF } = 0 ∧
    rigMig.migStat 0 { rigMig.migSlot 0 with ctl := setBits 3 11 11 1 &&& 0x6FF } ≠ 0 ∧
    (let s := after (.pageMigration 0 0) rigMig
     let x := s.migSlot 0
     x.busy = true ∧ s.pend = [] ∧ s.asking (migPart x.ctl) = false ∧ s.Canon ∧ x.ptea.toNat + 8 * migCount x.ctl ≤ x.dst.toNat) ∧
    (rig.pair (pairOf 0)).part ≠ none ∧ ((rig.translate (rig.who 0) local0.toNat 1 (useOf .read)).1 = .ok (inScratch 0)) ∧
    (rig.translate (rig.who 0) 0x0100000000000000 1 (useOf .read)).1 = .fail TFail.permission := by decide +kernel

/-! ## Scheduling, replays and the context engine -/

/-- A launch of three iterations is queued and thread 0 is free. -/
def rigFree : State :=
  let s := (rig.setMe { rig.me with run := .free }).putBytes 0x10000 launchRec
  s.setPart 0 { s.part 0 with lq := s.part 0 |>.lq.set 0 ⟨0x10000, 4, 0, 1⟩ }
theorem test_dispatch : let s := after (.iterationDispatch 0 0) rigFree
    s.me.run = .running ∧ s.me.pc = 0x100 ∧ s.me.s[27] = 0 ∧ s.me.s[20] = 0 := by decide +kernel
theorem test_slice_end_debt : let s := rig.setPart 0 { rig.part 0 with cesav := 0x1000000 }
    (after (.timeSliceEnd 0 0 5) s).me.debt = 0 ∧ (after (.timeSliceEnd 0 0 1500) s).me.debt = 500 := by decide +kernel
/-- A fault queue of one record and one replay at 0x100000, where a replay of pair 0, thread 0, with token 7 stands; the thread is suspended. -/
def rigP : State :=
  let s := rig.setMe { rig.me with run := .suspended, fseq := 7 }
  let s := s.setPart 0 { s.part 0 with faultq := 0x100000, fq := ⟨some 1, some 1⟩ }
  (s.putBytes 0x100080 ([1] ++ List.replicate 23 0 ++ [7])).putWord 0x100028 1
theorem test_replay_resumes : (after (.replayCommand false 0) rigP).me.run = .running ∧ (after (.replayCommand false 0) rigP).word 0x100020 = 1 := by
  decide +kernel
theorem test_replay_ignored : (after (.replayCommand false 0) (rigP.setMe { rigP.me with fseq := 8 })).me.run = .suspended := by decide +kernel

theorem witness_Scheduling_dispatch : rigFree.isFree 0 = true ∧ rig.isFree 0 = false ∧ (rigFree.pair 0).part = some 0 ∧
    rigFree.choose 0 0 = some (0, .iter 0 0 0) ∧ rigFree.pend = [] := by decide +kernel
theorem witness_Scheduling_slice : rig.me.run = .running ∧ rig.me.ceHalted = false ∧ rig.running 0 = none ∧ rig.halting 0 = false ∧ rig.kept 0 = false ∧ rig.me.vq = [] ∧
    (let s := rig.setPart 0 { rig.part 0 with cesav := 0x1000000 }
     s.callsAside 0 0 = false ∧ bits (s.part 0).cesav 51 12 ≠ 0) ∧
    (let s := rig.putBytes 0x10000 launchRec
     let s := s.setPart 0 { s.part 0 with cesav := 0x1000000, lq := (s.part 0).lq.set 0 ⟨0x10000, 4, 0, 1⟩ }
     let s := s.setPair 0 { s.myPair with held1 := 0 }
     (s.setTh 1 { s.th 1 with run := .running }).callsAside 0 0 = true) ∧ rig.watched 0 = none := by decide +kernel
theorem witness_Scheduling_replay : (let s := rigP
     let base := s.fqBase false 0
     leNat (s.bytes (base + 0x20) 8) ≠ leNat (s.bytes (base + 0x28) 8) ∧ (s.part 0).fq.cap = some 1 ∧ (s.part 0).fq.rcap = some 1 ∧
     (s.part 0).mode ≠ .inactive ∧
     (let r := s.bytes (base + 0x40 + 1 * 64 + 0) 32
      let taken : State := (s.fqCaps false 0).2.2.sysWrite (base + 0x20) (leBytes 8 1)
      taken.replayBad false 0 r = false ∧ recField r 4 1 = 0 ∧ taken.pairAt 0 (recField r 1 1) = some 0 ∧ (taken.th 0).replay = none ∧
      (taken.th 0).run = .suspended ∧ (taken.th 0).toPost = [] ∧ (taken.th 0).fOwner = false ∧ (taken.th 0).fseq = recField r 0x18 8)) ∧
    (let s := rigP.setMe { rigP.me with replay := some ⟨some (0xA00, 0), 7, false⟩ }
     s.reached 0 0xA00 0 = true ∧ s.reached 0 0xA00 1 = false) ∧ rig.me.toPost = [] ∧
    (let r := (rigQ rig).recFor 0 false 4
     r.kind ∈ [1, 4, 5] ∧ (rigQ rig).QueueRoom r.ownerQ r.part 1 0 ∧ ((rigQ rig).putWord 0x100010 1).QueueFull r.ownerQ r.part 1) := by decide +kernel

/-- The first GiB mapped, and a launch of three iterations queued behind the running thread, which holds no lanes; the set-aside area is at 0x1000000. -/
def rigSlice : State :=
  let s := (rigW 0).putBytes 0x10000 launchRec
  let s := s.setPart 0 { s.part 0 with cesav := 0x1000000, lq := (s.part 0).lq.set 0 ⟨0x10000, 4, 0, 1⟩ }
  let s := s.setPair 0 { s.myPair with held0 := 0, held1 := 0 }
  s.setTh 1 { s.th 1 with run := .running }
theorem test_slice_end_sets_aside : let s := after (.timeSliceEnd 0 0 5) rigSlice
    (s.part 0).aside.length = 1 ∧ s.me.pc = 0x100 ∧ s.me.run = .running := by decide +kernel
/-- The first iteration ended: the set-aside context of thread 0 is the next. -/
noncomputable def rigAside : State :=
  let s := after (.timeSliceEnd 0 0 5) rigSlice
  let s := s.setMe { s.me with run := .free }
  s.setPart 0 { s.part 0 with walk := [], lq := (s.part 0).lq.set 0 ⟨0x10000, 4, 1, 1⟩ }
theorem test_aside_resumes : let s := after (.setAsideResume 0) rigAside
    s.me.run = .running ∧ s.me.pc = 0 ∧ (s.part 0).aside = [] := by decide +kernel
theorem witness_Scheduling_aside :
    (let s := rigSlice
     (s.pair 0).part = some 0 ∧ s.me.run = .running ∧ s.me.ceHalted = false ∧ s.running 0 = none ∧ s.halting 0 = false ∧ s.kept 0 = false ∧
     s.callsAside 0 0 = true ∧ s.pend = [] ∧ s.acked 0 = true ∧ s.me.noFetch = false ∧
     (let q := (s.squash 0).setTh 0 { (s.squash 0).th 0 with debt := s.me.debt + 5, noFetch := false }
      match q.saveImage 0 0 false (q.slotOf 0 0) false false with
      | .done _ y =>
        let y := y.dropTileLeave 0
        (((y.setTh 0 { y.th 0 with run := .free, debt := 0 }).setHeld 0 0).grantNext 0 0).isSome
      | _ => false) = true) ∧
    (let s := rigAside
     s.isFree 0 = true ∧ (s.readImage 0 0 false (s.slotOf 0 0)).1.isOk = true ∧
     (match s.choose 0 0 with
      | some (_, .aside _) => true
      | _ => false) = true) := by decide +kernel
/-- A request of the thread is out that it may not leave; the instruction it is at is wbload. -/
def rigDog : State := { rigW 0x84328C00 with obs := [⟨0, 0, none, false, 0, 1, 0, 0, .none, none, false, true, 0, none⟩] }
theorem test_watchdog_ends : (after (.watchdogExpire 0) rigDog).me.run = .free := by decide +kernel
theorem witness_Scheduling_watchdog : rigDog.watched 0 = some (none, 0x84000000) ∧ rigDog.me.vq = [] := by decide +kernel
/-- The replay of `rigP` with a condition: that the thread's own command timeline 5 has come to 1. -/
def rigCond : State := rigP.putBytes 0x100080 ([1, 0, 0, 0, 1, 0, 0, 0] ++ leBytes 8 0xA00 ++ leBytes 8 1 ++ leBytes 8 7)
theorem test_replay_held : (after (.replayCommand false 0) rigCond).me.replay = some ⟨some (0xA00, 1), 7, false⟩ ∧
    (after (.replayCommand false 0) rigCond).me.run = .suspended := by decide +kernel
theorem witness_Scheduling_held : let s := rigCond
    let base := s.fqBase false 0
    let r := s.bytes (base + 0x40 + 1 * 64 + 0) 32
    let taken : State := (s.fqCaps false 0).2.2.sysWrite (base + 0x20) (leBytes 8 1)
    leNat (s.bytes (base + 0x20) 8) ≠ leNat (s.bytes (base + 0x28) 8) ∧ taken.replayBad false 0 r = false ∧ recField r 4 1 = 1 ∧
    taken.pairAt 0 (recField r 1 1) = some 0 ∧ (taken.th 0).fseq = recField r 0x18 8 ∧ taken.reached 0 0xA00 1 = false ∧
    (let y := taken.setMe (taken.me.setTimeline 5 ⟨1, 1, []⟩)
     y.reached 0 0xA00 1 = true) := by decide +kernel

/-- Thread 0 halted; a command of slot 0. -/
def rigX (op : Nat) : State :=
  let s := rig.setMe { rig.me with run := .suspended, ceHalted := true }
  s.setCe 0 ⟨w64 (2 ^ 42 + op * 2 ^ 32), 0x1000000, 0, true, 0⟩
theorem test_halt_starts : (after (.contextHalt 0 0) rig).me.noFetch = true ∧ ((after (.contextHalt 0 0) rig).ceSlot 0).busy = true := by decide +kernel
theorem test_save_refused : ((after (.contextSave 0 0) rig).ceSlot 0).stat = 1 := by decide +kernel
theorem test_resume : (after (.contextEngineDone 0) (rigX 4)).me.run = .running ∧ (after (.contextEngineDone 0) (rigX 4)).me.ceHalted = false := by decide +kernel
theorem test_abandon : (after (.contextEngineDone 0) (rigX 6)).me.run = .free ∧ (after (.contextEngineDone 0) (rigX 6)).held 0 = 0 := by decide +kernel

theorem witness_ContextEngine : (rig.ceSlot 0).busy = false ∧ rig.ceReady (setBits (setBits 0 35 32 2) 42 42 1) = false ∧
    rig.ceReady (setBits (setBits 0 35 32 1) 42 42 1) = true ∧ rig.cmds = [] ∧ ((rigX 4).ceSlot 0).busy = true ∧
    (rigX 1).ceReady ((rigX 1).ceSlot 0).ctl = false ∧ (rigX 4).ceReady ((rigX 4).ceSlot 0).ctl = true ∧
    (rigX 4).ceThread ((rigX 4).ceSlot 0).ctl = some 0 ∧ ctlOp ((rigX 4).ceSlot 0).ctl = 4 ∧ (rigX 4).me.run = .suspended ∧ (rigX 4).me.toPost = [] ∧
    (rigX 4).me.replay = none ∧ (rigX 6).ceReady ((rigX 6).ceSlot 0).ctl = true ∧
    (let s := after (.contextHalt 0 0) rig
     s.ceReady (s.ceSlot 0).ctl = true ∧ ctlOp (s.ceSlot 0).ctl = 1 ∧ s.cmds = [] ∧ s.kept 0 = false ∧ s.me.vq = [] ∧ s.pend = [] ∧ s.acked 0 = true) ∧
    (let s := (rigX 7).setPart 0 { rig.part 0 with mode := .quiesced }
     s.ceReady (s.ceSlot 0).ctl = true ∧ ctlOp (s.ceSlot 0).ctl = 7 ∧ s.memLost = [] ∧ wkBad (s.part 0) [] = false) := by decide +kernel

/-- Whether saving an image ended with one, and reading one gave it. -/
def savedImage : Save → Bool
  | .done _ _ => true
  | _ => false
/-- Thread 0 halted without lanes; a command of slot 0 on an image at a system-physical address. -/
def rigImg (op : Nat) : State :=
  let s := rigX op
  (s.setPair 0 { s.myPair with held0 := 0 }).setCe 0 ⟨w64 (2 ^ 42 + 2 ^ 41 + op * 2 ^ 32), 0x1000000, 0, true, 0⟩
/-- The thread free again, its image in memory, and a command to restore it. -/
noncomputable def rigBack : State :=
  let s := after (.contextEngineDone 0) (rigImg 2)
  (s.setMe { s.me with run := .free, ceHalted := false }).setCe 0 ⟨w64 (2 ^ 42 + 2 ^ 41 + 3 * 2 ^ 32), 0x1000000, 0, true, 0⟩
theorem test_save_and_restore : ((after (.contextEngineDone 0) (rigImg 2)).ceSlot 0).res = 0x2000 ∧ ((after (.contextEngineDone 0) rigBack).ceSlot 0).stat = 0 ∧
    (after (.contextEngineDone 0) rigBack).me.ceHalted = true := by decide +kernel
theorem witness_ContextEngine_images :
    (let s := rigImg 2
     s.ceReady (s.ceSlot 0).ctl = true ∧ s.ceThread (s.ceSlot 0).ctl = some 0 ∧ ctlOp (s.ceSlot 0).ctl = 2 ∧
     savedImage (s.saveImage 0 0 true 0x1000000 false false) = true) ∧
    (let s := rigBack
     s.ceReady (s.ceSlot 0).ctl = true ∧ s.ceThread (s.ceSlot 0).ctl = some 0 ∧ ctlOp (s.ceSlot 0).ctl = 3 ∧
     (s.readImage 0 0 true 0x1000000).1.isOk = true) ∧
    (let k : Word := 2 ^ 42 + 2 ^ 41
     let s := (rigImg 5).setMe { (rigImg 5).me with refused := some (0x1000000, k) }
     s.ceReady (s.ceSlot 0).ctl = true ∧ ctlOp (s.ceSlot 0).ctl = 5 ∧ s.me.refAside = false ∧
     savedImage (s.saveImage 0 (ctlPart (setBits k 35 32 2)) (ctlSpa (setBits k 35 32 2)) 0x1000000 (ctlPrt (setBits k 35 32 2))
       (ctlScr (setBits k 35 32 2))) = true) := by decide +kernel

/-! ## Requests from outside, ownership, links and the module -/

/-- Entry 0 of the host table admits port 0 to the first MiB, reading, writing and AtomicOps; port 0 owns the module. -/
def rigHost : State := { rig with
  ctl := cellsPut rig.ctl 0x20000 (leBytes 8 0 ++ leBytes 8 0x100000 ++ [1, 7]), owState := 1, owner := 0, bootPhase := 3, rqport := 1 }
theorem test_host_write : (after (.hostInboundWrite 0 true 0x1000 [5] false) rigHost).byte 0x1000 = 5 := by decide +kernel
theorem test_host_write_by_other : (after (.hostInboundWrite 1 true 0x1000 [5] false) rigHost).byte 0x1000 = 0 := by decide +kernel
theorem test_host_read : (after (.hostInboundRead 0 true 0x1000 1) (rigHost.putBytes 0x1000 [5])).out = [.completion true [5]] := by decide +kernel
theorem test_host_atomic : (after (.hostInboundAtomic 0 true 0x1000 (.atomic .add true 7)) (rigHost.putBytes 0x1000 [5])).word 0x1000 = 12 := by decide +kernel
theorem test_packet_short : (after (.requestPacket (.ethernet 0) 0 [1] true) rigHost).rqdrop = 1 := by decide +kernel

theorem witness_InboundRequests : rigHost.bootPhase ≠ 4 ∧ rigHost.memLost = [] ∧ rigHost.inq = [] ∧
    (let e := rigHost.inEntry 0x20000 0
     rigHost.findEntry 0x20000 0x1000 (fun x => x.testBit 0) = some e ∧ e.allows 0x1000 (.read 8) = true ∧ e.allows 0x1000 (.write [5] false) = true ∧
     e.allows 0x1000 (.atomic .add true 7) = true ∧ e.dpart.testBit 7 = false ∧ rigHost.rangeMoves 0x1000 8 = false ∧
     rigHost.boardWaits 0x1000 8 0 = false ∧
     rigHost.region 0x1000 ≠ .hole ∧ rigHost.isOwner 0 = true ∧ rigHost.isOwner 1 = false ∧ e.allows 0xFFFFC (.read 4) = true) ∧
    rigHost.findEntry 0x20000 0x100000 (fun x => x.testBit 0) = none ∧ apertureBlock 0x100 = true ∧ isWindow 0x100 = false ∧
    apertureBlock 0x40000000 = true ∧ isWindow 0x40000000 = true ∧ apertureBlock 0x10000000 = true ∧ isWindow 0x10000000 = false ∧
    (let s := rigHost.setMig 0 ⟨0, 0x200000, 0x8000, 0x802, true, 0, []⟩
     s.rangeMoves 0x1000 1 = true) ∧ rigHost.findEntry 0x20000 0x1000 (fun _ => true) = some (rigHost.inEntry 0x20000 0) ∧
    ({ rigHost with owner := 2 } : State).isOwner 2 = true ∧
    (let s : State := { rigHost with devn := 16, ctl := cellsPut rigHost.ctl 0x10000 (leBytes 8 0 ++ leBytes 8 0x100000 ++ [0, 7]) }
     s.devn ≠ 0 ∧ s.findEntry 0x10000 0x1000 (fun x => x == 0 || x == 17) = some (s.inEntry 0x10000 0) ∧
     (s.inEntry 0x10000 0).allows 0x1000 (.read 8) = true ∧ s.peerReach 0x1000 = true) ∧
    (rig.rpa[0]).getLsbD 8 = false ∧ rigHost.rqport ≠ 0 ∧ rig.rqport = 0 ∧ rig.mgport = 0 ∧ ({ rig with mgport := 1 } : State).mgport ≠ 0 := by decide +kernel
theorem witness_InboundRequests_rootPort : let s : State := { (rig.mapGiB 0x20000000 0) with rpa := rig.rpa.set 0 0x100 }
    ((s.rpa[0]).getLsbD 8 = true ∧ bits (s.rpa[0]) 5 0 = 0 ∧ (s.part 0).mode ≠ .inactive) ∧
    (match stage2 s noDie 0 0x1000 with
    | .ok l => l.pte.r && kindOk l.pte.kind (s.region l.addr) && (s.region l.addr).isLocal && !s.inMotion l.addr
    | .error _ => false) = true := by decide +kernel
theorem witness_InboundRequests_packet :
    let data : List Byte := leBytes 4 0 ++ [1] ++ List.replicate 11 0 ++ launchRec
    let s : State := { rigHost with ctl := cellsPut rigHost.ctl 0x80000 [0, 0, 0, 0, 0x81, 0, 3] }
    let s := s.setPart 0 { s.part 0 with lq := (s.part 0).lq.set 0 ⟨0x10000, 4, 0, 0⟩ }
    let f := cellsGet s.ctl 0x80000 32
    data.length = 144 ∧ (recField f 4 1).testBit 7 = true ∧ recField f 0 4 = recField data 0 4 ∧ (recField f 4 1).testBit 0 = true ∧ recField data 4 1 = 1 ∧
    recZero data 5 11 = true ∧ lrBad (s.pairCount 0) (data.drop 16) = false ∧ (s.part 0).mode = .active ∧ ((s.part 0).queue 0).cap ≠ 0 := by decide +kernel
/-- A UDP datagram of one byte to port 1 over IPv4, its checksums right or its UDP checksum unused. -/
def udp1 : List Byte := List.replicate 12 0 ++ [8, 0] ++ [0x45, 0, 0, 29, 0, 0, 0, 0, 64, 17, 0x7A, 0xD1] ++ List.replicate 8 0 ++ [0, 0, 0, 1, 0, 9, 0, 0, 5]
theorem test_udp_frame : udpFrame udp1 = some ⟨1, [5], true⟩ := by decide +kernel
theorem test_frame_to_port : (after (.ethernetFrame 0 udp1) rigHost).rqdrop = 1 ∧ (after (.ethernetFrame 0 udp1) rigHost).frames = [] := by decide +kernel
theorem witness_InboundRequests_frame : udpFrame [] = none ∧ udpFrame udp1 = some ⟨1, [5], true⟩ ∧ rigHost.rqport ≠ 0 ∧ (1 : Nat) = rigHost.rqport.toNat ∧
    ({ rigHost with rqport := 2 } : State).rqport.toNat ≠ 1 := by decide +kernel

theorem test_claim : (after (.claim 0) { rig with bootPhase := 3, elig := 1 }).owState = 1 ∧ ((after (.claim 1) { rig with bootPhase := 3, elig := 1 }).oclmOf 1).res = 1 := by
  decide +kernel
theorem test_linkUp : (after (.linkUp 3) rig).linkUp[3] = true := by decide +kernel
theorem test_completion : (after (.outboundCompletion 0 0 false [7]) { rig with obs := [⟨0, 0, none, false, 0, 1, 0, 0, .none, none, false, false, 0, none⟩] }).obs =
    [⟨0, 0, none, false, 0, 1, 0, 0, .data [7], none, false, false, 0, none⟩] := by decide +kernel
theorem test_registerWrite_budget : ((after (.registerWrite 0x107F0000 500) rigHost).die 0).budget = 500 ∧
    ((after (.registerWrite 0x107F0000 99) rigHost).die 0).budget = 640 ∧ ((after (.registerWrite 0x107F0000 500) rig).die 0).budget = 640 := by
  decide +kernel
theorem test_spare : (after (.spareMapWrite 0 3 33) rig).physPair 3 = 33 ∧ (after (.spareMapWrite 0 3 4) rig).physPair 3 = 3 := by decide +kernel
theorem test_reset_recovery : (after .moduleReset rig).bootPhase = 4 ∧ (after .moduleReset rig).failedStage = 1 ∧ (after .moduleReset rig).bootErr = 1 := by
  decide +kernel

theorem witness_Ownership : (let s : State := { rig with bootPhase := 3, elig := 3 }
     (s.bootPhase = 3 ∧ s.owState = 0 ∧ s.elig.getLsbD 0 = true) ∧ s.ownerWait = [] ∧ s.acceptWait = false ∧ s.owState ≠ 2) ∧
    rig.bootPhase ≠ 4 ∧ ({ rig with bootPhase := 4 } : State).bootPhase = 4 ∧
    (let s : State := { rig with bootPhase := 3, elig := 3, owner := 0, owState := 1, ofq := 0x100000, ownerFq := ⟨some 1, some 1⟩ }
     let r := rig.recFor 0 true 2
     r.ownerQ = true ∧ s.QueueRoom true r.part 1 0) ∧
    (let s : State := { rig with owState := 1, owner := 0, elig := 3 }
     s.isOwner 0 = true ∧ s.isOwner 1 = false ∧ s.acceptWait = false ∧ s.eligible 1 = true ∧ s.eligible 2 = false) ∧
    (let s : State := { rig with owState := 2, owner := 0, offerTgt := 1, acceptWait := true }
     s.owState = 2 ∧ s.offerTgt.toNat = 1 ∧ s.acceptWait = true ∧ s.anyBusy = false ∧ ({ s with pcmdJob := .quiesce } : State).anyBusy = true) ∧
    ({ rig with pathFail := true } : State).pathFail = true ∧ rig.pathFail = false := by decide +kernel
theorem witness_Links : rig.obs.all (fun o => !(o.link == some 0 && o.posted)) = true ∧ rig.spares.contains (0, 0) = false ∧
    (let o : OutReq := ⟨0, 0, none, false, 0, 1, 0, 0, .none, some 0, false, false, 1, none⟩
     ({ rig with obs := [o] } : State).obs.find? (fun o => o.tid == 0 && o.k == 0) = some o) ∧ rig.obs.find? (fun o => o.tid == 0 && o.k == 0) = none ∧
    (let o : OutReq := ⟨0, 0, none, true, 0, 1, 0, 0, .none, some 0, false, false, 1, none⟩
     ({ rigQ rig with obs := [o] } : State).obs.find? (fun o => o.tid == 0 && o.k == 0) = some o ∧ (rigQ rig).QueueRoom false 0 1 0) := by decide +kernel
theorem witness_ModuleEvents : rig.bootPhase ≠ 4 ∧ ({ rig with bootPhase := 4 } : State).bootPhase = 4 ∧ rig.atctl.getLsbD 1 = false ∧ rig.owState = 0 ∧ rigHost.owState ≠ 0 ∧
    ({ rig with agenda := [.boot], bootPhase := 1 } : State).agenda = [.boot] ∧ apertureBlock 0x100 = true ∧ apertureBlock 0x18000000 = false ∧
    (2 : Word).getLsbD 1 = true ∧ (rig.die 0).waiting = [] ∧
    (let s := rig.setDie 0 { rig.die 0 with waiting := [⟨0, true, 0, 0, 18, false⟩] }
     (s.die 0).waiting = [⟨0, true, 0, 0, 18, false⟩] ∧ (s.die 0).used = 0) ∧
    (let s := rig.setDie 0 { rig.die 0 with waiting := [⟨0, true, 0, 0, 18, false⟩], granted := [⟨1, true, 0, 0, 630, false⟩] }
     (s.die 0).used ≠ 0 ∧ s.budget 0 < (s.die 0).used + 18) ∧ (rig.region 0).isLocal = true ∧ ({ rig with memLost := [8] } : State).memLost = [8] ∧
    ((rig.die 0).spare.toList.any (fun b => b == 35) = false ∧ (rig.th 2).run = .free ∧ (rig.th 3).run = .free ∧ ∀ j < 64, rig.physLane 1 j ≠ 67) := by
  decide +kernel

/-! ## What a cause leaves: 14 R299 to R301; 02 R56 to R58 -/

/-- Seventeen FP32 elements in registers that hold sixteen. -/
def rigTrim : State := rigF.setMe { rigF.me with vl := 17 }
/-- The second element's sum overflows, which is enabled: v1 = 1 and the largest number, v2 the same. -/
def rigOver : State := let s := vset (vset rigF 1 8 [0x3F800000, 0x7F7FFFFF]) 2 8 [0x3F800000, 0x7F7FFFFF]
  s.setMe { s.me with fcs := 0x40000 }
def resumes (s : State) : State := s.setMe { s.me with tcr := 1 }
/-- The second element of a strip lies past the scratchpad. -/
def rigEdge : State := rigV.setS 1 (local0 + 0x2FFFFFC)
theorem test_strip_trimmed : let s := after (.vfadd 3 1 2 0) rigTrim
    s.me.vl = 16 ∧ s.me.trc = 5 ∧ s.me.es = 0 ∧ vget s 3 8 2 = [0x40400000, 0xBFC00000] := by decide +kernel
theorem test_overflow_trims : let s := after (.vfadd 3 1 2 0) rigOver
    s.me.vl = 1 ∧ s.me.trc = 4 ∧ vget s 3 8 2 = [0x40000000, 0x3F800000] := by decide +kernel
theorem test_overflow_resumes : let s := after (.vfadd 3 1 2 0) (resumes rigOver)
    s.me.es = 1 ∧ s.me.vl = 2 ∧ s.me.tca = 0x20004 ∧ s.me.tva = 0x14 ∧ vget s 3 8 1 = [0x40000000] := by decide +kernel
theorem test_load_trims : let s := after (.vld 3 1 0 0) rigEdge
    s.me.vl = 1 ∧ s.me.trc = 2 ∧ s.me.tra = 0x00FF000003000000 ∧ s.me.run = .running := by decide +kernel
theorem test_load_suspends : (after (.ldD 3 0 0) rig).me.run = .suspended ∧ (after (.ldD 3 1 0) (rigS [(1, 1)])).me.tca = 0x20003 := by decide +kernel
theorem test_load_lost : (after (.ldD 3 1 0) { rigM [1] [] with memLost := [scratchBase 0] }).me.tca = 0x20008 := by decide +kernel

theorem witness_TrimsAndFailures_scalar :
    (rig.translate (rig.who rig.tid) (rig.sr 0 + BitVec.ofInt 64 (0 : BitVec 13).toInt).toNat 8 .load).1 = .fail ⟨1, true, 4, false, 0x20003000, none⟩ ∧
    (∀ o, (rig.dropRequests rig.tid).me.lastFault = some o → o.pc ≠ (rig.dropRequests rig.tid).me.pc) ∧
    (let s := rigS [(1, 1)]
     (s.translate (s.who s.tid) (s.sr 1 + BitVec.ofInt 64 (0 : BitVec 13).toInt).toNat 8 .store).1 = .fail TFail.misaligned) ∧
    (let s := rigT fun t => { t with lastFault := some ⟨0, 0, false, 15⟩ }
     (s.dropRequests s.tid).me.lastFault = some ⟨(s.dropRequests s.tid).me.pc, 0, false, 15⟩) ∧ (rigQ rig).QueueRoom false 0 1 0 ∧
    (let s : State := { rigM [1] [] with memLost := [scratchBase 0] }
     s.translate (s.who s.tid) (s.sr 1 + BitVec.ofInt 64 (0 : BitVec 13).toInt).toNat 8 .load = (.ok (inScratch 0), s) ∧ s.pend = [] ∧
     s.lostIn (scratchBase 0) 8 = true ∧ ¬ (s.dropRequests s.tid).InHandler) := by decide +kernel
theorem witness_TrimsAndFailures_strip :
    (let ops := [reg 3 8, reg 1 8, reg 2 8]
     let sum (s : State) (i : Nat) : Nat × Exc := roundTo fmt32 s.me.ctl i 0 ((fmt32.operand s.me.ctl.fz (s.at_ (reg 1 8) i)).add s.me.ctl.rm
       (fmt32.operand s.me.ctl.fz (s.at_ (reg 2 8) i)))
     (rigTrim.Plain ∧ codeFmt rigTrim.me.et = some fmt32 ∧ ¬ rigTrim.InHandler ∧ rigTrim.me.operand 3 1 8 true = some (reg 3 8)) ∧
     (16 ∈ ops.map rigTrim.capOf ∧ (∀ m ∈ ops.map rigTrim.capOf, 16 ≤ m) ∧ rigTrim.me.start < 16 ∧ 16 < rigTrim.me.vlen ∧
      (let v := rigTrim.setMe { rigTrim.me with vl := w64 16, trc := 5, tra := 0 }
       v.NoTrap (v.actives v.me.start 0) (sum v))) ∧
     (16 ≤ (rigTrim.setMe { rigTrim.me with es := 16 }).me.start) ∧
     (let act := rigOver.actives 0 0
      rigOver.Within 0 (ops.map rigOver.capOf) ∧ 1 ∈ act ∧ rigOver.me.ten &&& (sum rigOver 1).2 ≠ 0 ∧ (act.filter fun i => decide (i < 1)) = [0] ∧
      rigOver.NoTrap [0] (sum rigOver) ∧ rigOver.me.resume = false ∧ (resumes rigOver).me.resume = true ∧
      ((rigOver.setMe { rigOver.me with es := 1 }).actives 1 0).filter (fun i => decide (i < 1)) = [])) :=
  ⟨⟨plain_of _ (by decide +kernel) (by decide +kernel) (by decide +kernel) (by decide +kernel) (by decide +kernel), by decide +kernel, by decide +kernel,
    by decide +kernel⟩, by decide +kernel, by decide +kernel, by decide +kernel⟩
theorem witness_TrimsAndFailures_loads :
    (rigEdge.Plain ∧ rigEdge.Quiet ∧ rigEdge.me.et ≠ 7 ∧ rigEdge.Within 0 [rigEdge.capOf (reg 3 8)]) ∧
    (let s := rigEdge
     let addr (i : Nat) : Word := s.sr 1 + w64 (i * 4)
     translateElems (s.who s.tid) (accessOf (fun i => some (addr i)) 4 .load) (s.activesOf 0 0 0) s [] [] =
       (⟨[0].map fun i => (i, placedOf (fun i => some (addr i)) 4 .load (fun _ => inScratch 0x2FFFFFC) i),
         some (1, Fail.ofT TFail.permission (addr 1) .load), false⟩, s)) ∧
    (let s := rigEdge.setS 1 (local0 + 0x3000000)
     let addr (i : Nat) : Word := s.sr 1 + w64 (i * 4)
     translateElems (s.who s.tid) (accessOf (fun i => some (addr i)) 4 .load) (s.activesOf 0 0 0) s [] [] =
       (⟨[], some (0, Fail.ofT TFail.permission (addr 0) .load), false⟩, s)) :=
  ⟨⟨plain_of _ (by decide +kernel) (by decide +kernel) (by decide +kernel) (by decide +kernel) (by decide +kernel),
    quiet_of _ (by decide +kernel) (by decide +kernel) (by decide +kernel), by decide +kernel, by decide +kernel⟩, by decide +kernel, by decide +kernel⟩

/-! ## A vector instruction waits in its queue: 06 R151 -/

/-- vbcast v3 from the empty q0 stands at the program counter. -/
def rigWait : State := { rigW 0x64300106 with threads := (rigE 12 2).threads, pairs := (rigE 12 2).pairs }
theorem test_vector_queue : (match step rigWait with
    | .next t => t.me.vq.length == 1 && t.me.pc == 4
    | _ => false) = true := by decide +kernel
theorem witness_StepRunsDecoded_waits : let s := rigWait
    s.agenda = [] ∧ s.me.vq = [] ∧ s.me.issues = true ∧ (s.fetch s.tid).1 = .word 0x64300106 ∧
    (let t := (s.fetch s.tid).2
     (match decodeWord t.me.tile 0x64300106 with
      | .ok i => i == .vbcast 3 0 1 0
      | .error _ => false) = true ∧ queues 0x64300106 = true ∧
     (match exec (.vbcast 3 0 1 0) t with
      | .next z => z.me.stays t.me
      | _ => false) = true) := by decide +kernel

/-! ## The lookup unit: 16 R340 to R348 -/

/-- One head of one key for queries of two BF16 elements, and one row of one FP32 element: the keys and the row in HBM. -/
def pkRec : List Byte := leBytes 8 0x2000 ++ leBytes 8 0x2100 ++ leBytes 8 0x3000 ++ leBytes 8 0 ++
  leBytes 2 2 ++ leBytes 2 1 ++ leBytes 2 1 ++ [1, 1, 1, 0, 0, 0] ++ leBytes 4 0x3F800000 ++ List.replicate 16 0
/-- A query of ones, keys of one, a row of 2.0, the record area 0x4000 above. -/
def rigLook : State :=
  let s := vset ((rigE 3 1).setS 1 (local0 + 0x4000)) 1 4 [0x3F80, 0x3F80]
  let s := ((s.putBytes 0x2000 [0x80, 0x3F]).putBytes 0x2100 [0x80, 0x3F]).putBytes 0x3000 [0, 0, 0, 0x40]
  { s.setMe { s.me with lookup := pkRec } with tlb := [giB], tlb1 := [(0, giB)] }
/-- The unit has leave. -/
def rigPk : State := rigLook.setDie 0 { rigLook.die 0 with granted := [⟨0, false, 3, 1, 12, false⟩] }
theorem test_pkcfg : (after (.pkcfg 1) (rigM pkRec [])).me.lookup = pkRec ∧ (after (.pkcfg 1) (rigM [1] [])).me.tca = 0x2030C := by decide +kernel
theorem test_pklook : let s := after (.pklookPerformed 0 1) (after (.pklook 1 1 3 0 0) rigPk)
    s.sr 3 = 1 ∧ s.bytes (scratchBase 0 + 0x4040) 12 = leBytes 4 0x40000000 ++ leBytes 4 0 ++ leBytes 4 0x3F800000 := by decide +kernel
theorem witness_LookupSketchAndLaunch_record : (let s := rigM pkRec []
     s.Reaches (s.sr 1) 64 .load (inScratch 0) s ∧ s.bytes (scratchBase 0) 64 = pkRec) ∧ pkBad pkRec = false ∧ pkBad (List.replicate 64 0) = true := by
  decide +kernel
theorem witness_LookupSketchAndLaunch_lookup :
    (let s := rigLook
     s.me.et = 3 ∧ s.me.lookup ≠ [] ∧ s.me.operand 1 1 4 false = some (reg 1 4) ∧ s.me.cut = 0 ∧ s.Quiet ∧ s.regBad = [] ∧
     (∀ j : Nat, (s.me.binds[j]?).getD none = none) ∧ (s.me.bound 1 false = none ∧ 1 ≤ Nat.min 64 (s.capOf (reg 1 4) / pkD pkRec)) ∧
     (s.sr 1).toNat % 64 = 0 ∧ localWin ≤ (s.sr 1).toNat ∧ (s.sr 1).toNat + (64 + pkRs pkRec) ≤ localWin + 0x3000000 ∧
     s.Admits 3 [⟨(s.sr 1).toNat, 64 + pkRs pkRec, false⟩] ∧ s.cmdLeave 0 3 1 = false ∧ s.cmdAsked 0 3 1 = false) ∧
    (let s := after (.pklook 1 1 3 0 0) rigLook
     s.cmdLeave 0 3 1 = false ∧ s.cmdAsked 0 3 1 = true ∨ s.cmdLeave 0 3 1 = true) ∧
    (rigPk.cmdLeave 0 3 1 = true ∧ (rigE 3 0).me.vlen = 0 ∧ (mset rigPk 1 [false]).active (rigPk.lanesOf 0) 1 false 0 = false) ∧
    (let s := rigPk
     let y : PkIn := ⟨s.lanesOf 0, 1, reg 1 4, pkRec, [0x80, 0x3F], [0x80, 0x3F], 0, false⟩
     let run := s.pkAll (s.who s.tid) y PkRun.start [0]
     (match s.pkTables pkRec with
      | (.ok e, u) => e == (y.t1, y.t2) && u == s
      | _ => false) = true ∧ run.1.wait = false ∧ run.1.fail = none ∧ run.1.lost = none ∧ run.2.me.cut = 0 ∧
     run.2.Admits 3 [⟨(s.sr 1).toNat, 64 + pkRs pkRec, false⟩]) :=
  ⟨⟨by decide +kernel, (by decide +kernel), (by decide +kernel), by decide +kernel, quiet_of _ (by decide +kernel) (by decide +kernel) (by decide +kernel),
    by decide +kernel, unbound_of _ (by decide +kernel), by decide +kernel⟩, by decide +kernel, by decide +kernel, by decide +kernel⟩

/-! ## Counted pages, NEST records outside the module, fragments, and the hash: 02 R67, 15 R317, 18 R368, 20 R413 -/

/-- The first GiB is a page that is counted, and die 0 counts. -/
def rigHot : State :=
  let s : State := { rig.setS 1 0x1000 with tlb := [{ giB with hs := true }], tlb1 := [(0, { giB with hs := true })] }
  s.setDie 0 { s.die 0 with hctlEn := true }
theorem test_hot_counts : let s := after (.ldD 3 1 0) (after (.ldD 3 1 0) rigHot)
    s.me.pc = 8 ∧ (mapGet (0, 0, 0, 0) (s.die 0).hot 0).2.1 = 2 := by decide +kernel
theorem witness_PagesMoveAndCount_counted : (let s := rigHot
     let q : Phys := ⟨0x1000, 0, true, true, 0, 3, some { giB with hs := true }⟩
     s.translate (s.who s.tid) 0x1000 8 .load = (.ok q, s) ∧ s.translate (s.who s.tid) 0x1000 8 .store = (.ok q, s) ∧ q.isOutbound = false ∧
     (s.die 0).hctlEn = true ∧ (s.die 0).hctlClr = false ∧ (rigH.die 0).hctlEn = false ∧
     (mapGet (0, 0, 0, 0) (s.die 0).hot 0).1.getLsbD 0 = false ∧
     (let t := after (.ldD 3 1 0) s
      (mapGet (0, 0, 0, 0) (t.die 0).hot 0).1 = w64 (1 + 3 * 2 + t.myPart * 8 + 0))) ∧
    (0x3000000007 : Word).getLsbD 0 = true ∧ (0x3000000007 : Word) ≠ w64 (1 + 3 * 2) :=
  ⟨by decide +kernel, by decide +kernel, by decide +kernel⟩
theorem test_sha256 : sha256 [0x61, 0x62, 0x63] = beBytes 32 0xba7816bf8f01cfea414140de5dae2223b00361a396177a9cb410ff61f20015ad := by decide +kernel
/-- The two fragments of `udp1`'s datagram: eight bytes, and the last one. -/
def frag1 : List Byte := List.replicate 12 0 ++ [8, 0] ++ [0x45, 0, 0, 28, 0, 5, 0x20, 0, 64, 17, 0x5A, 0xCD] ++ List.replicate 8 0 ++ [0, 0, 0, 1, 0, 9, 0, 0]
def frag2 : List Byte := List.replicate 12 0 ++ [8, 0] ++ [0x45, 0, 0, 21, 0, 5, 0, 1, 64, 17, 0x7A, 0xD3] ++ List.replicate 8 0 ++ [5]
theorem test_fragments : (after (.ethernetFrame 0 frag2) rigHost).frags = [(0, frag2)] ∧
    (let s := after (.ethernetFrame 0 frag1) (after (.ethernetFrame 0 frag2) rigHost)
     s.frags = [] ∧ s.rqdrop = 1) := by decide +kernel
theorem witness_InboundRequests_fragments : (((ipPart frag1).bind IpPart.frag).isSome ∧ (assemble ([frag1].filterMap ipPart)).isNone) ∧
    ((assemble ([frag2, frag1].filterMap ipPart)).bind IpPart.udp) = some ⟨1, [5], true⟩ := by decide +kernel
/-- The first GiB of host port 0, translated, and a copy whose NEST record is there. -/
def hostGiB : Tlb := { giB with vbase := 0x40000000, pbase := 0x8000000000000, gbase := 0x40000000, s2base := 0, kind := 2, nm := false }
def rigNest : State := { rigM (nestRec 0x40000000) [] with tlb := [hostGiB], tlb1 := [(0, hostGiB)] }
/-- Its NEST as a reply: one level of bound 0. -/
noncomputable def rigNested : State := after (.outboundCompletion 0 0 false (1 :: List.replicate 23 0)) (after (.ecopy 1 3) rigNest)
theorem test_nest_is_asked : (after (.ecopy 1 3) rigNest).me.pc = 0 ∧ (after (.ecopy 1 3) rigNest).obs.length = 1 ∧ (after (.ecopy 1 3) rigNested).me.pc = 4 ∧
    (after (.ecopy 1 3) rigNested).obs = [] ∧ ((after (.ecopy 1 3) rigNested).cmds.map (·.extra)) = [1 :: List.replicate 23 0] := by decide +kernel
theorem witness_CommandsAccepted_nest : (let s := rigNest
     s.Reaches (s.sr 1) 64 .load (inScratch 0) s ∧ s.Quiet ∧ (s.askNests [s.bytes (scratchBase 0) 64]).1 = true) ∧
    (let s := rigNested
     let h := (s.askNests [s.bytes (scratchBase 0) 64]).2
     s.Reaches (s.sr 1) 64 .load (inScratch 0) s ∧ s.Quiet ∧ (s.askNests [s.bytes (scratchBase 0) 64]).1 = false ∧
     h.nestReads (s.bytes (scratchBase 0) 64) ≠ some [] ∧ h.peekNest (h.who h.tid) (s.bytes (scratchBase 0) 64) = some (1 :: List.replicate 23 0)) :=
  ⟨⟨by decide +kernel, quiet_of _ (by decide +kernel) (by decide +kernel) (by decide +kernel), by decide +kernel⟩, by decide +kernel,
    quiet_of _ (by decide +kernel) (by decide +kernel) (by decide +kernel), by decide +kernel⟩

end Sys2Proof.Tests

end
end

section
/-! On-chip memory (03): what reset leaves, what zeroing lanes does, setvl and vcfg, and the binding of streams. -/

namespace Sys2Proof.Machine

/-! ## Reset: 03 R76; 08 R190 -/

theorem State.th_reset (n : Nat) : State.reset.th n = Thread.reset := rfl
theorem State.pair_reset (l : Nat) : State.reset.pair l = Pair.reset := rfl

/-- An equal-layout descriptor of 32 registers stands at its register's multiple of 32 units (03 R77). -/
theorem Thread.win_reset (k : Fin 64) (h : k.val < 32) : Thread.reset.win[k] = ⟨BitVec.ofNat 10 (32 * k.val), 32⟩ := by
  have e : Thread.reset.win[k] = resetWin k.val := by simp [Thread.reset]
  rw [e, resetWin, if_pos h, Nat.mul_comm]

/-- Settles O14: nothing is listed at reset, so every thread and pair reads as its record of reset values. -/
theorem reset : Obligations.Reset := by
  unfold Obligations.Reset
  refine ⟨⟨rfl, rfl, rfl⟩, fun n l => ?_⟩
  rw [State.th_reset, State.pair_reset]
  refine ⟨?_, rfl, rfl, rfl, rfl, ?_, ?_, Thread.win_reset⟩
  · decide
  · intro k; simp [Thread.reset]
  · intro k; simp [Thread.reset]

/-! ## Zeroing register storage: 03 R77, R88 -/

theorem mapGet_filter {α : Type} (d : α) (p : Nat → Bool) (l : List (Nat × α)) (k : Nat) :
    mapGet d (l.filter fun e => p e.1) k = if p k then mapGet d l k else d := by
  induction l with
  | nil => simp [mapGet]
  | cons e t ih =>
    obtain ⟨j, v⟩ := e
    rw [List.filter_cons]
    by_cases hk : k = j
    · subst hk
      cases hp : p k <;> simp [mapGet, hp, ih]
    · cases p j <;> simp [mapGet, hk, ih]

/-- A byte of a zeroed range reads 0, every other byte as before. -/
theorem cellGet_cellsZero (m : List Host.Cell) (a n k : Nat) :
    cellGet (cellsZero m a n) k = if a ≤ k ∧ k < a + n then 0 else cellGet m k := by
  have e : cellGet (cellsZero m a n) k = if decide (k < a) || decide (a + n ≤ k) then cellGet m k else 0 :=
    mapGet_filter 0 (fun j => decide (j < a) || decide (a + n ≤ j)) m k
  rw [e]
  by_cases h : a ≤ k ∧ k < a + n
  · rw [if_pos h, if_neg (by simp; omega)]
  · rw [if_neg h, if_pos (by simp; omega)]

/-- Whether a key lies in one of several ranges of register storage, each a first key and a length. -/
def InRanges (rs : List (Nat × Nat)) (k : Nat) : Prop := ∃ r ∈ rs, r.1 ≤ k ∧ k < r.1 + r.2

theorem inRanges_nil (k : Nat) : ¬ InRanges [] k := fun ⟨_, hr, _⟩ => List.not_mem_nil hr

theorem inRanges_cons (r : Nat × Nat) (rs : List (Nat × Nat)) (k : Nat) :
    InRanges (r :: rs) k ↔ (r.1 ≤ k ∧ k < r.1 + r.2) ∨ InRanges rs k := by
  simp [InRanges]

theorem inRanges_flatMap {α : Type} (l : List α) (f : α → List (Nat × Nat)) (k : Nat) :
    InRanges (l.flatMap f) k ↔ ∃ i ∈ l, InRanges (f i) k := by
  simp only [InRanges, List.mem_flatMap]
  exact ⟨fun ⟨r, ⟨i, hi, hr⟩, hk⟩ => ⟨i, hi, r, hr, hk⟩, fun ⟨i, hi, r, hr, hk⟩ => ⟨r, ⟨i, hi, hr⟩, hk⟩⟩

/-- Zeroes ranges of register storage in turn. -/
def State.zeroRanges (s : State) (rs : List (Nat × Nat)) : State := rs.foldl (fun (s : State) r => s.zeroReg r.1 r.2) s

theorem State.zeroRanges_only (s : State) (rs : List (Nat × Nat)) : s.OnlyRegs (s.zeroRanges rs) :=
  onlyRegs_foldl _ (fun _ _ => State.zeroReg_only ..) _ _

theorem State.cellGet_zeroRanges (s : State) (rs : List (Nat × Nat)) (k : Nat) :
    (InRanges rs k → cellGet (s.zeroRanges rs).regs k = 0) ∧
    (¬ InRanges rs k → cellGet (s.zeroRanges rs).regs k = cellGet s.regs k) := by
  induction rs generalizing s with
  | nil => exact ⟨fun h => absurd h (inRanges_nil k), fun _ => rfl⟩
  | cons r rs ih =>
    obtain ⟨hin, hout⟩ := ih (s.zeroReg r.1 r.2)
    have first : cellGet (s.zeroReg r.1 r.2).regs k = if r.1 ≤ k ∧ k < r.1 + r.2 then 0 else cellGet s.regs k :=
      cellGet_cellsZero ..
    rw [inRanges_cons]
    by_cases hk : InRanges rs k
    · exact ⟨fun _ => hin hk, fun h => absurd (.inr hk) h⟩
    · constructor
      · rintro (h | h)
        · exact (hout hk).trans (by rw [first, if_pos h])
        · exact absurd h hk
      · intro h
        exact (hout hk).trans (by rw [first, if_neg fun h' => h (.inl h')])

theorem State.mem_regBad_zeroRanges (s : State) (rs : List (Nat × Nat)) (k : Nat) :
    k ∈ (s.zeroRanges rs).regBad ↔ k ∈ s.regBad ∧ ¬ InRanges rs k := by
  induction rs generalizing s with
  | nil => simp [State.zeroRanges, InRanges]
  | cons r rs ih =>
    have first : k ∈ (s.zeroReg r.1 r.2).regBad ↔ k ∈ s.regBad ∧ ¬ (r.1 ≤ k ∧ k < r.1 + r.2) := by
      simp only [State.zeroReg, List.mem_filter, Bool.not_eq_true', Bool.and_eq_false_iff, decide_eq_false_iff_not, Decidable.not_and_iff_not_or_not]
    rw [inRanges_cons, not_or, ← and_assoc, ← first]
    exact ih (s.zeroReg r.1 r.2)

/-- The ranges of one lane of the moving thread: its main slice, its near-bank registers and, where asked, its masks. -/
def State.laneRanges (s : State) (masks : Bool) (i : Nat) : List (Nat × Nat) :=
  let pp := s.physPair s.myL
  let pl := s.physLane s.myL (s.laneOf s.tid i)
  (regKey pp (mainOff pl), 8192) :: (regKey pp (nearOff pl), 2048) :: if masks then [(regKey pp (maskOff pl), 2048)] else []

/-- The ranges of all lanes the moving thread holds. -/
def State.heldRanges (s : State) (masks : Bool) : List (Nat × Nat) :=
  (List.range (s.lanes s.tid)).flatMap (s.laneRanges masks)

theorem State.inRanges_heldRanges (s : State) (masks : Bool) (k : Nat) : InRanges (s.heldRanges masks) k ↔ s.laneByte masks k := by
  simp only [State.heldRanges, inRanges_flatMap, List.mem_range, State.laneByte, State.laneRanges, inRanges_cons]
  cases masks <;> simp [inRanges_nil, inRanges_cons]

/-- Where a lane lies does not depend on register storage. -/
theorem State.OnlyRegs.physLane {s u : State} (h : s.OnlyRegs u) (l i : Nat) : u.physLane l i = s.physLane l i := by rw [h]; rfl
theorem State.OnlyRegs.laneOf {s u : State} (h : s.OnlyRegs u) (n i : Nat) : u.laneOf n i = s.laneOf n i := by rw [h]; rfl
theorem State.OnlyRegs.lanes {s u : State} (h : s.OnlyRegs u) (n : Nat) : u.lanes n = s.lanes n := by rw [h]; rfl

/-- Folds whose steps agree wherever only register storage has changed. -/
theorem foldl_eq_of_onlyRegs {α : Type} (s : State) (f g : State → α → State) (h : ∀ u a, s.OnlyRegs u → f u a = g u a)
    (hg : ∀ (u : State) (a : α), u.OnlyRegs (g u a)) (l : List α) (u : State) (hu : s.OnlyRegs u) : l.foldl f u = l.foldl g u := by
  induction l generalizing u with
  | nil => rfl
  | cons a l ih =>
    rw [List.foldl_cons, List.foldl_cons, h u a hu]
    exact ih _ (hu.trans (hg u a))

/-- Zeroing the lanes is zeroing their ranges: the lanes lie where they lay before the first of them was zeroed. -/
theorem State.zeroLanes_eq (s : State) (masks : Bool) : s.zeroLanes s.tid masks = s.zeroRanges (s.heldRanges masks) := by
  unfold State.zeroLanes State.zeroRanges State.heldRanges
  rw [List.foldl_flatMap]
  refine foldl_eq_of_onlyRegs s _ _ (fun u i hu => ?_) (fun u i => u.zeroRanges_only _) _ s (State.OnlyRegs.refl s)
  rw [hu.physLane, hu.laneOf]
  cases masks <;> rfl

/-- What zeroing the held lanes does (03 R77, R88). -/
theorem State.zeroLanes_zeroes (s : State) (masks : Bool) : s.Zeroes (s.zeroLanes s.tid masks) masks := by
  rw [State.zeroLanes_eq]
  refine ⟨s.zeroRanges_only _, fun k => ?_, fun k => ?_⟩
  · rw [← s.inRanges_heldRanges]; exact s.cellGet_zeroRanges _ k
  · rw [← s.inRanges_heldRanges]; exact s.mem_regBad_zeroRanges _ k

theorem State.zeroLanes_only (s : State) (masks : Bool) : s.OnlyRegs (s.zeroLanes s.tid masks) := (s.zeroLanes_zeroes masks).1

/-! ## setvl: 06 R155, R156, R158; 10 R229 -/

/-- The sum of the powers of two below 2 ^ n whose exponents have a property, as `reqGroups` forms it. -/
def powerSum (p : Nat → Prop) [DecidablePred p] (n : Nat) : Nat := (List.range n).foldl (fun a g => if p g then a + 2 ^ g else a) 0

theorem powerSum_succ (p : Nat → Prop) [DecidablePred p] (n : Nat) :
    powerSum p (n + 1) = if p n then powerSum p n + 2 ^ n else powerSum p n := by
  unfold powerSum
  rw [List.range_succ, List.foldl_append, List.foldl_cons, List.foldl_nil]

theorem powerSum_lt (p : Nat → Prop) [DecidablePred p] (n : Nat) : powerSum p n < 2 ^ n := by
  induction n with
  | zero => exact Nat.one_pos
  | succ n ih =>
    rw [powerSum_succ, Nat.pow_succ]
    split <;> omega

/-- A sum of distinct powers of two has the bits it was built from. -/
theorem testBit_powerSum (p : Nat → Prop) [DecidablePred p] (n g : Nat) (hg : g < n) : (powerSum p n).testBit g = decide (p g) := by
  induction n with
  | zero => exact absurd hg (Nat.not_lt_zero g)
  | succ n ih =>
    rw [powerSum_succ]
    rcases Nat.lt_succ_iff_lt_or_eq.mp hg with h | rfl
    · split
      · rw [Nat.add_comm, Nat.testBit_two_pow_add_gt h, ih h]
      · exact ih h
    · have top : (powerSum p g).testBit g = false := Nat.testBit_lt_two_pow (powerSum_lt p g)
      split
      · rename_i hp; rw [Nat.add_comm, Nat.testBit_two_pow_add_eq, top]; simp [hp]
      · rename_i hp; rw [top]; simp [hp]

theorem getLsbD_reqGroups (req : BitVec 16) (idx g : Nat) (hg : g < 8) :
    (reqGroups req idx).getLsbD g = (req.toNat / 4 ^ g % 4 == idx + 1) := by
  have e : reqGroups req idx = BitVec.ofNat 8 (powerSum (fun g => req.toNat / 4 ^ g % 4 = idx + 1) 8) := rfl
  rw [e, BitVec.getLsbD_ofNat, testBit_powerSum _ 8 g hg, decide_eq_true hg, Bool.true_and]
  rfl

/-- The held set after a setvl, group by group (06 R156). -/
theorem State.getLsbD_newHeld (s : State) (g : Nat) (hg : g < 8) : (s.newHeld s.tid).getLsbD g = grantedGroup s g := by
  unfold State.newHeld grantedGroup
  rw [BitVec.getLsbD_and, getLsbD_reqGroups _ _ _ hg, BitVec.getLsbD_or, BitVec.getLsbD_not, decide_eq_true hg, Bool.true_and]
  rfl

theorem State.newHeld_eq (s : State) (h : Byte) (hh : ∀ g, g < 8 → h.getLsbD g = grantedGroup s g) : s.newHeld s.tid = h :=
  BitVec.eq_of_getLsbD_eq fun g hg => (s.getLsbD_newHeld g hg).trans (hh g hg).symm

theorem State.repartition_same (s : State) (h : s.newHeld s.tid = s.held s.tid) : s.repartition s.tid = some s := by
  unfold State.repartition; simp only [h, if_true]

/-- The moving thread with its candidate lists emptied (03 R88). -/
def State.clearLists (z : State) : State := z.setMe { z.me with cl := Vector.replicate 8 0 }

/-- A change of lanes with nothing on its way to memory: the held set, then the storage of every lane now held, then CL (06 R156). -/
theorem State.repartition_changes (s : State) (h : s.newHeld s.tid ≠ s.held s.tid) (hp : s.pend = []) :
    s.repartition s.tid = some ((s.setHeld s.tid (s.newHeld s.tid)).zeroLanes s.tid true).clearLists := by
  have tid : ((s.setHeld s.tid (s.newHeld s.tid)).zeroLanes s.tid true).tid = s.tid :=
    (State.zeroLanes_only (s.setHeld s.tid (s.newHeld s.tid)) true).tid
  unfold State.repartition State.clearLists State.setMe State.me
  simp only [h, if_false, s.drain_nil _ hp, tid]

/-- VLMAX written out (03 R82; 08 R191). -/
theorem Thread.vlmax_eq (t : Thread) (lanes : Nat) : t.vlmax lanes =
    lanes * (8192 / (8 * 2 ^ t.ncfg.toNat) * 2 / codeNibbles (t.vty.toNat % 16)) * 2 ^ (t.vty.toNat / 16 % 4) := by
  simp [Thread.vlmax, Thread.nregs, Thread.et, Thread.group, bits]

/-- The state in which setvl's result is written: VL set, ES and the trim record cleared. -/
def State.withLength (u : State) (vl : Word) : State := u.setMe { u.me with vl := vl, trc := 0, tra := 0, es := 0 }

theorem exec_setvl (d n : BitVec 5) (s : State) : exec (.setvl d n) s = execSetvl d n s := rfl

/-- setvl with lanes, or with a request of 0. -/
theorem execSetvl_sets (s u : State) (d n : BitVec 5) (hu : s.repartition s.tid = some u) (h : u.sr n = 0 ∨ u.lanes u.tid ≠ 0) :
    let vl := w64 (Nat.min (u.sr n).toNat (u.me.vlmax (u.lanes u.tid)))
    execSetvl d n s = .next ((u.withLength vl).result d vl) := by
  have hw : ¬ (u.sr n ≠ 0 ∧ u.lanes u.tid = 0) := fun ⟨hn, hl⟩ => h.elim hn fun hl' => hl' hl
  unfold execSetvl
  rw [hu]
  simp only [if_neg hw]; rfl

/-- setvl without lanes for a request that is not 0 waits. -/
theorem execSetvl_waits (s u : State) (d n : BitVec 5) (hu : s.repartition s.tid = some u) (h : u.sr n ≠ 0) (hl : u.lanes u.tid = 0) :
    execSetvl d n s = .next u := by
  unfold execSetvl
  rw [hu]
  simp only [if_pos (And.intro h hl)]

/-- setvl's result, where the rest of the thread stands as `u` has it. -/
theorem State.withLength_result (u : State) (d : BitVec 5) (vl : Word) (h : u.me.replaying = false) :
    (u.withLength vl).WritesScalar ((u.withLength vl).result d vl) d vl := by
  apply State.result_writes
  rw [State.withLength, State.me_setMe, ← h]
  exact Thread.replaying_of _ _ rfl rfl rfl

/-! ## vcfg: 03 R77; 10 R230 -/

/-- With no binding there is nothing to write back. -/
theorem State.endBindings_none (s : State) (h : ∀ j : Nat, (s.me.binds[j]?).getD none = none) (l : List Nat) :
    State.endBindings l s = (.ok (), s) := by
  induction l with
  | nil => rfl
  | cons j l ih =>
    have e : s.endBinding j = (.ok (), s) := by unfold State.endBinding; rw [h j]
    unfold State.endBindings
    rw [e]; exact ih

theorem getElem_equalLayout (n : Nat) (win : Vector Win 64) (k : Nat) (h : k < 64) :
    (equalLayout n win)[k] = if k < n then ⟨BitVec.ofNat 10 (k * (1024 / n)), BitVec.ofNat 11 (1024 / n)⟩ else win[k] := by
  simp [equalLayout]

theorem exec_vcfg (c : BitVec 2) (s : State) : exec (.vcfg c) s = execVcfg c s := rfl

/-- vcfg with no binding: zeroed lanes, the new layout, and the next word. -/
theorem execVcfg_unbound (s : State) (c : BitVec 2) (hr : s.me.replaying = false) (hb : ∀ j : Nat, (s.me.binds[j]?).getD none = none) :
    execVcfg c s = .next ((s.zeroLanes s.tid false).setMe { s.me with
      ncfg := c, win := equalLayout (8 * 2 ^ c.toNat) s.me.win, cl := Vector.replicate 8 0, lastFault := none, pc := s.me.pc + 4 }) := by
  unfold execVcfg
  rw [s.endBindings_none hb]
  simp only [State.afterBinding, State.retire, State.me_setMe, State.setMe_setMe, (s.zeroLanes_only false).me]
  rw [Thread.retire_plain _ (by rw [← hr]; exact Thread.replaying_of _ _ rfl rfl rfl)]

/-! ## O27 -/

theorem State.clearLists_sr (z : State) (n : BitVec 5) : z.clearLists.sr n = z.sr n := by
  simp [State.clearLists, State.sr, Thread.sreg]

theorem State.clearLists_lanes (z : State) : z.clearLists.lanes z.clearLists.tid = z.lanes z.tid := by
  simp [State.clearLists, State.lanes]

theorem State.clearLists_vlmax (z : State) (lanes : Nat) : z.clearLists.me.vlmax lanes = z.me.vlmax lanes := by
  rw [Thread.vlmax_eq, Thread.vlmax_eq, State.clearLists, State.me_setMe]

theorem State.clearLists_replaying (z : State) : z.clearLists.me.replaying = z.me.replaying := by
  rw [State.clearLists, State.me_setMe]; exact Thread.replaying_of _ _ rfl rfl rfl

/-- Settles O27: setvl by the change of lanes it finds and by whether it waits, vcfg by its one path without bindings. -/
theorem setVectorLength : Obligations.SetVectorLength := by
  unfold Obligations.SetVectorLength
  refine ⟨fun s d n h hr hh => ?_, fun s c hr hb => ?_⟩
  · have hnew := s.newHeld_eq h hh
    refine ⟨fun he hv => ?_, fun he hn hl => ?_, fun he hp => ?_⟩
    · have hu := s.repartition_same (hnew.trans he)
      refine ⟨_, (exec_setvl d n s).trans (execSetvl_sets s s d n hu hv), ?_⟩
      rw [Thread.vlmax_eq]
      exact s.withLength_result d _ hr
    · have hu := s.repartition_same (hnew.trans he)
      exact ⟨s, (exec_setvl d n s).trans (execSetvl_waits s s d n hu hn hl), rfl⟩
    · have hu := s.repartition_changes (hnew ▸ he) hp
      rw [hnew] at hu
      have hz : (s.setHeld s.tid h).Zeroes ((s.setHeld s.tid h).zeroLanes s.tid true) true := State.zeroLanes_zeroes ..
      generalize (s.setHeld s.tid h).zeroLanes s.tid true = z at hu hz
      have only : (s.setHeld s.tid h).OnlyRegs z := hz.1
      have me : z.me = s.me := only.me
      have sr : z.clearLists.sr n = s.sr n := by rw [z.clearLists_sr, State.sr, me, State.sr]
      have lanes : z.clearLists.lanes z.clearLists.tid = (s.setHeld s.tid h).lanes s.tid := by
        rw [z.clearLists_lanes, only.tid]; exact only.lanes _
      refine ⟨fun hv => ?_, fun hn hl => ?_⟩
      · refine ⟨_, (exec_setvl d n s).trans (execSetvl_sets s _ d n hu (by rwa [sr, lanes])), z, hz, ?_⟩
        rw [sr, lanes, z.clearLists_vlmax, me, Thread.vlmax_eq]
        exact z.clearLists.withLength_result d _ (by rw [z.clearLists_replaying, me, hr])
      · exact ⟨_, (exec_setvl d n s).trans (execSetvl_waits s _ d n hu (by rwa [sr]) (by rwa [lanes])), z, hz, rfl⟩
  · exact ⟨_, (exec_vcfg c s).trans (execVcfg_unbound s c hr hb), _, _, s.zeroLanes_zeroes false, getElem_equalLayout _ _, rfl⟩

/-! ## Streams: 03 R97; 11 R261, R262 -/

theorem exec_vbind (d : BitVec 6) (n : BitVec 5) (s : State) : exec (.vbind d n) s = execVbind d n s := rfl
theorem exec_vunbind (d : BitVec 6) (s : State) : exec (.vunbind d) s = execVunbind d s := rfl
theorem exec_vbpos (d : BitVec 6) (n : BitVec 5) (s : State) : exec (.vbpos d n) s = execVbpos d n s := rfl

/-- An illegal instruction outside a handler enters it with its sub-cause above the word (08 R195). -/
theorem State.illegal_traps (s : State) (word : BitVec 32) (sub : IllegalSub) (h : ¬ s.InHandler) :
    s.TrapsTo (s.illegal word sub) 12 sub.code.toNat (w64 (sub.code.toNat * 2 ^ 32 + word.toNat)) s.me.pc := by
  have hsub : sub.code.toNat % 8 = sub.code.toNat := Nat.mod_eq_of_lt sub.code.isLt
  unfold State.illegal
  rw [s.trap_enters _ _ _ h, Thread.enterTrap, hsub]
  rfl

theorem Thread.absentCode_iff (t : Thread) (d : BitVec 6) : t.absentCode d = true ↔ t.nregs ≤ d.toNat ∧ d.toNat < 56 := by
  simp [Thread.absentCode]

theorem Thread.absentCode_eq_false (t : Thread) (d : BitVec 6) (h : ¬ (t.nregs ≤ d.toNat ∧ d.toNat < 56)) : t.absentCode d = false :=
  Bool.eq_false_iff.mpr fun ha => h ((t.absentCode_iff d).mp ha)

/-- A bound register is one the layout has. -/
theorem Thread.boundSlot_present (t : Thread) (d : BitVec 6) (j : Nat) (h : t.boundSlot d = some j) : t.absentCode d = false := by
  apply t.absentCode_eq_false
  rintro ⟨hd, -⟩
  rw [Thread.boundSlot, if_pos hd] at h
  exact absurd h (by simp)

/-- A translation that succeeds leaves the thread. -/
theorem State.me_of_reaches {s u : State} {va : Word} {n : Nat} {use : Use} {p : Phys} (h : s.Reaches va n use p u) : u.me = s.me :=
  (State.translate_marks _ _ _ _ _ _ _ h.1).me

/-- A load of the moving thread from a quiet memory gives memory's bytes. -/
theorem State.scalarLoad_quiet (s u : State) (va : Word) (n : Nat) (nf counted : Bool) (p : Phys)
    (h : s.Reaches va n .load p u) (hq : u.Quiet) : s.scalarLoad va n nf counted = (.ok (u.bytes p.pa n), u) := by
  obtain ⟨ht, ho, hh, hg⟩ := h
  obtain ⟨w, -, hread⟩ := readPlaced_quiet u hq u.tid nf ⟨⟨va, n, n, .load⟩, p⟩ ho hg ⟨[], []⟩ (fun _ hm => absurd hm List.not_mem_nil)
  have hrep : u.replies u.tid [] = (some [], u) := rfl
  have hhot : u.countHot (u.who u.tid) 0 [(0, [⟨⟨va, n, n, .load⟩, p⟩])] = u :=
    u.countElem_none _ 0 _ (by simpa using hh)
  unfold State.scalarLoad
  rw [ht]
  simp only [ho, Bool.false_eq_true, if_false, hrep, hread, hhot, ite_self]

/-- A thread's free binding slots. -/
def Thread.freeSlots (t : Thread) : List Nat := (List.range 8).filter fun j => ((t.binds[j]?).getD none).isNone

theorem Thread.mem_freeSlots (t : Thread) (j : Nat) : j ∈ t.freeSlots ↔ j < 8 ∧ (t.binds[j]?).getD none = none := by
  simp [Thread.freeSlots]

/-- A new binding goes into one of the free slots (log entry 20). -/
theorem State.takeSlot_free (s : State) (b : Bind) (h : ∃ j < 8, (s.me.binds[j]?).getD none = none) :
    ∃ j < 8, (s.me.binds[j]?).getD none = none ∧
      s.takeSlot b = { s with freeCtr := s.freeCtr + 1 }.setMe { s.me with binds := s.me.binds.setIfInBounds j (some b) } := by
  obtain ⟨i, hi⟩ := h
  have hpos : 0 < s.me.freeSlots.length := List.length_pos_of_mem ((s.me.mem_freeSlots i).mpr hi)
  have hlt := Nat.mod_lt (Config.freeWord s.freeCtr).toNat hpos
  obtain ⟨hj8, hj⟩ := (s.me.mem_freeSlots _).mp (List.getElem_mem hlt)
  refine ⟨_, hj8, hj, ?_⟩
  rw [← Option.getD_some (a := s.me.freeSlots[_]) (b := 0), ← List.getElem?_eq_getElem hlt]
  rfl

/-- A slot is free, so not all are taken. -/
theorem Thread.binds_notAll (t : Thread) (h : ∃ j < 8, (t.binds[j]?).getD none = none) : t.binds.toList.all (·.isSome) = false := by
  obtain ⟨j, hj, hn⟩ := h
  rw [Vector.getElem?_eq_getElem hj, Option.getD_some] at hn
  rw [List.all_eq_false]
  exact ⟨none, by rw [← hn]; exact Vector.mem_toList_iff.mpr (Vector.getElem_mem hj), by simp⟩

/-- Outside a replay an instruction that changed the thread alone completes at the next word. -/
theorem State.setMe_retire (s : State) (t : Thread) (h : t.replaying = false) :
    (s.setMe t).retire = s.setMe { t with lastFault := none, pc := t.pc + 4 } := by
  rw [State.retire, State.me_setMe, Thread.retire_plain _ h, State.setMe_setMe]

/-- vbind of an unbound register whose record passes the checks. -/
theorem execVbind_binds (s u : State) (d : BitVec 6) (n : BitVec 5) (p : Phys)
    (hd : d.toNat < s.me.nregs) (hb : s.me.boundSlot d = none) (h : s.Reaches (s.sr n) 64 .load p u) (hq : u.Quiet)
    (hok : bindBad (u.bytes p.pa 64) = false) (hfree : ∃ j < 8, (s.me.binds[j]?).getD none = none) :
    execVbind d n s = .next (u.takeSlot (Bind.ofRecord (u.bytes p.pa 64) (s.sr n) d)).retire := by
  have me : u.me = s.me := State.me_of_reaches h
  have hall : u.me.binds.toList.all (·.isSome) = false := u.me.binds_notAll (me ▸ hfree)
  unfold execVbind
  simp only [if_neg (Nat.not_le.mpr hd), hb]
  unfold State.bindRecord
  rw [s.scalarLoad_quiet u (s.sr n) 64 false true p h hq]
  simp only [State.finish, Option.map_none, overPos, Option.isNone_none, hall, hok, Bool.and_false, Bool.false_eq_true, if_false,
    State.afterBinding]

/-- The write-back of a slot whose record's POS passes every check: it stands committed, and the slot is free (11 R262). -/
theorem State.endBinding_reaches (s u : State) (j : Nat) (b : Bind) (p : Phys) (hj : (s.me.binds[j]?).getD none = some b)
    (h : s.Reaches (b.recAddr + 0x18) 8 .store p u) :
    s.endBinding j = (.ok (), (u.commit u.tid 8 (b.recAddr + 0x18) p.pa (.store (leBytes 8 b.pos.toNat)) false false).setMe
      { u.me with binds := u.me.binds.setIfInBounds j none }) := by
  unfold State.endBinding
  rw [hj]
  simp only [h.1]
  rfl

/-- vunbind of a bound register. -/
theorem execVunbind_bound (s u : State) (d : BitVec 6) (j : Nat) (b : Bind) (p : Phys) (hr : s.me.replaying = false)
    (hd : s.me.boundSlot d = some j) (hj : (s.me.binds[j]?).getD none = some b) (h : s.Reaches (b.recAddr + 0x18) 8 .store p u) :
    ∃ t, execVunbind d s = .next t ∧
      (u.setMe { u.me with binds := u.me.binds.setIfInBounds j none }).Stores t p.pa (leBytes 8 b.pos.toNat) false := by
  have me : u.me = s.me := State.me_of_reaches h
  have hru : ({ u.me with binds := u.me.binds.setIfInBounds j none } : Thread).replaying = false := by
    rw [← hr, ← me]; exact Thread.replaying_of _ _ rfl rfl rfl
  obtain ⟨q, hq, hseq, htid, haddr, hop, hslice, hafter⟩ :=
    u.commit_appends u.tid 8 (b.recAddr + 0x18) p.pa (.store (leBytes 8 b.pos.toNat)) false false
  unfold execVunbind
  rw [s.me.boundSlot_present d j hd, hd]
  simp only [Bool.false_eq_true, if_false, s.endBinding_reaches u j b p hj h, State.afterBinding]
  rw [State.setMe_retire _ _ hru, hq]
  refine ⟨_, rfl, q, ?_, hseq, htid, haddr, hop, hslice, ?_, fun a => ?_⟩
  · rw [State.me_setMe, State.setMe_setMe]; rfl
  · rw [State.me_setMe]; exact hafter
  · rfl

/-- Settles O41: each instruction by whether the register is absent, bound or free. -/
theorem streams : Obligations.Streams := by
  unfold Obligations.Streams
  intro s u d n p j b hr hh
  refine ⟨fun hd hs h hq hok hfree => ?_, fun hs hj => ⟨fun h => ?_, ?_⟩, fun ha hs => ⟨?_, ?_⟩, fun ha => ⟨?_, ?_, ?_⟩⟩
  · have me : u.me = s.me := State.me_of_reaches h
    obtain ⟨i, hi8, hi, htake⟩ := u.takeSlot_free (Bind.ofRecord (u.bytes p.pa 64) (s.sr n) d) (me ▸ hfree)
    refine ⟨_, (exec_vbind d n s).trans (execVbind_binds s u d n p hd hs h hq hok hfree), i, hi8, me ▸ hi, ?_⟩
    rw [htake]
    exact State.setMe_retire _ _ (by rw [← hr, ← me]; exact Thread.replaying_of _ _ rfl rfl rfl)
  · exact execVunbind_bound s u d j b p hr hs hj h
  · refine ⟨s.result n b.pos, ?_, s.result_writes n _ hr⟩
    rw [exec_vbpos, execVbpos, s.me.boundSlot_present d j hs, hs]
    simp only [hj, Bool.false_eq_true, if_false]
  · have hna := s.me.absentCode_eq_false d ha
    refine ⟨s.retire, ?_, s.retire_goes hr⟩
    rw [exec_vunbind, execVunbind, hna, hs]; rfl
  · have hna := s.me.absentCode_eq_false d ha
    refine ⟨s.result n (BitVec.allOnes 64), ?_, s.result_writes n _ hr⟩
    rw [exec_vbpos, execVbpos, hna, hs]; rfl
  · refine ⟨_, rfl, _, ?_, s.illegal_traps (Enc.vbind d n) .absentRegister hh⟩
    rw [exec_vbind, execVbind]
    simp only [if_pos ha.1, if_pos ha.2]
  · refine ⟨_, rfl, _, ?_, s.illegal_traps (Enc.vunbind d) .absentRegister hh⟩
    rw [exec_vunbind, execVunbind, if_pos ((s.me.absentCode_iff d).mpr ha)]
  · refine ⟨_, rfl, _, ?_, s.illegal_traps (Enc.vbpos d n) .absentRegister hh⟩
    rw [exec_vbpos, execVbpos, if_pos ((s.me.absentCode_iff d).mpr ha)]

end Sys2Proof.Machine
end

section
/-! Engine commands (05 R131; 15 R312, R317): what ecopy does on a timeline without a number left. -/

namespace Sys2Proof.Machine

/-! ## An exhausted timeline: 05 R131 -/

theorem exec_ecopy (n d : BitVec 5) (s : State) : exec (.ecopy n d) s = execEcopy n d s := rfl

theorem State.takeNumber_exhausted (s : State) (tid ctx : Nat) (h : 2 ^ 64 ≤ ((s.th tid).timeline ctx).last + 1) :
    s.takeNumber tid ctx = none := if_pos h

/-- An ecopy that finds no number left traps before it reads its record. -/
theorem execEcopy_exhausted (s : State) (n d : BitVec 5) (h : 2 ^ 64 ≤ (s.me.timeline 0).last + 1) :
    execEcopy n d s = .next (s.trap cCapacity 0 0) := by
  unfold execEcopy
  rw [s.takeNumber_exhausted s.tid 0 h]
  rfl

/-- A trap outside a handler hands no request to a port or link. -/
theorem State.trap_obs (s : State) (cause sub : Nat) (value : Word) (h : ¬ s.InHandler) : (s.trap cause sub value).obs = s.obs := by
  rw [s.trap_enters cause sub value h, State.setMe_obs]

/-! ## A NEST record outside the module, and no number left -/

/-- A cached page: the GiB of virtual addresses from 2^30 is the first GiB of host port 0. -/
def hostPage : Tlb where
  die := 0
  part := 0
  asn := 0
  vbase := 0x40000000
  size := 3
  pbase := 0x8000000000000
  gbase := 0x40000000
  s2base := 0
  s2size := 3
  r := true
  w := true
  x := true
  u := true
  d := true
  kind := 2
  nm := false
  hs := false

/-- A copy of 4 bytes between two places of the scratchpad, in two dimensions; its NEST record is the first of `hostPage` (15 R316). -/
def hostNestCopy : List Byte :=
  leBytes 8 0x00FF000000000040 ++ leBytes 8 0x00FF000000000080 ++ leBytes 8 0 ++ leBytes 8 0x40000000 ++ leBytes 4 4 ++ leBytes 4 1 ++
    List.replicate 16 0 ++ [1] ++ List.replicate 7 0

/-- Where the copy's record lies: the first byte of the scratchpad of pair 0. -/
def copyPlace : Phys := ⟨scratchBase 0, 4, false, false, 0, 0, none⟩

/-- Thread 0 of pair 0 at level U, s1 naming that copy, every number of its copy timeline taken and performed. -/
def spentCopier : State :=
  { State.reset with
    pairs := [(0, { Pair.reset with part := some 0 })]
    parts := [(0, { Part.reset with mode := .active, pairs := 1, gplim := 0x10000000000000 })]
    threads := [(0, { (Thread.reset.setS 1 0x00FF000000000000).setTimeline 0 ⟨2 ^ 64 - 1, 2 ^ 64 - 1, []⟩ with run := .running })]
    tlb := [hostPage]
    tlb1 := [(0, hostPage)] }.putBytes (scratchBase 0) hostNestCopy

theorem spentCopier_exhausted : 2 ^ 64 ≤ (spentCopier.me.timeline 0).last + 1 := by decide +kernel

theorem spentCopier_outside_handler : ¬ spentCopier.InHandler := by decide +kernel

theorem spentCopier_reaches : spentCopier.Reaches (spentCopier.sr 1) 64 .load copyPlace spentCopier := by decide +kernel

/-- No pair has a scoreboard entry, so no address is held. -/
theorem spentCopier_quiet : spentCopier.Quiet := by
  refine ⟨rfl, rfl, fun a => ?_⟩
  unfold State.boardAt
  split
  · rfl
  · rfl

/-- Asking for the copy's NEST record sends the host one request. -/
theorem spentCopier_asks : ∃ u, spentCopier.askNests [spentCopier.bytes copyPlace.pa 64] = (true, u) ∧ u.obs ≠ spentCopier.obs :=
  ⟨_, Prod.ext (by decide +kernel) rfl, by decide +kernel⟩

/-- Refutes O48: the clause that ecopy first asks for a NEST record outside the module does not require a number to be left, as every other clause
does. On an exhausted copy timeline ecopy traps with cause capacity before any access (05 R131), so it leaves no request to the host. -/
theorem not_commandsAccepted : ¬ Obligations.CommandsAccepted := by
  unfold Obligations.CommandsAccepted
  intro h
  obtain ⟨hrecord, -, -⟩ := h spentCopier spentCopier spentCopier 1 3 copyPlace copyPlace (by decide +kernel) spentCopier_quiet
  obtain ⟨⟨-, -, -, hasks, -⟩, -, -⟩ := hrecord spentCopier_reaches
  obtain ⟨u, hmissing, hsent⟩ := spentCopier_asks
  obtain ⟨t, hexec, hasked⟩ := hasks u hmissing
  have htraps : t = spentCopier.trap cCapacity 0 0 := by
    rw [exec_ecopy, execEcopy_exhausted _ _ _ spentCopier_exhausted] at hexec
    injection hexec with e
    exact e.symm
  have hobs : t.obs = spentCopier.obs := by rw [htraps, State.trap_obs _ _ _ _ spentCopier_outside_handler]
  exact hsent (hasked ▸ hobs)

end Sys2Proof.Machine
end

section
/-! The queues of a thread (06 R153; 09 R216): qpush to Q0 and to the neighbours, qpop from Q1 and from what the neighbours sent. -/

namespace Sys2Proof.Machine

theorem exec_qpush (n : BitVec 5) (q : BitVec 2) (s : State) : exec (.qpush n q) s = execQpush n q s := rfl
theorem exec_qpop (d : BitVec 5) (q : BitVec 2) (s : State) : exec (.qpop d q) s = execQpop d q s := rfl

/-! ## A drain that is asked for nothing: 04 R121 -/

theorem drainSet_eq_nil (need : Pend → Bool) (l : List Pend) (h : ∀ p ∈ l, need p = false) : drainSet need l = [] := by
  induction l with
  | nil => rfl
  | cons p l ih =>
    have hl : drainSet need l = [] := ih fun q hq => h q (List.mem_cons_of_mem p hq)
    have step : drainSet need (p :: l) =
        if need p || (drainSet need l).any (fun q => p.before q) then p :: drainSet need l else drainSet need l := rfl
    rw [step, hl, h p List.mem_cons_self]; rfl

/-- A drain that names none of the writes on their way performs none. -/
theorem State.drain_unneeded (s : State) (need : Pend → Bool) (h : ∀ p ∈ s.pend, need p = false) : s.drain need = some s := by
  unfold State.drain
  rw [drainSet_eq_nil need s.pend h]; rfl

/-- A push to a neighbour goes on at once when nothing that the thread's release fence puts first is pending (04 R130). -/
theorem State.pushAfter_free (s : State) (k : State → State)
    (h : ∀ p ∈ s.pend, (p.ownOrdered s.tid = true → s.me.barrier ≤ p.seq) ∧ s.me.fwdBar.contains p.seq = false) :
    s.pushAfter k = k s := by
  have hd := s.drain_unneeded (fun p => (p.ownOrdered s.tid && decide (p.seq < s.me.barrier)) || s.me.fwdBar.contains p.seq) fun p hp => by
    obtain ⟨hown, hfwd⟩ := h p hp
    rw [hfwd, Bool.or_false, Bool.and_eq_false_imp]
    exact fun ho => decide_eq_false (Nat.not_lt.mpr (hown ho))
  unfold State.pushAfter
  simp only [hd]

/-! ## qpush -/

/-- A change of another thread leaves the moving one. -/
theorem State.me_setTh_ne (s : State) (n : Nat) (t : Thread) (h : n ≠ s.tid) : (s.setTh n t).me = s.me := s.th_setTh_ne n s.tid t h.symm

/-- An instruction that changed another thread alone completes at the next word. -/
theorem State.setTh_ne_retire (s : State) (n : Nat) (t : Thread) (h : n ≠ s.tid) (hr : s.me.replaying = false) :
    (s.setTh n t).retire = (s.setTh n t).setMe { s.me with lastFault := none, pc := s.me.pc + 4 } := by
  rw [State.retire, s.me_setTh_ne n t h, Thread.retire_plain _ hr]

theorem execQpush_q0 (n : BitVec 5) (s : State) : execQpush n 0 s =
    .next (if s.me.q0.length < 32 then (s.setMe { s.me with q0 := s.me.q0 ++ [s.sr n] }).retire else s) := rfl

theorem execQpush_east (n : BitVec 5) (s : State) : execQpush n 2 s =
    let e := s.neighbour true
    .next (if (s.th e).fromW.length < 16 then
      s.pushAfter fun s => (s.setTh e { s.th e with fromW := (s.th e).fromW ++ [s.sr n] }).retire else s) := rfl

theorem execQpush_west (n : BitVec 5) (s : State) : execQpush n 3 s =
    let w := s.neighbour false
    .next (if (s.th w).fromE.length < 16 then
      s.pushAfter fun s => (s.setTh w { s.th w with fromE := (s.th w).fromE ++ [s.sr n] }).retire else s) := rfl

/-! ## qpop -/

/-- A pop of a queue's oldest entry into a scalar register, `left` the thread with what is left of the queue; an empty queue blocks it. -/
def State.popOf (s : State) (d : BitVec 5) (queue : List Word) (left : List Word → Thread) : State :=
  match queue with
  | v :: rest => (s.setMe (left rest)).result d v
  | [] => s

theorem execQpop_q1 (d : BitVec 5) (s : State) : execQpop d 1 s = .next (s.popOf d s.me.q1 fun r => { s.me with q1 := r }) := rfl
theorem execQpop_east (d : BitVec 5) (s : State) : execQpop d 2 s = .next (s.popOf d s.me.fromE fun r => { s.me with fromE := r }) := rfl
theorem execQpop_west (d : BitVec 5) (s : State) : execQpop d 3 s = .next (s.popOf d s.me.fromW fun r => { s.me with fromW := r }) := rfl

/-- What a qpop does with the queue it names: it takes the oldest entry, or blocks. -/
theorem State.popOf_completes {s : State} {d : BitVec 5} {q : BitVec 2} {queue : List Word} {left : List Word → Thread}
    (he : execQpop d q s = .next (s.popOf d queue left)) (hr : ∀ r, (left r).replaying = false) (v : Word) (rest : List Word) :
    (queue = v :: rest → Completes (.qpop d q) s fun t => (s.setMe (left rest)).WritesScalar t d v) ∧
    (queue = [] → Completes (.qpop d q) s fun t => t = s) := by
  refine ⟨?_, ?_⟩
  · rintro rfl
    exact ⟨_, (exec_qpop d q s).trans he, (s.setMe (left rest)).result_writes d v (by rw [State.me_setMe]; exact hr rest)⟩
  · rintro rfl
    exact ⟨_, (exec_qpop d q s).trans he, rfl⟩

/-- Settles O18: qpush by its queue and by whether that is full, qpop by its queue and by whether that is empty. (`queues` names the model's
test for words of the vector instruction queue.) -/
theorem queuesHold : Obligations.Queues := by
  unfold Obligations.Queues
  refine ⟨fun s n hr => ⟨fun h => ?_, fun h => ?_, fun h hne hfree => ?_, fun h => ?_, fun h hne hfree => ?_, fun h => ?_⟩,
    fun s d v rest hr => ?_⟩
  · refine ⟨_, (exec_qpush n 0 s).trans (execQpush_q0 n s), ?_⟩
    rw [if_pos h]
    exact State.setMe_retire _ _ ((Thread.replaying_of _ _ rfl rfl rfl).trans hr)
  · exact ⟨_, (exec_qpush n 0 s).trans (execQpush_q0 n s), if_neg (Nat.not_lt.mpr h)⟩
  · refine ⟨_, (exec_qpush n 2 s).trans (execQpush_east n s), ?_⟩
    rw [if_pos h, s.pushAfter_free _ hfree, s.setTh_ne_retire _ _ hne hr]
  · exact ⟨_, (exec_qpush n 2 s).trans (execQpush_east n s), if_neg (Nat.not_lt.mpr h)⟩
  · refine ⟨_, (exec_qpush n 3 s).trans (execQpush_west n s), ?_⟩
    rw [if_pos h, s.pushAfter_free _ hfree, s.setTh_ne_retire _ _ hne hr]
  · exact ⟨_, (exec_qpush n 3 s).trans (execQpush_west n s), if_neg (Nat.not_lt.mpr h)⟩
  · have kept (x : Thread) (h1 : x.rps = s.me.rps) (h2 : x.sup = s.me.sup) (h3 : x.tca = s.me.tca) : x.replaying = false :=
      (Thread.replaying_of s.me x h1 h2 h3).trans hr
    obtain ⟨takes1, blocks1⟩ := State.popOf_completes (execQpop_q1 d s) (fun _ => kept _ rfl rfl rfl) v rest
    obtain ⟨takesE, blocksE⟩ := State.popOf_completes (execQpop_east d s) (fun _ => kept _ rfl rfl rfl) v rest
    obtain ⟨takesW, blocksW⟩ := State.popOf_completes (execQpop_west d s) (fun _ => kept _ rfl rfl rfl) v rest
    exact ⟨takes1, blocks1, takesE, blocksE, takesW, blocksW⟩

end Sys2Proof.Machine
end

section
/-! Leaving tile mode and the end of a context (06 R157; 09 R221; 12 R266; 18 R380): what each leaves of the thread, its pair and the rest. -/

namespace Sys2Proof.Machine

theorem exec_kend (s : State) : exec .kend s = execKend s := rfl

@[simp] theorem State.setPair_setPair (s : State) (l : Nat) (p q : Pair) : (s.setPair l p).setPair l q = s.setPair l q := by
  simp [State.setPair, mapPut_mapPut]

/-! ## Leaving tile mode: 12 R266 -/

/-- A die whose governor has no request for tile mode from a thread, and no such leave granted to it. -/
def Die.withoutTileLeave (x : Die) (n : Nat) : Die := { x with
  waiting := x.waiting.filter fun r => !(r.tid == n && r.tile)
  granted := x.granted.filter fun r => !(r.tid == n && r.tile) }

/-- A thread without leave for tile mode, asked or held. -/
def Thread.withoutLeave (t : Thread) : Thread := { t with leave := false, leaveAsked := false }

/-- A thread out of tile mode, its shape cleared. -/
def Thread.outOfTile (t : Thread) : Thread := { t with tcr := t.tcr &&& ~~~2, tm := 0, tn := 0, tk := 0, leave := false, leaveAsked := false }

/-- A pair whose unit a thread does not hold. -/
def Pair.withoutUnit (p : Pair) (n : Nat) : Pair := { p with tmu := if p.tmu = some n then none else p.tmu }

theorem setBits_one_clear (w : Word) : setBits w 1 1 0 = w &&& ~~~2 := by simp [setBits]

theorem Thread.outOfTile_tile (t : Thread) : t.outOfTile.tile = false := by simp [Thread.outOfTile, Thread.tile]

theorem Pair.withoutUnit_tmu_ne (p : Pair) (n : Nat) : (p.withoutUnit n).tmu ≠ some n := by
  unfold Pair.withoutUnit
  split
  · simp
  · assumption

/-- Giving up leave changes the governor's lists at the thread's die and the thread's two marks. -/
theorem State.dropTileLeave_eq (s : State) (n : Nat) : s.dropTileLeave n =
    (s.setDie (pairOf n / 32) ((s.die (pairOf n / 32)).withoutTileLeave n)).setTh n (s.th n).withoutLeave := rfl

/-- Leaving tile mode changes the governor's lists, the thread, and who holds the unit. -/
theorem State.leaveTile_eq (s : State) (n : Nat) : s.leaveTile n =
    ((s.setDie (pairOf n / 32) ((s.die (pairOf n / 32)).withoutTileLeave n)).setTh n (s.th n).outOfTile).setPair (pairOf n)
      ((s.pair (pairOf n)).withoutUnit n) := by
  unfold State.leaveTile
  simp only [State.dropTileLeave_eq, State.th_setTh, State.setTh_setTh, Thread.setTmd, Bool.false_eq_true, if_false, setBits_one_clear]
  rfl

/-! ## The end of a context: 06 R157; 09 R221 -/

/-- A pair whose lane groups a thread has released. -/
def Pair.withoutLanes (p : Pair) (n : Nat) : Pair := if n % 2 = 0 then { p with held0 := 0 } else { p with held1 := 0 }

theorem Pair.withoutLanes_tmu (p : Pair) (n : Nat) : (p.withoutLanes n).tmu = p.tmu := by
  unfold Pair.withoutLanes; split <;> rfl

theorem State.setHeld_zero (s : State) (n : Nat) : s.setHeld n 0 = s.setPair (pairOf n) ((s.pair (pairOf n)).withoutLanes n) := rfl

/-- The thread whose context ends, and its pair, with tile mode, leave and lanes given up. -/
def Thread.relieved (t : Thread) : Thread := if t.tile then t.outOfTile else t.withoutLeave
def Pair.relieved (p : Pair) (n : Nat) (tile : Bool) : Pair := (if tile then p.withoutUnit n else p).withoutLanes n

/-- The first part of `State.endContext`: tile mode, leave, requests and lanes are given up. -/
def State.relieve (s : State) (n : Nat) : State :=
  ((if (s.th n).tile then s.leaveTile n else s.dropTileLeave n).dropRequests n).setHeld n 0

theorem State.relieve_eq (s : State) (n : Nat) : s.relieve n =
    (((s.setDie (pairOf n / 32) ((s.die (pairOf n / 32)).withoutTileLeave n)).setTh n (s.th n).relieved).setPair (pairOf n)
      ((s.pair (pairOf n)).relieved n (s.th n).tile)).dropRequests n := by
  have drop (u : State) (l : Nat) (p : Pair) : (u.setPair l p).dropRequests n = (u.dropRequests n).setPair l p := rfl
  unfold State.relieve Thread.relieved Pair.relieved
  cases (s.th n).tile with
  | true =>
    simp only [if_true, State.leaveTile_eq, drop, State.setHeld_zero, State.pair_setPair, State.setPair_setPair]
  | false => rfl

theorem State.relieve_mem (s : State) (n : Nat) : (s.relieve n).mem = s.mem := by rw [State.relieve_eq]; rfl
theorem State.relieve_regs (s : State) (n : Nat) : (s.relieve n).regs = s.regs := by rw [State.relieve_eq]; rfl
theorem State.relieve_pend (s : State) (n : Nat) : (s.relieve n).pend = s.pend := by rw [State.relieve_eq]; rfl
theorem State.relieve_cur (s : State) (n : Nat) : (s.relieve n).cur = s.cur := by rw [State.relieve_eq]; rfl
theorem State.relieve_th (s : State) (n : Nat) : (s.relieve n).th n = (s.th n).relieved := by
  rw [State.relieve_eq]; exact State.th_setTh ..
theorem State.relieve_th_ne (s : State) (n k : Nat) (h : k ≠ n) : (s.relieve n).th k = s.th k := by
  rw [State.relieve_eq]; exact State.th_setTh_ne _ _ _ _ h
theorem State.relieve_pair (s : State) (n : Nat) : (s.relieve n).pair (pairOf n) = (s.pair (pairOf n)).relieved n (s.th n).tile := by
  rw [State.relieve_eq]; exact State.pair_setPair ..

/-- What giving up tile mode leaves of a thread. -/
theorem Thread.relieved_keeps (t : Thread) : t.relieved.tile = false ∧ t.relieved.leave = false ∧ t.relieved.tca = t.tca ∧
    t.relieved.barrier = t.barrier ∧ t.relieved.s = t.s ∧ t.relieved.replay = t.replay := by
  unfold Thread.relieved
  split
  · exact ⟨t.outOfTile_tile, rfl, rfl, rfl, rfl, rfl⟩
  · rename_i h
    exact ⟨Bool.eq_false_iff.mpr h, rfl, rfl, rfl, rfl, rfl⟩

theorem Pair.relieved_tmu_ne (p : Pair) (n : Nat) : (p.relieved n true).tmu ≠ some n := by
  unfold Pair.relieved
  rw [Pair.withoutLanes_tmu]; exact p.withoutUnit_tmu_ne n

/-- A thread whose context has ended, with the pending replay it keeps (19 R397). -/
def Thread.ended (t : Thread) (kept : Option Replay) : Thread := { t with
  run := .free, ceHalted := false, refused := none, refAside := false, fullSave := false, waiting := false, noFetch := false, cut := 0, sup := false,
  tca := t.tca &&& ~~~(w64 (2 ^ 17)), rps := 0, toPost := [], replay := kept, debt := 0, vq := [] }

/-- The pending replay that stays with the thread: one for a context set aside from it (19 R397). -/
def State.keptReplay (u : State) (n : Nat) : Option Replay :=
  match (u.th n).replay, (u.pair (pairOf n)).part with
  | some r, some m =>
    if (u.part m).aside.any fun a => a.tid == n && a.waiting && a.fseq == r.token && a.fOwner == r.ownerQ then (u.th n).replay else none
  | _, _ => none

/-- Any other pending replay no longer applies and is counted (19 R397). -/
def State.countLost (u : State) (n : Nat) : State :=
  match (u.th n).replay, u.keptReplay n, (u.pair (pairOf n)).part with
  | some r, none, some m => u.replayLost m r
  | _, _, _ => u

/-- The iteration no longer holds its record back (18 R380). -/
def State.freeRecord (w : State) (n : Nat) (t : Thread) : State :=
  match (w.pair (pairOf n)).part with
  | some m => w.iterationDone m t.lq t.lrec t.iter
  | none => w

/-- The end of a context in its stages. -/
theorem State.endContext_eq (s : State) (n : Nat) :
    let u := s.relieve n
    s.endContext n = ((u.countLost n).setTh n ((u.th n).ended (u.keptReplay n))).freeRecord n (u.th n) := rfl

theorem State.replayLost_own (s : State) (part : Nat) (r : Replay) : s.OwnWrites (s.replayLost part r) := by
  unfold State.replayLost
  dsimp only
  split
  · rfl
  · exact State.bump_own ..

theorem State.countLost_own (u : State) (n : Nat) : u.OwnWrites (u.countLost n) := by
  unfold State.countLost
  split
  · exact State.replayLost_own ..
  · rfl

/-- With no replay pending there is none to count. -/
theorem State.countLost_none (u : State) (n : Nat) (h : (u.th n).replay = none) : u.countLost n = u := by
  unfold State.countLost
  rw [h]

theorem State.OwnWrites.pairs {s t : State} (h : s.OwnWrites t) : t.pairs = s.pairs := by rw [h]
theorem State.OwnWrites.regs {s t : State} (h : s.OwnWrites t) : t.regs = s.regs := by rw [h]

/-- Freeing the record changes the partition's table alone. -/
theorem State.freeRecord_eq (w : State) (n : Nat) (t : Thread) : ∃ parts, w.freeRecord n t = { w with parts := parts } := by
  unfold State.freeRecord
  split
  · exact ⟨_, rfl⟩
  · exact ⟨_, rfl⟩

/-- The state at the end of a context, written out: what giving up left, the bytes a counted replay may change, the free thread and the partitions. -/
theorem State.endContext_cases (s : State) (n : Nat) : ∃ (v : State) (kept : Option Replay) (parts : List (Nat × Part)),
    (s.relieve n).OwnWrites v ∧ ((s.th n).replay = none → v = s.relieve n) ∧
    s.endContext n = { v.setTh n ((s.th n).relieved.ended kept) with parts := parts } := by
  obtain ⟨parts, hparts⟩ := ((s.relieve n).countLost n |>.setTh n (((s.relieve n).th n).ended ((s.relieve n).keptReplay n))).freeRecord_eq n
    ((s.relieve n).th n)
  refine ⟨(s.relieve n).countLost n, (s.relieve n).keptReplay n, parts, State.countLost_own .., fun h => ?_, ?_⟩
  · apply State.countLost_none
    rw [State.relieve_th]
    obtain ⟨-, -, -, -, -, hreplay⟩ := (s.th n).relieved_keeps
    rw [hreplay, h]
  · rw [State.endContext_eq, hparts, State.relieve_th]

theorem State.endContext_tid (s : State) (n : Nat) : (s.endContext n).tid = s.tid := by
  obtain ⟨v, kept, parts, hown, -, e⟩ := s.endContext_cases n
  have hcur : v.cur = s.cur := hown.cur.trans (s.relieve_cur n)
  unfold State.tid
  rw [e, ← hcur]; rfl

/-- The thread whose context ended: out of tile mode, without leave, free. -/
theorem State.endContext_th (s : State) (n : Nat) : ∃ kept, (s.endContext n).th n = (s.th n).relieved.ended kept := by
  obtain ⟨v, kept, parts, -, -, e⟩ := s.endContext_cases n
  refine ⟨kept, ?_⟩
  rw [e]; exact v.th_setTh n _

theorem State.endContext_th_ne (s : State) (n k : Nat) (h : k ≠ n) : (s.endContext n).th k = s.th k := by
  obtain ⟨v, kept, parts, hown, -, e⟩ := s.endContext_cases n
  rw [e, ← s.relieve_th_ne n k h, ← State.th_of_threads hown.threads k]
  exact v.th_setTh_ne n k _ h

/-- The pair of that thread: its unit and lane groups are released. -/
theorem State.endContext_pair (s : State) (n : Nat) :
    (s.endContext n).pair (pairOf n) = (s.pair (pairOf n)).relieved n (s.th n).tile := by
  obtain ⟨v, kept, parts, hown, -, e⟩ := s.endContext_cases n
  have hpair : v.pair (pairOf n) = (s.relieve n).pair (pairOf n) := by unfold State.pair; rw [hown.pairs]
  rw [e, ← s.relieve_pair n, ← hpair]; rfl

theorem State.endContext_regs (s : State) (n : Nat) : (s.endContext n).regs = s.regs := by
  obtain ⟨v, kept, parts, hown, -, e⟩ := s.endContext_cases n
  rw [e]; exact hown.regs.trans (s.relieve_regs n)

theorem State.endContext_pend (s : State) (n : Nat) : (s.endContext n).pend = s.pend := by
  obtain ⟨v, kept, parts, hown, -, e⟩ := s.endContext_cases n
  rw [e]; exact hown.pend.trans (s.relieve_pend n)

/-- With no replay pending none is counted, and no byte of memory changes (19 R397). -/
theorem State.endContext_mem (s : State) (n : Nat) (h : (s.th n).replay = none) : (s.endContext n).mem = s.mem := by
  obtain ⟨v, kept, parts, -, hnone, e⟩ := s.endContext_cases n
  rw [e, hnone h]; exact s.relieve_mem n

/-! ## The lanes a thread and its sibling hold: 06 R155, R157 -/

/-- The lane groups that a thread of a pair holds. -/
def Pair.heldBy (p : Pair) (n : Nat) : Byte := if n % 2 = 0 then p.held0 else p.held1

theorem State.held_eq (s : State) (n : Nat) : s.held n = (s.pair (pairOf n)).heldBy n := rfl

theorem pairOf_sibling (n : Nat) : pairOf (sibling n) = pairOf n := by
  unfold pairOf sibling; split <;> omega

theorem sibling_even_iff (n : Nat) : sibling n % 2 = 0 ↔ ¬ n % 2 = 0 := by
  unfold sibling; split <;> omega

theorem Pair.withoutLanes_heldBy (p : Pair) (n : Nat) : (p.withoutLanes n).heldBy n = 0 := by
  unfold Pair.withoutLanes Pair.heldBy
  by_cases h : n % 2 = 0
  · rw [if_pos h, if_pos h]
  · rw [if_neg h, if_neg h]

theorem Pair.withoutLanes_heldBy_sibling (p : Pair) (n : Nat) : (p.withoutLanes n).heldBy (sibling n) = p.heldBy (sibling n) := by
  have hs := sibling_even_iff n
  unfold Pair.withoutLanes Pair.heldBy
  by_cases h : n % 2 = 0
  · rw [if_pos h, if_neg fun h' => hs.mp h' h, if_neg fun h' => hs.mp h' h]
  · rw [if_neg h, if_pos (hs.mpr h), if_pos (hs.mpr h)]

theorem Pair.relieved_heldBy (p : Pair) (n : Nat) (tile : Bool) : (p.relieved n tile).heldBy n = 0 := Pair.withoutLanes_heldBy ..

theorem Pair.relieved_heldBy_sibling (p : Pair) (n : Nat) (tile : Bool) : (p.relieved n tile).heldBy (sibling n) = p.heldBy (sibling n) := by
  unfold Pair.relieved
  rw [Pair.withoutLanes_heldBy_sibling]
  cases tile <;> rfl

/-! ## kend -/

/-- The release fence of a kend: the thread's barrier stands above every write committed so far (04 R121). -/
def Thread.fenced (t : Thread) (wseq : Nat) : Thread := { t with lastFault := none, barrier := wseq, fwdBar := t.fwd }
def State.fenced (s : State) : State := s.setMe (s.me.fenced s.wseq)

theorem State.th_fenced (s : State) : s.fenced.th s.tid = s.me.fenced s.wseq := s.th_setMe _

theorem execKend_plain (s : State) (hr : s.me.replaying = false) : execKend s = .next (s.fenced.endContext s.tid) := by
  have hf : (s.setMe { s.me with lastFault := none }).fenceRel s.tid true = s.fenced := by
    unfold State.fenceRel State.fenced
    simp only [State.th_setMe, if_true]
    exact State.setTh_setTh ..
  unfold execKend
  rw [s.unlessReplay_plain hr, hf]

/-- Settles O25: the release fence, then the end of the context. -/
theorem contextEnds : Obligations.ContextEnds := by
  unfold Obligations.ContextEnds
  intro s hr
  obtain ⟨kept, hth⟩ := s.fenced.endContext_th s.tid
  obtain ⟨htile, hleave, htca, hbarrier, hs, -⟩ := (s.me.fenced s.wseq).relieved_keeps
  have tid : (s.fenced.endContext s.tid).tid = s.tid := s.fenced.endContext_tid s.tid
  have hme : (s.fenced.endContext s.tid).me = (s.me.fenced s.wseq).relieved.ended kept := by
    rw [State.me, tid, hth, s.th_fenced]
  have hpair : (s.fenced.endContext s.tid).pair (pairOf s.tid) = s.myPair.relieved s.tid s.me.tile := by
    rw [s.fenced.endContext_pair s.tid, s.th_fenced]; rfl
  refine ⟨_, (exec_kend s).trans (execKend_plain s hr), ?_⟩
  dsimp only
  rw [hme]
  refine ⟨rfl, rfl, congrArg (· &&& _) htca, rfl, rfl, hleave, htile, ?_, ?_, hbarrier, hs, fun h => ?_, s.fenced.endContext_regs s.tid,
    s.fenced.endContext_pend s.tid, fun k hk => ?_, fun h => ?_⟩
  · rw [State.held_eq, hpair, Pair.relieved_heldBy]
  · rw [State.held_eq, State.held_eq, pairOf_sibling, hpair, Pair.relieved_heldBy_sibling]; rfl
  · exact s.fenced.endContext_mem s.tid (by rw [s.th_fenced]; exact h)
  · rw [s.fenced.endContext_th_ne s.tid k hk]; exact s.th_setMe_ne k _ hk
  · rw [State.myPair, State.myL, tid, hpair, h]; exact s.myPair.relieved_tmu_ne s.tid

end Sys2Proof.Machine
end

section
/-! tmode (06 R162; 12 R266; 18 R389): what a change of mode, a discard and a request for leave do. -/

namespace Sys2Proof.Machine

theorem exec_tmode (d m : BitVec 1) (s : State) : exec (.tmode d m) s = execTmode d m s := rfl

/-! ## Discarding the accumulators and the weight buffer: 12 R266 -/

/-- Where D says so, the accumulators and the weight buffer of the moving thread's pair are discarded. -/
def State.discard (s : State) (d : BitVec 1) : State := if d = 1 then s.zeroTile s.myL else s

theorem State.discard_me (s : State) (d : BitVec 1) : (s.discard d).me = s.me := by unfold State.discard; split <;> rfl
theorem State.discard_mem (s : State) (d : BitVec 1) : (s.discard d).mem = s.mem := by unfold State.discard; split <;> rfl

theorem State.zeroTile_pair (s : State) (l : Nat) : (s.zeroTile l).pair l = { s.pair l with wb := Vector.replicate 16 0 } := State.pair_setPair ..

/-- A discard leaves the unit with its holder. -/
theorem State.discard_tmu (s : State) (d : BitVec 1) : (s.discard d).myPair.tmu = s.myPair.tmu := by
  unfold State.discard
  split
  · exact (congrArg Pair.tmu (s.zeroTile_pair s.myL)).trans rfl
  · rfl

theorem State.discard_one_wb (s : State) : (s.discard 1).myPair.wb = Vector.replicate 16 0 := congrArg Pair.wb (s.zeroTile_pair s.myL)

/-- A byte of the discarded accumulators reads 0, every other byte of register storage as before. -/
theorem State.cellGet_discard_one (s : State) (k : Nat) : cellGet (s.discard 1).regs k =
    if regKey (s.physPair s.myL) (accOff 0) ≤ k ∧ k < regKey (s.physPair s.myL) (accOff 0) + 8 * 40960 then 0 else cellGet s.regs k :=
  cellGet_cellsZero ..

theorem State.cellGet_discard_of_zero (s : State) (d : BitVec 1) (k : Nat) (h : cellGet s.regs k = 0) : cellGet (s.discard d).regs k = 0 := by
  by_cases hd : d = 1
  · rw [hd, State.cellGet_discard_one, h, ite_self]
  · rw [State.discard, if_neg hd, h]

/-! ## What every completion of tmode leaves -/

/-- Memory, the weight buffer and the accumulators of the moving thread's pair are as before. -/
structure State.KeepsTile (s u : State) : Prop where
  tid : u.tid = s.tid
  mem : u.mem = s.mem
  place : u.physPair s.myL = s.physPair s.myL
  wb : u.myPair.wb = s.myPair.wb
  accs : ∀ o < 8 * 40960, cellGet u.regs (regKey (s.physPair s.myL) (accOff 0) + o) = cellGet s.regs (regKey (s.physPair s.myL) (accOff 0) + o)

theorem State.KeepsTile.refl (s : State) : s.KeepsTile s := ⟨rfl, rfl, rfl, rfl, fun _ _ => rfl⟩

/-- tmode completes with `x` as its thread: the next word, memory as before, and the accumulators and the weight buffer discarded or as before. -/
def State.TmodeLeaves (s t : State) (d : BitVec 1) (x : Thread) : Prop :=
  t.me = { x with lastFault := none, pc := s.me.pc + 4 } ∧ t.mem = s.mem ∧
  (d = 1 → t.myPair.wb = Vector.replicate 16 0 ∧ ∀ o < 8 * 40960, cellGet t.regs (regKey (s.physPair s.myL) (accOff 0) + o) = 0) ∧
  (d = 0 → t.myPair.wb = s.myPair.wb ∧
    ∀ o < 8 * 40960, cellGet t.regs (regKey (s.physPair s.myL) (accOff 0) + o) = cellGet s.regs (regKey (s.physPair s.myL) (accOff 0) + o))

theorem State.discard_retire_leaves {s u : State} (h : s.KeepsTile u) (d : BitVec 1) (hr : u.me.replaying = false) (hpc : u.me.pc = s.me.pc) :
    s.TmodeLeaves (u.discard d).retire d u.me := by
  have hL : u.myL = s.myL := congrArg pairOf h.tid
  refine ⟨?_, (u.discard_mem d).trans h.mem, ?_, ?_⟩
  · rw [State.retire, State.me_setMe, State.discard_me, Thread.retire_plain _ hr, hpc]
  · rintro rfl
    refine ⟨u.discard_one_wb, fun o ho => ?_⟩
    refine (u.cellGet_discard_one _).trans (if_pos ?_)
    rw [hL, h.place]
    omega
  · rintro rfl
    exact ⟨h.wb, h.accs⟩

/-! ## Staying and leaving -/

theorem execTmode_stays (s : State) (d m : BitVec 1) (h : s.me.tile = (m == 1)) : execTmode d m s = .next (s.discard d).retire := by
  unfold execTmode
  rw [if_pos (beq_iff_eq.mpr h)]
  rfl

theorem execTmode_leaves (s : State) (d : BitVec 1) (h : s.me.tile = true) :
    execTmode d 0 s = .next ((s.leaveTile s.tid).discard d).retire := by
  unfold execTmode
  rw [h]
  rfl

theorem State.leaveTile_tid (s : State) (n : Nat) : (s.leaveTile n).tid = s.tid := by rw [State.leaveTile_eq]; rfl
theorem State.leaveTile_mem (s : State) (n : Nat) : (s.leaveTile n).mem = s.mem := by rw [State.leaveTile_eq]; rfl
theorem State.leaveTile_regs (s : State) (n : Nat) : (s.leaveTile n).regs = s.regs := by rw [State.leaveTile_eq]; rfl
theorem State.leaveTile_th (s : State) (n : Nat) : (s.leaveTile n).th n = (s.th n).outOfTile := by
  rw [State.leaveTile_eq]; exact State.th_setTh ..
theorem State.leaveTile_pair (s : State) (n : Nat) : (s.leaveTile n).pair (pairOf n) = (s.pair (pairOf n)).withoutUnit n := by
  rw [State.leaveTile_eq]; exact State.pair_setPair ..
theorem State.leaveTile_spare (s : State) (n : Nat) :
    ((s.leaveTile n).die (pairOf n / 32)).spare = (s.die (pairOf n / 32)).spare := by
  have hdie : (s.leaveTile n).die (pairOf n / 32) = (s.die (pairOf n / 32)).withoutTileLeave n := by
    rw [State.leaveTile_eq]; exact State.die_setDie ..
  rw [hdie]; rfl

theorem State.leaveTile_me (s : State) : (s.leaveTile s.tid).me = s.me.outOfTile := by
  rw [State.me, s.leaveTile_tid, s.leaveTile_th]; rfl
theorem State.leaveTile_myPair (s : State) : (s.leaveTile s.tid).myPair = s.myPair.withoutUnit s.tid := by
  rw [State.myPair, State.myL, s.leaveTile_tid, s.leaveTile_pair]; rfl

theorem State.leaveTile_keeps (s : State) : s.KeepsTile (s.leaveTile s.tid) where
  tid := s.leaveTile_tid s.tid
  mem := s.leaveTile_mem s.tid
  place := by unfold State.physPair; simp only [State.myL, s.leaveTile_spare s.tid]
  wb := by rw [s.leaveTile_myPair]; rfl
  accs _ _ := by rw [s.leaveTile_regs]

/-! ## Entering -/

theorem setBits_one_set (w : Word) : setBits w 1 1 1 = w ||| 2 := by
  have e : setBits w 1 1 1 = (w &&& ~~~2) ||| 2 := by simp [setBits]
  rw [e]
  ext i hi
  simp only [BitVec.getElem_or, BitVec.getElem_and, BitVec.getElem_not]
  cases w[i] <;> cases (2 : Word)[i] <;> rfl

/-- The bytes of y0 and y1 over a thread's lanes. -/
def State.yRanges (s : State) (n : Nat) : List (Nat × Nat) := (s.lanesOf n).phys.map fun pl => (regKey (s.physPair (pairOf n)) (nearOff pl + 0x600), 512)

theorem State.zeroY_eq (s : State) (n : Nat) : s.zeroY n = s.zeroRanges (s.yRanges n) := by
  unfold State.zeroRanges State.yRanges
  rw [List.foldl_map]; rfl

/-- The moving thread takes the unit and is in tile mode. -/
def State.takeUnit (s : State) : State :=
  (s.setPair s.myL { s.myPair with tmu := some s.tid }).setMe (s.me.setTmd true)

theorem State.takeUnit_me (s : State) : s.takeUnit.me = { s.me with tcr := s.me.tcr ||| 2 } := by
  rw [State.takeUnit, State.me_setMe, Thread.setTmd, if_pos rfl, setBits_one_set]

theorem State.takeUnit_lanesOf (s : State) : s.takeUnit.lanesOf s.tid = s.lanesOf s.tid := by
  have hpair : s.takeUnit.pair (pairOf s.tid) = { s.myPair with tmu := some s.tid } := State.pair_setPair ..
  have hheld : s.takeUnit.held s.tid = s.held s.tid := by rw [State.held_eq, hpair]; rfl
  unfold State.lanesOf
  rw [hheld]; rfl

theorem State.takeUnit_yRanges (s : State) : s.takeUnit.yRanges s.tid = s.yRanges s.tid := by
  unfold State.yRanges
  rw [s.takeUnit_lanesOf]; rfl

/-- Tile mode entered: the unit taken, y0 and y1 zeroed. -/
def State.inTile (s : State) : State := s.takeUnit.zeroRanges (s.yRanges s.tid)

theorem State.inTile_only (s : State) : s.takeUnit.OnlyRegs s.inTile := State.zeroRanges_only ..

theorem State.inTile_tid (s : State) : s.inTile.tid = s.tid := s.inTile_only.tid
theorem State.inTile_myL (s : State) : s.inTile.myL = s.myL := congrArg pairOf s.inTile_tid
theorem State.inTile_me (s : State) : s.inTile.me = { s.me with tcr := s.me.tcr ||| 2 } := s.inTile_only.me.trans s.takeUnit_me
theorem State.OnlyRegs.pair {s u : State} (h : s.OnlyRegs u) (l : Nat) : u.pair l = s.pair l := by rw [h]; rfl
theorem State.inTile_myPair (s : State) : s.inTile.myPair = { s.myPair with tmu := some s.tid } := by
  rw [State.myPair, s.inTile_myL, s.inTile_only.pair]; exact State.pair_setPair ..

theorem State.enterTile_eq (s : State) (d : BitVec 1) : s.enterTile s.tid (d == 1) = s.inTile.discard d := by
  have hy : s.takeUnit.zeroY s.tid = s.inTile := by rw [State.zeroY_eq, s.takeUnit_yRanges]; rfl
  have e : s.enterTile s.tid (d == 1) =
      if (d == 1) = true then (s.takeUnit.zeroY s.tid).zeroTile s.myL else s.takeUnit.zeroY s.tid := rfl
  rw [e, hy, State.discard, s.inTile_myL]
  simp only [beq_iff_eq]

theorem execTmode_enters (s : State) (d : BitVec 1) (htile : s.me.tile = false) (hunit : s.myPair.tmu = none) (hleave : s.me.leave = true) :
    execTmode d 1 s = .next (s.inTile.discard d).retire := by
  unfold execTmode
  rw [htile, hunit, hleave, s.enterTile_eq]
  rfl

/-- In the model's register storage y0 and y1 of a pair's 68 physical lanes lie below the accumulators. -/
theorem State.accs_not_inRanges (s : State) (h : ∀ pl ∈ (s.lanesOf s.tid).phys, pl < 68) (o : Nat) :
    ¬ InRanges (s.yRanges s.tid) (regKey (s.physPair s.myL) (accOff 0) + o) := by
  rintro ⟨r, hr, -, hhi⟩
  obtain ⟨pl, hpl, rfl⟩ := List.mem_map.mp hr
  have := h pl hpl
  simp only [regKey, nearOff, accOff, State.myL] at hhi
  omega

theorem State.inTile_keeps (s : State) (h : ∀ pl ∈ (s.lanesOf s.tid).phys, pl < 68) : s.KeepsTile s.inTile where
  tid := s.inTile_tid
  mem := by rw [s.inTile_only]; rfl
  place := by rw [s.inTile_only]; rfl
  wb := by rw [s.inTile_myPair]
  accs o _ := (State.cellGet_zeroRanges ..).2 (s.accs_not_inRanges h o)

theorem State.inTile_zeroes (s : State) (pl : Nat) (hpl : pl ∈ (s.lanesOf s.tid).phys) (o : Nat) (ho : o < 512) :
    cellGet s.inTile.regs (regKey (s.physPair s.myL) (nearOff pl + 0x600) + o) = 0 := by
  refine (State.cellGet_zeroRanges ..).1 ⟨_, List.mem_map.mpr ⟨pl, hpl, rfl⟩, ?_, ?_⟩
  · exact Nat.le_add_right ..
  · exact Nat.add_lt_add_left ho _

/-! ## Waiting and asking for leave: 18 R389; 20 R418 -/

theorem execTmode_waits (s : State) (d : BitVec 1) (htile : s.me.tile = false)
    (h : s.myPair.tmu ≠ none ∨ s.myPair.tmu = none ∧ s.me.leave = false ∧ s.me.leaveAsked = true) : execTmode d 1 s = .next s := by
  unfold execTmode
  rw [htile]
  rcases h with hunit | ⟨hunit, hleave, hasked⟩
  · rw [if_pos (Option.isSome_iff_ne_none.mpr hunit)]; rfl
  · rw [hunit, hleave, hasked]; rfl

/-- A thread's request for leave to enter tile mode. -/
def tileRequest (n : Nat) (waited : Bool) : PowerReq := ⟨n, true, 0, 0, 18, waited⟩

theorem execTmode_asks (s : State) (d : BitVec 1) (htile : s.me.tile = false) (hunit : s.myPair.tmu = none) (hleave : s.me.leave = false)
    (hasked : s.me.leaveAsked = false) : execTmode d 1 s = .next (s.askLeave (tileRequest s.tid false)) := by
  unfold execTmode
  rw [htile, hunit, hleave, hasked]; rfl

/-- Whether a new request of the given weight is granted at once: none waits before it, and the budget allows it (20 R418). -/
def State.grantsNow (s : State) (d weight : Nat) : Bool :=
  (s.die d).waiting.isEmpty && ((s.die d).used == 0 || decide ((s.die d).used + weight ≤ s.budget d))

theorem State.grantsNow_eq (s : State) (d : Nat) (r : PowerReq) :
    ((s.die d).waiting.isEmpty && (s.setDie d { s.die d with waiting := [r] }).grantable d) = s.grantsNow d r.weight := by
  have hb : (s.setDie d { s.die d with waiting := [r] }).budget d = s.budget d := by
    unfold State.budget
    rw [State.die_setDie]; rfl
  unfold State.grantable State.grantsNow
  simp only [State.die_setDie, hb]
  rfl

/-- A pair whose count of requests that waited has gone up (18 R389). -/
def Pair.countWait (p : Pair) : Pair := { p with paw := w64 (Nat.min (p.paw.toNat + 1) (2 ^ 64 - 1)) }

/-- The governor's list with the moving thread's request for tile mode; one that is not granted at once counts at the pair. -/
def State.withRequest (s : State) (now : Bool) : State :=
  let asked := s.setDie (s.myL / 32) { s.die (s.myL / 32) with waiting := (s.die (s.myL / 32)).waiting ++ [tileRequest s.tid !now] }
  if now then asked else asked.setPair s.myL s.myPair.countWait

theorem State.withRequest_tid (s : State) (now : Bool) : (s.withRequest now).tid = s.tid := by cases now <;> rfl
theorem State.withRequest_me (s : State) (now : Bool) : (s.withRequest now).me = s.me := by cases now <;> rfl
theorem State.withRequest_waiting (s : State) (now : Bool) :
    ((s.withRequest now).die (s.myL / 32)).waiting = (s.die (s.myL / 32)).waiting ++ [tileRequest s.tid !now] := by
  have hdie := s.die_setDie (s.myL / 32) { s.die (s.myL / 32) with waiting := (s.die (s.myL / 32)).waiting ++ [tileRequest s.tid !now] }
  cases now
  · exact congrArg Die.waiting hdie
  · exact congrArg Die.waiting hdie
theorem State.withRequest_myPair (s : State) (now : Bool) :
    (s.withRequest now).myPair = if now then s.myPair else s.myPair.countWait := by
  cases now
  · exact State.pair_setPair ..
  · rfl

/-- A request for leave joins its die's list, and the thread has asked. -/
theorem State.askLeave_tile (s : State) : s.askLeave (tileRequest s.tid false) =
    (s.withRequest (s.grantsNow (s.myL / 32) 18)).setMe { s.me with leaveAsked := true } := by
  have asks (now : Bool) (h : ((s.die (s.myL / 32)).waiting.isEmpty &&
        (s.setDie (s.myL / 32) { s.die (s.myL / 32) with waiting := [tileRequest s.tid false] }).grantable (s.myL / 32)) = now) :
      s.askLeave (tileRequest s.tid false) =
        (s.withRequest now).setTh s.tid { (s.withRequest now).th s.tid with leaveAsked := true } := by
    rw [← h]; rfl
  have hth := s.withRequest_me (s.grantsNow (s.myL / 32) 18)
  rw [State.me, State.withRequest_tid] at hth
  rw [asks _ (s.grantsNow_eq (s.myL / 32) (tileRequest s.tid false)), State.setMe, State.withRequest_tid]
  exact congrArg _ (congrArg (fun t : Thread => { t with leaveAsked := true }) hth)

/-- Settles O43: tmode by the mode it finds, and on entry by the unit and the leave. -/
theorem tileMode : Obligations.TileMode := by
  unfold Obligations.TileMode
  intro s d hr
  refine ⟨fun m h => ?_, fun h => ?_, fun h => ⟨fun hunit hleave hlanes => ?_, fun hunit => ?_, fun hunit hleave hasked => ?_,
    fun hunit hleave hasked => ?_⟩⟩
  · exact ⟨_, (exec_tmode d m s).trans (execTmode_stays s d m h), State.discard_retire_leaves (State.KeepsTile.refl s) d hr rfl⟩
  · refine ⟨_, (exec_tmode d 0 s).trans (execTmode_leaves s d h), ?_, ?_⟩
    · have hl := State.discard_retire_leaves s.leaveTile_keeps d (by rw [s.leaveTile_me, ← hr]; exact Thread.replaying_of _ _ rfl rfl rfl)
        (by rw [s.leaveTile_me]; rfl)
      rw [s.leaveTile_me] at hl
      exact hl
    · exact ((s.leaveTile s.tid).discard_tmu d).trans (congrArg Pair.tmu s.leaveTile_myPair)
  · refine ⟨_, (exec_tmode d 1 s).trans (execTmode_enters s d h hunit hleave), ?_, ?_, fun pl hpl o ho => ?_⟩
    · have hl := State.discard_retire_leaves (s.inTile_keeps hlanes) d (by rw [s.inTile_me, ← hr]; exact Thread.replaying_of _ _ rfl rfl rfl)
        (by rw [s.inTile_me])
      rw [s.inTile_me] at hl
      exact hl
    · exact (s.inTile.discard_tmu d).trans (congrArg Pair.tmu s.inTile_myPair)
    · exact s.inTile.cellGet_discard_of_zero d _ (s.inTile_zeroes pl hpl o ho)
  · exact ⟨s, (exec_tmode d 1 s).trans (execTmode_waits s d h (.inl hunit)), rfl⟩
  · exact ⟨s, (exec_tmode d 1 s).trans (execTmode_waits s d h (.inr ⟨hunit, hleave, hasked⟩)), rfl⟩
  · refine ⟨_, (exec_tmode d 1 s).trans (execTmode_asks s d h hunit hleave hasked), ?_⟩
    rw [s.askLeave_tile]
    exact ⟨State.me_setMe .., s.withRequest_waiting _, (congrArg Pair.paw (s.withRequest_myPair _)).trans (apply_ite Pair.paw _ _ _)⟩

end Sys2Proof.Machine
end

section
/-! Encoding and decoding (08 R183 to R194): every instruction decodes from its own word, and every word that decodes is the word of the
instruction it gives. -/

-- The text compiles as one file: one theorem at a time keeps it within the check's memory.
set_option Elab.async false

namespace Sys2Proof

/-! ## From an instruction to its word and back -/

namespace Laws.Encodes

/-- Every instruction decodes from its word, one lemma for each; an event, and a word that encodes nothing, have none. -/
theorem all (i : Instr) : Statement i := by
  cases i with
  | add => apply add | sub => apply sub | and => apply and | or => apply or | xor => apply xor | shl => apply shl
  | shr => apply shr | sra => apply sra | slt => apply slt | sltu => apply sltu | mul => apply mul | mulh => apply mulh
  | mulhu => apply mulhu | div => apply div | divu => apply divu | rem => apply rem | remu => apply remu | min => apply min
  | max => apply max | minu => apply minu | maxu => apply maxu | clz => apply clz | ctz => apply ctz | popc => apply popc
  | sel => apply sel | addsh => apply addsh | addi => apply addi | andi => apply andi | ori => apply ori | xori => apply xori
  | slti => apply slti | shli => apply shli | shri => apply shri | srai => apply srai | ldB => apply ldB | ldBu => apply ldBu
  | ldH => apply ldH | ldHu => apply ldHu | ldW => apply ldW | ldWu => apply ldWu | ldD => apply ldD | stB => apply stB
  | stH => apply stH | stW => apply stW | stD => apply stD | beq => apply beq | bne => apply bne | blt => apply blt
  | bge => apply bge | bltu => apply bltu | bgeu => apply bgeu | vloop => apply vloop | jal => apply jal | jalr => apply jalr
  | ldhi => apply ldhi | fadd => apply fadd | fsub => apply fsub | fmul => apply fmul | fdiv => apply fdiv | fsqrt => apply fsqrt
  | fma => apply fma | fmin => apply fmin | fmax => apply fmax | fcmp => apply fcmp | fcvt => apply fcvt
  | ldOrdered => apply ldOrdered | stOrdered => apply stOrdered | amoadd => apply amoadd | amoand => apply amoand
  | amoor => apply amoor | amoxor => apply amoxor | amoswap => apply amoswap | amomin => apply amomin | amomax => apply amomax
  | amominu => apply amominu | amomaxu => apply amomaxu | cas => apply cas | csrr => apply csrr | csrw => apply csrw
  | csrs => apply csrs | csrc => apply csrc | qpush => apply qpush | qpop => apply qpop | trap => apply trap | tret => apply tret
  | halt => apply halt | wait => apply wait | brk => apply brk | kend => apply kend | tlbiAll => apply tlbiAll
  | tlbiAsn => apply tlbiAsn | tlbiVa => apply tlbiVa | tlbiGpa => apply tlbiGpa | tlbiPart => apply tlbiPart
  | fence => apply fence | lsync => apply lsync | ifence => apply ifence | launch => apply launch | nop => apply nop
  | setvl => apply setvl | vcfg => apply vcfg | vtype => apply vtype | vwin => apply vwin | lpart => apply lpart
  | vadd => apply vadd | vsub => apply vsub | vmul => apply vmul | vmulh => apply vmulh | vmadd => apply vmadd
  | vmsub => apply vmsub | vdiv => apply vdiv | vrem => apply vrem | vmin => apply vmin | vmax => apply vmax | vand => apply vand
  | vor => apply vor | vxor => apply vxor | vshl => apply vshl | vshr => apply vshr | vsra => apply vsra | vabs => apply vabs
  | vaddVx => apply vaddVx | vsubVx => apply vsubVx | vmulVx => apply vmulVx | vmulhVx => apply vmulhVx
  | vmaddVx => apply vmaddVx | vmsubVx => apply vmsubVx | vdivVx => apply vdivVx | vremVx => apply vremVx
  | vminVx => apply vminVx | vmaxVx => apply vmaxVx | vandVx => apply vandVx | vorVx => apply vorVx | vxorVx => apply vxorVx
  | vshlVx => apply vshlVx | vshrVx => apply vshrVx | vsraVx => apply vsraVx | vfadd => apply vfadd | vfsub => apply vfsub
  | vfmul => apply vfmul | vfdiv => apply vfdiv | vfsqrt => apply vfsqrt | vfrsqe => apply vfrsqe | vfma => apply vfma
  | vfms => apply vfms | vfnma => apply vfnma | vfmin => apply vfmin | vfmax => apply vfmax | vfabs => apply vfabs
  | vfneg => apply vfneg | vcvt => apply vcvt | vfaddVx => apply vfaddVx | vfsubVx => apply vfsubVx | vfmulVx => apply vfmulVx
  | vfdivVx => apply vfdivVx | vfmaVx => apply vfmaVx | vfmsVx => apply vfmsVx | vfnmaVx => apply vfnmaVx
  | vfminVx => apply vfminVx | vfmaxVx => apply vfmaxVx | vcmpEq => apply vcmpEq | vcmpNe => apply vcmpNe
  | vcmpLt => apply vcmpLt | vcmpLe => apply vcmpLe | vcmpLtu => apply vcmpLtu | vcmpLeu => apply vcmpLeu
  | vfcmpEq => apply vfcmpEq | vfcmpNe => apply vfcmpNe | vfcmpLt => apply vfcmpLt | vfcmpLe => apply vfcmpLe
  | vfcmpUnord => apply vfcmpUnord | vfcmpOrd => apply vfcmpOrd | mand => apply mand | mor => apply mor | mxor => apply mxor
  | mnot => apply mnot | mpopc => apply mpopc | mfirst => apply mfirst | mset => apply mset | vcmpEqVx => apply vcmpEqVx
  | vcmpNeVx => apply vcmpNeVx | vcmpLtVx => apply vcmpLtVx | vcmpLeVx => apply vcmpLeVx | vcmpLtuVx => apply vcmpLtuVx
  | vcmpLeuVx => apply vcmpLeuVx | vfcmpEqVx => apply vfcmpEqVx | vfcmpNeVx => apply vfcmpNeVx | vfcmpLtVx => apply vfcmpLtVx
  | vfcmpLeVx => apply vfcmpLeVx | vfcmpUnordVx => apply vfcmpUnordVx | vfcmpOrdVx => apply vfcmpOrdVx | vredsum => apply vredsum
  | vredmax => apply vredmax | vredmin => apply vredmin | vredand => apply vredand | vredor => apply vredor
  | vfredsumO => apply vfredsumO | vfredsumT => apply vfredsumT | vfredmax => apply vfredmax | vfredmin => apply vfredmin
  | vslideup => apply vslideup | vslidedown => apply vslidedown | vrev => apply vrev | vperm => apply vperm
  | vcompress => apply vcompress | vexpand => apply vexpand | viota => apply viota | vsort => apply vsort
  | vdedup => apply vdedup | vscanAdd => apply vscanAdd | vscanMax => apply vscanMax | vscanMin => apply vscanMin
  | vscanFadd => apply vscanFadd | vrecur => apply vrecur | vmv => apply vmv | vbcast => apply vbcast | vext => apply vext
  | vins => apply vins | vmerge => apply vmerge | vtrans => apply vtrans | tzero => apply tzero | tmmaO => apply tmmaO
  | tmmaF => apply tmmaF | tmova => apply tmova | tmovv => apply tmovv | tcolmvOut => apply tcolmvOut
  | tcolmvIn => apply tcolmvIn | trowmvOut => apply trowmvOut | trowmvIn => apply trowmvIn | tscale => apply tscale
  | tcvt => apply tcvt | vld => apply vld | vlds => apply vlds | vldx => apply vldx | wgather => apply wgather | vst => apply vst
  | vsts => apply vsts | vstxO => apply vstxO | vstxU => apply vstxU | vsadd => apply vsadd | tload => apply tload
  | tstore => apply tstore | vbind => apply vbind | vunbind => apply vunbind | vbpos => apply vbpos | cappend => apply cappend
  | wbload => apply wbload | wbinv => apply wbinv | csld => apply csld | csst => apply csst | csadd => apply csadd
  | csmul => apply csmul | csdot => apply csdot | csscale => apply csscale | cscompact => apply cscompact
  | csexpand => apply csexpand | csseek => apply csseek | cscsr => apply cscsr | ebatch => apply ebatch | ecopy => apply ecopy
  | rep => apply rep | tlsig => apply tlsig | tlwait => apply tlwait | tlwaitChk => apply tlwaitChk | tlread => apply tlread
  | vrred => apply vrred | creduce => apply creduce | cgather => apply cgather | cxpar => apply cxpar | nmadd => apply nmadd
  | nmfadd => apply nmfadd | nmfence => apply nmfence | nmfenceRel => apply nmfenceRel | nmopt => apply nmopt
  | pkcfg => apply pkcfg | pklook => apply pklook | skset => apply skset | sksetG => apply sksetG | skbuild => apply skbuild
  | skxchg => apply skxchg | skpeel => apply skpeel | tmode => apply tmode | tshape => apply tshape
  | _ => exact fun _ _ h => nomatch h

end Laws.Encodes

/-- Settles O1: the round trip of each instruction. -/
theorem encodedWordsDecode : Obligations.EncodedWordsDecode := by
  unfold Obligations.EncodedWordsDecode
  exact fun i w hwf he => Laws.Encodes.all i hwf w he

/-! ## From the word to the instruction and back -/

theorem cat_eq_append {n m : Nat} (a : BitVec n) (b : BitVec m) : cat (n + m) a b = a ++ b := by
  rw [cat, ← BitVec.toNat_append, BitVec.ofNat_toNat, BitVec.setWidth_eq]

/-- A range of a word's bits is two fields side by side exactly when each field is its part of the range. -/
theorem extract_eq_cat_iff {n m : Nat} (k : Nat) (w : BitVec 32) (s : Nat) (a : BitVec n) (b : BitVec m) (h : n + m = k) :
    w.extractLsb' s k = cat k a b ↔ w.extractLsb' (s + m) n = a ∧ w.extractLsb' s m = b := by
  subst h
  rw [cat_eq_append, ← BitVec.extractLsb'_append_extractLsb'_eq_extractLsb' (rfl : s + m = s + m)]
  constructor
  · intro e
    have left := congrArg (BitVec.extractLsb' m n) e
    have right := congrArg (BitVec.extractLsb' 0 m) e
    rw [BitVec.extractLsb'_append_eq_left, BitVec.extractLsb'_append_eq_left] at left
    rw [BitVec.extractLsb'_append_eq_right, BitVec.extractLsb'_append_eq_right] at right
    exact ⟨left, right⟩
  · rintro ⟨rfl, rfl⟩
    rfl

/-- What a decoder makes of a word is faithful: an instruction it gives is well formed, and has that word. -/
def Faithful (w : BitVec 32) (decoded : Except IllegalSub Instr) : Prop :=
  ∀ i, decoded = .ok i → i.wf = true ∧ encode i = some w

theorem faithful_error (w : BitVec 32) (sub : IllegalSub) : Faithful w (.error sub) := fun _ h => nomatch h

/-- A row gives an instruction only where its fixed bits hold and the instruction is well formed. -/
theorem faithful_row {fixedOk : Bool} {i : Instr} {w : BitVec 32} (h : fixedOk = true → encode i = some w) :
    Faithful w (row fixedOk i) := by
  intro j hj
  unfold row at hj
  split at hj
  case isFalse => nomatch hj
  case isTrue hok =>
    cases hj
    obtain ⟨hfixed, hwf⟩ := Bool.and_eq_true_iff.mp hok
    exact ⟨hwf, h hfixed⟩

/-- A row whose fixed bits and fields, side by side, make up the word. By default the fields are taken apart from the least significant on:
those the row reads from the word agree, and what is left are its fixed bits. -/
theorem faithful_fields {fixedOk : Bool} {i : Instr} {w : BitVec 32} {n m : Nat} {a : BitVec n} {b : BitVec m}
    (he : encode i = some (cat 32 a b)) (hk : n + m = 32)
    (hfields : fixedOk = true → w.extractLsb' (0 + m) n = a ∧ w.extractLsb' 0 m = b := by
      intro hfixed
      simpa (disch := decide) only [extract_eq_cat_iff, Nat.reduceAdd, true_and, and_true, Bool.and_eq_true, beq_iff_eq,
        BitVec.ofNat_eq_ofNat] using hfixed) :
    Faithful w (row fixedOk i) := by
  refine faithful_row fun hfixed => ?_
  rw [he, ← (extract_eq_cat_iff 32 w 0 a b hk).mpr (hfields hfixed), ex_self]

/-- A row without fields, which compares the whole word. -/
theorem faithful_whole {i : Instr} {w c : BitVec 32} (he : encode i = some c) : Faithful w (row (w.extractLsb' 0 32 == c) i) :=
  faithful_row fun hfixed => by rw [he, ← eq_of_beq hfixed, ex_self]

/-! ## The decoders of the major opcodes -/

theorem decodeMajor01_faithful (w : BitVec 32) : Faithful w (decodeMajor01 w) := by
  unfold decodeMajor01
  split
  any_goals exact faithful_error w _
  all_goals exact faithful_fields rfl rfl

theorem decodeMajor02_faithful (w : BitVec 32) : Faithful w (decodeMajor02 w) := by
  unfold decodeMajor02
  split
  any_goals exact faithful_error w _
  all_goals exact faithful_fields rfl rfl

theorem decodeMajor03_faithful (w : BitVec 32) : Faithful w (decodeMajor03 w) := by
  unfold decodeMajor03
  split
  any_goals exact faithful_error w _
  all_goals exact faithful_fields rfl rfl

theorem decodeMajor04_faithful (w : BitVec 32) : Faithful w (decodeMajor04 w) := by
  unfold decodeMajor04
  split
  any_goals exact faithful_error w _
  all_goals exact faithful_fields rfl rfl

theorem decodeMajor05_faithful (w : BitVec 32) : Faithful w (decodeMajor05 w) := by
  unfold decodeMajor05
  split
  any_goals exact faithful_error w _
  all_goals exact faithful_fields rfl rfl

theorem decodeMajor06_faithful (w : BitVec 32) : Faithful w (decodeMajor06 w) := faithful_fields rfl rfl

theorem decodeMajor07_faithful (w : BitVec 32) : Faithful w (decodeMajor07 w) := by
  unfold decodeMajor07
  split
  any_goals exact faithful_error w _
  all_goals exact faithful_fields rfl rfl

theorem decodeMajor08_faithful (w : BitVec 32) : Faithful w (decodeMajor08 w) := faithful_fields rfl rfl

theorem decodeMajor09_faithful (w : BitVec 32) : Faithful w (decodeMajor09 w) := by
  unfold decodeMajor09
  split
  any_goals exact faithful_error w _
  all_goals exact faithful_fields rfl rfl

theorem decodeMajor0A_faithful (w : BitVec 32) : Faithful w (decodeMajor0A w) := by
  unfold decodeMajor0A
  repeat' split
  any_goals exact faithful_error w _
  all_goals exact faithful_fields rfl rfl

theorem decodeMajor0B_faithful (w : BitVec 32) : Faithful w (decodeMajor0B w) := faithful_fields rfl rfl

theorem decodeMajor0C_faithful (w : BitVec 32) : Faithful w (decodeMajor0C w) := by
  unfold decodeMajor0C
  repeat' split
  any_goals exact faithful_error w _
  all_goals exact faithful_fields rfl rfl

theorem decodeMajor0D_faithful (w : BitVec 32) : Faithful w (decodeMajor0D w) := by
  unfold decodeMajor0D
  split
  any_goals exact faithful_error w _
  all_goals exact faithful_fields rfl rfl

theorem decodeMajor0E_faithful (w : BitVec 32) : Faithful w (decodeMajor0E w) := by
  unfold decodeMajor0E
  repeat' split
  any_goals exact faithful_error w _
  · exact faithful_fields rfl rfl
  · exact faithful_whole rfl
  · exact faithful_whole rfl
  · exact faithful_fields rfl rfl
  · exact faithful_fields rfl rfl
  · exact faithful_whole rfl
  · exact faithful_whole rfl
  · exact faithful_fields rfl rfl
  · exact faithful_fields rfl rfl
  · exact faithful_fields rfl rfl
  · exact faithful_fields rfl rfl
  · exact faithful_fields rfl rfl
  · exact faithful_whole rfl
  · exact faithful_whole rfl
  · exact faithful_fields rfl rfl

theorem decodeMajor0F_faithful (w : BitVec 32) : Faithful w (decodeMajor0F w) := faithful_fields rfl rfl

theorem decodeMajor10_faithful (w : BitVec 32) : Faithful w (decodeMajor10 w) := by
  unfold decodeMajor10
  split
  any_goals exact faithful_error w _
  all_goals exact faithful_fields rfl rfl

theorem decodeMajor11_faithful (w : BitVec 32) : Faithful w (decodeMajor11 w) := by
  unfold decodeMajor11
  split
  any_goals exact faithful_error w _
  all_goals exact faithful_fields rfl rfl

theorem decodeMajor12_faithful (w : BitVec 32) : Faithful w (decodeMajor12 w) := by
  unfold decodeMajor12
  split
  any_goals exact faithful_error w _
  all_goals exact faithful_fields rfl rfl

theorem decodeMajor13_faithful (w : BitVec 32) : Faithful w (decodeMajor13 w) := by
  unfold decodeMajor13
  split
  any_goals exact faithful_error w _
  all_goals exact faithful_fields rfl rfl

theorem decodeMajor14_faithful (w : BitVec 32) : Faithful w (decodeMajor14 w) := by
  unfold decodeMajor14
  split
  any_goals exact faithful_error w _
  all_goals exact faithful_fields rfl rfl

theorem decodeMajor15_faithful (w : BitVec 32) : Faithful w (decodeMajor15 w) := by
  unfold decodeMajor15
  split
  any_goals exact faithful_error w _
  all_goals exact faithful_fields rfl rfl

theorem decodeMajor16_faithful (w : BitVec 32) : Faithful w (decodeMajor16 w) := by
  unfold decodeMajor16
  split
  any_goals exact faithful_error w _
  all_goals exact faithful_fields rfl rfl

theorem decodeMajor17_faithful (w : BitVec 32) : Faithful w (decodeMajor17 w) := by
  unfold decodeMajor17
  split
  any_goals exact faithful_error w _
  all_goals exact faithful_fields rfl rfl

theorem decodeMajor18_faithful (w : BitVec 32) : Faithful w (decodeMajor18 w) := by
  unfold decodeMajor18
  split
  any_goals exact faithful_error w _
  all_goals exact faithful_fields rfl rfl

theorem decodeMajor19_faithful (w : BitVec 32) : Faithful w (decodeMajor19 w) := by
  unfold decodeMajor19
  split
  any_goals exact faithful_error w _
  all_goals exact faithful_fields rfl rfl

theorem decodeTile10_faithful (w : BitVec 32) : Faithful w (decodeTile10 w) := by
  unfold decodeTile10
  repeat' split
  any_goals exact faithful_error w _
  all_goals exact faithful_fields rfl rfl

theorem decodeMajor1C_faithful (w : BitVec 32) : Faithful w (decodeMajor1C w) := by
  unfold decodeMajor1C
  split
  any_goals exact faithful_error w _
  all_goals exact faithful_fields rfl rfl

theorem decodeMajor1D_faithful (w : BitVec 32) : Faithful w (decodeMajor1D w) := by
  unfold decodeMajor1D
  split
  any_goals exact faithful_error w _
  all_goals exact faithful_fields rfl rfl

theorem decodeMajor1E_faithful (w : BitVec 32) : Faithful w (decodeMajor1E w) := by
  unfold decodeMajor1E
  split
  any_goals exact faithful_error w _
  all_goals exact faithful_fields rfl rfl

theorem decodeMajor1F_faithful (w : BitVec 32) : Faithful w (decodeMajor1F w) := by
  unfold decodeMajor1F
  split
  any_goals exact faithful_error w _
  all_goals exact faithful_fields rfl rfl

theorem decodeMajor20_faithful (w : BitVec 32) : Faithful w (decodeMajor20 w) := by
  unfold decodeMajor20
  split
  any_goals exact faithful_error w _
  all_goals exact faithful_fields rfl rfl

theorem decodeMajor21_faithful (w : BitVec 32) : Faithful w (decodeMajor21 w) := by
  unfold decodeMajor21
  split
  any_goals exact faithful_error w _
  all_goals exact faithful_fields rfl rfl

theorem decodeMajor24_faithful (w : BitVec 32) : Faithful w (decodeMajor24 w) := by
  unfold decodeMajor24
  split
  any_goals exact faithful_error w _
  all_goals exact faithful_fields rfl rfl

theorem decodeMajor28_faithful (w : BitVec 32) : Faithful w (decodeMajor28 w) := by
  unfold decodeMajor28
  split
  any_goals exact faithful_error w _
  all_goals exact faithful_fields rfl rfl

theorem decodeMajor29_faithful (w : BitVec 32) : Faithful w (decodeMajor29 w) := by
  unfold decodeMajor29
  split
  any_goals exact faithful_error w _
  all_goals exact faithful_fields rfl rfl

theorem decodeMajor2A_faithful (w : BitVec 32) : Faithful w (decodeMajor2A w) := by
  unfold decodeMajor2A
  split
  any_goals exact faithful_error w _
  · exact faithful_fields rfl rfl
  · exact faithful_fields rfl rfl
  · exact faithful_whole rfl
  · exact faithful_whole rfl
  · exact faithful_fields rfl rfl
  · exact faithful_fields rfl rfl
  · exact faithful_fields rfl rfl

theorem decodeMajor2B_faithful (w : BitVec 32) : Faithful w (decodeMajor2B w) := by
  unfold decodeMajor2B
  repeat' split
  any_goals exact faithful_error w _
  all_goals exact faithful_fields rfl rfl

theorem decodeMajor3E_faithful (w : BitVec 32) : Faithful w (decodeMajor3E w) := by
  unfold decodeMajor3E
  split
  any_goals exact faithful_error w _
  all_goals exact faithful_fields rfl rfl

/-! ## The two modes -/

theorem decodeVector_faithful (w : BitVec 32) : Faithful w (decodeVector w) := by
  unfold decodeVector
  split
  any_goals exact faithful_error w _
  · exact decodeMajor01_faithful w
  · exact decodeMajor02_faithful w
  · exact decodeMajor03_faithful w
  · exact decodeMajor04_faithful w
  · exact decodeMajor05_faithful w
  · exact decodeMajor06_faithful w
  · exact decodeMajor07_faithful w
  · exact decodeMajor08_faithful w
  · exact decodeMajor09_faithful w
  · exact decodeMajor0A_faithful w
  · exact decodeMajor0B_faithful w
  · exact decodeMajor0C_faithful w
  · exact decodeMajor0D_faithful w
  · exact decodeMajor0E_faithful w
  · exact decodeMajor0F_faithful w
  · exact decodeMajor10_faithful w
  · exact decodeMajor11_faithful w
  · exact decodeMajor12_faithful w
  · exact decodeMajor13_faithful w
  · exact decodeMajor14_faithful w
  · exact decodeMajor15_faithful w
  · exact decodeMajor16_faithful w
  · exact decodeMajor17_faithful w
  · exact decodeMajor18_faithful w
  · exact decodeMajor19_faithful w
  · exact decodeMajor1C_faithful w
  · exact decodeMajor1D_faithful w
  · exact decodeMajor1E_faithful w
  · exact decodeMajor1F_faithful w
  · exact decodeMajor20_faithful w
  · exact decodeMajor21_faithful w
  · exact decodeMajor24_faithful w
  · exact decodeMajor28_faithful w
  · exact decodeMajor29_faithful w
  · exact decodeMajor2A_faithful w
  · exact decodeMajor2B_faithful w
  · exact decodeMajor3E_faithful w

theorem decodeTile_faithful (w : BitVec 32) : Faithful w (decodeTile w) := by
  unfold decodeTile
  split
  any_goals exact faithful_error w _
  · exact decodeMajor01_faithful w
  · exact decodeMajor02_faithful w
  · exact decodeMajor03_faithful w
  · exact decodeMajor04_faithful w
  · exact decodeMajor05_faithful w
  · exact decodeMajor06_faithful w
  · exact decodeMajor07_faithful w
  · exact decodeMajor08_faithful w
  · exact decodeMajor09_faithful w
  · exact decodeMajor0A_faithful w
  · exact decodeMajor0B_faithful w
  · exact decodeMajor0C_faithful w
  · exact decodeMajor0D_faithful w
  · exact decodeMajor0E_faithful w
  · exact decodeMajor0F_faithful w
  · exact decodeTile10_faithful w
  · exact decodeMajor1C_faithful w
  · exact decodeMajor1D_faithful w
  · exact decodeMajor1E_faithful w
  · exact decodeMajor1F_faithful w
  · exact decodeMajor20_faithful w
  · exact decodeMajor21_faithful w
  · exact decodeMajor28_faithful w
  · exact decodeMajor29_faithful w
  · exact decodeMajor2A_faithful w
  · exact decodeMajor2B_faithful w
  · exact decodeMajor3E_faithful w

theorem decodeWord_faithful (tile : Bool) (w : BitVec 32) : Faithful w (decodeWord tile w) := by
  cases tile with
  | false => exact decodeVector_faithful w
  | true => exact decodeTile_faithful w

/-- Settles O2: every decoder gives well-formed instructions alone, each from its own word. -/
theorem decodedWordsEncode : Obligations.DecodedWordsEncode := by
  unfold Obligations.DecodedWordsEncode
  exact decodeWord_faithful

/-- Settles O3: each word of the spec is looked up by evaluating the decoder. -/
theorem decodesWords : Obligations.DecodesWords := by
  unfold Obligations.DecodesWords
  intro v t
  and_intros <;> rfl

end Sys2Proof
end

section
/-! Control registers (08 R190, R191; 09 R217): what csrr reads, what a write leaves, and the writes that trap. -/

-- The text compiles as one file: one theorem at a time keeps it within the check's memory.
set_option Elab.async false

namespace Sys2Proof.Machine

theorem exec_csrr (d : BitVec 5) (r : BitVec 12) (s : State) : exec (.csrr d r) s = execCsrr d r s := rfl
theorem exec_csrw (n : BitVec 5) (r : BitVec 12) (s : State) : exec (.csrw n r) s = execCsrw n r s := rfl
theorem exec_csrs (n : BitVec 5) (r : BitVec 12) (s : State) : exec (.csrs n r) s = execCsrs n r s := rfl
theorem exec_csrc (n : BitVec 5) (r : BitVec 12) (s : State) : exec (.csrc n r) s = execCsrc n r s := rfl

/-- A thread at level U is in no handler. -/
theorem State.not_inHandler_of_user (s : State) (h : s.me.sup = false) : ¬ s.InHandler := by
  simp [State.InHandler, h]

/-- A refused access outside a handler enters it with cause permission. -/
theorem State.permission_traps (s : State) (h : ¬ s.InHandler) : s.TrapsTo (s.trap cPermission 0 0) 2 0 0 s.me.pc :=
  s.trap_enters cPermission 0 0 h

/-! ## The registers by number -/

/-- The register numbers of 08 R190. -/
def csrNumbers : List Nat := [0x000, 0x001, 0x002, 0x003, 0x004, 0x005, 0x006, 0x007, 0x008, 0x009, 0x00A, 0x00B, 0x00C, 0x00D, 0x00E, 0x00F, 0x010,
  0x018, 0x019, 0x01A, 0x01B, 0x01C, 0x01D, 0x01E, 0x01F, 0x100, 0x101, 0x102, 0x103, 0x104]

theorem toNat_csrNumber {r : Nat} (h : r ∈ csrNumbers) : (BitVec.ofNat 12 r).toNat = r :=
  Nat.mod_eq_of_lt ((by decide : ∀ r ∈ csrNumbers, r < 2 ^ 12) r h)

theorem csrWriteNeedsS_eq {r : Nat} (h : r ∈ csrNumbers) : csrWriteNeedsS r = decide (r ∈ csrWriteS) :=
  (by decide : ∀ r ∈ csrNumbers, csrWriteNeedsS r = decide (r ∈ csrWriteS)) r h

theorem csrNumbers_of_csrWriteS {r : Nat} (h : r ∈ csrWriteS) : r ∈ csrNumbers :=
  (by decide : ∀ r ∈ csrWriteS, r ∈ csrNumbers) r h

/-! ## What csrr reads -/

theorem Thread.vcf_eq (t : Thread) : t.vcf = w64 (256 * t.wsel.toNat + t.ncfg.toNat) :=
  congrArg (fun x => w64 (x + t.ncfg.toNat)) (Nat.mul_comm t.wsel.toNat 256)

theorem Thread.vwd_eq (t : Thread) : t.vwd =
    if t.wsel.toNat < 8 * 2 ^ t.ncfg.toNat then
      w64 (65536 * ((t.win[t.wsel.toNat]?).getD ⟨0, 0⟩).len.toNat + ((t.win[t.wsel.toNat]?).getD ⟨0, 0⟩).base.toNat)
    else 0 := by
  unfold Thread.vwd Thread.nregs
  by_cases h : t.wsel.toNat < 8 * 2 ^ t.ncfg.toNat
  · rw [if_pos h, if_neg (Nat.not_le.mpr h)]
    exact congrArg (fun x => w64 (x + _)) (Nat.mul_comm _ 65536)
  · rw [if_neg h, if_pos (Nat.not_lt.mp h)]

theorem Pair.lpr_eq (p : Pair) : p.lpr = w64 (2 ^ 24 * p.held1.toNat + 2 ^ 16 * p.held0.toNat + p.req.toNat) := by
  rw [Pair.lpr, Nat.mul_comm, Nat.mul_comm p.held0.toNat]

theorem Thread.qst_eq (t : Thread) : t.qst = w64 (2 ^ 24 * t.fromW.length + 2 ^ 16 * t.fromE.length + 2 ^ 8 * t.q1.length + t.q0.length) := by
  rw [Thread.qst, Nat.mul_comm, Nat.mul_comm t.fromE.length, Nat.mul_comm t.q1.length]

/-- The table of 08 R190 is what the model reads at each number. -/
theorem csrTable_eq (t : Thread) (p : Pair) : csrTable t p = csrNumbers.map fun r => (r, t.csr p r) := by
  unfold csrTable
  dsimp only
  rw [← Thread.vcf_eq, ← Thread.vwd_eq, ← Pair.lpr_eq, ← Thread.qst_eq]
  rfl

theorem mem_csrTable_iff (t : Thread) (p : Pair) (e : Nat × Word) : e ∈ csrTable t p ↔ e.1 ∈ csrNumbers ∧ t.csr p e.1 = e.2 := by
  rw [csrTable_eq, List.mem_map]
  exact ⟨fun ⟨r, hr, he⟩ => he ▸ ⟨hr, rfl⟩, fun ⟨hr, he⟩ => ⟨e.1, hr, Prod.ext rfl he⟩⟩

theorem execCsrr_reads (s : State) (d : BitVec 5) (r : BitVec 12) (h : r.toNat < 0x100 ∨ s.me.sup = true) :
    execCsrr d r s = .next (s.result d (s.me.csr s.myPair r.toNat)) := by
  have allowed : (csrNeedsS r.toNat && !s.me.sup) = false := by
    rcases h with h | h
    · rw [csrNeedsS, decide_eq_false (Nat.not_le.mpr h), Bool.false_and]
    · rw [h, Bool.not_true, Bool.and_false]
  unfold execCsrr
  rw [allowed]; rfl

theorem execCsrr_refused (s : State) (d : BitVec 5) (r : BitVec 12) (h : 0x100 ≤ r.toNat) (hs : s.me.sup = false) :
    execCsrr d r s = .next (s.trap cPermission 0 0) := by
  have refused : (csrNeedsS r.toNat && !s.me.sup) = true :=
    Bool.and_eq_true_iff.mpr ⟨decide_eq_true h, congrArg not hs⟩
  unfold execCsrr
  rw [refused]; rfl

/-- Settles O15: the model's read of each register of the table, and the refusal at level U. -/
theorem controlRead : Obligations.ControlRead := by
  unfold Obligations.ControlRead
  intro s d hr e he
  obtain ⟨hlisted, hv⟩ := (mem_csrTable_iff ..).mp he
  have hnum := toNat_csrNumber hlisted
  constructor
  · intro h
    refine ⟨_, (exec_csrr ..).trans (execCsrr_reads s d _ (by rwa [hnum])), ?_⟩
    rw [hnum, hv]
    exact s.result_writes d _ hr
  · intro h hs
    exact ⟨_, (exec_csrr ..).trans (execCsrr_refused s d _ (by rwa [hnum]) hs), s.permission_traps (s.not_inHandler_of_user hs)⟩

/-! ## What a write leaves -/

theorem Thread.setCsr_pc (t : Thread) (r : Nat) (v : Word) : (t.setCsr r v).pc = t.pc := by
  unfold Thread.setCsr
  repeat' split
  all_goals rfl

/-- FCS keeps its rounding mode when the value's is reserved (07 R170). -/
theorem Thread.setCsr_fcs (t : Thread) (v : Word) : t.setCsr 0x00C v =
    { t with fcs := (v &&& 0xFFFFFFFFFF1F1F18) ||| w64 (if bits v 2 0 ≤ 5 then bits v 2 0 else t.fcs.toNat % 8) } := by
  have same : (if 6 ≤ bits v 2 0 then bits t.fcs 2 0 else bits v 2 0) = if bits v 2 0 ≤ 5 then bits v 2 0 else t.fcs.toNat % 8 := by
    by_cases h : bits v 2 0 ≤ 5
    · rw [if_pos h, if_neg (by omega)]
    · rw [if_neg h, if_pos (by omega)]; simp [bits]
  rw [← same]; rfl

/-- A write of TCR changes its bit 0 alone (09 R223). -/
theorem Thread.setCsr_tcr (t : Thread) (v : Word) : t.setCsr 0x00D v = { t with tcr := (t.tcr &&& ~~~1) ||| (v &&& 1) } := by
  have low : BitVec.ofNat 64 (bits v 0 0) &&& 1 = v &&& 1 := by
    apply BitVec.eq_of_toNat_eq
    simp [bits]
  have same : setBits t.tcr 0 0 (bits v 0 0) = (t.tcr &&& ~~~1) ||| (v &&& 1) := by
    rw [← low, setBits, BitVec.shiftLeft_zero, BitVec.shiftLeft_zero]; rfl
  rw [← same]; rfl

/-- A class slot of SKZ is empty, or its k and m are in order and in range (17 R354). -/
abbrev SkzSlot (v : Word) (c : Nat) : Prop :=
  bits v (16 * c + 15) (16 * c) = 0 ∨
    (bits v (16 * c + 15) (16 * c + 13) = 0 ∧ 2 ≤ bits v (16 * c + 4) (16 * c) ∧
      bits v (16 * c + 4) (16 * c) ≤ bits v (16 * c + 12) (16 * c + 8) ∧ bits v (16 * c + 12) (16 * c + 8) ≤ 20)

/-- A field of a class slot is a field of the slot's 16 bits. -/
theorem bits_slot (v : Word) (c hi lo : Nat) (hlo : lo ≤ hi) (hhi : hi ≤ 15) :
    bits v (16 * c + hi) (16 * c + lo) = bits v (16 * c + 15) (16 * c) / 2 ^ lo % 2 ^ (hi + 1 - lo) := by
  have whole : 16 * c + 15 + 1 - 16 * c = lo + (16 - lo) := by omega
  have part : 16 * c + hi + 1 - (16 * c + lo) = hi + 1 - lo := by omega
  have fits : 2 ^ (hi + 1 - lo) ∣ 2 ^ (16 - lo) := Nat.pow_dvd_pow 2 (by omega)
  rw [bits, bits, whole, part, Nat.pow_add 2 (16 * c), ← Nat.div_div_eq_div_mul, Nat.pow_add 2 lo, Nat.mod_mul_right_div_self,
    Nat.mod_mod_of_dvd _ fits]

theorem skzOk_iff (v : Word) : skzOk v = true ↔ SkzSlot v 0 ∧ SkzSlot v 1 ∧ SkzSlot v 2 ∧ SkzSlot v 3 := by
  have slot (c : Nat) :
      (let x := bits v (16 * c + 15) (16 * c)
       let k := x % 32
       let m := x / 256 % 32
       x == 0 || (x / 8192 == 0 && decide (2 ≤ k) && decide (k ≤ 20) && decide (2 ≤ m) && decide (m ≤ 20) && decide (k ≤ m))) = true ↔
      SkzSlot v c := by
    have k := bits_slot v c 4 0 (by omega) (by omega)
    have m := bits_slot v c 12 8 (by omega) (by omega)
    have top := bits_slot v c 15 13 (by omega) (by omega)
    have small : bits v (16 * c + 15) (16 * c) < 2 ^ 16 := by
      rw [bits, show 16 * c + 15 + 1 - 16 * c = 16 by omega]
      exact Nat.mod_lt _ (by decide)
    rw [SkzSlot, top, m, show 16 * c = 16 * c + 0 from rfl, k]
    generalize bits v (16 * c + 15) (16 * c + 0) = x at *
    simp only [Bool.or_eq_true, beq_iff_eq, Bool.and_eq_true, decide_eq_true_eq, Nat.reduceAdd, Nat.reduceSub, Nat.reducePow]
    omega
  simp only [← slot]
  simp [skzOk, List.range, List.range.loop, List.all, and_assoc]

theorem Thread.setCsr_skz (t : Thread) (v : Word) :
    t.setCsr 0x00F v = if SkzSlot v 0 ∧ SkzSlot v 1 ∧ SkzSlot v 2 ∧ SkzSlot v 3 then { t with skz := v } else t := by
  have model : t.setCsr 0x00F v = if skzOk v = true then { t with skz := v } else t := rfl
  rw [model]
  by_cases h : skzOk v = true
  · rw [if_pos h, if_pos ((skzOk_iff v).mp h)]
  · rw [if_neg h, if_neg (mt (skzOk_iff v).mpr h)]

/-- What the model writes at each number but VTY's is the table's. -/
theorem csrWrites_eq (t : Thread) (v : Word) : csrWrites t v = (csrNumbers.erase 0x001).map fun r => (r, t.setCsr r v) := by
  rw [show csrNumbers.erase 0x001 = 0x000 :: csrNumbers.drop 2 from rfl]
  simp only [csrNumbers, List.drop_succ_cons, List.drop_zero, List.map_cons, List.map_nil, Thread.setCsr_fcs, Thread.setCsr_tcr, Thread.setCsr_skz]
  rfl

theorem mem_csrWrites {t : Thread} {v : Word} {e : Nat × Thread} (h : e ∈ csrWrites t v) : e.1 ≠ 0x001 ∧ t.setCsr e.1 v = e.2 := by
  rw [csrWrites_eq, List.mem_map] at h
  obtain ⟨r, hr, rfl⟩ := h
  exact ⟨(by decide : ∀ r ∈ csrNumbers.erase 0x001, r ≠ 0x001) r hr, rfl⟩

/-- Whether a write of a register is refused at a thread's level. -/
theorem State.csrWrite_refused (s : State) (word : BitVec 32) (r : BitVec 12) (f : Word → Word) (hr : csrWriteNeedsS r.toNat = true)
    (hs : s.me.sup = false) : s.csrWrite word r f = s.trap cPermission 0 0 := by
  unfold State.csrWrite
  rw [hr, hs]; rfl

/-- A write that the level and the value let through. -/
theorem State.csrWrite_sets (s : State) (word : BitVec 32) (r : BitVec 12) (f : Word → Word)
    (hlevel : s.me.sup = true ∨ csrWriteNeedsS r.toNat = false) (hvalue : r = 1 → vtyBad (f (s.me.csr s.myPair r.toNat)) = false) :
    s.csrWrite word r f = (s.setMe (s.me.setCsr r.toNat (f (s.me.csr s.myPair r.toNat)))).retire := by
  have allowed : (csrWriteNeedsS r.toNat && !s.me.sup) = false := by
    rcases hlevel with h | h
    · rw [h, Bool.not_true, Bool.and_false]
    · rw [h, Bool.false_and]
  have legal : (decide (r = 1) && vtyBad (f (s.me.csr s.myPair r.toNat))) = false := by
    by_cases h : r = 1
    · rw [hvalue h, Bool.and_false]
    · rw [decide_eq_false h, Bool.false_and]
  unfold State.csrWrite
  dsimp only
  rw [allowed, legal]; rfl

/-- A reserved value of VTY is refused (08 R191). -/
theorem State.csrWrite_reserved (s : State) (word : BitVec 32) (f : Word → Word) (h : vtyBad (f s.me.vty) = true) :
    s.csrWrite word 1 f = s.illegal word .reservedField := by
  have writable : csrWriteNeedsS (1 : BitVec 12).toNat = false := by decide
  have value : f (s.me.csr s.myPair (1 : BitVec 12).toNat) = f s.me.vty := rfl
  unfold State.csrWrite
  dsimp only
  rw [writable, value, h]; rfl

/-- A write of a listed register but VTY, at a level that may, outside a replay. -/
theorem State.csrWrite_listed (s : State) (word : BitVec 32) (r : Nat) (f : Word → Word) (hlevel : s.me.sup = true ∨ r ∉ csrWriteS)
    (hlisted : r ∈ csrNumbers) (e : Nat × Thread) (he : e ∈ csrWrites s.me (f (s.me.csr s.myPair r))) (her : e.1 = r)
    (hr : e.2.replaying = false) :
    s.csrWrite word (BitVec.ofNat 12 r) f = s.setMe { e.2 with lastFault := none, pc := s.me.pc + 4 } := by
  subst her
  obtain ⟨hne, hset⟩ := mem_csrWrites he
  have hnum := toNat_csrNumber hlisted
  have hlevel : s.me.sup = true ∨ csrWriteNeedsS (BitVec.ofNat 12 e.1).toNat = false := by
    rw [hnum, csrWriteNeedsS_eq hlisted, decide_eq_false_iff_not]
    exact hlevel
  have hvty : BitVec.ofNat 12 e.1 ≠ 1 := fun h => hne (hnum ▸ congrArg BitVec.toNat h)
  rw [s.csrWrite_sets word _ f hlevel fun h => absurd h hvty, hnum, hset, s.setMe_retire _ hr, ← hset, Thread.setCsr_pc]

/-- Settles O16: csrw, csrs and csrc are one write, of three functions of the old value. -/
theorem controlWrite : Obligations.ControlWrite := by
  unfold Obligations.ControlWrite
  intro s n r old hlevel hold
  obtain ⟨hlisted, hv⟩ := (mem_csrTable_iff ..).mp hold
  dsimp only at hv hlisted
  subst hv
  refine ⟨fun e he her hr => ?_, fun e he her hr => ?_, fun e he her hr => ?_⟩
  · exact ⟨_, exec_csrw .., s.csrWrite_listed _ r (fun _ => s.sr n) hlevel hlisted e he her hr⟩
  · exact ⟨_, exec_csrs .., s.csrWrite_listed _ r (fun old => old ||| s.sr n) hlevel hlisted e he her hr⟩
  · exact ⟨_, exec_csrc .., s.csrWrite_listed _ r (fun old => old &&& ~~~(s.sr n)) hlevel hlisted e he her hr⟩

/-! ## The writes that trap -/

theorem vtyBad_iff (v : Word) : vtyBad v = true ↔
    2 ^ 14 ≤ v.toNat ∨ v.toNat % 16 = 6 ∨ v.toNat / 256 % 16 ∈ [1, 2, 9, 10, 11, 12, 13, 14, 15] := by
  have high : bits v 63 14 ≠ 0 ↔ 2 ^ 14 ≤ v.toNat := by
    have := v.isLt
    simp only [bits]
    omega
  have low : bits v 3 0 = v.toNat % 16 := by simp [bits]
  rw [vtyBad, Bool.or_eq_true, Bool.or_eq_true, bne_iff_ne, beq_iff_eq, List.contains_iff_mem, high, low, or_assoc]
  rfl

/-- Settles O17: the level's check comes first, then VTY's own. -/
theorem controlWriteChecks : Obligations.ControlWriteChecks := by
  unfold Obligations.ControlWriteChecks
  intro s n hr hh
  refine ⟨fun r hrs hs => ?_, fun hbad => ?_, fun hok => ?_⟩
  · have hlisted := csrNumbers_of_csrWriteS hrs
    have refused (word : BitVec 32) (f : Word → Word) : s.TrapsTo (s.csrWrite word (BitVec.ofNat 12 r) f) 2 0 0 s.me.pc := by
      rw [s.csrWrite_refused word _ f (by rw [toNat_csrNumber hlisted, csrWriteNeedsS_eq hlisted, decide_eq_true hrs]) hs]
      exact s.permission_traps hh
    exact ⟨⟨_, exec_csrw .., refused ..⟩, ⟨_, exec_csrs .., refused ..⟩, ⟨_, exec_csrc .., refused ..⟩⟩
  · refine ⟨_, rfl, _, exec_csrw .., ?_⟩
    rw [s.csrWrite_reserved _ _ ((vtyBad_iff _).mpr hbad)]
    exact s.illegal_traps _ .reservedField hh
  · refine ⟨_, exec_csrw .., ?_⟩
    rw [s.csrWrite_sets _ 1 _ (.inr (by decide)) fun _ => Bool.eq_false_iff.mpr (mt (vtyBad_iff _).mp hok)]
    exact s.setMe_retire _ hr

end Sys2Proof.Machine
end

section
/-! Vector configuration without lanes (08 R191; 10 R231, R232): vtype, vwin and lpart. -/

-- The text compiles as one file: one theorem at a time keeps it within the check's memory.
set_option Elab.async false

namespace Sys2Proof.Machine

theorem exec_vtype (n : BitVec 5) (s : State) : exec (.vtype n) s = execVtype n s := rfl
theorem exec_vwin (d : BitVec 6) (n : BitVec 5) (s : State) : exec (.vwin d n) s = execVwin d n s := rfl
theorem exec_lpart (n : BitVec 5) (s : State) : exec (.lpart n) s = execLpart n s := rfl

/-! ## vtype -/

theorem execVtype_reserved (s : State) (n : BitVec 5) (h : vtyBad (s.sr n) = true) :
    execVtype n s = .next (s.illegal (Enc.vtype n) .reservedField) := by
  rw [execVtype, if_pos h]

theorem execVtype_sets (s : State) (n : BitVec 5) (h : vtyBad (s.sr n) = false) :
    execVtype n s = .next (s.setMe { s.me with vty := s.sr n }).retire := by
  rw [execVtype, if_neg (Bool.eq_false_iff.mp h)]

/-! ## vwin: 10 R231 -/

/-- The values vwin refuses: a reserved bit, or a window that is empty or ends beyond the register storage. -/
def WindowReserved (v : Word) : Prop :=
  2 ^ 27 ≤ v.toNat ∨ v.toNat / 1024 % 64 ≠ 0 ∨ v.toNat / 65536 % 2048 = 0 ∨ 1024 < v.toNat % 1024 + v.toNat / 65536 % 2048

/-- The model's check names the length's own bound besides, which the end's implies. -/
theorem windowReserved_iff (v : Word) : WindowReserved v ↔
    bits v 63 27 ≠ 0 ∨ bits v 15 10 ≠ 0 ∨ bits v 26 16 = 0 ∨ 1024 < bits v 26 16 ∨ 1024 < bits v 9 0 + bits v 26 16 := by
  have := v.isLt
  simp only [WindowReserved, bits]
  omega

theorem execVwin_reserved (s : State) (d : BitVec 6) (n : BitVec 5) (h : WindowReserved (s.sr n)) :
    execVwin d n s = .next (s.illegal (Enc.vwin d n) .reservedField) := by
  rw [execVwin]
  dsimp only
  rw [if_pos ((windowReserved_iff _).mp h)]

theorem execVwin_absent (s : State) (d : BitVec 6) (n : BitVec 5) (h : ¬ WindowReserved (s.sr n)) (hd : s.me.nregs ≤ d.toNat) :
    execVwin d n s = .next (s.illegal (Enc.vwin d n) .absentRegister) := by
  rw [execVwin]
  dsimp only
  rw [if_neg (mt (windowReserved_iff _).mpr h), if_pos hd]

theorem execVwin_sets (s : State) (d : BitVec 6) (n : BitVec 5) (h : ¬ WindowReserved (s.sr n)) (hd : d.toNat < s.me.nregs) :
    execVwin d n s = .next (s.setMe { s.me with
      win := s.me.win.setIfInBounds d.toNat ⟨BitVec.ofNat 10 ((s.sr n).toNat % 1024), BitVec.ofNat 11 ((s.sr n).toNat / 65536 % 2048)⟩
    }).retire := by
  have base : bits (s.sr n) 9 0 = (s.sr n).toNat % 1024 := by simp [bits]
  rw [execVwin]
  dsimp only
  rw [if_neg (mt (windowReserved_iff _).mpr h), if_neg (Nat.not_le.mpr hd), base]
  rfl

/-! ## lpart: 10 R232 -/

/-- The values lpart refuses: a reserved bit, or a lane group asked for by a thread that is none. -/
def LanesReserved (v : Word) : Prop := 2 ^ 16 ≤ v.toNat ∨ ∃ g, g < 8 ∧ v.toNat / 4 ^ g % 4 = 3

theorem lanesReserved_iff (v : Word) : LanesReserved v ↔
    (bits v 63 16 ≠ 0 ∨ (List.range 8).any (fun g => v.toNat / 4 ^ g % 4 == 3) = true) := by
  have high : bits v 63 16 ≠ 0 ↔ 2 ^ 16 ≤ v.toNat := by
    have := v.isLt
    simp only [bits]
    omega
  rw [LanesReserved, high, List.any_eq_true]
  simp only [List.mem_range, beq_iff_eq]

theorem execLpart_reserved (s : State) (n : BitVec 5) (h : LanesReserved (s.sr n)) :
    execLpart n s = .next (s.illegal (Enc.lpart n) .reservedField) := by
  rw [execLpart]
  dsimp only
  rw [if_pos ((lanesReserved_iff _).mp h)]

theorem execLpart_sets (s : State) (n : BitVec 5) (h : ¬ LanesReserved (s.sr n)) :
    execLpart n s = .next (s.setPair s.myL { s.myPair with req := BitVec.ofNat 16 (s.sr n).toNat }).retire := by
  rw [execLpart]
  dsimp only
  rw [if_neg (mt (lanesReserved_iff _).mpr h)]

/-- Outside a replay an instruction that changed its pair alone completes at the next word. -/
theorem State.setPair_retire (s : State) (l : Nat) (p : Pair) (h : s.me.replaying = false) :
    (s.setPair l p).retire = (s.setPair l p).setMe { s.me with lastFault := none, pc := s.me.pc + 4 } := by
  have me : (s.setPair l p).me = s.me := rfl
  rw [State.retire, me, Thread.retire_plain _ h]

/-- Settles O28: for each of the three, the values it refuses and what it writes. -/
theorem vectorSetup : Obligations.VectorSetup := by
  unfold Obligations.VectorSetup
  intro s d n hr
  refine ⟨fun h hh => ?_, fun h => ?_, fun h hh => ?_, fun h hd hh => ?_, fun h hd => ?_, fun h hh => ?_, fun h => ?_⟩
  · exact ⟨_, rfl, _, (exec_vtype ..).trans (execVtype_reserved s n ((vtyBad_iff _).mpr h)), s.illegal_traps _ .reservedField hh⟩
  · exact ⟨_, (exec_vtype ..).trans (execVtype_sets s n (Bool.eq_false_iff.mpr (mt (vtyBad_iff _).mp h))), s.setMe_retire _ hr⟩
  · exact ⟨_, rfl, _, (exec_vwin ..).trans (execVwin_reserved s d n h), s.illegal_traps _ .reservedField hh⟩
  · exact ⟨_, rfl, _, (exec_vwin ..).trans (execVwin_absent s d n h hd), s.illegal_traps _ .absentRegister hh⟩
  · exact ⟨_, (exec_vwin ..).trans (execVwin_sets s d n h hd), s.setMe_retire _ hr⟩
  · exact ⟨_, rfl, _, (exec_lpart ..).trans (execLpart_reserved s n h), s.illegal_traps _ .reservedField hh⟩
  · exact ⟨_, (exec_lpart ..).trans (execLpart_sets s n h), s.setPair_retire _ _ hr⟩

end Sys2Proof.Machine
end

section
/-! The step of a thread whose schedule is idle (08 R192, R194, R197; 06 R151). -/

-- The text compiles as one file: one theorem at a time keeps it within the check's memory.
set_option Elab.async false

namespace Sys2Proof.Machine

theorem step_idle (s : State) (h : s.agenda = []) : step s = issue s := by
  rw [step, h]

/-- A thread that issues with an empty vector queue executes the word at its program counter. -/
theorem issue_word (s t : State) (w : BitVec 32) (hi : s.me.issues = true) (hq : s.me.vq = []) (hf : s.fetch s.tid = (.word w, t)) :
    issue s = t.enqueue w (execWord t w) := by
  unfold issue
  rw [hi, hq, hf]; rfl

theorem execWord_ok {s : State} {w : BitVec 32} {i : Instr} (h : decodeWord s.me.tile w = .ok i) : execWord s w = exec i s := by
  rw [execWord, h]

theorem execWord_error {s : State} {w : BitVec 32} {sub : IllegalSub} (h : decodeWord s.me.tile w = .error sub) :
    execWord s w = exec (.illegalInstruction w sub) s := by
  rw [execWord, h]

/-- An instruction that waits in the vector queue: its word is one that queues, and its thread stands where it stood (06 R151). -/
def State.WaitsInQueue (t : State) (w : BitVec 32) (o : Host.Outcome State Fault Refusal) (z : State) : Prop :=
  o = .next z ∧ queues w = true ∧ z.me.stays t.me = true

theorem State.enqueue_waits {t z : State} {w : BitVec 32} {o : Host.Outcome State Fault Refusal} (h : t.WaitsInQueue w o z) :
    t.enqueue w o = .next (z.defer w) := by
  obtain ⟨rfl, hq, hs⟩ := h
  rw [State.enqueue, hq, hs]; rfl

theorem State.enqueue_goes {t : State} {w : BitVec 32} {o : Host.Outcome State Fault Refusal} (h : ∀ z, ¬ t.WaitsInQueue w o z) :
    t.enqueue w o = o := by
  cases o with
  | next z =>
    have goes : (queues w && z.me.stays t.me) = false :=
      Bool.eq_false_iff.mpr fun hz => h z ⟨rfl, Bool.and_eq_true_iff.mp hz⟩
    rw [State.enqueue, goes]; rfl
  | _ => rfl

/-- Settles O4: the step is the word's execution, put in the queue where it waits. -/
theorem stepRunsDecoded : Obligations.StepRunsDecoded := by
  unfold Obligations.StepRunsDecoded
  intro s t w ha hi hq hf
  have hstep : step s = t.enqueue w (execWord t w) := (step_idle s ha).trans (issue_word s t w hi hq hf)
  have runs {o : Host.Outcome State Fault Refusal} (ho : execWord t w = o) :
      (∀ z, t.WaitsInQueue w o z → step s = .next (z.defer w)) ∧ ((∀ z, ¬ t.WaitsInQueue w o z) → step s = o) := by
    rw [hstep, ho]
    exact ⟨fun _ h => State.enqueue_waits h, State.enqueue_goes⟩
  exact ⟨fun _ h => runs (execWord_ok h), fun _ h => runs (execWord_error h)⟩

end Sys2Proof.Machine
end

section
/-! Scalar integers (09 R203 to R205): the register and the immediate forms, and the values they give. -/

-- The text compiles as one file: one theorem at a time keeps it within the check's memory.
set_option Elab.async false

namespace Sys2Proof.Machine

/-- Outside a replay an instruction whose meaning is a scalar result writes its value and nothing else. -/
theorem completes_result {i : Instr} {s : State} {d : BitVec 5} {v v' : Word} (hr : s.me.replaying = false)
    (he : exec i s = .next (s.result d v')) (hv : v' = v) : Completes i s fun t => s.WritesScalar t d v :=
  ⟨_, he, hv ▸ s.result_writes d v' hr⟩

/-! ## Comparisons: 09 R203 -/

theorem ite_slt {α : Type} (a b : Word) (x y : α) : (if a.slt b then x else y) = if a.toInt < b.toInt then x else y := by
  simp only [BitVec.slt_iff_toInt_lt]

theorem ite_ult {α : Type} (a b : Word) (x y : α) : (if a.ult b then x else y) = if a.toNat < b.toNat then x else y := by
  simp only [BitVec.ult_iff_toNat_lt]

theorem flag_slt (a b : Word) : flag (a.slt b) = if a.toInt < b.toInt then 1 else 0 := ite_slt a b 1 0
theorem flag_ult (a b : Word) : flag (a.ult b) = if a.toNat < b.toNat then 1 else 0 := ite_ult a b 1 0

/-! ## Products and quotients: 09 R203, R204 -/

theorem mul_eq_ofNat (a b : Word) : a * b = BitVec.ofNat 64 (a.toNat * b.toNat) := by
  rw [BitVec.ofNat_mul, BitVec.ofNat_toNat, BitVec.ofNat_toNat, BitVec.setWidth_eq, BitVec.setWidth_eq]

/-- The quotient that overflows wraps, as the conversion of the exact one does. -/
theorem sdiv_eq_tdiv (a b : Word) : sdiv a b = if b = 0 then BitVec.allOnes 64 else BitVec.ofInt 64 (a.toInt.tdiv b.toInt) := by
  have quot : a.sdiv b = BitVec.ofInt 64 (a.toInt.tdiv b.toInt) :=
    BitVec.eq_of_toInt_eq (by rw [BitVec.toInt_sdiv, BitVec.toInt_ofInt])
  rw [sdiv, quot]

theorem srem_eq_tmod (a b : Word) : srem a b = if b = 0 then a else BitVec.ofInt 64 (a.toInt.tmod b.toInt) := by
  rw [srem, ← BitVec.toInt_srem, BitVec.ofInt_toInt]

theorem udiv_eq_div (a b : Word) : udiv a b = if b = 0 then BitVec.allOnes 64 else BitVec.ofNat 64 (a.toNat / b.toNat) := by
  have quot : a.udiv b = BitVec.ofNat 64 (a.toNat / b.toNat) := by
    rw [← BitVec.toNat_udiv, BitVec.ofNat_toNat, BitVec.setWidth_eq]; rfl
  rw [udiv, quot]

theorem urem_eq_mod (a b : Word) : urem a b = if b = 0 then a else BitVec.ofNat 64 (a.toNat % b.toNat) := by
  have rem : a.umod b = BitVec.ofNat 64 (a.toNat % b.toNat) := by
    rw [← BitVec.toNat_umod, BitVec.ofNat_toNat, BitVec.setWidth_eq]; rfl
  rw [urem, rem]

/-- Settles O6: every register form is a scalar result; what is left is the value of each. -/
theorem aluRegister : Obligations.AluRegister := by
  unfold Obligations.AluRegister
  constructor
  · intro s d n m x hr a b gives
    have exactly {i : Instr} {v : Word} (he : exec i s = .next (s.result d v)) : gives i v := completes_result hr he rfl
    refine ⟨exactly rfl, exactly rfl, exactly rfl, exactly rfl, exactly rfl, exactly rfl, exactly rfl, exactly rfl,
      completes_result hr rfl (flag_slt a b), completes_result hr rfl (flag_ult a b),
      completes_result hr rfl (mul_eq_ofNat a b), exactly rfl, exactly rfl,
      completes_result hr rfl (ite_slt a b a b), completes_result hr rfl (ite_slt a b b a),
      completes_result hr rfl (ite_ult a b a b), completes_result hr rfl (ite_ult a b b a),
      exactly rfl, exactly rfl, exactly rfl, completes_result hr rfl (ite_not (s.sr x = 0) a b).symm, exactly rfl⟩
  · intro s d n m hr a b gives
    exact ⟨completes_result hr rfl (sdiv_eq_tdiv a b), completes_result hr rfl (udiv_eq_div a b),
      completes_result hr rfl (srem_eq_tmod a b), completes_result hr rfl (urem_eq_mod a b)⟩

/-! ## Immediates: 09 R205 -/

theorem toInt_imm {n : Nat} (i : BitVec n) (h : n ≤ 64) : (imm i).toInt = i.toInt := BitVec.toInt_signExtend_of_le h

/-- A sign-extended immediate times a constant. -/
theorem imm_mul_ofInt {n : Nat} (i : BitVec n) (k : Int) : imm i * BitVec.ofInt 64 k = BitVec.ofInt 64 (i.toInt * k) :=
  (BitVec.ofInt_mul _ _).symm

/-- Settles O7: every immediate form is a scalar result on the sign-extended immediate. -/
theorem aluImmediate : Obligations.AluImmediate := by
  unfold Obligations.AluImmediate
  intro s d n im sh hi hr a b gives
  have exactly {i : Instr} {v : Word} (he : exec i s = .next (s.result d v)) : gives i v := completes_result hr he rfl
  have less : flag (a.slt (imm im)) = if a.toInt < im.toInt then 1 else 0 := by
    rw [flag_slt, toInt_imm im (by decide)]
  exact ⟨exactly rfl, exactly rfl, exactly rfl, exactly rfl, completes_result hr rfl less, exactly rfl, exactly rfl, exactly rfl,
    completes_result hr rfl (imm_mul_ofInt hi 4096)⟩

end Sys2Proof.Machine
end

section
/-! Branches and jumps (09 R210, R211): where each goes, what it links, and the misaligned target that traps. -/

-- The text compiles as one file: one theorem at a time keeps it within the check's memory.
set_option Elab.async false

namespace Sys2Proof.Machine

/-! ## Conditions and offsets -/

theorem not_slt (a b : Word) : (!a.slt b) = decide (b.toInt ≤ a.toInt) := by
  rw [BitVec.slt_eq_decide, ← decide_not, decide_eq_decide, Int.not_lt]

theorem not_ult (a b : Word) : (!a.ult b) = decide (b.toNat ≤ a.toNat) := by
  rw [BitVec.ult_eq_decide, ← decide_not, decide_eq_decide, Nat.not_lt]

/-- An offset counts words. -/
theorem four_mul_imm {n : Nat} (o : BitVec n) : 4 * imm o = BitVec.ofInt 64 (4 * o.toInt) := by
  rw [BitVec.mul_comm, Int.mul_comm]; exact imm_mul_ofInt o 4

/-! ## Branches: 09 R210 -/

theorem State.branch_goes (s : State) {n : Nat} (c : Bool) (o : BitVec n) (hr : s.me.replaying = false) :
    s.GoesTo (s.branch c o) (if c then s.me.pc + BitVec.ofInt 64 (4 * o.toInt) else s.me.pc + 4) := by
  cases c with
  | false => exact s.retire_goes hr
  | true =>
    rw [if_pos rfl, ← four_mul_imm]
    exact s.jump_goes _

/-- Outside a replay an instruction that is a branch goes by its condition. -/
theorem completes_branch {i : Instr} {s : State} {word : BitVec 32} {cond : State → Bool} {c : Bool} {o : BitVec 13} (hr : s.me.replaying = false)
    (he : exec i s = .next (s.unlessReplay word fun s => s.branch (cond s) o)) (hc : cond s = c) :
    Completes i s fun t => s.GoesTo t (if c then s.me.pc + BitVec.ofInt 64 (4 * o.toInt) else s.me.pc + 4) := by
  rw [s.unlessReplay_plain hr] at he
  exact ⟨_, he, hc ▸ s.branch_goes (cond s) o hr⟩

/-! ## A register and the pc -/

/-- The scalar register d receives v, the pc a target, and nothing else changes. -/
def State.LinksTo (s t : State) (d : BitVec 5) (v target : Word) : Prop :=
  t = s.setMe { s.me with s := t.me.s, lastFault := none, pc := target } ∧ ∀ k, t.sr k = if k = d ∧ d ≠ 0 then v else s.sr k

/-- Going on after a register was written. -/
theorem State.setS_goes {s t : State} {d : BitVec 5} {v target : Word} (h : (s.setS d v).GoesTo t target) : s.LinksTo t d v target := by
  obtain rfl : t = s.setMe { s.me.setS d v with lastFault := none, pc := target } := by
    rw [h, State.setS, State.me_setMe, State.setMe_setMe]
  constructor
  · rw [Thread.setS_eq, State.me_setMe]
  · intro k
    rw [← s.sr_setS d k v]
    simp only [State.sr, State.setS, State.me_setMe]
    exact Thread.sreg_of_s rfl k

/-! ## Jumps: 09 R210, R197 -/

theorem execJal_links (s : State) (d : BitVec 5) (im : BitVec 21) (hr : s.me.replaying = false) :
    ∃ t, execJal d im s = .next t ∧ s.LinksTo t d (s.me.pc + 4) (s.me.pc + BitVec.ofInt 64 (4 * im.toInt)) := by
  rw [execJal, s.unlessReplay_plain hr, four_mul_imm]
  exact ⟨_, rfl, State.setS_goes (State.jump_goes ..)⟩

theorem execJalr_links (s : State) (d n : BitVec 5) (o : BitVec 13) (hr : s.me.replaying = false) (h : (s.sr n + imm o).toNat % 4 = 0) :
    ∃ t, execJalr d n o s = .next t ∧ s.LinksTo t d (s.me.pc + 4) (s.sr n + imm o) := by
  rw [execJalr, s.unlessReplay_plain hr]
  dsimp only
  rw [if_neg (not_not_intro h)]
  exact ⟨_, rfl, State.setS_goes (State.jump_goes ..)⟩

theorem execJalr_misaligned (s : State) (d n : BitVec 5) (o : BitVec 13) (hr : s.me.replaying = false) (h : (s.sr n + imm o).toNat % 4 ≠ 0) :
    execJalr d n o s = .next (s.trap cMisaligned 0 (s.sr n + imm o)) := by
  rw [execJalr, s.unlessReplay_plain hr]
  dsimp only
  rw [if_pos h]

/-! ## vloop: 09 R211 -/

/-- What vloop leaves to do of a count: the count less the strip, not below 0. -/
def State.stripsLeft (s : State) (n : BitVec 5) : Word := if s.me.vl.toNat < (s.sr n).toNat then s.sr n - s.me.vl else 0

theorem execVloop_counts (s : State) (n : BitVec 5) (o : BitVec 13) (hr : s.me.replaying = false) (hn : n ≠ 0) :
    execVloop n o s = .next ((s.setS n (s.stripsLeft n)).branch (s.stripsLeft n != 0) o) := by
  rw [execVloop, s.unlessReplay_plain hr]
  dsimp only
  rw [if_neg hn, ite_ult]; rfl

theorem execVloop_links (s : State) (n : BitVec 5) (o : BitVec 13) (hr : s.me.replaying = false) (hn : n ≠ 0) :
    ∃ t, execVloop n o s = .next t ∧ s.LinksTo t n (s.stripsLeft n)
      (if s.stripsLeft n = 0 then s.me.pc + 4 else s.me.pc + BitVec.ofInt 64 (4 * o.toInt)) := by
  have kept : (s.setS n (s.stripsLeft n)).me.replaying = false := by rw [State.me_setS, Thread.replaying_setS, hr]
  have goes := State.branch_goes _ (s.stripsLeft n != 0) o kept
  rw [State.me_setS, Thread.setS_eq] at goes
  simp only [bne_iff_ne, ite_not] at goes
  exact ⟨_, execVloop_counts s n o hr hn, State.setS_goes goes⟩

/-- Settles O8: the branches by their conditions; jal, jalr and vloop by the register they write and where they go. -/
theorem branchesAndJumps : Obligations.BranchesAndJumps := by
  unfold Obligations.BranchesAndJumps
  constructor
  · intro s n m o hr a b goes
    exact ⟨completes_branch hr rfl rfl, completes_branch hr rfl rfl, completes_branch hr rfl BitVec.slt_eq_decide,
      completes_branch hr rfl (not_slt a b), completes_branch hr rfl BitVec.ult_eq_decide, completes_branch hr rfl (not_ult a b)⟩
  · intro s d n im o hr links target left
    refine ⟨execJal_links s d im hr, execJalr_links s d n o hr, fun h hh => ?_, fun hn => ?_⟩
    · exact ⟨_, execJalr_misaligned s d n o hr h, s.trap_enters cMisaligned 0 target hh⟩
    · obtain ⟨t, he, ht, hk⟩ := execVloop_links s n o hr hn
      exact ⟨t, he, ht, fun k => (hk k).trans (ite_congr (propext (and_iff_left hn)) (fun _ => rfl) (fun _ => rfl))⟩

end Sys2Proof.Machine
end

section
/-! Scalar floating point (09 R212 to R215): the operands, the result with its flags, and the enabled exception that traps. -/

-- The text compiles as one file: one theorem at a time keeps it within the check's memory.
set_option Elab.async false

namespace Sys2Proof.Machine

/-! ## Results: 09 R215 -/

/-- A result whose exceptions are all disabled: the register, their flags, the pc, and nothing else. -/
theorem State.fpResult_writes (s : State) (d : BitVec 5) (r : Nat × Exc) (hr : s.me.replaying = false) (h : s.me.ten &&& r.2 = 0) :
    s.WritesFloat (s.fpResult d r) d r := by
  have disabled : s.me.enabled r.2 = false := by rw [Thread.enabled, h]; rfl
  have kept : (s.setMe (s.me.addFlags r.2)).me.replaying = false := by
    rw [State.me_setMe]; exact (Thread.replaying_of _ _ rfl rfl rfl).trans hr
  have writes := State.result_writes _ d (w64 r.1) kept
  have model : s.fpResult d r = (s.setMe (s.me.addFlags r.2)).result d (w64 r.1) := by
    rw [State.fpResult, disabled]; rfl
  obtain ⟨hthread, hregs, hbytes⟩ := writes
  rw [← model] at hthread hregs hbytes
  refine ⟨?_, fun k => (hregs k).trans ?_, hbytes⟩
  · rw [State.me_setMe, State.setMe_setMe] at hthread
    exact hthread
  · rw [State.sr, State.me_setMe]; rfl

/-- An enabled exception traps with cause arithmetic. -/
theorem State.fpResult_traps (s : State) (d : BitVec 5) (r : Nat × Exc) (h : s.me.ten &&& r.2 ≠ 0) (hh : ¬ s.InHandler) :
    s.TrapsTo (s.fpResult d r) 4 0 (w64 r.2.toNat) s.me.pc := by
  have enabled : s.me.enabled r.2 = true := bne_iff_ne.mpr h
  rw [State.fpResult, enabled, if_pos rfl]
  exact s.trap_enters cArithmetic 0 _ hh

/-- Outside a replay an instruction whose meaning is a floating-point result gives it or traps. -/
theorem completes_fpResult {i : Instr} {s : State} {d : BitVec 5} {r r' : Nat × Exc} (hr : s.me.replaying = false)
    (he : exec i s = .next (s.fpResult d r')) (hv : r' = r) :
    (s.me.ten &&& r.2 = 0 → Completes i s fun t => s.WritesFloat t d r) ∧
    (s.me.ten &&& r.2 ≠ 0 → ¬ s.InHandler → Completes i s fun t => s.TrapsTo t 4 0 (w64 r.2.toNat) s.me.pc) := by
  subst hv
  exact ⟨fun h => ⟨_, he, s.fpResult_writes d r' hr h⟩, fun h hh => ⟨_, he, s.fpResult_traps d r' h hh⟩⟩

/-! ## Operands: 09 R212 -/

/-- An operand is its register's low bits, all 64 of them under P. -/
theorem State.fpArg_eq (s : State) (n : BitVec 5) (p : BitVec 1) : s.fpArg n p = (s.sr n).toNat % 2 ^ (if p = 1 then 64 else 32) := by
  unfold State.fpArg
  by_cases h : p = 1
  · rw [if_pos h, if_pos h, Nat.mod_eq_of_lt (s.sr n).isLt]
  · rw [if_neg h, if_neg h]

/-! ## Compares: 09 R213 -/

theorem scalarCond_run (x : BitVec 5) (h : x.toNat ≤ 3) (a b : Val) :
    ((if ((scalarCond x).run a b).1 then 1 else 0), ((scalarCond x).run a b).2) = fcmpValue x a b := by
  obtain rfl | rfl | rfl | rfl : x = 0 ∨ x = 1 ∨ x = 2 ∨ x = 3 := by bv_omega
  all_goals rfl

/-! ## Conversions: 09 R214 -/

/-- The conversions by code, with the formats of source and target. -/
def fcvtTable : List (Nat × Nat × Nat) :=
  [(0, 0, 1), (1, 1, 0), (2, 1, 14), (3, 0, 14), (4, 14, 1), (5, 14, 0), (6, 1, 15), (7, 0, 15), (8, 15, 1), (9, 15, 0),
    (10, 1, 2), (11, 2, 1), (12, 1, 3), (13, 3, 1)]

theorem fcvtCodes_of_mem {e : Nat × Nat × Nat} (h : e ∈ fcvtTable) : fcvtCodes (BitVec.ofNat 5 e.1).toNat = e.2 :=
  (by decide : ∀ e ∈ fcvtTable, fcvtCodes (BitVec.ofNat 5 e.1).toNat = e.2) e h

/-- Settles O9: each is one floating-point result, of its operands' low bits; the conversions by the table of their codes. -/
theorem scalarFloat : Obligations.ScalarFloat := by
  unfold Obligations.ScalarFloat
  constructor
  · intro s d n m x p hr f c code v gives
    have arg (r : BitVec 5) : s.fpArg r p = code r := s.fpArg_eq r p
    have two (o : FOp) {i : Instr} (he : exec i s = .next (s.fop o d n m p)) : gives i (o.run f c 0 0 (code n) (code m)) :=
      completes_fpResult hr he (by rw [arg, arg]; rfl)
    refine ⟨two .add rfl, two .sub rfl, two .mul rfl, two .div rfl, completes_fpResult hr rfl ?_, completes_fpResult hr rfl ?_, two .min rfl, two .max rfl,
      fun hx => completes_fpResult hr rfl ?_⟩
    · rw [arg]; rfl
    · rw [arg, arg, arg]; rfl
    · rw [arg, arg]; exact scalarCond_run x hx (v n) (v m)
  · intro s d n hr e he r
    have codes := fcvtCodes_of_mem he
    exact completes_fpResult hr rfl (by rw [codes])

end Sys2Proof.Machine
end

section
/-! Scalar memory (09 R206 to R208; 04 R106 to R124): the value a load extends, the write a store commits, and an atomic's one step. -/

-- The text compiles as one file: one theorem at a time keeps it within the check's memory.
set_option Elab.async false

namespace Sys2Proof.Machine

/-! ## Extension: 09 R206 -/

theorem leNat_lt (bs : List Byte) : leNat bs < 256 ^ bs.length := by
  induction bs with
  | nil => exact Nat.one_pos
  | cons b t ih =>
    have hb := b.isLt
    rw [leNat, List.length_cons, Nat.pow_succ]
    omega

/-- The bytes of a range are the value of so many bits. -/
theorem State.leNat_bytes_lt (s : State) (a k : Nat) : leNat (s.bytes a k) < 2 ^ (8 * k) := by
  have h := leNat_lt (s.bytes a k)
  rwa [State.bytes, cellsGet_length, show (256 : Nat) = 2 ^ 8 from rfl, ← Nat.pow_mul] at h

theorem extend_signed (k : Nat) (bs : List Byte) (hk : 0 < k) :
    extend true k bs = (BitVec.ofNat (8 * k) (leNat bs)).signExtend 64 := by
  rw [extend, if_pos rfl, intOf_toInt _ _ (by omega)]; rfl

theorem State.extend_unsigned (s : State) (a k : Nat) :
    extend false k (s.bytes a k) = (BitVec.ofNat (8 * k) (leNat (s.bytes a k))).zeroExtend 64 := by
  apply BitVec.eq_of_toNat_eq
  rw [BitVec.toNat_setWidth, BitVec.toNat_ofNat, Nat.mod_eq_of_lt (s.leNat_bytes_lt a k)]; rfl

/-! ## Loads: 09 R206, R207 -/

/-- A load that reaches a quiet memory writes what it reads there, extended, and nothing else. -/
theorem completes_load {i : Instr} {s u : State} {d : BitVec 5} {va v : Word} {k : Nat} {signed nf : Bool} {p : Phys}
    (hr : u.me.replaying = false) (hq : u.Quiet) (he : exec i s = .next (s.load d va k signed nf))
    (hv : extend signed k (u.bytes p.pa k) = v) (h : s.Reaches va k .load p u) : Completes i s fun t => u.WritesScalar t d v := by
  refine ⟨_, he, ?_⟩
  rw [State.load, s.scalarLoad_quiet u va k nf true p h hq, ← hv]
  exact u.result_writes d _ hr

/-- Settles O10: every form is one load, by its width and by whether it extends the sign. -/
theorem loads : Obligations.Loads := by
  unfold Obligations.Loads
  intro s u d n w im o sc p hr hq va sx zx loads
  have signed {i : Instr} {va : Word} {k : Nat} {nf : Bool} (he : exec i s = .next (s.load d va k true nf)) (hk : 0 < k) :
      loads i va k (sx k) := completes_load hr hq he (extend_signed k _ hk)
  have unsigned {i : Instr} {va : Word} {k : Nat} {nf : Bool} (he : exec i s = .next (s.load d va k false nf)) :
      loads i va k (zx k) := completes_load hr hq he (u.extend_unsigned p.pa k)
  refine ⟨signed rfl (by decide), unsigned rfl, signed rfl (by decide), unsigned rfl, signed rfl (by decide), unsigned rfl, unsigned rfl,
    fun _ => ?_⟩
  have ordered : exec (.ldOrdered d n w o sc) s =
    .next (s.load d (s.sr n) (widthBytes w) (widthSigned w) (isAcq o && isWide sc)) := rfl
  by_cases hw : w.toNat % 2 = 0
  · rw [if_pos hw]
    rw [widthSigned, hw] at ordered
    exact signed ordered (Nat.two_pow_pos _)
  · rw [if_neg hw]
    rw [widthSigned, beq_eq_false_iff_ne.mpr hw] at ordered
    exact unsigned ordered

/-! ## Stores: 09 R206, R207; 04 R106, R119 -/

/-- An access to a page that hotness does not sample counts nothing (02 R67). -/
theorem State.countHot_unsampled (s : State) (w : Who) (a : Acc) (p : Phys) (h : p.hs = false) : s.countHot w 0 [(0, [⟨a, p⟩])] = s :=
  s.countElem_none w 0 _ (by simpa using h)

/-- A store that passes its checks stands committed, the newest of the writes on their way. -/
theorem State.store_stores {s u : State} {va : Word} {k : Nat} {p : Phys} (v : Word) (release wide : Bool)
    (hr : u.me.replaying = false) (h : s.Reaches va k .store p u) :
    u.Stores (s.store va k v release wide) p.pa (leBytes k v.toNat) release := by
  obtain ⟨ht, -, hh, -⟩ := h
  obtain ⟨q, hq, hseq, htid, haddr, hop, hslice, hafter⟩ :=
    u.commit_appends u.tid 8 va p.pa (.store (leBytes k v.toNat)) release wide
  unfold State.store
  rw [ht]
  dsimp only
  rw [State.countHot_unsampled _ _ _ p hh, hq]
  have hme (l : List Pend) (n : Nat) : ({ u with pend := l, wseq := n } : State).me = u.me := rfl
  refine ⟨q, ?_, hseq, htid, haddr, hop, hslice, hafter, fun a => rfl⟩
  rw [State.retire, hme, Thread.retire_plain _ hr]; rfl

/-- A release at system scope that has nothing to wait for goes on at once (04 R108, R119). -/
theorem State.releaseReady_quiet (s : State) (o sc : BitVec 2) (h : isRel o = true → sc = 3 → s.pend = [] ∧ s.acked s.tid = true) :
    s.releaseReady o sc = some s := by
  unfold State.releaseReady
  by_cases hw : (isRel o && isSystem sc) = true
  · obtain ⟨ho, hs⟩ := Bool.and_eq_true_iff.mp hw
    obtain ⟨hp, ha⟩ := h ho (beq_iff_eq.mp hs)
    rw [if_pos hw, State.drainCumulative, s.drain_nil _ hp]
    exact if_pos ha
  · exact if_neg hw

theorem execStOrdered_stores (s : State) (n d w : BitVec 5) (o sc : BitVec 2)
    (h : isRel o = true → sc = 3 → s.pend = [] ∧ s.acked s.tid = true) :
    execStOrdered n d w o sc s = .next (s.store (s.sr n) (widthBytes w) (s.sr d) (isRel o) (isWide sc)) := by
  unfold execStOrdered
  rw [s.releaseReady_quiet o sc h]
  split <;> rfl

/-- Settles O11: every form is one store, a release by the order it names. -/
theorem stores : Obligations.Stores := by
  unfold Obligations.Stores
  intro s u d n w im o sc p hr va stores
  have plain {i : Instr} {va : Word} {k : Nat} (he : exec i s = .next (s.store va k (s.sr d) false false)) : stores i va k false :=
    fun h => ⟨_, he, State.store_stores _ _ _ hr h⟩
  refine ⟨plain rfl, plain rfl, plain rfl, plain rfl, fun _ ho hrel h => ?_⟩
  have release : isRel o = (o == 2) := by
    rcases ho with rfl | rfl <;> rfl
  have ready (hi : isRel o = true) : sc = 3 → s.pend = [] ∧ s.acked s.tid = true := hrel (beq_iff_eq.mp (release ▸ hi))
  exact ⟨_, execStOrdered_stores s n d w o sc ready, release ▸ State.store_stores _ _ _ hr h⟩

/-! ## Atomics: 09 R208; 04 R123, R124 -/

/-- The model's new value of an atomic, in numbers, is the code of the words' one. -/
theorem atomicApply_eq (op : AtomicOp) (w old v : Nat) (hw : 0 < w) :
    atomicApply op w old v = (amoNew op w (BitVec.ofNat w old) (BitVec.ofNat w v)).toNat := by
  have signed (x : Nat) : intOf true w (x % 2 ^ w) = (BitVec.ofNat w x).toInt := by
    rw [intOf_toInt _ _ hw, ← BitVec.toNat_ofNat, BitVec.ofNat_toNat, BitVec.setWidth_eq]
  cases op with
  | add | and | or | xor | swap => rfl
  | min | max => simp only [atomicApply, amoNew, signed, apply_ite BitVec.toNat, BitVec.toNat_ofNat]
  | minu =>
    simp only [atomicApply, amoNew, apply_ite BitVec.toNat, BitVec.toNat_ofNat]
    change min (old % 2 ^ w) (v % 2 ^ w) = _
    split <;> omega
  | maxu =>
    simp only [atomicApply, amoNew, apply_ite BitVec.toNat, BitVec.toNat_ofNat]
    change max (old % 2 ^ w) (v % 2 ^ w) = _
    split <;> omega

/-- A thread that keeps no request has no reply to take. -/
theorem State.asked_notKept (s : State) (h : s.kept s.tid = false) : (s.asked s.tid none).find? (fun q => q.keep) = none := by
  rw [State.kept, List.any_eq_false] at h
  rw [List.find?_eq_none]
  intro q hq hkeep
  obtain ⟨hmem, hasked⟩ := List.mem_filter.mp hq
  simp only [Bool.and_eq_true, beq_iff_eq] at hasked
  obtain ⟨⟨htid, hcmd⟩, hposted⟩ := hasked
  exact h q hmem (by simp [htid, hcmd, hposted, hkeep])

/-- An atomic that reaches a quiet memory reads there and writes there, in one step. -/
theorem State.atomic_quiet {s u : State} {va : Word} {k : Nat} {use : Use} {p : Phys} (o sc : BitVec 2) (msg : Nat → Wire → OutMsg)
    (f : Nat → Option Nat) (hkept : s.kept s.tid = false) (hq : u.Quiet) (ha : u.acked u.tid = true) (h : s.Reaches va k use p u) :
    s.atomic va k use o sc msg f =
      (.ok (u.bytes p.pa k), (f (leNat (u.bytes p.pa k))).elim u fun v => u.putBytes p.pa (leBytes k v)) := by
  obtain ⟨ht, ho, hh, -⟩ := h
  unfold State.atomic
  rw [s.asked_notKept hkept]
  dsimp only
  rw [ht]
  dsimp only
  rw [u.drain_nil _ hq.1]
  dsimp only
  rw [ha, ho, u.boardWaits_quiet hq, u.lostIn_quiet hq, State.countHot_unsampled _ _ _ p hh]
  simp only [Bool.not_true, Bool.and_false, Bool.false_eq_true, if_false]
  cases f (leNat (u.bytes p.pa k)) <;> rfl

theorem State.bytes_of_byte {s t : State} (h : ∀ a, t.byte a = s.byte a) (a n : Nat) : t.bytes a n = s.bytes a n :=
  List.map_congr_left fun i _ => h (a + i)

/-- The width of an atomic in bytes. -/
abbrev amoBytes (w : BitVec 1) : Nat := if w = 1 then 4 else 8

/-- An amo that reaches a quiet memory: the new value there, the old one in the register, and nothing else. -/
theorem State.amo_writes {s u : State} {n : BitVec 5} {w : BitVec 1} {op : AtomicOp} {p : Phys} (d m : BitVec 5) (o sc : BitVec 2)
    (hkept : s.kept s.tid = false) (hr : u.me.replaying = false) (hq : u.Quiet) (ha : u.acked u.tid = true)
    (h : s.Reaches (s.sr n) (amoBytes w) (.amo (op == .add || op == .swap)) p u) :
    let old := BitVec.ofNat (8 * amoBytes w) (leNat (u.bytes p.pa (amoBytes w)))
    (u.putBytes p.pa (leBytes (amoBytes w) (amoNew op _ old (BitVec.ofNat _ (s.sr m).toNat)).toNat)).WritesScalar
      (s.amo op d n m w o sc) d (old.signExtend 64) := by
  intro old
  have hpos : 0 < amoBytes w := by unfold amoBytes; split <;> decide
  have extended := extend_signed (amoBytes w) (u.bytes p.pa (amoBytes w)) hpos
  unfold State.amo
  dsimp only
  rw [State.atomic_quiet o sc _ _ hkept hq ha h, State.finish, atomicApply_eq op _ _ _ (Nat.mul_pos (by decide) hpos), extended]
  exact State.result_writes _ d _ hr

/-- Settles O12: each is one amo; the bytes it leaves are those of the write. -/
theorem atomics : Obligations.Atomics := by
  unfold Obligations.Atomics
  intro s u d n m w o sc p hkept hr hq ha k old does
  have amo {i : Instr} (op : AtomicOp) (he : exec i s = .next (s.amo op d n m w o sc)) : does i op (op == .add || op == .swap) := by
    intro h
    have writes := State.amo_writes d m o sc hkept hr hq ha h
    have ⟨_, _, hbyte⟩ := writes
    refine ⟨_, he, writes, ?_, fun a hout => ?_⟩
    · rw [State.bytes_of_byte hbyte]
      have at_ := u.bytes_putBytes p.pa (leBytes k (amoNew op (8 * k) old (BitVec.ofNat (8 * k) (s.sr m).toNat)).toNat)
      rwa [leBytes_length] at at_
    · rw [hbyte]
      exact State.byte_putBytes_out _ _ _ _ (by rwa [leBytes_length])
  exact ⟨amo .add rfl, amo .and rfl, amo .or rfl, amo .xor rfl, amo .swap rfl, amo .min rfl, amo .max rfl, amo .minu rfl, amo .maxu rfl⟩

end Sys2Proof.Machine
end

section
/-! Traps, returning from them, and the ends of waiting (09 R218 to R226; 08 R195). -/

-- The text compiles as one file: one theorem at a time keeps it within the check's memory.
set_option Elab.async false

namespace Sys2Proof.Machine

/-! ## What each instruction asks for -/

theorem execTrap_traps (s : State) (x : BitVec 5) (hr : s.me.replaying = false) :
    execTrap x s = .next (s.trap cTrap 0 (w64 x.toNat)) := by
  rw [execTrap, s.unlessReplay_plain hr, w64, BitVec.ofNat_toNat]

theorem execBrk_traps (s : State) (x : BitVec 5) (hr : s.me.replaying = false) :
    execBrk x s = .next (s.trap cBreak 0 (w64 x.toNat)) := by
  rw [execBrk, s.unlessReplay_plain hr, w64, BitVec.ofNat_toNat]

theorem execIllegalInstruction_traps (s : State) (w : BitVec 32) (sub : IllegalSub) (hr : s.me.replaying = false) :
    execIllegalInstruction w sub s = .next (s.illegal w sub) := by
  rw [execIllegalInstruction, hr]; rfl

theorem execTret_level (s : State) (hr : s.me.replaying = false) : execTret s = .next (s.needS State.tret) := by
  rw [execTret, s.unlessReplay_plain hr]

/-! ## Entering the handler, and stopping in it: 09 R224, R225 -/

/-- Settles O19: outside a handler each enters it; trap and brk alone return to the next word. -/
theorem trapEntry : Obligations.TrapEntry := by
  unfold Obligations.TrapEntry
  intro s x w sub hr hh
  exact ⟨⟨_, execTrap_traps s x hr, s.trap_enters cTrap 0 _ hh⟩, ⟨_, execBrk_traps s x hr, s.trap_enters cBreak 0 _ hh⟩,
    ⟨_, execIllegalInstruction_traps s w sub hr, s.illegal_traps w sub hh⟩⟩

/-- A trap inside a handler stops the thread with a record to the owner. -/
theorem State.trap_stops (s : State) (cause sub : Nat) (value : Word) (h : s.InHandler) :
    s.StopsWith (s.trap cause sub value) { s.me with run := .doubleTrap }
      { s.recFor s.tid true 5 with cause := cause, sub := sub, value := value } := by
  obtain ⟨hsup, hbit⟩ := h
  have handled : (s.me.sup && s.me.tca.getLsbD 17) = true := by rw [hsup, hbit]; rfl
  have record : (s.setMe { s.me with run := .doubleTrap }).recFor s.tid true 5 = s.recFor s.tid true 5 :=
    State.recFor_of s _ s.tid true 5 rfl (by rw [State.th_setMe]; rfl)
  unfold State.trap
  dsimp only
  rw [if_pos handled, State.tid_setMe, record]
  exact s.postStop_stops _ _

/-- Settles O20: the three words trap, and a trap in a handler stops. -/
theorem doubleTrap : Obligations.DoubleTrap := by
  unfold Obligations.DoubleTrap
  intro s x w sub hr hh stops
  exact ⟨⟨_, execTrap_traps s x hr, s.trap_stops cTrap 0 _ hh⟩, ⟨_, execBrk_traps s x hr, s.trap_stops cBreak 0 _ hh⟩,
    ⟨_, execIllegalInstruction_traps s w sub hr, s.trap_stops cIllegal _ _ hh⟩⟩

/-! ## Returning: 09 R226 -/

/-- Settles O21: by the level. -/
theorem trapReturn : Obligations.TrapReturn := by
  unfold Obligations.TrapReturn
  intro s hr
  refine ⟨fun h => ⟨_, execTret_level s hr, ?_⟩, fun h => ⟨_, execTret_level s hr, ?_⟩⟩
  · rw [s.needS_sup h]; rfl
  · rw [s.needS_user h]
    exact s.permission_traps (s.not_inHandler_of_user h)

/-! ## wait: 09 R219 -/

theorem execWait_waits (s : State) (x : BitVec 5) (hr : s.me.replaying = false) :
    execWait x s = .next (s.setMe { s.me with waiting := true, lastFault := none, pc := s.me.pc + 4 }) := by
  rw [execWait, State.retire, Thread.retire_plain _ hr, State.me_setMe, State.setMe_setMe]

theorem Thread.issues_waiting (t : Thread) (h : t.waiting = true) : t.issues = false := by
  simp [Thread.issues, h]

/-! ## halt: 09 R220 -/

/-- A full fence at system scope with everything performed and acknowledged goes on at once (04 R121). -/
theorem State.fullFence_quiet (s : State) (hp : s.pend = []) (ha : s.acked s.tid = true) : s.fullFence s.tid 3 = (some s, s) := by
  have wide : isWide 3 = true := rfl
  unfold State.fullFence
  rw [wide, State.drainCumulative, s.drain_nil _ hp]
  dsimp only
  rw [ha, Bool.not_true, Bool.and_false]; rfl

theorem execHalt_stops (s : State) (hr : s.me.replaying = false) (hs : s.me.sup = true) (hp : s.pend = []) (ha : s.acked s.tid = true) :
    execHalt s = .next ((s.setMe { s.me with run := .stopped, lastFault := none, pc := s.me.pc + 4 }).postStop s.tid (s.recFor s.tid false 4)) := by
  rw [execHalt, s.unlessReplay_plain hr, s.needS_sup hs, s.fullFence_quiet hp ha, State.andThen]
  dsimp only
  rw [State.retire, Thread.retire_plain _ hr, State.me_setMe, State.setMe_setMe, State.tid_setMe]

theorem execHalt_user (s : State) (hr : s.me.replaying = false) (hs : s.me.sup = false) :
    execHalt s = .next (s.trap cPermission 0 0) := by
  rw [execHalt, s.unlessReplay_plain hr, s.needS_user hs]

/-- Settles O24: wait and the end of its count, then halt by its level. -/
theorem waitAndHalt : Obligations.WaitAndHalt := by
  unfold Obligations.WaitAndHalt
  refine ⟨fun s x tid hr => ⟨⟨_, execWait_waits s x hr, rfl, ?_⟩, ⟨_, rfl, rfl⟩⟩, fun s hr => ⟨fun hs hp ha => ?_, fun hs => ?_⟩⟩
  · rw [State.me_setMe]; exact Thread.issues_waiting _ rfl
  · exact ⟨_, execHalt_stops s hr hs hp ha, s.postStop_stops _ _⟩
  · exact ⟨_, execHalt_user s hr hs, s.permission_traps (s.not_inHandler_of_user hs)⟩

end Sys2Proof.Machine
end

section
/-! Tile storage (12 R269 to R273, R277, R278, R288; 03 R87): the shape, the weight slots, whole accumulators, and the transposition of eight registers. -/

-- The text compiles as one file: one theorem at a time keeps it within the check's memory.
set_option Elab.async false

namespace Sys2Proof.Machine

theorem exec_tshape (k n m : BitVec 5) (s : State) : exec (.tshape k n m) s = execTshape k n m s := rfl
theorem exec_wbload (w : BitVec 4) (n m : BitVec 5) (s : State) : exec (.wbload w n m) s = execWbload w n m s := rfl
theorem exec_wbinv (w : BitVec 4) (s : State) : exec (.wbinv w) s = execWbinv w s := rfl
theorem exec_tzero (d : BitVec 3) (s : State) : exec (.tzero d) s = execTzero d s := rfl
theorem exec_tscale (d : BitVec 3) (n : BitVec 5) (s : State) : exec (.tscale d n) s = execTscale d n s := rfl
theorem exec_vtrans (d : BitVec 6) (s : State) : exec (.vtrans d) s = execVtrans d s := rfl

/-! ## Completing -/

/-- Writes of register storage and raised flags leave what completing looks at. -/
theorem State.OnlyRegs.vdone_addFlags {s u : State} (h : s.OnlyRegs u) (e : Exc) (hc : s.me.cut = 0) (hr : s.me.replaying = false) :
    (u.setMe (u.me.addFlags e)).vdone = ended (u.setMe (u.me.addFlags e)) := by
  refine State.vdone_plain _ ?_ ?_
  · rw [State.me_setMe, h.me]; exact hc
  · rw [State.me_setMe, h.me, ← hr]; exact Thread.replaying_of _ _ rfl rfl rfl

/-! ## The shape: 12 R269 -/

theorem largestN_eq (et slc : Nat) : largestN et slc = if et = 0 ∧ 3 ≤ slc then 64 else 128 := by
  simp [largestN]

/-! ## The weight buffer: 12 R270 to R273 -/

/-- The image of a slot as it lies in memory, granule by granule. -/
def State.slotImage (u : State) (at_ : Nat → Phys) (d : Word) : List Byte :=
  ((List.range ((wdBytes d + 63) / 64)).flatMap fun i => u.bytes (at_ i).pa 64).take (wdBytes d)

/-- What loads of one granule each have read, end to end. -/
theorem flatMap_loadedOf (u : State) (a : Nat → Word) (at_ : Nat → Phys) (l : List Nat) :
    ((l.map fun i => (i, loadedOf u (fun i => some (a i)) 64 .load at_ i)).flatMap fun e => e.2.flatMap id) =
      l.flatMap fun i => u.bytes (at_ i).pa 64 := by
  simp [List.flatMap_map, loadedOf]

/-- Accesses on pages that hotness does not sample count nothing (02 R67). -/
theorem State.countHot_none (s : State) (w : Who) (cls : Nat) (els : List (Nat × List Placed)) (h : ∀ e ∈ els, ∀ p ∈ e.2, p.at_.hs = false) :
    s.countHot w cls els = s := by
  unfold State.countHot
  induction els with
  | nil => rfl
  | cons e r ih =>
    rw [List.foldl_cons, s.countElem_none w cls e.2 (h e List.mem_cons_self)]
    exact ih fun f hf => h f (List.mem_cons_of_mem _ hf)

theorem State.putImage_healthy (s : State) (l : Nat) (w : BitVec 4) (d : Word) (bs : List Byte) (hb : s.regBad = []) :
    s.putImage l w d bs = (s.putReg (regKey (s.physPair l) (weightOff w.toNat)) bs).setPair l
      { s.pair l with wb := (s.pair l).wb.set w.toNat (d ||| 0x8000000000000000) } := by
  have heal : (s.putReg (regKey (s.physPair l) (weightOff w.toNat)) bs).healReg (regKey (s.physPair l) (weightOff w.toNat)) ((bs.length + 7) / 8 * 8) =
      s.putReg (regKey (s.physPair l) (weightOff w.toNat)) bs := by
    simp [State.healReg, State.putReg, hb]
  unfold State.putImage
  dsimp only
  rw [heal]
  rfl

/-- wbload of a good descriptor whose image is reached in a quiet memory. -/
theorem execWbload_loads (s u : State) (w : BitVec 4) (n m : BitVec 5) (at_ : Nat → Phys) (hd : wdBad (s.sr m) = false) (ha : (s.sr n).toNat % 64 = 0)
    (hp : s.Places (fun i => some (s.sr n + w64 (64 * i))) 64 .load (List.range ((wdBytes (s.sr m) + 63) / 64)) at_ u) (hq : u.Quiet) :
    execWbload w n m s = .next (u.putImage u.myL w (s.sr m) (u.slotImage at_ (s.sr m))).retire := by
  obtain ⟨ht, hat⟩ := hp
  have translated : translateElems (s.who s.tid) (fun i => [⟨s.sr n + w64 (64 * i), 64, 64, .load⟩])
      (List.range ((wdBytes (s.sr m) + 63) / 64)) s [] [] = _ := ht
  have loaded := u.loadElems_quiet hq u.tid (fun i => some (s.sr n + w64 (64 * i))) 64 .load at_ (List.range ((wdBytes (s.sr m) + 63) / 64))
    (fun i hi => (hat i hi).1) (fun i hi => (hat i hi).2.2) true
  have cold (z : State) := z.countHot_none (s.who s.tid) 0
    ((List.range ((wdBytes (s.sr m) + 63) / 64)).map fun i => (i, placedOf (fun i => some (s.sr n + w64 (64 * i))) 64 .load at_ i)) (by
      intro e he p hpe
      obtain ⟨i, hi, rfl⟩ := List.mem_map.mp he
      obtain ⟨a, -, rfl⟩ := List.mem_map.mp hpe
      exact (hat i hi).2.1)
  unfold execWbload
  simp only [hd, ha, Bool.false_eq_true, if_false, ne_eq, not_true_eq_false, translated, loaded, flatMap_loadedOf, cold]
  rfl

/-! ## Whole accumulators: 12 R277, R278 -/

theorem State.accFails_none (s : State) (h : s.regBad = []) (pp a et i j : Nat) : s.accFails pp a et i j = false := by
  simp [State.accFails, State.regFails, h]

theorem State.accPut_only (s : State) (pp a et i j v : Nat) : s.OnlyRegs (s.accPut pp a et i j v) := rfl

/-- Results whose exceptions are not enabled hold no failure. -/
theorem Thread.find_enabled_none {α : Type} (t : Thread) (g : α → Nat × Exc) (l : List α) (h : ∀ e ∈ l, t.ten &&& (g e).2 = 0) :
    ((l.map fun e => (e, g e)).find? fun r => t.enabled r.2.2) = none := by
  rw [List.find?_eq_none]
  intro r hr
  obtain ⟨e, he, rfl⟩ := List.mem_map.mp hr
  simp [Thread.enabled, h e he]

theorem State.zeroReg_healthy (s : State) (key n : Nat) (h : s.regBad = []) : s.zeroReg key n = { s with regs := cellsZero s.regs key n } := by
  simp [State.zeroReg, h]

/-- The rows and columns of an accumulator (12 R277). -/
def accCells (et : Nat) : List (Nat × Nat) := (List.range 64).flatMap fun i => (List.range (accCols et)).map fun j => (i, j)

/-- What tscale makes of an element: its product with the scalar, rounded once. -/
def State.scaled (s : State) (d : BitVec 3) (n : BitVec 5) (e : Nat × Nat) : Nat × Exc :=
  let c := s.me.ctl
  let f := accFmt s.me.et
  let factor := if s.me.et = 0 then fmt64.operand c.fz (s.sr n).toNat else fmt32.operand c.fz ((s.sr n).toNat % 2 ^ 32)
  roundTo f c.nearest 0 0 ((f.operand c.fz (s.accGet (s.physPair s.myL) d.toNat s.me.et e.1 e.2)).mul factor)

theorem execTscale_scales (s : State) (d : BitVec 3) (n : BitVec 5) (hb : s.regBad = [])
    (hn : ∀ e ∈ accCells s.me.et, s.me.ten &&& (s.scaled d n e).2 = 0) :
    let y := (accCells s.me.et).foldl (fun (y : State) e => y.accPut (s.physPair s.myL) d.toNat s.me.et e.1 e.2 (s.scaled d n e).1) s
    execTscale d n s = .next (y.setMe (y.me.addFlags ((accCells s.me.et).foldl (fun x e => x ||| (s.scaled d n e).2) 0))).vdone := by
  unfold execTscale
  dsimp only
  rw [if_neg (by simp [s.accFails_none hb]), s.me.find_enabled_none, List.foldl_map, List.foldl_map]
  · rfl
  · exact hn

/-! ## Transposition: 12 R288 -/

/-- A whole-strip instruction that ends at VL without trimming and writes its destinations itself. -/
theorem State.wframe_own (s : State) (sp : WSpec) (empty : Option Word) (r : WRes) (hp : s.Plain) (h : sp.Simple s r) (ho : sp.own = true)
    (h2 : sp.second = none) (hx : r.exc ||| orExc (r.vals.map (elemOf [] r.each)) = r.exc) :
    s.wframe sp empty = (sp.fin (s.setMe (s.me.addFlags r.exc)) r.scalar).vdone := by
  have hscan := s.wscan_plain sp r hp h
  obtain ⟨-, -, -, hbn, hv⟩ := hp
  have hrb := sp.view.readBinds_none s.me hbn
  have hmis : sp.misplaced s.me = false := by unfold WSpec.misplaced; rw [sp.outlets_none s.me hbn]; rfl
  have hlead : ¬ sp.capacity s.me (s.lanesOf s.tid) ≤ (if sp.whole = true then 0 else s.me.start) := Nat.not_le.mpr h.lead
  have hz : r.exc ||| 0 ||| orExc (r.vals.map (elemOf [] r.each)) = r.exc := by
    rw [show r.exc ||| 0 = r.exc from BitVec.or_zero]; exact hx
  unfold State.wframe
  simp only [if_neg hv, if_neg hlead, hmis, Bool.false_eq_true, if_false, hscan]
  unfold State.wcommit
  simp only [hrb, ho, h2, State.countWhole, List.filter_nil, List.map_nil, List.append_nil, List.foldl_nil, State.advanceBinds, if_true, hz]

theorem Thread.addFlags_zero (t : Thread) : t.addFlags 0 = t := by
  simp [Thread.addFlags]

/-- A write of an element and an update of the moving thread do not meet. -/
theorem State.setElem_setMe (s : State) (t : Thread) (x : Lanes) (o : Operand) (i v : Nat) :
    (s.setMe t).setElem x o i v = (s.setElem x o i v).setMe t := by
  unfold State.setElem
  cases placeIn x.count o.nib o.regs i with
  | none => rfl
  | some p => dsimp only; split <;> rfl

theorem foldl_setMe {α : Type} (f : State → α → State) (h : ∀ (s : State) (t : Thread) (a : α), f (s.setMe t) a = (f s a).setMe t) (l : List α) (s : State)
    (t : Thread) : l.foldl f (s.setMe t) = (l.foldl f s).setMe t := by
  induction l generalizing s with
  | nil => rfl
  | cons a r ih => rw [List.foldl_cons, List.foldl_cons, h, ih]

theorem State.transBlock_setMe (s s0 : State) (t : Thread) (x : Lanes) (os : List Operand) (b side : Nat) :
    (s.setMe t).transBlock s0 x os b side = (s.transBlock s0 x os b side).setMe t := by
  unfold State.transBlock
  refine foldl_setMe _ (fun u t p => ?_) _ _ _
  split
  · rfl
  · exact State.setElem_setMe ..

theorem State.transBlock_only (s s0 : State) (x : Lanes) (os : List Operand) (b side : Nat) : s.OnlyRegs (s.transBlock s0 x os b side) := by
  unfold State.transBlock
  refine onlyRegs_foldl _ (fun u p => ?_) _ _
  split
  · exact State.OnlyRegs.refl u
  · exact State.setElem_only ..

/-- All blocks of a strip, every element as it stood before (03 R87). -/
def State.transposed (s : State) (os : List Operand) (u : State) : State :=
  (List.range ((s.me.vlen + 7) / 8)).foldl (fun (y : State) b => y.transBlock s (s.lanesOf s.tid) os b (transSide s.me.vlen b)) u

theorem State.transposed_only (s : State) (os : List Operand) (u : State) : u.OnlyRegs (s.transposed os u) :=
  onlyRegs_foldl _ (fun _ _ => State.transBlock_only ..) _ _

theorem State.transposed_setMe (s : State) (os : List Operand) (u : State) (t : Thread) : s.transposed os (u.setMe t) = (s.transposed os u).setMe t :=
  foldl_setMe _ (fun _ _ _ => State.transBlock_setMe ..) _ _ _

/-- The eight registers begin at a multiple of eight, and the first is one of them. -/
theorem Thread.eight_some {t : Thread} {d : BitVec 6} {os : List Operand} (h : t.eight d = some os) :
    d.toNat % 8 = 0 ∧ (os[0]?).getD ⟨[], 2⟩ ∈ os := by
  unfold Thread.eight at h
  split at h
  · rename_i hd
    injection h with h
    subst h
    exact ⟨by simp at hd; exact hd.1, List.mem_map.mpr ⟨0, by simp, rfl⟩⟩
  · cases h

/-- No block of healthy registers fails its parity. -/
theorem State.find_badBlock_none (s : State) (hb : s.regBad = []) (x : Lanes) (os : List Operand) (v : Nat) (l : List Nat) :
    (l.find? fun b => os.zipIdx.any fun o => decide (o.2 < transSide v b) &&
      (List.range (transSide v b)).any fun c => s.elemFails x o.1 (8 * b + c)) = none := by
  rw [List.find?_eq_none]
  intro b _
  simp [s.elemFails_none hb]

/-- What vtrans gives the frame: the eight registers bound the strip, and its completion writes them. -/
def transSpec (s : State) (d : BitVec 6) (os : List Operand) : WSpec :=
  { srcs := [], maskSrcs := [], dst := .reg d ((os[0]?).getD ⟨[], 2⟩), second := none, mask := 0, whole := true, limit := 2 ^ 64,
    also := os, own := true, unit := 8
    run := fun s x vl _ =>
      { vals := (List.range vl).map fun i => (i, s.transFirst x os vl i)
        vals2 := [], tail := vl, exc := 0, scalar := none
        fail := ((List.range ((vl + 7) / 8)).find? fun b => os.zipIdx.any fun o => decide (o.2 < transSide vl b) &&
          (List.range (transSide vl b)).any fun c => s.elemFails x o.1 (8 * b + c)).map fun b => (8 * b, Fail.lost 0) }
    fin := fun u _ => (List.range ((u.me.vlen + 7) / 8)).foldl
      (fun (y : State) b => y.transBlock s (s.lanesOf s.tid) os b (transSide u.me.vlen b)) u }

theorem execVtrans_frame (s : State) (d : BitVec 6) (os : List Operand) (ho : s.me.eight d = some os) :
    execVtrans d s = .next (s.wframe (transSpec s d os) none) := by
  unfold execVtrans
  simp only [(Thread.eight_some ho).1, ho, ne_eq, not_true_eq_false, if_false]
  rfl

/-- The result over a strip of healthy registers: the first register's new elements, and no failure. -/
def State.transResult (s : State) (os : List Operand) : WRes :=
  ⟨(List.range s.me.vlen).map fun i => (i, s.transFirst (s.lanesOf s.tid) os s.me.vlen i), [], s.me.vlen, 0, none, none, []⟩

theorem transSpec_simple (s : State) (d : BitVec 6) (os : List Operand) (hp : s.Plain) (ho : s.me.eight d = some os)
    (hcap : ∀ o ∈ os, s.me.vlen ≤ s.capOf o) : (transSpec s d os).Simple s (s.transResult os) := by
  obtain ⟨-, hb, -, hbn, hv⟩ := hp
  have strip : s.Within 0 (os.map s.capOf) := by
    intro c hc
    obtain ⟨o, hm, rfl⟩ := List.mem_map.mp hc
    exact ⟨Nat.lt_of_lt_of_le (Nat.pos_of_ne_zero hv) (hcap o hm), hcap o hm⟩
  have mem {o : Operand} (h : o ∈ os) : s.capOf o ∈ os.map s.capOf := List.mem_map_of_mem h
  obtain ⟨lead, room⟩ := WSpec.capacity_within s (transSpec s d os) hbn (os.map s.capOf) strip (fun _ h => nomatch h)
    (mem (Thread.eight_some ho).2) (fun h => absurd rfl h) (fun h => absurd rfl h) (fun _ h => nomatch h) (fun _ h => mem h)
  refine ⟨?_, rfl, fun u _ hc hr => ?_, lead, room, ?_⟩
  · dsimp only [transSpec]
    rw [s.find_badBlock_none hb]
    rfl
  · have only : u.OnlyRegs ((transSpec s d os).fin u none) := onlyRegs_foldl _ (fun _ _ => State.transBlock_only ..) _ _
    exact ⟨(congrArg Thread.cut only.me).trans hc, (congrArg Thread.replaying only.me).trans hr⟩
  · exact Nat.le_trans (Nat.le_of_lt s.me.vlen_lt) (show 2 ^ 21 ≤ 2 ^ 64 by decide)

theorem execVtrans_transposes (s : State) (d : BitVec 6) (os : List Operand) (hp : s.Plain) (ho : s.me.eight d = some os)
    (hcap : ∀ o ∈ os, s.me.vlen ≤ s.capOf o) : execVtrans d s = .next (ended (s.transposed os s)) := by
  have only := s.transposed_only os s
  have completes : (transSpec s d os).fin (s.setMe (s.me.addFlags 0)) none = (s.transposed os s).setMe s.me := by
    rw [Thread.addFlags_zero, ← s.transposed_setMe os s s.me]
    dsimp only [transSpec]
    rw [State.me_setMe]
    rfl
  rw [execVtrans_frame s d os ho,
    s.wframe_own (transSpec s d os) none (s.transResult os) hp (transSpec_simple s d os hp ho hcap) rfl rfl (orExc_plain ..)]
  obtain ⟨hr, -, hc, -, -⟩ := hp
  refine congrArg _ ((congrArg State.vdone completes).trans ?_)
  rw [State.vdone_plain _ (by rw [State.me_setMe, hc]) (by rw [State.me_setMe, hr]), State.setMe_setMe, State.me_setMe, ended, only.me]

/-- Settles O44: one meaning for each of the six, completed at the next word; tshape and the slots keep ES, the others clear it. -/
theorem tileStorage : Obligations.TileStorage := by
  unfold Obligations.TileStorage
  intro s u d w n m k v at_ os t et pp c hr hb hc p next
  refine ⟨?_, ?_, fun hd ha hp hq => ?_, ?_, fun hn => ?_, fun ho hv hcap hbn => ?_⟩
  · refine ⟨_, exec_tshape .., ?_⟩
    exact ((s.setMe _).retire_goes (by rw [State.me_setMe, ← hr]; exact Thread.replaying_of _ _ rfl rfl rfl)).trans (by rw [largestN_eq])
  · exact ⟨_, exec_wbinv .., State.retire_goes _ hr⟩
  · refine ⟨_, (exec_wbload ..).trans (execWbload_loads s u w n m at_ hd ha hp hq), ?_⟩
    rw [u.putImage_healthy u.myL w _ _ (hp.marks.regBad.trans hb)]
    have hu : u.me.replaying = false := (congrArg Thread.replaying hp.marks.me).trans hr
    have same : u.physPair u.myL = pp ∧ u.myL = s.myL ∧ u.pair u.myL = s.myPair := by rw [hp.marks]; exact ⟨rfl, rfl, rfl⟩
    obtain ⟨hpp, hl, hpair⟩ := same
    rw [hpp, hpair, hl]
    exact State.retire_goes _ hu
  · refine ⟨_, exec_tzero .., ?_⟩
    rw [s.zeroReg_healthy _ _ hb]
    exact State.vdone_plain _ hc hr
  · refine ⟨_, (exec_tscale ..).trans (execTscale_scales s d n hb hn), ?_⟩
    exact (onlyRegs_foldl _ (fun _ _ => State.accPut_only ..) _ _).vdone_addFlags _ hc hr
  · exact ⟨_, (exec_vtrans ..).trans (execVtrans_transposes s v os ⟨hr, hb, hc, hbn, hv⟩ ho hcap), rfl⟩

end Sys2Proof.Machine
end

section
/-! Tile arithmetic (12 R279 to R287): a tcvt whose scale register has a tail. -/

-- The text compiles as one file: one theorem at a time keeps it within the check's memory.
set_option Elab.async false

namespace Sys2Proof.Machine

/-! ## The tails of tcvt: 12 R286, R289 -/

/-- Thread 0 of pair 0 in tile mode with the lanes of one group, under INT4 with TP set and a shape of one row of 32 columns; each register holds 8 bytes in
a lane, and every accumulator is zero. -/
def tilePair : State :=
  { State.reset with
    pairs := [(0, { Pair.reset with part := some 0, held0 := 1, tmu := some 0 })]
    threads := [(0, { Thread.reset with
      run := .running, leave := true, tcr := 2, vty := 0x1047, tm := 1, tn := 32
      win := Vector.ofFn fun k => ⟨BitVec.ofNat 10 k.val, 1⟩ })] }

/-- The registers a tcvt to v0 writes under group size 1: the codes in v0, the scale bytes in v1. -/
def codesInV0 : Operand := ⟨[⟨false, 0, 8⟩], 1⟩
def scalesInV1 : Operand := ⟨[⟨false, 8, 8⟩], 2⟩

/-- The same with 5 in element 1 of v1, behind the scale byte of the one block. -/
def tailedScales : State := tilePair.setElem (tilePair.lanesOf 0) scalesInV1 1 5

/-- Element 1 of v1 in what an instruction leaves. -/
def scaleTailAfter (o : Host.Outcome State Fault Refusal) : Option Nat :=
  match o with
  | .next z => some (z.elem (tilePair.lanesOf 0) scalesInV1 1)
  | _ => none

/-- The model zeroes the tail of the scale register too. -/
theorem tcvt_zeroes_scaleTail : scaleTailAfter (exec (.tcvt 0 0 0) tailedScales) = some 0 := by decide +kernel

theorem tailedScales_unbound (j : Nat) : (tailedScales.me.binds[j]?).getD none = none := by
  have none_bound : tailedScales.me.binds = Vector.replicate 8 none := by decide +kernel
  rw [none_bound]
  by_cases hj : j < 8
  · simp [hj]
  · simp [Nat.le_of_not_lt hj]

/-- Refutes O45: its clause on tcvt names the tail of the code registers alone. Under TP the tail of the scale register is zeroed as well (12 R286, R289), here the 5
behind the one scale byte, which the clause has tcvt leave. -/
theorem not_tileArithmetic : ¬ Obligations.TileArithmetic := by
  unfold Obligations.TileArithmetic
  intro h
  obtain ⟨-, -, tcvt⟩ := h tailedScales 0 0 0 0 codesInV0 (by decide +kernel) (by decide +kernel) (by decide +kernel) tailedScales_unbound
  obtain ⟨z, hexec, rfl⟩ := tcvt (by decide +kernel) (by decide +kernel) (by decide +kernel) (by decide +kernel) (by decide +kernel) (by decide +kernel)
    scalesInV1 (by decide +kernel) (by decide +kernel) (by decide +kernel) (by decide +kernel)
  have zeroed := tcvt_zeroes_scaleTail
  rw [hexec] at zeroed
  exact absurd zeroed (by decide +kernel)

end Sys2Proof.Machine
end
